-- ==== Sys2Proof/Word.lean ====
section
/-! DEFINITION. The machine's words (R32, R38, R41): bytes, 32-bit registers, 64-bit scalar registers, one value
per lane of a warp, and their plainest arithmetic. -/

namespace Sys2Proof

/-- One byte. -/
abbrev Byte := BitVec 8
/-- A 32-bit register or register lane (R41). -/
abbrev Word := BitVec 32
/-- A 64-bit scalar register or pair (R41). -/
abbrev DWord := BitVec 64
/-- A set of lanes: bit `l` is lane `l` (R155, R227). -/
abbrev Mask := BitVec 32
/-- One value for each of the 32 lanes of a warp. -/
abbrev Lanes (α : Type) := Vector α 32

/-- The lanes given by a function of the lane number. -/
abbrev Lanes.of (f : Nat → α) : Lanes α := Vector.ofFn (fun i => f i.val)

/-- The same value in every lane. -/
abbrev Lanes.all (a : α) : Lanes α := Lanes.of (fun _ => a)

/-- The value of lane `l`; lane numbers are taken modulo 32. -/
abbrev Lanes.get (v : Lanes α) (l : Nat) : α := v[l % 32]'(Nat.mod_lt _ (by decide))

/-- The lane numbers in ascending order. -/
abbrev laneNumbers : List Nat := List.range 32

/-- Lane `l` belongs to the mask. -/
abbrev Mask.has (m : Mask) (l : Nat) : Bool := m.getLsbD l

/-- The mask of the lanes that satisfy a test. -/
abbrev Mask.of (f : Nat → Bool) : Mask :=
  laneNumbers.foldl (fun m l => if f l then m ||| BitVec.twoPow 32 l else m) 0

/-- Number of lanes in a mask. -/
abbrev Mask.count (m : Mask) : Nat := (laneNumbers.filter (fun l => Mask.has m l)).length

/-- The lowest lane of a mask. -/
abbrev Mask.lowest (m : Mask) : Option Nat := laneNumbers.find? (fun l => Mask.has m l)

/-- The lanes of a mask in ascending order. -/
abbrev Mask.lanes (m : Mask) : List Nat := laneNumbers.filter (fun l => Mask.has m l)

end Sys2Proof
end

