-- ==== Sys2Proof/Syntax.lean ====
section
/-! DEFINITION. The instructions of PIL 1.0: one constructor of `Instr` per row of the opcode table (R48 and the
reference entries), with operands by R38, R39 and modifiers by each entry. Rows that are steps of an engine, of the
Cellar or of the outside world carry what the step acts on. -/

namespace Sys2Proof

/-! ### Operand fields (R38 to R43) -/

/-- ESEL of a KIND 00 operand (R42). -/
inductive ESel where
  | whole | h0 | h1 | swap
  | byte (k : BitVec 2)
  | nib (k : BitVec 3)
  deriving DecidableEq, Repr

/-- PERM of a KIND 00 operand (R43); code 111 is reserved and has no name. -/
inductive Perm where
  | none | rot | bc | bf | mirk | rg | up
  deriving DecidableEq, Repr

/-- A vector-register operand (KIND 00). -/
structure VecOp where
  reg : BitVec 8
  esel : ESel
  perm : Perm
  amt : BitVec 5
  deriving DecidableEq, Repr

/-- A 22-bit operand field (R38, R39). -/
inductive Operand where
  | vec (v : VecOp)
  | sreg (r : BitVec 6)
  | imm (v : BitVec 20)
  | pred (i : BitVec 4)
  | cond (i : BitVec 4)
  | spr (n : BitVec 12)
  | queue (q : BitVec 3)
  | tile (t : BitVec 5)
  | bar (b : BitVec 6)
  | hreg (k : BitVec 5)
  deriving DecidableEq, Repr

/-- The operand encoded by 22 zero bits, which an entry requires where it calls an operand unused (R37). -/
def Operand.unused : Operand := .vec ⟨0, .whole, .none, 0⟩

/-- The guard fields GN, GC and GI (R34). -/
structure Guard where
  neg : Bool
  cond : Bool
  ix : BitVec 4
  deriving DecidableEq, Repr

/-- The fields every encoding shares: guard, last-read hints and CH (R33 to R36). -/
structure Ctl where
  guard : Guard
  lra : Bool
  lrb : Bool
  lrc : Bool
  ch : BitVec 2
  deriving DecidableEq, Repr

/-! ### Modifier fields -/

/-- Width of an integer element (R52). -/
inductive IWidth where
  | b4 | b8 | b16 | b32 | b64
  deriving DecidableEq, Repr

/-- Integer type field of R52. -/
structure IntTy where
  signed : Bool
  w : IWidth
  deriving DecidableEq, Repr

/-- TYPE, PK and SAT of R130. -/
structure IntMod where
  ty : IntTy
  pk : Bool
  sat : Bool
  deriving DecidableEq, Repr

/-- A 32-bit or 64-bit type with its signedness (R144, R145). -/
structure LongTy where
  signed : Bool
  w64 : Bool
  deriving DecidableEq, Repr

/-- Rounding field of R52. -/
inductive Rnd where
  | dyn | rn | ra | rz | ru | rd
  deriving DecidableEq, Repr

/-- Float format field of R52. -/
inductive Fmt where
  | f64 | f32 | f16 | bf16 | e4m3 | e5m2
  deriving DecidableEq, Repr

/-- RM, FMT and PK of R182. -/
structure FloatMod where
  rm : Rnd
  fmt : Fmt
  pk : Bool
  deriving DecidableEq, Repr

/-- Comparison of ICMP (R140). -/
inductive ICmp where
  | eq | ne | lt | le | gt | ge
  deriving DecidableEq, Repr

/-- Comparison of FCMP (R188). -/
inductive FCmp where
  | eq | ne | lt | le | gt | ge | un | ord
  deriving DecidableEq, Repr

/-- Operation of PSET (R153). -/
inductive PsetOp where
  | and | or | xor
  deriving DecidableEq, Repr

/-- Mode of VOTE (R155). -/
inductive VoteMode where
  | any | all | ballot | cnt
  deriving DecidableEq, Repr

/-- Operation of VRED (R156). -/
inductive VredOp where
  | add | min | max | and | or | xor | fadd
  deriving DecidableEq, Repr

/-- SCOPE of R98. -/
inductive Scope where
  | warp | group | core | cluster | die | device | system
  deriving DecidableEq, Repr

/-- ORDER of R98; the meaning of code 11 is each entry's. -/
inductive MemOrder where
  | plain | acq | rel | special
  deriving DecidableEq, Repr

/-- WIDTH of R98. -/
inductive MemWidth where
  | n8 | s8 | n16 | s16 | w32 | w64 | q
  deriving DecidableEq, Repr

/-- SCOPE, ORDER and WIDTH of R98. -/
structure MemMod where
  scope : Scope
  order : MemOrder
  width : MemWidth
  deriving DecidableEq, Repr

/-- Sub-operation of the atomics (R106). -/
inductive AtomOp where
  | add | smin | umin | smax | umax | and | or | xor | exch | cas | fadd
  deriving DecidableEq, Repr

/-- Kind of a FENCE (R111). -/
inductive FenceKind where
  | acq | rel | acqrel | sc
  deriving DecidableEq, Repr

/-- Condition of WAITMEM (R112). -/
inductive WaitCond where
  | ne | eq | ge
  deriving DecidableEq, Repr

/-- Scope of CINV.I (R114). -/
inductive CinvScope where
  | core | cluster | die | device
  deriving DecidableEq, Repr

/-- RM, DST, PK, SRC and SAT of FCVT (R191). -/
structure CvtMod where
  rm : Rnd
  dst : Fmt
  pk : Bool
  src : Fmt
  sat : Bool
  deriving DecidableEq, Repr

/-- RM, FMT, DIR and the integer type of ICVT (R192). -/
structure IcvtMod where
  rm : Rnd
  fmt : Fmt
  toInt : Bool
  ty : IntTy
  deriving DecidableEq, Repr

/-- Form of CBDEC (R198). -/
inductive CbMode where
  | x2 (j : BitVec 2)
  | f32
  deriving DecidableEq, Repr

/-- Source of DEQ (R199). -/
inductive DeqSrc where
  | e4m3 | e5m2 | s8 | s4
  deriving DecidableEq, Repr

/-- Function selector of FUNC and FUNCA (R202), in the order of its codes 0x00 to 0x1B. -/
inductive Fn where
  | exp | exp2 | exp10 | expm1 | log | log2 | log10 | log1p | sin | cos | tan | sinpi | cospi | tanpi
  | asin | acos | atan | sinh | cosh | tanh | asinh | acosh | atanh | erf | erfc | rsqrt | cbrt | rcp
  deriving DecidableEq, Repr

/-- Function selector of FUNC2 (R202). -/
inductive Fn2 where
  | sincos | sincospi | atan2 | hypot
  deriving DecidableEq, Repr

/-- Format of the A operand of the matrix engine (R341). -/
inductive AFmt where
  | bf16 | f16 | e4m3 | e5m2 | s8 | n8 | s4 | n4 | t5
  deriving DecidableEq, Repr

/-- Format of the B operand of the matrix engine (R341). -/
inductive BFmt where
  | bf16 | f16 | e4m3 | e5m2 | s8 | n8 | s4 | c4
  deriving DecidableEq, Repr

/-- MODE of MMA (R360). -/
inductive MmaMode where
  | plain | tri | gth
  deriving DecidableEq, Repr

/-- AF, BF, MODE, SC, ZC and SAT of MMA (R360). -/
structure MmaMod where
  af : AFmt
  bf : BFmt
  mode : MmaMode
  sc : Bool
  zc : Bool
  sat : Bool
  deriving DecidableEq, Repr

/-- Conversion of MXMOV.ST (R361). -/
inductive MxCv where
  | f32 | bf16 | f16
  deriving DecidableEq, Repr

/-- Join of HBIND (R396). -/
inductive HJoin where
  | next | retain | start
  deriving DecidableEq, Repr

/-! ### What the rows that are not encoded act on -/

/-- An agent with a program order of its own (R117). -/
inductive Agent where
  | hall (g : Nat)
  | warp (g w : Nat)
  | ap (g p : Nat)
  deriving DecidableEq, Repr

/-- An engine that stops by itself for the collector and the halt line (R19, R23). -/
inductive Engine where
  | core (n : Nat)
  | accessProc (n : Nat)
  | matrix (n : Nat)
  | stair (die : Nat)
  | fabric (die : Nat)
  | hinge (die : Nat)
  deriving DecidableEq, Repr

/-- The instructions and steps of the opcode table. -/
inductive Instr where
  -- execution model (R50, R75, R77, R84, R85)
  | nop (k : Ctl)
  | shmap (k : Ctl) (a b c : Operand)
  | shmapOff (k : Ctl) (a b c : Operand)
  | barGate (k : Ctl) (a : Operand)
  | barMark (k : Ctl) (a : Operand)
  | barHold (k : Ctl) (gen : Bool) (a b : Operand)
  | barSet (k : Ctl) (a b : Operand)
  | safept (k : Ctl) (c : Operand)
  | safeptResume (k : Ctl)
  | yieldI (k : Ctl) (c : Operand)
  -- memory (R101 to R115)
  | ld (k : Ctl) (m : MemMod) (off : BitVec 24) (a b : Operand)
  | st (k : Ctl) (m : MemMod) (off : BitVec 24) (a b : Operand)
  | lds (k : Ctl) (w : MemWidth) (off : BitVec 24) (a b : Operand)
  | sts (k : Ctl) (w : MemWidth) (off : BitVec 24) (a b : Operand)
  | ldfe (k : Ctl) (take : Bool) (w : MemWidth) (off : BitVec 24) (a b : Operand)
  | stfe (k : Ctl) (w : MemWidth) (off : BitVec 24) (a b : Operand)
  | stfeClr (k : Ctl) (off : BitVec 24) (b : Operand)
  | atom (k : Ctl) (op : AtomOp) (m : MemMod) (off : BitVec 20) (a b : Operand)
  | atoms (k : Ctl) (op : AtomOp) (w64 : Bool) (off : BitVec 20) (a b : Operand)
  | red (k : Ctl) (op : AtomOp) (m : MemMod) (off : BitVec 20) (a b : Operand)
  | splook (k : Ctl) (a b c : Operand)
  | sptag (k : Ctl) (a b c : Operand)
  | sptagDel (k : Ctl) (a c : Operand)
  | fence (k : Ctl) (kind : FenceKind) (sc : Scope)
  | fenceH (k : Ctl) (kind : FenceKind) (sc : Scope)
  | waitmem (k : Ctl) (cnd : WaitCond) (sc : Scope) (w64 : Bool) (off : BitVec 24) (a b : Operand)
  | pref (k : Ctl) (off : BitVec 24) (b : Operand)
  | cinvI (k : Ctl) (sc : CinvScope)
  | cinvL2 (k : Ctl) (off : BitVec 24) (b : Operand)
  | latchSrc (k : Ctl) (sp : Bool) (a b c : Operand)
  | latchDst (k : Ctl) (sp : Bool) (a b c : Operand)
  | latchRel (k : Ctl) (sp : Bool) (b : Operand)
  | latchGrant (ctx i : Nat)
  -- ordering (R118, R119)
  | storeCommit (g : Agent)
  | storePerformed (core i : Nat)
  -- integer (R133 to R141)
  | iadd (k : Ctl) (m : IntMod) (a b c : Operand)
  | isub (k : Ctl) (m : IntMod) (a b c : Operand)
  | imul (k : Ctl) (m : IntMod) (a b c : Operand)
  | imulh (k : Ctl) (m : IntMod) (a b c : Operand)
  | imad (k : Ctl) (m : IntMod) (a b c : Operand)
  | idiv (k : Ctl) (m : IntMod) (a b c : Operand)
  | irem (k : Ctl) (m : IntMod) (a b c : Operand)
  | imin (k : Ctl) (m : IntMod) (a b c : Operand)
  | imax (k : Ctl) (m : IntMod) (a b c : Operand)
  | iabs (k : Ctl) (m : IntMod) (a b : Operand)
  | ineg (k : Ctl) (m : IntMod) (a b : Operand)
  | iaddc (k : Ctl) (w64 : Bool) (ix : BitVec 4) (a b c : Operand)
  | isad (k : Ctl) (m : IntMod) (a b c : Operand)
  | idot4 (k : Ctl) (bs cs sat : Bool) (a b c : Operand)
  | asacc (k : Ctl) (sgn sat : Bool) (a b c : Operand)
  | icmp (k : Ctl) (cmp : ICmp) (ty : LongTy) (a b c : Operand)
  | isel (k : Ctl) (neg : Bool) (ix : BitVec 4) (ty : LongTy) (a b c : Operand)
  -- logic, bits, lanes (R142 to R152)
  | and (k : Ctl) (nc w64 : Bool) (a b c : Operand)
  | or (k : Ctl) (nc w64 : Bool) (a b c : Operand)
  | xor (k : Ctl) (nc w64 : Bool) (a b c : Operand)
  | bitfn (k : Ctl) (w64 : Bool) (tbl : BitVec 8) (a b c : Operand)
  | shl (k : Ctl) (ty : LongTy) (a b c : Operand)
  | shr (k : Ctl) (ty : LongTy) (a b c : Operand)
  | rot (k : Ctl) (ty : LongTy) (a b c : Operand)
  | bfx (k : Ctl) (ty : LongTy) (a b c : Operand)
  | bfi (k : Ctl) (ty : LongTy) (a b c : Operand)
  | popc (k : Ctl) (w64 : Bool) (a b : Operand)
  | clz (k : Ctl) (w64 : Bool) (a b : Operand)
  | ctz (k : Ctl) (w64 : Bool) (a b : Operand)
  | brev (k : Ctl) (w64 : Bool) (a b : Operand)
  | mov (k : Ctl) (w64 : Bool) (a b : Operand)
  | movi (k : Ctl) (hi : BitVec 12) (a b c : Operand)
  | perm (k : Ctl) (z : Bool) (a b c : Operand)
  | pack (k : Ctl) (m : IntMod) (a b c : Operand)
  | unpk3 (k : Ctl) (trap : Bool) (a b c : Operand)
  | isect (k : Ctl) (a b c : Operand)
  -- predicates and reductions (R153 to R156, R66)
  | pset (k : Ctl) (op : PsetOp) (nb nc inv : Bool) (a b c : Operand)
  | pmov (k : Ctl) (a b : Operand)
  | pmovToreg (k : Ctl) (a b : Operand)
  | pmovFromreg (k : Ctl) (a b c : Operand)
  | vote (k : Ctl) (mode : VoteMode) (neg : Bool) (a b : Operand)
  | vred (k : Ctl) (op : VredOp) (ty : LongTy) (a b : Operand)
  | hallCombine (g : Nat)
  -- control flow (R159 to R165, R69)
  | bra (k : Ctl) (l : Bool) (off : BitVec 24)
  | brx (k : Ctl) (l : Bool) (b : Operand)
  | meet (k : Ctl) (off : BitVec 24)
  | meetSv (k : Ctl) (off : BitVec 24) (a : Operand)
  | meetLd (k : Ctl) (b : Operand)
  | regionRelease (g w : Nat)
  | call (k : Ctl) (off : BitVec 24)
  | callx (k : Ctl) (b : Operand)
  | ret (k : Ctl)
  | exit (k : Ctl)
  | loop (k : Ctl) (off : BitVec 24) (a : Operand)
  -- floating point (R185 to R199)
  | fadd (k : Ctl) (m : FloatMod) (a b c : Operand)
  | fsub (k : Ctl) (m : FloatMod) (a b c : Operand)
  | fmul (k : Ctl) (m : FloatMod) (a b c : Operand)
  | ffma (k : Ctl) (np na : Bool) (m : FloatMod) (a b c : Operand)
  | fdiv (k : Ctl) (m : FloatMod) (a b c : Operand)
  | fsqrt (k : Ctl) (m : FloatMod) (a b : Operand)
  | fminmax (k : Ctl) (mx nan : Bool) (m : FloatMod) (a b c : Operand)
  | fabs (k : Ctl) (m : FloatMod) (a b : Operand)
  | fneg (k : Ctl) (m : FloatMod) (a b : Operand)
  | fcopys (k : Ctl) (m : FloatMod) (a b c : Operand)
  | fcmp (k : Ctl) (cmp : FCmp) (m : FloatMod) (a b c : Operand)
  | fclass (k : Ctl) (m : FloatMod) (a b c : Operand)
  | frnd (k : Ctl) (x : Bool) (m : FloatMod) (a b : Operand)
  | fcvt (k : Ctl) (m : CvtMod) (a b c : Operand)
  | icvt (k : Ctl) (m : IcvtMod) (a b : Operand)
  | fexpoScale (k : Ctl) (m : FloatMod) (a b c : Operand)
  | fexpoGetexp (k : Ctl) (m : FloatMod) (a b : Operand)
  | fexpoGetmant (k : Ctl) (m : FloatMod) (a b : Operand)
  | fdot2 (k : Ctl) (m : FloatMod) (a b c : Operand)
  | fmad2 (k : Ctl) (mad conj : Bool) (m : FloatMod) (a b c : Operand)
  | fstatGet (k : Ctl) (a : Operand)
  | fstatClr (k : Ctl) (b : Operand)
  | fstatSet (k : Ctl) (b : Operand)
  | quant (k : Ctl) (a b c : Operand)
  | cbdec (k : Ctl) (md : CbMode) (a b c : Operand)
  | deq (k : Ctl) (src : DeqSrc) (a b c : Operand)
  -- special functions (R214 to R216, R203, R204)
  | func (k : Ctl) (rm : Rnd) (fmt : Fmt) (fn : Fn) (a b : Operand)
  | funca (k : Ctl) (fmt : Fmt) (fn : Fn) (a b : Operand)
  | func2 (k : Ctl) (rm : Rnd) (fmt : Fmt) (fn : Fn2) (a b c : Operand)
  | sfuPhase1Complete (core i : Nat)
  | sfuPhase2Lane (core : Nat)
  -- traps and system (R230 to R235, R250, R46, R233)
  | tretRetry (k : Ctl)
  | tretSkip (k : Ctl)
  | tretKillpt (k : Ctl)
  | tretKillw (k : Ctl)
  | tretFatal (k : Ctl)
  | hallFaultDelivery (g : Nat)
  | trap (k : Ctl) (c : Operand)
  | bkpt (k : Ctl) (c : Operand)
  | ill (k : Ctl) (fn : BitVec 12) (a b c : BitVec 22)
  | rdsr (k : Ctl) (a b : Operand)
  | wrsr (k : Ctl) (a b : Operand)
  | ctxopSetf (k : Ctl) (field : BitVec 8) (a b c : Operand)
  | ctxopRegion (k : Ctl) (a b c : Operand)
  | ctxopTlbinv (k : Ctl) (b c : Operand)
  | watchdogExpiry (g : Nat)
  -- the Stair (R275 to R279, R257, R267, R270)
  | nbind (k : Ctl) (a b c : Operand)
  | npop (k : Ctl) (try_ : Bool) (a : Operand)
  | ndoneOk (k : Ctl) (a : Operand)
  | ndoneFail (k : Ctl) (a b c : Operand)
  | ndoneKill (k : Ctl) (a b c : Operand)
  | nxbnd (k : Ctl) (hi : Bool) (d : BitVec 2) (a b c : Operand)
  | boundRewrite (die i : Nat)
  | njoin (k : Ctl) (q try_ : Bool) (a b : Operand)
  | rowOpen (ctx handle : Nat)
  | scheduleStart (ctx handle : Nat)
  -- determinism and scheduling (R307, R308, R73 to R79, R287 to R289, R18 to R26)
  | detsetD0 (k : Ctl) (a : Operand)
  | detsetRec (k : Ctl) (d2 : Bool) (a b : Operand)
  | detsetPlay (k : Ctl) (d2 : Bool) (a b : Operand)
  | clk (k : Ctl) (a : Operand)
  | clkVt (k : Ctl) (a : Operand)
  | clkRet (k : Ctl) (a : Operand)
  | waitEnd (g : Agent)
  | waitSwap (g : Nat)
  | coreStallSwap (core : Nat)
  | groupMove (g core : Nat)
  | groupReadmission (g core : Nat)
  | groupPlacement (ctx i core : Nat)
  | quantumExpiry (ctx : Nat) (rcb : Nat)
  | enginePreemptStop (ctx : Nat) (e : Engine)
  | haltLineRaise (ctx : Nat) (e : Engine) (cause : Nat) (addr : Nat)
  | engineHaltStop (ctx : Nat) (e : Engine)
  | shutterSample (ctx : Nat)
  | shutterSecondSample (ctx : Nat)
  -- access processor (R329 to R335)
  | aprun (k : Ctl) (a b c : Operand)
  | aqld (k : Ctl) (str : Bool) (off : BitVec 24) (a b : Operand)
  | aqldSp (k : Ctl) (str : Bool) (off : BitVec 24) (a b : Operand)
  | aqldComplete (g i : Nat)
  | aqst (k : Ctl) (str : Bool) (off : BitVec 24) (a b : Operand)
  | aqsyn (k : Ctl) (sc : Scope)
  | qpop (k : Ctl) (a b : Operand)
  | qpush (k : Ctl) (a b : Operand)
  | qctlToken (k : Ctl) (a b c : Operand)
  | qctlRetry (k : Ctl) (a b : Operand)
  | qctlKill (k : Ctl) (a b : Operand)
  | qctlStat (k : Ctl) (a b : Operand)
  | qctlJoin (k : Ctl) (a b : Operand)
  -- matrix engine (R345, R346, R360 to R363)
  | mma (k : Ctl) (m : MmaMod) (a b c : Operand)
  | commandEligible (cluster i : Nat)
  | matrixPass (cluster i : Nat)
  | matrixCommandComplete (cluster i : Nat)
  | mxmovRd (k : Ctl) (a b c : Operand)
  | mxmovWr (k : Ctl) (a b c : Operand)
  | mxmovSt (k : Ctl) (cv : MxCv) (fe : Bool) (a b : Operand)
  | mxmovLd (k : Ctl) (a b : Operand)
  | mxmovZero (k : Ctl) (a : Operand)
  | mxmovFlg (k : Ctl) (a b : Operand)
  | mkeyJoin (k : Ctl)
  | mkeyTake (k : Ctl)
  | mkeyPass (k : Ctl)
  | mkeyLeave (k : Ctl)
  | mkeyRsv (k : Ctl) (a : Operand)
  | mkeyRel (k : Ctl) (a : Operand)
  | plane (k : Ctl) (af : AFmt) (nr : BitVec 4) (b c : Operand)
  -- fabric engine (R369 to R383)
  | fxg (k : Ctl) (a b : Operand)
  | fxc (k : Ctl) (a b : Operand)
  | fabricShare (die i : Nat)
  | fabricUnitComplete (die i : Nat)
  | collectiveCheck (die i : Nat)
  | fabricCommandComplete (die i : Nat)
  -- the Hinge (R391, R400, R405 to R407)
  | hbind (k : Ctl) (j : HJoin) (lag : Bool) (a b : Operand)
  | hbindDrain (k : Ctl) (a b : Operand)
  | hbindCut (k : Ctl) (a b : Operand)
  | hrecv (k : Ctl) (try_ : Bool) (a b : Operand)
  | hsendOk (k : Ctl) (a : Operand)
  | hsendMore (k : Ctl) (a : Operand)
  | hsendNone (k : Ctl) (a : Operand)
  | hsendFail (k : Ctl) (a b c : Operand)
  | hsendKill (k : Ctl) (a b c : Operand)
  | sourceEmit (i : Nat)
  | sinkWrite (ctx handle : Nat)
  | endOfStream (i : Nat)
  -- stack controllers (R413, R414, R422)
  | epochEnd (stack : Nat)
  | regionSwap (stack : Nat)
  | swapcfg (on : Bool) (factor offset : Nat)
  | retire (layer : Nat)
  | restore (layer : Nat)
  | rotate (ctx key : Nat)
  | spare (stack layer region : Nat)
  | readcnt (stack layer : Nat)
  -- the Cellar and the host (R425 to R439)
  | boot
  | recoveryChunk (v : DWord)
  | getVersion (req : List Byte)
  | getCapabilities (req : List Byte)
  | negotiateAlgorithms (req : List Byte)
  | getDigests (req : List Byte)
  | getCertificate (req : List Byte)
  | challenge (req : List Byte)
  | getMeasurements (req : List Byte)
  | qenableWrite (v : DWord)
  | doorbell (v : DWord)
  | requestPoll
  | registerWrite (off : Nat) (v : DWord)
  | hello
  | create
  | start
  | preempt
  | resume
  | reset
  | destroy
  | update
  | powercap
  | eventPost
  | linkTraining (port : Nat) (up : Bool) (major minor : Nat) (identity : DWord)
  | fabricGroupAnnounce (group : Nat) (dev : Nat) (identity : DWord) (ctx : Nat)
  | memberLeave (group : Nat) (dev : Nat)
  | thermalThrottle (die : Nat)
  | thermalTrip (die : Nat)
  | expanderRemoved (port : Nat)
  | rotationEnd (ctx : Nat)
  | powerLoss
  | announceAcknowledgement (identity : DWord)
  | acknowledgementTimeout
  deriving DecidableEq, Repr

end Sys2Proof
end

