-- ==== Sys2Proof/Decode.lean ====
section
/-! DEFINITION. Reading the 96-bit word (R32, R33), its operand fields (R38, R39) and each opcode's FN (R37, R48 and
the reference entries); then the encoder, written from the same tables. Decoding makes checks 1 and 2 of R47 and
the structural part of check 4; the remaining checks are in Machine/Checks.lean. -/

namespace Sys2Proof

/-- Why a word is refused. Every one of these is an ILLEGAL_INSTR of checks 1 to 4 (R47), but for `notEncoded`. -/
inductive Reject where
  | reservedOpcode   -- R49
  | reservedFn       -- R37
  | reservedOperand  -- R38, R39, R43
  | unusedOperand    -- R37
  | offsetKind       -- R44, R158
  deriving DecidableEq, Repr

/-- The fields of the word (R33). -/
structure Fields where
  op : BitVec 7
  gn : Bool
  gc : Bool
  gi : BitVec 4
  lra : Bool
  lrb : Bool
  lrc : Bool
  ch : BitVec 2
  fn : BitVec 12
  a : BitVec 22
  b : BitVec 22
  c : BitVec 22
  deriving DecidableEq, Repr

/-- One bit as a vector. -/
def bit (x : Bool) : BitVec 1 := BitVec.ofBool x

/-- Bit `i` of a field. -/
def tap (x : BitVec n) (i : Nat) : Bool := x.getLsbD i

/-- Bits `s + n - 1 : s` of a field. -/
def cut (s n : Nat) (x : BitVec m) : BitVec n := x.extractLsb' s n

/-- The 96-bit word of the fields (R33). -/
def Fields.pack (f : Fields) : BitVec 96 :=
  f.op ++ bit f.gn ++ bit f.gc ++ f.gi ++ bit f.lra ++ bit f.lrb ++ bit f.lrc ++ f.ch ++ f.fn ++ f.a ++ f.b ++ f.c

/-- The fields of a 96-bit word (R33). -/
def Fields.unpack (w : BitVec 96) : Fields :=
  { op := cut 89 7 w, gn := tap w 88, gc := tap w 87, gi := cut 83 4 w, lra := tap w 82, lrb := tap w 81,
    lrc := tap w 80, ch := cut 78 2 w, fn := cut 66 12 w, a := cut 44 22 w, b := cut 22 22 w, c := cut 0 22 w }

def Fields.ctl (f : Fields) : Ctl :=
  { guard := { neg := f.gn, cond := f.gc, ix := f.gi }, lra := f.lra, lrb := f.lrb, lrc := f.lrc, ch := f.ch }

/-! ### Codes -/

/-- ESEL codes of R42. -/
def ESel.ofCode (c : BitVec 4) : ESel :=
  if tap c 3 then .nib (cut 0 3 c)
  else if tap c 2 then .byte (cut 0 2 c)
  else if tap c 1 then (if tap c 0 then .swap else .h1)
  else (if tap c 0 then .h0 else .whole)

def ESel.code : ESel → BitVec 4
  | .whole => 0
  | .h0 => 1
  | .h1 => 2
  | .swap => 3
  | .byte k => (0b01 : BitVec 2) ++ k
  | .nib k => (0b1 : BitVec 1) ++ k

/-- PERM codes of R43; 111 is reserved. -/
def Perm.ofCode (c : BitVec 3) : Option Perm :=
  match c.toNat with
  | 0 => some .none
  | 1 => some .rot
  | 2 => some .bc
  | 3 => some .bf
  | 4 => some .mirk
  | 5 => some .rg
  | 6 => some .up
  | _ => Option.none

def Perm.code : Perm → BitVec 3
  | .none => 0
  | .rot => 1
  | .bc => 2
  | .bf => 3
  | .mirk => 4
  | .rg => 5
  | .up => 6

/-- An operand field (R38, R39). -/
def Operand.decode (x : BitVec 22) : Except Reject Operand :=
  match (cut 20 2 x).toNat with
  | 0 => match Perm.ofCode (cut 5 3 x) with
    | some p => .ok (.vec { reg := cut 12 8 x, esel := ESel.ofCode (cut 8 4 x), perm := p, amt := cut 0 5 x })
    | none => .error .reservedOperand
  | 1 => if cut 0 14 x = 0 then .ok (.sreg (cut 14 6 x)) else .error .reservedOperand
  | 2 => .ok (.imm (cut 0 20 x))
  | _ =>
    match (cut 16 4 x).toNat with
    | 0 => if cut 4 12 x = 0 then .ok (.pred (cut 0 4 x)) else .error .reservedOperand
    | 1 => if cut 4 12 x = 0 then .ok (.cond (cut 0 4 x)) else .error .reservedOperand
    | 2 => if cut 12 4 x = 0 then .ok (.spr (cut 0 12 x)) else .error .reservedOperand
    | 3 => if cut 3 13 x = 0 then .ok (.queue (cut 0 3 x)) else .error .reservedOperand
    | 4 => if cut 5 11 x = 0 then .ok (.tile (cut 0 5 x)) else .error .reservedOperand
    | 5 => if cut 6 10 x = 0 then .ok (.bar (cut 0 6 x)) else .error .reservedOperand
    | 6 => if cut 5 11 x = 0 then .ok (.hreg (cut 0 5 x)) else .error .reservedOperand
    | _ => .error .reservedOperand

def Operand.encode : Operand → BitVec 22
  | .vec v => (0b00 : BitVec 2) ++ v.reg ++ v.esel.code ++ v.perm.code ++ v.amt
  | .sreg r => (0b01 : BitVec 2) ++ r ++ (0 : BitVec 14)
  | .imm v => (0b10 : BitVec 2) ++ v
  | .pred i => (0b11_0000 : BitVec 6) ++ (0 : BitVec 12) ++ i
  | .cond i => (0b11_0001 : BitVec 6) ++ (0 : BitVec 12) ++ i
  | .spr n => (0b11_0010 : BitVec 6) ++ (0 : BitVec 4) ++ n
  | .queue q => (0b11_0011 : BitVec 6) ++ (0 : BitVec 13) ++ q
  | .tile t => (0b11_0100 : BitVec 6) ++ (0 : BitVec 11) ++ t
  | .bar b => (0b11_0101 : BitVec 6) ++ (0 : BitVec 10) ++ b
  | .hreg k => (0b11_0110 : BitVec 6) ++ (0 : BitVec 11) ++ k

/-- Integer type field of R52. -/
def IWidth.ofCode (c : BitVec 3) : Option IWidth :=
  match c.toNat with
  | 0 => some .b4
  | 1 => some .b8
  | 2 => some .b16
  | 3 => some .b32
  | 4 => some .b64
  | _ => none

def IWidth.code : IWidth → BitVec 3
  | .b4 => 0
  | .b8 => 1
  | .b16 => 2
  | .b32 => 3
  | .b64 => 4

def IntTy.ofCode (c : BitVec 4) : Option IntTy := (IWidth.ofCode (cut 0 3 c)).map (fun w => ⟨tap c 3, w⟩)

def IntTy.code (t : IntTy) : BitVec 4 := bit t.signed ++ t.w.code

/-- A 32-bit or 64-bit TYPE field. -/
def LongTy.ofCode (c : BitVec 4) : Option LongTy :=
  match (cut 0 3 c).toNat with
  | 3 => some ⟨tap c 3, false⟩
  | 4 => some ⟨tap c 3, true⟩
  | _ => none

def w64Code (w64 : Bool) : BitVec 3 := if w64 then 4 else 3

/-- A 32-bit or 64-bit type without a sign, in four bits. -/
def wCode (w64 : Bool) : BitVec 4 := if w64 then 4 else 3

def LongTy.code (t : LongTy) : BitVec 4 := bit t.signed ++ w64Code t.w64

/-- FN[3:0] = 0011 for 32 bits or 0100 for 64 bits (R142). -/
def w64OfCode (c : BitVec 4) : Option Bool :=
  match c.toNat with
  | 3 => some false
  | 4 => some true
  | _ => none

def Rnd.ofCode (c : BitVec 3) : Option Rnd :=
  match c.toNat with
  | 0 => some .dyn
  | 1 => some .rn
  | 2 => some .ra
  | 3 => some .rz
  | 4 => some .ru
  | 5 => some .rd
  | _ => none

def Rnd.code : Rnd → BitVec 3
  | .dyn => 0
  | .rn => 1
  | .ra => 2
  | .rz => 3
  | .ru => 4
  | .rd => 5

def Fmt.ofCode (c : BitVec 3) : Option Fmt :=
  match c.toNat with
  | 0 => some .f64
  | 1 => some .f32
  | 2 => some .f16
  | 3 => some .bf16
  | 4 => some .e4m3
  | 5 => some .e5m2
  | _ => none

def Fmt.code : Fmt → BitVec 3
  | .f64 => 0
  | .f32 => 1
  | .f16 => 2
  | .bf16 => 3
  | .e4m3 => 4
  | .e5m2 => 5

def ICmp.ofCode (c : BitVec 6) : Option ICmp :=
  match c.toNat with
  | 0 => some .eq
  | 1 => some .ne
  | 2 => some .lt
  | 3 => some .le
  | 4 => some .gt
  | 5 => some .ge
  | _ => none

def ICmp.code : ICmp → BitVec 6
  | .eq => 0
  | .ne => 1
  | .lt => 2
  | .le => 3
  | .gt => 4
  | .ge => 5

def FCmp.ofCode (c : BitVec 5) : Option FCmp :=
  match c.toNat with
  | 0 => some .eq
  | 1 => some .ne
  | 2 => some .lt
  | 3 => some .le
  | 4 => some .gt
  | 5 => some .ge
  | 6 => some .un
  | 7 => some .ord
  | _ => none

def FCmp.code : FCmp → BitVec 5
  | .eq => 0
  | .ne => 1
  | .lt => 2
  | .le => 3
  | .gt => 4
  | .ge => 5
  | .un => 6
  | .ord => 7

def PsetOp.ofCode (c : BitVec 2) : Option PsetOp :=
  match c.toNat with
  | 0 => some .and
  | 1 => some .or
  | 2 => some .xor
  | _ => none

def PsetOp.code : PsetOp → BitVec 2
  | .and => 0
  | .or => 1
  | .xor => 2

def VoteMode.ofCode (c : BitVec 2) : VoteMode :=
  match c.toNat with
  | 0 => .any
  | 1 => .all
  | 2 => .ballot
  | _ => .cnt

def VoteMode.code : VoteMode → BitVec 2
  | .any => 0
  | .all => 1
  | .ballot => 2
  | .cnt => 3

def VredOp.ofCode (c : BitVec 6) : Option VredOp :=
  match c.toNat with
  | 0 => some .add
  | 1 => some .min
  | 2 => some .max
  | 3 => some .and
  | 4 => some .or
  | 5 => some .xor
  | 6 => some .fadd
  | _ => none

def VredOp.code : VredOp → BitVec 6
  | .add => 0
  | .min => 1
  | .max => 2
  | .and => 3
  | .or => 4
  | .xor => 5
  | .fadd => 6

def Scope.ofCode (c : BitVec 3) : Option Scope :=
  match c.toNat with
  | 0 => some .warp
  | 1 => some .group
  | 2 => some .core
  | 3 => some .cluster
  | 4 => some .die
  | 5 => some .device
  | 6 => some .system
  | _ => none

def Scope.code : Scope → BitVec 3
  | .warp => 0
  | .group => 1
  | .core => 2
  | .cluster => 3
  | .die => 4
  | .device => 5
  | .system => 6

def MemOrder.ofCode (c : BitVec 2) : MemOrder :=
  match c.toNat with
  | 0 => .plain
  | 1 => .acq
  | 2 => .rel
  | _ => .special

def MemOrder.code : MemOrder → BitVec 2
  | .plain => 0
  | .acq => 1
  | .rel => 2
  | .special => 3

def MemWidth.ofCode (c : BitVec 3) : Option MemWidth :=
  match c.toNat with
  | 0 => some .n8
  | 1 => some .s8
  | 2 => some .n16
  | 3 => some .s16
  | 4 => some .w32
  | 5 => some .w64
  | 6 => some .q
  | _ => none

def MemWidth.code : MemWidth → BitVec 3
  | .n8 => 0
  | .s8 => 1
  | .n16 => 2
  | .s16 => 3
  | .w32 => 4
  | .w64 => 5
  | .q => 6

/-- WIDTH 100 or 101. -/
def wideOfCode (c : BitVec 3) : Option Bool :=
  match c.toNat with
  | 4 => some false
  | 5 => some true
  | _ => none

def wideCode (w64 : Bool) : BitVec 3 := if w64 then 5 else 4

def AtomOp.ofCode (c : BitVec 4) : Option AtomOp :=
  match c.toNat with
  | 0 => some .add
  | 1 => some .smin
  | 2 => some .umin
  | 3 => some .smax
  | 4 => some .umax
  | 5 => some .and
  | 6 => some .or
  | 7 => some .xor
  | 8 => some .exch
  | 9 => some .cas
  | 10 => some .fadd
  | _ => none

def AtomOp.code : AtomOp → BitVec 4
  | .add => 0
  | .smin => 1
  | .umin => 2
  | .smax => 3
  | .umax => 4
  | .and => 5
  | .or => 6
  | .xor => 7
  | .exch => 8
  | .cas => 9
  | .fadd => 10

def FenceKind.ofCode (c : BitVec 2) : FenceKind :=
  match c.toNat with
  | 0 => .acq
  | 1 => .rel
  | 2 => .acqrel
  | _ => .sc

def FenceKind.code : FenceKind → BitVec 2
  | .acq => 0
  | .rel => 1
  | .acqrel => 2
  | .sc => 3

def WaitCond.ofCode (c : BitVec 2) : Option WaitCond :=
  match c.toNat with
  | 0 => some .ne
  | 1 => some .eq
  | 2 => some .ge
  | _ => none

def WaitCond.code : WaitCond → BitVec 2
  | .ne => 0
  | .eq => 1
  | .ge => 2

def CinvScope.ofCode (c : BitVec 3) : Option CinvScope :=
  match c.toNat with
  | 2 => some .core
  | 3 => some .cluster
  | 4 => some .die
  | 5 => some .device
  | _ => none

def CinvScope.code : CinvScope → BitVec 3
  | .core => 2
  | .cluster => 3
  | .die => 4
  | .device => 5

def CbMode.ofCode (c : BitVec 5) : Option CbMode :=
  if cut 2 3 c = 0 then some (.x2 (cut 0 2 c))
  else if c = 0b10000 then some .f32 else none

def CbMode.code : CbMode → BitVec 5
  | .x2 j => (0 : BitVec 3) ++ j
  | .f32 => 0b10000

def DeqSrc.ofCode (c : BitVec 3) : Option DeqSrc :=
  match c.toNat with
  | 0 => some .e4m3
  | 1 => some .e5m2
  | 2 => some .s8
  | 3 => some .s4
  | _ => none

def DeqSrc.code : DeqSrc → BitVec 3
  | .e4m3 => 0
  | .e5m2 => 1
  | .s8 => 2
  | .s4 => 3

def Fn.ofCode (c : BitVec 6) : Option Fn :=
  match c.toNat with
  | 0 => some .exp
  | 1 => some .exp2
  | 2 => some .exp10
  | 3 => some .expm1
  | 4 => some .log
  | 5 => some .log2
  | 6 => some .log10
  | 7 => some .log1p
  | 8 => some .sin
  | 9 => some .cos
  | 10 => some .tan
  | 11 => some .sinpi
  | 12 => some .cospi
  | 13 => some .tanpi
  | 14 => some .asin
  | 15 => some .acos
  | 16 => some .atan
  | 17 => some .sinh
  | 18 => some .cosh
  | 19 => some .tanh
  | 20 => some .asinh
  | 21 => some .acosh
  | 22 => some .atanh
  | 23 => some .erf
  | 24 => some .erfc
  | 25 => some .rsqrt
  | 26 => some .cbrt
  | 27 => some .rcp
  | _ => none

def Fn.code : Fn → BitVec 6
  | .exp => 0
  | .exp2 => 1
  | .exp10 => 2
  | .expm1 => 3
  | .log => 4
  | .log2 => 5
  | .log10 => 6
  | .log1p => 7
  | .sin => 8
  | .cos => 9
  | .tan => 10
  | .sinpi => 11
  | .cospi => 12
  | .tanpi => 13
  | .asin => 14
  | .acos => 15
  | .atan => 16
  | .sinh => 17
  | .cosh => 18
  | .tanh => 19
  | .asinh => 20
  | .acosh => 21
  | .atanh => 22
  | .erf => 23
  | .erfc => 24
  | .rsqrt => 25
  | .cbrt => 26
  | .rcp => 27

def Fn2.ofCode (c : BitVec 6) : Option Fn2 :=
  match c.toNat with
  | 0 => some .sincos
  | 1 => some .sincospi
  | 2 => some .atan2
  | 3 => some .hypot
  | _ => none

def Fn2.code : Fn2 → BitVec 6
  | .sincos => 0
  | .sincospi => 1
  | .atan2 => 2
  | .hypot => 3

def AFmt.ofCode (c : BitVec 4) : Option AFmt :=
  match c.toNat with
  | 0 => some .bf16
  | 1 => some .f16
  | 2 => some .e4m3
  | 3 => some .e5m2
  | 4 => some .s8
  | 5 => some .n8
  | 6 => some .s4
  | 7 => some .n4
  | 8 => some .t5
  | _ => none

def AFmt.code : AFmt → BitVec 4
  | .bf16 => 0
  | .f16 => 1
  | .e4m3 => 2
  | .e5m2 => 3
  | .s8 => 4
  | .n8 => 5
  | .s4 => 6
  | .n4 => 7
  | .t5 => 8

def BFmt.ofCode (c : BitVec 3) : BFmt :=
  match c.toNat with
  | 0 => .bf16
  | 1 => .f16
  | 2 => .e4m3
  | 3 => .e5m2
  | 4 => .s8
  | 5 => .n8
  | 6 => .s4
  | _ => .c4

def BFmt.code : BFmt → BitVec 3
  | .bf16 => 0
  | .f16 => 1
  | .e4m3 => 2
  | .e5m2 => 3
  | .s8 => 4
  | .n8 => 5
  | .s4 => 6
  | .c4 => 7

def MmaMode.ofCode (c : BitVec 2) : Option MmaMode :=
  match c.toNat with
  | 0 => some .plain
  | 1 => some .tri
  | 2 => some .gth
  | _ => none

def MmaMode.code : MmaMode → BitVec 2
  | .plain => 0
  | .tri => 1
  | .gth => 2

def MxCv.ofCode (c : BitVec 2) : Option MxCv :=
  match c.toNat with
  | 0 => some .f32
  | 1 => some .bf16
  | 2 => some .f16
  | _ => none

def MxCv.code : MxCv → BitVec 2
  | .f32 => 0
  | .bf16 => 1
  | .f16 => 2

def HJoin.ofCode (c : BitVec 2) : Option HJoin :=
  match c.toNat with
  | 0 => some .next
  | 1 => some .retain
  | 2 => some .start
  | _ => none

def HJoin.code : HJoin → BitVec 2
  | .next => 0
  | .retain => 1
  | .start => 2

/-! ### Forms of the operand fields -/

/-- A code of FN, or the refusal of R37. -/
def fnCode (o : Option α) : Except Reject α :=
  match o with
  | some x => .ok x
  | none => .error .reservedFn

/-- A condition that FN must meet (R37). -/
def fnNeed (b : Bool) (r : Except Reject α) : Except Reject α := if b then r else .error .reservedFn

/-- An operand that the entry declares unused must be 22 zero bits (R37). -/
def free (x : BitVec 22) (r : Except Reject α) : Except Reject α := if x = 0 then r else .error .unusedOperand

/-- Use an operand field. -/
def opnd (x : BitVec 22) (r : Operand → Except Reject α) : Except Reject α :=
  match Operand.decode x with
  | .ok o => r o
  | .error e => .error e

/-- Use a code of FN. -/
def code (o : Option α) (r : α → Except Reject β) : Except Reject β :=
  match o with
  | some x => r x
  | none => .error .reservedFn

/-- All three operands. -/
def abc (f : Fields) (mk : Ctl → Operand → Operand → Operand → Instr) : Except Reject Instr :=
  opnd f.a fun a => opnd f.b fun b => opnd f.c fun c => .ok (mk f.ctl a b c)

/-- A and B, with C unused. -/
def ab (f : Fields) (mk : Ctl → Operand → Operand → Instr) : Except Reject Instr :=
  opnd f.a fun a => opnd f.b fun b => free f.c (.ok (mk f.ctl a b))

/-- A and C, with B unused. -/
def ac (f : Fields) (mk : Ctl → Operand → Operand → Instr) : Except Reject Instr :=
  opnd f.a fun a => free f.b (opnd f.c fun c => .ok (mk f.ctl a c))

/-- B and C, with A unused. -/
def bc (f : Fields) (mk : Ctl → Operand → Operand → Instr) : Except Reject Instr :=
  free f.a (opnd f.b fun b => opnd f.c fun c => .ok (mk f.ctl b c))

/-- A alone. -/
def aOnly (f : Fields) (mk : Ctl → Operand → Instr) : Except Reject Instr :=
  opnd f.a fun a => free f.b (free f.c (.ok (mk f.ctl a)))

/-- B alone. -/
def bOnly (f : Fields) (mk : Ctl → Operand → Instr) : Except Reject Instr :=
  free f.a (opnd f.b fun b => free f.c (.ok (mk f.ctl b)))

/-- C alone. -/
def cOnly (f : Fields) (mk : Ctl → Operand → Instr) : Except Reject Instr :=
  free f.a (free f.b (opnd f.c fun c => .ok (mk f.ctl c)))

/-- No operand. -/
def none3 (f : Fields) (mk : Ctl → Instr) : Except Reject Instr :=
  free f.a (free f.b (free f.c (.ok (mk f.ctl))))

/-- The 24-bit offset FN[11:8] : C[19:0] of R44 and R158; C must be KIND 10. -/
def offset24 (f : Fields) (r : BitVec 24 → Except Reject α) : Except Reject α :=
  if cut 20 2 f.c = 2 then r (cut 8 4 f.fn ++ cut 0 20 f.c) else .error .offsetKind

/-- The 20-bit offset C[19:0] of R106; C must be KIND 10 (R44). -/
def offset20 (f : Fields) (r : BitVec 20 → Except Reject α) : Except Reject α :=
  if cut 20 2 f.c = 2 then r (cut 0 20 f.c) else .error .offsetKind

/-- A, B and the offset of R44. -/
def abOff (f : Fields) (mk : Ctl → BitVec 24 → Operand → Operand → Instr) : Except Reject Instr :=
  offset24 f fun o => opnd f.a fun a => opnd f.b fun b => .ok (mk f.ctl o a b)

/-- A, B and the offset of R106. -/
def abOff20 (f : Fields) (mk : Ctl → BitVec 20 → Operand → Operand → Instr) : Except Reject Instr :=
  offset20 f fun o => opnd f.a fun a => opnd f.b fun b => .ok (mk f.ctl o a b)

/-! ### FN layouts -/

/-- TYPE, PK and SAT of R130. -/
def intMod (fn : BitVec 12) (r : IntMod → Except Reject α) : Except Reject α :=
  code (IntTy.ofCode (cut 0 4 fn)) fun t => r ⟨t, tap fn 4, tap fn 5⟩

/-- SCOPE, ORDER and WIDTH of R98. -/
def memMod (fn : BitVec 12) (r : MemMod → Except Reject α) : Except Reject α :=
  code (Scope.ofCode (cut 5 3 fn)) fun s => code (MemWidth.ofCode (cut 0 3 fn)) fun w =>
    r ⟨s, MemOrder.ofCode (cut 3 2 fn), w⟩

/-- RM, FMT and PK of R182. -/
def floatMod (fn : BitVec 12) (r : FloatMod → Except Reject α) : Except Reject α :=
  code (Rnd.ofCode (cut 9 3 fn)) fun rm => code (Fmt.ofCode (cut 6 3 fn)) fun fm => r ⟨rm, fm, tap fn 5⟩

/-! ### Opcode rows (R48) -/

/-- Integer opcodes with SUB = 000 (R130). -/
def decInt (f : Fields) (mk : Ctl → IntMod → Operand → Operand → Operand → Instr) : Except Reject Instr :=
  fnNeed (cut 6 6 f.fn == 0) (intMod f.fn fun m => abc f (fun k => mk k m))

/-- Opcodes whose FN is a 32-bit or 64-bit TYPE field (R144, R145). -/
def decLong (f : Fields) (mk : Ctl → LongTy → Operand → Operand → Operand → Instr) : Except Reject Instr :=
  fnNeed (cut 4 8 f.fn == 0) (code (LongTy.ofCode (cut 0 4 f.fn)) fun t => abc f (fun k => mk k t))

/-- AND, OR and XOR (R142). -/
def decLogic (f : Fields) (mk : Ctl → Bool → Bool → Operand → Operand → Operand → Instr) : Except Reject Instr :=
  fnNeed (cut 5 7 f.fn == 0) (code (w64OfCode (cut 0 4 f.fn)) fun w => abc f (fun k => mk k (tap f.fn 4) w))

/-- Opcodes 0x00 to 0x0F. -/
def decRow0 (f : Fields) : Except Reject Instr :=
  match (cut 0 4 f.op).toNat with
  | 0x0 => decInt f .iadd
  | 0x1 => decInt f .isub
  | 0x2 => decInt f .imul
  | 0x3 => decInt f .imulh
  | 0x4 => decInt f .imad
  | 0x5 => decInt f .idiv
  | 0x6 => decInt f .irem
  | 0x7 => decInt f .imin
  | 0x8 => decInt f .imax
  | 0x9 =>
    match (cut 6 6 f.fn).toNat with
    | 0 => intMod f.fn fun m => ab f (fun k => .iabs k m)
    | 1 => intMod f.fn fun m => ab f (fun k => .ineg k m)
    | _ => .error .reservedFn
  | 0xA =>
    fnNeed (cut 10 2 f.fn == 0 && cut 4 2 f.fn == 0)
      (code (w64OfCode (cut 0 4 f.fn)) fun w => abc f (fun k => .iaddc k w (cut 6 4 f.fn)))
  | 0xB => decInt f .isad
  | 0xC =>
    fnNeed (cut 8 4 f.fn == 0 && cut 0 5 f.fn == 0b10001)
      (abc f (fun k => .idot4 k (tap f.fn 6) (tap f.fn 7) (tap f.fn 5)))
  | 0xD =>
    fnNeed (cut 6 6 f.fn == 0 && cut 0 3 f.fn == 0b001 && tap f.fn 4)
      (abc f (fun k => .asacc k (tap f.fn 3) (tap f.fn 5)))
  | 0xE =>
    fnNeed (cut 4 2 f.fn == 0)
      (code (ICmp.ofCode (cut 6 6 f.fn)) fun cm => code (LongTy.ofCode (cut 0 4 f.fn)) fun t =>
        abc f (fun k => .icmp k cm t))
  | _ =>
    fnNeed (!tap f.fn 11 && cut 4 2 f.fn == 0)
      (code (LongTy.ofCode (cut 0 4 f.fn)) fun t => abc f (fun k => .isel k (tap f.fn 10) (cut 6 4 f.fn) t))

/-- BCNT (R146). -/
def decBcnt (f : Fields) : Except Reject Instr :=
  fnNeed (cut 4 2 f.fn == 0) (code (w64OfCode (cut 0 4 f.fn)) fun w =>
    match (cut 6 6 f.fn).toNat with
    | 0 => ab f (fun k => .popc k w)
    | 1 => ab f (fun k => .clz k w)
    | 2 => ab f (fun k => .ctz k w)
    | 3 => ab f (fun k => .brev k w)
    | _ => .error .reservedFn)

/-- Opcodes 0x10 to 0x1F. -/
def decRow1 (f : Fields) : Except Reject Instr :=
  match (cut 0 4 f.op).toNat with
  | 0x0 => decLogic f .and
  | 0x1 => decLogic f .or
  | 0x2 => decLogic f .xor
  | 0x3 => fnNeed (cut 9 3 f.fn == 0) (abc f (fun k => .bitfn k (tap f.fn 8) (cut 0 8 f.fn)))
  | 0x4 => decLong f .shl
  | 0x5 => decLong f .shr
  | 0x6 => decLong f .rot
  | 0x7 => decLong f .bfx
  | 0x8 => decLong f .bfi
  | 0x9 => decBcnt f
  | 0xA => fnNeed (cut 4 8 f.fn == 0) (code (w64OfCode (cut 0 4 f.fn)) fun w => ab f (fun k => .mov k w))
  | 0xB => abc f (fun k => .movi k f.fn)
  | 0xC => fnNeed (cut 1 11 f.fn == 0) (abc f (fun k => .perm k (tap f.fn 0)))
  | 0xD => decInt f .pack
  | 0xE => fnNeed (cut 1 11 f.fn == 0) (abc f (fun k => .unpk3 k (tap f.fn 0)))
  | _ => fnNeed (f.fn == 0) (abc f .isect)

/-- PMOV (R154). -/
def decPmov (f : Fields) : Except Reject Instr :=
  match f.fn.toNat with
  | 0 => ab f .pmov
  | 1 => ab f .pmovToreg
  | 2 => abc f .pmovFromreg
  | _ => .error .reservedFn

/-- MEET (R161). -/
def decMeet (f : Fields) : Except Reject Instr :=
  match (cut 0 8 f.fn).toNat with
  | 0 => offset24 f fun o => free f.a (free f.b (.ok (.meet f.ctl o)))
  | 1 => offset24 f fun o => free f.b (opnd f.a fun a => .ok (.meetSv f.ctl o a))
  | 2 => fnNeed (cut 8 4 f.fn == 0) (bOnly f .meetLd)
  | _ => .error .reservedFn

/-- Opcodes 0x20 to 0x2F. -/
def decRow2 (f : Fields) : Except Reject Instr :=
  match (cut 0 4 f.op).toNat with
  | 0x0 =>
    fnNeed (cut 5 7 f.fn == 0)
      (code (PsetOp.ofCode (cut 0 2 f.fn)) fun o => abc f (fun k => .pset k o (tap f.fn 2) (tap f.fn 3) (tap f.fn 4)))
  | 0x1 => decPmov f
  | 0x2 => fnNeed (cut 3 9 f.fn == 0) (ab f (fun k => .vote k (VoteMode.ofCode (cut 0 2 f.fn)) (tap f.fn 2)))
  | 0x3 => fnNeed (cut 1 7 f.fn == 0) (offset24 f fun o => free f.a (free f.b (.ok (.bra f.ctl (tap f.fn 0) o))))
  | 0x4 => fnNeed (cut 1 11 f.fn == 0) (bOnly f (fun k => .brx k (tap f.fn 0)))
  | 0x5 => fnNeed (cut 0 8 f.fn == 0) (offset24 f fun o => free f.a (free f.b (.ok (.call f.ctl o))))
  | 0x6 => fnNeed (f.fn == 0) (bOnly f .callx)
  | 0x7 => fnNeed (f.fn == 0) (none3 f .ret)
  | 0x8 => decMeet f
  | 0x9 => fnNeed (f.fn == 0) (none3 f .exit)
  | 0xA => fnNeed (cut 0 8 f.fn == 0) (offset24 f fun o => free f.b (opnd f.a fun a => .ok (.loop f.ctl o a)))
  | 0xB =>
    fnNeed (cut 4 2 f.fn == 0)
      (code (VredOp.ofCode (cut 6 6 f.fn)) fun o => code (LongTy.ofCode (cut 0 4 f.fn)) fun t =>
        ab f (fun k => .vred k o t))
  | 0xC => code (FCmp.ofCode (cut 0 5 f.fn)) fun cm => floatMod f.fn fun m => abc f (fun k => .fcmp k cm m)
  | 0xF => fnNeed (f.fn == 0) (none3 f .nop)
  | _ => .error .reservedOpcode

/-- Floating-point opcodes with SUB = 0 and operand C a source (R182). -/
def decFloat (f : Fields) (mk : Ctl → FloatMod → Operand → Operand → Operand → Instr) : Except Reject Instr :=
  fnNeed (cut 0 5 f.fn == 0) (floatMod f.fn fun m => abc f (fun k => mk k m))

/-- FSIGN (R187). -/
def decFsign (f : Fields) : Except Reject Instr :=
  floatMod f.fn fun m =>
    match (cut 0 5 f.fn).toNat with
    | 0 => ab f (fun k => .fabs k m)
    | 1 => ab f (fun k => .fneg k m)
    | 2 => abc f (fun k => .fcopys k m)
    | _ => .error .reservedFn

/-- FEXPO (R193). -/
def decFexpo (f : Fields) : Except Reject Instr :=
  floatMod f.fn fun m =>
    match (cut 0 5 f.fn).toNat with
    | 0 => abc f (fun k => .fexpoScale k m)
    | 1 => ab f (fun k => .fexpoGetexp k m)
    | 2 => ab f (fun k => .fexpoGetmant k m)
    | _ => .error .reservedFn

/-- FSTAT (R196). -/
def decFstat (f : Fields) : Except Reject Instr :=
  match f.fn.toNat with
  | 0 => aOnly f .fstatGet
  | 1 => bOnly f .fstatClr
  | 2 => bOnly f .fstatSet
  | _ => .error .reservedFn

/-- FCVT (R191). -/
def decFcvt (f : Fields) : Except Reject Instr :=
  fnNeed (!tap f.fn 0)
    (code (Rnd.ofCode (cut 9 3 f.fn)) fun rm => code (Fmt.ofCode (cut 6 3 f.fn)) fun d =>
      code (Fmt.ofCode (cut 2 3 f.fn)) fun s => abc f (fun k => .fcvt k ⟨rm, d, tap f.fn 5, s, tap f.fn 1⟩))

/-- ICVT (R192). -/
def decIcvt (f : Fields) : Except Reject Instr :=
  fnNeed (!tap f.fn 5)
    (code (Rnd.ofCode (cut 9 3 f.fn)) fun rm => code (Fmt.ofCode (cut 6 3 f.fn)) fun d =>
      code (IntTy.ofCode (cut 0 4 f.fn)) fun t => ab f (fun k => .icvt k ⟨rm, d, tap f.fn 4, t⟩))

/-- Opcodes 0x30 to 0x3F. -/
def decRow3 (f : Fields) : Except Reject Instr :=
  match (cut 0 4 f.op).toNat with
  | 0x0 => decFloat f .fadd
  | 0x1 => decFloat f .fsub
  | 0x2 => decFloat f .fmul
  | 0x3 => fnNeed (cut 2 3 f.fn == 0) (floatMod f.fn fun m => abc f (fun k => .ffma k (tap f.fn 0) (tap f.fn 1) m))
  | 0x4 => decFloat f .fdiv
  | 0x5 => fnNeed (cut 0 5 f.fn == 0) (floatMod f.fn fun m => ab f (fun k => .fsqrt k m))
  | 0x6 => fnNeed (cut 2 3 f.fn == 0) (floatMod f.fn fun m => abc f (fun k => .fminmax k (tap f.fn 0) (tap f.fn 1) m))
  | 0x7 => decFsign f
  | 0x8 => fnNeed (cut 1 4 f.fn == 0) (floatMod f.fn fun m => ab f (fun k => .frnd k (tap f.fn 0) m))
  | 0x9 => decFcvt f
  | 0xA => decIcvt f
  | 0xB => decFloat f .fclass
  | 0xC => decFloat f .fdot2
  | 0xD => decFexpo f
  | 0xE => decFstat f
  | _ => fnNeed (cut 2 3 f.fn == 0) (floatMod f.fn fun m => abc f (fun k => .fmad2 k (tap f.fn 0) (tap f.fn 1) m))

/-- AQLD (R330). -/
def decAqld (f : Fields) : Except Reject Instr :=
  fnNeed (cut 2 6 f.fn == 0)
    (if tap f.fn 1 then abOff f (fun k => .aqldSp k (tap f.fn 0)) else abOff f (fun k => .aqld k (tap f.fn 0)))

/-- Opcodes 0x40 to 0x4F. -/
def decRow4 (f : Fields) : Except Reject Instr :=
  match (cut 0 4 f.op).toNat with
  | 0x0 =>
    code (Rnd.ofCode (cut 9 3 f.fn)) fun rm => code (Fmt.ofCode (cut 6 3 f.fn)) fun fm =>
      code (Fn.ofCode (cut 0 6 f.fn)) fun fn => ab f (fun k => .func k rm fm fn)
  | 0x1 =>
    fnNeed (cut 9 3 f.fn == 0) (code (Fmt.ofCode (cut 6 3 f.fn)) fun fm =>
      code (Fn.ofCode (cut 0 6 f.fn)) fun fn => ab f (fun k => .funca k fm fn))
  | 0x2 =>
    code (Rnd.ofCode (cut 9 3 f.fn)) fun rm => code (Fmt.ofCode (cut 6 3 f.fn)) fun fm =>
      code (Fn2.ofCode (cut 0 6 f.fn)) fun fn => abc f (fun k => .func2 k rm fm fn)
  | 0x3 => fnNeed (f.fn == 0) (abc f .quant)
  | 0x4 => fnNeed (cut 5 7 f.fn == 0) (code (CbMode.ofCode (cut 0 5 f.fn)) fun md => abc f (fun k => .cbdec k md))
  | 0x5 => fnNeed (cut 3 9 f.fn == 0) (code (DeqSrc.ofCode (cut 0 3 f.fn)) fun s => abc f (fun k => .deq k s))
  | 0x6 =>
    fnNeed (cut 0 4 f.fn == 0) (code (AFmt.ofCode (cut 8 4 f.fn)) fun af => bc f (fun k => .plane k af (cut 4 4 f.fn)))
  | 0x8 => fnNeed (f.fn == 0) (ab f .qpush)
  | 0x9 => decAqld f
  | 0xA => fnNeed (cut 1 7 f.fn == 0) (abOff f (fun k => .aqst k (tap f.fn 0)))
  | 0xB =>
    fnNeed (cut 8 4 f.fn == 0 && cut 0 5 f.fn == 0)
      (code (Scope.ofCode (cut 5 3 f.fn)) fun s => none3 f (fun k => .aqsyn k s))
  | _ => .error .reservedOpcode

/-- STFE (R105). -/
def decStfe (f : Fields) : Except Reject Instr :=
  fnNeed (cut 4 4 f.fn == 0) (code (MemWidth.ofCode (cut 0 3 f.fn)) fun w =>
    if tap f.fn 3 then
      fnNeed (w == .q) (offset24 f fun o => free f.a (opnd f.b fun b => .ok (.stfeClr f.ctl o b)))
    else abOff f (fun k => .stfe k w))

/-- CINV (R114). -/
def decCinv (f : Fields) : Except Reject Instr :=
  match (cut 0 2 f.fn).toNat with
  | 0 => fnNeed (cut 5 7 f.fn == 0) (code (CinvScope.ofCode (cut 2 3 f.fn)) fun s => none3 f (fun k => .cinvI k s))
  | 1 => fnNeed (cut 2 6 f.fn == 0) (offset24 f fun o => free f.a (opnd f.b fun b => .ok (.cinvL2 f.ctl o b)))
  | _ => .error .reservedFn

/-- LATCH (R115). -/
def decLatch (f : Fields) : Except Reject Instr :=
  fnNeed (cut 3 9 f.fn == 0)
    (match (cut 0 2 f.fn).toNat with
    | 0 => abc f (fun k => .latchSrc k (tap f.fn 2))
    | 1 => abc f (fun k => .latchDst k (tap f.fn 2))
    | 2 => bOnly f (fun k => .latchRel k (tap f.fn 2))
    | _ => .error .reservedFn)

/-- Opcodes 0x50 to 0x5F. -/
def decRow5 (f : Fields) : Except Reject Instr :=
  match (cut 0 4 f.op).toNat with
  | 0x0 => memMod f.fn fun m => abOff f (fun k => .ld k m)
  | 0x1 => memMod f.fn fun m => abOff f (fun k => .st k m)
  | 0x2 => fnNeed (cut 3 5 f.fn == 0) (code (MemWidth.ofCode (cut 0 3 f.fn)) fun w => abOff f (fun k => .lds k w))
  | 0x3 => fnNeed (cut 3 5 f.fn == 0) (code (MemWidth.ofCode (cut 0 3 f.fn)) fun w => abOff f (fun k => .sts k w))
  | 0x4 =>
    fnNeed (cut 4 4 f.fn == 0) (code (MemWidth.ofCode (cut 0 3 f.fn)) fun w => abOff f (fun k => .ldfe k (tap f.fn 3) w))
  | 0x5 => decStfe f
  | 0x6 => code (AtomOp.ofCode (cut 8 4 f.fn)) fun o => memMod f.fn fun m => abOff20 f (fun k => .atom k o m)
  | 0x7 =>
    fnNeed (cut 3 5 f.fn == 0) (code (AtomOp.ofCode (cut 8 4 f.fn)) fun o =>
      code (wideOfCode (cut 0 3 f.fn)) fun w => abOff20 f (fun k => .atoms k o w))
  | 0x8 => code (AtomOp.ofCode (cut 8 4 f.fn)) fun o => memMod f.fn fun m => abOff20 f (fun k => .red k o m)
  | 0x9 => fnNeed (f.fn == 0) (abc f .splook)
  | 0xA =>
    fnNeed (cut 1 11 f.fn == 0) (if tap f.fn 0 then ac f .sptagDel else abc f .sptag)
  | 0xB =>
    fnNeed (cut 6 6 f.fn == 0) (code (Scope.ofCode (cut 2 3 f.fn)) fun s =>
      if tap f.fn 5 then none3 f (fun k => .fenceH k (FenceKind.ofCode (cut 0 2 f.fn)) s)
      else none3 f (fun k => .fence k (FenceKind.ofCode (cut 0 2 f.fn)) s))
  | 0xC =>
    code (Scope.ofCode (cut 5 3 f.fn)) fun s => code (WaitCond.ofCode (cut 3 2 f.fn)) fun cn =>
      code (wideOfCode (cut 0 3 f.fn)) fun w => abOff f (fun k => .waitmem k cn s w)
  | 0xD => fnNeed (cut 0 8 f.fn == 0) (offset24 f fun o => free f.a (opnd f.b fun b => .ok (.pref f.ctl o b)))
  | 0xE => decCinv f
  | _ => decLatch f

/-- NDONE (R277). -/
def decNdone (f : Fields) : Except Reject Instr :=
  match f.fn.toNat with
  | 0 => aOnly f .ndoneOk
  | 1 => abc f .ndoneFail
  | 2 => abc f .ndoneKill
  | _ => .error .reservedFn

/-- QCTL (R335). -/
def decQctl (f : Fields) : Except Reject Instr :=
  match f.fn.toNat with
  | 0 => abc f .qctlToken
  | 1 => ab f .qctlRetry
  | 2 => ab f .qctlKill
  | 3 => ab f .qctlStat
  | 4 => ab f .qctlJoin
  | _ => .error .reservedFn

/-- MMA (R360). -/
def decMma (f : Fields) : Except Reject Instr :=
  code (AFmt.ofCode (cut 8 4 f.fn)) fun af => code (MmaMode.ofCode (cut 3 2 f.fn)) fun md =>
    abc f (fun k => .mma k ⟨af, BFmt.ofCode (cut 5 3 f.fn), md, tap f.fn 2, tap f.fn 1, tap f.fn 0⟩)

/-- MXMOV (R361). -/
def decMxmov (f : Fields) : Except Reject Instr :=
  fnNeed (cut 6 6 f.fn == 0)
    (match (cut 0 3 f.fn).toNat with
    | 0 => fnNeed (cut 3 3 f.fn == 0) (abc f .mxmovRd)
    | 1 => fnNeed (cut 3 3 f.fn == 0) (abc f .mxmovWr)
    | 2 => code (MxCv.ofCode (cut 3 2 f.fn)) fun cv => ab f (fun k => .mxmovSt k cv (tap f.fn 5))
    | 3 => fnNeed (cut 3 3 f.fn == 0) (ab f .mxmovLd)
    | 4 => fnNeed (cut 3 3 f.fn == 0) (aOnly f .mxmovZero)
    | 5 => fnNeed (cut 3 3 f.fn == 0) (ab f .mxmovFlg)
    | _ => .error .reservedFn)

/-- MKEY (R362). -/
def decMkey (f : Fields) : Except Reject Instr :=
  match f.fn.toNat with
  | 0 => none3 f .mkeyJoin
  | 1 => none3 f .mkeyTake
  | 2 => none3 f .mkeyPass
  | 3 => none3 f .mkeyLeave
  | 4 => aOnly f .mkeyRsv
  | 5 => aOnly f .mkeyRel
  | _ => .error .reservedFn

/-- HBIND (R405). -/
def decHbind (f : Fields) : Except Reject Instr :=
  fnNeed (cut 6 6 f.fn == 0)
    (match (cut 0 3 f.fn).toNat with
    | 0 => code (HJoin.ofCode (cut 3 2 f.fn)) fun j => ab f (fun k => .hbind k j (tap f.fn 5))
    | 1 => fnNeed (cut 3 3 f.fn == 0) (ab f .hbindDrain)
    | 2 => fnNeed (cut 3 3 f.fn == 0) (ab f .hbindCut)
    | _ => .error .reservedFn)

/-- HSEND (R407). -/
def decHsend (f : Fields) : Except Reject Instr :=
  match f.fn.toNat with
  | 0x0 => aOnly f .hsendOk
  | 0x4 => aOnly f .hsendMore
  | 0x8 => aOnly f .hsendNone
  | 0x9 => abc f .hsendFail
  | 0xA => abc f .hsendKill
  | _ => .error .reservedFn

/-- Opcodes 0x60 to 0x6F. -/
def decRow6 (f : Fields) : Except Reject Instr :=
  match (cut 0 4 f.op).toNat with
  | 0x0 => fnNeed (f.fn == 0) (abc f .nbind)
  | 0x1 => fnNeed (cut 1 11 f.fn == 0) (aOnly f (fun k => .npop k (tap f.fn 0)))
  | 0x2 => decNdone f
  | 0x3 => fnNeed (cut 3 9 f.fn == 0) (abc f (fun k => .nxbnd k (tap f.fn 2) (cut 0 2 f.fn)))
  | 0x4 => fnNeed (cut 2 10 f.fn == 0) (ab f (fun k => .njoin k (tap f.fn 0) (tap f.fn 1)))
  | 0x5 => fnNeed (f.fn == 0) (abc f .aprun)
  | 0x6 => fnNeed (f.fn == 0) (ab f .qpop)
  | 0x7 => decQctl f
  | 0x8 => decMma f
  | 0x9 => decMxmov f
  | 0xA => decMkey f
  | 0xB => fnNeed (f.fn == 0) (ab f .fxg)
  | 0xC => fnNeed (f.fn == 0) (ab f .fxc)
  | 0xD => decHbind f
  | 0xE => decHsend f
  | _ => fnNeed (cut 1 11 f.fn == 0) (ab f (fun k => .hrecv k (tap f.fn 0)))

/-- BAR (R77). -/
def decBar (f : Fields) : Except Reject Instr :=
  match f.fn.toNat with
  | 0 => aOnly f .barGate
  | 1 => aOnly f .barMark
  | 2 => ab f (fun k => .barHold k false)
  | 3 => ab f .barSet
  | 6 => ab f (fun k => .barHold k true)
  | _ => .error .reservedFn

/-- TRET (R230). -/
def decTret (f : Fields) : Except Reject Instr :=
  match f.fn.toNat with
  | 0 => none3 f .tretRetry
  | 1 => none3 f .tretSkip
  | 2 => none3 f .tretKillpt
  | 3 => none3 f .tretKillw
  | 4 => none3 f .tretFatal
  | _ => .error .reservedFn

/-- DETSET (R307). -/
def decDetset (f : Fields) : Except Reject Instr :=
  match f.fn.toNat with
  | 0 => aOnly f .detsetD0
  | 1 => ab f (fun k => .detsetRec k false)
  | 2 => ab f (fun k => .detsetRec k true)
  | 5 => ab f (fun k => .detsetPlay k false)
  | 6 => ab f (fun k => .detsetPlay k true)
  | _ => .error .reservedFn

/-- CLK (R308). -/
def decClk (f : Fields) : Except Reject Instr :=
  match f.fn.toNat with
  | 0 => aOnly f .clk
  | 1 => aOnly f .clkRet
  | 2 => aOnly f .clkVt
  | _ => .error .reservedFn

/-- CTXOP (R250). -/
def decCtxop (f : Fields) : Except Reject Instr :=
  match (cut 0 4 f.fn).toNat with
  | 0 => abc f (fun k => .ctxopSetf k (cut 4 8 f.fn))
  | 1 => fnNeed (cut 4 8 f.fn == 0) (abc f .ctxopRegion)
  | 2 => fnNeed (cut 4 8 f.fn == 0) (bc f .ctxopTlbinv)
  | _ => .error .reservedFn

/-- Opcodes 0x70 to 0x7F. -/
def decRow7 (f : Fields) : Except Reject Instr :=
  match (cut 0 4 f.op).toNat with
  | 0x0 =>
    fnNeed (cut 1 11 f.fn == 0) (if tap f.fn 0 then none3 f .safeptResume else cOnly f .safept)
  | 0x1 => decBar f
  | 0x2 => fnNeed (f.fn == 0) (cOnly f .trap)
  | 0x3 => decTret f
  | 0x4 => fnNeed (f.fn == 0) (ab f .rdsr)
  | 0x5 => fnNeed (f.fn == 0) (ab f .wrsr)
  | 0x6 => fnNeed (f.fn == 0) (cOnly f .yieldI)
  | 0x7 =>
    fnNeed (cut 1 11 f.fn == 0) (if tap f.fn 0 then abc f .shmapOff else abc f .shmap)
  | 0x8 => decDetset f
  | 0x9 => decClk f
  | 0xA => decCtxop f
  | 0xE => fnNeed (f.fn == 0) (cOnly f .bkpt)
  | 0xF => .ok (.ill f.ctl f.fn f.a f.b f.c)
  | _ => .error .reservedOpcode

/-- The instruction of the fields of a word, or why it is refused. -/
def decodeFields (f : Fields) : Except Reject Instr :=
  match (cut 4 3 f.op).toNat with
  | 0 => decRow0 f
  | 1 => decRow1 f
  | 2 => decRow2 f
  | 3 => decRow3 f
  | 4 => decRow4 f
  | 5 => decRow5 f
  | 6 => decRow6 f
  | _ => decRow7 f

/-- The instruction of a 96-bit word. -/
def decodeWord (w : BitVec 96) : Except Reject Instr := decodeFields (Fields.unpack w)

/-- A little-endian value from its bytes. -/
def leNat : List Byte → Nat
  | [] => 0
  | b :: bs => b.toNat + 256 * leNat bs

/-- The `n` bytes of a value, little-endian. -/
def leBytes : Nat → Nat → List Byte
  | 0, _ => []
  | n + 1, v => BitVec.ofNat 8 v :: leBytes n (v / 256)

/-- The instruction of 12 bytes as they are stored: three little-endian words, word 0 first (R32). -/
def decodeBytes (bs : List Byte) : Except Reject Instr := decodeWord (BitVec.ofNat 96 (leNat (bs.take 12)))

/-! ### The encoder -/

/-- Fields with the shared part of an encoding. -/
def enc (k : Ctl) (op : BitVec 7) (fn : BitVec 12) (a b c : BitVec 22) : Fields :=
  { op, gn := k.guard.neg, gc := k.guard.cond, gi := k.guard.ix, lra := k.lra, lrb := k.lrb, lrc := k.lrc, ch := k.ch,
    fn, a, b, c }

def IntMod.fn (sub : BitVec 6) (m : IntMod) : BitVec 12 := sub ++ bit m.sat ++ bit m.pk ++ m.ty.code

def FloatMod.fn (m : FloatMod) (sub : BitVec 5) : BitVec 12 := m.rm.code ++ m.fmt.code ++ bit m.pk ++ sub

def MemMod.fn (hi : BitVec 4) (m : MemMod) : BitVec 12 := hi ++ m.scope.code ++ m.order.code ++ m.width.code

/-- FN[11:8] of an offset (R44). -/
def offHi (o : BitVec 24) : BitVec 4 := cut 20 4 o

/-- The KIND 10 field of the low part of an offset (R44). -/
def offLo (o : BitVec 24) : BitVec 22 := (0b10 : BitVec 2) ++ cut 0 20 o

/-- The KIND 10 field of a 20-bit offset (R106). -/
def off20 (o : BitVec 20) : BitVec 22 := (0b10 : BitVec 2) ++ o

/-- FN with an offset's high bits and zeros below but for the low bits named. -/
def offFn (o : BitVec 24) (lo : BitVec 8) : BitVec 12 := offHi o ++ lo

/-- The fields of an instruction; none for a row that is not encoded. -/
def Instr.fields : Instr → Option Fields
  | .nop k => some (enc k 0x2F 0 0 0 0)
  | .shmap k a b c => some (enc k 0x77 0 a.encode b.encode c.encode)
  | .shmapOff k a b c => some (enc k 0x77 1 a.encode b.encode c.encode)
  | .barGate k a => some (enc k 0x71 0 a.encode 0 0)
  | .barMark k a => some (enc k 0x71 1 a.encode 0 0)
  | .barHold k g a b => some (enc k 0x71 (if g then 6 else 2) a.encode b.encode 0)
  | .barSet k a b => some (enc k 0x71 3 a.encode b.encode 0)
  | .safept k c => some (enc k 0x70 0 0 0 c.encode)
  | .safeptResume k => some (enc k 0x70 1 0 0 0)
  | .yieldI k c => some (enc k 0x76 0 0 0 c.encode)
  | .ld k m o a b => some (enc k 0x50 (m.fn (offHi o)) a.encode b.encode (offLo o))
  | .st k m o a b => some (enc k 0x51 (m.fn (offHi o)) a.encode b.encode (offLo o))
  | .lds k w o a b => some (enc k 0x52 (offFn o ((0 : BitVec 5) ++ w.code)) a.encode b.encode (offLo o))
  | .sts k w o a b => some (enc k 0x53 (offFn o ((0 : BitVec 5) ++ w.code)) a.encode b.encode (offLo o))
  | .ldfe k t w o a b => some (enc k 0x54 (offFn o ((0 : BitVec 4) ++ bit t ++ w.code)) a.encode b.encode (offLo o))
  | .stfe k w o a b => some (enc k 0x55 (offFn o ((0 : BitVec 5) ++ w.code)) a.encode b.encode (offLo o))
  | .stfeClr k o b => some (enc k 0x55 (offFn o 0x0E) 0 b.encode (offLo o))
  | .atom k op m o a b => some (enc k 0x56 (m.fn op.code) a.encode b.encode (off20 o))
  | .atoms k op w o a b => some (enc k 0x57 (op.code ++ (0 : BitVec 5) ++ wideCode w) a.encode b.encode (off20 o))
  | .red k op m o a b => some (enc k 0x58 (m.fn op.code) a.encode b.encode (off20 o))
  | .splook k a b c => some (enc k 0x59 0 a.encode b.encode c.encode)
  | .sptag k a b c => some (enc k 0x5A 0 a.encode b.encode c.encode)
  | .sptagDel k a c => some (enc k 0x5A 1 a.encode 0 c.encode)
  | .fence k kd s => some (enc k 0x5B ((0 : BitVec 6) ++ bit false ++ s.code ++ kd.code) 0 0 0)
  | .fenceH k kd s => some (enc k 0x5B ((0 : BitVec 6) ++ bit true ++ s.code ++ kd.code) 0 0 0)
  | .waitmem k cn s w o a b =>
    some (enc k 0x5C (offHi o ++ s.code ++ cn.code ++ wideCode w) a.encode b.encode (offLo o))
  | .pref k o b => some (enc k 0x5D (offFn o 0) 0 b.encode (offLo o))
  | .cinvI k s => some (enc k 0x5E ((0 : BitVec 7) ++ s.code ++ (0 : BitVec 2)) 0 0 0)
  | .cinvL2 k o b => some (enc k 0x5E (offFn o 1) 0 b.encode (offLo o))
  | .latchSrc k sp a b c => some (enc k 0x5F ((0 : BitVec 9) ++ bit sp ++ (0 : BitVec 2)) a.encode b.encode c.encode)
  | .latchDst k sp a b c => some (enc k 0x5F ((0 : BitVec 9) ++ bit sp ++ (1 : BitVec 2)) a.encode b.encode c.encode)
  | .latchRel k sp b => some (enc k 0x5F ((0 : BitVec 9) ++ bit sp ++ (2 : BitVec 2)) 0 b.encode 0)
  | .iadd k m a b c => some (enc k 0x00 (m.fn 0) a.encode b.encode c.encode)
  | .isub k m a b c => some (enc k 0x01 (m.fn 0) a.encode b.encode c.encode)
  | .imul k m a b c => some (enc k 0x02 (m.fn 0) a.encode b.encode c.encode)
  | .imulh k m a b c => some (enc k 0x03 (m.fn 0) a.encode b.encode c.encode)
  | .imad k m a b c => some (enc k 0x04 (m.fn 0) a.encode b.encode c.encode)
  | .idiv k m a b c => some (enc k 0x05 (m.fn 0) a.encode b.encode c.encode)
  | .irem k m a b c => some (enc k 0x06 (m.fn 0) a.encode b.encode c.encode)
  | .imin k m a b c => some (enc k 0x07 (m.fn 0) a.encode b.encode c.encode)
  | .imax k m a b c => some (enc k 0x08 (m.fn 0) a.encode b.encode c.encode)
  | .iabs k m a b => some (enc k 0x09 (m.fn 0) a.encode b.encode 0)
  | .ineg k m a b => some (enc k 0x09 (m.fn 1) a.encode b.encode 0)
  | .iaddc k w ix a b c =>
    some (enc k 0x0A ((0 : BitVec 2) ++ ix ++ (0 : BitVec 2) ++ wCode w) a.encode b.encode c.encode)
  | .isad k m a b c => some (enc k 0x0B (m.fn 0) a.encode b.encode c.encode)
  | .idot4 k bs cs sat a b c =>
    some (enc k 0x0C ((0 : BitVec 4) ++ bit cs ++ bit bs ++ bit sat ++ (0b10001 : BitVec 5)) a.encode b.encode c.encode)
  | .asacc k sg sat a b c =>
    some (enc k 0x0D ((0 : BitVec 6) ++ bit sat ++ (1 : BitVec 1) ++ bit sg ++ (0b001 : BitVec 3)) a.encode b.encode c.encode)
  | .icmp k cm t a b c => some (enc k 0x0E (cm.code ++ (0 : BitVec 2) ++ t.code) a.encode b.encode c.encode)
  | .isel k ng ix t a b c =>
    some (enc k 0x0F ((0 : BitVec 1) ++ bit ng ++ ix ++ (0 : BitVec 2) ++ t.code) a.encode b.encode c.encode)
  | .and k nc w a b c => some (enc k 0x10 ((0 : BitVec 7) ++ bit nc ++ wCode w) a.encode b.encode c.encode)
  | .or k nc w a b c => some (enc k 0x11 ((0 : BitVec 7) ++ bit nc ++ wCode w) a.encode b.encode c.encode)
  | .xor k nc w a b c => some (enc k 0x12 ((0 : BitVec 7) ++ bit nc ++ wCode w) a.encode b.encode c.encode)
  | .bitfn k w t a b c => some (enc k 0x13 ((0 : BitVec 3) ++ bit w ++ t) a.encode b.encode c.encode)
  | .shl k t a b c => some (enc k 0x14 ((0 : BitVec 8) ++ t.code) a.encode b.encode c.encode)
  | .shr k t a b c => some (enc k 0x15 ((0 : BitVec 8) ++ t.code) a.encode b.encode c.encode)
  | .rot k t a b c => some (enc k 0x16 ((0 : BitVec 8) ++ t.code) a.encode b.encode c.encode)
  | .bfx k t a b c => some (enc k 0x17 ((0 : BitVec 8) ++ t.code) a.encode b.encode c.encode)
  | .bfi k t a b c => some (enc k 0x18 ((0 : BitVec 8) ++ t.code) a.encode b.encode c.encode)
  | .popc k w a b => some (enc k 0x19 ((0 : BitVec 8) ++ wCode w) a.encode b.encode 0)
  | .clz k w a b => some (enc k 0x19 ((4 : BitVec 8) ++ wCode w) a.encode b.encode 0)
  | .ctz k w a b => some (enc k 0x19 ((8 : BitVec 8) ++ wCode w) a.encode b.encode 0)
  | .brev k w a b => some (enc k 0x19 ((12 : BitVec 8) ++ wCode w) a.encode b.encode 0)
  | .mov k w a b => some (enc k 0x1A ((0 : BitVec 8) ++ wCode w) a.encode b.encode 0)
  | .movi k hi a b c => some (enc k 0x1B hi a.encode b.encode c.encode)
  | .perm k z a b c => some (enc k 0x1C ((0 : BitVec 11) ++ bit z) a.encode b.encode c.encode)
  | .pack k m a b c => some (enc k 0x1D (m.fn 0) a.encode b.encode c.encode)
  | .unpk3 k t a b c => some (enc k 0x1E ((0 : BitVec 11) ++ bit t) a.encode b.encode c.encode)
  | .isect k a b c => some (enc k 0x1F 0 a.encode b.encode c.encode)
  | .pset k o nb nc iv a b c =>
    some (enc k 0x20 ((0 : BitVec 7) ++ bit iv ++ bit nc ++ bit nb ++ o.code) a.encode b.encode c.encode)
  | .pmov k a b => some (enc k 0x21 0 a.encode b.encode 0)
  | .pmovToreg k a b => some (enc k 0x21 1 a.encode b.encode 0)
  | .pmovFromreg k a b c => some (enc k 0x21 2 a.encode b.encode c.encode)
  | .vote k md ng a b => some (enc k 0x22 ((0 : BitVec 9) ++ bit ng ++ md.code) a.encode b.encode 0)
  | .vred k o t a b => some (enc k 0x2B (o.code ++ (0 : BitVec 2) ++ t.code) a.encode b.encode 0)
  | .bra k l o => some (enc k 0x23 (offFn o ((0 : BitVec 7) ++ bit l)) 0 0 (offLo o))
  | .brx k l b => some (enc k 0x24 ((0 : BitVec 11) ++ bit l) 0 b.encode 0)
  | .meet k o => some (enc k 0x28 (offFn o 0) 0 0 (offLo o))
  | .meetSv k o a => some (enc k 0x28 (offFn o 1) a.encode 0 (offLo o))
  | .meetLd k b => some (enc k 0x28 2 0 b.encode 0)
  | .call k o => some (enc k 0x25 (offFn o 0) 0 0 (offLo o))
  | .callx k b => some (enc k 0x26 0 0 b.encode 0)
  | .ret k => some (enc k 0x27 0 0 0 0)
  | .exit k => some (enc k 0x29 0 0 0 0)
  | .loop k o a => some (enc k 0x2A (offFn o 0) a.encode 0 (offLo o))
  | .fadd k m a b c => some (enc k 0x30 (m.fn 0) a.encode b.encode c.encode)
  | .fsub k m a b c => some (enc k 0x31 (m.fn 0) a.encode b.encode c.encode)
  | .fmul k m a b c => some (enc k 0x32 (m.fn 0) a.encode b.encode c.encode)
  | .ffma k np na m a b c =>
    some (enc k 0x33 (m.fn ((0 : BitVec 3) ++ bit na ++ bit np)) a.encode b.encode c.encode)
  | .fdiv k m a b c => some (enc k 0x34 (m.fn 0) a.encode b.encode c.encode)
  | .fsqrt k m a b => some (enc k 0x35 (m.fn 0) a.encode b.encode 0)
  | .fminmax k mx nan m a b c =>
    some (enc k 0x36 (m.fn ((0 : BitVec 3) ++ bit nan ++ bit mx)) a.encode b.encode c.encode)
  | .fabs k m a b => some (enc k 0x37 (m.fn 0) a.encode b.encode 0)
  | .fneg k m a b => some (enc k 0x37 (m.fn 1) a.encode b.encode 0)
  | .fcopys k m a b c => some (enc k 0x37 (m.fn 2) a.encode b.encode c.encode)
  | .fcmp k cm m a b c => some (enc k 0x2C (m.fn cm.code) a.encode b.encode c.encode)
  | .fclass k m a b c => some (enc k 0x3B (m.fn 0) a.encode b.encode c.encode)
  | .frnd k x m a b => some (enc k 0x38 (m.fn ((0 : BitVec 4) ++ bit x)) a.encode b.encode 0)
  | .fcvt k m a b c =>
    some (enc k 0x39 (m.rm.code ++ m.dst.code ++ bit m.pk ++ m.src.code ++ bit m.sat ++ (0 : BitVec 1))
      a.encode b.encode c.encode)
  | .icvt k m a b =>
    some (enc k 0x3A (m.rm.code ++ m.fmt.code ++ (0 : BitVec 1) ++ bit m.toInt ++ m.ty.code) a.encode b.encode 0)
  | .fexpoScale k m a b c => some (enc k 0x3D (m.fn 0) a.encode b.encode c.encode)
  | .fexpoGetexp k m a b => some (enc k 0x3D (m.fn 1) a.encode b.encode 0)
  | .fexpoGetmant k m a b => some (enc k 0x3D (m.fn 2) a.encode b.encode 0)
  | .fdot2 k m a b c => some (enc k 0x3C (m.fn 0) a.encode b.encode c.encode)
  | .fmad2 k md cj m a b c =>
    some (enc k 0x3F (m.fn ((0 : BitVec 3) ++ bit cj ++ bit md)) a.encode b.encode c.encode)
  | .fstatGet k a => some (enc k 0x3E 0 a.encode 0 0)
  | .fstatClr k b => some (enc k 0x3E 1 0 b.encode 0)
  | .fstatSet k b => some (enc k 0x3E 2 0 b.encode 0)
  | .quant k a b c => some (enc k 0x43 0 a.encode b.encode c.encode)
  | .cbdec k md a b c => some (enc k 0x44 ((0 : BitVec 7) ++ md.code) a.encode b.encode c.encode)
  | .deq k s a b c => some (enc k 0x45 ((0 : BitVec 9) ++ s.code) a.encode b.encode c.encode)
  | .func k rm fm fn a b => some (enc k 0x40 (rm.code ++ fm.code ++ fn.code) a.encode b.encode 0)
  | .funca k fm fn a b => some (enc k 0x41 ((0 : BitVec 3) ++ fm.code ++ fn.code) a.encode b.encode 0)
  | .func2 k rm fm fn a b c => some (enc k 0x42 (rm.code ++ fm.code ++ fn.code) a.encode b.encode c.encode)
  | .tretRetry k => some (enc k 0x73 0 0 0 0)
  | .tretSkip k => some (enc k 0x73 1 0 0 0)
  | .tretKillpt k => some (enc k 0x73 2 0 0 0)
  | .tretKillw k => some (enc k 0x73 3 0 0 0)
  | .tretFatal k => some (enc k 0x73 4 0 0 0)
  | .trap k c => some (enc k 0x72 0 0 0 c.encode)
  | .bkpt k c => some (enc k 0x7E 0 0 0 c.encode)
  | .ill k fn a b c => some (enc k 0x7F fn a b c)
  | .rdsr k a b => some (enc k 0x74 0 a.encode b.encode 0)
  | .wrsr k a b => some (enc k 0x75 0 a.encode b.encode 0)
  | .ctxopSetf k fd a b c => some (enc k 0x7A (fd ++ (0 : BitVec 4)) a.encode b.encode c.encode)
  | .ctxopRegion k a b c => some (enc k 0x7A 1 a.encode b.encode c.encode)
  | .ctxopTlbinv k b c => some (enc k 0x7A 2 0 b.encode c.encode)
  | .nbind k a b c => some (enc k 0x60 0 a.encode b.encode c.encode)
  | .npop k t a => some (enc k 0x61 ((0 : BitVec 11) ++ bit t) a.encode 0 0)
  | .ndoneOk k a => some (enc k 0x62 0 a.encode 0 0)
  | .ndoneFail k a b c => some (enc k 0x62 1 a.encode b.encode c.encode)
  | .ndoneKill k a b c => some (enc k 0x62 2 a.encode b.encode c.encode)
  | .nxbnd k hi d a b c => some (enc k 0x63 ((0 : BitVec 9) ++ bit hi ++ d) a.encode b.encode c.encode)
  | .njoin k q t a b => some (enc k 0x64 ((0 : BitVec 10) ++ bit t ++ bit q) a.encode b.encode 0)
  | .detsetD0 k a => some (enc k 0x78 0 a.encode 0 0)
  | .detsetRec k d2 a b => some (enc k 0x78 (if d2 then 2 else 1) a.encode b.encode 0)
  | .detsetPlay k d2 a b => some (enc k 0x78 (if d2 then 6 else 5) a.encode b.encode 0)
  | .clk k a => some (enc k 0x79 0 a.encode 0 0)
  | .clkVt k a => some (enc k 0x79 2 a.encode 0 0)
  | .clkRet k a => some (enc k 0x79 1 a.encode 0 0)
  | .aprun k a b c => some (enc k 0x65 0 a.encode b.encode c.encode)
  | .aqld k s o a b => some (enc k 0x49 (offFn o ((0 : BitVec 6) ++ (0 : BitVec 1) ++ bit s)) a.encode b.encode (offLo o))
  | .aqldSp k s o a b => some (enc k 0x49 (offFn o ((0 : BitVec 6) ++ (1 : BitVec 1) ++ bit s)) a.encode b.encode (offLo o))
  | .aqst k s o a b => some (enc k 0x4A (offFn o ((0 : BitVec 7) ++ bit s)) a.encode b.encode (offLo o))
  | .aqsyn k s => some (enc k 0x4B ((0 : BitVec 4) ++ s.code ++ (0 : BitVec 5)) 0 0 0)
  | .qpop k a b => some (enc k 0x66 0 a.encode b.encode 0)
  | .qpush k a b => some (enc k 0x48 0 a.encode b.encode 0)
  | .qctlToken k a b c => some (enc k 0x67 0 a.encode b.encode c.encode)
  | .qctlRetry k a b => some (enc k 0x67 1 a.encode b.encode 0)
  | .qctlKill k a b => some (enc k 0x67 2 a.encode b.encode 0)
  | .qctlStat k a b => some (enc k 0x67 3 a.encode b.encode 0)
  | .qctlJoin k a b => some (enc k 0x67 4 a.encode b.encode 0)
  | .mma k m a b c =>
    some (enc k 0x68 (m.af.code ++ m.bf.code ++ m.mode.code ++ bit m.sc ++ bit m.zc ++ bit m.sat)
      a.encode b.encode c.encode)
  | .mxmovRd k a b c => some (enc k 0x69 0 a.encode b.encode c.encode)
  | .mxmovWr k a b c => some (enc k 0x69 1 a.encode b.encode c.encode)
  | .mxmovSt k cv fe a b => some (enc k 0x69 ((0 : BitVec 6) ++ bit fe ++ cv.code ++ (2 : BitVec 3)) a.encode b.encode 0)
  | .mxmovLd k a b => some (enc k 0x69 3 a.encode b.encode 0)
  | .mxmovZero k a => some (enc k 0x69 4 a.encode 0 0)
  | .mxmovFlg k a b => some (enc k 0x69 5 a.encode b.encode 0)
  | .mkeyJoin k => some (enc k 0x6A 0 0 0 0)
  | .mkeyTake k => some (enc k 0x6A 1 0 0 0)
  | .mkeyPass k => some (enc k 0x6A 2 0 0 0)
  | .mkeyLeave k => some (enc k 0x6A 3 0 0 0)
  | .mkeyRsv k a => some (enc k 0x6A 4 a.encode 0 0)
  | .mkeyRel k a => some (enc k 0x6A 5 a.encode 0 0)
  | .plane k af nr b c => some (enc k 0x46 (af.code ++ nr ++ (0 : BitVec 4)) 0 b.encode c.encode)
  | .fxg k a b => some (enc k 0x6B 0 a.encode b.encode 0)
  | .fxc k a b => some (enc k 0x6C 0 a.encode b.encode 0)
  | .hbind k j lag a b => some (enc k 0x6D ((0 : BitVec 6) ++ bit lag ++ j.code ++ (0 : BitVec 3)) a.encode b.encode 0)
  | .hbindDrain k a b => some (enc k 0x6D 1 a.encode b.encode 0)
  | .hbindCut k a b => some (enc k 0x6D 2 a.encode b.encode 0)
  | .hrecv k t a b => some (enc k 0x6F ((0 : BitVec 11) ++ bit t) a.encode b.encode 0)
  | .hsendOk k a => some (enc k 0x6E 0 a.encode 0 0)
  | .hsendMore k a => some (enc k 0x6E 4 a.encode 0 0)
  | .hsendNone k a => some (enc k 0x6E 8 a.encode 0 0)
  | .hsendFail k a b c => some (enc k 0x6E 9 a.encode b.encode c.encode)
  | .hsendKill k a b c => some (enc k 0x6E 10 a.encode b.encode c.encode)
  | .latchGrant _ _ | .storeCommit _ | .storePerformed _ _ | .hallCombine _ | .regionRelease _ _
  | .sfuPhase1Complete _ _ | .sfuPhase2Lane _ | .hallFaultDelivery _ | .watchdogExpiry _ | .boundRewrite _ _
  | .rowOpen _ _ | .scheduleStart _ _ | .waitEnd _ | .waitSwap _ | .coreStallSwap _ | .groupMove _ _
  | .groupReadmission _ _ | .groupPlacement _ _ _ | .quantumExpiry _ _ | .enginePreemptStop _ _
  | .haltLineRaise _ _ _ _ | .engineHaltStop _ _ | .shutterSample _ | .shutterSecondSample _ | .aqldComplete _ _
  | .commandEligible _ _ | .matrixPass _ _ | .matrixCommandComplete _ _ | .fabricShare _ _ | .fabricUnitComplete _ _
  | .collectiveCheck _ _ | .fabricCommandComplete _ _ | .sourceEmit _ | .sinkWrite _ _ | .endOfStream _
  | .epochEnd _ | .regionSwap _ | .swapcfg .. | .retire _ | .restore _ | .rotate .. | .spare ..
  | .readcnt .. | .boot
  | .recoveryChunk _ | .getVersion _ | .getCapabilities _ | .negotiateAlgorithms _ | .getDigests _
  | .getCertificate _ | .challenge _ | .getMeasurements _ | .qenableWrite _ | .doorbell _ | .requestPoll
  | .registerWrite _ _ | .hello | .create | .start | .preempt | .resume | .reset | .destroy | .update | .powercap
  | .eventPost | .linkTraining _ _ _ _ _ | .fabricGroupAnnounce _ _ _ _ | .memberLeave _ _ | .thermalThrottle _
  | .thermalTrip _ | .expanderRemoved _ | .rotationEnd _ | .powerLoss | .announceAcknowledgement _
  | .acknowledgementTimeout => none

/-- The 96-bit word of an instruction. -/
def encode (i : Instr) : Option (BitVec 96) := i.fields.map Fields.pack

/-- The row is an encoded instruction and not a step of an engine, of the Cellar or of the outside world. -/
def Instr.encoded (i : Instr) : Bool := i.fields.isSome

/-- The instruction the decoder reads from a word whose bits are numbered as the opcode table numbers them: bit 0 is
the least significant bit of the first 32-bit word, and bits above `nbits` are 0. The words lie in that order at
ascending byte addresses, each little-endian (R32). -/
def decodeTableWord (nbits w : Nat) : Option Instr :=
  match decodeBytes (leBytes 12 (w % 2 ^ nbits)) with
  | .ok i => some i
  | .error _ => none

end Sys2Proof
end

