-- ==== Sys2Proof/Config.lean ====
section
/-! DEFINITION. The figures of the PM-4812 (R1, R5) and the values the manual leaves open. An opaque constant has no
body: nothing can be proved of its value, so a statement about the machine holds whatever it is. -/

namespace Sys2Proof

/-! ### Figures (R1, R5, R63, R72) -/

def Config.dies : Nat := 12
def Config.coresPerDie : Nat := 96
def Config.clustersPerDie : Nat := 24
def Config.coresPerCluster : Nat := 4
def Config.maxContexts : Nat := 64
def Config.groupsPerCore : Nat := 16
def Config.warpsPerCore : Nat := 64
def Config.barriersPerCore : Nat := 48
def Config.physicalRegisters : Nat := 6144
def Config.scratchpadBytes : Nat := 1572864
def Config.queueEntries : Nat := 256
def Config.latchEntries : Nat := 4096
def Config.safePointLimit : Nat := 2048
def Config.quantum : Nat := 320000

/-- What moves next. A `flaw` is an error of the HBM at a line: 0 uncorrectable by ECC, 1 a mismatch of its integrity, 2 one that
the controller corrects (R421). `outside` is bytes that the host writes to its memory, or that a loader puts into a context's
memory before it starts (R249, R429). `arrive` brings the next item on its way from an instance to its consumer on another die (R25, R394). `prefetch` is
a block of code that a core's instruction cache takes in of its own accord (R95). -/
inductive Turn where
  | hall (g : Nat)
  | warp (g w : Nat)
  | ap (g p : Nat)
  | event (i : Instr)
  | tick (n : Nat)
  | flaw (line kind : Nat)
  | outside (pa : Nat) (bytes : List Byte)
  | arrive (ctx inst consumer : Nat)
  | prefetch (core pa : Nat)
  deriving DecidableEq, Repr, Inhabited

/-! ### Values the manual leaves open -/

/-- Which agent moves at a step for which no turn is given: no rule fixes the order of agents beyond R71, R260 and
R286. -/
opaque Config.turnAt : Nat → Turn

/-- A choice among `n + 1` outcomes that a rule allows (R29, R91, R95). -/
opaque Config.choose : Nat → Nat → Nat

/-- A value that a rule leaves open. -/
opaque Config.freeBits : Nat → DWord

/-- The lanes that phase 1 of the special-function unit leaves undecided; its intervals are the part's own (R203,
R211). The arguments are the selector (64 and more for FUNC2), the format code and the rounding code as one number, and
the operand bits. -/
opaque Config.undecided : Nat → Nat → DWord → DWord → Bool

/-- The bits of FUNCA within the bounds of R212 and R213, which leave a choice: the selector, the format code and the
operand. -/
opaque Config.approx : Nat → Nat → DWord → Int

/-- Whether a firmware image carries both valid signatures (R425, R426): the keys and the schemes' arithmetic are not
part of the manual. -/
opaque Config.signaturesValid : List Byte → Bool

/-- The security version of a firmware image's header, and the least that the fuses allow (R425). -/
opaque Config.imageVersion : List Byte → Nat
opaque Config.fusedVersion : Nat

/-- The module's identity, fused at manufacture (R436). -/
opaque Config.identity : DWord

/-- The modules that a neighbour reaches over its own trained links, each with the hops from the neighbour (R436): links between other
modules are outside the model. -/
opaque Config.beyond : DWord → List (DWord × Nat)

/-- The minor features that the device supports, by interface (R434). -/
opaque Config.features : Nat → Word

/-- The regions that the Cellar holds for itself, by physical address ÷ 2^21 (R424, R439). -/
opaque Config.cellarRegions : List Nat

/-- The bytes of the memory expander at a capacity-tier port (R435), before the bounds of `expanderSize`. -/
opaque Config.expander : Nat → Nat

/-- The 64 KiB units of the image area of a partition with so many clusters (R236). DESIGN CHOICE: 16 MiB for each cluster. -/
def Config.imageUnits (clusters : Nat) : Nat := 256 * clusters

/-- The bytes of an SPDM response, which R428 leaves to the SPDM standard: by the number of the response, the request's place in
R428's list, the request and the firmware image. -/
opaque Config.spdmBytes : Nat → Nat → List Byte → List Byte → List Byte

end Sys2Proof
end

