-- ==== Sys2Proof/Machine/State.lean ====
section
/-! DEFINITION. The state of the machine: everything the manual gives it, as plain data, and the state right after
reset. -/

namespace Sys2Proof.Machine

open Sys2Proof

/-! ### Outcomes that stop the model -/

/-- Faults that stop the machine. The manual gives every fault a cause that a handler, the halt line or the Cellar
answers, so a step ends in one only for the reason below. -/
inductive Fault where
  /-- Raised by no meaning: a step that reads a unit the device does not have. Safe: the run stops. -/
  | noSuchUnit
  deriving DecidableEq, Repr

/-- Refusals: instructions to which the model gives no meaning. -/
inductive Refusal where
  /-- Raised by an arm of `exec` that has no meaning yet. Safe: the run stops. -/
  | notModelled (mnemonic : String)
  deriving DecidableEq, Repr

/-- Bytes by address: addresses strictly rising, no byte 0 listed; an address not listed reads 0. -/
abbrev Memory := List Host.Cell

/-! ### Causes (R225, R227) -/

/-- The causes, highest priority first (R225). -/
inductive Cause where
  | uncorrectableEcc | illegalInstr | privilege | illegalConvergence | illegalOperand | misaligned
  | accessViolation | stackGrow | pageFault | keyExhausted | rangeLocked | traceMismatch | detConflict
  | detIllegalOp | engineFault | queueFault | nestIllegal | safepointDistance | watchdog | breakpoint
  | softwareTrap
  deriving DecidableEq, Repr

/-- A cause with what %cinfo receives (R227). -/
structure Trap where
  cause : Cause
  mask : Mask
  addr : DWord
  kind : BitVec 8
  deriving DecidableEq, Repr

/-! ### Threads, warps, Halls and groups (R63) -/

/-- The Hall's registers as a snapshot: s0 to s63 and c0 to c15 (R63, R65, R68, R229). -/
structure Scalars where
  s : Vector DWord 64
  c : BitVec 16
  deriving DecidableEq, Repr

/-- A thread: one lane of a warp (R63). `flags` are the sticky flags in the layout of %fpstat bits 4:0 (R181).
`keptPc` and `keptMeet` hold what a handler keeps aside (R228), `stubPc` and `stubMeet` the resume PC and the kept MEET of a rebuild
stub (R83). `notBefore` and `skip` are what YIELD asks: the cycle or rotation before which the thread is not ready, and that
it lets one issue opportunity of its warp pass (R85). -/
structure Thread where
  pc : Word
  meet : Word
  preds : BitVec 16
  flags : BitVec 5
  live : Bool
  held : Bool
  handler : Bool
  stub : Bool
  stopped : Bool
  dist : Nat
  record : Option Nat
  keptPc : Word
  keptMeet : Word
  stubPc : Word
  stubMeet : Word
  notBefore : Nat
  skip : Bool
  deriving DecidableEq, Repr

/-- A word that WAITMEM watches for a lane (R112): where it is, its class and width, and what it is compared with. -/
structure WatchWord where
  lane : Nat
  va : Nat
  pa : Nat
  cls : Nat
  width : Nat
  value : DWord
  deriving DecidableEq, Repr

/-- The blocking waits of R78 and the stalls that the shutter tree, the pre-emption rules and the timers tell apart. A stall for
registers keeps how many are missing and the time from which it lasts (R73). -/
inductive WaitKind where
  | qpop (q : Nat)
  | ldfe (take : Bool) (granules : List Nat)
  | sharedRead (names : List Nat)
  | sharedWrite (names : List Nat)
  | barrier (b : Nat) (gen : BitVec 16)
  | shmap (first partner count : Nat)
  | waitmem (seen locked : Mask) (cnd : WaitCond) (words : List WatchWord)
  | npop
  | njoin (quiet : Bool) (rcb : Nat)
  | quiesced (rcb : Nat)
  | hrecv
  | registers (n since : Nat)
  | ndone
  | hsend
  | detset
  | d2merge
  | mkeyTake (since : Nat)
  | mkeyRsv (tile : Nat)
  | joinTile (tile : Nat)
  | qjoin
  | other
  deriving DecidableEq, Repr

/-- A wait of a Hall or of the lanes of a path. `ended` says that its condition was found to hold (R78). -/
structure Wait where
  lanes : Mask
  kind : WaitKind
  ended : Bool
  deriving DecidableEq, Repr

/-- A store in a store queue (R118): bytes to physical addresses, each with its class, one address of a RED with its class
and the merged datum (R108), scratchpad bytes with granules to set full or empty, the REF bits of tag words (R109), a queue
entry of QPUSH, or lines of CINV.L2. -/
inductive Store where
  | global (cells : List (Nat × Host.Cell)) (rel : Option Scope)
  | red (op : AtomOp) (n cls pa x : Nat) (rel : Option Scope)
  | spad (cells : List Host.Cell) (full empty : List Nat)
  | refs (words : List (Nat × Bool))
  | push (q : Nat) (words : Lanes Word) (mask : Mask)
  | cinv (lines : List Nat)
  deriving DecidableEq, Repr

/-- An ATOM of which some lanes are performed (R106, R116): the path and its PC, the places of the lanes still to come (lane,
virtual and physical address, class) with their data, and the old values of the others. -/
structure AtomRun where
  lanes : Mask
  pc : Word
  rest : List ((Nat × Nat × Nat × Nat) × Nat × Nat)
  olds : List (Nat × Nat)
  deriving DecidableEq, Repr

/-- A divergent region (R68, R69): its meeting address and the scalars sampled when its branch was forwarded. -/
structure Region where
  meet : Word
  scalars : Scalars
  deriving DecidableEq, Repr

/-- A handler in progress (R228, R229): whether R46 delivered the fault, whether the fault was met in a region, whether at an
entry of the decision queue, and the scalars the handler reads. -/
structure Handler where
  hallFault : Bool
  inRegion : Bool
  atEntry : Bool
  cause : Cause
  scalars : Scalars
  deriving DecidableEq, Repr

/-- A result that the scoreboard holds back (R204, R294): a vector register and the rotation from which it may be
read; no rotation while the special-function unit still works on it. -/
structure Pending where
  name : Nat
  usable : Option Nat
  deriving DecidableEq, Repr

/-- A write to part of a vector register: the name, the lanes, the bits and the values. -/
structure RegWrite where
  name : Nat
  lanes : Mask
  bits : Word
  vals : Lanes Word
  deriving DecidableEq, Repr

/-- A warp (R63). `regs` lists the architectural names that have a physical register: v0 to v255 as 0 to 255 and k0
to k31 as 256 to 287 (R72). `served` is the lane whose path each slice's sequencer serves next (R68); `lastSlice` is the lowest slice of the
sub-gang that issued last (R71). `ready` is the cycle from which the hardware has what the warp's next issue needs, `due` the cycle by which a ready warp receives its
opportunity (R71). `gated` is the barrier at which the warp waits inside BAR.GATE (R77); `marked` is the rotation of an issue of SAFEPT on a
determined core (R301); `atom` an ATOM of which lanes are still to be performed (R116). -/
structure Warp where
  rp : Nat
  atom : Option AtomRun
  regs : List (Nat × Lanes Word)
  threads : Lanes Thread
  sinceV : BitVec 256
  sinceP : BitVec 16
  rm : BitVec 3
  sfuslow : Word
  cause : BitVec 8
  cinfoAddr : DWord
  cinfoMask : Mask
  cinfoKind : BitVec 8
  epc : Word
  emask : Mask
  retired : Word
  region : Option Region
  handler : Option Handler
  served : Vector Nat 8
  lastSlice : Nat
  waits : List Wait
  tokens : List (Nat × BitVec 16)
  gated : Option Nat
  stores : List Store
  watchdog : Bool
  pending : List Pending
  skid : Nat
  ready : Nat
  due : Option Nat
  marked : Option Nat
  deriving DecidableEq, Repr

/-- A fault of the Hall waiting for its delivery (R46). -/
structure HallFault where
  trap : Trap
  pc : Word
  position : Nat
  delivered : Bool
  deriving DecidableEq, Repr

/-- What the Hall waits to combine (R66, R163): the entry's position, the instruction and what each warp has given: its
number, its lanes' values and its active lanes. -/
structure Combine where
  position : Nat
  instr : Instr
  votes : List (Nat × Lanes DWord × Mask)
  deriving DecidableEq, Repr

/-- The Hall thread of a group (R63, R64, R81). `pending` gives the scalar registers whose results are not usable yet and
the rotation from which each is (R294). -/
structure Hall where
  pc : Word
  sc : Scalars
  meetPtr : Option Word
  dist : Nat
  sinceS : BitVec 64
  sinceC : BitVec 16
  fault : Option HallFault
  combine : Option Combine
  wait : Option Wait
  stores : List Store
  pending : List (Nat × Nat)
  ended : Bool
  deriving DecidableEq, Repr

/-- An entry of the decision queue (R64, R65): the instruction, its PC, the sampled scalars, and for a region branch
the meeting pointer it used or for a uniform RET the value popped from the link stack; `rotation` is the rotation count when
the Hall wrote it (R312). -/
structure Entry where
  pc : Word
  instr : Instr
  scalars : Scalars
  guard : Bool
  meet : Option Word
  link : Option Word
  rotation : Nat
  deriving DecidableEq, Repr

/-- A barrier (R76). -/
structure Barrier where
  expected : Nat
  arrived : Mask
  gen : BitVec 16
  deriving DecidableEq, Repr

/-- A shared register range (R74): the two warps, which of them still map it, its first name, and each register with
its full bit. -/
structure SharedRange where
  warpA : Nat
  warpB : Nat
  onA : Bool
  onB : Bool
  first : Nat
  regs : List (Lanes Word)
  full : List Bool
  deriving DecidableEq, Repr

/-- A group image (R246). -/
structure Image where
  codeBase : Nat
  entry : Word
  warps : Nat
  barriers : Nat
  super : Bool
  spad : Nat
  copies : Nat
  spTable : Nat
  spCount : Nat
  stackLog : Nat
  stackBase : DWord
  deriving DecidableEq, Repr

/-- Where a group stands (R79, R164, R289): not yet placed, resident, swapped out but bound to its core, stopped by
pre-emption or a time slice with its state saved, or ended, with engine commands of its own still in hand. -/
inductive Standing where
  | waiting
  | resident
  | swapped
  | sliced
  | preempted
  | ended
  deriving DecidableEq, Repr

/-- What a group holds: a nest's point or a pipeline's entry (R276, R398, R406). -/
inductive Held where
  | point (handle serial : Nat)
  | item (handle serial : Nat) (eos : Bool)
  deriving DecidableEq, Repr

/-- A D2 point's snapshot, write set and REDs in program order (R303): a RED is its sub-operation, its width in bytes,
its physical address and its operand. -/
structure PointD2 where
  snapshot : Memory
  writes : List Host.Cell
  reds : List (AtomOp × Nat × Nat × DWord)
  deriving DecidableEq, Repr

/-- A fault of an engine command waiting for its group's NJOIN: one on any RCB (R374), or on the leaf or an ancestor of it
(R272, R402). -/
structure JoinFault where
  any : Bool
  rcbs : List Nat
  trap : Trap
  deriving DecidableEq, Repr

/-- An open dispatch trace (R296): the header's address, recording or replaying, and the entries a replay has consumed
(R299). -/
structure OpenTrace where
  header : Nat
  play : Bool
  consumed : List Nat
  deriving DecidableEq, Repr

/-- State of an access program (R321); `stalled` is a RUNNING program's own field. -/
inductive ApState where
  | running | stopped | ended
  deriving DecidableEq, Repr

/-- An AQLD in flight (R330): its queue, or the scratchpad offset of the .SP form, the physical addresses and classes of
its 32 words, on a determined core the words and the rotation from which it may complete (R339). -/
structure Flight where
  queue : Option Nat
  offset : Nat
  places : List (Nat × Nat)
  words : Option (Lanes Word)
  usable : Nat
  deriving DecidableEq, Repr

/-- An access program (R321 to R327). `loads` and `stores` are the masks LM and SM of its APRUN; `late` tokens were posted
in rotation `lateAt` (R339). -/
structure ApProgram where
  id : Nat
  state : ApState
  stalled : Bool
  pc : Word
  sc : Scalars
  tokens : Nat
  late : Nat
  lateAt : Nat
  loads : BitVec 8
  stores : BitVec 8
  fault : Option (Trap × Word)
  issued : List Store
  flights : List Flight
  deriving DecidableEq, Repr

/-- State of a queue entry (R320). -/
inductive SlotState where
  | pending | full | poisoned
  deriving DecidableEq, Repr

/-- An entry of an AP queue that is not EMPTY (R320). -/
structure QueueSlot where
  state : SlotState
  mask : Mask
  words : Lanes Word
  deriving DecidableEq, Repr

/-- A name q0 to q7 of a group (R319, R322): the program it is mapped to, its kind and its entries, head first. -/
structure ApQueue where
  name : Nat
  program : Nat
  isStore : Bool
  slots : List QueueSlot
  deriving DecidableEq, Repr

/-- The status record that stays on a queue name when its program ends (R322). -/
structure ApRecord where
  name : Nat
  program : Nat
  cause : BitVec 8
  pc : Word
  deriving DecidableEq, Repr

/-- A granted manual registration of a group (R115). -/
structure ManualLatch where
  handle : Nat
  latch : Nat
  spad : Bool
  deriving DecidableEq, Repr

/-- A tile's pending ENGINE_FAULT (R357): the warp whose MXMOV takes it and the address it names. -/
structure TileFault where
  warp : Nat
  addr : Nat
  deriving DecidableEq, Repr

/-- Landing rows for which a Hall's NBIND or HBIND waits (R13, R265, R394): the parent, how many, whether the leaf's own ceiling allows
them, and the cycle from which it waits. -/
structure LandAsk where
  rcb : Nat
  n : Nat
  own : Bool
  since : Nat
  deriving DecidableEq, Repr

/-- Queues for which an APRUN waits (R329): those that it has mapped, and the cycle from which it waits for the next one. -/
structure QueueAsk where
  since : Nat
  got : List Nat
  deriving DecidableEq, Repr

/-- The rest of a group's state: scratchpad, held point, timers, determinism, access programs and
deliveries. `takes` gives, for each warp, the number of the next command at its latest MKEY.TAKE (R355); `stored` gives,
for each agent, the rotation of its latest store on a determined core (R311); `asks` is what an APRUN in progress
has mapped and waits for (R329); `ready` says that a swapped group's wait has been found satisfiable (R79). -/
structure GroupExtra where
  d2 : Option PointD2
  spad : List Host.Cell
  full : List Nat
  dirty : List Nat
  held : Option Held
  wdog : Word
  waitTimer : Nat
  readyTimer : Nat
  ready : Bool
  level : Nat
  bindOrdinal : Nat
  regOrdinal : Nat
  trace : Option OpenTrace
  bound : List Nat
  latches : List ManualLatch
  joinFaults : List JoinFault
  programs : List ApProgram
  queues : List ApQueue
  records : List ApRecord
  takes : List (Nat × Nat)
  stored : List (Agent × Nat)
  asks : Option QueueAsk
  landAsk : Option LandAsk
  fabDesc : Option (List Byte)
  deriving DecidableEq, Repr

/-- A group (R63, R246): the copy of an image with its Hall, warps and everything that belongs to it. `home` is the
virtual address of its home RCB (R13), `imageNo` the place of its image among those made resident (R297), `order` its place in the order in which groups were made resident (R260),
`since` the cycle from which its age in R71 counts. -/
structure Group where
  id : Nat
  ctx : Nat
  image : Image
  ordinal : Nat
  imageNo : Option Nat
  copy : Nat
  home : Nat
  standing : Standing
  core : Nat
  slot : Nat
  vslot : Option Nat
  order : Nat
  since : Nat
  waitingSince : Nat
  hall : Hall
  queue : List Entry
  queueBase : Nat
  links : List Word
  warps : List Warp
  barriers : List Barrier
  shared : List SharedRange
  x : GroupExtra
  deriving DecidableEq, Repr

/-! ### Who issues -/

/-- What a warp issues now: its lanes, the PC, the scalars the instruction reads, the sampled guard, and from a
decision-queue entry the meeting pointer and the popped link (R64, R65, R163). -/
structure Issue where
  g : Nat
  w : Nat
  lanes : Mask
  pc : Word
  sc : Scalars
  guard : Bool
  queued : Bool
  meet : Option Word
  link : Option Word
  deriving DecidableEq, Repr

/-- The agent that issues the instruction `exec` is asked for; none for an event. -/
inductive Issuer where
  | none
  | hall (g : Nat)
  | warp (i : Issue)
  | ap (g p : Nat)
  deriving DecidableEq, Repr

/-! ### The special-function unit (R203, R204) -/

/-- A FUNC, FUNCA or FUNC2 that has issued and not retired, in issue order until its phase 1 completes and then in the
order of phase 2: what it will write, its lanes still to be served by phase 2, how many it had, its phase-1 latency, and
the rotation from which its results may be read (R217). -/
structure SfuOp where
  core : Nat
  g : Nat
  w : Nat
  lanes : Mask
  writes : List RegWrite
  flags : Lanes (BitVec 5)
  slow : Mask
  count : Nat
  latency : Nat
  phase2 : Bool
  usable : Option Nat
  deriving DecidableEq, Repr

/-! ### Memory -/

/-- A cached translation (R29): the page's virtual base and size, its physical base, and W, X and CLASS. -/
structure TlbEntry where
  va : Nat
  size : Nat
  pa : Nat
  w : Bool
  x : Bool
  cls : Nat
  deriving DecidableEq, Repr

/-- A 64-byte block of a core's instruction cache (R95). -/
structure CodeBlock where
  core : Nat
  pa : Nat
  bytes : List Byte
  deriving DecidableEq, Repr

/-- A 16-byte unit that accesses of class `cls` may still see as `old` (R91). -/
structure StaleUnit where
  pa : Nat
  cls : Nat
  old : List Byte
  deriving DecidableEq, Repr

/-- A committed store on its way to its home (R119), oldest first in the list that holds it. `early` says that it is
performed, while agents that must see an earlier store of its core first still wait when they read its bytes (R118, R122);
`shown` that the core's access processor has read it, and so never reads older bytes (R120, R325). -/
structure Committed where
  core : Nat
  ctx : Nat
  agent : Agent
  cls : Nat
  home : Nat
  cells : List Host.Cell
  rel : Option Scope
  early : Bool
  shown : Bool
  deriving DecidableEq, Repr

/-- Who holds a range of the latch table (R96). -/
inductive Holder where
  | manual (g handle : Nat)
  | rcb (va : Nat)
  | trace (g : Nat)
  | work (handle : Nat)
  | pipeline (handle : Nat)
  | command (id : Nat)
  | ap (g p : Nat)
  deriving DecidableEq, Repr

/-- A range of the latch table (R96): global, or in a group's scratchpad allocation. -/
structure Latch where
  ctx : Nat
  spad : Option Nat
  lo : Nat
  len : Nat
  dst : Bool
  holder : Holder
  deriving DecidableEq, Repr

/-- A registration that waits to be granted, or was granted and not yet taken up by its Hall (R96, R127). -/
structure LatchWait where
  ctx : Nat
  g : Nat
  ranges : List Latch
  since : Nat
  granted : Bool
  deriving DecidableEq, Repr

/-! ### Contexts -/

/-- The state of a context (R7). -/
inductive CtxState where
  | created | running | preempted | frozen
  deriving DecidableEq, Repr

/-- What a stop record says of a fault (R20). -/
structure FaultInfo where
  origin : Nat
  odie : Nat
  cause : Nat
  unit : Nat
  warp : Nat
  group : Nat
  lanes : Mask
  pc : Nat
  cinfo : Nat
  leaf : Nat
  serial : Nat
  deriving DecidableEq, Repr

/-- A raised halt line (R18, R19): the first fault, each engine's own fault, the time of the raise and the engines
that have written their records. -/
structure Halt where
  first : FaultInfo
  own : List (Engine × FaultInfo)
  offender : Bool
  raised : Nat
  stopped : List Engine
  deriving DecidableEq, Repr

/-- A pre-emption in progress (R23, R288): of the whole context, or of one region whose quantum expired, with the
engines that have acknowledged and the rotation count at which it was asked for; `begun` where it is honoured by now (R82, R301). -/
structure Preempting where
  region : Option Nat
  acks : List Engine
  since : Nat
  begun : Bool
  deriving DecidableEq, Repr

/-- A first sample of the shutter tree that waits for its second (R26). -/
structure Sample where
  cycle : Nat
  sent : Nat
  recv : Nat
  deriving DecidableEq, Repr

/-- The quantum of a region (R288): its RCB and the cycles it has run. -/
structure Quantum where
  rcb : Nat
  ran : Nat
  deriving DecidableEq, Repr

/-- A handle that is attached to a leaf (R252): the leaf's RCB, and whether it is a nest. -/
structure Handle where
  handle : Nat
  rcb : Nat
  nest : Bool
  deriving DecidableEq, Repr

/-- A number kept for a place: a die, a counter page, a line, a stack and layer, or a region. -/
structure Count where
  place : Nat
  n : Nat
  deriving DecidableEq, Repr

/-- A context (R6 to R31). `sent` and `recv` count by die (R25), `orders` the groups made resident (R260), `images` the group images of
which a copy has been (R297). Physical addresses: `xroot`, `imageArea` and the 64 KiB units `stopFrames` of the stop area; virtual:
`root`, `stopArea`. `taken` lists the agents of determined cores
that have had their turn in the rotation (R293). `rung` says that the shutter's AND was true when it was last looked at. -/
structure Ctx where
  num : Nat
  state : CtxState
  partition : List Nat
  prioMax : Nat
  group : Nat
  device : Nat
  key : Nat
  root : Nat
  xroot : Nat
  stopArea : Nat
  stopSize : Nat
  stopFrames : List Nat
  imageArea : Nat
  imageSize : Nat
  frames : List (Nat × Nat)
  vtime : Nat
  taken : List Turn
  ordinals : Nat
  orders : Nat
  images : Nat
  handles : List Handle
  tlb : List TlbEntry
  sent : List Count
  recv : List Count
  samples : List Sample
  rung : Bool
  halt : Option Halt
  preempting : Option Preempting
  quanta : List Quantum
  deriving DecidableEq, Repr

/-- A live RCB (R8, R9): its 256 bytes are memory at `pa`. -/
structure Rcb where
  ctx : Nat
  va : Nat
  pa : Nat
  deriving DecidableEq, Repr

/-! ### The Stair (R252 to R274) -/

/-- A bound record (R254). -/
structure Bound where
  k : Int
  a0 : Int
  a1 : Int
  a2 : Int
  table : Bool
  deriving DecidableEq, Repr

/-- The copy of a nest descriptor (R253). `va` is the descriptor's address, `bytes` its 256 bytes. -/
structure NestDesc where
  va : Nat
  bytes : List Byte
  kind : Nat
  dims : Nat
  dist : List (List Int)
  det : Nat
  landing : Nat
  region : Nat
  arg : DWord
  table : Nat
  tile : Nat
  counts : List Nat
  tasks : Nat
  edges : Nat
  work : Nat
  deriving DecidableEq, Repr

/-- A landing (R262). -/
structure Landing where
  row : Int
  npts : Nat
  done : Nat
  released : Nat
  window : DWord
  deriving DecidableEq, Repr

/-- A released entry that no group has taken (R260), with the snapshot of a D2 point (R303). -/
structure Released where
  row : Int
  lin : Nat
  coord : List Word
  flags : Nat
  stamp : Nat
  snapshot : Option Memory
  deriving DecidableEq, Repr

/-- An entry that a group has taken and not retired (R260, R263). `late` says that its retirement waits for the prefix
(R273), with the cause and address of TRET.KILLPT. -/
structure Handed where
  serial : Nat
  row : Int
  lin : Nat
  group : Nat
  late : Bool
  cause : Nat
  addr : Nat
  deriving DecidableEq, Repr

/-- A nest at its home Stair (R252 to R274); `pc` is its NBIND's (R20). `rr` is the place in residency order of the group that took the last
entry; `asks` is the cycle from which the next row waits for the budget, where that has been looked at (R257, R286); `faulted` says that a row
or schedule fault has stopped it (R272); `rewrote` is the cycle, core and slot of the latest rewrite applied (R280). -/
structure Nest where
  ctx : Nat
  handle : Nat
  die : Nat
  rcb : Nat
  pc : Word
  desc : NestDesc
  level : Nat
  binder : Nat
  binderOrdinal : Nat
  bindOrdinal : Nat
  cells : List Bound
  rows : List Landing
  nextRow : Int
  asks : Option Nat
  opened : Bool
  oldest : Int
  ready : List Released
  handed : List Handed
  serial : Nat
  rr : Nat
  started : Bool
  finished : Nat
  epochBytes : List (Int × List Nat)
  faulted : Bool
  rewrote : Option (Nat × Nat × Nat)
  deriving DecidableEq, Repr

/-- A rewrite on its way to a Stair, or answered (R267, R278). -/
structure Rewrite where
  die : Nat
  ctx : Nat
  g : Nat
  handle : Nat
  hi : Bool
  dim : Nat
  value : Int
  answer : Option Nat
  deriving DecidableEq, Repr

/-! ### The Hinge (R388 to R408) -/

/-- A consumer of an instance's ring (R390, R395): the stage that takes the items, or the sink of a pipeline. It takes no
item from serial `limit` on (R399); items below `got` have come to it where it is on another die (R25, R394); `eos` says that it has taken its end of stream, `failed` that a sink has stopped (R402). -/
structure Consumer where
  stage : Option Nat
  pipe : Nat
  cursor : Nat
  lag : Bool
  limit : Option Nat
  eos : Bool
  failed : Bool
  got : Nat
  deriving DecidableEq, Repr

/-- A source (R391), or a stage with its digest, its parameter block as it stood at the bind, and its serving region. -/
inductive HRole where
  | source (kind base count stride : Nat)
  | stage (digest param plen region ofmt : Nat) (block : List Byte)
  deriving DecidableEq, Repr

/-- An item that a group has taken and not retired, with the leaf that counts it (R398, R399). -/
structure HGiven where
  serial : Nat
  group : Nat
  rcb : Nat
  eos : Bool
  deriving DecidableEq, Repr

/-- An instance of a source or stage (R392 to R398). `handle` is the SHANDLE of a stage; `items` gives, for each item still in the
ring, the cycle of its append and for D2 the memory it was appended on (R260, R303, R403); `given` are its stage's items in hand; `sent` says
that the end of stream has been appended; a cut stage still hands over its killed notices, each the four words of an entry
(R399). -/
structure HInst where
  ctx : Nat
  handle : Nat
  die : Nat
  owner : Nat
  level : Nat
  role : HRole
  ring : Nat
  window : Nat
  next : Nat
  consumers : List Consumer
  given : List HGiven
  rr : Nat
  stopped : Bool
  sent : Bool
  cut : Bool
  notices : List (List DWord)
  items : List (Nat × Nat × Option Memory)
  epochBytes : List (Int × List Nat)
  binder : Nat
  bindOrdinal : Nat
  deriving DecidableEq, Repr

/-- A bound pipeline (R388, R393): the PC of its HBIND (R20), its elements as instance handles, the source first. `status` is
STATUS of its record, `bytes` the record as it was bound, `boundAt` the cycle, core and group slot of its HBIND (R408). -/
structure Pipe where
  ctx : Nat
  handle : Nat
  die : Nat
  rcb : Nat
  pc : Word
  record : Nat
  elems : List Nat
  sink : Nat
  level : Nat
  binder : Nat
  bindOrdinal : Nat
  status : Nat
  bytes : List Byte
  boundAt : Nat × Nat × Nat
  deriving DecidableEq, Repr

/-! ### The matrix engine (R341 to R364) -/

/-- A reserved tile (R352): the group that holds it, its elements by row-major index (0 where not listed), its flag word
and its pending fault (R356, R357); `drop` where it is released once its commands have completed. -/
structure Tile where
  cluster : Nat
  n : Nat
  group : Nat
  elems : List (Nat × Word)
  flags : BitVec 9
  fault : Option TileFault
  drop : Bool
  deriving DecidableEq, Repr

/-- A command in a reservation entry (R354, R355, R359): `id` gives the posting order, `next` the K-block that comes next,
`since` the cycle of its posting, of its becoming eligible or of the end of its latest pass (R345). -/
structure MatCmd where
  id : Nat
  cluster : Nat
  tile : Nat
  g : Nat
  w : Nat
  mod : MmaMod
  cmd0 : DWord
  cmd1 : DWord
  regs : List (Lanes Word)
  pc : Word
  posted : Nat
  eligible : Bool
  since : Nat
  next : Nat
  deriving DecidableEq, Repr

/-- A core's matrix key (R353): the members of its ring, the holder and the target of a key in transit, each a group and a
warp. -/
structure KeyRing where
  core : Nat
  members : List (Nat × Nat)
  holder : Option (Nat × Nat)
  transit : Option (Nat × Nat)
  deriving DecidableEq, Repr

/-- A warp that waits for a tile (R362). -/
structure TileWait where
  cluster : Nat
  tile : Nat
  g : Nat
  w : Nat
  since : Nat
  deriving DecidableEq, Repr

/-! ### The fabric engine (R365 to R384) -/

/-- The first failure of a command (R373): list position, cause, kind and address. -/
structure FabFault where
  pos : Nat
  cause : Nat
  kind : Nat
  addr : Nat
  deriving DecidableEq, Repr

/-- A failure of a fabric command: its cause, kind and address. -/
abbrev FabErr := Cause × Nat × Nat

/-- A route of a dispatch (R370): expert, residual, slot, device, address. -/
structure Route where
  expert : Nat
  res : Bool
  slot : Nat
  dev : Nat
  addr : Nat
  deriving DecidableEq, Repr

/-- What the issuing engine reads before any row moves (R369, R370): the index list, and for a dispatch the assignment of every
token: rows taken by each expert, residual rows, and the routes. -/
structure FabPlan where
  index : List (FabErr ⊕ Nat)
  taken : List Nat
  nres : Nat
  routes : List (FabErr ⊕ Route)
  deriving DecidableEq, Repr

/-- A command in hand (R365): its descriptor as read at issue, what the engine read before its first unit, the units started and not
served, those served, and PROG (R379). `away` counts the messages to other dies of units in flight (R25). `party` names the participants of a collective that have been found to agree, by the first one's number, and `closed`
says that one of them has completed (R376). -/
structure FabCmd where
  id : Nat
  die : Nat
  ctx : Nat
  g : Nat
  pc : Word
  collective : Bool
  va : Nat
  desc : List Byte
  started : Nat
  flying : List Nat
  served : List Nat
  prog : Nat
  party : Option Nat
  closed : Bool
  fault : Option FabFault
  plan : Option FabPlan
  away : List Count
  deriving DecidableEq, Repr

/-! ### Stack controllers (R409 to R423) -/

/-- A region's entry in the indirection table that is not the identity (R412). -/
structure Moved where
  stack : Nat
  layer : Nat
  region : Nat
  physical : Nat
  deriving DecidableEq, Repr

/-- A swap of two regions of a layer that the epoch's end decided and that waits to be carried out (R413, R414). -/
structure Swap where
  stack : Nat
  layer : Nat
  regionA : Nat
  regionB : Nat
  deriving DecidableEq, Repr

/-- The stack controllers. Counter pages are named by their physical address ÷ 4096, lines by address ÷ 128, regions by address
÷ 2^21; counters not listed are 0. `corrected` counts soft errors by layer and stack, `epochErrors` by region; `poisoned` lists the
lines that no read can correct, with true for an integrity failure; `withdrawn` are 64 KiB units that are no longer given out;
`signalled` are the regions whose errors have been signalled to the Cellar, `readout` the counter that READCNT last returned to it
(R421, R422). -/
structure Stacks where
  moved : List Moved
  swaps : List Swap
  swapOn : Bool
  swapFactor : Nat
  swapOffset : Nat
  retired : List Nat
  major : List Count
  minor : List Count
  exhausted : List Nat
  corrected : List Count
  epochErrors : List Count
  poisoned : List (Nat × Bool)
  withdrawn : List Nat
  signalled : List Nat
  readout : Option Nat
  deriving DecidableEq, Repr

/-! ### The Cellar and the host (R424 to R439) -/

/-- A request that the Cellar holds (R7, R24): its operation, tag and context. -/
structure HeldRequest where
  op : Nat
  tag : Nat
  ctx : Nat
  deriving DecidableEq, Repr

/-- A trained fabric link: the local port, the other end's module identity (R436). -/
structure Link where
  port : Nat
  identity : DWord
  deriving DecidableEq, Repr

/-- A member of a fabric group (R436). -/
structure Member where
  group : Nat
  dev : Nat
  identity : DWord
  ctx : Nat
  deriving DecidableEq, Repr

/-- A CREATE whose announcement waits for acknowledgements: its record and the modules still to answer (R436). -/
structure Announcing where
  record : List Byte
  waiting : List DWord
  deriving DecidableEq, Repr

/-- The Cellar with BAR0 (R425 to R439). `store` is the firmware image, `staged` what recovery has taken, `updating` the image
that an UPDATE is writing over it; `taken` are the requests taken from the ring, `held` those whose transition is in progress.
`vectors` counts how often each MSI-X vector was raised; `links` are the trained fabric ports; `absent` the capacity-tier ports without an
expander; `clock` the steps by which dies are slowed down; `keeps` the regions that the Cellar holds for itself, by physical
address ÷ 2^21 (R439). -/
structure Cellar where
  status : Nat
  stage : Nat
  rerr : Nat
  rack : Nat
  reqBase : DWord
  rspBase : DWord
  evtBase : DWord
  en : Bool
  qerr : Bool
  evtVec : DWord
  recWin : List Host.Cell
  store : Option (List Byte)
  staged : List Byte
  nextSeq : Nat
  updating : Option (List Byte)
  hello : Bool
  taken : List (List Byte)
  held : List HeldRequest
  responses : List (List Byte)
  events : List (List Byte)
  vectors : List Count
  announcing : Option Announcing
  links : List Link
  members : List Member
  powerCap : Nat
  clock : List Count
  absent : List Nat
  spdm : List (List Byte)
  keeps : List Nat
  deriving DecidableEq, Repr

/-- Where the round robin among a core's warps stands: the place in the age order of the warp that had the latest opportunity (R71). -/
structure CoreTurn where
  core : Nat
  age : Nat
  slot : Nat
  warp : Nat
  deriving DecidableEq, Repr

/-! ### The machine -/

/-- The whole machine. The first five fields are the model's own: the turns that come next, the number of steps, the
number of free values drawn, who issues, and the bytes that the step in hand has written and not yet stored in `mem`. -/
structure State where
  agenda : List Turn
  steps : Nat
  fresh : Nat
  issuer : Issuer
  outbox : List Host.Cell
  cycles : DWord
  mem : Memory
  stale : List StaleUnit
  code : List CodeBlock
  commits : List Committed
  rcbs : List Rcb
  latches : List Latch
  latchWaits : List LatchWait
  ctxs : List Ctx
  groups : List Group
  turns : List CoreTurn
  nextId : Nat
  sfu : List SfuOp
  nests : List Nest
  rewrites : List Rewrite
  pipes : List Pipe
  insts : List HInst
  tiles : List Tile
  commands : List MatCmd
  keys : List KeyRing
  tileWaits : List TileWait
  passed : List Count
  fabric : List FabCmd
  hbm : Stacks
  cellar : Cellar
  deriving DecidableEq, Repr

/-- The stack controllers after reset (R412, R413). -/
def Stacks.reset : Stacks where
  moved := []
  swaps := []
  swapOn := true
  swapFactor := 24
  swapOffset := 65536
  retired := []
  major := []
  minor := []
  exhausted := []
  corrected := []
  epochErrors := []
  poisoned := []
  withdrawn := []
  signalled := []
  readout := none

/-- The Cellar after reset (R426, R430): booting, with a firmware image in the store; the empty list stands for that image. -/
def Cellar.reset : Cellar where
  status := 1
  stage := 0
  rerr := 0
  rack := 0
  reqBase := 0
  rspBase := 0
  evtBase := 0
  en := false
  qerr := false
  evtVec := 0
  recWin := []
  store := some []
  staged := []
  nextSeq := 0
  updating := none
  hello := false
  taken := []
  held := []
  responses := []
  events := []
  vectors := []
  announcing := none
  links := []
  members := []
  powerCap := 8500
  clock := []
  absent := []
  spdm := []
  keeps := []

/-- The machine right after reset: no context exists, and the Cellar has yet to boot (R7, R425, R430). -/
def State.reset : State where
  agenda := []
  steps := 0
  fresh := 0
  issuer := .none
  outbox := []
  cycles := 0
  mem := []
  stale := []
  code := []
  commits := []
  rcbs := []
  latches := []
  latchWaits := []
  ctxs := []
  groups := []
  turns := []
  nextId := 0
  sfu := []
  nests := []
  rewrites := []
  pipes := []
  insts := []
  tiles := []
  commands := []
  keys := []
  tileWaits := []
  passed := []
  fabric := []
  hbm := Stacks.reset
  cellar := Cellar.reset

end Sys2Proof.Machine
end

