-- ==== Sys2Proof/Machine/Memory.lean ====
section
/-! DEFINITION. Physical memory: its canonical form, reading and writing bytes and little-endian numbers, and the one
place where what a step has written reaches `mem`. -/

namespace Sys2Proof.Machine

open Sys2Proof

/-! ### Lists of cells in canonical form -/

/-- The byte at an address; an address that is not listed reads 0. -/
def cellGet : Memory → Nat → Byte
  | [], _ => 0
  | (a, b) :: m, x => if a = x then b else cellGet m x

/-- The memory with one byte changed: addresses stay rising and a 0 is not listed. -/
def cellSet : Memory → Nat → Byte → Memory
  | [], x, v => if v = 0 then [] else [(x, v)]
  | (a, b) :: m, x, v =>
    if x < a then (if v = 0 then (a, b) :: m else (x, v) :: (a, b) :: m)
    else if x = a then (if v = 0 then m else (x, v) :: m)
    else (a, b) :: cellSet m x v

/-- Every listed address is at least `n`, addresses rise strictly, and no listed byte is 0. -/
def cellsFrom : Nat → Memory → Bool
  | _, [] => true
  | n, (a, b) :: m => decide (n ≤ a) && b != 0 && cellsFrom (a + 1) m

/-- The canonical form of a memory. -/
def Memory.wf (m : Memory) : Bool := cellsFrom 0 m

/-- The cells stored one after another, the last of the list first. -/
def cellsInto (m : Memory) (ws : List Host.Cell) : Memory := ws.foldr (fun c m => cellSet m c.1 c.2) m

/-- The cells of a list, later ones in place of earlier ones of the same address. -/
def cellsPut (m : Memory) (ws : List Host.Cell) : Memory := ws.foldl (fun m c => cellSet m c.1 c.2) m

/-- `n` bytes from an address. -/
def cellBytes (m : Memory) (a n : Nat) : List Byte := (List.range n).map (fun i => cellGet m (a + i))

/-! ### Physical memory within a step -/

/-- The byte at a physical address, as the step in hand has left it. -/
def State.peek (s : State) (pa : Nat) : Byte :=
  match s.outbox.find? (fun c => c.1 == pa) with
  | some c => c.2
  | none => cellGet s.mem pa

/-- Writes one byte. -/
def State.poke (s : State) (pa : Nat) (b : Byte) : State := { s with outbox := (pa, b) :: s.outbox }

/-- Writes cells in order. -/
def State.pokeCells (s : State) (cs : List Host.Cell) : State := { s with outbox := cs.reverse ++ s.outbox }

def State.peekBytes (s : State) (pa n : Nat) : List Byte := (List.range n).map (fun i => s.peek (pa + i))

/-- A little-endian number of `n` bytes. -/
def State.peekN (s : State) (pa n : Nat) : Nat := leNat (s.peekBytes pa n)

/-- The cells of a run of bytes. -/
def cellsAt (pa : Nat) : List Byte → List Host.Cell
  | [] => []
  | b :: bs => (pa, b) :: cellsAt (pa + 1) bs

def State.pokeBytes (s : State) (pa : Nat) (bs : List Byte) : State := s.pokeCells (cellsAt pa bs)

/-- Writes the low `n` bytes of a number, little-endian. -/
def State.pokeN (s : State) (pa n v : Nat) : State := s.pokeBytes pa (leBytes n v)

/-- Memory as the step in hand has left it. -/
def State.memory (s : State) : Memory := cellsInto s.mem s.outbox

/-- Every listed byte whose address `p` takes becomes 0. -/
def State.zeroWhere (s : State) (p : Nat → Bool) : State :=
  s.pokeCells ((s.memory.filter (fun c => p c.1)).map (fun c => (c.1, 0)))

/-- What the step of `s` has written becomes memory: a meaning changes `outbox` alone, never `mem`. -/
def settle (s t : State) : State := { t with mem := cellsInto s.mem t.outbox, outbox := [], issuer := .none }

/-- The outcome of a step of `s` that ends in `t`. -/
def finish (s t : State) : Host.Outcome State Fault Refusal := .next (settle s t)

/-- A free choice among `n + 1` outcomes. -/
def State.draw (s : State) (n : Nat) : Nat × State :=
  (Config.choose s.fresh n % (n + 1), { s with fresh := s.fresh + 1 })

/-- A free 64-bit value. -/
def State.drawBits (s : State) : DWord × State := (Config.freeBits s.fresh, { s with fresh := s.fresh + 1 })

end Sys2Proof.Machine
end

