-- ==== Sys2Proof/Machine/Rcb.lean ====
section
/-! DEFINITION. Region control blocks (R8 to R17): their fields in memory, effective values, and the Cellar's event list
that a DONE or a halt adds to. What groups and leaves use of a budget is in Ops.lean and Sched.lean. -/

namespace Sys2Proof.Machine

open Sys2Proof

/-- The fields of an RCB (R10). -/
inductive RcbField where
  | ver | kind | depth | flags | parent | firstChild | nextSib
  | bCores | bAcct | bSpad | bRegs | bLand | bQueues
  | uCores | uAcct | uSpad | uRegs | uLand | uQueues
  | outstanding | retired | faulted | killed | fcause | faddr | fserial | evTarget | swapLim | wdogLim | leafDesc
  | stopArea | stopSize | trapVec | xroot | pRetired | pFaulted | pKilled
  deriving DecidableEq, Repr

/-- Where a field stands and how many bytes it has (R10). -/
def RcbField.place : RcbField → Nat × Nat
  | .ver => (0, 2)
  | .kind => (2, 1)
  | .depth => (3, 1)
  | .flags => (4, 4)
  | .parent => (8, 8)
  | .firstChild => (16, 8)
  | .nextSib => (24, 8)
  | .bCores => (32, 2)
  | .bAcct => (34, 2)
  | .bSpad => (36, 4)
  | .bRegs => (40, 4)
  | .bLand => (44, 2)
  | .bQueues => (46, 1)
  | .uCores => (48, 2)
  | .uAcct => (50, 2)
  | .uSpad => (52, 4)
  | .uRegs => (56, 4)
  | .uLand => (60, 2)
  | .uQueues => (62, 1)
  | .outstanding => (64, 8)
  | .retired => (72, 8)
  | .faulted => (80, 8)
  | .killed => (88, 8)
  | .fcause => (96, 1)
  | .faddr => (104, 8)
  | .fserial => (112, 8)
  | .evTarget => (120, 8)
  | .swapLim => (128, 4)
  | .wdogLim => (132, 4)
  | .leafDesc => (136, 8)
  | .stopArea => (144, 8)
  | .stopSize => (152, 4)
  | .trapVec => (160, 8)
  | .xroot => (168, 8)
  | .pRetired => (176, 8)
  | .pFaulted => (184, 8)
  | .pKilled => (192, 8)

/-- Reads a field. -/
def State.rget (s : State) (r : Rcb) (f : RcbField) : Nat := s.peekN (r.pa + f.place.1) f.place.2

/-- Writes a field. -/
def State.rset (s : State) (r : Rcb) (f : RcbField) (v : Nat) : State := s.pokeN (r.pa + f.place.1) f.place.2 v

def State.radd (s : State) (r : Rcb) (f : RcbField) (n : Nat) : State := s.rset r f (s.rget r f + n)

/-- A bit of FLAGS (R11). -/
def State.rflag (s : State) (r : Rcb) (bit : Nat) : Bool := (s.rget r .flags).testBit bit

def State.setFlag (s : State) (r : Rcb) (bit : Nat) (v : Bool) : State :=
  let f := s.rget r .flags
  s.rset r .flags (if f.testBit bit = v then f else if v then f + 2 ^ bit else f - 2 ^ bit)

/-- DONE and CUT of FLAGS (R11). -/
def State.rdone (s : State) (r : Rcb) : Bool := s.rflag r 17
def State.rcut (s : State) (r : Rcb) : Bool := s.rflag r 16

/-- The live RCB of a context at a virtual address. -/
def State.rcb? (s : State) (ctx va : Nat) : Option Rcb := s.rcbs.find? (fun r => r.ctx == ctx && r.va == va)

/-- An RCB and its ancestors, itself first; no RCB is deeper than 8 (R8). -/
def State.chainUp (s : State) (ctx : Nat) : Nat → Nat → List Rcb
  | 0, _ => []
  | n + 1, va =>
    match s.rcb? ctx va with
    | none => []
    | some r => r :: (if s.rget r .depth = 0 then [] else s.chainUp ctx n (s.rget r .parent))

def State.ancestors (s : State) (ctx va : Nat) : List Rcb := s.chainUp ctx 9 va

/-- The RCB whose own value is effective for a field with this override bit: the nearest one that sets the bit, or the
root (R11, R12). -/
def State.effRcb (s : State) (ctx va bit : Nat) : Option Rcb :=
  let l := s.ancestors ctx va
  match l.find? (fun r => s.rflag r bit || s.rget r .depth == 0) with
  | some r => some r
  | none => l.getLast?

/-- The effective value of a field (R12). -/
def State.eff (s : State) (ctx va bit : Nat) (f : RcbField) (dflt : Nat) : Nat :=
  match s.effRcb ctx va bit with
  | some r => s.rget r f
  | none => dflt

/-- Effective PRIO, DOMAIN, EVMODE, SWAPLIM and WDOGLIM (R11). -/
def State.effPrio (s : State) (ctx va : Nat) : Nat := s.eff ctx va 19 .flags 0 % 16
def State.effDomain (s : State) (ctx va : Nat) : Bool := (s.eff ctx va 20 .flags 0).testBit 8
def State.effEvMode (s : State) (ctx va : Nat) : Nat := s.eff ctx va 21 .flags 0 / 1024 % 4
def State.effEvTarget (s : State) (ctx va : Nat) : Nat := s.eff ctx va 21 .evTarget 0
def State.effSwap (s : State) (ctx va : Nat) : Nat := s.eff ctx va 22 .swapLim 16384
def State.effWdog (s : State) (ctx va : Nat) : Nat := s.eff ctx va 23 .wdogLim 0x80000000

/-- The RCB at `va` lies in the subtree of `top`. -/
def State.inSubtree (s : State) (ctx va top : Nat) : Bool := (s.ancestors ctx va).any (fun r => r.va == top)

/-- The RCBs whose parent is `va`, in bind order as far as their chain goes (R14). -/
def State.children (s : State) (ctx va : Nat) : List Rcb :=
  s.rcbs.filter (fun r => r.ctx == ctx && s.rget r .parent == va && s.rget r .depth != 0)

/-- The status word of R17. -/
def State.statusWord (s : State) (r : Rcb) (quiet frozen : Bool) : Nat :=
  let b := fun (x : Bool) => if x then 1 else 0
  b (s.rdone r) * 2 ^ 63 + b quiet * 2 ^ 62 + b frozen * 2 ^ 61 + b (s.rcut r) * 2 ^ 60 +
    s.rget r .fcause * 2 ^ 48 + min (s.rget r .retired) 0xFFFFFF * 2 ^ 24 +
    min (s.rget r .faulted) 0xFFF * 2 ^ 12 + min (s.rget r .killed) 0xFFF

/-! ### Events for the host (R433) -/

/-- An event record of 128 bytes: type, context, payload and RECORD (R433). -/
def eventRecord (type ctx : Nat) (payload record : List Byte) : List Byte :=
  let pad := fun n (l : List Byte) => (l ++ List.replicate n 0).take n
  leBytes 2 type ++ leBytes 2 ctx ++ pad 60 payload ++ pad 64 record

/-- Gives the Cellar an event to post. -/
def State.postEvent (s : State) (type ctx : Nat) (payload record : List Byte) : State :=
  { s with cellar := { s.cellar with events := s.cellar.events ++ [eventRecord type ctx payload record] } }

/-! ### Checking an RCB (R8) -/

/-- The fields of a 256-byte block as bytes. -/
def blockN (b : List Byte) (off n : Nat) : Nat := leNat ((b.drop off).take n)

/-- Every byte from `a` up to `z` of a block is 0. -/
def blockZero (b : List Byte) (a z : Nat) : Bool := ((b.drop a).take (z - a)).all (· == 0)

/-- The ceilings an RCB's own values must respect: the effective ceilings of its parent (R13). -/
def State.ceilings (s : State) (ctx parent : Nat) : List Nat :=
  match s.effRcb ctx parent 18 with
  | some r => [s.rget r .bCores, s.rget r .bAcct, s.rget r .bSpad, s.rget r .bRegs, s.rget r .bLand, s.rget r .bQueues]
  | none => []

/-- R8 for a block that is to become an RCB of kind `kind` under `parent` (none for the context): version, kind,
reserved bytes (byte 7 of FLAGS is one; its other reserved bits are ignored, R4), event mode and budgets. -/
def State.rcbOk (s : State) (ctx : Nat) (b : List Byte) (kind : Nat) (parent : Option Nat) : Bool :=
  let fl := blockN b 4 4
  let own := [blockN b 32 2, blockN b 34 2, blockN b 36 4, blockN b 40 4, blockN b 44 2, blockN b 46 1]
  let mode := fl / 1024 % 4
  blockN b 0 2 == 0x0100 && blockN b 2 1 == kind &&
  fl / 2 ^ 24 == 0 &&
  blockZero b 47 48 && blockZero b 63 64 && blockZero b 97 104 && blockZero b 156 160 && blockZero b 200 256 &&
  blockN b 36 4 % 4096 == 0 &&
  mode != 3 && !((fl.testBit 21 || parent.isNone) && mode == 2 && blockN b 120 8 % 8 != 0) &&
  (match parent with
  | none => true
  | some p =>
    (match s.rcb? ctx p with
    | none => false
    | some r =>
      decide (s.rget r .kind ≤ 1) && decide (s.rget r .depth < 8) &&
      (!fl.testBit 18 || (own.zip (s.ceilings ctx p)).all (fun x => decide (x.1 ≤ x.2)))))

end Sys2Proof.Machine
end

