-- ==== Sys2Proof/Machine/Ops.lean ====
section
/-! DEFINITION. The shared operations over groups, warps and registers: finding and changing them, the register file
(R72 to R74), budgets for registers (R13), the halt line (R18), taking an exception (R228) and the common part of the
return from one (R230). -/

namespace Sys2Proof.Machine

open Sys2Proof

/-! ### Finding and changing -/

def State.group? (s : State) (g : Nat) : Option Group := s.groups.find? (fun x => x.id == g)

def State.modGroup (s : State) (g : Nat) (f : Group → Group) : State :=
  { s with groups := s.groups.map (fun x => if x.id == g then f x else x) }

def State.modX (s : State) (g : Nat) (f : GroupExtra → GroupExtra) : State :=
  s.modGroup g (fun x => { x with x := f x.x })

def State.modHall (s : State) (g : Nat) (f : Hall → Hall) : State :=
  s.modGroup g (fun x => { x with hall := f x.hall })

def Group.modWarp (gr : Group) (w : Nat) (f : Warp → Warp) : Group := { gr with warps := gr.warps.modify w f }

def State.modWarp (s : State) (g w : Nat) (f : Warp → Warp) : State := s.modGroup g (fun x => x.modWarp w f)

def State.warp? (s : State) (g w : Nat) : Option Warp := (s.group? g).bind (fun x => x.warps[w]?)

def State.ctx? (s : State) (c : Nat) : Option Ctx := s.ctxs.find? (fun x => x.num == c)

def State.modCtx (s : State) (c : Nat) (f : Ctx → Ctx) : State :=
  { s with ctxs := s.ctxs.map (fun x => if x.num == c then f x else x) }

/-- The group is on a core and its threads run (R79). -/
def Group.resident (gr : Group) : Bool := gr.standing == .resident

/-- Threads that have not ended, and those of a test among them. -/
def Warp.liveMask (w : Warp) : Mask := Mask.of (fun l => (w.threads.get l).live)
def Warp.liveLanes (w : Warp) (p : Thread → Bool) : Mask :=
  Mask.of (fun l => (w.threads.get l).live && p (w.threads.get l))

def Warp.isLive (w : Warp) : Bool := w.liveMask != 0

/-- The numbers of a group's live warps in ascending order. -/
def Group.liveWarps (gr : Group) : List Nat :=
  (List.range gr.warps.length).filter (fun i =>
    match gr.warps[i]? with
    | some w => w.isLive
    | none => false)

def Warp.modThreads (w : Warp) (m : Mask) (f : Thread → Thread) : Warp :=
  { w with threads := Lanes.of (fun l => if m.has l then f (w.threads.get l) else w.threads.get l) }

/-- Where the Hall stands in the stream of entries (R46). -/
def Group.position (gr : Group) : Nat := gr.queueBase + gr.queue.length

/-- Die, cluster and core of a device core number (R5). -/
def dieOf (core : Nat) : Nat := core / Config.coresPerDie
def clusterOf (core : Nat) : Nat := core / Config.coresPerCluster

/-- Dies that a partition touches. -/
def Ctx.dies (c : Ctx) : List Nat :=
  (List.range Config.dies).filter (fun d => c.partition.any (fun k => k / Config.clustersPerDie == d))

/-- Cores of a partition in ascending order. -/
def Ctx.cores (c : Ctx) : List Nat :=
  c.partition.flatMap (fun k => (List.range Config.coresPerCluster).map (fun i => k * Config.coresPerCluster + i))

/-- The path runs at handler privilege: in a handler, and in no rebuild stub (R83, R229). -/
def Warp.privileged (w : Warp) (lanes : Mask) : Bool := w.handler.isSome && w.liveLanes (fun t => t.stub) &&& lanes == 0

/-! ### Groups as they begin (R63, R181, R234) -/

/-- A thread at the entry point (R63): p0 is 1, MEET equals no instruction index. -/
def Thread.atEntry (entry : Word) : Thread where
  pc := entry
  meet := 0xFFFFFFFF
  preds := 1
  flags := 0
  live := true
  held := false
  handler := false
  stub := false
  stopped := false
  dist := 0
  record := none
  keptPc := 0
  keptMeet := 0
  stubPc := 0
  stubMeet := 0
  notBefore := 0
  skip := false

/-- A warp at the entry point, with %fpstat.RM at its reset value (R63, R181, R234). -/
def Warp.atEntry (entry : Word) (rp : Nat) : Warp where
  rp := rp
  regs := []
  threads := Lanes.all (Thread.atEntry entry)
  sinceV := 0
  sinceP := 0
  rm := 1
  sfuslow := 0
  cause := 0
  cinfoAddr := 0
  cinfoMask := 0
  cinfoKind := 0
  epc := 0
  emask := 0
  retired := 0
  region := none
  handler := none
  served := Vector.replicate 8 0
  lastSlice := 7
  waits := []
  tokens := []
  gated := none
  stores := []
  watchdog := false
  pending := []
  skid := 0
  ready := 0
  due := none
  marked := none
  atom := none

/-- The Hall at the entry point: scalar registers unwritten, c0 is 1, the meeting pointer clear (R63, R64, R39). -/
def Hall.atEntry (entry : Word) : Hall where
  pc := entry
  sc := ⟨Vector.replicate 64 0, 1⟩
  meetPtr := none
  dist := 0
  sinceS := 0
  sinceC := 0
  fault := none
  combine := none
  wait := none
  stores := []
  pending := []
  ended := false

/-- What belongs to a group beside its threads, at its first residency (R92, R233, R240, R297, R307). -/
def GroupExtra.fresh : GroupExtra where
  d2 := none
  spad := []
  full := []
  dirty := []
  held := none
  wdog := 0
  waitTimer := 0
  readyTimer := 0
  ready := false
  level := 0
  bindOrdinal := 0
  regOrdinal := 0
  trace := none
  bound := []
  latches := []
  joinFaults := []
  programs := []
  queues := []
  records := []
  takes := []
  stored := []
  asks := none
  landAsk := none
  fabDesc := none

/-- A barrier at residency (R76). -/
def Barrier.atResidency (warps : Nat) (gen : BitVec 16) : Barrier := ⟨warps, 0, gen⟩

/-- A copy of a group image that waits for a core (R287). -/
def Group.waiting (id ctx : Nat) (image : Image) (ordinal copy home now : Nat) : Group where
  id := id
  ctx := ctx
  image := image
  ordinal := ordinal
  imageNo := none
  copy := copy
  home := home
  standing := .waiting
  core := 0
  slot := 0
  vslot := none
  order := 0
  since := 0
  waitingSince := now
  hall := Hall.atEntry image.entry
  queue := []
  queueBase := 0
  links := []
  warps := (List.range image.warps).map (fun _ => Warp.atEntry image.entry 0)
  barriers := (List.range image.barriers).map (fun _ => Barrier.atResidency image.warps 0)
  shared := []
  x := GroupExtra.fresh

/-! ### Determinism (R292) -/

/-- A leaf's serving region holds the group. -/
def State.serves (s : State) (gr : Group) (region : Nat) : Bool := s.inSubtree gr.ctx gr.home region

/-- The levels of the live leaves that a group serves or holds an entry of. -/
def State.leafLevels (s : State) (gr : Group) : List Nat :=
  ((s.nests.filter (fun n => n.ctx == gr.ctx && (s.serves gr n.desc.region ||
    (match gr.x.held with
    | some (.point h _) => h == n.handle
    | _ => false)))).map (·.level)) ++
  ((s.insts.filter (fun x => x.ctx == gr.ctx && (match x.role with
    | .stage _ _ _ region _ _ => s.serves gr region || (match gr.x.held with
      | some (.item h _ _) => h == x.handle
      | _ => false)
    | .source .. => false))).map (·.level))

/-- The group is determined (R292). -/
def State.determined (s : State) (gr : Group) : Bool :=
  gr.x.level != 0 || (s.leafLevels gr).any (· != 0)

/-- Every warp of the group that is live has stopped for pre-emption (R82). -/
def Group.allStopped (gr : Group) : Bool :=
  gr.liveWarps.all (fun i =>
    match gr.warps[i]? with
    | some w => w.liveLanes (fun t => t.stopped) == w.liveMask
    | none => true)

/-- The core is determined: some group resident on it is. DEDUCED (log 69): groups that have stopped for pre-emption do not count, so
that others on the core run on to where R82 stops them. -/
def State.coreDetermined (s : State) (core : Nat) : Bool :=
  s.groups.any (fun gr => gr.resident && gr.core == core && !gr.allStopped && s.determined gr)

/-- Some core of the context's partition is determined by a group of it (R301). -/
def State.partitionDetermined (s : State) (ctx : Nat) : Bool :=
  s.groups.any (fun gr => gr.ctx == ctx && gr.resident && s.determined gr)

/-- The rotation count of a group's partition (R293). -/
def State.vtimeOf (s : State) (ctx : Nat) : Nat :=
  match s.ctx? ctx with
  | some c => c.vtime
  | none => 0

/-- The time that YIELD, timers and clocks count for a group: rotations on a determined core, else cycles (R85, R295). -/
def State.timeOf (s : State) (gr : Group) : Nat :=
  if s.coreDetermined gr.core then s.vtimeOf gr.ctx else s.cycles.toNat

/-! ### Vector registers (R72 to R74) -/

/-- A name that has no physical register reads 0 (R72). -/
def regGet (rs : List (Nat × Lanes Word)) (n : Nat) : Lanes Word :=
  match rs.find? (fun r => r.1 == n) with
  | some r => r.2
  | none => Lanes.all 0

/-- Sets a register, keeping the names rising. -/
def regSet : List (Nat × Lanes Word) → Nat → Lanes Word → List (Nat × Lanes Word)
  | [], n, v => [(n, v)]
  | (m, x) :: rs, n, v =>
    if n < m then (n, v) :: (m, x) :: rs else if n = m then (n, v) :: rs else (m, x) :: regSet rs n v

def regFree (rs : List (Nat × Lanes Word)) (ns : List Nat) : List (Nat × Lanes Word) :=
  rs.filter (fun r => !ns.contains r.1)

/-- The warp still maps the range. -/
def SharedRange.mapsFor (r : SharedRange) (w : Nat) : Bool :=
  (r.warpA == w && r.onA) || (r.warpB == w && r.onB)

/-- The shared range that holds a name of a warp, with the register's place in it (R74). -/
def Group.sharedAt (gr : Group) (w n : Nat) : Option (SharedRange × Nat) :=
  (gr.shared.find? (fun r => r.mapsFor w && decide (r.first ≤ n) && decide (n < r.first + r.regs.length))).map
    (fun r => (r, n - r.first))

/-- The 32 lanes of a register as they stand. -/
def Group.reg (gr : Group) (w n : Nat) : Lanes Word :=
  match gr.sharedAt w n with
  | some (r, i) => r.regs.getD i (Lanes.all 0)
  | none =>
    match gr.warps[w]? with
    | some wp => regGet wp.regs n
    | none => Lanes.all 0

/-- Bits of some lanes replaced. -/
def laneMerge (old : Lanes Word) (lanes : Mask) (bits : Word) (vals : Lanes Word) : Lanes Word :=
  Lanes.of (fun l =>
    if lanes.has l then (old.get l &&& ~~~bits) ||| (vals.get l &&& bits) else old.get l)

/-- The shared registers of a range with one register and its full bit changed. -/
def SharedRange.put (r : SharedRange) (i : Nat) (f : Lanes Word → Lanes Word) (full : Bool) : SharedRange :=
  { r with regs := r.regs.modify i f, full := r.full.set i full }

/-- A write to a register: private names are allocated on the first write; a shared register becomes full (R72, R74).
The name counts as written since the last safe point (R81). -/
def Group.write (gr : Group) (w : Nat) (x : RegWrite) : Group :=
  if x.lanes = 0 then gr
  else
    let gr := gr.modWarp w (fun wp => if x.name < 256 then { wp with sinceV := wp.sinceV ||| BitVec.twoPow 256 x.name } else wp)
    match gr.sharedAt w x.name with
    | some (r, i) =>
      { gr with shared := gr.shared.map (fun q =>
          if q == r then q.put i (fun old => laneMerge old x.lanes x.bits x.vals) true else q) }
    | none =>
      gr.modWarp w (fun wp =>
        { wp with regs := regSet wp.regs x.name (laneMerge (regGet wp.regs x.name) x.lanes x.bits x.vals) })

/-- A predicate bit of some lanes set; writes to p0 are discarded (R39, R81). -/
def Warp.setPred (w : Warp) (i : Nat) (lanes vals : Mask) : Warp :=
  if i = 0 || lanes = 0 then w
  else
    { w with
      sinceP := w.sinceP ||| BitVec.twoPow 16 i
      threads := Lanes.of (fun l =>
        let t := w.threads.get l
        if lanes.has l then
          { t with preds := if vals.has l then t.preds ||| BitVec.twoPow 16 i else t.preds &&& ~~~(BitVec.twoPow 16 i) }
        else t) }

/-! ### Physical registers and their budget (R13, R72, R73) -/

/-- Physical registers that a group holds. -/
def Group.regCount (gr : Group) : Nat :=
  (gr.warps.map (fun w => w.regs.length)).sum + (gr.shared.map (fun r => r.regs.length)).sum

/-- Registers in use on a core. -/
def State.coreRegs (s : State) (core : Nat) : Nat :=
  ((s.groups.filter (fun gr => gr.resident && gr.core == core)).map Group.regCount).sum

/-- U_REGS of an RCB: the registers of the resident groups of its subtree. -/
def State.useRegs (s : State) (ctx va : Nat) : Nat :=
  ((s.groups.filter (fun gr => gr.ctx == ctx && gr.resident && s.inSubtree ctx gr.home va)).map Group.regCount).sum

/-- A group that holds its place on a core or in its partition's queue with its allocation in place (R79). -/
def Group.inPlace (gr : Group) : Bool := gr.standing == .resident || gr.standing == .swapped

/-- Physical queues that the group holds: those of its programs, and those that an APRUN in progress has mapped (R319, R329). -/
def GroupExtra.queueCount (x : GroupExtra) : Nat := x.queues.length + (x.asks.elim 0 (fun a => a.got.length))

/-- Groups of an RCB's subtree (R13). -/
def State.groupsOf (s : State) (ctx va : Nat) : List Group :=
  s.groups.filter (fun gr => gr.ctx == ctx && s.inSubtree ctx gr.home va)

/-- The largest component 0 of a nest's distance vectors (R255). -/
def NestDesc.depth (d : NestDesc) : Nat := d.dist.foldl (fun m v => max m (v.headD 0).toNat) 0

/-- Landing rows that a nest is charged (R265). -/
def Nest.landings (n : Nest) : Nat := if n.desc.kind = 2 then 0 else max (n.desc.depth + 1) n.rows.length

/-- Distinct cores among resident groups. -/
def coresOf (gs : List Group) : List Nat := ((gs.filter Group.resident).map (fun gr => gr.core)).eraseDups

/-- The engines hold the context's work: in PREEMPTED none does (R7). -/
def State.holdsWork (s : State) (ctx : Nat) : Bool := ((s.ctx? ctx).map (fun c => c.state != .preempted)).getD true

/-- The group's commands may be in an engine: it is in its place, or it has ended in a context whose work engines hold (R7, R352). -/
def State.occupies (s : State) (gr : Group) : Bool := gr.inPlace || (gr.standing == .ended && s.holdsWork gr.ctx)

/-- The current use of an RCB's subtree (R10, R13). -/
def State.useOf (s : State) (ctx va : Nat) (f : RcbField) : Nat :=
  let gs := s.groupsOf ctx va
  let here := gs.filter Group.inPlace
  match f with
  | .uCores => (coresOf gs).length
  | .uAcct => (s.tiles.filter (fun t => gs.any (fun gr => gr.id == t.group && s.occupies gr))).length
  | .uSpad => (here.map (fun gr => gr.image.spad)).sum
  | .uRegs => s.useRegs ctx va
  | .uLand =>
    ((s.nests.filter (fun n => n.ctx == ctx && s.inSubtree ctx n.rcb va)).map Nest.landings).sum +
      (s.insts.filter (fun x => x.ctx == ctx && s.pipes.any (fun p =>
        p.ctx == ctx && p.handle == x.owner && s.inSubtree ctx p.rcb va))).length
  | .uQueues => (here.map (fun gr => gr.x.queueCount)).sum
  | _ => 0

/-- Bytes 48 to 63 of a live RCB: what is in use now (R10). -/
def State.useBytes (s : State) (r : Rcb) : List Byte :=
  let u := s.useOf r.ctx r.va
  leBytes 2 (u .uCores) ++ leBytes 2 (u .uAcct) ++ leBytes 4 (u .uSpad) ++ leBytes 4 (u .uRegs) ++ leBytes 2 (u .uLand) ++
    leBytes 1 (u .uQueues) ++ [0]

/-- An RCB that stops being live keeps what is in use then (R10, R22). -/
def State.keepUse (s : State) (r : Rcb) : State := s.pokeBytes (r.pa + 48) (s.useBytes r)

/-- The RCBs with ceilings of their own among an RCB and its ancestors (R13). -/
def State.capped (s : State) (ctx va : Nat) : List Rcb :=
  (s.ancestors ctx va).filter (fun r => s.rflag r 18 || s.rget r .depth == 0)

/-- `n` more of a resource may be charged to an RCB and its ancestors (R13). -/
def State.fits (s : State) (ctx va : Nat) (u b : RcbField) (n : Nat) : Bool :=
  (s.capped ctx va).all (fun r => decide (s.useOf ctx r.va u + n ≤ s.rget r b))

/-- `n` more registers may be charged to a group. -/
def State.regsFit (s : State) (gr : Group) (n : Nat) : Bool :=
  n == 0 ||
  (decide (s.coreRegs gr.core + n ≤ Config.physicalRegisters) &&
    (s.capped gr.ctx gr.home).all (fun r => decide (s.useRegs gr.ctx r.va + n ≤ s.rget r .bRegs)))

/-! ### Arbitration order (R286) -/

/-- A request that waits for a resource: its priority, the cycle from which it waits, its core, and its warp's place in the age order of
R71. -/
structure Ask where
  prio : Nat
  since : Nat
  core : Nat
  age : Nat
  slot : Nat
  warp : Nat
  deriving DecidableEq, Repr

/-- Complete intervals of 1,024 cycles that a request has waited, at most 255. -/
def askAge (now since : Nat) : Nat := min 255 ((now - since) / 1024)

/-- One request comes before another (R286). -/
def Ask.before (now : Nat) (a b : Ask) : Bool :=
  if a.prio ≠ b.prio then decide (b.prio < a.prio)
  else if askAge now a.since ≠ askAge now b.since then decide (askAge now b.since < askAge now a.since)
  else if a.since ≠ b.since then decide (a.since < b.since)
  else if a.core ≠ b.core then decide (a.core < b.core)
  else if a.age ≠ b.age then decide (a.age < b.age)
  else if a.slot ≠ b.slot then decide (a.slot < b.slot)
  else decide (a.warp < b.warp)

/-- A group's place in the age order of its core (R71): the cycle its residency began in and its slot; on a determined core its virtual
slot alone (R293). -/
def State.agePlace (s : State) (gr : Group) : Nat × Nat :=
  if s.coreDetermined gr.core then (0, gr.vslot.getD gr.slot) else (gr.since, gr.slot)

/-- The request of a warp of a group. -/
def State.warpAsk (s : State) (gr : Group) (w since : Nat) : Ask :=
  let p := s.agePlace gr
  ⟨s.effPrio gr.ctx gr.home, since, gr.core, p.1, p.2, w⟩

/-- A request of a group's Hall counts as its lowest live warp's. -/
def State.hallAsk (s : State) (gr : Group) (since : Nat) : Ask := s.warpAsk gr (gr.liveWarps.headD 0) since

/-! ### The halt line (R18 to R20) -/

/-- UNIT of a stop record (R20): die, cluster in the die and core in the cluster. -/
def unitOf (core : Nat) : Nat :=
  dieOf core * 4096 + clusterOf core % Config.clustersPerDie * 128 + core % Config.coresPerCluster * 32

/-- The engines of a context in the order of their slots (R19). -/
def Ctx.engines (c : Ctx) : List Engine :=
  c.partition.flatMap (fun k =>
    (List.range Config.coresPerCluster).map (fun i => Engine.core (k * Config.coresPerCluster + i)) ++
    (List.range Config.coresPerCluster).map (fun i => Engine.accessProc (k * Config.coresPerCluster + i)) ++ [.matrix k]) ++
  c.dies.flatMap (fun d => [Engine.stair d, .fabric d, .hinge d])

/-- The slot of an engine's stop record (R19). -/
def Ctx.stopSlot (c : Ctx) (e : Engine) : Nat := 1 + (c.engines.takeWhile (fun x => x != e)).length

/-- A record that names no fault (R20). -/
def FaultInfo.blank : FaultInfo := ⟨0, 0xFF, 0, 0, 0xFF, 0xFF, 0, 0, 0, 0, 0⟩

/-- A fault comes before the one that a halt line raised in the same cycle names: its engine has the lower slot (R20). -/
def Halt.after (h : Halt) (c : Ctx) (e : Engine) (now : Nat) : Bool :=
  h.raised == now && (match h.own.find? (fun x => x.2 == h.first) with
    | some x => decide (c.stopSlot e < c.stopSlot x.1)
    | none => false)

/-- The halt line is raised: the first fault is kept, a later one is its engine's own; a pre-emption in progress is
abandoned (R18, R20, R21). -/
def State.raiseHalt (s : State) (ctx : Nat) (e : Engine) (info : FaultInfo) (offender : Bool) : State :=
  s.modCtx ctx (fun c =>
    match c.halt with
    | some h =>
      let h := if h.after c e s.cycles.toNat then { h with first := info, offender := offender } else h
      { c with halt := some { h with own := h.own ++ [(e, info)] } }
    | none =>
      if c.state == .running then
        { c with
          halt := some ⟨info, [(e, info)], offender, s.cycles.toNat, []⟩
          preempting := none }
      else c)


/-- The halt line of the context is up, or the context is not running. -/
def State.stoppedCtx (s : State) (ctx : Nat) : Bool :=
  match s.ctx? ctx with
  | some c => c.state != .running || c.halt.isSome
  | none => true

/-- An engine works for a context: it runs, and neither its halt line nor a pre-emption has stopped the engine (R18,
R23). -/
def State.engineRuns (s : State) (ctx : Nat) (e : Engine) : Bool :=
  match s.ctx? ctx with
  | none => false
  | some c =>
    c.state == .running &&
    (match c.halt with
    | some h => !h.stopped.contains e
    | none => true) &&
    (match c.preempting with
    | some p => p.region.isSome || !p.acks.contains e
    | none => true)

/-- LEAF and SERIAL of a stop record: the leaf of the group's point or item (R20). -/
def State.heldLeaf (s : State) (gr : Group) : Nat × Nat :=
  match gr.x.held with
  | some (.point h n) =>
    (match s.nests.find? (fun x => x.ctx == gr.ctx && x.handle == h) with
    | some x => (x.rcb, n)
    | none => (0, n))
  | some (.item h n _) =>
    (match (s.insts.filter (fun x => x.ctx == gr.ctx && x.handle == h)).flatMap (fun x => x.given.filter (fun g => g.serial == n && g.group == gr.id)) with
    | g :: _ => (g.rcb, n)
    | [] => (0, n))
  | none => (0, 0)

/-- A command of a group: its PC and the leaf of the group's point. -/
def State.commandInfo (s : State) (f : FaultInfo) (g : Nat) (pc : Word) : FaultInfo :=
  match s.group? g with
  | some gr => { f with pc := pc.toNat, leaf := (s.heldLeaf gr).1, serial := (s.heldLeaf gr).2 }
  | none => { f with pc := pc.toNat }

/-- What a core's stop record says of a warp's fault (R20). `warpNumber` counts the warps of the core's group slots. -/
def State.coreWarp (s : State) (gr : Group) (w : Nat) : Nat :=
  ((s.groups.filter (fun x => x.resident && x.core == gr.core && decide (x.slot < gr.slot))).map
    (fun x => x.warps.length)).sum + w

def State.warpInfo (s : State) (gr : Group) (w : Nat) (t : Trap) (lanes : Mask) (pc : Word) (code : Nat) : FaultInfo :=
  { origin := 0, odie := 0, cause := code, unit := unitOf gr.core, warp := s.coreWarp gr w, group := gr.slot
    lanes := lanes, pc := pc.toNat, cinfo := t.addr.toNat, leaf := (s.heldLeaf gr).1, serial := (s.heldLeaf gr).2 }

/-! ### Causes (R225, R226) -/

/-- The code of a cause (R225). -/
def Cause.code : Cause → Nat
  | .uncorrectableEcc => 0x3F
  | .illegalInstr => 0x01
  | .privilege => 0x03
  | .illegalConvergence => 0x04
  | .illegalOperand => 0x02
  | .misaligned => 0x05
  | .accessViolation => 0x09
  | .stackGrow => 0x0B
  | .pageFault => 0x08
  | .keyExhausted => 0x3E
  | .rangeLocked => 0x0A
  | .traceMismatch => 0x12
  | .detConflict => 0x13
  | .detIllegalOp => 0x14
  | .engineFault => 0x20
  | .queueFault => 0x21
  | .nestIllegal => 0x22
  | .safepointDistance => 0x10
  | .watchdog => 0x11
  | .breakpoint => 0x18
  | .softwareTrap => 0x19

/-- Place in the order of R225, the highest priority first. -/
def Cause.rank : Cause → Nat
  | .uncorrectableEcc => 0
  | .illegalInstr => 1
  | .privilege => 2
  | .illegalConvergence => 3
  | .illegalOperand => 4
  | .misaligned => 5
  | .accessViolation => 6
  | .stackGrow => 7
  | .pageFault => 8
  | .keyExhausted => 9
  | .rangeLocked => 10
  | .traceMismatch => 11
  | .detConflict => 12
  | .detIllegalOp => 13
  | .engineFault => 14
  | .queueFault => 15
  | .nestIllegal => 16
  | .safepointDistance => 17
  | .watchdog => 18
  | .breakpoint => 19
  | .softwareTrap => 20

/-- The cause of higher priority of two (R226). -/
def Trap.worse (a b : Trap) : Trap := if b.cause.rank < a.cause.rank then b else a

/-- A trap of lanes with nothing to name. -/
def Trap.plain (c : Cause) (lanes : Mask) : Trap := ⟨c, lanes, 0, 0⟩

/-- The trap of a vector instruction whose lanes raise the listed causes, each with its address and kind: the highest
priority, the lanes that raised it and the lowest one's address (R30, R226, R227). -/
def laneTrap (fs : List (Nat × Cause × DWord × Nat)) : Option Trap :=
  match fs with
  | [] => none
  | f :: rest =>
    let best := rest.foldl (fun c x => if x.2.1.rank < c.rank then x.2.1 else c) f.2.1
    let mine := fs.filter (fun x => x.2.1 == best)
    (mine.head?).map (fun x =>
      ⟨best, mine.foldl (fun m y => m ||| BitVec.twoPow 32 y.1) 0, x.2.2.1, BitVec.ofNat 8 x.2.2.2⟩)

/-! ### Taking an exception (R224, R228, R229) -/

/-- TRAPVEC of a context (R10). -/
def State.trapVec (s : State) (ctx : Nat) : Nat :=
  match s.ctx? ctx with
  | some c =>
    (match s.rcb? ctx c.root with
    | some r => s.rget r .trapVec
    | none => 0)
  | none => 0

/-- Why a trap does not reach a handler: the cause the stop record holds, and whether the context is an offender
(R224, R229). -/
def trapFatal (t : Trap) (double : Bool) (vec : Nat) : Option (Nat × Bool) :=
  if t.cause = .accessViolation then some (t.cause.code, true)
  else if t.cause = .uncorrectableEcc || double || vec = 0 then some (t.cause.code, false)
  else none

/-- The warp enters its handler: the cause registers and %epc, %emask are written, the path's threads keep PC and MEET
aside and go to TRAPVEC at handler privilege (R227, R228). -/
def Warp.enterHandler (w : Warp) (i : Issue) (t : Trap) (vec : Word) (hallFault : Bool) : Warp :=
  { (w.modThreads i.lanes (fun th =>
      { th with handler := true, keptPc := i.pc, keptMeet := th.meet, pc := vec, held := false })) with
    cause := BitVec.ofNat 8 t.cause.code
    cinfoAddr := t.addr
    cinfoMask := t.mask
    cinfoKind := t.kind
    epc := i.pc
    emask := i.lanes
    handler := some ⟨hallFault, w.region.isSome && !hallFault, i.queued, t.cause, i.sc⟩
    waits := w.waits.filter (fun x => x.lanes &&& i.lanes == 0) }

/-- A warp takes a trap: its handler runs, or the halt line is raised (R224, R228, R229). -/
def State.takeTrap (s : State) (i : Issue) (t : Trap) (hallFault : Bool) : State :=
  match s.group? i.g with
  | none => s
  | some gr =>
    match gr.warps[i.w]? with
    | none => s
    | some w =>
      let double := w.handler.isSome || (w.liveLanes (fun th => th.stub)) &&& i.lanes != 0
      let vec := s.trapVec gr.ctx
      match trapFatal t double vec with
      | some (code, offender) =>
        (s.modWarp i.g i.w (fun w => { w with skid := w.skid + 64 })).raiseHalt gr.ctx (.core gr.core) (s.warpInfo gr i.w t (if hallFault then i.lanes else t.mask) i.pc code) offender
      | none => s.modWarp i.g i.w (fun w => w.enterHandler i t (BitVec.ofNat 32 vec) hallFault)

/-- A fault of the Hall, which waits for the warp that R46 names. No lane of the warp raised it, unless the cause names
all 32 (R374). -/
def State.hallTrap (s : State) (g : Nat) (t : Trap) : State :=
  let t := { t with mask := if t.mask = BitVec.allOnes 32 then t.mask else 0 }
  s.modGroup g (fun gr =>
    { gr with
      hall := { gr.hall with fault := some ⟨t, gr.hall.pc, gr.position, false⟩, wait := none }
      x := { gr.x with landAsk := none, fabDesc := none } })

/-! ### Returning from an exception (R230) -/

/-- What every TRET does to the warp: k registers are freed, and the threads of %emask go back to user privilege with
their PC and MEET. -/
def Warp.leaveHandler (w : Warp) : Warp :=
  { (w.modThreads w.emask (fun th => { th with handler := false, pc := th.keptPc, meet := th.keptMeet, held := false })) with
    regs := w.regs.filter (fun r => decide (r.1 < 256))
    handler := none
    waits := w.waits.filter (fun x => x.lanes &&& w.emask == 0) }

/-- TRET.RETRY and TRET.SKIP for the warp: where its threads or its read pointer go on (R230). -/
def Warp.resumeAt (w : Warp) (skip : Bool) : Warp :=
  match w.handler with
  | none => w
  | some h =>
    let w' := w.leaveHandler
    let d : Word := if skip then 1 else 0
    let w' := if h.inRegion then w'.modThreads w.emask (fun th =>
        { th with pc := w.epc + d, held := w.epc + d == th.meet }) else w'
    let w' := if skip then { w' with gated := none } else w'.modThreads w.emask (fun th => { th with dist := 0 })
    if skip && h.atEntry then { w' with rp := w'.rp + 1 } else w'

/-- TRET.RETRY and TRET.SKIP: the warp resumes, and where R46 delivered a Hall fault the Hall goes on (R230, R81). -/
def State.trapReturn (s : State) (g w : Nat) (skip : Bool) : State :=
  match s.warp? g w with
  | none => s
  | some wp =>
    match wp.handler with
    | none => s
    | some h =>
      let s := s.modWarp g w (fun x => x.resumeAt skip)
      if h.hallFault then
        s.modHall g (fun x =>
          { x with
            fault := none
            pc := if skip then x.pc + 1 else x.pc
            dist := if h.cause == .safepointDistance && !skip then 0 else x.dist })
      else s

end Sys2Proof.Machine
end

