-- ==== Sys2Proof/Machine/Access.lean ====
section
/-! DEFINITION. Reaching memory: populated frames (R409), the walk and the cached translations (R27 to R29), the checks
of a thread access in their order (R97, R100), what a load returns (R91, R118, R119) and what a store does on its way
(R118, R119). -/

namespace Sys2Proof.Machine

open Sys2Proof

/-! ### The physical address map (R409) -/

def paLayer (pa : Nat) : Nat := pa / 2 ^ 37 % 16
def paStack (pa : Nat) : Nat := pa / 2 ^ 32 % 32
def paRegion (pa : Nat) : Nat := pa / 2 ^ 21 % 2048
def paPort (pa : Nat) : Nat := pa / 2 ^ 40 % 8

def isHbm (pa : Nat) : Bool := pa / 2 ^ 41 == 0
def isCapacity (pa : Nat) : Bool := pa / 2 ^ 43 == 32
def isHost (pa : Nat) : Bool := pa / 2 ^ 48 == 2

/-- The bytes behind the first `p` capacity-tier ports: at most 1 TiB for each and 6 TB in all (R1, R435). -/
def expandersBelow : Nat → Nat
  | 0 => 0
  | p + 1 => min 6000000000000 (expandersBelow p + min (2 ^ 40) (Config.expander p))

/-- The bytes of the expander at a port. -/
def expanderSize (p : Nat) : Nat := expandersBelow (p + 1) - expandersBelow p

/-- The address lies in a populated part that contexts may be given (R409, R415, R435). -/
def State.populated (s : State) (pa : Nat) : Bool :=
  (isHbm pa && decide (paLayer pa < 12) && decide (paStack pa < 24) && decide (paRegion pa < 1908) &&
    !s.hbm.retired.contains (paLayer pa)) ||
  (isCapacity pa && !s.cellar.absent.contains (paPort pa) && decide (pa % 2 ^ 40 < expanderSize (paPort pa))) || isHost pa

/-- The address lies in a frame that the context may reach (R28): one the Cellar gave it, or host memory. -/
def State.given (s : State) (c : Ctx) (pa : Nat) : Bool :=
  s.populated pa && (isHost pa || c.frames.any (fun f => decide (f.1 ≤ pa) && decide (pa < f.1 + f.2)))

/-- The host port as a home. -/
def hostHome : Nat := 32

/-- The home at which an access is performed (R89, R119): the L2 slices of stacks 0 to 23, capacity ports from 24, the host port,
and from 64 the controllers of the stacks, which perform device-direct accesses. -/
def homeOf (cls pa : Nat) : Nat :=
  if isHost pa || cls = 2 then hostHome
  else if isCapacity pa then
    (if cls = 0 then (if paPort pa < 4 then 2 * paPort pa else 2 * (paPort pa + 4)) else 24 + paPort pa)
  else if cls = 0 then paStack pa
  else 64 + paStack pa

/-- The die that serves an address: the one that holds its stack or its port (R89, R366). -/
def ownerDie (cls pa : Nat) : Nat :=
  if isHost pa || cls = 2 then 4
  else if isCapacity pa then (if paPort pa < 4 then paPort pa else paPort pa + 4)
  else paStack pa / 2

/-! ### Translation (R27 to R29) -/

/-- The address is canonical: bits 63:56 equal bit 55 (R27). -/
def canonical (va : Nat) : Bool :=
  let hi := va / 2 ^ 55 % 2 ^ 9
  hi == 0 || hi == 511

/-- The levels of the table walk: index shift, index bits, leaf page size, next table's size (R27). -/
def levels : List (Nat × Nat × Nat × Nat) :=
  [(43, 13, 0, 2 ^ 16), (30, 13, 2 ^ 30, 2 ^ 12), (21, 9, 2 ^ 21, 2 ^ 8), (16, 5, 2 ^ 16, 0)]

/-- The walk from a table: the page, or the kind of the failure (R28): 1 not present, 3 format. -/
def State.walkFrom (s : State) (va : Nat) : List (Nat × Nat × Nat × Nat) → Nat → Except Nat TlbEntry
  | [], _ => .error 3
  | (shift, bits, page, below) :: rest, table =>
    let e := s.peekN (table + 8 * (va / 2 ^ shift % 2 ^ bits)) 8
    let addr := e / 256 % 2 ^ 44 * 256
    if e % 2 = 0 then .error 1
    else if e / 2 ^ 52 ≠ 0 ∨ e / 64 % 4 ≠ 0 ∨ e / 4 % 4 = 3 then .error 3
    else if e / 2 % 2 = 1 then
      (if page = 0 ∨ addr % page ≠ 0 then .error 3
       else .ok ⟨va / page * page, page, addr, e.testBit 4, e.testBit 5, e / 4 % 4⟩)
    else if below = 0 ∨ addr % below ≠ 0 then .error 3
    else s.walkFrom va rest addr

/-- The walk of a context's tables (R27, R28): 4 non-canonical. -/
def State.walk (s : State) (c : Ctx) (va : Nat) : Except Nat TlbEntry :=
  if canonical va then s.walkFrom (va % 2 ^ 56) levels c.xroot else .error 4

/-- The page for an address: where a cached translation differs from the tables, either one (R29). A page that the
tables give is cached. -/
def State.lookup (s : State) (c : Ctx) (va : Nat) : State × Except Nat TlbEntry :=
  let v := va % 2 ^ 56
  let fresh := s.walk c va
  match c.tlb.find? (fun e => canonical va && decide (e.va ≤ v) && decide (v < e.va + e.size)) with
  | none =>
    (match fresh with
    | .ok e => (s.modCtx c.num (fun c => { c with tlb := e :: c.tlb }), .ok e)
    | .error k => (s, .error k))
  | some old =>
    (match fresh with
    | .ok e =>
      if e = old then (s, .ok old)
      else
        let (n, s) := s.draw 1
        (s, .ok (if n = 0 then old else e))
    | .error k =>
      let (n, s) := s.draw 1
      (s, if n = 0 then .ok old else .error k))

/-- What an access does. -/
inductive Access where
  | load | store | atomic | fetch
  deriving DecidableEq, Repr

def Access.writes : Access → Bool
  | .store | .atomic => true
  | .load | .fetch => false

/-- A translated place: the lane, the virtual and physical address and the class. -/
structure Place where
  lane : Nat
  va : Nat
  pa : Nat
  cls : Nat
  deriving DecidableEq, Repr

/-- Translation and aperture rules for one address: the physical address and the class, or the cause and its kind
(R28, R90, R419). -/
def State.translate (s : State) (c : Ctx) (va : Nat) (acc : Access) : State × Except (Cause × Nat) (Nat × Nat) :=
  match s.lookup c va with
  | (s, .error k) => (s, .error (.pageFault, k))
  | (s, .ok e) =>
    let pa := e.pa + (va % 2 ^ 56 - e.va)
    if !s.given c pa then (s, .error (.accessViolation, 0))
    else if acc.writes && !e.w then (s, .error (.pageFault, 2))
    else if acc = .fetch && (!e.x || e.cls != 0) then (s, .error (.pageFault, 2))
    else if acc.writes && s.hbm.exhausted.contains (pa / 4096) then (s, .error (.keyExhausted, 2))
    else if acc = .atomic && e.cls = 2 then (s, .error (.pageFault, 2))
    else (s, .ok (pa, e.cls))

/-! ### The latch table (R96, R97) -/

def Latch.overlaps (l : Latch) (lo len : Nat) : Bool := decide (l.lo < lo + len) && decide (lo < l.lo + l.len)

/-- A range a thread access of group `g` may not touch: a registered destination, or a source for a store; a group's
own LATCH does not count (R97). -/
def State.locked (s : State) (ctx : Nat) (spad : Option Nat) (g lo len : Nat) (store : Bool) : Bool :=
  s.latches.any (fun l =>
    l.ctx == ctx && l.spad == spad && l.overlaps lo len && (l.dst || store) &&
    (match l.holder with
    | .manual h _ => h != g
    | _ => true))

/-! ### The checks of a thread access (R30, R100) -/

/-- The stack window of a lane holds the address (R234, R244). -/
def inWindow (gr : Group) (w lane va : Nat) : Bool :=
  let tid := gr.copy * 1024 + w * 32 + lane
  let base := (gr.image.stackBase.toNat + tid * 2 ^ gr.image.stackLog) % 2 ^ 64
  decide (base ≤ va) && decide (va < base + 2 ^ gr.image.stackLog)

/-- One lane's checks in order: alignment, translation, aperture, latch; a read of a line that cannot be corrected
(R100, R421). -/
def State.checkLane (s : State) (gr : Group) (w : Option Nat) (c : Ctx) (n : Nat) (acc : Access) (lane va : Nat) :
    State × Except (Cause × Nat) Place :=
  if va % n ≠ 0 then (s, .error (.misaligned, 0))
  else
    match s.translate c va acc with
    | (s, .error (cause, k)) =>
      (match w with
      | some w =>
        if cause = .pageFault && k = 1 && inWindow gr w lane va then (s, .error (.stackGrow, 1)) else (s, .error (cause, k))
      | none => (s, .error (cause, k)))
    | (s, .ok (pa, cls)) =>
      if acc != .store && s.hbm.poisoned.any (fun x => x.1 == pa / 128) then (s, .error (.uncorrectableEcc, 0))
      else if s.locked gr.ctx none gr.id va n acc.writes then (s, .error (.rangeLocked, 0))
      else (s, .ok ⟨lane, va, pa, cls⟩)

/-- The checks of all lanes: every lane's place, or the trap the instruction takes (R30). -/
def State.checkLanes (s : State) (gr : Group) (w : Option Nat) (n : Nat) (acc : Access) (lanes : List (Nat × Nat)) :
    State × Except Trap (List Place) :=
  match s.ctx? gr.ctx with
  | none => (s, .ok [])
  | some c =>
    let (s, ps, fs) := lanes.foldl
      (fun (st : State × List Place × List (Nat × Cause × DWord × Nat)) x =>
        match st.1.checkLane gr w c n acc x.1 x.2 with
        | (s, .ok p) => (s, st.2.1 ++ [p], st.2.2)
        | (s, .error (cause, k)) => (s, st.2.1, st.2.2 ++ [(x.1, cause, BitVec.ofNat 64 x.2, k)]))
      (s, [], [])
    match laneTrap fs with
    | some t => (s, .error t)
    | none => (s, .ok ps)

/-! ### What a load returns (R91, R118, R119) -/

/-- The global bytes of a store in a queue; a RED's are not known before it is performed (R108). -/
def Store.cells : Store → List (Nat × Option Byte)
  | .global cs _ => cs.map (fun c => (c.2.1, some c.2.2))
  | .red _ n _ pa _ _ => (List.range n).map (fun i => (pa + i, none))
  | .spad .. | .refs _ | .push .. | .cinv _ => []

/-- The byte of an address among cells of which later ones stand in place of earlier ones. -/
def lastByte (cs : List Host.Cell) (a : Nat) : Option Byte := (cs.reverse.find? (fun c => c.1 == a)).map (·.2)

def allSome : List (Option Byte) → Option (List Byte)
  | [] => some []
  | none :: _ => none
  | some b :: l => (allSome l).map (b :: ·)

/-- What the youngest store of a queue (oldest first) that overlaps `n` bytes supplies: nothing, all of them, or only a
part, for which the load waits (R118). -/
def forward (cells : List (List (Nat × Option Byte))) (pa n : Nat) : Option (Option (List Byte)) :=
  match cells.reverse.find? (fun cs => cs.any (fun c => decide (pa ≤ c.1) && decide (c.1 < pa + n))) with
  | none => none
  | some cs => some (allSome ((List.range n).map (fun i => (cs.reverse.find? (fun c => c.1 == pa + i)).bind (·.2))))

/-- A scope no wider than the core (R119, R121). -/
def scopeInCore : Scope → Bool
  | .warp | .group | .core => true
  | .cluster | .die | .device | .system => false

/-- The scope of an agent on core `mine` holds the agents of core `other` (R121). -/
def inScope (sc : Scope) (mine other : Nat) : Bool :=
  match sc with
  | .warp | .group | .core => mine == other
  | .cluster => clusterOf mine == clusterOf other
  | .die => dieOf mine == dieOf other
  | .device | .system => true

/-- A release or fence of a scope orders accesses at a home: those of host pages at system scope alone (R128). -/
def scopeOrders (sc : Scope) (home : Nat) : Bool := sc == .system || home != hostHome

/-- A store with release or sc at a scope wider than the core: other agents of the core see it only once it is performed (R119). -/
def Committed.hides (e : Committed) : Bool :=
  match e.rel with
  | some sc => !scopeInCore sc
  | none => false

/-- What an agent sees of its core's commit buffer, oldest first: its own stores, and those of others in commit order, up to the
first that they hide from it (R118, R119). -/
def seenCommits (a : Agent) : List Committed → List Committed
  | [] => []
  | e :: es =>
    if e.agent = a then e :: seenCommits a es
    else if e.hides then es.filter (fun x => x.agent == a)
    else e :: seenCommits a es

/-- The commit buffer of a core. -/
def State.buffer (s : State) (core : Nat) : List Committed := s.commits.filter (fun e => e.core == core)

def Committed.touches (e : Committed) (pa n : Nat) : Bool := e.cells.any (fun c => decide (pa ≤ c.1) && decide (c.1 < pa + n))

/-- An agent of a core must not see this store yet, though it is performed: those in the scope of a release wait for what the release
follows, and those of its core for the release that a store follows (R118, R122). -/
def Committed.veils (e : Committed) (core : Nat) (a : Agent) : Bool :=
  e.early && e.agent != a &&
  (match e.rel with
  | some sc => inScope sc e.core core
  | none => e.core == core)

/-- A load of an agent has to wait for such a store. -/
def State.veiled (s : State) (core : Nat) (a : Agent) (pa n : Nat) : Bool :=
  s.commits.any (fun e => e.veils core a && e.touches pa n)

/-- The committed stores of some agents of a core are visible to every agent of the core (R118, R119). -/
def State.coreSees (s : State) (core : Nat) (p : Agent → Bool) : Bool :=
  ((s.buffer core).dropWhile (fun e => !e.hides)).all (fun e => !p e.agent)

/-- Bytes of memory with the use fields of a live RCB as they stand (R10). -/
def State.liveBytes (s : State) (pa n : Nat) : List Byte :=
  if pa % 256 + n ≤ 48 || 64 ≤ pa % 256 then s.peekBytes pa n
  else
    match s.rcbs.find? (fun r => r.pa == pa / 256 * 256) with
    | none => s.peekBytes pa n
    | some r => (List.range n).map (fun i =>
        let o := (pa + i) % 256
        if 48 ≤ o && o < 64 then (s.useBytes r).getD (o - 48) 0 else s.peek (pa + i))

def State.liveByte (s : State) (pa : Nat) : Byte := (s.liveBytes pa 1).headD 0

/-- Memory as a snapshot takes it (R303): the use fields of live RCBs as they stand (R10). -/
def State.snapshot (s : State) : Memory := s.rcbs.foldl (fun m r => cellsPut m (cellsAt (r.pa + 48) (s.useBytes r))) s.memory

/-- Memory as accesses of a class see it: where the unit has a stale copy for the class, either one (R91). -/
def State.readUnit (s : State) (cls pa n : Nat) : State × List Byte :=
  let base := pa / 16 * 16
  match s.stale.find? (fun u => u.pa == base && u.cls == min cls 1) with
  | none => (s, s.liveBytes pa n)
  | some u =>
    let (k, s) := s.draw 1
    (s, if k = 0 then (u.old.drop (pa - base)).take n else s.peekBytes pa n)

/-- The `n` bytes that a load of an agent of the core returns; none where it has to wait for a store of its own queue
to commit. A D2 point reads its snapshot and its own write set (R303). -/
def State.loadBytes (s : State) (gr : Group) (a : Agent) (queue : List Store) (p : Place) (n : Nat) :
    State × Option (List Byte) :=
  match gr.x.d2 with
  | some d =>
    (s, some ((List.range n).map (fun i =>
      match d.writes.find? (fun c => c.1 == p.pa + i) with
      | some c => c.2
      | none => cellGet d.snapshot (p.pa + i))))
  | none =>
    match forward (queue.map Store.cells) p.pa n with
    | some r => (s, r)
    | none =>
      if s.veiled gr.core a p.pa n then (s, none)
      else
        let cs := ((seenCommits a (s.buffer gr.core)).map (·.cells)).flatten
        let (s, bytes) := s.readUnit p.cls p.pa n
        (s, some ((List.range n).map (fun i => (lastByte cs (p.pa + i)).getD (bytes.getD i 0))))

/-- Loads for a list of places, in order. -/
def State.loadPlaces (s : State) (gr : Group) (a : Agent) (queue : List Store) (n : Nat) :
    List Place → State × Option (List (Nat × Nat))
  | [] => (s, some [])
  | p :: ps =>
    match s.loadBytes gr a queue p n with
    | (s, none) => (s, none)
    | (s, some bs) =>
      match s.loadPlaces gr a queue n ps with
      | (s, none) => (s, none)
      | (s, some r) => (s, some ((p.lane, leNat bs) :: r))

/-- The access processor of a core reads the committed stores of other agents at some places (R325). -/
def State.showCommits (s : State) (core : Nat) (a : Agent) (n : Nat) (ps : List Place) : State :=
  let open_ := seenCommits a (s.buffer core)
  { s with commits := s.commits.map (fun (e : Committed) =>
      if e.core == core && open_.contains e && ps.any (fun p => e.touches p.pa n) then { e with shown := true } else e) }

/-- A load of an agent; an access program's, which is no part of the core's total store order, sees of the other agents'
stores in the commit buffer all at its places or none, and those that it has seen before (R120, R325). -/
def State.agentLoad (s : State) (gr : Group) (a : Agent) (queue : List Store) (n : Nat) (ps : List Place) :
    State × Option (List (Nat × Nat)) :=
  match a with
  | .hall _ | .warp _ _ => s.loadPlaces gr a queue n ps
  | .ap _ _ =>
    if ps.any (fun p => s.veiled gr.core a p.pa n) then (s, none)
    else
      let hidden := (seenCommits a (s.buffer gr.core)).any (fun e => !e.shown && e.agent != a && ps.any (fun p => e.touches p.pa n))
      let (k, s) := if hidden then s.draw 1 else (1, s)
      let s := if k = 0 then s.showCommits gr.core a n ps else s
      let r := ({ s with commits := s.commits.filter (fun (e : Committed) => e.agent == a || e.shown) }).loadPlaces gr a queue n ps
      ({ r.1 with commits := s.commits }, r.2)

/-! ### Stores on their way (R118, R119) -/

/-- The store queue of an agent. -/
def State.queueOf (s : State) : Agent → List Store
  | .hall g =>
    match s.group? g with
    | some gr => gr.hall.stores
    | none => []
  | .warp g w =>
    match s.warp? g w with
    | some wp => wp.stores
    | none => []
  | .ap g p =>
    match s.group? g with
    | some gr => ((gr.x.programs.find? (fun q => q.id == p)).map (·.issued)).getD []
    | none => []

def State.setQueue (s : State) (a : Agent) (q : List Store) : State :=
  match a with
  | .hall g => s.modHall g (fun h => { h with stores := q })
  | .warp g w => s.modWarp g w (fun wp => { wp with stores := q })
  | .ap g p => s.modX g (fun x =>
      { x with programs := x.programs.map (fun q' => if q'.id == p then { q' with issued := q } else q') })

def State.pushStore (s : State) (a : Agent) (x : Store) : State := s.setQueue a (s.queueOf a ++ [x])

/-- The cells of stored data: lane after lane, each with its class (R102). -/
def placeCells (n : Nat) (ps : List (Place × Nat)) : List (Nat × Host.Cell) :=
  ps.flatMap (fun x => (cellsAt x.1.pa (leBytes n x.2)).map (fun c => (x.1.cls, c)))

/-- Cells put into a write set, newest first, each address once (R303). -/
def writeSet (ws : List Host.Cell) (cs : List Host.Cell) : List Host.Cell :=
  cs.foldl (fun m c => c :: m.filter (fun x => x.1 != c.1)) ws

/-- The global store of an agent enters its queue, or a D2 point's write set. -/
def State.storePlaces (s : State) (gr : Group) (a : Agent) (n : Nat) (ps : List (Place × Nat)) (rel : Option Scope) :
    State :=
  if ps.isEmpty then s
  else if gr.x.d2.isSome then
    s.modX gr.id (fun x => { x with d2 := x.d2.map (fun d => { d with writes := writeSet d.writes ((placeCells n ps).map (·.2)) }) })
  else s.pushStore a (.global (placeCells n ps) rel)

/-- The committed stores of a vector store: one entry for each home, in the order of the cells (R119). -/
def splitHomes (core ctx : Nat) (a : Agent) (rel : Option Scope) (cs : List (Nat × Host.Cell)) : List Committed :=
  cs.foldl
    (fun l c =>
      let h := homeOf c.1 c.2.1
      if l.any (fun e => e.home == h && e.cls == c.1) then
        l.map (fun e => if e.home == h && e.cls == c.1 then { e with cells := e.cells ++ [c.2] } else e)
      else l ++ [⟨core, ctx, a, c.1, h, [c.2], rel, false, false⟩])
    []

/-- A unit that a store of class `cls` changes may still be seen as it was by the other classes (R91). -/
def State.markStale (s : State) (cls pa : Nat) : State :=
  let base := pa / 16 * 16
  let other := if cls = 0 then 1 else 0
  if s.stale.any (fun u => u.pa == base && u.cls == other) then s
  else { s with stale := ⟨base, other, s.peekBytes base 16⟩ :: s.stale }

/-- The count at a place; one that is not listed is 0. -/
def countAt (cs : List Count) (p : Nat) : Nat :=
  match cs.find? (fun c => c.place == p) with
  | some c => c.n
  | none => 0

/-- The sum over all places: what the shutter tree makes of the dies' counts (R25). -/
def countSum (cs : List Count) : Nat := (cs.map (·.n)).sum

def countSet (cs : List Count) (p n : Nat) : List Count :=
  let rest := cs.filter (fun c => c.place != p)
  if n = 0 then rest else ⟨p, n⟩ :: rest

/-- One more write of a line to its stack: the minor counter rises, and past 255 the counter page is re-encrypted; a
major counter at its maximum exhausts the page, whose line then stays in the L2 (R417 to R419). -/
def State.lineWritten (s : State) (pa : Nat) : State :=
  if !isHbm pa then s
  else
    let line := pa / 128
    let page := pa / 4096
    let st := s.hbm
    if countAt st.minor line < 255 then
      { s with hbm := { st with minor := countSet st.minor line (countAt st.minor line + 1) } }
    else if 2 ^ 56 - 1 ≤ countAt st.major page then s
    else
      let m := countAt st.major page + 1
      let st := { st with
        minor := st.minor.filter (fun c => c.place / 32 != page)
        major := countSet st.major page m }
      if m < 2 ^ 56 - 1 then { s with hbm := st }
      else
        { s with
          hbm := { st with exhausted := page :: st.exhausted.filter (· != page) }
          ctxs := s.ctxs.map (fun c =>
            if c.frames.any (fun f => decide (f.1 ≤ pa) && decide (pa < f.1 + f.2)) then
              { c with tlb := c.tlb.filter (fun e => !(decide (e.pa ≤ pa) && decide (pa < e.pa + e.size))) }
            else c) }

/-- The lines of a list of cells, each once. -/
def cellLines (cs : List Host.Cell) : List Nat :=
  cs.foldl (fun l c => if l.contains (c.1 / 128) then l else l ++ [c.1 / 128]) []

/-- A committed store reaches its home (R119): its bytes become memory. A device-direct write reaches the stack. -/
def State.perform (s : State) (e : Committed) : State :=
  let s := e.cells.foldl (fun s c => (s.markStale e.cls c.1).poke c.1 c.2) s
  if e.cls = 1 then (cellLines e.cells).foldl (fun s l => s.lineWritten (l * 128)) s else s

/-- Bytes written by the device itself: the Stair, the Cellar, an RCB event or an engine. -/
def State.deviceWrite (s : State) (cls pa : Nat) (bs : List Byte) : State :=
  s.perform ⟨0, 0, .hall 0, cls, 0, cellsAt pa bs, none, false, false⟩

/-! ### Engine accesses (R31) -/

/-- Translation of `n` bytes for an engine, every 64 KiB unit of them: the pages' physical addresses, or the first
failing address with its cause and kind. -/
def State.engineUnits (s : State) (c : Ctx) (acc : Access) : Nat → Nat → Nat → State × Except (Nat × Cause × Nat) Unit
  | 0, _, _ => (s, .ok ())
  | fuel + 1, va, n =>
    if n = 0 then (s, .ok ())
    else
      match s.translate c va acc with
      | (s, .error (cause, k)) => (s, .error (va, cause, k))
      | (s, .ok _) =>
        let step := min n (65536 - va % 65536)
        s.engineUnits c acc fuel (va + step) (n - step)

/-- A store that was checked before is still to be performed in a run of virtual addresses, so that an engine must not read it yet
(R96, R122, R126). -/
def State.rangeBusy (s : State) (c : Ctx) (va n : Nat) : Bool :=
  let pages := (List.range (n / 65536 + 2)).map (fun k =>
    let lo := if k = 0 then va else (va / 65536 + k) * 65536
    let hi := min (va + n) ((va / 65536 + k + 1) * 65536)
    match (s.lookup c lo).2 with
    | .ok e => (e.pa + (lo % 2 ^ 56 - e.va), hi - lo)
    | .error _ => (0, 0))
  let hit := fun (a : Nat) => pages.any (fun p => decide (p.1 ≤ a) && decide (a < p.1 + p.2))
  let queued := fun (q : List Store) => q.any (fun x => x.cells.any (fun y => hit y.1))
  s.commits.any (fun e => e.cells.any (fun x => hit x.1)) ||
  s.groups.any (fun gr => queued gr.hall.stores || gr.warps.any (fun w => queued w.stores) ||
    gr.x.programs.any (fun p => queued p.issued))

/-- The first address of a run whose line cannot be corrected (R421). -/
def State.poisonedAt (s : State) (c : Ctx) (va n : Nat) : Option Nat :=
  (List.range (n / 128 + 2)).findSome? (fun i =>
    let a := if i = 0 then va else va / 128 * 128 + 128 * i
    if va + n ≤ a then none
    else
      match (s.lookup c a).2 with
      | .ok e => if s.hbm.poisoned.any (fun x => x.1 == (e.pa + (a % 2 ^ 56 - e.va)) / 128) then some a else none
      | .error _ => none)

/-- The translations of the 64 KiB units that a run of bytes touches, in order: within a unit all bytes have one page (R27). -/
def State.unitPages (s : State) (c : Ctx) (va n : Nat) : List (Except Nat TlbEntry) :=
  (List.range (n / 65536 + 2)).map (fun k => (s.lookup c (va + 65536 * k)).2)

/-- Reads bytes of a context for an engine or the Cellar. -/
def State.engineRead (s : State) (c : Ctx) (va n : Nat) : State × Except (Nat × Cause × Nat) (List Byte) :=
  match s.engineUnits c .load (n / 65536 + 2) va n, s.poisonedAt c va n with
  | (s, .error e), _ => (s, .error e)
  | (s, .ok ()), some a => (s, .error (a, .uncorrectableEcc, 0))
  | (s, .ok ()), none =>
    let pages := s.unitPages c va n
    let place := fun (a : Nat) => match pages[a / 65536 - va / 65536]? with
      | some (.ok e) => (e.cls, e.pa + (a % 2 ^ 56 - e.va))
      | _ => (0, 0)
    let r := (List.range (n / 16 + 2)).foldl (fun (r : State × List Byte) k =>
      let lo := if k = 0 then va else (va / 16 + k) * 16
      let hi := min (va + n) ((va / 16 + k + 1) * 16)
      if hi ≤ lo then r
      else
        let u := r.1.readUnit (place lo).1 (place lo).2 (hi - lo)
        (u.1, r.2 ++ u.2)) (s, [])
    (r.1, .ok r.2)

/-- Writes bytes of a context for an engine: all of them, or none and the first failing address. -/
def State.engineWrite (s : State) (c : Ctx) (va : Nat) (bs : List Byte) : State × Except (Nat × Cause × Nat) Unit :=
  match s.engineUnits c .store (bs.length / 65536 + 2) va bs.length with
  | (s, .error e) => (s, .error e)
  | (s, .ok ()) =>
    ((List.range bs.length).foldl
      (fun s i =>
        match (s.lookup c (va + i)).2 with
        | .ok e => s.deviceWrite e.cls (e.pa + ((va + i) % 2 ^ 56 - e.va)) [bs.getD i 0]
        | .error _ => s)
      s, .ok ())

/-- The class of an address's page, none where the walk fails. -/
def State.pageClass (s : State) (c : Ctx) (va : Nat) : Option Nat :=
  match s.walk c va with
  | .ok e => some e.cls
  | .error _ => none

/-- `n` bytes lie in pages of class cached alone. -/
def State.allCached (s : State) (c : Ctx) (va n : Nat) : Bool :=
  (List.range (n / 65536 + 2)).all (fun i =>
    let a := max va ((va / 65536 + i) * 65536)
    decide (va + n ≤ a) || s.pageClass c a == some 0)

end Sys2Proof.Machine
end

