-- ==== Sys2Proof/Machine/Checks.lean ====
section
/-! DEFINITION. The checks of R47 that a decoded instruction still has to pass: the guard (3), zero bits and PERM and
ESEL (4, 5), privilege (6), the form and the operand kinds (7), and index ranges and pair parity (8). They depend on
the instruction and the privilege alone. -/

namespace Sys2Proof

/-- The kind of an operand (R38, R39). -/
inductive Kind where
  | vec | sreg | imm | pred | cond | spr | queue | tile | bar | hreg
  deriving DecidableEq, Repr

def Operand.kind : Operand → Kind
  | .vec _ => .vec
  | .sreg _ => .sreg
  | .imm _ => .imm
  | .pred _ => .pred
  | .cond _ => .cond
  | .spr _ => .spr
  | .queue _ => .queue
  | .tile _ => .tile
  | .bar _ => .bar
  | .hreg _ => .hreg

/-- How an entry uses an operand. `base` is the base of a memory operand; `named` is an operand that is neither a
data source nor a data destination. -/
inductive Role where
  | dst | src | dstSrc | base | named
  deriving DecidableEq, Repr

/-- What an operand holds, which decides the ESEL codes (R42) and the register alignment (R41, R98). -/
inductive Shape where
  | w32     -- 32 bits, any part
  | f32     -- FP32: whole register
  | w64     -- a pair
  | quad    -- four registers
  | x2      -- packed 2 x 16
  | x4      -- packed 4 x 8
  | x8      -- packed 8 x 4
  | f16     -- one 16-bit element
  | f8      -- one 8-bit element
  | whole   -- one register, ESEL 0000
  | nibble  -- the whole register or one nibble
  | block (n : Nat)  -- n registers, each 32 bits
  deriving DecidableEq, Repr

/-- One operand of an instruction with its field (0 A, 1 B, 2 C), its role, what it holds and the kinds its entry
accepts. -/
structure Slot where
  pos : Nat
  op : Operand
  role : Role
  shape : Shape
  accepts : List Kind
  deriving DecidableEq, Repr

/-! ### Check 5: ESEL and PERM -/

/-- ESEL codes legal on a source (R42). -/
def Shape.srcEsel (s : Shape) (e : ESel) : Bool :=
  match s, e with
  | _, .whole => true
  | .w32, _ | .block _, _ => true
  | .x2, .swap | .x2, .h0 | .x2, .h1 => true
  | .x4, .byte _ => true
  | .f16, .h0 | .f16, .h1 => true
  | .f8, .byte _ => true
  | .nibble, .nib _ => true
  | _, _ => false

/-- ESEL codes legal on a destination (R40): any part of a register, but for results that fill registers. -/
def Shape.dstEsel (s : Shape) (e : ESel) : Bool :=
  match s, e with
  | _, .whole => true
  | _, .swap => false
  | .w64, _ | .quad, _ | .x2, _ | .x4, _ | .x8, _ | .whole, _ | .block _, _ => false
  | _, _ => true

/-- PAMT meets the rule of its PERM (R43). -/
def VecOp.permOk (v : VecOp) : Bool :=
  match v.perm with
  | .none => v.amt == 0
  | .mirk => decide (v.amt.toNat ≤ 4)
  | .rg => decide (v.amt.toNat ≤ 7)
  | .rot | .bc | .bf | .up => true

def VecOp.plain (v : VecOp) : Bool := v.esel == .whole && v.perm == .none && v.amt == 0

/-- What ESEL is judged by: where the entry takes no vector register, one is refused by its kind (R40), after a check of what is
illegal everywhere. -/
def Slot.selShape (s : Slot) : Shape := if s.accepts.contains .vec then s.shape else .w32

/-- Check 5 for one operand. -/
def Slot.selOk (s : Slot) : Bool :=
  match s.op with
  | .vec v =>
    v.permOk &&
    (match s.role with
    | .src => s.selShape.srcEsel v.esel
    | .base => v.esel == .whole
    | .dst => v.perm == .none && s.selShape.dstEsel v.esel
    | .dstSrc => v.perm == .none && s.selShape.dstEsel v.esel && s.selShape.srcEsel v.esel
    | .named => v.plain || !s.accepts.contains .vec)
  | _ => true

/-! ### Checks 7 and 8: kinds, ranges and parity -/

/-- Registers must start at a multiple of this number (R41, R98). -/
def Shape.align : Shape → Nat
  | .w64 => 2
  | .quad => 4
  | _ => 1

/-- A handler register stands where its entry takes a vector register (R39, R72, R229). -/
def Slot.kindOk (s : Slot) : Bool :=
  s.accepts.contains s.op.kind || (s.op.kind == .hreg && s.accepts.contains .vec)

/-- Check 8 for one operand. -/
def Slot.rangeOk (s : Slot) : Bool :=
  match s.op with
  | .vec v => v.reg.toNat % s.shape.align == 0
  | .hreg k => k.toNat % s.shape.align == 0
  | .bar b => decide (b.toNat < 48)
  | _ => true

/-! ### The operands of each entry -/

def kReg : List Kind := [.vec, .sreg]
def kSrc : List Kind := [.vec, .sreg, .imm]
def kVec : List Kind := [.vec]
def kS : List Kind := [.sreg]
def kI : List Kind := [.imm]
def kSI : List Kind := [.sreg, .imm]
def kBit : List Kind := [.pred, .cond]
def kTile : List Kind := [.tile]
def kQueue : List Kind := [.queue]
def kBar : List Kind := [.bar]
def kSpr : List Kind := [.spr]

/-- What the elements of an integer operation fill (R130, R131). -/
def IntMod.shape (m : IntMod) : Shape :=
  match m.pk, m.ty.w with
  | true, .b16 => .x2
  | true, .b8 => .x4
  | true, .b4 => .x8
  | _, .b64 => .w64
  | _, _ => .w32

def shape64 (w64 : Bool) : Shape := if w64 then .w64 else .w32

def MemWidth.shape : MemWidth → Shape
  | .w64 => .w64
  | .q => .quad
  | _ => .w32

/-- The shape of store data, whose ESEL must be 0000 (R102). -/
def MemWidth.dataShape : MemWidth → Shape
  | .w64 => .w64
  | .q => .quad
  | _ => .whole

/-- What a floating-point source holds (R183). -/
def Fmt.srcShape (f : Fmt) (pk : Bool) : Shape :=
  match f with
  | .f64 => .w64
  | .f32 => .f32
  | .f16 | .bf16 => if pk then .x2 else .f16
  | .e4m3 | .e5m2 => .f8

/-- What a floating-point destination holds (R183). -/
def Fmt.dstShape (f : Fmt) (pk : Bool) : Shape :=
  match f with
  | .f64 => .w64
  | .f16 | .bf16 => if pk then .x2 else .w32
  | _ => .w32

def FloatMod.src (m : FloatMod) : Shape := m.fmt.srcShape m.pk
def FloatMod.dst (m : FloatMod) : Shape := m.fmt.dstShape m.pk

/-- The data register or registers of an atomic (R106). -/
def AtomOp.shape (op : AtomOp) (w64 : Bool) : Shape :=
  match op, w64 with
  | .cas, true => .quad
  | .cas, false => .w64
  | _, true => .w64
  | .fadd, false => .f32
  | _, false => .w32

def MemMod.w64 (m : MemMod) : Bool := m.width == .w64

def mkDst (p : Nat) (o : Operand) (s : Shape) (k : List Kind) : Slot := ⟨p, o, .dst, s, k⟩
def mkSrc (p : Nat) (o : Operand) (s : Shape) (k : List Kind) : Slot := ⟨p, o, .src, s, k⟩
def mkBoth (p : Nat) (o : Operand) (s : Shape) (k : List Kind) : Slot := ⟨p, o, .dstSrc, s, k⟩
def mkBase (o : Operand) : Slot := ⟨1, o, .base, .w64, kReg⟩
def mkSpBase (o : Operand) : Slot := ⟨1, o, .base, .whole, kReg⟩
def mkNamed (p : Nat) (o : Operand) (k : List Kind) : Slot := ⟨p, o, .named, .whole, k⟩

/-- One destination and two sources of one shape. -/
def three (s : Shape) (a b c : Operand) : List Slot := [mkDst 0 a s kReg, mkSrc 1 b s kSrc, mkSrc 2 c s kSrc]
/-- One destination and one source of one shape. -/
def two (s : Shape) (a b : Operand) : List Slot := [mkDst 0 a s kReg, mkSrc 1 b s kSrc]

/-- The width of a special register in bits (R234); none for a number that names none. -/
def sprWidth (n : BitVec 12) : Option Nat :=
  match n.toNat with
  | 0x000 | 0x001 | 0x002 | 0x003 | 0x004 | 0x005 | 0x006 => some 32
  | 0x010 | 0x011 => some 32
  | 0x020 => some 8
  | 0x021 => some 64
  | 0x022 => some 32
  | 0x023 => some 8
  | 0x024 | 0x025 => some 32
  | 0x030 => some 64
  | 0x031 => some 32
  | 0x032 => some 64
  | 0x040 | 0x041 | 0x042 => some 64
  | 0x050 => some 32
  | _ => none

/-- The special register has one value for the group (R234). -/
def sprGroup (n : BitVec 12) : Bool :=
  [0x002, 0x003, 0x004, 0x005, 0x030, 0x031, 0x040, 0x041, 0x050].contains n.toNat

/-- The special register may be named in a handler only (R234). -/
def sprHandler (n : BitVec 12) : Bool := [0x024, 0x025].contains n.toNat

/-- The special register may be written (R234). -/
def sprWritable (n : BitVec 12) : Bool := [0x010, 0x011, 0x024].contains n.toNat

def sprShape (o : Operand) : Shape :=
  match o with
  | .spr n => if sprWidth n = some 64 then .w64 else .w32
  | _ => .w32

/-- Registers of the lane operand block of MMA (R360). -/
def MmaMod.regs (m : MmaMod) : Nat :=
  (if m.sc then 4 else 0) + (if m.mode = .gth then 2 else 0) + (if m.bf = .c4 then 1 else 0)

/-- What VRED folds (R156). -/
def VredOp.shape (op : VredOp) (w64 : Bool) : Shape := if op = .fadd then .f32 else shape64 w64

/-- The operands of an instruction. DESIGN CHOICE (log entry 74): a vector C of a 64-bit SHL, SHR, ROT, BFX or BFI, which holds an amount or
a position and length, is one 32-bit register under R42, not a pair (R144, R145). -/
def Instr.slots : Instr → List Slot
  | .shmap _ a b c | .shmapOff _ a b c => [mkNamed 0 a kVec, mkNamed 1 b kI, mkNamed 2 c kI]
  | .barGate _ a | .barMark _ a => [mkNamed 0 a kBar]
  | .barHold _ g a b => mkNamed 0 a kBar :: (if g then [mkSrc 1 b .whole kSI] else [])
  | .barSet _ a b => [mkNamed 0 a kBar, mkSrc 1 b .whole kSI]
  | .safept _ c | .yieldI _ c | .trap _ c | .bkpt _ c => [mkNamed 2 c kI]
  | .ld _ m _ a b => [mkDst 0 a m.width.shape kReg, mkBase b]
  | .st _ m _ a b => [mkSrc 0 a m.width.dataShape kReg, mkBase b]
  | .lds _ w _ a b => [mkDst 0 a w.shape kReg, mkSpBase b]
  | .sts _ w _ a b => [mkSrc 0 a w.dataShape kReg, mkSpBase b]
  | .ldfe _ _ w _ a b => [mkDst 0 a w.shape kVec, mkSpBase b]
  | .stfe _ w _ a b => [mkSrc 0 a w.dataShape kReg, mkSpBase b]
  | .stfeClr _ _ b => [mkSpBase b]
  | .atom _ op m _ a b => [mkBoth 0 a (op.shape m.w64) kReg, mkBase b]
  | .atoms _ op w _ a b => [mkBoth 0 a (op.shape w) kVec, mkSpBase b]
  | .red _ _ m _ a b => [mkSrc 0 a m.width.dataShape kReg, mkBase b]
  | .splook _ a b c => [mkDst 0 a .w64 kVec, mkSrc 1 b .w64 kReg, mkSrc 2 c .whole kS]
  | .sptag _ a b c => [mkSrc 0 a .w32 kReg, mkSrc 1 b .w64 kReg, mkSrc 2 c .whole kS]
  | .sptagDel _ a c => [mkSrc 0 a .w32 kReg, mkSrc 2 c .whole kS]
  | .waitmem _ _ _ w _ a b => [mkSrc 0 a (shape64 w) kReg, mkBase b]
  | .pref _ _ b | .cinvL2 _ _ b => [mkBase b]
  | .latchSrc _ _ a b c | .latchDst _ _ a b c => [mkDst 0 a .whole kS, mkSrc 1 b .whole kS, mkSrc 2 c .whole kSI]
  | .latchRel _ _ b => [mkSrc 1 b .whole kSI]
  | .iadd _ m a b c | .isub _ m a b c | .imul _ m a b c | .imulh _ m a b c | .idiv _ m a b c | .irem _ m a b c
  | .imin _ m a b c | .imax _ m a b c => three m.shape a b c
  | .imad _ m a b c => [mkBoth 0 a m.shape kReg, mkSrc 1 b m.shape kSrc, mkSrc 2 c m.shape kSrc]
  | .iabs _ m a b | .ineg _ m a b => two m.shape a b
  | .iaddc _ w _ a b c => three (shape64 w) a b c
  | .isad _ m a b c =>
    [mkBoth 0 a (shape64 (m.ty.w == .b64)) kReg, mkSrc 1 b m.shape kSrc, mkSrc 2 c m.shape kSrc]
  | .idot4 _ _ _ _ a b c => [mkBoth 0 a .w32 kVec, mkSrc 1 b .x4 kReg, mkSrc 2 c .x4 kReg]
  | .asacc _ _ _ a b c => [mkBoth 0 a .w32 kVec, mkSrc 1 b .x4 kSrc, mkSrc 2 c .x4 kSrc]
  | .icmp _ _ t a b c => [mkDst 0 a .whole kBit, mkSrc 1 b (shape64 t.w64) kSrc, mkSrc 2 c (shape64 t.w64) kSrc]
  | .isel _ _ _ t a b c => three (shape64 t.w64) a b c
  | .and _ _ w a b c | .or _ _ w a b c | .xor _ _ w a b c => three (shape64 w) a b c
  | .bitfn _ w _ a b c => [mkBoth 0 a (shape64 w) kReg, mkSrc 1 b (shape64 w) kSrc, mkSrc 2 c (shape64 w) kSrc]
  | .shl _ t a b c | .shr _ t a b c | .rot _ t a b c | .bfx _ t a b c =>
    [mkDst 0 a (shape64 t.w64) kReg, mkSrc 1 b (shape64 t.w64) kSrc, mkSrc 2 c .w32 kSrc]
  | .bfi _ t a b c => [mkBoth 0 a (shape64 t.w64) kReg, mkSrc 1 b (shape64 t.w64) kSrc, mkSrc 2 c .w32 kSrc]
  | .popc _ w a b | .clz _ w a b | .ctz _ w a b => [mkDst 0 a .w32 kReg, mkSrc 1 b (shape64 w) kSrc]
  | .brev _ w a b | .mov _ w a b => two (shape64 w) a b
  | .movi _ _ a b c => [mkDst 0 a .w32 kReg, mkNamed 1 b kI, mkNamed 2 c kI]
  | .perm _ _ a b c => [mkDst 0 a .w32 kVec, mkSrc 1 b .w32 kVec, mkSrc 2 c .w32 kSrc]
  | .pack _ m a b c =>
    match m.ty.w with
    | .b8 => [mkDst 0 a .x4 kReg, mkSrc 1 b .x2 kReg, mkSrc 2 c .x2 kReg]
    | .b4 => [mkDst 0 a .x8 kReg, mkSrc 1 b .x4 kReg, mkSrc 2 c .x4 kReg]
    | _ => [mkDst 0 a .x2 kReg, mkSrc 1 b .w32 kReg, mkSrc 2 c .w32 kReg]
  | .unpk3 _ _ a b c =>
    [mkDst 0 a .w64 kVec, mkSrc 1 b .w32 kReg] ++ (if c = Operand.unused then [] else [mkDst 2 c .whole [.pred]])
  | .isect _ a b c => [mkDst 0 a .w64 kVec, mkSrc 1 b .w32 kVec, mkSrc 2 c .w32 kVec]
  | .pset _ _ _ _ _ a b c =>
    [mkDst 0 a .whole kBit, mkSrc 1 b .whole (.imm :: kBit), mkSrc 2 c .whole (.imm :: kBit)]
  | .pmov _ a b => [mkDst 0 a .whole kBit, mkSrc 1 b .whole kBit]
  | .pmovToreg _ a b => [mkDst 0 a .w32 kReg, mkSrc 1 b .whole kBit]
  | .pmovFromreg _ a b c => [mkDst 0 a .whole kBit, mkSrc 1 b .w32 kReg, mkNamed 2 c kI]
  | .vote _ _ _ a b => [mkDst 0 a .w32 (kReg ++ kBit), mkSrc 1 b .whole [.pred]]
  | .vred _ op t a b => [mkDst 0 a (shape64 t.w64) kReg, mkSrc 1 b (op.shape t.w64) kVec]
  | .brx _ _ b => [mkSrc 1 b .w32 kReg]
  | .meetSv _ _ a => [mkDst 0 a .w32 kVec]
  | .meetLd _ b | .callx _ b => [mkSrc 1 b .w32 kVec]
  | .loop _ _ a => [mkBoth 0 a .w32 kReg]
  | .fadd _ m a b c | .fsub _ m a b c | .fmul _ m a b c | .fdiv _ m a b c | .fminmax _ _ _ m a b c
  | .fcopys _ m a b c => [mkDst 0 a m.dst kVec, mkSrc 1 b m.src kSrc, mkSrc 2 c m.src kSrc]
  | .ffma _ _ _ m a b c => [mkBoth 0 a m.src kVec, mkSrc 1 b m.src kSrc, mkSrc 2 c m.src kSrc]
  | .fsqrt _ m a b | .fabs _ m a b | .fneg _ m a b | .frnd _ _ m a b | .fexpoGetmant _ m a b =>
    [mkDst 0 a m.dst kVec, mkSrc 1 b m.src kSrc]
  | .fcmp _ _ m a b c => [mkDst 0 a .whole [.pred], mkSrc 1 b m.src kSrc, mkSrc 2 c m.src kSrc]
  | .fclass _ m a b c =>
    [mkDst 0 a .w32 [.vec, .pred], mkSrc 1 b m.src kSrc] ++ (if a.kind = .pred then [mkNamed 2 c kI] else [])
  | .fcvt _ m a b c =>
    [mkDst 0 a (m.dst.dstShape m.pk) kVec, mkSrc 1 b (m.src.srcShape false) kSrc] ++
      (if m.pk then [mkSrc 2 c (m.src.srcShape false) kSrc] else [])
  | .icvt _ m a b =>
    if m.toInt then [mkDst 0 a (shape64 (m.ty.w == .b64)) kVec, mkSrc 1 b (m.fmt.srcShape false) kSrc]
    else [mkDst 0 a (m.fmt.dstShape false) kVec, mkSrc 1 b (shape64 (m.ty.w == .b64)) kSrc]
  | .fexpoScale _ m a b c => [mkDst 0 a m.dst kVec, mkSrc 1 b m.src kSrc, mkSrc 2 c .w32 kSrc]
  | .fexpoGetexp _ m a b => [mkDst 0 a .w32 kVec, mkSrc 1 b m.src kSrc]
  | .fdot2 _ _ a b c => [mkBoth 0 a .f32 kVec, mkSrc 1 b .x2 kSrc, mkSrc 2 c .x2 kSrc]
  | .fmad2 _ mad _ _ a b c =>
    [if mad then mkBoth 0 a .w64 kVec else mkDst 0 a .w64 kVec, mkSrc 1 b .w64 kSrc, mkSrc 2 c .w64 kSrc]
  | .fstatGet _ a => [mkDst 0 a .w32 kVec]
  | .fstatClr _ b | .fstatSet _ b => [mkSrc 1 b .w32 kSrc]
  | .quant _ a b c => [mkDst 0 a .w32 kVec, mkSrc 1 b .f32 kSrc, mkSrc 2 c .w32 kVec]
  | .cbdec _ md a b c =>
    [mkDst 0 a .whole kVec, mkSrc 1 b (if md = .f32 then .w32 else .whole) kReg, mkSrc 2 c .w32 kVec]
  | .deq _ s a b c => [mkDst 0 a .w32 kVec, mkSrc 1 b (if s = .s4 then .nibble else .f8) kSrc, mkSrc 2 c .f8 kSrc]
  | .func _ _ f _ a b | .funca _ f _ a b => [mkDst 0 a (f.dstShape false) kVec, mkSrc 1 b (f.srcShape false) kSrc]
  | .func2 _ _ f fn a b c =>
    match fn with
    | .sincos | .sincospi =>
      [mkDst 0 a (match f with | .f64 => .quad | .f32 => .w64 | _ => .whole) kVec, mkSrc 1 b (f.srcShape false) kSrc]
    | .atan2 | .hypot =>
      [mkDst 0 a (f.dstShape false) kVec, mkSrc 1 b (f.srcShape false) kSrc, mkSrc 2 c (f.srcShape false) kSrc]
  | .rdsr _ a b => [mkDst 0 a (sprShape b) kReg, mkSrc 1 b .whole kSpr]
  | .wrsr _ a b => [mkNamed 0 a kSpr, mkSrc 1 b .w32 kSrc]
  | .ctxopSetf _ _ a b c => [mkDst 0 a .whole kS, mkSrc 1 b .whole kS, mkSrc 2 c .whole kSI]
  | .ctxopRegion _ a b c => [mkDst 0 a .whole kS, mkSrc 1 b .whole kS, mkSrc 2 c .whole kS]
  | .ctxopTlbinv _ b c => [mkBase b, mkSrc 2 c .w32 kSrc]
  | .nbind _ a b c => [mkDst 0 a .whole kS, mkSrc 1 b .whole kS, mkSrc 2 c .whole kSI]
  | .npop _ _ a => [mkDst 0 a .whole kS]
  | .ndoneOk _ a => [mkSrc 0 a .whole kS]
  | .ndoneFail _ a b c | .ndoneKill _ a b c =>
    [mkSrc 0 a .whole kS, mkSrc 1 b .whole kSI] ++ (if c = Operand.unused then [] else [mkSrc 2 c .whole kS])
  | .nxbnd _ _ _ a b c => [mkDst 0 a .whole kS, mkSrc 1 b .whole kSI, mkSrc 2 c .whole kSI]
  | .njoin _ _ _ a b => [mkDst 0 a .whole kS, mkSrc 1 b .whole kS]
  | .detsetD0 _ a => [mkDst 0 a .whole kS]
  | .detsetRec _ _ a b | .detsetPlay _ _ a b => [mkDst 0 a .whole kS, mkSrc 1 b .whole kSI]
  | .clk _ a | .clkVt _ a | .clkRet _ a => [mkDst 0 a .w64 kReg]
  | .aprun _ a b c => [mkDst 0 a .whole kS, mkSrc 1 b .whole kS, mkSrc 2 c .whole kSI]
  | .aqld _ _ _ a b | .aqst _ _ _ a b => [mkNamed 0 a kQueue, ⟨1, b, .base, .w64, kS⟩]
  | .aqldSp _ _ _ a b => [mkSrc 0 a .whole kS, ⟨1, b, .base, .w64, kS⟩]
  | .qpop _ a b => [mkDst 0 a .whole kVec, mkNamed 1 b kQueue]
  | .qpush _ a b => [mkNamed 0 a kQueue, mkSrc 1 b .w32 kReg]
  | .qctlToken _ a b c => [mkDst 0 a .whole kS, mkNamed 1 b kQueue, mkSrc 2 c .whole kSI]
  | .qctlRetry _ a b | .qctlKill _ a b | .qctlStat _ a b | .qctlJoin _ a b => [mkDst 0 a .whole kS, mkNamed 1 b kQueue]
  | .mma _ m a b c => [mkNamed 0 a kTile, mkSrc 1 b .whole kS] ++ (if m.regs = 0 then [] else [mkSrc 2 c (.block m.regs) kVec])
  | .mxmovRd _ a b c => [mkDst 0 a .w32 kVec, mkNamed 1 b kTile, mkSrc 2 c .whole kSI]
  | .mxmovWr _ a b c => [mkNamed 0 a kTile, mkSrc 1 b .w32 kVec, mkSrc 2 c .whole kSI]
  | .mxmovSt _ _ _ a b | .mxmovLd _ a b => [mkNamed 0 a kTile, mkSrc 1 b .whole kSI]
  | .mxmovZero _ a | .mkeyRsv _ a | .mkeyRel _ a => [mkNamed 0 a kTile]
  | .mxmovFlg _ a b => [mkDst 0 a .w32 kVec, mkNamed 1 b kTile]
  | .plane _ _ _ b c => [mkSrc 1 b .whole kSI, mkSrc 2 c .whole kSI]
  | .fxg _ a b | .fxc _ a b => [mkDst 0 a .whole kS, mkSrc 1 b .whole kS]
  | .hbind _ _ _ a b => [mkDst 0 a .whole kS, mkSrc 1 b .whole kS]
  | .hbindDrain _ a b | .hbindCut _ a b => [mkDst 0 a .whole kS, mkSrc 1 b .whole kSI]
  | .hrecv _ _ a b => [mkDst 0 a .whole kS] ++ (if b = Operand.unused then [] else [mkDst 1 b .whole kS])
  | .hsendOk _ a | .hsendMore _ a | .hsendNone _ a => [mkSrc 0 a .whole kS]
  | .hsendFail _ a b c | .hsendKill _ a b c =>
    [mkSrc 0 a .whole kS, mkSrc 1 b .whole kSI] ++ (if c = Operand.unused then [] else [mkSrc 2 c .whole kS])
  | _ => []

/-- The shared fields of an encoded instruction; the neutral ones for a row that is not encoded. -/
def Instr.ctl : Instr → Ctl
  | .nop k | .shmap k _ _ _ | .shmapOff k _ _ _ | .barGate k _ | .barMark k _ | .barHold k _ _ _ | .barSet k _ _
  | .safept k _ | .safeptResume k | .yieldI k _ | .ld k _ _ _ _ | .st k _ _ _ _ | .lds k _ _ _ _ | .sts k _ _ _ _
  | .ldfe k _ _ _ _ _ | .stfe k _ _ _ _ | .stfeClr k _ _ | .atom k _ _ _ _ _ | .atoms k _ _ _ _ _
  | .red k _ _ _ _ _ | .splook k _ _ _ | .sptag k _ _ _ | .sptagDel k _ _ | .fence k _ _ | .fenceH k _ _
  | .waitmem k _ _ _ _ _ _ | .pref k _ _ | .cinvI k _ | .cinvL2 k _ _ | .latchSrc k _ _ _ _ | .latchDst k _ _ _ _
  | .latchRel k _ _ | .iadd k _ _ _ _ | .isub k _ _ _ _ | .imul k _ _ _ _ | .imulh k _ _ _ _ | .imad k _ _ _ _
  | .idiv k _ _ _ _ | .irem k _ _ _ _ | .imin k _ _ _ _ | .imax k _ _ _ _ | .iabs k _ _ _ | .ineg k _ _ _
  | .iaddc k _ _ _ _ _ | .isad k _ _ _ _ | .idot4 k _ _ _ _ _ _ | .asacc k _ _ _ _ _ | .icmp k _ _ _ _ _
  | .isel k _ _ _ _ _ _ | .and k _ _ _ _ _ | .or k _ _ _ _ _ | .xor k _ _ _ _ _ | .bitfn k _ _ _ _ _
  | .shl k _ _ _ _ | .shr k _ _ _ _ | .rot k _ _ _ _ | .bfx k _ _ _ _ | .bfi k _ _ _ _ | .popc k _ _ _
  | .clz k _ _ _ | .ctz k _ _ _ | .brev k _ _ _ | .mov k _ _ _ | .movi k _ _ _ _ | .perm k _ _ _ _
  | .pack k _ _ _ _ | .unpk3 k _ _ _ _ | .isect k _ _ _ | .pset k _ _ _ _ _ _ _ | .pmov k _ _ | .pmovToreg k _ _
  | .pmovFromreg k _ _ _ | .vote k _ _ _ _ | .vred k _ _ _ _ | .bra k _ _ | .brx k _ _ | .meet k _ | .meetSv k _ _
  | .meetLd k _ | .call k _ | .callx k _ | .ret k | .exit k | .loop k _ _ | .fadd k _ _ _ _ | .fsub k _ _ _ _
  | .fmul k _ _ _ _ | .ffma k _ _ _ _ _ _ | .fdiv k _ _ _ _ | .fsqrt k _ _ _ | .fminmax k _ _ _ _ _ _
  | .fabs k _ _ _ | .fneg k _ _ _ | .fcopys k _ _ _ _ | .fcmp k _ _ _ _ _ | .fclass k _ _ _ _ | .frnd k _ _ _ _
  | .fcvt k _ _ _ _ | .icvt k _ _ _ | .fexpoScale k _ _ _ _ | .fexpoGetexp k _ _ _ | .fexpoGetmant k _ _ _
  | .fdot2 k _ _ _ _ | .fmad2 k _ _ _ _ _ _ | .fstatGet k _ | .fstatClr k _ | .fstatSet k _ | .quant k _ _ _
  | .cbdec k _ _ _ _ | .deq k _ _ _ _ | .func k _ _ _ _ _ | .funca k _ _ _ _ | .func2 k _ _ _ _ _ _
  | .tretRetry k | .tretSkip k | .tretKillpt k | .tretKillw k | .tretFatal k | .trap k _ | .bkpt k _
  | .ill k _ _ _ _ | .rdsr k _ _ | .wrsr k _ _ | .ctxopSetf k _ _ _ _ | .ctxopRegion k _ _ _ | .ctxopTlbinv k _ _
  | .nbind k _ _ _ | .npop k _ _ | .ndoneOk k _ | .ndoneFail k _ _ _ | .ndoneKill k _ _ _ | .nxbnd k _ _ _ _ _
  | .njoin k _ _ _ _ | .detsetD0 k _ | .detsetRec k _ _ _ | .detsetPlay k _ _ _ | .clk k _ | .clkVt k _
  | .clkRet k _ | .aprun k _ _ _ | .aqld k _ _ _ _ | .aqldSp k _ _ _ _ | .aqst k _ _ _ _ | .aqsyn k _
  | .qpop k _ _ | .qpush k _ _ | .qctlToken k _ _ _ | .qctlRetry k _ _ | .qctlKill k _ _ | .qctlStat k _ _
  | .qctlJoin k _ _ | .mma k _ _ _ _ | .mxmovRd k _ _ _ | .mxmovWr k _ _ _ | .mxmovSt k _ _ _ _ | .mxmovLd k _ _
  | .mxmovZero k _ | .mxmovFlg k _ _ | .mkeyJoin k | .mkeyTake k | .mkeyPass k | .mkeyLeave k | .mkeyRsv k _
  | .mkeyRel k _ | .plane k _ _ _ _ | .fxg k _ _ | .fxc k _ _ | .hbind k _ _ _ _ | .hbindDrain k _ _
  | .hbindCut k _ _ | .hrecv k _ _ _ | .hsendOk k _ | .hsendMore k _ | .hsendNone k _ | .hsendFail k _ _ _
  | .hsendKill k _ _ _ => k
  | _ => ⟨⟨false, false, 0⟩, false, false, false, 0⟩

/-! ### Forms (R45) -/

/-- The forms an entry lists. -/
inductive FormClass where
  | hall     -- Hall form only
  | warp     -- warp form only
  | both     -- Hall and warp forms, told apart by R45
  | control  -- control flow, whose class is that of R157
  | ap       -- access programs only (R323)
  | event    -- not an instruction of a program
  deriving DecidableEq, Repr

/-- The forms of each entry (R45 and the reference entries). -/
def Instr.formClass : Instr → FormClass
  | .nop .. | .shmap .. | .shmapOff .. | .barGate .. | .barMark .. | .barHold .. | .barSet .. | .safept ..
  | .safeptResume .. | .yieldI .. | .ldfe .. | .stfe .. | .stfeClr .. | .atoms .. | .splook .. | .sptag ..
  | .sptagDel .. | .fence .. | .idot4 .. | .asacc .. | .perm .. | .unpk3 .. | .isect .. | .vote .. | .vred ..
  | .fadd .. | .fsub .. | .fmul .. | .ffma .. | .fdiv .. | .fsqrt .. | .fminmax .. | .fabs .. | .fneg ..
  | .fcopys .. | .fcmp .. | .fclass .. | .frnd .. | .fcvt .. | .icvt .. | .fexpoScale .. | .fexpoGetexp ..
  | .fexpoGetmant .. | .fdot2 .. | .fmad2 .. | .fstatGet .. | .fstatClr .. | .fstatSet .. | .quant .. | .cbdec ..
  | .deq .. | .func .. | .funca .. | .func2 .. | .tretRetry .. | .tretSkip .. | .tretKillpt .. | .tretKillw ..
  | .tretFatal .. | .trap .. | .bkpt .. | .ill .. | .wrsr .. | .qpop .. | .qpush .. | .mma .. | .mxmovRd ..
  | .mxmovWr .. | .mxmovSt .. | .mxmovLd .. | .mxmovZero .. | .mxmovFlg .. | .mkeyJoin .. | .mkeyTake ..
  | .mkeyPass .. | .mkeyLeave .. | .mkeyRsv .. | .mkeyRel .. | .plane .. => .warp
  | .fenceH .. | .cinvI .. | .latchSrc .. | .latchDst .. | .latchRel .. | .ctxopSetf .. | .ctxopRegion ..
  | .nbind .. | .npop .. | .ndoneOk .. | .ndoneFail .. | .ndoneKill .. | .nxbnd .. | .njoin .. | .detsetD0 ..
  | .detsetRec .. | .detsetPlay .. | .aprun .. | .qctlToken .. | .qctlRetry .. | .qctlKill .. | .qctlStat ..
  | .qctlJoin .. | .fxg .. | .fxc .. | .hbind .. | .hbindDrain .. | .hbindCut .. | .hrecv .. | .hsendOk ..
  | .hsendMore .. | .hsendNone .. | .hsendFail .. | .hsendKill .. => .hall
  | .ld .. | .st .. | .lds .. | .sts .. | .atom .. | .red .. | .waitmem .. | .pref .. | .cinvL2 .. | .iadd ..
  | .isub .. | .imul .. | .imulh .. | .imad .. | .idiv .. | .irem .. | .imin .. | .imax .. | .iabs .. | .ineg ..
  | .iaddc .. | .isad .. | .icmp .. | .isel .. | .and .. | .or .. | .xor .. | .bitfn .. | .shl .. | .shr ..
  | .rot .. | .bfx .. | .bfi .. | .popc .. | .clz .. | .ctz .. | .brev .. | .mov .. | .movi .. | .pack ..
  | .pset .. | .pmov .. | .pmovToreg .. | .pmovFromreg .. | .rdsr .. | .clk .. | .clkVt .. | .clkRet ..
  | .ctxopTlbinv .. => .both
  | .bra .. | .brx .. | .meet .. | .meetSv .. | .meetLd .. | .call .. | .callx .. | .ret .. | .exit .. | .loop .. => .control
  | .aqld .. | .aqldSp .. | .aqst .. | .aqsyn .. => .ap
  | _ => .event

/-- The guard means always (R34). -/
def Guard.always (g : Guard) : Bool := g.ix == 0 && !g.neg

/-- The guard is a condition or means always (R45). -/
def Guard.uniform (g : Guard) : Bool := g.cond || g.always

/-- The operand may stand in a Hall form (R45). -/
def Slot.hallOk (s : Slot) : Bool :=
  match s.role, s.op with
  | .dst, .sreg _ | .dst, .cond _ | .dstSrc, .sreg _ | .dstSrc, .cond _ => true
  | .dst, _ | .dstSrc, _ => false
  | .src, .sreg _ | .src, .imm _ | .src, .cond _ | .base, .sreg _ => true
  | .src, .spr n => sprGroup n
  | .named, .vec _ | .named, .hreg _ | .src, _ | .base, _ => false
  | .named, _ => true

/-- The instruction is a Hall instruction (R45). -/
def Instr.isHall (i : Instr) : Bool :=
  match i.formClass with
  | .hall => true
  | .both => i.ctl.guard.uniform && i.slots.all Slot.hallOk
  | _ => false

/-! ### Checks 2 to 5: ILLEGAL_INSTR -/

/-- The types, packing and .SAT that R132 allows an integer opcode. -/
def IntMod.allowed (m : IntMod) (scalar packed : List IWidth) (sat : Bool) : Bool :=
  (sat || !m.sat) && (if m.pk then packed.contains m.ty.w else scalar.contains m.ty.w)

def wAll : List IWidth := [.b8, .b16, .b32, .b64]
def wLong : List IWidth := [.b32, .b64]
def pAll : List IWidth := [.b16, .b8, .b4]
def pTwo : List IWidth := [.b16, .b8]

/-- FMT, PK and RM that R182 allows a floating-point opcode. -/
def FloatMod.allowed (m : FloatMod) (fmts : List Fmt) (pk rm : Bool) : Bool :=
  fmts.contains m.fmt && (!m.pk || (pk && (m.fmt == .f16 || m.fmt == .bf16))) && (rm || m.rm == .dyn)

def f4 : List Fmt := [.f64, .f32, .f16, .bf16]

/-- Conversions that lose nothing (R191). -/
def CvtMod.widening (m : CvtMod) : Bool :=
  match m.src, m.dst with
  | .f32, .f64 => true
  | .f16, .f32 | .f16, .f64 | .bf16, .f32 | .bf16, .f64 => true
  | .e4m3, .f16 | .e4m3, .bf16 | .e4m3, .f32 | .e4m3, .f64 => true
  | .e5m2, .f16 | .e5m2, .bf16 | .e5m2, .f32 | .e5m2, .f64 => true
  | _, _ => false

/-- SCOPE is 000 where ORDER is plain (R98). -/
def MemMod.scopeOk (m : MemMod) : Bool := m.order != .plain || m.scope == .warp

def storeWidth (w : MemWidth) : Bool := w != .s8 && w != .s16

/-- The operand carries neither PERM nor a PAMT. -/
def Operand.noPerm : Operand → Bool
  | .vec v => v.perm == .none && v.amt == 0
  | _ => true

def Operand.plainVec : Operand → Bool
  | .vec v => v.plain
  | .hreg _ => true
  | _ => false

def AFmt.integer : AFmt → Bool
  | .s8 | .n8 | .s4 | .n4 | .t5 => true
  | .bf16 | .f16 | .e4m3 | .e5m2 => false

def BFmt.integer : BFmt → Bool
  | .s8 | .n8 | .s4 => true
  | .bf16 | .f16 | .e4m3 | .e5m2 | .c4 => false

/-- What an entry itself asks of FN, of unused operands, of its guard and of special ESEL rules (checks 2 to 5). DESIGN CHOICE (log
entry 74): the ILLEGAL_INSTR of PERM is for the PERM field of a B; a B of another KIND is left to check 7 (R149). -/
def Instr.entryInstr : Instr → Bool
  | .nop k => !k.lra && !k.lrb && !k.lrc
  | .barHold _ g _ b => g || b == Operand.unused
  | .safept k _ | .safeptResume k | .tretRetry k | .tretSkip k | .tretKillpt k | .tretKillw k | .tretFatal k =>
    k.guard.always
  | .ld _ m _ _ _ => m.scopeOk && m.order != .rel
  | .st _ m _ _ _ => m.scopeOk && m.order != .acq && storeWidth m.width
  | .sts _ w _ _ _ | .stfe _ w _ _ _ => storeWidth w
  | .atom _ _ m _ _ _ => m.scopeOk && (m.width == .w32 || m.width == .w64)
  | .red _ op m _ _ _ =>
    m.scopeOk && (m.width == .w32 || m.width == .w64) && (m.order == .plain || m.order == .rel) &&
      op != .exch && op != .cas
  | .iadd _ m _ _ _ | .isub _ m _ _ _ => m.allowed wAll pAll true
  | .imul _ m _ _ _ => m.allowed [.b16, .b32, .b64] pTwo true
  | .imulh _ m _ _ _ | .idiv _ m _ _ _ | .irem _ m _ _ _ => m.allowed wLong [] false
  | .imad _ m _ _ _ | .isad _ m _ _ _ => m.allowed wLong pTwo true
  | .imin _ m _ _ _ | .imax _ m _ _ _ => m.allowed wAll pAll false
  | .iabs _ m _ _ | .ineg _ m _ _ => m.allowed wAll pAll true
  | .movi _ _ _ b _ =>
    match b with
    | .imm v => decide (v.toNat ≤ 2)
    | _ => false
  | .perm _ _ _ b _ => b.noPerm
  | .pack _ m _ _ _ => m.pk && pAll.contains m.ty.w
  | .vred _ op t _ _ => op != .fadd || (!t.w64 && !t.signed)
  | .fadd _ m _ _ _ | .fsub _ m _ _ _ | .fmul _ m _ _ _ | .ffma _ _ _ m _ _ _ => m.allowed f4 true true
  | .fdiv _ m _ _ _ | .fsqrt _ m _ _ | .frnd _ _ m _ _ | .fexpoScale _ m _ _ _ => m.allowed f4 false true
  | .fminmax _ _ _ m _ _ _ | .fabs _ m _ _ | .fneg _ m _ _ | .fcopys _ m _ _ _ => m.allowed f4 true false
  | .fcmp _ _ m _ _ _ | .fexpoGetexp _ m _ _ | .fexpoGetmant _ m _ _ => m.allowed f4 false false
  | .fclass _ m a _ c =>
    m.allowed [.f64, .f32, .f16, .bf16, .e4m3, .e5m2] false false && (a.kind == .pred || c == Operand.unused)
  | .fcvt _ m _ _ c =>
    m.dst != m.src && (!m.pk || (m.src == .f32 && (m.dst == .f16 || m.dst == .bf16))) &&
      !(m.sat && m.widening) && (m.pk || c == Operand.unused)
  | .icvt _ m _ _ => f4.contains m.fmt && m.ty.w != .b4
  | .fdot2 _ m _ _ _ => m.pk && (m.fmt == .f16 || m.fmt == .bf16)
  | .fmad2 _ _ _ m _ _ _ => m.fmt == .f32 && !m.pk
  | .func _ _ f _ _ _ => f4.contains f
  | .funca _ f _ _ _ => f == .f32 || f == .f16 || f == .bf16
  | .func2 _ _ f fn _ _ c => f4.contains f && (fn == .atan2 || fn == .hypot || c == Operand.unused)
  | .mma _ m _ _ c =>
    m.af.integer == m.bf.integer && !(m.sc && m.af.integer) && !(m.bf == .c4 && m.af.integer) &&
      !(m.sat && !m.af.integer) && (m.regs != 0 || c == Operand.unused)
  | .mxmovSt .. => true
  | _ => true

/-- Checks 2 to 5 of R47: the instruction raises no ILLEGAL_INSTR. The forms of an access program are R323's, so in a
group's own stream those opcodes are illegal too. -/
def Instr.instrOk (i : Instr) : Bool :=
  !(i.ctl.guard.neg && i.ctl.guard.ix == 0) &&
  (i.formClass != .hall || i.ctl.guard.uniform) &&
  i.formClass != .ap &&
  i.entryInstr && i.slots.all Slot.selOk

/-! ### Check 6: PRIVILEGE -/

/-- The instruction names something that the privilege does not allow (R39, R230, R234, R250). -/
def Instr.privOk (i : Instr) (handler super : Bool) : Bool :=
  (match i with
  | .ctxopSetf _ f _ _ _ => f.toNat != 160 || super
  | .tretRetry .. | .tretSkip .. | .tretKillpt .. | .tretKillw .. | .tretFatal .. => handler
  | _ => true) &&
  (handler || i.slots.all (fun s =>
    match s.op with
    | .hreg _ => false
    | .spr n => !sprHandler n
    | _ => true))

/-! ### Checks 7 and 8: ILLEGAL_OPERAND -/

def Operand.even : Operand → Bool
  | .sreg r => r.toNat % 2 == 0
  | _ => true

def Operand.by4 : Operand → Bool
  | .sreg r => r.toNat % 4 == 0
  | _ => true

def Operand.immLt (n : Nat) : Operand → Bool
  | .imm v => decide (v.toNat < n)
  | _ => true

/-- A floating-point immediate supplies no more bits than its format holds (R183). -/
def Operand.floatImm (f : Fmt) (o : Operand) : Bool :=
  match f with
  | .f64 | .f32 => true
  | .f16 | .bf16 => o.immLt 65536
  | .e4m3 | .e5m2 => o.immLt 256

def Operand.setName : Operand → Bool
  | .pred i | .cond i => i == 0
  | _ => true

/-- What an entry itself asks of its operands (checks 7 and 8). -/
def Instr.entryOperand (i : Instr) : Bool :=
  match i with
  | .shmap _ _ b c => b.immLt 32 && c.immLt 33 && c != .imm 0
  | .shmapOff _ _ b c => b == .imm 0 && c.immLt 33 && c != .imm 0
  | .barHold _ _ _ b => b.immLt 65536
  | .safept _ c => c.immLt 1048575
  | .yieldI _ c => c.immLt 1024
  | .ld _ m _ a b => b.even && (a.kind != .sreg || m.width != .q)
  | .st _ m _ _ b => b.even && !(i.isHall && m.width == .q)
  | .lds _ w _ a _ => a.kind != .sreg || w != .q
  | .sts _ w _ _ _ => !(i.isHall && w == .q)
  | .atom _ op _ _ a b => b.even && (op != .cas || a.even)
  | .red _ _ _ _ _ b | .waitmem _ _ _ _ _ _ b | .pref _ _ b | .cinvL2 _ _ b => b.even
  | .iadd _ m _ _ _ | .isub _ m _ _ _ | .imul _ m _ _ _ | .imulh _ m _ _ _ | .imad _ m _ _ _ | .idiv _ m _ _ _
  | .irem _ m _ _ _ | .imin _ m _ _ _ | .imax _ m _ _ _ | .iabs _ m _ _ | .ineg _ m _ _ | .isad _ m _ _ _ =>
    !(m.pk && i.isHall)
  | .movi _ _ a b _ => a.kind == .sreg || b == .imm 0
  | .unpk3 _ t _ _ c => !t || c == Operand.unused
  | .isect _ _ b c => b.plainVec && c.plainVec
  | .pmovToreg _ _ b => b.setName
  | .pmovFromreg _ a _ c => a.setName && c.immLt 65536
  | .vote _ md _ a _ =>
    match a.kind with
    | .pred | .cond => md == .any || md == .all
    | .sreg => md != .ballot
    | _ => md == .ballot || md == .cnt
  | .loop _ o _ => o.msb
  | .fadd _ m _ b c | .fsub _ m _ b c | .fmul _ m _ b c | .ffma _ _ _ m _ b c | .fdiv _ m _ b c
  | .fminmax _ _ _ m _ b c | .fcopys _ m _ b c | .fcmp _ _ m _ b c | .fdot2 _ m _ b c =>
    b.floatImm m.fmt && c.floatImm m.fmt
  | .fsqrt _ m _ b | .fabs _ m _ b | .fneg _ m _ b | .frnd _ _ m _ b | .fexpoScale _ m _ b _
  | .fexpoGetexp _ m _ b | .fexpoGetmant _ m _ b => b.floatImm m.fmt
  | .fclass _ m _ b c => b.floatImm m.fmt && c.immLt 1024
  | .fcvt _ m _ b _ => b.floatImm m.src
  | .icvt _ m _ b => !m.toInt || b.floatImm m.fmt
  | .quant _ _ _ c | .cbdec _ _ _ _ c => c.plainVec
  | .deq _ s _ b c => (s == .s8 || s == .s4 || b.immLt 256) && c.immLt 256
  | .func _ _ f _ _ b | .funca _ f _ _ b => b.floatImm f
  | .func2 _ _ f _ _ b c => b.floatImm f && c.floatImm f
  | .rdsr _ a b =>
    match b with
    | .spr n => (sprWidth n).isSome && (a.kind != .sreg || sprGroup n)
    | _ => false
  | .wrsr _ a _ =>
    match a with
    | .spr n => sprWritable n
    | _ => false
  | .ctxopRegion _ _ b _ => b.even
  | .ctxopTlbinv _ _ _ => true
  | .nbind _ _ b c => b.even && c.immLt 1
  | .npop _ _ a => a.by4
  | .detsetRec _ _ _ b | .detsetPlay _ _ _ b => b.immLt 1
  | .clkRet _ a => a.kind != .sreg
  | .aprun _ _ b c => b.even && c.immLt 65536
  | .aqld _ _ _ _ b | .aqldSp _ _ _ _ b | .aqst _ _ _ _ b => b.even
  | .qctlToken _ _ _ c => c.immLt 4096 && c != .imm 0
  | .mma _ m _ b c =>
    b.even && (m.regs == 0 ||
      (match c with
      | .vec v => v.plain && v.reg.toNat % 4 == 0 && decide (v.reg.toNat + m.regs ≤ 256)
      | _ => false))
  | .mxmovRd _ _ _ c | .mxmovWr _ _ _ c => c.immLt 128
  | .hbind _ _ _ _ b => b.by4
  | .hrecv _ _ a _ => a.by4
  | .hsendOk _ a | .hsendMore _ a | .hsendNone _ a | .hsendFail _ a _ _ | .hsendKill _ a _ _ => a.by4
  | _ => true

/-- A warp instruction writes no scalar register or condition bit, but for VOTE and VRED (R45). -/
def Instr.dstOk (i : Instr) : Bool :=
  match i.formClass, i with
  | _, .vote .. | _, .vred .. => true
  | _, .loop k _ a => a.kind != .sreg || k.guard.uniform
  | .warp, _ | .both, _ =>
    i.isHall || i.slots.all (fun s =>
      match s.role, s.op with
      | .dst, .sreg _ | .dst, .cond _ | .dstSrc, .sreg _ | .dstSrc, .cond _ => false
      | _, _ => true)
  | _, _ => true

/-- Checks 7 and 8 of R47: the instruction raises no ILLEGAL_OPERAND. -/
def Instr.operandOk (i : Instr) : Bool :=
  i.slots.all Slot.kindOk && i.dstOk && i.entryOperand && i.slots.all Slot.rangeOk

/-- The word is ILL, whatever its other fields (R232). -/
def Instr.isIll : Instr → Bool
  | .ill .. => true
  | _ => false

/-- The first check of R47 that an instruction fails. -/
inductive CheckFault where
  | illegalInstr
  | privilege
  | illegalOperand
  deriving DecidableEq, Repr

/-- Checks 2 to 8 in their order (R47). ILL, whose every other field is free, is illegal by its own effect (R232). -/
def Instr.check (i : Instr) (handler super : Bool) : Option CheckFault :=
  if i.isIll then none
  else if !i.instrOk then some .illegalInstr
  else if !i.privOk handler super then some .privilege
  else if !i.operandOk then some .illegalOperand
  else none

end Sys2Proof
end

