-- ==== Sys2Proof/Machine/Operands.lean ====
section
/-! DEFINITION. Operand forms: the lane crossbar (R43), element select (R42), part writes (R40), pairs and quads (R41,
R98), scalars, immediates, predicates and conditions (R38, R39), as a warp, a Hall or an access program reads and writes
them. -/

namespace Sys2Proof.Machine

open Sys2Proof

/-! ### What an issue sees -/

/-- What a warp's instruction sees: the state, its group and warp, what it issues, its active lanes (R62) and the wait
that has just ended for it. -/
structure WarpView where
  s : State
  gr : Group
  w : Warp
  is : Issue
  active : Mask
  prior : Option WaitKind

/-- What an instruction in its Hall form sees: the state, the group, the registers of the Hall or of the access program,
the PC and the wait that has just ended. -/
structure HallView where
  s : State
  gr : Group
  agent : Agent
  sc : Scalars
  pc : Word
  prior : Option WaitKind

/-! ### The lane crossbar and element select (R42, R43) -/

/-- The source lane of lane `l` (R43). -/
def permLane (p : Perm) (n l : Nat) : Nat :=
  match p with
  | .none => l
  | .rot => (l + n) % 32
  | .bc => n
  | .bf => l ^^^ n
  | .mirk =>
    let m := 2 ^ (n % 8 + 1) - 1
    l - l % (m + 1) + (m - l % (m + 1))
  | .rg => l / 8 * 8 + (l + n % 8) % 8
  | .up => if n ≤ l then l - n else l

/-- Sign or zero extension of the low `n` bits to 32 bits. -/
def extend (signed : Bool) (n : Nat) (x : Word) : Word :=
  if signed then (x.truncate n).signExtend 32 else (x.truncate n).setWidth 32

/-- ESEL of a 32-bit operation (R42). -/
def eselWord (signed : Bool) (e : ESel) (x : Word) : Word :=
  match e with
  | .whole => x
  | .h0 => extend signed 16 x
  | .h1 => extend signed 16 (x >>> 16)
  | .swap => x.rotateLeft 16
  | .byte k => extend signed 8 (x >>> (8 * k.toNat))
  | .nib k => extend signed 4 (x >>> (4 * k.toNat))

/-- ESEL of a packed operation (R42). -/
def eselPacked (e : ESel) (x : Word) : Word :=
  match e with
  | .whole => x
  | .swap => x.rotateLeft 16
  | .h0 => (x &&& 0xFFFF) ||| (x <<< 16)
  | .h1 => (x >>> 16) ||| (x &&& 0xFFFF0000)
  | .byte k => ((x >>> (8 * k.toNat)) &&& 0xFF) * 0x01010101
  | .nib _ => x

/-- The bits of a register that a destination ESEL writes, and how far a value is moved up (R40). -/
def eselPart (e : ESel) : Word × Nat :=
  match e with
  | .whole | .swap => (0xFFFFFFFF, 0)
  | .h0 => (0xFFFF, 0)
  | .h1 => (0xFFFF0000, 16)
  | .byte k => ((0xFF : Word) <<< (8 * k.toNat), 8 * k.toNat)
  | .nib k => ((0xF : Word) <<< (4 * k.toNat), 4 * k.toNat)

/-! ### Names -/

/-- The first register name of an operand: v0 to v255 are 0 to 255, k0 to k31 are 256 to 287 (R72). -/
def opName : Operand → Option Nat
  | .vec v => some v.reg.toNat
  | .hreg k => some (256 + k.toNat)
  | _ => none

/-- How many registers an operand of a shape names. -/
def shapeRegs : Shape → Nat
  | .w64 => 2
  | .quad => 4
  | .block n => n
  | _ => 1

/-- The register names of a slot. -/
def slotNames (x : Slot) : List Nat :=
  match opName x.op with
  | some n => (List.range (shapeRegs x.shape)).map (n + ·)
  | none => []

/-- The slot is read. -/
def slotRead (x : Slot) : Bool :=
  match x.role with
  | .src | .base | .dstSrc => true
  | .dst | .named => false

/-- The slot is written. -/
def slotWritten (x : Slot) : Bool :=
  match x.role with
  | .dst | .dstSrc => true
  | .src | .base | .named => false

/-- The link register (R162). -/
def linkReg : Nat := 253

/-- The register names that an instruction reads: those of its operands, and RET's link register (R163). -/
def readNames (i : Instr) : List Nat :=
  (i.slots.filter slotRead).flatMap slotNames ++
  (match i with
  | .ret _ => [linkReg]
  | _ => [])

/-- The register names that an instruction writes: those of its operands, and the link register of a call (R162). -/
def writtenNames (i : Instr) : List Nat :=
  (i.slots.filter slotWritten).flatMap slotNames ++
  (match i with
  | .call .. | .callx .. => [linkReg]
  | _ => [])

/-- LRA is ignored on an atomic (R106, R107). -/
def ignoresLra : Instr → Bool
  | .atom .. | .atoms .. => true
  | _ => false

/-- The names that the last-read hints of an instruction name: vector sources whose bit is set; A only where it is a
source (R35). -/
def hintNames (i : Instr) : List Nat :=
  let k := i.ctl
  (i.slots.filter (fun x => slotRead x && (match x.pos with
    | 0 => k.lra && !ignoresLra i
    | 1 => k.lrb
    | _ => k.lrc))).flatMap slotNames

/-! ### Reading in a warp -/

/-- An immediate as a 64-bit value (R38). -/
def immValue (signed : Bool) (v : BitVec 20) : DWord := if signed then v.signExtend 64 else v.setWidth 64

/-- Register `n` of the warp that issues, in one lane. -/
def WarpView.lane (v : WarpView) (n l : Nat) : Word := (v.gr.reg v.is.w n).get l

/-- The 32 bits that lane `l` reads from the `j`-th register of an operand, after PERM and before ESEL. A scalar
supplies its bits 31:0, or 63:32 for `j` = 1. -/
def WarpView.raw (v : WarpView) (signed : Bool) (o : Operand) (j l : Nat) : Word :=
  match o with
  | .vec r => v.lane (r.reg.toNat + j) (permLane r.perm r.amt.toNat l)
  | .hreg k => v.lane (256 + k.toNat + j) l
  | .sreg r => (v.is.sc.s[r.toNat]'(by omega) >>> (32 * j)).setWidth 32
  | .imm x => (immValue signed x >>> (32 * j)).setWidth 32
  | _ => 0

/-- ESEL of an operand. -/
def opEsel : Operand → ESel
  | .vec r => r.esel
  | _ => .whole

/-- Read(X, l) of a 32-bit operation (R42). -/
def WarpView.r32 (v : WarpView) (signed : Bool) (o : Operand) (l : Nat) : Word :=
  eselWord signed (opEsel o) (v.raw signed o 0 l)

/-- Read(X, l) of a packed operation (R42). -/
def WarpView.rPacked (v : WarpView) (o : Operand) (l : Nat) : Word := eselPacked (opEsel o) (v.raw true o 0 l)

/-- Read(X, l) of a 64-bit operation: a pair, a scalar or an extended immediate (R41). -/
def WarpView.r64 (v : WarpView) (signed : Bool) (o : Operand) (l : Nat) : DWord :=
  v.raw signed o 1 l ++ v.raw signed o 0 l

/-- The four words of a quad (R98). -/
def WarpView.rQuad (v : WarpView) (o : Operand) (l : Nat) : BitVec 128 :=
  v.raw false o 3 l ++ v.raw false o 2 l ++ v.raw false o 1 l ++ v.raw false o 0 l

/-- A predicate of a lane; p0 is 1 (R39). -/
def Warp.pred (w : Warp) (i l : Nat) : Bool := i == 0 || (w.threads.get l).preds.getLsbD i

/-- A condition bit; c0 is 1 (R39). -/
def Scalars.cond (sc : Scalars) (i : Nat) : Bool := i == 0 || sc.c.getLsbD i

/-- A predicate, a condition or bit 0 of an immediate, as lane `l` reads it (R153). -/
def WarpView.bit (v : WarpView) (o : Operand) (l : Nat) : Bool :=
  match o with
  | .pred i => v.w.pred i.toNat l
  | .cond i => v.is.sc.cond i.toNat
  | .imm x => x.getLsbD 0
  | _ => false

/-! ### Writing in a warp -/

/-- The write of a 32-bit value to a destination in the active lanes, under its ESEL (R40). -/
def WarpView.w32 (v : WarpView) (o : Operand) (f : Nat → Word) : List RegWrite :=
  match opName o with
  | some n =>
    let (bits, sh) := eselPart (opEsel o)
    [⟨n, v.active, bits, Lanes.of (fun l => f l <<< sh)⟩]
  | none => []

/-- The write of a 64-bit value to a pair (R41). -/
def WarpView.w64 (v : WarpView) (o : Operand) (f : Nat → DWord) : List RegWrite :=
  match opName o with
  | some n =>
    [⟨n, v.active, 0xFFFFFFFF, Lanes.of (fun l => (f l).setWidth 32)⟩,
     ⟨n + 1, v.active, 0xFFFFFFFF, Lanes.of (fun l => (f l >>> 32).setWidth 32)⟩]
  | none => []

/-- The write of 128 bits to a quad (R98). -/
def WarpView.wQuad (v : WarpView) (o : Operand) (f : Nat → BitVec 128) : List RegWrite :=
  match opName o with
  | some n =>
    (List.range 4).map (fun j => ⟨n + j, v.active, 0xFFFFFFFF, Lanes.of (fun l => (f l >>> (32 * j)).setWidth 32)⟩)
  | none => []

/-! ### Reading and writing in a Hall or an access program -/

/-- A 64-bit source of a Hall form. -/
def HallView.r64 (h : HallView) (signed : Bool) (o : Operand) : DWord :=
  match o with
  | .sreg r => h.sc.s[r.toNat]'(by omega)
  | .imm x => immValue signed x
  | _ => 0

/-- Bits 31:0 of a source. -/
def HallView.r32 (h : HallView) (signed : Bool) (o : Operand) : Word := (h.r64 signed o).setWidth 32

def HallView.bit (h : HallView) (o : Operand) : Bool :=
  match o with
  | .cond i => h.sc.cond i.toNat
  | .imm x => x.getLsbD 0
  | _ => false

/-- The number of a scalar register operand. -/
def sregNo : Operand → Nat
  | .sreg r => r.toNat
  | _ => 0

/-- Register s`n` of a Hall view. -/
def HallView.s64 (h : HallView) (n : Nat) : DWord := h.sc.s[n % 64]'(Nat.mod_lt _ (by decide))

/-- The write of a 64-bit value to a scalar destination. -/
def sWrite (o : Operand) (x : DWord) : List (Nat × DWord) :=
  match o with
  | .sreg r => [(r.toNat, x)]
  | _ => []

/-- Scalar registers with the listed writes; a write to c0 is discarded (R39). -/
def Scalars.put (sc : Scalars) (ws : List (Nat × DWord)) (cs : List (Nat × Bool)) : Scalars :=
  { s := ws.foldl (fun v x => v.setIfInBounds x.1 x.2) sc.s
    c := cs.foldl (fun c x =>
      if x.1 = 0 then c else if x.2 then c ||| BitVec.twoPow 16 x.1 else c &&& ~~~(BitVec.twoPow 16 x.1)) sc.c }

/-! ### Addresses (R44, R92) -/

/-- The global address of lane `l`: base plus a signed offset, modulo 2^64 (R44). -/
def WarpView.addr (v : WarpView) (b : Operand) (off : DWord) (l : Nat) : Nat :=
  (match b with
  | .sreg r => v.is.sc.s[r.toNat]'(by omega) + off
  | _ => v.r64 false b l + off).toNat

def HallView.addr (h : HallView) (b : Operand) (off : DWord) : Nat := (h.r64 false b + off).toNat

/-- The scratchpad offset of lane `l`, modulo 2^32 (R92). -/
def WarpView.saddr (v : WarpView) (b : Operand) (off : Word) (l : Nat) : Nat := (v.raw false b 0 l + off).toNat

def HallView.saddr (h : HallView) (b : Operand) (off : Word) : Nat := (h.r32 false b + off).toNat

end Sys2Proof.Machine
end

