-- ==== Sys2Proof/Machine/Issue.lean ====
section
/-! DEFINITION. How an instruction is issued: what a warp instruction, a Hall form or an instruction of an access program
may do, and the one way in which each takes effect, traps, waits or stalls (R34, R35, R62, R72 to R74, R81, R204, R294,
R327). -/

namespace Sys2Proof.Machine

open Sys2Proof

/-! ### What an instruction does -/

/-- What a warp instruction does when it takes effect: the state with everything but the warp's own registers, and what
it writes there. `preds` gives an index, lanes and values; `flags` the sticky flags each lane gains; `jump` the PC of a
lane that does not go on at PC + 1 (R157); `late` what the special-function unit will write (R204). -/
structure WarpEff where
  st : State
  writes : List RegWrite := []
  preds : List (Nat × Mask × Mask) := []
  flags : List (Lanes (BitVec 5)) := []
  jump : Option (Lanes (Option Word)) := none
  late : List RegWrite := []

/-- What comes of a warp instruction. A trap, a wait and a stall leave the instruction without effect; `fault` also leaves
a state behind: a fault that a tile held has been delivered (R357). -/
inductive WarpRes where
  | done (e : WarpEff)
  | trap (t : Trap)
  | fault (st : State) (t : Trap)
  | wait (st : State) (k : WaitKind)
  | stall (st : State)

/-- What a Hall form does when it takes effect. -/
structure HallEff where
  st : State
  s : List (Nat × DWord) := []
  c : List (Nat × Bool) := []
  pc : Option Word := none

/-- What comes of a Hall form. `fault` also leaves a state behind: a poisoned queue entry (R327), an abandoned trace
(R300), a delivered fault (R272). -/
inductive HallRes where
  | done (e : HallEff)
  | trap (t : Trap)
  | fault (st : State) (t : Trap)
  | wait (st : State) (k : WaitKind)
  | stall (st : State)

/-- A warp instruction that only writes registers. -/
def WarpRes.write (v : WarpView) (ws : List RegWrite) : WarpRes := .done { st := v.s, writes := ws }

/-- A Hall form that only writes one scalar register. -/
def HallRes.write (h : HallView) (a : Operand) (x : DWord) : HallRes := .done { st := h.s, s := sWrite a x }

/-! ### Usable rotations (R294) -/

/-- The rotations after which a result of the instruction is usable (R294); FUNC and its kin have R217's. -/
def usableAfter : Instr → Nat
  | .ld .. | .atom .. | .red .. | .waitmem .. => 64
  | .lds .. | .sts .. | .ldfe .. | .stfe .. | .stfeClr .. | .atoms .. | .splook .. | .sptag .. | .sptagDel .. => 8
  | _ => 1

/-! ### Warp instructions -/

/-- The issue of a warp as its instruction sees it; the guard decides the active lanes (R34, R62). -/
def State.warpView (s : State) (is : Issue) (k : Ctl) : Option WarpView :=
  match s.group? is.g with
  | none => none
  | some gr =>
    match gr.warps[is.w]? with
    | none => none
    | some w =>
      let live := Mask.of (fun l => is.lanes.has l && (w.threads.get l).live)
      let act := if k.guard.cond || k.guard.ix == 0 then live
        else Mask.of (fun l => live.has l && (w.pred k.guard.ix.toNat l != k.guard.neg))
      let prior := (w.waits.find? (fun x => x.ended && x.lanes &&& is.lanes != 0)).map (·.kind)
      some ⟨s, gr, w, is, act, prior⟩

/-- A condition guard that is false: no effect in any warp (R34). -/
def condOff (is : Issue) (k : Ctl) : Bool := k.guard.cond && !is.guard

/-- Names an instruction touches that are still pending in the scoreboard (R204, R294). -/
def WarpView.blocked (v : WarpView) (i : Instr) : Bool :=
  let names := readNames i ++ writtenNames i
  v.w.pending.any (fun p => names.contains p.name &&
    (match p.usable with
    | none => true
    | some r => v.s.coreDetermined v.gr.core && decide (v.s.vtimeOf v.gr.ctx < r)))

/-- The shared registers among names whose bit has a value (R74). -/
def Group.sharedWith (gr : Group) (w : Nat) (full : Bool) (ns : List Nat) : List Nat :=
  ns.filter (fun n =>
    match gr.sharedAt w n with
    | some (r, j) => r.full.getD j false == full
    | none => false)

/-- Shared registers that the instruction reads and finds empty (R74). -/
def WarpView.sharedEmpty (v : WarpView) (i : Instr) : List Nat := v.gr.sharedWith v.is.w false (readNames i)

/-- Shared registers that the instruction writes and finds full, unless it takes them first (R74). -/
def WarpView.sharedFull (v : WarpView) (i : Instr) (ws : List RegWrite) : List Nat :=
  let taken := hintNames i
  v.gr.sharedWith v.is.w true ((ws.filter (fun x => x.lanes != 0 && !taken.contains x.name)).map (·.name))

/-- All 32 lanes are active and the warp is not in a divergent region: last-read hints count (R35). DESIGN CHOICE (log entry 73): a handler and a
rebuild stub, which only fetch as a region does (R83, R229), do not of themselves make a region here. -/
def WarpView.hintsCount (v : WarpView) : Bool := v.active == BitVec.allOnes 32 && v.w.region.isNone

/-- Registers that the instruction's hints free (R35). -/
def WarpView.freed (v : WarpView) (i : Instr) : List Nat :=
  if v.hintsCount then (hintNames i).filter (fun n => (v.gr.sharedAt v.is.w n).isNone) else []

/-- How many registers the writes allocate, after what the hints free (R72, R73). -/
def WarpView.needs (v : WarpView) (i : Instr) (ws : List RegWrite) : Nat :=
  let free := v.freed i
  let names := (ws.filter (fun x => x.lanes != 0 && (v.gr.sharedAt v.is.w x.name).isNone)).map (·.name)
  let fresh := names.eraseDups.filter (fun n => free.contains n || !(v.w.regs.any (fun r => r.1 == n)))
  fresh.length - (free.filter (fun n => v.w.regs.any (fun r => r.1 == n))).length

/-- What every issue of a warp leaves in the threads of its path: where each goes on, and the count towards
SAFEPOINT_DISTANCE, which a SAFEPT sets to 0 (R81, R157). -/
def Thread.issued (t : Thread) (pc : Word) (counts mark : Bool) : Thread :=
  { t with pc := pc, dist := if mark then 0 else if counts then t.dist + 1 else t.dist }

/-- A SAFEPT of the mark form. -/
def isMark : Instr → Bool
  | .safept .. => true
  | _ => false

/-- The warp after an issue: the queue moves on, a thread that fetches for itself and comes to its MEET is held, %retired
counts (R65, R68, R69, R302). -/
def Warp.retire (w : Warp) (is : Issue) (jump : Option (Lanes (Option Word))) (mark : Bool) : Warp :=
  let counts := !w.privileged is.lanes
  let w := { w with
    threads := Lanes.of (fun l =>
      let t := w.threads.get l
      if is.lanes.has l then
        let t := t.issued (match jump with
          | some j => (j.get l).getD (is.pc + 1)
          | none => is.pc + 1) counts mark
        { t with held := (w.region.isSome || w.handler.isSome || t.stub) && t.pc == t.meet }
      else { t with skip := false }) }
  { w with
    atom := none
    rp := if is.queued then w.rp + 1 else w.rp
    retired := if counts then w.retired + 1 else w.retired
    gated := if is.queued then none else w.gated
    waits := w.waits.filter (fun x => x.lanes &&& is.lanes == 0) }

/-- An issue of a rebuild stub under virtual time does not count in %retired (R313). -/
def Warp.uncounted (w before : Warp) (stub : Bool) : Warp := if stub then { w with retired := before.retired } else w

def WarpView.inStub (v : WarpView) : Bool := (v.w.liveLanes (fun t => t.stub)) &&& v.is.lanes != 0

def WarpView.stubbed (v : WarpView) : Bool := v.inStub && v.s.coreDetermined v.gr.core

/-- Takes the shared registers whose hint is set: their bits become empty (R74). -/
def Group.take (gr : Group) (w : Nat) (ns : List Nat) : Group :=
  { gr with shared := gr.shared.map (fun r =>
      if r.mapsFor w then
        { r with full := (List.range r.full.length).map (fun j =>
            r.full.getD j false && !ns.contains (r.first + j)) }
      else r) }

/-- Sticky flags of some lanes set (R180). -/
def Warp.addFlags (w : Warp) (lanes : Mask) (f : Lanes (BitVec 5)) : Warp :=
  { w with threads := Lanes.of (fun l =>
      let t := w.threads.get l
      if lanes.has l then { t with flags := t.flags ||| f.get l } else t) }

/-- A name beyond v0 to v255 and k0 to k31 for an access without a register result, which delays a stop alone (R294, R301). -/
def accessName : Nat := 512

/-- The names whose results an issue holds back: what it writes, and an access as such where it has not waited for its condition. -/
def WarpView.heldNames (v : WarpView) (i : Instr) (ws : List RegWrite) : List Nat :=
  ws.map RegWrite.name ++ (if 1 < usableAfter i && v.prior.isNone then [accessName] else [])

/-- Results that the scoreboard holds back (R204, R294). -/
def Warp.holdBack (w : Warp) (names : List Nat) (usable : Option Nat) : Warp :=
  { w with pending := w.pending ++ names.map (fun n => Pending.mk n usable) }

/-- A private name that will be written takes its physical register at once (R72). -/
def Warp.allocate (w : Warp) (n : Nat) : Warp := { w with regs := regSet w.regs n (regGet w.regs n) }

def Group.allocate (gr : Group) (w : Nat) (x : RegWrite) : Group :=
  if x.lanes = 0 || (gr.sharedAt w x.name).isSome then gr else gr.modWarp w (fun wp => wp.allocate x.name)

/-- The effect of a warp instruction on its group: hints free registers, takes empty shared ones, then writes,
predicates and flags (R35, R62, R74), and the warp goes on. -/
def Group.commit (gr : Group) (v : WarpView) (i : Instr) (e : WarpEff) (usable : Option Nat) : Group :=
  let w := v.is.w
  let gr := gr.modWarp w (fun wp => { wp with regs := regFree wp.regs (v.freed i) })
  let gr := if v.active = 0 then gr else gr.take w (hintNames i)
  let gr := e.writes.foldl (fun gr x => gr.write w x) gr
  let gr := e.late.foldl (fun gr x => gr.allocate w x) gr
  let gr := gr.modWarp w (fun wp =>
    let wp := e.preds.foldl (fun wp p => wp.setPred p.1 p.2.1 p.2.2) wp
    let wp := e.flags.foldl (fun wp f => wp.addFlags v.active f) wp
    let wp := wp.holdBack (e.late.map RegWrite.name) none
    let wp := match usable with
      | some r => wp.holdBack (v.heldNames i e.writes) (some r)
      | none => wp
    (wp.retire v.is e.jump (isMark i)).uncounted wp (v.stubbed))
  { gr with x := { gr.x with waitTimer := 0 } }

/-- An instruction issued without effect in any lane still counts (R34, R81). -/
def State.passWarp (s : State) (is : Issue) : State :=
  s.modGroup is.g (fun gr =>
    let stub := s.coreDetermined gr.core && (match gr.warps[is.w]? with
      | some w => w.liveLanes (fun t => t.stub) &&& is.lanes != 0
      | none => false)
    let gr := gr.modWarp is.w (fun w => (w.retire is none false).uncounted w stub)
    { gr with x := { gr.x with waitTimer := 0 } })

/-- The lanes whose count would pass the safe-point distance with this issue (R81). -/
def WarpView.tooFar (v : WarpView) : Mask :=
  if v.w.privileged v.is.lanes then 0
  else Mask.of (fun l => v.is.lanes.has l && decide (Config.safePointLimit ≤ (v.w.threads.get l).dist))

/-- The trap that the issue takes: SAFEPOINT_DISTANCE, or the instruction's own where that has priority (R81, R226). -/
def WarpView.distanceTrap (v : WarpView) (t : Option Trap) : Option Trap :=
  if v.tooFar = 0 then t
  else
    let d := Trap.plain .safepointDistance v.tooFar
    some (match t with
      | some t => t.worse d
      | none => d)

/-- The path waits (R78). A thread in a rebuild stub may not (R83). -/
def State.blockWarp (s : State) (is : Issue) (k : WaitKind) : State :=
  s.modWarp is.g is.w (fun w =>
    { w with waits := w.waits.filter (fun x => x.lanes &&& is.lanes == 0) ++ [⟨is.lanes, k, false⟩] })

/-- The warp's earlier stores are performed with respect to its core (R119, R125). -/
def WarpView.settled (v : WarpView) : Bool :=
  v.w.stores.isEmpty && v.s.coreSees v.gr.core (fun a => a == .warp v.is.g v.is.w)

/-- A write of a shared register is a release at group scope: it waits for the warp's earlier stores (R125). -/
def WarpView.releases (v : WarpView) (ws : List RegWrite) : Bool :=
  !v.settled && ws.any (fun x => x.lanes != 0 && (v.gr.sharedAt v.is.w x.name).isSome)

/-- The time from which the warp's stall for registers lasts (R73). -/
def WarpView.stallSince (v : WarpView) : Nat :=
  match v.prior with
  | some (.registers _ t) => t
  | _ => v.s.timeOf v.gr

/-- The rotation from which the results of an issue are usable, on a determined core (R294, R313). -/
def WarpView.usableFrom (v : WarpView) (i : Instr) : Option Nat :=
  if v.s.coreDetermined v.gr.core && !v.inStub then some (v.s.vtimeOf v.gr.ctx + usableAfter i) else none

/-- The effect `e` comes about. -/
def WarpView.commit (v : WarpView) (i : Instr) (e : WarpEff) : State :=
  e.st.modGroup v.is.g (fun gr => gr.commit v i e (v.usableFrom i))

/-- The effect `e` comes about unless a register it needs is missing, in which case the warp stalls (R72 to R74). -/
def WarpView.complete (v : WarpView) (i : Instr) (e : WarpEff) : State :=
  let ws := e.writes ++ e.late
  if v.releases ws then v.s
  else if !(v.sharedFull i ws).isEmpty then
    (if v.inStub then v.s.takeTrap v.is (.plain .illegalConvergence v.is.lanes) false
     else v.s.blockWarp v.is (.sharedWrite (v.sharedFull i ws)))
  else if !v.s.regsFit v.gr (v.needs i ws) then v.s.blockWarp v.is (.registers (v.needs i ws) v.stallSince)
  else v.commit i e

/-- What comes of a warp instruction: a trap (its own or SAFEPOINT_DISTANCE), a wait, a stall, or its effect. -/
def WarpView.conclude (v : WarpView) (i : Instr) (r : WarpRes) : State :=
  match v.distanceTrap (match r with
    | .trap t => some t
    | .fault _ t => some t
    | _ => none), r with
  | some t, .fault st _ => st.takeTrap v.is t false
  | some t, _ => v.s.takeTrap v.is t false
  | none, .done e => v.complete i e
  | none, .trap t => v.s.takeTrap v.is t false
  | none, .fault _ t => v.s.takeTrap v.is t false
  | none, .wait st k =>
    if v.inStub then v.s.takeTrap v.is (.plain .illegalConvergence v.is.lanes) false else st.blockWarp v.is k
  | none, .stall st => st

/-- A warp instruction is issued: operands that are not ready hold it back; its guard and the instruction itself decide
the rest (R34, R62, R74, R204). -/
def issueWarp (i : Instr) (f : WarpView → WarpRes) (is : Issue) (s : State) : State :=
  match s.warpView is i.ctl with
  | none => s
  | some v =>
    if condOff is i.ctl then
      (match v.distanceTrap none with
      | some t => s.takeTrap is t false
      | none => s.passWarp is)
    else if v.blocked i then s
    else if v.w.atom.isNone && v.active != 0 && !(v.sharedEmpty i).isEmpty then
      (if v.inStub then s.takeTrap is (.plain .illegalConvergence is.lanes) false
       else s.blockWarp is (.sharedRead (v.sharedEmpty i)))
    else v.conclude i (f v)

/-! ### Hall forms -/

def State.hallView (s : State) (g : Nat) : Option HallView :=
  (s.group? g).map (fun gr =>
    ⟨s, gr, .hall g, gr.hall.sc, gr.hall.pc, match gr.hall.wait with
      | some x => if x.ended then some x.kind else none
      | none => none⟩)

/-- The Hall's registers after an instruction: what it writes, and what counts as written since the last safe point
(R64, R81). -/
def Hall.commit (h : Hall) (ss : List (Nat × DWord)) (cs : List (Nat × Bool)) (pc : Option Word) : Hall :=
  { h with
    sc := h.sc.put ss cs
    sinceS := ss.foldl (fun m x => m ||| BitVec.twoPow 64 x.1) h.sinceS
    sinceC := cs.foldl (fun m x => if x.1 = 0 then m else m ||| BitVec.twoPow 16 x.1) h.sinceC
    pc := pc.getD (h.pc + 1)
    dist := h.dist + 1
    wait := none }

/-- A guard of a Hall form (R34). -/
def HallView.guard (h : HallView) (k : Ctl) : Bool :=
  k.guard.ix == 0 || (h.sc.cond k.guard.ix.toNat != k.guard.neg)

/-- The trap of a Hall form, or SAFEPOINT_DISTANCE (R81, R226). -/
def HallView.distanceTrap (h : HallView) (t : Option Trap) : Option Trap :=
  if h.gr.hall.dist < Config.safePointLimit then t
  else
    let d := Trap.plain .safepointDistance 0
    some (match t with
      | some t => t.worse d
      | none => d)

def HallRes.trap? : HallRes → Option Trap
  | .trap t => some t
  | .fault _ t => some t
  | .done _ | .wait _ _ | .stall _ => none

/-- The effect of a Hall form on its Hall. -/
def HallEff.commit (e : HallEff) (g : Nat) : State := e.st.modHall g (fun x => x.commit e.s e.c e.pc)

/-- What comes of a Hall form: a fault that waits for R46, a wait, a stall, or its effect. -/
def HallView.conclude (h : HallView) (g : Nat) (r : HallRes) : State :=
  match h.distanceTrap r.trap?, r with
  | some t, .fault st _ => st.hallTrap g t
  | some t, _ => h.s.hallTrap g t
  | none, .done e => e.commit g
  | none, .wait st k => st.modHall g (fun x => { x with wait := some ⟨0, k, false⟩ })
  | none, .stall st => st
  | none, .trap t => h.s.hallTrap g t
  | none, .fault _ t => h.s.hallTrap g t

/-- The scalar registers that an instruction reads or writes; CAS, APRUN and the queue accesses read a pair (R106, R326, R329). -/
def scalarNames (i : Instr) : List Nat :=
  let pair : Bool := match i with
    | .atom _ op _ _ _ _ => op == .cas
    | .aprun .. => true
    | _ => false
  i.slots.flatMap (fun (x : Slot) =>
    match x.op with
    | .sreg r => if pair then [r.toNat, r.toNat + 1] else [r.toNat]
    | _ => [])

/-- One of the named scalars is not usable yet (R294). -/
def State.scalarPends (s : State) (gr : Group) (p : Nat → Bool) : Bool :=
  s.coreDetermined gr.core && gr.hall.pending.any (fun x => decide (s.vtimeOf gr.ctx < x.2) && p x.1)

/-- A scalar of the instruction is not usable yet (R294). -/
def State.hallPends (s : State) (gr : Group) (i : Instr) : Bool := s.scalarPends gr (fun n => (scalarNames i).contains n)

/-- Numbers beyond s0 to s63 in a Hall's pending results: a WAITMEM that found its condition at once holds the Hall itself back, any
other access of the Hall delays a stop alone (R294, R301). -/
def hallCheck : Nat := 64
def hallAccess : Nat := 65

/-- The rotations after which a Hall's access is usable (R294): its ST too. -/
def hallUsable : Instr → Nat
  | .st .. => 64
  | i => usableAfter i

/-- What a Hall form without a prior wait holds back. -/
def hallHeld (i : Instr) : List Nat :=
  match i with
  | .waitmem .. => [hallCheck]
  | _ => hallAccess :: (i.slots.filter slotWritten).flatMap (fun (x : Slot) =>
      match x.op with
      | .sreg r => [r.toNat]
      | _ => [])

/-- The scalars that an instruction wrote, with the rotation from which they are usable (R294). A wait that has ended is no check. -/
def State.holdScalars (s : State) (g : Nat) (i : Instr) (waited : Bool) : State :=
  s.modGroup g (fun gr =>
    if hallUsable i ≤ 1 || waited || !s.coreDetermined gr.core then gr
    else
      { gr with hall := { gr.hall with
          pending := gr.hall.pending.filter (fun (p : Nat × Nat) => !(hallHeld i).contains p.1) ++
            (hallHeld i).map (fun n => (n, s.vtimeOf gr.ctx + hallUsable i)) } })

def HallRes.isDone : HallRes → Bool
  | .done _ => true
  | _ => false

/-- A Hall instruction is executed; a false guard only counts (R34). -/
def issueHall (i : Instr) (f : HallView → HallRes) (g : Nat) (s : State) : State :=
  match s.hallView g with
  | none => s
  | some h =>
    if s.hallPends h.gr i then s
    else
      let r := if h.guard i.ctl then f h else .done { st := s }
      let t := h.conclude g r
      if h.guard i.ctl && r.isDone then t.holdScalars g i h.prior.isSome else t

/-! ### Access programs (R321, R327) -/

def Group.program? (gr : Group) (p : Nat) : Option ApProgram := gr.x.programs.find? (fun q => q.id == p)

def State.modProgram (s : State) (g p : Nat) (f : ApProgram → ApProgram) : State :=
  s.modX g (fun x => { x with programs := x.programs.map (fun q => if q.id == p then f q else q) })

def State.apView (s : State) (g p : Nat) : Option HallView :=
  match s.group? g with
  | none => none
  | some gr => (gr.program? p).map (fun q => ⟨s, gr, .ap g p, q.sc, q.pc, none⟩)

/-- A fault of an access program: it stops before the instruction, and its record is written; an uncorrectable error
raises the halt line (R327). -/
def State.apFault (s : State) (g p : Nat) (t : Trap) : State :=
  match s.group? g with
  | none => s
  | some gr =>
    let pc := ((gr.program? p).map (·.pc)).getD 0
    if t.cause = .uncorrectableEcc then
      s.raiseHalt gr.ctx (.accessProc gr.core)
        { s.warpInfo gr 0 t t.mask pc t.cause.code with warp := 0xFF, group := 0xFF } false
    else s.modProgram g p (fun q => { q with state := .stopped, stalled := false, fault := some (t, q.pc) })

/-- The effect of a Hall form on an access program. -/
def HallView.commitAp (h : HallView) (g p : Nat) (e : HallEff) : State :=
  e.st.modProgram g p (fun q => { q with sc := q.sc.put e.s e.c, pc := e.pc.getD (h.pc + 1), stalled := false })

def HallView.concludeAp (h : HallView) (g p : Nat) (r : HallRes) : State :=
  match r with
  | .done e => h.commitAp g p e
  | .trap t => h.s.apFault g p t
  | .fault st t => st.apFault g p t
  | .wait st _ | .stall st => st.modProgram g p (fun q => { q with stalled := true })

/-- An instruction of an access program is executed. -/
def issueAp (i : Instr) (f : HallView → HallRes) (g p : Nat) (s : State) : State :=
  match s.apView g p with
  | none => s
  | some h => h.concludeAp g p (if h.guard i.ctl then f h else .done { st := s })

/-! ### Who issues -/

/-- An instruction with a warp form only: no Hall and no access program executes it. -/
def runWarp (i : Instr) (f : WarpView → WarpRes) (s : State) : Host.Outcome State Fault Refusal :=
  finish s (match s.issuer with
    | .warp is => issueWarp i f is s
    | .hall _ | .ap _ _ | .none => s)

/-- An instruction with a Hall form only. -/
def runHall (i : Instr) (f : HallView → HallRes) (s : State) : Host.Outcome State Fault Refusal :=
  finish s (match s.issuer with
    | .hall g => issueHall i f g s
    | .warp _ | .ap _ _ | .none => s)

/-- An instruction with both forms; an access program executes the Hall form (R323). -/
def runBoth (i : Instr) (fh : HallView → HallRes) (fw : WarpView → WarpRes) (s : State) :
    Host.Outcome State Fault Refusal :=
  finish s (match s.issuer with
    | .hall g => issueHall i fh g s
    | .warp is => issueWarp i fw is s
    | .ap g p => issueAp i fh g p s
    | .none => s)

/-- An instruction that only an access program executes (R323). -/
def runAp (i : Instr) (f : HallView → HallRes) (s : State) : Host.Outcome State Fault Refusal :=
  finish s (match s.issuer with
    | .ap g p => issueAp i f g p s
    | .hall _ | .warp _ | .none => s)

end Sys2Proof.Machine
end

