-- ==== Sys2Proof/Machine/Flags.lean ====
section
/-! DEFINITION. The computations behind results, carries, comparisons and predicate bits: values of elements, wrapping and
saturation (R62, R131), carries (R136), comparisons (R140), and predicate and condition results (R140, R153). -/

namespace Sys2Proof.Machine

open Sys2Proof

/-- Bits of an element type (R52). -/
def widthBits : IWidth → Nat
  | .b4 => 4
  | .b8 => 8
  | .b16 => 16
  | .b32 => 32
  | .b64 => 64

/-- The value of the low `n` bits (R131). -/
def bitsVal (signed : Bool) (n : Nat) (x : DWord) : Int :=
  if signed then (x.truncate n).toInt else ((x.truncate n).toNat : Int)

/-- The least and greatest value of a type. -/
def typeMin (signed : Bool) (n : Nat) : Int := if signed then -(2 ^ (n - 1)) else 0
def typeMax (signed : Bool) (n : Nat) : Int := if signed then 2 ^ (n - 1) - 1 else 2 ^ n - 1

/-- Sat(x, type) (R62). -/
def satInt (signed : Bool) (n : Nat) (r : Int) : Int := max (typeMin signed n) (min (typeMax signed n) r)

/-- Wrap(x, n) as the low bits of a register (R62). -/
def wrapBits (n : Nat) (r : Int) : DWord := (BitVec.ofInt n r).setWidth 64

/-- Fix(r): the `n` bits stored for an exact result (R131). -/
def fixBits (sat signed : Bool) (n : Nat) (r : Int) : DWord :=
  wrapBits n (if sat then satInt signed n r else r)

/-- The low `n` bits extended to 64 (R131). -/
def extend64 (signed : Bool) (n : Nat) (x : DWord) : DWord :=
  if signed then (x.truncate n).signExtend 64 else (x.truncate n).setWidth 64

/-- Element `e` of width `n` of a register. -/
def elemBits (n e : Nat) (x : Word) : DWord := ((x >>> (n * e)).setWidth 64) &&& (BitVec.ofNat 64 (2 ^ n - 1))

/-- A register from its elements of width `n`. -/
def packElems (n : Nat) (f : Nat → DWord) : Word :=
  (List.range (32 / n)).foldl (fun w e => w ||| (((f e).setWidth 32 &&& BitVec.ofNat 32 (2 ^ n - 1)) <<< (n * e))) 0

/-- Sum and carry out of `n` bits (R136). -/
def addCarry (n : Nat) (x y : DWord) (cin : Bool) : DWord × Bool :=
  let t := (x.truncate n).toNat + (y.truncate n).toNat + (if cin then 1 else 0)
  (BitVec.ofNat 64 (t % 2 ^ n), decide (2 ^ n ≤ t))

/-- x cmp y (R140). -/
def intCompare (c : ICmp) (x y : Int) : Bool :=
  match c with
  | .eq => x == y
  | .ne => x != y
  | .lt => decide (x < y)
  | .le => decide (x ≤ y)
  | .gt => decide (y < x)
  | .ge => decide (y ≤ x)

/-- The index of a predicate or condition operand. -/
def bitIx : Operand → Nat
  | .pred i => i.toNat
  | .cond i => i.toNat
  | _ => 0

/-- A predicate result in the active lanes. -/
def WarpView.setBit (v : WarpView) (a : Operand) (f : Nat → Bool) : List (Nat × Mask × Mask) :=
  [(bitIx a, v.active, Mask.of (fun l => v.active.has l && f l))]

/-- A condition result. -/
def condWrite (a : Operand) (b : Bool) : List (Nat × Bool) := [(bitIx a, b)]

end Sys2Proof.Machine
end

