-- ==== Sys2Proof/Machine/Integer.lean ====
section
/-! DEFINITION. Integer arithmetic (R130 to R141). -/

namespace Sys2Proof.Machine

open Sys2Proof

/-! ### The common form (R131) -/

/-- An exact operation on values: the element width, B, C and the old A. -/
abbrev IntFn := Nat → Int → Int → Int → Int

/-- One element: the values taken by TYPE, the result fixed (R131). -/
def intElem (m : IntMod) (n : Nat) (f : IntFn) (x y z : DWord) : DWord :=
  fixBits m.sat m.ty.signed n (f n (bitsVal m.ty.signed n x) (bitsVal m.ty.signed n y) (bitsVal m.ty.signed n z))

/-- Element `e` of a packed source; every element takes the low bits of an immediate (R131). -/
def WarpView.elem (v : WarpView) (signed : Bool) (n : Nat) (o : Operand) (l e : Nat) : DWord :=
  match o with
  | .imm x => immValue signed x
  | _ => elemBits n e (v.rPacked o l)

/-- A source of a result that no packing fills: 32 bits after ESEL, or 64. -/
def WarpView.scalarSrc (v : WarpView) (signed w64 : Bool) (o : Operand) (l : Nat) : DWord :=
  if w64 then v.r64 signed o l else (v.r32 signed o l).setWidth 64

/-- The results of the warp form of an integer operation. `old` says that A is read (R132). -/
def WarpView.intWrites (v : WarpView) (m : IntMod) (f : IntFn) (old : Bool) (a b c : Operand) : List RegWrite :=
  let n := widthBits m.ty.w
  let sg := m.ty.signed
  if m.pk then
    v.w32 a (fun l => packElems n (fun e =>
      intElem m n f (v.elem sg n b l e) (v.elem sg n c l e) (if old then v.elem sg n a l e else 0)))
  else if n = 64 then
    v.w64 a (fun l => intElem m n f (v.r64 sg b l) (v.r64 sg c l) (if old then v.r64 sg a l else 0))
  else
    v.w32 a (fun l => (extend64 sg n (intElem m n f (v.scalarSrc sg false b l) (v.scalarSrc sg false c l)
      (if old then v.scalarSrc sg false a l else 0))).setWidth 32)

def warpInt (m : IntMod) (f : IntFn) (old : Bool) (a b c : Operand) (v : WarpView) : WarpRes :=
  .write v (v.intWrites m f old a b c)

/-- The result of the Hall form: the low bits of the s registers, extended to 64 bits (R131). -/
def HallView.intValue (h : HallView) (m : IntMod) (f : IntFn) (a b c : Operand) : DWord :=
  let n := widthBits m.ty.w
  let sg := m.ty.signed
  extend64 sg n (intElem m n f (h.r64 sg b) (h.r64 sg c) (h.r64 sg a))

def hallInt (m : IntMod) (f : IntFn) (a b c : Operand) (h : HallView) : HallRes := .write h a (h.intValue m f a b c)

/-! ### Operations -/

def fnAdd : IntFn := fun _ x y _ => x + y
def fnSub : IntFn := fun _ x y _ => x - y
def fnMul : IntFn := fun _ x y _ => x * y
/-- The high bits of the product, which no type clamps (R133). -/
def fnMulh : IntFn := fun n x y _ => (x * y) / (2 ^ n : Int)
def fnMad : IntFn := fun _ x y z => x * y + z
/-- Division truncating toward zero; a divisor of 0 gives all ones (R134). The quotient of the least value by −1 wraps. -/
def fnDiv : IntFn := fun _ x y _ => if y = 0 then -1 else x.tdiv y
def fnRem : IntFn := fun _ x y _ => if y = 0 then x else x.tmod y
def fnMin : IntFn := fun _ x y _ => min x y
def fnMax : IntFn := fun _ x y _ => max x y
def fnAbs : IntFn := fun _ x _ _ => if x < 0 then -x else x
def fnNeg : IntFn := fun _ x _ _ => -x

/-! ### Meanings -/

/-- IADD (R133). -/
def execIadd (k : Ctl) (m : IntMod) (a b c : Operand) (s : State) : Host.Outcome State Fault Refusal :=
  runBoth (.iadd k m a b c) (hallInt m fnAdd a b c) (warpInt m fnAdd false a b c) s

/-- ISUB (R133). -/
def execIsub (k : Ctl) (m : IntMod) (a b c : Operand) (s : State) : Host.Outcome State Fault Refusal :=
  runBoth (.isub k m a b c) (hallInt m fnSub a b c) (warpInt m fnSub false a b c) s

/-- IMUL (R133). -/
def execImul (k : Ctl) (m : IntMod) (a b c : Operand) (s : State) : Host.Outcome State Fault Refusal :=
  runBoth (.imul k m a b c) (hallInt m fnMul a b c) (warpInt m fnMul false a b c) s

/-- IMULH (R133). -/
def execImulh (k : Ctl) (m : IntMod) (a b c : Operand) (s : State) : Host.Outcome State Fault Refusal :=
  runBoth (.imulh k m a b c) (hallInt m fnMulh a b c) (warpInt m fnMulh false a b c) s

/-- IMAD (R133). -/
def execImad (k : Ctl) (m : IntMod) (a b c : Operand) (s : State) : Host.Outcome State Fault Refusal :=
  runBoth (.imad k m a b c) (hallInt m fnMad a b c) (warpInt m fnMad true a b c) s

/-- IDIV (R134). -/
def execIdiv (k : Ctl) (m : IntMod) (a b c : Operand) (s : State) : Host.Outcome State Fault Refusal :=
  runBoth (.idiv k m a b c) (hallInt m fnDiv a b c) (warpInt m fnDiv false a b c) s

/-- IREM (R134). -/
def execIrem (k : Ctl) (m : IntMod) (a b c : Operand) (s : State) : Host.Outcome State Fault Refusal :=
  runBoth (.irem k m a b c) (hallInt m fnRem a b c) (warpInt m fnRem false a b c) s

/-- IMIN (R135). -/
def execImin (k : Ctl) (m : IntMod) (a b c : Operand) (s : State) : Host.Outcome State Fault Refusal :=
  runBoth (.imin k m a b c) (hallInt m fnMin a b c) (warpInt m fnMin false a b c) s

/-- IMAX (R135). -/
def execImax (k : Ctl) (m : IntMod) (a b c : Operand) (s : State) : Host.Outcome State Fault Refusal :=
  runBoth (.imax k m a b c) (hallInt m fnMax a b c) (warpInt m fnMax false a b c) s

/-- IABS (R135). -/
def execIabs (k : Ctl) (m : IntMod) (a b : Operand) (s : State) : Host.Outcome State Fault Refusal :=
  runBoth (.iabs k m a b) (hallInt m fnAbs a b b) (warpInt m fnAbs false a b b) s

/-- INEG (R135). -/
def execIneg (k : Ctl) (m : IntMod) (a b : Operand) (s : State) : Host.Outcome State Fault Refusal :=
  runBoth (.ineg k m a b) (hallInt m fnNeg a b b) (warpInt m fnNeg false a b b) s

/-- The carry into an IADDC: none for index 0 (R136). -/
def carryIn (ix : Nat) (c : Bool) : Bool := ix != 0 && c

def hallIaddc (w64 : Bool) (ix : Nat) (a b c : Operand) (h : HallView) : HallRes :=
  let n := if w64 then 64 else 32
  let (r, co) := addCarry n (h.r64 false b) (h.r64 false c) (carryIn ix (h.sc.cond ix))
  .done { st := h.s, s := sWrite a r, c := [(ix, co)] }

def warpIaddc (w64 : Bool) (ix : Nat) (a b c : Operand) (v : WarpView) : WarpRes :=
  let n := if w64 then 64 else 32
  let r := fun l => addCarry n (v.scalarSrc false w64 b l) (v.scalarSrc false w64 c l) (carryIn ix (v.w.pred ix l))
  .done { st := v.s,
          writes := if w64 then v.w64 a (fun l => (r l).1) else v.w32 a (fun l => (r l).1.setWidth 32),
          preds := [(ix, v.active, Mask.of (fun l => v.active.has l && (r l).2))] }

/-- IADDC (R136). DESIGN CHOICE (log entry 74): both widths stand in both forms. -/
def execIaddc (k : Ctl) (w64 : Bool) (ix : BitVec 4) (a b c : Operand) (s : State) :
    Host.Outcome State Fault Refusal :=
  runBoth (.iaddc k w64 ix a b c) (hallIaddc w64 ix.toNat a b c) (warpIaddc w64 ix.toNat a b c) s

/-- The accumulator of ISAD: 32 bits, or 64 for a 64-bit type, unsigned (R137). -/
def sadAcc (m : IntMod) (acc : DWord) (d : Int) : DWord :=
  let w := if m.ty.w = .b64 then 64 else 32
  fixBits m.sat false w (bitsVal false w acc + d)

/-- The sum of absolute differences over the elements (R137). -/
def sadSum (m : IntMod) (x y : Nat → DWord) : Int :=
  let n := widthBits m.ty.w
  let count := if m.pk then 32 / n else 1
  (List.range count).foldl (fun t e =>
    let d := bitsVal m.ty.signed n (x e) - bitsVal m.ty.signed n (y e)
    t + (if d < 0 then -d else d)) 0

def hallIsad (m : IntMod) (a b c : Operand) (h : HallView) : HallRes :=
  .done { st := h.s, s := sWrite a (sadAcc m (h.r64 false a)
    (sadSum m (fun _ => h.r64 m.ty.signed b) (fun _ => h.r64 m.ty.signed c))) }

def warpIsad (m : IntMod) (a b c : Operand) (v : WarpView) : WarpRes :=
  let n := widthBits m.ty.w
  let sg := m.ty.signed
  let src := fun o l e => if m.pk then v.elem sg n o l e else v.scalarSrc sg (n == 64) o l
  .done { st := v.s, writes :=
    if n = 64 then v.w64 a (fun l => sadAcc m (v.r64 false a l) (sadSum m (src b l) (src c l)))
    else v.w32 a (fun l => (sadAcc m (v.scalarSrc false false a l) (sadSum m (src b l) (src c l))).setWidth 32) }

/-- ISAD (R137). -/
def execIsad (k : Ctl) (m : IntMod) (a b c : Operand) (s : State) : Host.Outcome State Fault Refusal :=
  runBoth (.isad k m a b c) (hallIsad m a b c) (warpIsad m a b c) s

/-- The dot product of four bytes added to an accumulator (R138). -/
def dot4 (bs cs sat : Bool) (acc x y : Word) : Word :=
  let sum := (List.range 4).foldl
    (fun t e => t + bitsVal bs 8 (elemBits 8 e x) * bitsVal cs 8 (elemBits 8 e y)) acc.toInt
  (fixBits sat true 32 sum).setWidth 32

/-- IDOT4 (R138). -/
def execIdot4 (k : Ctl) (bs cs sat : Bool) (a b c : Operand) (s : State) : Host.Outcome State Fault Refusal :=
  runWarp (.idot4 k bs cs sat a b c) (fun v => .write v
    (v.w32 a (fun l => dot4 bs cs sat (v.r32 true a l) (v.rPacked b l) (v.rPacked c l)))) s

/-- Activations added or subtracted by the sign of their weights (R139). -/
def signAcc (sgn sat : Bool) (acc w x : Word) : Word :=
  let sum := (List.range 4).foldl
    (fun t e =>
      let wt := bitsVal true 8 (elemBits 8 e w)
      let xv := bitsVal sgn 8 (elemBits 8 e x)
      if 0 < wt then t + xv else if wt < 0 then t - xv else t) acc.toInt
  (fixBits sat true 32 sum).setWidth 32

/-- A packed byte source, an immediate giving every byte its low bits (R131). -/
def WarpView.bytes4 (v : WarpView) (signed : Bool) (o : Operand) (l : Nat) : Word :=
  packElems 8 (fun e => v.elem signed 8 o l e)

/-- ASACC (R139). -/
def execAsacc (k : Ctl) (sgn sat : Bool) (a b c : Operand) (s : State) : Host.Outcome State Fault Refusal :=
  runWarp (.asacc k sgn sat a b c) (fun v => .write v
    (v.w32 a (fun l => signAcc sgn sat (v.r32 true a l) (v.bytes4 sgn b l) (v.bytes4 sgn c l)))) s

/-- Bits of a 32-bit or 64-bit type. -/
def longBits (w64 : Bool) : Nat := if w64 then 64 else 32

def hallIcmp (cmp : ICmp) (ty : LongTy) (a b c : Operand) (h : HallView) : HallRes :=
  let n := longBits ty.w64
  .done { st := h.s, c := condWrite a (intCompare cmp (bitsVal ty.signed n (h.r64 ty.signed b))
    (bitsVal ty.signed n (h.r64 ty.signed c))) }

def warpIcmp (cmp : ICmp) (ty : LongTy) (a b c : Operand) (v : WarpView) : WarpRes :=
  let n := longBits ty.w64
  .done { st := v.s, preds := v.setBit a (fun l =>
    intCompare cmp (bitsVal ty.signed n (v.scalarSrc ty.signed ty.w64 b l))
      (bitsVal ty.signed n (v.scalarSrc ty.signed ty.w64 c l))) }

/-- ICMP (R140). -/
def execIcmp (k : Ctl) (cmp : ICmp) (ty : LongTy) (a b c : Operand) (s : State) :
    Host.Outcome State Fault Refusal :=
  runBoth (.icmp k cmp ty a b c) (hallIcmp cmp ty a b c) (warpIcmp cmp ty a b c) s

/-- A Hall result of 32 bits is zero-extended, one of 64 bits stands as it is. -/
def hallWide (w64 : Bool) (x : DWord) : DWord := if w64 then x else (x.truncate 32).setWidth 64

/-- The write of a 32-bit or 64-bit result. -/
def WarpView.wLong (v : WarpView) (w64 : Bool) (a : Operand) (f : Nat → DWord) : List RegWrite :=
  if w64 then v.w64 a f else v.w32 a (fun l => (f l).setWidth 32)

/-- ISEL (R141). -/
def execIsel (k : Ctl) (neg : Bool) (ix : BitVec 4) (ty : LongTy) (a b c : Operand) (s : State) :
    Host.Outcome State Fault Refusal :=
  runBoth (.isel k neg ix ty a b c)
    (fun h => .write h a (if h.sc.cond ix.toNat != neg then h.r64 ty.signed b else h.r64 ty.signed c))
    (fun v => .write v (v.wLong ty.w64 a (fun l =>
      if v.w.pred ix.toNat l != neg then v.scalarSrc ty.signed ty.w64 b l else v.scalarSrc ty.signed ty.w64 c l))) s

end Sys2Proof.Machine
end

