-- ==== Sys2Proof/Machine/Round.lean ====
section
/-! DEFINITION. Floating-point values (R170 to R175) and the one rounding of an exact result to a format (R176 to R178,
R184). -/

namespace Sys2Proof.Machine

open Sys2Proof

/-! ### Formats (R170, R171) -/

/-- Exponent bits, fraction bits and bias of a format (R170). -/
def fmtE : Fmt → Nat
  | .f64 => 11
  | .f32 | .bf16 => 8
  | .f16 | .e5m2 => 5
  | .e4m3 => 4

def fmtF : Fmt → Nat
  | .f64 => 52
  | .f32 => 23
  | .f16 => 10
  | .bf16 => 7
  | .e4m3 => 3
  | .e5m2 => 2

def fmtBias (f : Fmt) : Nat := 2 ^ (fmtE f - 1) - 1

/-- Bits of a value. -/
def fmtBits (f : Fmt) : Nat := 1 + fmtE f + fmtF f

/-- The canonical NaN (R170). -/
def fmtCanon : Fmt → Nat
  | .f64 => 0x7FF8000000000000
  | .f32 => 0x7FC00000
  | .f16 => 0x7E00
  | .bf16 => 0x7FC0
  | .e4m3 => 0x7F
  | .e5m2 => 0x7E

/-- The magnitude code of infinity; E4M3 has none and gives its NaN (R177). -/
def fmtInf (f : Fmt) : Nat :=
  match f with
  | .e4m3 => 0x7F
  | _ => (2 ^ fmtE f - 1) * 2 ^ fmtF f

/-- The magnitude code of the largest finite value (R170). -/
def fmtMax (f : Fmt) : Nat :=
  match f with
  | .e4m3 => 0x7E
  | _ => fmtInf f - 1

/-- The exponent of the largest finite values. -/
def fmtTop (f : Fmt) : Int :=
  match f with
  | .e4m3 => 8
  | _ => fmtBias f

/-- A value (R170, R171): a NaN with whether it signals, an infinity with its sign, or (−1)^neg × m × 2^e. -/
inductive FVal where
  | nan (signalling : Bool)
  | inf (neg : Bool)
  | fin (neg : Bool) (m : Nat) (e : Int)
  deriving DecidableEq, Repr

/-- The value that the low bits of a register hold (R170, R171). -/
def fval (f : Fmt) (x : DWord) : FVal :=
  let n := x.toNat % 2 ^ fmtBits f
  let neg := decide (2 ^ (fmtE f + fmtF f) ≤ n)
  let e := n / 2 ^ fmtF f % 2 ^ fmtE f
  let fr := n % 2 ^ fmtF f
  if e = 2 ^ fmtE f - 1 ∧ ¬(f = .e4m3 ∧ fr ≠ 7) then
    if f = .e4m3 then .nan false
    else if fr = 0 then .inf neg
    else .nan (!fr.testBit (fmtF f - 1))
  else if e = 0 then .fin neg fr (1 - fmtBias f - fmtF f)
  else .fin neg (2 ^ fmtF f + fr) ((e : Int) - fmtBias f - fmtF f)

def FVal.isNan : FVal → Bool
  | .nan _ => true
  | _ => false

def FVal.signals : FVal → Bool
  | .nan s => s
  | _ => false

def FVal.isZero : FVal → Bool
  | .fin _ m _ => m == 0
  | _ => false

def FVal.isInf : FVal → Bool
  | .inf _ => true
  | _ => false

/-- The sign; false for a NaN. -/
def FVal.sign : FVal → Bool
  | .nan _ => false
  | .inf s => s
  | .fin s _ _ => s

def FVal.neg : FVal → FVal
  | .nan s => .nan s
  | .inf s => .inf (!s)
  | .fin s m e => .fin (!s) m e

/-- The value of an integer. -/
def fvalInt (n : Int) : FVal := .fin (decide (n < 0)) n.natAbs 0

/-- The value of a scale byte (R175). -/
def scaleVal (x : Nat) : FVal :=
  let e := x / 16 % 16
  let m := x % 16
  if e = 0 then .fin false m (-10) else .fin false (16 + m) ((e : Int) - 11)

/-! ### Flags (R180, R181) -/

def flagNV : BitVec 5 := 16
def flagDZ : BitVec 5 := 8
def flagOF : BitVec 5 := 4
def flagUF : BitVec 5 := 2
def flagNX : BitVec 5 := 1

/-- A result and the flags it raises. -/
structure FRes where
  bits : DWord
  flags : BitVec 5
  deriving DecidableEq, Repr

/-- The canonical NaN with flags (R179). -/
def fCanon (f : Fmt) (flags : BitVec 5) : FRes := ⟨BitVec.ofNat 64 (fmtCanon f), flags⟩

/-- NV where a NaN operand signals (R179). -/
def nanFlag (vs : List FVal) : BitVec 5 := if vs.any FVal.signals then flagNV else 0

/-- A magnitude code with its sign. -/
def fSigned (f : Fmt) (neg : Bool) (mag : Nat) : DWord :=
  BitVec.ofNat 64 (if neg then 2 ^ (fmtE f + fmtF f) + mag else mag)

/-- The infinity of a sign; in E4M3 the canonical NaN (R177). -/
def fInf (f : Fmt) (neg : Bool) : DWord :=
  match f with
  | .e4m3 => BitVec.ofNat 64 (fmtCanon f)
  | _ => fSigned f neg (fmtInf f)

/-! ### Rounding (R176 to R178) -/

/-- The magnitude is rounded up: the parity of the kept part, the rest compared with one half and whether there is any
rest (R176). -/
def roundsUp (rm : Rnd) (neg odd : Bool) (half : Ordering) (rest : Bool) : Bool :=
  match rm with
  | .rn | .dyn => half == .gt || (half == .eq && odd)
  | .ra => half != .lt
  | .rz => false
  | .ru => rest && !neg
  | .rd => rest && neg

/-- The magnitude (n + δ) × 2^e, with 0 ≤ δ < 1 and δ ≠ 0 where `sticky`, as a multiple of 2^q, with whether
anything was lost. `n` has at least two bits below 2^q where `sticky`. -/
def roundTo (rm : Rnd) (neg : Bool) (n : Nat) (e : Int) (sticky : Bool) (q : Int) : Nat × Bool :=
  if q ≤ e then (n * 2 ^ (e - q).toNat, sticky)
  else
    let sh := min (q - e).toNat (n.log2 + 3)
    let kept := n / 2 ^ sh
    let rem := n % 2 ^ sh
    let rest := rem != 0 || sticky
    let half := if rem = 2 ^ (sh - 1) then (if sticky then Ordering.gt else .eq) else compare rem (2 ^ (sh - 1))
    (if roundsUp rm neg (kept % 2 == 1) half rest then kept + 1 else kept, rest)

/-- The result that overflows (R177). -/
def overflowBits (f : Fmt) (rm : Rnd) (neg : Bool) : DWord :=
  match rm, neg with
  | .rz, _ => fSigned f neg (fmtMax f)
  | .ru, true => fSigned f neg (fmtMax f)
  | .rd, false => fSigned f neg (fmtMax f)
  | _, _ => fInf f neg

/-- Round of an exact magnitude (n + δ) × 2^e of a sign to a format, with its flags (R176 to R178). -/
def roundMag (f : Fmt) (rm : Rnd) (neg : Bool) (n : Nat) (e : Int) (sticky : Bool) : FRes :=
  if n = 0 then ⟨fSigned f neg 0, 0⟩
  else
    let fb : Int := fmtF f
    let q := e + n.log2 - fb
    let qMin : Int := 1 - fmtBias f - fb
    let u := (roundTo rm neg n e sticky q).1
    let top := q + u.log2
    if fmtTop f < top || (f == .e4m3 && top == 8 && u == 15) then ⟨overflowBits f rm neg, flagOF ||| flagNX⟩
    else
      let r := roundTo rm neg n e sticky (max q qMin)
      let mag := ((max q qMin + fb + fmtBias f - 1) * 2 ^ fmtF f).toNat + r.1
      let tiny := decide (top < 1 - fmtBias f)
      ⟨fSigned f neg mag, (if r.2 then flagNX else 0) ||| (if r.2 && tiny then flagUF else 0)⟩

/-- Round of a value: NaNs are canonical, infinities kept (R176 to R179). -/
def roundVal (f : Fmt) (rm : Rnd) : FVal → FRes
  | .nan s => fCanon f (if s then flagNV else 0)
  | .inf s => ⟨fInf f s, 0⟩
  | .fin s m e => roundMag f rm s m e false

/-! ### Exact sums and products (R176) -/

/-- An exact product; 0 × ∞ is a NaN that signals (R185). -/
def FVal.mul : FVal → FVal → FVal
  | .nan a, y => .nan (a || y.signals)
  | x, .nan b => .nan (x.signals || b)
  | .inf a, .inf b => .inf (a != b)
  | .inf a, .fin b m _ => if m = 0 then .nan true else .inf (a != b)
  | .fin a m _, .inf b => if m = 0 then .nan true else .inf (a != b)
  | .fin a m e, .fin b n k => .fin (a != b) (m * n) (e + k)

/-- The exact sum of terms, and for a zero the sign of R176; +∞ with −∞ is a NaN that signals. -/
def fSum (rm : Rnd) (ts : List FVal) : FVal :=
  if ts.any FVal.isNan then .nan (ts.any FVal.signals)
  else if ts.any FVal.isInf then
    (if ts.any (fun t => t == .inf true) && ts.any (fun t => t == .inf false) then .nan true
     else .inf (ts.any (fun t => t == .inf true)))
  else
    let low := ts.foldl (fun l t => match t with
      | .fin _ m e => if m = 0 then l else (match l with
        | some k => some (min k e)
        | none => some e)
      | _ => l) (none : Option Int)
    match low with
    | none =>
      let signs := ts.map FVal.sign
      .fin (if signs.all id then true else if signs.all (!·) then false else rm == .rd) 0 0
    | some k =>
      let sum := ts.foldl (fun a t => match t with
        | .fin s m e => if m = 0 then a else if s then a - ((m * 2 ^ (e - k).toNat : Nat) : Int) else a + ((m * 2 ^ (e - k).toNat : Nat) : Int)
        | _ => a) (0 : Int)
      if sum = 0 then .fin (rm == .rd) 0 0 else .fin (decide (sum < 0)) sum.natAbs k

/-- The greatest number whose square is at most `n`, for n below 4^`bits`. -/
def natSqrt (bits n : Nat) : Nat :=
  (List.range bits).foldl (fun r i =>
    let t := r + 2 ^ (bits - 1 - i)
    if t * t ≤ n then t else r) 0

end Sys2Proof.Machine
end

