-- ==== Sys2Proof/Machine/Float.lean ====
section
/-! DEFINITION. Floating-point instructions (R182 to R200). -/

namespace Sys2Proof.Machine

open Sys2Proof

/-! ### Operands and results (R183) -/

/-- The rounding mode of a code in %fpstat.RM (R52, R181). -/
def rmOf (code : Nat) : Rnd :=
  match code with
  | 2 => .ra
  | 3 => .rz
  | 4 => .ru
  | 5 => .rd
  | _ => .rn

/-- The mode of an instruction: its own, or the warp's (R176). -/
def WarpView.mode (v : WarpView) (rm : Rnd) : Rnd :=
  match rm with
  | .dyn => rmOf v.w.rm.toNat
  | m => m

/-- An immediate of a format (R183). -/
def floatImm (f : Fmt) (x : BitVec 20) : DWord :=
  match f with
  | .f64 => x.setWidth 64 <<< 44
  | .f32 => x.setWidth 64 <<< 12
  | _ => x.setWidth 64

/-- Element `e` of a source of format `f` as lane `l` reads it (R183). -/
def WarpView.fbits (v : WarpView) (f : Fmt) (pk : Bool) (o : Operand) (l e : Nat) : DWord :=
  match o with
  | .imm x => floatImm f x
  | _ =>
    if f = .f64 then v.r64 false o l
    else if pk then elemBits 16 e (v.rPacked o l)
    else (v.r32 false o l).setWidth 64 &&& BitVec.ofNat 64 (2 ^ fmtBits f - 1)

def WarpView.fval (v : WarpView) (f : Fmt) (pk : Bool) (o : Operand) (l e : Nat) : FVal :=
  Machine.fval f (v.fbits f pk o l e)

/-- Writes of results of a format, lane by lane and element by element (R40, R183). -/
def WarpView.fdest (v : WarpView) (f : Fmt) (pk : Bool) (a : Operand) (r : Nat → Nat → DWord) : List RegWrite :=
  if pk then v.w32 a (fun l => packElems 16 (r l))
  else if f = .f64 then v.w64 a (fun l => r l 0)
  else v.w32 a (fun l => (r l 0).setWidth 32)

/-- The union of the flags of a lane's elements (R180). -/
def laneFlags (pk : Bool) (r : Nat → Nat → FRes) : Lanes (BitVec 5) :=
  Lanes.of (fun l => if pk then (r l 0).flags ||| (r l 1).flags else (r l 0).flags)

/-- An instruction that writes results of a format and raises their flags. -/
def WarpView.fdone (v : WarpView) (f : Fmt) (pk : Bool) (a : Operand) (r : Nat → Nat → FRes) : WarpRes :=
  .done { st := v.s, writes := v.fdest f pk a (fun l e => (r l e).bits), flags := [laneFlags pk r] }

/-- A one-operand instruction of R182. -/
def WarpView.fun1 (v : WarpView) (m : FloatMod) (a b : Operand) (f : Rnd → FVal → DWord → FRes) : WarpRes :=
  v.fdone m.fmt m.pk a (fun l e => f (v.mode m.rm) (v.fval m.fmt m.pk b l e) (v.fbits m.fmt m.pk b l e))

/-- A two-operand instruction of R182. -/
def WarpView.fun2 (v : WarpView) (m : FloatMod) (a b c : Operand) (f : Rnd → FVal → FVal → FRes) : WarpRes :=
  v.fdone m.fmt m.pk a (fun l e => f (v.mode m.rm) (v.fval m.fmt m.pk b l e) (v.fval m.fmt m.pk c l e))

/-! ### Basic arithmetic (R185) -/

def addRes (f : Fmt) (rm : Rnd) (x y : FVal) : FRes := roundVal f rm (fSum rm [x, y])
def mulRes (f : Fmt) (rm : Rnd) (x y : FVal) : FRes := roundVal f rm (x.mul y)

/-- One factor is 0 and the other infinite. -/
def zeroTimesInf (x y : FVal) : Bool := (x.isZero && y.isInf) || (x.isInf && y.isZero)

/-- The fused multiply-add: 0 × ∞ raises NV whatever the addend (R185). -/
def ffmaRes (f : Fmt) (rm : Rnd) (np na : Bool) (x y z : FVal) : FRes :=
  let p := x.mul y
  let p := if np then p.neg else p
  let z := if na then z.neg else z
  if zeroTimesInf x y then fCanon f flagNV else roundVal f rm (fSum rm [p, z])

/-- The quotient, correctly rounded (R185). -/
def divRes (f : Fmt) (rm : Rnd) (x y : FVal) : FRes :=
  match x, y with
  | .nan a, y => fCanon f (if a || y.signals then flagNV else 0)
  | x, .nan b => fCanon f (if b || x.signals then flagNV else 0)
  | .inf _, .inf _ => fCanon f flagNV
  | .inf a, .fin b _ _ => ⟨fInf f (a != b), 0⟩
  | .fin a _ _, .inf b => ⟨fSigned f (a != b) 0, 0⟩
  | .fin a m e, .fin b n k =>
    if n = 0 then (if m = 0 then fCanon f flagNV else ⟨fInf f (a != b), flagDZ⟩)
    else
      let up := m * 2 ^ 130
      roundMag f rm (a != b) (up / n) (e - k - 130) (up % n != 0)

/-- The square root, correctly rounded (R185). -/
def sqrtRes (f : Fmt) (rm : Rnd) (x : FVal) (bits : DWord) : FRes :=
  match x with
  | .nan s => fCanon f (if s then flagNV else 0)
  | .inf true => fCanon f flagNV
  | .inf false => ⟨bits, 0⟩
  | .fin neg m e =>
    if m = 0 then ⟨bits, 0⟩
    else if neg then fCanon f flagNV
    else
      let d : Nat := if e % 2 = 0 then 0 else 1
      let up := m * 2 ^ (120 + d)
      let r := natSqrt 96 up
      roundMag f rm false r ((e - d - 120) / 2) (r * r != up)

/-- FADD (R185). -/
def execFadd (k : Ctl) (m : FloatMod) (a b c : Operand) (s : State) : Host.Outcome State Fault Refusal :=
  runWarp (.fadd k m a b c) (fun v => v.fun2 m a b c (addRes m.fmt)) s

/-- FSUB (R185). -/
def execFsub (k : Ctl) (m : FloatMod) (a b c : Operand) (s : State) : Host.Outcome State Fault Refusal :=
  runWarp (.fsub k m a b c) (fun v => v.fun2 m a b c (fun rm x y => addRes m.fmt rm x y.neg)) s

/-- FMUL (R185). -/
def execFmul (k : Ctl) (m : FloatMod) (a b c : Operand) (s : State) : Host.Outcome State Fault Refusal :=
  runWarp (.fmul k m a b c) (fun v => v.fun2 m a b c (mulRes m.fmt)) s

/-- FFMA (R185). -/
def execFfma (k : Ctl) (np na : Bool) (m : FloatMod) (a b c : Operand) (s : State) :
    Host.Outcome State Fault Refusal :=
  runWarp (.ffma k np na m a b c) (fun v =>
    v.fdone m.fmt m.pk a (fun l e => ffmaRes m.fmt (v.mode m.rm) np na (v.fval m.fmt m.pk b l e)
      (v.fval m.fmt m.pk c l e) (v.fval m.fmt m.pk a l e))) s

/-- FDIV (R185). -/
def execFdiv (k : Ctl) (m : FloatMod) (a b c : Operand) (s : State) : Host.Outcome State Fault Refusal :=
  runWarp (.fdiv k m a b c) (fun v => v.fun2 m a b c (divRes m.fmt)) s

/-- FSQRT (R185). -/
def execFsqrt (k : Ctl) (m : FloatMod) (a b : Operand) (s : State) : Host.Outcome State Fault Refusal :=
  runWarp (.fsqrt k m a b) (fun v => v.fun1 m a b (sqrtRes m.fmt)) s

/-! ### Selection, signs and comparison (R186 to R189) -/

/-- The order of R186 over codes that are no NaN: −0 stands below +0. -/
def orderKey (f : Fmt) (x : DWord) : Int :=
  let mag := x.toNat % 2 ^ (fmtE f + fmtF f)
  if x.getLsbD (fmtE f + fmtF f) then -(mag : Int) - 1 else mag

/-- The smaller or larger of two values (R186). -/
def minmaxRes (f : Fmt) (mx nan : Bool) (x y : DWord) : FRes :=
  let a := fval f x
  let b := fval f y
  let fl := nanFlag [a, b]
  if (a.isNan && b.isNan) || (nan && (a.isNan || b.isNan)) then fCanon f fl
  else if a.isNan then ⟨y, fl⟩
  else if b.isNan then ⟨x, fl⟩
  else if decide (orderKey f x ≤ orderKey f y) == mx then ⟨y, 0⟩
  else ⟨x, 0⟩

/-- FMINMAX (R186). -/
def execFminmax (k : Ctl) (mx nan : Bool) (m : FloatMod) (a b c : Operand) (s : State) :
    Host.Outcome State Fault Refusal :=
  runWarp (.fminmax k mx nan m a b c) (fun v =>
    v.fdone m.fmt m.pk a (fun l e =>
      minmaxRes m.fmt mx nan (v.fbits m.fmt m.pk b l e) (v.fbits m.fmt m.pk c l e))) s

/-- A value with a sign bit in place of its own; a NaN is canonical (R187). -/
def withSign (f : Fmt) (x : DWord) (neg : Bool) : FRes :=
  if (fval f x).isNan then fCanon f 0
  else ⟨fSigned f neg (x.toNat % 2 ^ (fmtE f + fmtF f)), 0⟩

/-- The sign bit of a code. -/
def signBit (f : Fmt) (x : DWord) : Bool := x.getLsbD (fmtE f + fmtF f)

/-- FABS (R187). -/
def execFabs (k : Ctl) (m : FloatMod) (a b : Operand) (s : State) : Host.Outcome State Fault Refusal :=
  runWarp (.fabs k m a b) (fun v => v.fun1 m a b (fun _ _ x => withSign m.fmt x false)) s

/-- FNEG (R187). -/
def execFneg (k : Ctl) (m : FloatMod) (a b : Operand) (s : State) : Host.Outcome State Fault Refusal :=
  runWarp (.fneg k m a b) (fun v => v.fun1 m a b (fun _ _ x => withSign m.fmt x (!signBit m.fmt x))) s

/-- FCOPYS (R187). -/
def execFcopys (k : Ctl) (m : FloatMod) (a b c : Operand) (s : State) : Host.Outcome State Fault Refusal :=
  runWarp (.fcopys k m a b c) (fun v =>
    v.fdone m.fmt m.pk a (fun l e =>
      withSign m.fmt (v.fbits m.fmt m.pk b l e) (signBit m.fmt (v.fbits m.fmt m.pk c l e)))) s

/-- The order of finite values and infinities, −0 = +0 (R188). -/
def valueKey (f : Fmt) (x : DWord) : Int :=
  let mag := x.toNat % 2 ^ (fmtE f + fmtF f)
  if signBit f x then -(mag : Int) else mag

/-- A comparison and the flags it raises (R188). -/
def cmpRes (f : Fmt) (cmp : FCmp) (x y : DWord) : Bool × BitVec 5 :=
  let vs := [fval f x, fval f y]
  let nan := vs.any FVal.isNan
  let quiet := nanFlag vs
  let loud := if nan then flagNV else 0
  let p := valueKey f x
  let q := valueKey f y
  match cmp with
  | .eq => (!nan && p == q, quiet)
  | .ne => (nan || p != q, quiet)
  | .lt => (!nan && decide (p < q), loud)
  | .le => (!nan && decide (p ≤ q), loud)
  | .gt => (!nan && decide (q < p), loud)
  | .ge => (!nan && decide (q ≤ p), loud)
  | .un => (nan, quiet)
  | .ord => (!nan, quiet)

/-- FCMP (R188). -/
def execFcmp (k : Ctl) (cmp : FCmp) (m : FloatMod) (a b c : Operand) (s : State) :
    Host.Outcome State Fault Refusal :=
  runWarp (.fcmp k cmp m a b c) (fun v =>
    let r := fun l => cmpRes m.fmt cmp (v.fbits m.fmt false b l 0) (v.fbits m.fmt false c l 0)
    .done { st := v.s, preds := v.setBit a (fun l => (r l).1), flags := [Lanes.of (fun l => (r l).2)] }) s

/-- The class of a value (R189). -/
def classBits (f : Fmt) (x : DWord) : BitVec 10 :=
  let neg := signBit f x
  BitVec.twoPow 10 (match fval f x with
    | .nan true => 8
    | .nan false => 9
    | .inf _ => if neg then 0 else 7
    | .fin _ m _ =>
      if m = 0 then (if neg then 3 else 4)
      else if m < 2 ^ fmtF f then (if neg then 2 else 5)
      else (if neg then 1 else 6))

/-- FCLASS (R189). -/
def execFclass (k : Ctl) (m : FloatMod) (a b c : Operand) (s : State) : Host.Outcome State Fault Refusal :=
  runWarp (.fclass k m a b c) (fun v =>
    let cl := fun l => classBits m.fmt (v.fbits m.fmt false b l 0)
    match a, c with
    | .pred _, .imm mask => .done { st := v.s, preds := v.setBit a (fun l => cl l &&& mask.setWidth 10 != 0) }
    | _, _ => .write v (v.w32 a (fun l => (cl l).setWidth 32))) s

/-! ### Integral values and conversions (R190 to R193) -/

/-- The integral magnitude that the mode selects for a finite value, with whether anything was lost. -/
def integral (rm : Rnd) (neg : Bool) (m : Nat) (e : Int) : Nat × Bool := roundTo rm neg m e false 0

/-- FRND of a value (R190). -/
def frndRes (f : Fmt) (x : Bool) (rm : Rnd) (v : FVal) (bits : DWord) : FRes :=
  match v with
  | .nan s => fCanon f (if s then flagNV else 0)
  | .inf _ => ⟨bits, 0⟩
  | .fin neg m e =>
    let r := integral rm neg m e
    ⟨(roundMag f .rn neg r.1 0 false).bits, if x && r.2 then flagNX else 0⟩

/-- FRND (R190). -/
def execFrnd (k : Ctl) (x : Bool) (m : FloatMod) (a b : Operand) (s : State) : Host.Outcome State Fault Refusal :=
  runWarp (.frnd k x m a b) (fun v => v.fun1 m a b (frndRes m.fmt x)) s

/-- FCVT of a value (R191). -/
def cvtRes (m : CvtMod) (rm : Rnd) (v : FVal) : FRes :=
  match v with
  | .nan s => fCanon m.dst (if s then flagNV else 0)
  | .inf neg =>
    if m.sat then ⟨fSigned m.dst neg (fmtMax m.dst), 0⟩
    else if m.dst = .e4m3 then fCanon m.dst flagNV
    else ⟨fInf m.dst neg, 0⟩
  | .fin neg n e =>
    let r := roundMag m.dst rm neg n e false
    if m.sat && r.flags &&& flagOF != 0 then ⟨fSigned m.dst neg (fmtMax m.dst), r.flags⟩ else r

/-- FCVT: with .X2, B goes to h0 and C to h1 (R191). -/
def warpFcvt (m : CvtMod) (a b c : Operand) (v : WarpView) : WarpRes :=
  let src := fun l (e : Nat) => cvtRes m (v.mode m.rm) (v.fval m.src false (if e = 0 then b else c) l 0)
  v.fdone m.dst m.pk a src

/-- FCVT (R191). -/
def execFcvt (k : Ctl) (m : CvtMod) (a b c : Operand) (s : State) : Host.Outcome State Fault Refusal :=
  runWarp (.fcvt k m a b c) (warpFcvt m a b c) s

/-- A float converted to an integer type (R192). -/
def toIntRes (ty : IntTy) (rm : Rnd) (v : FVal) : FRes :=
  let n := widthBits ty.w
  let lo := typeMin ty.signed n
  let hi := typeMax ty.signed n
  let clamp := fun (q : Int) (lost : Bool) =>
    if q < lo then ⟨extend64 ty.signed n (wrapBits n lo), flagNV⟩
    else if hi < q then ⟨extend64 ty.signed n (wrapBits n hi), flagNV⟩
    else FRes.mk (extend64 ty.signed n (wrapBits n q)) (if lost then flagNX else 0)
  match v with
  | .nan _ => ⟨0, flagNV⟩
  | .inf neg => clamp (if neg then lo - 1 else hi + 1) false
  | .fin neg m e =>
    let r := integral rm neg m e
    clamp (if neg then -(r.1 : Int) else r.1) r.2

/-- ICVT: an integer to a float, or a float to an integer (R192). -/
def warpIcvt (m : IcvtMod) (a b : Operand) (v : WarpView) : WarpRes :=
  let rm := v.mode m.rm
  let wide := m.ty.w == .b64
  if m.toInt then
    let r := fun l => toIntRes m.ty rm (v.fval m.fmt false b l 0)
    .done { st := v.s, writes := v.wLong wide a (fun l => (r l).bits), flags := [Lanes.of (fun l => (r l).flags)] }
  else
    v.fdone m.fmt false a (fun l _ =>
      roundVal m.fmt rm (fvalInt (bitsVal m.ty.signed (widthBits m.ty.w) (v.scalarSrc m.ty.signed wide b l))))

/-- ICVT (R192). -/
def execIcvt (k : Ctl) (m : IcvtMod) (a b : Operand) (s : State) : Host.Outcome State Fault Refusal :=
  runWarp (.icvt k m a b) (warpIcvt m a b) s

/-- FEXPO.SCALE of a value (R193). -/
def scaleRes (f : Fmt) (rm : Rnd) (v : FVal) (bits : DWord) (n : Int) : FRes :=
  match v with
  | .nan s => fCanon f (if s then flagNV else 0)
  | .inf _ => ⟨bits, 0⟩
  | .fin neg m e => if m = 0 then ⟨bits, 0⟩ else roundMag f rm neg m (e + n) false

/-- FEXPO.GETEXP of a value (R193). -/
def getexpRes (v : FVal) : FRes :=
  match v with
  | .nan _ => ⟨0x80000000, flagNV⟩
  | .inf _ => ⟨0x7FFFFFFF, flagNV⟩
  | .fin _ m e => if m = 0 then ⟨0x80000000, flagNV⟩ else ⟨(BitVec.ofInt 32 (e + m.log2)).setWidth 64, 0⟩

/-- FEXPO.GETMANT of a value (R193). -/
def getmantRes (f : Fmt) (v : FVal) (bits : DWord) : FRes :=
  match v with
  | .nan s => fCanon f (if s then flagNV else 0)
  | .inf _ => fCanon f flagNV
  | .fin neg m _ => if m = 0 then ⟨bits, 0⟩ else roundMag f .rn neg m (-(m.log2 : Int)) false

/-- FEXPO.SCALE (R193). -/
def execFexpoScale (k : Ctl) (m : FloatMod) (a b c : Operand) (s : State) : Host.Outcome State Fault Refusal :=
  runWarp (.fexpoScale k m a b c) (fun v =>
    v.fdone m.fmt false a (fun l _ => scaleRes m.fmt (v.mode m.rm) (v.fval m.fmt false b l 0)
      (v.fbits m.fmt false b l 0) (v.r32 true c l).toInt)) s

/-- FEXPO.GETEXP (R193). -/
def execFexpoGetexp (k : Ctl) (m : FloatMod) (a b : Operand) (s : State) : Host.Outcome State Fault Refusal :=
  runWarp (.fexpoGetexp k m a b) (fun v => v.fdone .f32 false a (fun l _ => getexpRes (v.fval m.fmt false b l 0))) s

/-- FEXPO.GETMANT (R193). -/
def execFexpoGetmant (k : Ctl) (m : FloatMod) (a b : Operand) (s : State) : Host.Outcome State Fault Refusal :=
  runWarp (.fexpoGetmant k m a b) (fun v => v.fun1 m a b (fun _ x bits => getmantRes m.fmt x bits)) s

/-! ### Dot products and complex products (R194, R195) -/

/-- A sum of an addend and products, rounded once to FP32: a NaN operand comes first, then 0 × ∞, then the sum (R194). -/
def dotRes (rm : Rnd) (addends : List FVal) (prods : List (FVal × FVal)) : FRes :=
  let ops := addends ++ prods.flatMap (fun p => [p.1, p.2])
  if ops.any FVal.isNan then fCanon .f32 (nanFlag ops)
  else if prods.any (fun p => zeroTimesInf p.1 p.2) then fCanon .f32 flagNV
  else roundVal .f32 rm (fSum rm (addends ++ prods.map (fun p => p.1.mul p.2)))

/-- FDOT2 (R194). -/
def execFdot2 (k : Ctl) (m : FloatMod) (a b c : Operand) (s : State) : Host.Outcome State Fault Refusal :=
  runWarp (.fdot2 k m a b c) (fun v =>
    let x := fun l e => (v.fval m.fmt true b l e, v.fval m.fmt true c l e)
    v.fdone .f32 false a (fun l _ => dotRes (v.mode m.rm) [v.fval .f32 false a l 0] [x l 0, x l 1])) s

/-- Real and imaginary part of a complex source (R195). -/
def WarpView.complex (v : WarpView) (o : Operand) (l : Nat) : FVal × FVal :=
  match o with
  | .imm x => (Machine.fval .f32 (floatImm .f32 x), .fin false 0 0)
  | _ => (Machine.fval .f32 ((v.raw false o 0 l).setWidth 64), Machine.fval .f32 ((v.raw false o 1 l).setWidth 64))

/-- FMAD2: each component is an exact sum rounded once (R195). -/
def warpFmad2 (mad conj : Bool) (rm : Rnd) (a b c : Operand) (v : WarpView) : WarpRes :=
  let rm := v.mode rm
  let comp := fun (l : Nat) (im : Bool) =>
    let (ar, ai) := v.complex a l
    let (br, bi) := v.complex b l
    let (cr, ci) := v.complex c l
    let ci := if conj then ci.neg else ci
    if im then dotRes rm (if mad then [ai] else []) [(br, ci), (bi, cr)]
    else dotRes rm (if mad then [ar] else []) [(br, cr), (bi.neg, ci)]
  .done { st := v.s,
          writes := v.w64 a (fun l => ((comp l true).bits.setWidth 32 ++ (comp l false).bits.setWidth 32 : BitVec 64)),
          flags := [Lanes.of (fun l => (comp l true).flags ||| (comp l false).flags)] }

/-- FMAD2 (R195). -/
def execFmad2 (k : Ctl) (mad conj : Bool) (m : FloatMod) (a b c : Operand) (s : State) :
    Host.Outcome State Fault Refusal :=
  runWarp (.fmad2 k mad conj m a b c) (warpFmad2 mad conj m.rm a b c) s

/-! ### Sticky flags (R196) -/

/-- The active lanes' sticky flags changed by their source values. -/
def WarpView.setFlags (v : WarpView) (f : BitVec 5 → BitVec 5 → BitVec 5) (b : Operand) : WarpRes :=
  .done { st := v.s.modWarp v.is.g v.is.w (fun w =>
    { w with threads := Lanes.of (fun l =>
        let t := w.threads.get l
        if v.active.has l then { t with flags := f t.flags ((v.r32 false b l).setWidth 5) } else t) }) }

/-- FSTAT.GET (R196). -/
def execFstatGet (k : Ctl) (a : Operand) (s : State) : Host.Outcome State Fault Refusal :=
  runWarp (.fstatGet k a) (fun v => .write v (v.w32 a (fun l => (v.w.threads.get l).flags.setWidth 32))) s

/-- FSTAT.CLR (R196). -/
def execFstatClr (k : Ctl) (b : Operand) (s : State) : Host.Outcome State Fault Refusal :=
  runWarp (.fstatClr k b) (fun v => v.setFlags (fun t x => t &&& ~~~x) b) s

/-- FSTAT.SET (R196). -/
def execFstatSet (k : Ctl) (b : Operand) (s : State) : Host.Outcome State Fault Refusal :=
  runWarp (.fstatSet k b) (fun v => v.setFlags (fun t x => t ||| x) b) s

/-! ### Codebooks and scales (R197 to R199) -/

/-- Entry `i` of a codebook: bits 15:0 of lane `i`, active or not (R174). -/
def WarpView.book (v : WarpView) (c : Operand) (i : Nat) : DWord :=
  ((v.lane ((opName c).getD 0) i) &&& 0xFFFF).setWidth 64

/-- A finite FP32 or BF16 value as a multiple of 2^−149. -/
def scaled : FVal → Int
  | .fin neg m e => let n : Int := ((m * 2 ^ (e + 149).toNat : Nat) : Int)
    if neg then -n else n
  | _ => 0

/-- The distance of two values, none where it is infinite; equal infinities are at distance 0 (R197). -/
def fdist (x y : FVal) : Option Nat :=
  match x, y with
  | .fin .., .fin .. => some (scaled x - scaled y).natAbs
  | .inf a, .inf b => if a = b then some 0 else none
  | _, _ => none

/-- The place of a codebook entry in the order of values. -/
def bookKey (x : FVal) : Int :=
  match x with
  | .inf true => -(2 ^ 300)
  | .inf false => 2 ^ 300
  | x => scaled x

/-- The first of a list at which a key is least. -/
def argLeast (key : Nat → Int) : List Nat → Option Nat
  | [] => none
  | i :: is => some (is.foldl (fun b j => if key j < key b then j else b) i)

/-- QUANT of a value with the codebook's entries (R197). -/
def quantRes (t : Nat → FVal) (x : FVal) (neg : Bool) : FRes :=
  let es := (List.range 16).filter (fun i => !(t i).isNan)
  let code := if x.isNan then none
    else
      let near := es.filter (fun i => (fdist x (t i)).isSome)
      if near.isEmpty then argLeast (fun i => if neg then bookKey (t i) else -bookKey (t i)) es
      else argLeast (fun i => ((fdist x (t i)).getD 0 : Int)) near
  match code with
  | none => ⟨0, flagNV⟩
  | some i => ⟨BitVec.ofNat 64 i, if fdist x (t i) = some 0 then 0 else flagNX⟩

/-- QUANT (R197). -/
def execQuant (k : Ctl) (a b c : Operand) (s : State) : Host.Outcome State Fault Refusal :=
  runWarp (.quant k a b c) (fun v =>
    v.fdone .f32 false a (fun l _ =>
      let x := v.fval .f32 false b l 0
      quantRes (fun i => Machine.fval .bf16 (v.book c i)) x x.sign)) s

/-- A codebook entry with a NaN made canonical (R198). -/
def bookBits (x : DWord) : DWord := if (fval .bf16 x).isNan then 0x7FC0 else x

/-- CBDEC (R198). -/
def warpCbdec (md : CbMode) (a b c : Operand) (v : WarpView) : WarpRes :=
  let entry := fun (w : Word) (n : Nat) => bookBits (v.book c ((w >>> (4 * n)).toNat % 16))
  .write v (v.w32 a (fun l =>
    match md with
    | .x2 j =>
      let w := v.raw false b 0 l
      packElems 16 (fun e => entry w (2 * j.toNat + e))
    | .f32 => ((entry (v.r32 false b l) 0) <<< 16).setWidth 32))

/-- CBDEC (R198). -/
def execCbdec (k : Ctl) (md : CbMode) (a b c : Operand) (s : State) : Host.Outcome State Fault Refusal :=
  runWarp (.cbdec k md a b c) (warpCbdec md a b c) s

/-- The narrow value of DEQ (R199). -/
def deqVal (src : DeqSrc) (x : Word) : FVal :=
  match src with
  | .e4m3 => fval .e4m3 (x.setWidth 64)
  | .e5m2 => fval .e5m2 (x.setWidth 64)
  | .s8 => fvalInt (bitsVal true 8 (x.setWidth 64))
  | .s4 => fvalInt (bitsVal true 4 (x.setWidth 64))

/-- DEQ of a value and a scale byte: exact in FP32 (R199). -/
def deqRes (v s : FVal) : FRes := if v.isNan then fCanon .f32 0 else roundVal .f32 .rn (v.mul s)

/-- DEQ (R199). -/
def execDeq (k : Ctl) (src : DeqSrc) (a b c : Operand) (s : State) : Host.Outcome State Fault Refusal :=
  runWarp (.deq k src a b c) (fun v =>
    v.fdone .f32 false a (fun l _ =>
      deqRes (deqVal src (v.r32 false b l)) (scaleVal ((v.r32 false c l).toNat % 256)))) s

end Sys2Proof.Machine
end

