-- ==== Sys2Proof/Machine/Order.lean ====
section
/-! DEFINITION. Store queues, the commit point and performance (R118, R119), what fences and releases wait for (R122 to
R124), and the two steps STORE_COMMIT and STORE_PERFORMED. -/

namespace Sys2Proof.Machine

open Sys2Proof

/-! ### Scratchpad state (R92, R93, R240) -/

/-- A rising list with a number put in. -/
def natPut : List Nat → Nat → List Nat
  | [], n => [n]
  | m :: ms, n => if n < m then n :: m :: ms else if n = m then m :: ms else m :: natPut ms n

/-- A write to the scratchpad: bytes, granules set full or empty, and the dirty units (R93, R240). -/
def GroupExtra.spadWrite (x : GroupExtra) (cells : List Host.Cell) (full empty : List Nat) : GroupExtra :=
  { x with
    spad := cellsPut x.spad cells
    full := full.foldl natPut (x.full.filter (fun g => !empty.contains g))
    dirty := (cells.map (fun (c : Host.Cell) => c.1 / 4096) ++ (full ++ empty).map (fun g => g / 256)).foldl natPut x.dirty }

/-! ### Lines of an L2 written back and invalidated (R114, R91) -/

/-- A unit whose two views have both been left behind ends as one of them (R91); any other keeps what memory holds. -/
def State.mergeUnit (s : State) (u : StaleUnit) : State :=
  if s.stale.any (fun x => x.pa == u.pa && x.cls != u.cls) then
    let (k, s) := s.draw 1
    if k = 0 then s else s.pokeBytes u.pa u.old
  else s

/-- CINV.L2 of one line: a dirty line is written back, and both views agree from then on. -/
def State.invalidateLine (s : State) (line : Nat) : State :=
  let mine := s.stale.filter (fun u => u.pa / 128 == line)
  let s' := mine.foldl (fun s u => s.mergeUnit u) s
  let s' := { s' with stale := s'.stale.filter (fun u => u.pa / 128 != line) }
  if mine.any (fun u => u.cls == 1) then s'.lineWritten (line * 128) else s'

/-! ### Read-modify-write at a home (R106, R108) -/

/-- The new value of a read-modify-write of `n` bytes: the old value, the datum and for CAS the new datum (R106). -/
def atomNew (op : AtomOp) (n : Nat) (old x y : Nat) : Nat :=
  let bits := 8 * n
  let sx := fun (z : Nat) => bitsVal true bits (BitVec.ofNat 64 z)
  match op with
  | .add => (old + x) % 2 ^ bits
  | .smin => if sx old ≤ sx x then old else x
  | .umin => min old x
  | .smax => if sx old ≤ sx x then x else old
  | .umax => max old x
  | .and => old &&& x
  | .or => old ||| x
  | .xor => old ^^^ x
  | .exch => x
  | .cas => if old = x then y else old
  | .fadd =>
    let f := if n = 4 then Fmt.f32 else .f64
    (addRes f .rn (fval f (BitVec.ofNat 64 old)) (fval f (BitVec.ofNat 64 x))).bits.toNat

/-- One read-modify-write at the home of a place: the old value and the state after it. -/
def State.rmw (s : State) (op : AtomOp) (n : Nat) (p : Place) (d : Nat × Nat) : State × Nat :=
  let (s, bs) := s.readUnit p.cls p.pa n
  let old := leNat bs
  (s.deviceWrite p.cls p.pa (leBytes n (atomNew op n old d.1 d.2)), old)

/-- What an agent has written straight to a home stays hidden from the others of its core while a release before it does (R118, R119). -/
def State.veil (s : State) (gr : Group) (a : Agent) (cls pa n : Nat) : State :=
  if (s.buffer gr.core).any (fun e => e.hides && !e.early) then
    { s with commits := s.commits ++ [⟨gr.core, gr.ctx, a, cls, homeOf cls pa, cellsAt pa (s.peekBytes pa n), none, true, false⟩] }
  else s

/-! ### Performance (R119, R122) -/

/-- A release of a scope comes after every store before it that the scope orders (R122, R128). -/
def releaseOrdered (earlier : List Committed) (e : Committed) : Bool :=
  match e.rel with
  | some sc => scopeInCore sc || !scopeOrders sc e.home || earlier.all (fun x => !scopeOrders sc x.home)
  | none => true

/-- A release at cluster or die scope may be seen outside its scope before what it follows (R121, R122). -/
def outsideFirst (e : Committed) : Bool := e.rel == some .cluster || e.rel == some .die

/-- Entry `i` of a core's commit buffer may reach its home: no earlier entry goes to the same home, and a release comes after what it
follows, as far as any agent that it must be ordered for can tell. -/
def mayPerform (mine : List Committed) (i : Nat) (e : Committed) : Bool :=
  let earlier := (mine.take i).filter (fun x => !x.early)
  !e.early && earlier.all (fun x => x.home != e.home) && (releaseOrdered earlier e || outsideFirst e)

/-- The first element equal to `e` is performed. -/
def performFirst (e : Committed) : List Committed → List Committed
  | [] => []
  | x :: xs => if x = e then { x with early := true } :: xs else x :: performFirst e xs

/-- Performed stores leave the commit buffers once nothing before them keeps any agent from seeing them; `before` is what stands
before them. -/
def liftVeils : List Committed → List Committed → List Committed
  | _, [] => []
  | before, e :: es =>
    let mine := before.filter (fun x => x.core == e.core && !x.early)
    if e.early && releaseOrdered mine e && !mine.any Committed.hides then liftVeils before es
    else e :: liftVeils (before ++ [e]) es

/-- A committed store reaches its home, and is seen where nothing forbids it. -/
def State.reachHome (s : State) (e : Committed) : State :=
  ({ s with commits := liftVeils [] (performFirst e s.commits) }).perform e

/-- STORE_PERFORMED: a committed store of a core reaches its home (R119). -/
def execStorePerformed (core i : Nat) (s : State) : Host.Outcome State Fault Refusal :=
  finish s (match (s.buffer core)[i]? with
    | none => s
    | some e => if mayPerform (s.buffer core) i e then s.reachHome e else s)

/-- The committed stores of a context on a core, or on all, are performed. -/
def State.performAll (s : State) (ctx : Nat) (core : Option Nat) : State :=
  let mine := fun (e : Committed) => e.ctx == ctx && (core == none || core == some e.core)
  let go := s.commits.filter (fun e => mine e && !e.early)
  go.foldl (fun s e => s.perform e) { s with commits := liftVeils [] (s.commits.filter (fun e => !mine e)) }

/-! ### The commit point (R118) -/

/-- The store queue `q` of a group takes the words of a QPUSH: a new FULL entry at its tail (R320, R334). -/
def Group.queueFill (gr : Group) (q : Nat) (words : Lanes Word) (mask : Mask) : Group :=
  { gr with x := { gr.x with queues := gr.x.queues.map (fun k =>
      if k.name == q && k.isStore then { k with slots := k.slots ++ [⟨.full, mask, words⟩] } else k) } }

/-- No store of the core's buffer is hidden from other agents of the core (R119). -/
def State.coreOpen (s : State) (core : Nat) : Bool := (s.buffer core).all (fun e => !e.hides || e.early)

/-- The core's stores to the home of a place are ahead of an access there, and nothing forbids the agent to see it (R118, R120). -/
def State.homeFree (s : State) (core : Nat) (a : Agent) (cls pa n : Nat) : Bool :=
  (s.buffer core).all (fun e => e.early || e.home != homeOf cls pa) && !s.veiled core a pa n

/-- Nothing of the core that a scope orders waits to be performed. -/
def State.allPerformed (s : State) (core : Nat) (sc : Scope) : Bool := (s.buffer core).all (fun e => !scopeOrders sc e.home)

/-- The stores of an agent that have committed are performed with respect to a scope; at a wider scope than the core all those of the
core, some of which may happen before (R119, R121, R122). -/
def State.performedFor (s : State) (core : Nat) (a : Agent) (sc : Scope) : Bool :=
  if scopeInCore sc then s.coreSees core (fun x => x == a) else s.allPerformed core sc

/-- The store at the head of an agent's queue may leave it: a QPUSH where its queue has an EMPTY slot (R334); one that every agent of
the core sees at once where no store before it is hidden (R118, R119); a line's invalidation where the agent's stores to the line are
performed (R114); a RED where it can be performed at its home (R108, R122). -/
def State.mayCommit (s : State) (gr : Group) (a : Agent) (x : Store) : Bool :=
  match x with
  | .global .. => true
  | .red _ n cls pa _ rel => s.homeFree gr.core a cls pa n &&
      (match rel with
      | some sc => s.performedFor gr.core a sc
      | none => true)
  | .spad .. | .refs _ => s.coreOpen gr.core
  | .push q _ _ => s.coreOpen gr.core && gr.x.queues.all (fun k => k.name != q || decide (k.slots.length < 32))
  | .cinv lines => (s.buffer gr.core).all (fun e => e.early || e.agent != a || !e.cells.any (fun c => lines.contains (c.1 / 128)))

/-- VALID of a tag word (R94). -/
def tagValid (x : Nat) : Bool := x.testBit 63

/-- Sets the REF bit of a tag word. -/
def withRef (x : Nat) (r : Bool) : Nat := x % 2 ^ 62 + (if r then 2 ^ 62 else 0) + (if tagValid x then 2 ^ 63 else 0)

/-- REF bits of tag words take their values, and nothing else of the words changes (R109). -/
def GroupExtra.setRefs (x : GroupExtra) (words : List (Nat × Bool)) : GroupExtra :=
  words.foldl (fun x w =>
    let word := leNat (cellBytes x.spad w.1 8)
    x.spadWrite (cellsAt (w.1 + 7) [BitVec.ofNat 8 (withRef word w.2 / 2 ^ 56)]) [] []) x

/-- A store of an agent commits: global cells go to the commit buffer, home by home; scratchpad cells and granules, queue entries and
line invalidations take effect, and a RED is performed (R108, R118, R119). On a determined core global cells take effect against
memory at once (R311). -/
def State.commitStore (s : State) (gr : Group) (a : Agent) (x : Store) : State :=
  match x with
  | .global cells rel =>
    if s.coreDetermined gr.core then (splitHomes gr.core gr.ctx a rel cells).foldl (fun s e => s.perform e) s
    else { s with commits := s.commits ++ splitHomes gr.core gr.ctx a rel cells }
  | .red op n cls pa x _ => ((s.rmw op n ⟨0, 0, pa, cls⟩ (x, 0)).1).veil gr a cls pa n
  | .spad cells full empty => s.modX gr.id (fun e => e.spadWrite cells full empty)
  | .refs words => s.modX gr.id (fun e => e.setRefs words)
  | .push q words mask => s.modGroup gr.id (fun g => g.queueFill q words mask)
  | .cinv lines => lines.foldl (fun s l => s.invalidateLine l) s

/-- The group of an agent. -/
def agentGroup : Agent → Nat
  | .hall g => g
  | .warp g _ => g
  | .ap g _ => g

/-- The agent's latest store is noted with the rotation count (R311). -/
def State.noteStore (s : State) (gr : Group) (a : Agent) : State :=
  s.modX gr.id (fun x => { x with stored := (a, s.vtimeOf gr.ctx) :: x.stored.filter (fun (y : Agent × Nat) => y.1 != a) })

/-- A store enters its agent's queue; on a determined core it takes effect in the order of issue (R118, R295). -/
def State.issueStore (s : State) (gr : Group) (a : Agent) (x : Store) : State :=
  if s.coreDetermined gr.core then
    (if (s.queueOf a).isEmpty && s.mayCommit gr a x then (s.commitStore gr a x).noteStore gr a
     else (s.pushStore a x).noteStore gr a)
  else s.pushStore a x

/-- A vector store to global memory (R102), in a D2 point to its write set (R303). -/
def State.issueGlobal (s : State) (gr : Group) (a : Agent) (n : Nat) (ps : List (Place × Nat)) (rel : Option Scope) :
    State :=
  if ps.isEmpty then s
  else if gr.x.d2.isSome then s.storePlaces gr a n ps rel
  else s.issueStore gr a (.global (placeCells n ps) rel)

/-- STORE_COMMIT: the oldest store of an agent leaves its queue (R118). -/
def execStoreCommit (a : Agent) (s : State) : Host.Outcome State Fault Refusal :=
  finish s (match s.group? (agentGroup a), s.queueOf a with
    | some gr, x :: rest => if s.mayCommit gr a x then (s.setQueue a rest).commitStore gr a x else s
    | _, _ => s)

/-- The stores of an agent leave its queue as far as they may, those before them that must be performed first with them. -/
def State.drainFrom (g : Nat) (a : Agent) : List Store → State → State
  | [], s => s.setQueue a []
  | x :: rest, s =>
    match s.group? g with
    | none => s
    | some gr =>
      let s := if s.mayCommit gr a x then s else s.performAll gr.ctx (some gr.core)
      if s.mayCommit gr a x then State.drainFrom g a rest ((s.setQueue a rest).commitStore gr a x) else s.setQueue a (x :: rest)

def State.drainAgent (s : State) (g : Nat) (a : Agent) : State := State.drainFrom g a (s.queueOf a) s

/-- An ended group goes once its engine commands have completed (R164, R352). -/
def State.reap (s : State) : State :=
  { s with groups := s.groups.filter (fun gr => gr.standing != .ended || s.commands.any (fun c => c.g == gr.id) ||
      s.fabric.any (fun c => c.g == gr.id)) }

/-! ### Stores to the scratchpad in a queue (R92, R118) -/

/-- The scratchpad bytes of a store in a queue; those of REF bits are not known before they are written. -/
def Store.spadCells : Store → List (Nat × Option Byte)
  | .spad cs _ _ => cs.map (fun c => (c.1, some c.2))
  | .refs ws => ws.map (fun w => (w.1 + 7, none))
  | .global .. | .red .. | .push .. | .cinv _ => []

/-- The store writes, fills or empties a part of a range of the scratchpad. -/
def Store.inSpad (x : Store) (lo len : Nat) : Bool :=
  x.spadCells.any (fun c => decide (lo ≤ c.1) && decide (c.1 < lo + len)) ||
  (match x with
  | .spad _ full empty => (full ++ empty).any (fun u => decide (16 * u < lo + len) && decide (lo < 16 * u + 16))
  | _ => false)

/-- A store or an AQLD.SP checked before the registration has not reached the range yet (R96, R355). -/
def State.spadBusy (s : State) (g lo len : Nat) : Bool :=
  match s.group? g with
  | none => false
  | some gr =>
    let hits := fun (a n : Nat) => decide (a < lo + len) && decide (lo < a + n)
    let inQueue := fun (q : List Store) => q.any (fun x => x.inSpad lo len)
    gr.warps.any (fun w => inQueue w.stores) || inQueue gr.hall.stores ||
      gr.x.programs.any (fun p => p.flights.any (fun f => f.queue.isNone && hits f.offset 128))

/-! ### What orders an agent's accesses (R118, R123, R124) -/

/-- On a determined core every earlier store of the agents of a test counts as performed, 64 rotations after its issue
(R311). -/
def State.aged (s : State) (gr : Group) (p : Agent → Bool) : Bool :=
  !s.coreDetermined gr.core ||
    gr.x.stored.all (fun y => !p y.1 || decide (y.2 + 64 ≤ s.vtimeOf gr.ctx))

/-- The agent's earlier accesses are ordered as a fence of the kind and scope asks before it completes (R118, R123, R311). -/
def State.fenceReady (s : State) (gr : Group) (a : Agent) (kind : FenceKind) (sc : Scope) : Bool :=
  (s.queueOf a).isEmpty && (kind == .acq || s.performedFor gr.core a sc) && s.aged gr (· == a)

/-- A store that carries a release or sc may issue (R311). -/
def State.releaseReady (s : State) (gr : Group) (a : Agent) (m : MemMod) : Bool :=
  m.order == .plain || m.order == .acq || s.aged gr (· == a)

/-- An ATOM or RED of the agent at the homes of some places may be performed: its queue is empty, and the core's own
stores to those homes are ahead of it (R118, R120); a release also waits for everything before it (R122); `atom` waits as
R311 says. -/
def State.rmwReady (s : State) (gr : Group) (a : Agent) (ps : List Place) (rel atom : Bool) (sc : Scope) : Bool :=
  (s.queueOf a).isEmpty && (!(atom || rel) || s.aged gr (· == a)) && (!rel || s.performedFor gr.core a sc) &&
  ps.all (fun p => s.homeFree gr.core a p.cls p.pa 1)

/-- The Hall drain: every live warp has retired every entry, outside regions and handlers, and their stores are
performed at the scope (R124, R311). -/
def State.drained (s : State) (gr : Group) (sc : Scope) : Bool :=
  gr.liveWarps.all (fun i =>
    match gr.warps[i]? with
    | some w => decide (w.rp = gr.position) && !w.region.isSome && !w.handler.isSome
    | none => true) &&
  gr.warps.all (fun w => w.stores.isEmpty) &&
  s.aged gr (fun a => match a with
    | .ap _ _ => false
    | .hall _ | .warp _ _ => true) &&
  (if scopeInCore sc then s.coreSees gr.core (fun a => agentGroup a == gr.id)
   else s.commits.all (fun e => agentGroup e.agent != gr.id || !scopeOrders sc e.home))

/-- The drain before an engine command, with the Hall's own stores (R124, R126). -/
def HallView.engineDrained (h : HallView) : Bool :=
  h.s.drained h.gr .device && h.gr.hall.stores.isEmpty

end Sys2Proof.Machine
end

