-- ==== Sys2Proof/Machine/Trace.lean ====
section
/-! DEFINITION. Dispatch traces: the header and its entries (R296, R297), what recording appends (R298), what replay
dictates (R299) and what is a mismatch (R300). -/

namespace Sys2Proof.Machine

open Sys2Proof

/-! ### Words of a context (R27) -/

/-- The physical address and the class of a virtual address for an engine's access, none where the walk, the frame or, for a write, W
forbids it (R28). -/
def State.vplace (s : State) (ctx va : Nat) (writes : Bool) : Option (Nat × Nat) :=
  match s.ctx? ctx with
  | none => none
  | some c =>
    match s.walk c va with
    | .ok e =>
      let pa := e.pa + (va % 2 ^ 56 - e.va)
      if s.given c pa && (e.w || !writes) then some (pa, e.cls) else none
    | .error _ => none

/-- `n` bytes of a context inside one page, little-endian. -/
def State.vread (s : State) (ctx va n : Nat) : Nat :=
  match s.vplace ctx va false with
  | some (pa, _) => leNat (s.liveBytes pa n)
  | none => 0

def State.vwrite (s : State) (ctx va n x : Nat) : State :=
  match s.vplace ctx va true with
  | some (pa, cls) => s.deviceWrite cls pa (leBytes n x)
  | none => s

/-! ### Header and entries (R296, R297) -/

/-- The fields of a trace header by offset and size (R296). -/
def traceState : Nat × Nat := (2, 1)
def traceCap : Nat × Nat := (8, 8)
def traceCount : Nat × Nat := (16, 8)
def traceEntries : Nat × Nat := (24, 8)
def traceCursor : Nat × Nat := (32, 8)
def traceVtEnd : Nat × Nat := (40, 8)

def State.traceGet (s : State) (ctx hdr : Nat) (f : Nat × Nat) : Nat := s.vread ctx (hdr + f.1) f.2
def State.traceSet (s : State) (ctx hdr : Nat) (f : Nat × Nat) (x : Nat) : State := s.vwrite ctx (hdr + f.1) f.2 x

/-- An entry (R297): its type, byte 1, bytes 2–3, and the words at 4, 8 and 12. -/
structure TraceEntry where
  type : Nat
  b1 : Nat
  ord : Nat
  w4 : Nat
  w8 : Nat
  w12 : Nat
  deriving DecidableEq, Repr

def TraceEntry.bytes (e : TraceEntry) : List Byte :=
  leBytes 1 e.type ++ leBytes 1 e.b1 ++ leBytes 2 e.ord ++ leBytes 4 e.w4 ++ leBytes 4 e.w8 ++ leBytes 4 e.w12

def State.traceEntry (s : State) (ctx hdr i : Nat) : TraceEntry :=
  let a := s.traceGet ctx hdr traceEntries + 16 * i
  ⟨s.vread ctx a 1, s.vread ctx (a + 1) 1, s.vread ctx (a + 2) 2, s.vread ctx (a + 4) 4, s.vread ctx (a + 8) 4,
    s.vread ctx (a + 12) 4⟩

/-- The word GROUP that names a group (R297): 2^32, which no word is, while no copy of its image has been made resident. -/
def Group.traceName (gr : Group) : Nat :=
  match gr.imageNo with
  | some n => n % 65536 * 65536 + gr.copy % 65536
  | none => 2 ^ 32

/-- The group whose trace concerns a group's own events: itself, else the first of its context with a trace. -/
def State.traceOwner (s : State) (gr : Group) : Option Group :=
  if gr.x.trace.isSome then some gr
  else s.groups.find? (fun x => x.ctx == gr.ctx && x.x.trace.isSome)

/-! ### Recording (R298) -/

/-- Appends an entry to a trace that records; a trace whose COUNT reaches CAP has overflowed (R298). -/
def State.traceAppend (s : State) (ctx hdr : Nat) (e : TraceEntry) : State :=
  if s.traceGet ctx hdr traceState != 1 then s
  else
    let n := s.traceGet ctx hdr traceCount
    let a := s.traceGet ctx hdr traceEntries + 16 * n
    let s := match s.vplace ctx a true with
      | some (pa, cls) => s.deviceWrite cls pa e.bytes
      | none => s
    let s := s.traceSet ctx hdr traceCount (n + 1)
    if s.traceGet ctx hdr traceCap ≤ n + 1 then s.traceSet ctx hdr traceState 4 else s

/-! ### Replay (R299, R300) -/

/-- The next unconsumed entry of a stream. -/
def State.traceNext (s : State) (ctx : Nat) (t : OpenTrace) (stream : TraceEntry → Bool) : Option (Nat × TraceEntry) :=
  (List.range (s.traceGet ctx t.header traceCount)).findSome? (fun i =>
    if t.consumed.contains i then none
    else
      let e := s.traceEntry ctx t.header i
      if stream e then some (i, e) else none)

/-- CURSOR: the lowest entry not yet consumed. -/
def lowestLeft (consumed : List Nat) (n : Nat) : Nat :=
  ((List.range n).find? (fun i => !consumed.contains i)).getD n

/-- An entry is consumed, and CURSOR moves past it (R299). -/
def State.traceConsume (s : State) (owner : Group) (t : OpenTrace) (i : Nat) : State :=
  let used := natPut t.consumed i
  (s.modX owner.id (fun x => { x with trace := some { t with consumed := used } })).traceSet owner.ctx t.header traceCursor
    (lowestLeft used (s.traceGet owner.ctx t.header traceCount))

/-- A mismatch: the trace is abandoned, and the trap names the entry (R300). -/
def State.traceMismatch (s : State) (owner : Group) (t : OpenTrace) (i : Nat) (mask : Mask) : State × Trap :=
  (s.traceSet owner.ctx t.header traceState 5,
    ⟨.traceMismatch, mask, BitVec.ofNat 64 (s.traceGet owner.ctx t.header traceEntries + 16 * i), 6⟩)

/-- What the next entry of a stream says of a decision. -/
inductive TraceVerdict where
  | take | hold | mismatch
  deriving DecidableEq, Repr

/-- What comes of a decision of a determined group. -/
inductive TraceResult where
  | go (s : State)
  | hold
  | mismatch (s : State) (t : Trap)

/-- A decision that R298 records: appended while its trace records, made as the stream's next entry dictates while it
replays, free otherwise. -/
def State.traceStep (s : State) (owner : Option Group) (e : TraceEntry) (stream : TraceEntry → Bool)
    (judge : TraceEntry → TraceVerdict) (mask : Mask) : TraceResult :=
  match owner with
  | none => .go s
  | some o =>
    match o.x.trace with
    | none => .go s
    | some t =>
      if !t.play then .go (s.traceAppend o.ctx t.header e)
      else if s.traceGet o.ctx t.header traceState != 3 then .go s
      else
        match s.traceNext o.ctx t stream with
        | none => (fun r => .mismatch r.1 r.2) (s.traceMismatch o t (s.traceGet o.ctx t.header traceCount) mask)
        | some (i, x) =>
          match judge x with
          | .take => .go (s.traceConsume o t i)
          | .hold => .hold
          | .mismatch => (fun r => .mismatch r.1 r.2) (s.traceMismatch o t i mask)

/-- The word with which an entry names a rotation. -/
def State.traceTime (s : State) (ctx : Nat) : Nat := s.vtimeOf ctx % 2 ^ 32

/-- An entry of the stream of a group's warp, or of its Hall (255): a wake, and for the Hall a TRY that found nothing (R299). -/
def TraceEntry.ofAgent (e : TraceEntry) (name n : Nat) : Bool :=
  e.w8 == name && ((e.type == 4 && e.b1 == n) || (e.type == 1 && e.b1 == 1 && n == 255))

/-- The end of a wait of a determined warp (its number) or Hall (255), recorded or dictated (R298, R299). -/
def State.traceWake (s : State) (gr : Group) (n : Nat) (mask : Mask) : TraceResult :=
  if !s.determined gr then .go s
  else
    let now := s.traceTime gr.ctx
    s.traceStep (s.traceOwner gr) ⟨4, n, 0, 0, gr.traceName, now⟩ (fun e => e.ofAgent gr.traceName n)
      (fun e => if e.type ≠ 4 || e.w12 < now then .mismatch else if e.w12 = now then .take else .hold) mask

/-- The grant of a registration of a determined group (R298, R299). -/
def State.traceGrant (s : State) (gr : Group) : TraceResult :=
  if !s.determined gr then .go s
  else
    s.traceStep (s.traceOwner gr) ⟨3, 0, 0, gr.x.regOrdinal, gr.traceName, 0⟩ (fun e => e.type == 3)
      (fun e => if e.w4 = gr.x.regOrdinal && e.w8 = gr.traceName then .take else .hold) 0

end Sys2Proof.Machine
end

