-- ==== Sys2Proof/Machine/Mem.lean ====
section
/-! DEFINITION. The memory instructions (R98 to R115): loads and stores of global memory and of the scratchpad, full/empty
granules, atomics, tag tables, fences, WAITMEM, cache operations and the latch table. -/

namespace Sys2Proof.Machine

open Sys2Proof

/-! ### Widths, data and results (R98, R99) -/

def widthBytes : MemWidth → Nat
  | .n8 | .s8 => 1
  | .n16 | .s16 => 2
  | .w32 => 4
  | .w64 => 8
  | .q => 16

/-- Ext(x) of a value of at most 64 bits (R99, R101). -/
def memExt (w : MemWidth) (x : Nat) : DWord :=
  match w with
  | .s8 => (BitVec.ofNat 8 x).signExtend 64
  | .s16 => (BitVec.ofNat 16 x).signExtend 64
  | .n8 => (BitVec.ofNat 8 x).setWidth 64
  | .n16 => (BitVec.ofNat 16 x).setWidth 64
  | .w32 => (BitVec.ofNat 32 x).setWidth 64
  | .w64 | .q => BitVec.ofNat 64 x

/-- What lane `l` loaded. -/
def laneVal (vs : List (Nat × Nat)) (l : Nat) : Nat := ((vs.find? (fun x => x.1 == l)).map (·.2)).getD 0

/-- The write of a load's result (R98, R101). -/
def WarpView.wLoad (v : WarpView) (w : MemWidth) (a : Operand) (vs : List (Nat × Nat)) : List RegWrite :=
  match w with
  | .w64 => v.w64 a (fun l => memExt w (laneVal vs l))
  | .q => v.wQuad a (fun l => BitVec.ofNat 128 (laneVal vs l))
  | _ => v.w32 a (fun l => (memExt w (laneVal vs l)).setWidth 32)

/-- The low bytes of a datum that lane `l` stores (R102). DESIGN CHOICE (log entry 74): a scalar as a 128-bit datum has 0 above its 64
bits. -/
def WarpView.datum (v : WarpView) (w : MemWidth) (a : Operand) (l : Nat) : Nat :=
  match w with
  | .w64 => (v.r64 false a l).toNat
  | .q => (v.rQuad a l).toNat
  | _ => (v.raw false a 0 l).toNat % 256 ^ widthBytes w

/-- The agents of a view. -/
def WarpView.agent (v : WarpView) : Agent := .warp v.is.g v.is.w

/-- The active lanes with their addresses. -/
def WarpView.addrs (v : WarpView) (b : Operand) (off : DWord) : List (Nat × Nat) :=
  (Mask.lanes v.active).map (fun l => (l, v.addr b off l))

def WarpView.saddrs (v : WarpView) (b : Operand) (off : Word) : List (Nat × Nat) :=
  (Mask.lanes v.active).map (fun l => (l, v.saddr b off l))

/-- ORDER of a store that carries a release (R102, R123). -/
def stRelease (m : MemMod) : Option Scope :=
  match m.order with
  | .rel | .special => some m.scope
  | .plain | .acq => none

/-- ORDER sc, which acts as FENCE.sc first (R123). -/
def memSc (m : MemMod) : Bool := m.order == .special

/-! ### LD and ST (R101, R102) -/

def warpLd (m : MemMod) (off : BitVec 24) (a b : Operand) (v : WarpView) : WarpRes :=
  let n := widthBytes m.width
  match v.s.checkLanes v.gr (some v.is.w) n .load (v.addrs b (off.signExtend 64)) with
  | (_, .error t) => .trap t
  | (s, .ok ps) =>
    if memSc m && !s.fenceReady v.gr v.agent .sc m.scope then .stall v.s
    else
      match s.loadPlaces v.gr v.agent v.w.stores n ps with
      | (s, some vs) => .done { st := s, writes := v.wLoad m.width a vs }
      | (_, none) => .stall v.s

/-- A Hall load, also of an access program (R99, R323, R325). DESIGN CHOICE (log entry 75): LD.sc is a fence of its agent and makes
no Hall drain, which R124 lists for FENCE.H.sc. -/
def hallLd (m : MemMod) (off : BitVec 24) (a b : Operand) (h : HallView) : HallRes :=
  let n := widthBytes m.width
  match h.s.checkLanes h.gr none n .load [(0, h.addr b (off.signExtend 64))] with
  | (_, .error t) => .trap t
  | (s, .ok ps) =>
    if memSc m && !s.fenceReady h.gr h.agent .sc m.scope then .stall h.s
    else
      match s.agentLoad h.gr h.agent (s.queueOf h.agent) n ps with
      | (s, some vs) => .done { st := s, s := sWrite a (memExt m.width (laneVal vs 0)) }
      | (_, none) => .stall h.s

/-- LD (R101). -/
def execLd (k : Ctl) (m : MemMod) (off : BitVec 24) (a b : Operand) (s : State) : Host.Outcome State Fault Refusal :=
  runBoth (.ld k m off a b) (hallLd m off a b) (warpLd m off a b) s

/-- A D2 point's write set would pass 16 MiB (R305). -/
def writeSetFull (gr : Group) (n : Nat) (ps : List (Place × Nat)) : Bool :=
  match gr.x.d2 with
  | some d => decide (2 ^ 24 < (writeSet d.writes ((placeCells n ps).map (·.2))).length)
  | none => false

def warpSt (m : MemMod) (off : BitVec 24) (a b : Operand) (v : WarpView) : WarpRes :=
  let n := widthBytes m.width
  match v.s.checkLanes v.gr (some v.is.w) n .store (v.addrs b (off.signExtend 64)) with
  | (_, .error t) => .trap t
  | (s, .ok ps) =>
    let data := ps.map (fun p => (p, v.datum m.width a p.lane))
    if writeSetFull v.gr n data then .trap ⟨.detIllegalOp, v.active, 0, 6⟩
    else if memSc m && !s.fenceReady v.gr v.agent .sc m.scope then .stall v.s
    else if !s.releaseReady v.gr v.agent m then .stall v.s
    else .done { st := s.issueGlobal v.gr v.agent n data (stRelease m) }

def hallSt (m : MemMod) (off : BitVec 24) (a b : Operand) (h : HallView) : HallRes :=
  let n := widthBytes m.width
  match h.s.checkLanes h.gr none n .store [(0, h.addr b (off.signExtend 64))] with
  | (_, .error t) => .trap t
  | (s, .ok ps) =>
    let data := ps.map (fun p => (p, (h.r64 false a).toNat % 256 ^ n))
    if writeSetFull h.gr n data then .trap ⟨.detIllegalOp, 0, 0, 6⟩
    else if (stRelease m).isSome && !s.drained h.gr m.scope then .stall h.s
    else if memSc m && !s.fenceReady h.gr h.agent .sc m.scope then .stall h.s
    else if !s.releaseReady h.gr h.agent m then .stall h.s
    else .done { st := s.issueGlobal h.gr h.agent n data (stRelease m) }

/-- ST (R102). -/
def execSt (k : Ctl) (m : MemMod) (off : BitVec 24) (a b : Operand) (s : State) : Host.Outcome State Fault Refusal :=
  runBoth (.st k m off a b) (hallSt m off a b) (warpSt m off a b) s

/-! ### Scratchpad accesses (R92, R97, R103) -/

/-- The checks of one scratchpad access: alignment, bound, latch table. -/
def State.spadCheck (s : State) (gr : Group) (n : Nat) (store : Bool) (x : Nat × Nat) :
    Option (Nat × Cause × DWord × Nat) :=
  let at_ := fun (c : Cause) (k : Nat) => some (x.1, c, BitVec.ofNat 64 x.2, k)
  if x.2 % n ≠ 0 then at_ .misaligned 0
  else if gr.image.spad < x.2 + n then at_ .pageFault 5
  else if s.locked gr.ctx (some gr.id) gr.id x.2 n store then at_ .rangeLocked 0
  else none

/-- The trap of a scratchpad instruction's lanes. -/
def State.spadTrap (s : State) (gr : Group) (n : Nat) (store : Bool) (xs : List (Nat × Nat)) : Option Trap :=
  laneTrap (xs.filterMap (fun x => s.spadCheck gr n store x))

/-- What a scratchpad load returns: the youngest overlapping store of its own queue, or the commit point; none where
it waits (R118). -/
def spadLoad (gr : Group) (queue : List Store) (n : Nat) (x : Nat × Nat) : Option (Nat × Nat) :=
  match forward (queue.map Store.spadCells) x.2 n with
  | some (some bs) => some (x.1, leNat bs)
  | some none => none
  | none => some (x.1, leNat (cellBytes gr.x.spad x.2 n))

def spadLoads (gr : Group) (queue : List Store) (n : Nat) : List (Nat × Nat) → Option (List (Nat × Nat))
  | [] => some []
  | x :: xs =>
    match spadLoad gr queue n x, spadLoads gr queue n xs with
    | some r, some rs => some (r :: rs)
    | _, _ => none

/-- The cells of stored data, lane after lane. -/
def spadData (n : Nat) (xs : List (Nat × Nat)) (f : Nat → Nat) : List Host.Cell :=
  xs.flatMap (fun x => cellsAt x.2 (leBytes n (f x.1)))

def warpLds (w : MemWidth) (off : BitVec 24) (a b : Operand) (v : WarpView) : WarpRes :=
  let n := widthBytes w
  let xs := v.saddrs b (off.signExtend 32)
  match v.s.spadTrap v.gr n false xs with
  | some t => .trap t
  | none =>
    match spadLoads v.gr v.w.stores n xs with
    | some vs => .write v (v.wLoad w a vs)
    | none => .stall v.s

def hallLds (w : MemWidth) (off : BitVec 24) (a b : Operand) (h : HallView) : HallRes :=
  let n := widthBytes w
  let xs := [(0, h.saddr b (off.signExtend 32))]
  match h.s.spadTrap h.gr n false xs with
  | some t => .trap t
  | none =>
    match spadLoads h.gr h.gr.hall.stores n xs with
    | some vs => .write h a (memExt w (laneVal vs 0))
    | none => .stall h.s

/-- LDS (R103). -/
def execLds (k : Ctl) (w : MemWidth) (off : BitVec 24) (a b : Operand) (s : State) : Host.Outcome State Fault Refusal :=
  runBoth (.lds k w off a b) (hallLds w off a b) (warpLds w off a b) s

/-- A scratchpad store; nothing enters the queue where no lane is active. -/
def State.issueSpad (s : State) (gr : Group) (a : Agent) (cells : List Host.Cell) (full empty : List Nat) : State :=
  if cells.isEmpty && full.isEmpty && empty.isEmpty then s else s.issueStore gr a (.spad cells full empty)

def warpSts (w : MemWidth) (off : BitVec 24) (a b : Operand) (v : WarpView) : WarpRes :=
  let n := widthBytes w
  let xs := v.saddrs b (off.signExtend 32)
  match v.s.spadTrap v.gr n true xs with
  | some t => .trap t
  | none => .done { st := v.s.issueSpad v.gr v.agent (spadData n xs (v.datum w a)) [] [] }

def hallSts (w : MemWidth) (off : BitVec 24) (a b : Operand) (h : HallView) : HallRes :=
  let n := widthBytes w
  let xs := [(0, h.saddr b (off.signExtend 32))]
  match h.s.spadTrap h.gr n true xs with
  | some t => .trap t
  | none => .done { st := h.s.issueSpad h.gr h.agent (spadData n xs (fun _ => (h.r64 false a).toNat % 256 ^ n)) [] [] }

/-- STS (R103). -/
def execSts (k : Ctl) (w : MemWidth) (off : BitVec 24) (a b : Operand) (s : State) : Host.Outcome State Fault Refusal :=
  runBoth (.sts k w off a b) (hallSts w off a b) (warpSts w off a b) s

/-! ### Full/empty granules (R93, R104, R105) -/

/-- The granules that accesses touch. -/
def granules (n : Nat) (xs : List (Nat × Nat)) : List Nat :=
  xs.foldl (fun l x => (List.range ((x.2 + n - 1) / 16 + 1 - x.2 / 16)).foldl (fun l i => natPut l (x.2 / 16 + i)) l) []

/-- An older warp of the group waits for some of these granules in an LDFE.TAKE that could go on: it reads and clears first (R71,
R116). -/
def Group.olderTakes (gr : Group) (w : Nat) (gs : List Nat) : Bool :=
  (gr.warps.take w).any (fun x => x.waits.any (fun y =>
    match y.kind with
    | .ldfe true hs => hs.any (fun g => gs.contains g) && hs.all (fun g => gr.x.full.contains g)
    | _ => false))

def warpLdfe (take : Bool) (w : MemWidth) (off : BitVec 24) (a b : Operand) (v : WarpView) : WarpRes :=
  let n := widthBytes w
  let xs := v.saddrs b (off.signExtend 32)
  let gs := granules n xs
  match v.s.spadTrap v.gr n false xs with
  | some t => .trap t
  | none =>
    if v.w.stores.any (fun x => gs.any (fun g => x.inSpad (16 * g) 16)) then .stall v.s
    else if !gs.all (fun g => v.gr.x.full.contains g) then .wait v.s (.ldfe take gs)
    else if take && v.gr.olderTakes v.is.w gs then .stall v.s
    else
      let vs := xs.map (fun x => (x.1, leNat (cellBytes v.gr.x.spad x.2 n)))
      .done { st := if take then v.s.modX v.is.g (fun x => x.spadWrite [] [] gs) else v.s,
              writes := v.wLoad w a vs }

/-- LDFE (R104). -/
def execLdfe (k : Ctl) (take : Bool) (w : MemWidth) (off : BitVec 24) (a b : Operand) (s : State) :
    Host.Outcome State Fault Refusal :=
  runWarp (.ldfe k take w off a b) (warpLdfe take w off a b) s

def warpStfe (w : MemWidth) (off : BitVec 24) (a b : Operand) (v : WarpView) : WarpRes :=
  let n := widthBytes w
  let xs := v.saddrs b (off.signExtend 32)
  match v.s.spadTrap v.gr n true xs with
  | some t => .trap t
  | none => .done { st := v.s.issueSpad v.gr v.agent (spadData n xs (v.datum w a)) (granules n xs) [] }

/-- STFE (R105). -/
def execStfe (k : Ctl) (w : MemWidth) (off : BitVec 24) (a b : Operand) (s : State) :
    Host.Outcome State Fault Refusal :=
  runWarp (.stfe k w off a b) (warpStfe w off a b) s

def warpStfeClr (off : BitVec 24) (b : Operand) (v : WarpView) : WarpRes :=
  let xs := v.saddrs b (off.signExtend 32)
  match v.s.spadTrap v.gr 16 true xs with
  | some t => .trap t
  | none => .done { st := v.s.issueSpad v.gr v.agent [] [] (granules 16 xs) }

/-- STFE.CLR (R105). -/
def execStfeClr (k : Ctl) (off : BitVec 24) (b : Operand) (s : State) : Host.Outcome State Fault Refusal :=
  runWarp (.stfeClr k off b) (warpStfeClr off b) s

/-! ### Atomics (R106 to R108) -/

/-- The width of an atomic in bytes. -/
def atomBytes (w64 : Bool) : Nat := if w64 then 8 else 4

/-- The first and second datum of lane `l` (R106). -/
def WarpView.atomData (v : WarpView) (op : AtomOp) (w64 : Bool) (a : Operand) (l : Nat) : Nat × Nat :=
  if op = .cas then
    (if w64 then
      let q := v.rQuad a l
      ((q.setWidth 64).toNat, ((q >>> 64).setWidth 64).toNat)
    else ((v.raw false a 0 l).toNat, (v.raw false a 1 l).toNat))
  else if w64 then ((v.r64 false a l).toNat, 0)
  else ((v.r32 (op == .smin || op == .smax) a l).toNat, 0)

/-- The lanes' operations in ascending order (R106). -/
def State.rmwAll (s : State) (gr : Group) (a : Agent) (op : AtomOp) (n : Nat) : List (Place × Nat × Nat) → State × List (Nat × Nat)
  | [] => (s, [])
  | (p, d) :: rest =>
    let (s, old) := s.rmw op n p d
    let (s, olds) := (s.veil gr a p.cls p.pa n).rmwAll gr a op n rest
    (s, (p.lane, old) :: olds)

/-- The write of an ATOM is a store of its agent (R118, R311). -/
def State.noteAtom (s : State) (gr : Group) (a : Agent) (empty : Bool) : State :=
  if s.coreDetermined gr.core && !empty then s.noteStore gr a else s

/-- ORDER of an atomic that releases, and its scope. -/
def atomRel (m : MemMod) : Bool := m.order == .rel || m.order == .special

/-- How many of the lanes that are still to come an ATOM performs now: other agents may come between two lanes (R106, R116), on a
determined core none does (R311). -/
def State.lanesNow (s : State) (gr : Group) (n : Nat) : State × Nat :=
  if s.coreDetermined gr.core || n ≤ 1 then (s, n)
  else
    let (k, s) := s.draw (n - 1)
    (s, n - k)

/-- An ATOM performs lanes in their order: all that are left, and it ends; or some, and it goes on at a later turn of its warp. -/
def WarpView.atomLanes (v : WarpView) (s : State) (op : AtomOp) (w64 : Bool) (a : Operand) (todo : List (Place × Nat × Nat))
    (before : List (Nat × Nat)) : WarpRes :=
  let (s, k) := s.lanesNow v.gr todo.length
  let r := s.rmwAll v.gr v.agent op (atomBytes w64) (todo.take k)
  let olds := before ++ r.2
  if todo.length ≤ k then
    .done { st := r.1.noteAtom v.gr v.agent todo.isEmpty, writes := v.wLong w64 a (fun l => BitVec.ofNat 64 (laneVal olds l)) }
  else
    .stall (r.1.modWarp v.is.g v.is.w (fun w => { w with atom := some ⟨v.is.lanes, v.is.pc,
      (todo.drop k).map (fun x => ((x.1.lane, x.1.va, x.1.pa, x.1.cls), x.2)), olds⟩ }))

/-- The lanes that an ATOM of this path has still to perform, with what it has read. -/
def WarpView.atomRun (v : WarpView) : Option AtomRun := v.w.atom.filter (fun r => r.lanes == v.is.lanes && r.pc == v.is.pc)

def warpAtom (op : AtomOp) (m : MemMod) (off : BitVec 20) (a b : Operand) (v : WarpView) : WarpRes :=
  let w64 := m.width == .w64
  let n := atomBytes w64
  match v.atomRun with
  | some r =>
    let todo := r.rest.map (fun x => (Place.mk x.1.1 x.1.2.1 x.1.2.2.1 x.1.2.2.2, x.2))
    if v.s.rmwReady v.gr v.agent (todo.map (·.1)) false false m.scope then v.atomLanes v.s op w64 a todo r.olds else .stall v.s
  | none =>
    match v.s.checkLanes v.gr (some v.is.w) n .atomic (v.addrs b (off.signExtend 64)) with
    | (_, .error t) => .trap t
    | (s, .ok ps) =>
      if v.gr.x.d2.isSome && v.active != 0 then .trap (.plain .detIllegalOp v.active)
      else if !s.rmwReady v.gr v.agent ps (atomRel m) true m.scope then .stall v.s
      else v.atomLanes s op w64 a (ps.map (fun p => (p, v.atomData op w64 a p.lane))) []

/-- The data of a Hall atomic: CAS takes s2k and s2k+1 (R106). -/
def HallView.atomData (h : HallView) (op : AtomOp) (n : Nat) (a : Operand) : Nat × Nat :=
  ((h.r64 false a).toNat % 256 ^ n, if op = .cas then (h.s64 (sregNo a + 1)).toNat % 256 ^ n else 0)

def hallAtom (op : AtomOp) (m : MemMod) (off : BitVec 20) (a b : Operand) (h : HallView) : HallRes :=
  let n := atomBytes (m.width == .w64)
  match h.s.checkLanes h.gr none n .atomic [(0, h.addr b (off.signExtend 64))] with
  | (_, .error t) => .trap t
  | (s, .ok ps) =>
    if h.gr.x.d2.isSome then .trap (.plain .detIllegalOp 0)
    else if atomRel m && !s.drained h.gr m.scope then .stall h.s
    else if !s.rmwReady h.gr h.agent ps (atomRel m) true m.scope then .stall h.s
    else
      let (s, olds) := s.rmwAll h.gr h.agent op n (ps.map (fun p => (p, h.atomData op n a)))
      .done { st := s.noteAtom h.gr h.agent false, s := sWrite a (BitVec.ofNat 64 (laneVal olds 0)) }

/-- ATOM (R106). -/
def execAtom (k : Ctl) (op : AtomOp) (m : MemMod) (off : BitVec 20) (a b : Operand) (s : State) :
    Host.Outcome State Fault Refusal :=
  runBoth (.atom k op m off a b) (hallAtom op m off a b) (warpAtom op m off a b) s

/-- The lanes' operations on the scratchpad in ascending order (R107). -/
def spadRmw (op : AtomOp) (n : Nat) (m : Memory) : List (Nat × Nat × Nat × Nat) → Memory × List (Nat × Nat)
  | [] => (m, [])
  | (l, off, x, y) :: rest =>
    let old := leNat (cellBytes m off n)
    let m' := cellsPut m (cellsAt off (leBytes n (atomNew op n old x y)))
    let r := spadRmw op n m' rest
    (r.1, (l, old) :: r.2)

def warpAtoms (op : AtomOp) (w64 : Bool) (off : BitVec 20) (a b : Operand) (v : WarpView) : WarpRes :=
  let n := atomBytes w64
  let xs := v.saddrs b (off.signExtend 32)
  match v.s.spadTrap v.gr n true xs with
  | some t => .trap t
  | none =>
    if !v.w.stores.isEmpty then .stall v.s
    else
      let r := spadRmw op n v.gr.x.spad (xs.map (fun x => (x.1, x.2, v.atomData op w64 a x.1)))
      .done { st := v.s.modX v.is.g (fun e =>
                { e with spad := r.1, dirty := (xs.map (fun x => x.2 / 4096)).foldl natPut e.dirty }),
              writes := v.wLong w64 a (fun l => BitVec.ofNat 64 (laneVal r.2 l)) }

/-- ATOMS (R107). -/
def execAtoms (k : Ctl) (op : AtomOp) (w64 : Bool) (off : BitVec 20) (a b : Operand) (s : State) :
    Host.Outcome State Fault Refusal :=
  runWarp (.atoms k op w64 off a b) (warpAtoms op w64 off a b) s

/-- The lanes' data merged by address, in ascending order of each address's lowest lane (R108). -/
def redMerge (op : AtomOp) (n : Nat) (xs : List (Place × Nat)) : List (Place × Nat) :=
  xs.foldl
    (fun acc x =>
      if acc.any (fun y => y.1.va == x.1.va) then
        acc.map (fun y => if y.1.va == x.1.va then (y.1, atomNew op n y.2 x.2 0) else y)
      else acc ++ [x])
    []

/-- The merged REDs enter the agent's queue, or are kept for a D2 point's merge (R108, R118, R303). -/
def State.issueRed (s : State) (gr : Group) (a : Agent) (op : AtomOp) (n : Nat) (xs : List (Place × Nat)) (rel : Option Scope) :
    State :=
  if gr.x.d2.isSome then
    s.modX gr.id (fun x => { x with d2 := x.d2.map (fun d =>
      { d with reds := d.reds ++ xs.map (fun y => (op, n, y.1.pa, BitVec.ofNat 64 y.2)) }) })
  else xs.foldl (fun s y => s.issueStore gr a (.red op n y.1.cls y.1.pa y.2 rel)) s

/-- ORDER of a RED that releases, and its scope. -/
def redRelease (m : MemMod) : Option Scope := if m.order == .rel then some m.scope else none

def warpRed (op : AtomOp) (m : MemMod) (off : BitVec 20) (a b : Operand) (v : WarpView) : WarpRes :=
  let n := atomBytes (m.width == .w64)
  match v.s.checkLanes v.gr (some v.is.w) n .atomic (v.addrs b (off.signExtend 64)) with
  | (_, .error t) => .trap t
  | (s, .ok ps) =>
    if v.gr.x.d2.isNone && !s.releaseReady v.gr v.agent m then .stall v.s
    else .done { st := s.issueRed v.gr v.agent op n (redMerge op n (ps.map (fun p => (p, v.datum m.width a p.lane)))) (redRelease m) }

def hallRed (op : AtomOp) (m : MemMod) (off : BitVec 20) (a b : Operand) (h : HallView) : HallRes :=
  let n := atomBytes (m.width == .w64)
  match h.s.checkLanes h.gr none n .atomic [(0, h.addr b (off.signExtend 64))] with
  | (_, .error t) => .trap t
  | (s, .ok ps) =>
    if h.gr.x.d2.isNone && !s.releaseReady h.gr h.agent m then .stall h.s
    else .done { st := s.issueRed h.gr h.agent op n (ps.map (fun p => (p, (h.r64 false a).toNat % 256 ^ n))) (redRelease m) }

/-- RED (R108). -/
def execRed (k : Ctl) (op : AtomOp) (m : MemMod) (off : BitVec 20) (a b : Operand) (s : State) :
    Host.Outcome State Fault Refusal :=
  runBoth (.red k op m off a b) (hallRed op m off a b) (warpRed op m off a b) s

/-! ### Tag tables (R94, R109, R110) -/

/-- A descriptor: the set count and the base, none where a reserved field is not zero (R94). -/
def tagTable (d : DWord) : Option (Nat × Nat) :=
  let n := d.toNat
  if n / 2 ^ 36 ≠ 0 ∨ n / 2 ^ 21 % 2 ^ 11 ≠ 0 ∨ n % 32 ≠ 0 then none
  else some (2 ^ (n / 2 ^ 32 % 16), n % 2 ^ 21)

/-- Key bits 61:0 and the set of a key (R94). -/
def tagKey (k : DWord) : Nat := k.toNat % 2 ^ 62
def tagSet (sets k : Nat) : Nat := (k ^^^ (k / 2 ^ 17) ^^^ (k / 2 ^ 34)) % sets

/-- The tag word of way `w` of the set at an offset. -/
def tagWord (m : Memory) (set w : Nat) : Nat := leNat (cellBytes m (set + 8 * w) 8)
def tagRef (x : Nat) : Bool := x.testBit 62

/-- One lookup: the slot way or the victim, whether it hit, and the REF bits that change with the offsets of their words (R109). -/
def tagLookup (m : Memory) (set k : Nat) : Bool × Nat × List (Nat × Bool) :=
  let ways := [0, 1, 2, 3]
  let word := fun w => tagWord m set w
  let put := fun w r => if tagRef (word w) = r then [] else [(set + 8 * w, r)]
  match ways.find? (fun w => tagValid (word w) && word w % 2 ^ 62 == k) with
  | some w => (true, w, put w true)
  | none =>
    match (ways.find? (fun w => !tagValid (word w))).orElse (fun _ => ways.find? (fun w => !tagRef (word w))) with
    | some w => (false, w, [])
    | none => (false, 0, ways.flatMap (fun w => put w false))

/-- A memory with REF bits of some tag words changed. -/
def refsPut (m : Memory) (ws : List (Nat × Bool)) : Memory :=
  ws.foldl (fun m w => cellsPut m (cellsAt (w.1 + 7) [BitVec.ofNat 8 (withRef (leNat (cellBytes m w.1 8)) w.2 / 2 ^ 56)])) m

/-- The lookups of the lanes in order: their results, and the REF bits that change (R109). -/
def tagLookups (sets base : Nat) (m : Memory) : List (Nat × Nat) → List (Nat × Bool × Nat) × List (Nat × Bool)
  | [] => ([], [])
  | (l, k) :: rest =>
    let j := tagSet sets k
    let (hit, w, cs) := tagLookup m (base + 32 * j) k
    let r := tagLookups sets base (refsPut m cs) rest
    ((l, hit, 4 * j + w) :: r.1, cs ++ r.2)

/-- The trap of a tag-table instruction: descriptor, bound, latch of the ranges that lanes touch. DESIGN CHOICE (log entry 75): a table
that runs past the allocation faults at its base in every active lane. -/
def WarpView.tagTrap (v : WarpView) (d : DWord) (touched : List (Nat × Nat × Nat)) : Option Trap :=
  match tagTable d with
  | none => some (.plain .illegalOperand v.active)
  | some (sets, base) =>
    if v.gr.image.spad < base + 32 * sets then some ⟨.pageFault, v.active, BitVec.ofNat 64 base, 5⟩
    else laneTrap (touched.filterMap (fun x =>
      if v.s.locked v.gr.ctx (some v.gr.id) v.gr.id x.2.1 x.2.2 true then
        some (x.1, Cause.rangeLocked, BitVec.ofNat 64 x.2.1, 0)
      else none))

/-- The descriptor that a warp reads from a scalar. -/
def WarpView.descriptor (v : WarpView) (c : Operand) : DWord := v.r64 false c 0

/-- A store of the warp's queue that touches the table. -/
def WarpView.tableBusy (v : WarpView) (sets base : Nat) : Bool :=
  v.w.stores.any (fun x => x.inSpad base (32 * sets))

def warpSplook (a b c : Operand) (v : WarpView) : WarpRes :=
  if v.active = 0 then .done { st := v.s }
  else
    let d := v.descriptor c
    let (sets, base) := (tagTable d).getD (1, 0)
    let keys := (Mask.lanes v.active).map (fun l => (l, tagKey (v.r64 false b l)))
    match v.tagTrap d (keys.map (fun x => (x.1, base + 32 * tagSet sets x.2, 32))) with
    | some t => .trap t
    | none =>
      if v.tableBusy sets base then .stall v.s
      else
        let r := tagLookups sets base v.gr.x.spad keys
        .done { st := if r.2.isEmpty then v.s else v.s.issueStore v.gr v.agent (.refs r.2),
                writes := v.w64 a (fun l =>
                  match r.1.find? (fun x => x.1 == l) with
                  | some (_, hit, slot) =>
                    (BitVec.ofNat 32 slot ++ (if hit then BitVec.ofNat 32 slot else 0xFFFFFFFF) : BitVec 64)
                  | none => 0) }

/-- SPLOOK (R109). -/
def execSplook (k : Ctl) (a b c : Operand) (s : State) : Host.Outcome State Fault Refusal :=
  runWarp (.splook k a b c) (warpSplook a b c) s

/-- The tag words that lanes write, in ascending lane order (R110). -/
def warpTag (a c : Operand) (word : Nat → Nat) (v : WarpView) : WarpRes :=
  if v.active = 0 then .done { st := v.s }
  else
    let d := v.descriptor c
    let (sets, base) := (tagTable d).getD (1, 0)
    let xs := (Mask.lanes v.active).map (fun l => (l, base + 8 * ((v.r32 false a l).toNat % (4 * sets))))
    match v.tagTrap d (xs.map (fun x => (x.1, x.2, 8))) with
    | some t => .trap t
    | none => .done { st := v.s.issueSpad v.gr v.agent (spadData 8 xs word) [] [] }

/-- SPTAG (R110). -/
def execSptag (k : Ctl) (a b c : Operand) (s : State) : Host.Outcome State Fault Refusal :=
  runWarp (.sptag k a b c) (fun v => warpTag a c (fun l => 2 ^ 63 + 2 ^ 62 + tagKey (v.r64 false b l)) v) s

/-- SPTAG.DEL (R110). -/
def execSptagDel (k : Ctl) (a c : Operand) (s : State) : Host.Outcome State Fault Refusal :=
  runWarp (.sptagDel k a c) (warpTag a c (fun _ => 0)) s

/-! ### Fences (R111, R123, R124) -/

/-- FENCE (R111). -/
def execFence (k : Ctl) (kind : FenceKind) (sc : Scope) (s : State) : Host.Outcome State Fault Refusal :=
  runWarp (.fence k kind sc) (fun v =>
    if v.s.fenceReady v.gr v.agent kind sc then .done { st := v.s } else .stall v.s) s

/-- FENCE.H (R111): all but acq drain the group's warps first (R124). -/
def execFenceH (k : Ctl) (kind : FenceKind) (sc : Scope) (s : State) : Host.Outcome State Fault Refusal :=
  runHall (.fenceH k kind sc) (fun h =>
    if h.s.fenceReady h.gr h.agent kind sc && (kind == .acq || h.s.drained h.gr sc) then .done { st := h.s }
    else .stall h.s) s

/-! ### WAITMEM (R112) -/

def waitCond (c : WaitCond) (mem a : Nat) : Bool :=
  match c with
  | .ne => mem != a
  | .eq => mem == a
  | .ge => decide (a ≤ mem)

/-- The watched words whose condition is true now. -/
def State.wordsTrue (s : State) (c : WaitCond) (ws : List WatchWord) : Mask :=
  ws.foldl (fun m x =>
    if waitCond c (leNat (s.readUnit x.cls x.pa x.width).2) x.value.toNat then m ||| BitVec.twoPow 32 x.lane else m) 0

/-- Lanes that an earlier evaluation of the same wait has seen true. -/
def priorSeen (p : Option WaitKind) : Mask :=
  match p with
  | some (.waitmem seen ..) => seen
  | _ => 0

/-- What ended an earlier wait of the same instruction: every lane's condition has been seen, or a range was locked over some of its
words (R112). -/
inductive WaitEnd where
  | met
  | locked (t : Trap)
  deriving DecidableEq, Repr

/-- How a WAITMEM that has waited goes on: no fault is checked again (R112). -/
def waitEnd (p : Option WaitKind) : Option WaitEnd :=
  match p with
  | some (.waitmem seen locked _ ws) =>
    if ws.all (fun x => seen.has x.lane) then some .met
    else if locked = 0 then none
    else some (.locked ⟨.rangeLocked, locked,
      ((ws.find? (fun x => locked.has x.lane)).map (fun x => BitVec.ofNat 64 x.va)).getD 0, 0⟩)
  | _ => none

def watchWords (n : Nat) (ps : List Place) (f : Nat → Nat) : List WatchWord :=
  ps.map (fun p => ⟨p.lane, p.va, p.pa, p.cls, n, BitVec.ofNat 64 (f p.lane)⟩)

/-- The condition evaluated against what the agent's loads return (R112, R118, R303). -/
def State.waitSeen (s : State) (gr : Group) (a : Agent) (q : List Store) (c : WaitCond) (n : Nat) (ps : List Place)
    (f : Nat → Nat) : Option Mask :=
  match (s.loadPlaces gr a q n ps).2 with
  | none => none
  | some vs => some (vs.foldl (fun m x => if waitCond c x.2 (f x.1) then m ||| BitVec.twoPow 32 x.1 else m) 0)

/-- On a determined core a path whose WAITMEM finds its condition at once goes on when the check is usable (R294). -/
def State.checkedWait (s : State) (v : WarpView) : State :=
  if v.prior.isSome || !s.coreDetermined v.gr.core then s
  else s.modWarp v.is.g v.is.w (fun w => w.modThreads v.is.lanes (fun t => { t with notBefore := s.vtimeOf v.gr.ctx + 64 }))

def warpWaitmem (cnd : WaitCond) (w64 : Bool) (off : BitVec 24) (a b : Operand) (v : WarpView) : WarpRes :=
  let n := atomBytes w64
  let value := fun l => (v.scalarSrc false w64 a l).toNat
  match waitEnd v.prior with
  | some .met => .done { st := v.s }
  | some (.locked t) => .trap t
  | none =>
    match v.s.checkLanes v.gr (some v.is.w) n .load (v.addrs b (off.signExtend 64)) with
    | (_, .error t) => .trap t
    | (s, .ok ps) =>
      match s.waitSeen v.gr v.agent v.w.stores cnd n ps value with
      | none => .stall v.s
      | some now =>
        let seen := now ||| priorSeen v.prior
        if seen &&& v.active == v.active then .done { st := s.checkedWait v }
        else .wait s (.waitmem seen 0 cnd (watchWords n ps value))

def hallWaitmem (cnd : WaitCond) (w64 : Bool) (off : BitVec 24) (a b : Operand) (h : HallView) : HallRes :=
  let n := atomBytes w64
  let value := fun (_ : Nat) => (h.r64 false a).toNat % 256 ^ n
  match waitEnd h.prior with
  | some .met => .done { st := h.s }
  | some (.locked t) => .trap { t with mask := 0 }
  | none =>
    match h.s.checkLanes h.gr none n .load [(0, h.addr b (off.signExtend 64))] with
    | (_, .error t) => .trap t
    | (s, .ok ps) =>
      match s.waitSeen h.gr h.agent h.gr.hall.stores cnd n ps value with
      | none => .stall h.s
      | some now =>
        if (now ||| priorSeen h.prior).has 0 then .done { st := s }
        else .wait s (.waitmem 0 0 cnd (watchWords n ps value))

/-- WAITMEM (R112). -/
def execWaitmem (k : Ctl) (cnd : WaitCond) (sc : Scope) (w64 : Bool) (off : BitVec 24) (a b : Operand) (s : State) :
    Host.Outcome State Fault Refusal :=
  runBoth (.waitmem k cnd sc w64 off a b) (hallWaitmem cnd w64 off a b) (warpWaitmem cnd w64 off a b) s

/-! ### PREF and CINV (R113, R114) -/

/-- PREF (R113): no effect that a program can observe. -/
def execPref (k : Ctl) (off : BitVec 24) (b : Operand) (s : State) : Host.Outcome State Fault Refusal :=
  runBoth (.pref k off b) (fun h => .done { st := h.s }) (fun v => .done { st := v.s }) s

/-- Cores within the scope of a CINV.I from a core. -/
def inCinvScope (sc : CinvScope) (mine other : Nat) : Bool :=
  match sc with
  | .core => mine == other
  | .cluster => clusterOf mine == clusterOf other
  | .die => dieOf mine == dieOf other
  | .device => true

/-- The instruction caches of the partition's cores in the scope are emptied. -/
def State.dropCode (s : State) (gr : Group) (sc : CinvScope) : State :=
  match s.ctx? gr.ctx with
  | none => s
  | some c => { s with code := s.code.filter (fun b => !(c.cores.contains b.core && inCinvScope sc gr.core b.core)) }

/-- CINV.I (R114). -/
def execCinvI (k : Ctl) (sc : CinvScope) (s : State) : Host.Outcome State Fault Refusal :=
  runHall (.cinvI k sc) (fun h =>
    if h.engineDrained then .done { st := h.s.dropCode h.gr sc } else .stall h.s) s

/-- Translation of lanes without the latch table and without alignment (R30, R97, R114). -/
def State.translateLanes (s : State) (gr : Group) (w : Option Nat) (xs : List (Nat × Nat)) :
    State × Except Trap (List (Nat × Nat)) :=
  match s.ctx? gr.ctx with
  | none => (s, .ok [])
  | some c =>
    let r := xs.foldl
      (fun (st : State × List (Nat × Nat) × List (Nat × Cause × DWord × Nat)) x =>
        match st.1.translate c x.2 .load with
        | (s, .ok (pa, cls)) => (s, st.2.1 ++ [(pa, cls)], st.2.2)
        | (s, .error (cause, k)) =>
          let cause := match w with
            | some w => if cause = .pageFault && k = 1 && inWindow gr w x.1 x.2 then .stackGrow else cause
            | none => cause
          (s, st.2.1, st.2.2 ++ [(x.1, cause, BitVec.ofNat 64 x.2, k)]))
      (s, [], [])
    match laneTrap r.2.2 with
    | some t => (r.1, .error t)
    | none => (r.1, .ok r.2.1)

/-- The lines of cached pages that a CINV.L2 names, each once. -/
def cinvLines (ps : List (Nat × Nat)) : List Nat :=
  (ps.filter (fun p => p.2 == 0)).foldl (fun l p => natPut l (p.1 / 128)) []

/-- CINV.L2 (R114): the lines take their place in the agent's store queue. -/
def execCinvL2 (k : Ctl) (off : BitVec 24) (b : Operand) (s : State) : Host.Outcome State Fault Refusal :=
  runBoth (.cinvL2 k off b)
    (fun h =>
      match h.s.translateLanes h.gr none [(0, h.addr b (off.signExtend 64))] with
      | (_, .error t) => .trap t
      | (s, .ok ps) => .done { st := s.issueStore h.gr h.agent (.cinv (cinvLines ps)) })
    (fun v =>
      match v.s.translateLanes v.gr (some v.is.w) (v.addrs b (off.signExtend 64)) with
      | (_, .error t) => .trap t
      | (s, .ok ps) => .done { st := if ps.isEmpty then s else s.issueStore v.gr v.agent (.cinv (cinvLines ps)) }) s

/-! ### The latch table (R96, R115, R127) -/

/-- Two holders are one: a group's own registrations do not hold each other back (R96). -/
def sameHolder (a b : Holder) : Bool :=
  match a, b with
  | .manual g _, .manual h _ => g == h
  | _, _ => a == b

/-- A registration need not wait for a range of another holder (R96). -/
def State.latchFree (s : State) (r : Latch) : Bool :=
  s.latches.all (fun l => l.ctx != r.ctx || l.spad != r.spad || !l.overlaps r.lo r.len || sameHolder l.holder r.holder ||
    (!l.dst && !r.dst))

/-- The dies whose tables a range takes an entry of (R96). -/
def State.latchDies (s : State) (r : Latch) : List Nat :=
  match r.spad with
  | some g => ((s.group? g).map (fun gr => [dieOf gr.core])).getD []
  | none => ((s.ctx? r.ctx).map Ctx.dies).getD []

/-- Entries taken in a die's table. -/
def State.latchCount (s : State) (die : Nat) : Nat := (s.latches.filter (fun l => (s.latchDies l).contains die)).length

/-- All ranges of a registration can be entered in one step (R96). -/
def State.latchFits (s : State) (rs : List Latch) : Bool :=
  rs.all (fun r => s.latchFree r) &&
  (List.range Config.dies).all (fun d =>
    decide (s.latchCount d + (rs.filter (fun r => (s.latchDies r).contains d)).length ≤ Config.latchEntries))

/-- A registered destination ends the WAITMEMs that watch words in it (R112). -/
def Wait.seesLatch (g ctx : Nat) (ls : List Latch) (x : Wait) : Wait :=
  match x.kind with
  | .waitmem seen locked cnd ws =>
    if x.ended then x
    else
      let hit := fun (y : WatchWord) => ls.any (fun l => l.dst && l.ctx == ctx && l.spad.isNone && l.overlaps y.va y.width &&
        (match l.holder with
        | .manual h _ => h != g
        | _ => true))
      { x with kind := .waitmem seen (locked ||| ((ws.filter hit).foldl (fun m y => m ||| BitVec.twoPow 32 y.lane) 0)) cnd ws }
  | _ => x

/-- Registrations enter the tables. -/
def State.enter (s : State) (ls : List Latch) : State :=
  if !ls.any (fun l => l.dst && l.spad.isNone) then { s with latches := s.latches ++ ls }
  else
    { s with
      latches := s.latches ++ ls
      groups := s.groups.map (fun (gr : Group) =>
        { gr with
          hall := { gr.hall with wait := gr.hall.wait.map (Wait.seesLatch gr.id gr.ctx ls) }
          warps := gr.warps.map (fun w => { w with waits := w.waits.map (Wait.seesLatch gr.id gr.ctx ls) }) }) }

def State.latchDrop (s : State) (ctx : Nat) (h : Holder) : State :=
  { s with latches := s.latches.filter (fun l => l.ctx != ctx || l.holder != h) }

/-- The registration that a Hall waits for. -/
def State.latchWait (s : State) (g : Nat) : Option LatchWait := s.latchWaits.find? (fun w => w.g == g)

/-- A Hall registers ranges: it asks, and goes on once they are granted (R96). -/
def State.latchAsk (s : State) (gr : Group) (rs : List Latch) : State × Bool :=
  match s.latchWait gr.id with
  | some w =>
    if w.granted then ({ s with latchWaits := s.latchWaits.filter (fun x => x.g != gr.id) }, true) else (s, false)
  | none => ({ s with latchWaits := s.latchWaits ++ [⟨gr.ctx, gr.id, rs, s.cycles.toNat, false⟩] }, false)

/-- The request of a waiting registration (R286). -/
def State.latchAskOf (s : State) (w : LatchWait) : Option Ask := (s.group? w.g).map (fun gr => s.hallAsk gr w.since)

/-- No replayed trace holds a registration of the group back (R299). -/
def State.traceLets (s : State) (g : Nat) : Bool :=
  match s.group? g with
  | none => true
  | some gr =>
    match s.traceGrant gr with
    | .hold => false
    | .go _ | .mismatch _ _ => true

/-- The core of a scratchpad registration that waits. -/
def State.spadCore (s : State) (w : LatchWait) : Option Nat :=
  if w.ranges.any (fun r => r.spad.isSome) then (s.group? w.g).map (·.core) else none

/-- A registration in the scratchpad of the core came to the commit point before and has not been granted (R127). -/
def State.spadBefore (s : State) (core : Nat) (ws : List LatchWait) : Bool :=
  ws.any (fun x => !x.granted && s.spadCore x == some core && s.traceLets x.g)

/-- Another registration comes first: one of the context that could be entered (R286), or one in the same core's scratchpad (R127). -/
def State.latchAfter (s : State) (w : LatchWait) : Bool :=
  (match s.spadCore w with
  | some core => s.spadBefore core (s.latchWaits.takeWhile (fun x => x != w))
  | none => false) ||
  s.latchWaits.any (fun x => x != w && x.ctx == w.ctx && !x.granted && s.latchFits x.ranges && s.traceLets x.g &&
    (match s.latchAskOf x, s.latchAskOf w with
    | some a, some b => a.before s.cycles.toNat b
    | _, _ => false))

/-- A registration is granted. -/
def State.grant (s : State) (w : LatchWait) : State :=
  ({ s with latchWaits := s.latchWaits.map (fun x => if x = w then { x with granted := true } else x) }).enter w.ranges

/-- The group's registration ordinal rises at a grant (R297). -/
def State.countGrant (s : State) (g : Nat) : State := s.modX g (fun x => { x with regOrdinal := x.regOrdinal + 1 })

/-- The grants of `n` global ranges of one registration, in their order (R298, R299). -/
def State.traceGrants (g : Nat) : Nat → State → TraceResult
  | 0, s => .go s
  | n + 1, s =>
    match s.group? g with
    | none => .go s
    | some gr =>
      match s.traceGrant gr with
      | .go s => (s.countGrant g).traceGrants g n
      | .hold => .hold
      | .mismatch s t => .mismatch s t

/-- LATCH_GRANT: registration `i` of a context that waits is granted, in the order that a replayed trace dictates (R96,
R127, R299). -/
def execLatchGrant (ctx i : Nat) (s : State) : Host.Outcome State Fault Refusal :=
  finish s (match (s.latchWaits.filter (fun w => w.ctx == ctx && !w.granted))[i]? with
    | none => s
    | some w =>
      if !s.latchFits w.ranges || s.latchAfter w then s
      else
        match s.traceGrants w.g (w.ranges.filter (fun r => r.spad.isNone)).length with
        | .go s => s.grant w
        | .hold => s
        | .mismatch s t => ((s.grant w).countGrant w.g).hallTrap w.g t)

/-- The lowest free handle of a group's manual registrations (R115). -/
def freeHandle (ls : List ManualLatch) : Option Nat :=
  (List.range 16).find? (fun h => !ls.any (fun l => l.handle == h))

/-- What a LATCH may not name (R115). -/
def latchRefused (gr : Group) (sp : Bool) (lo len : Nat) : Bool :=
  len == 0 || decide (2 ^ 32 < len) || decide (2 ^ 64 < lo + len) || (sp && decide (gr.image.spad < lo + len))

/-- LATCH.SRC and LATCH.DST (R115). -/
def hallLatch (dst sp : Bool) (a b c : Operand) (h : HallView) : HallRes :=
  let lo := (h.r64 false b).toNat
  let len := (h.r64 false c).toNat
  match freeHandle h.gr.x.latches with
  | none => .trap (.plain .illegalOperand 0)
  | some n =>
    if latchRefused h.gr sp lo len then .trap (.plain .illegalOperand 0)
    else
      let r : Latch := ⟨h.gr.ctx, if sp then some h.gr.id else none, lo, len, dst, .manual h.gr.id n⟩
      match h.s.latchAsk h.gr [r] with
      | (s, false) => .stall s
      | (s, true) =>
        .done { st := s.modX h.gr.id (fun x => { x with latches := x.latches ++ [⟨n, lo, sp⟩] }),
                s := sWrite a (BitVec.ofNat 64 n) }

/-- LATCH.SRC (R115). -/
def execLatchSrc (k : Ctl) (sp : Bool) (a b c : Operand) (s : State) : Host.Outcome State Fault Refusal :=
  runHall (.latchSrc k sp a b c) (hallLatch false sp a b c) s

/-- LATCH.DST (R115). -/
def execLatchDst (k : Ctl) (sp : Bool) (a b c : Operand) (s : State) : Host.Outcome State Fault Refusal :=
  runHall (.latchDst k sp a b c) (hallLatch true sp a b c) s

/-- LATCH.REL (R115). DESIGN CHOICE (log entry 75): a handle of the other space is not held. -/
def execLatchRel (k : Ctl) (sp : Bool) (b : Operand) (s : State) : Host.Outcome State Fault Refusal :=
  runHall (.latchRel k sp b) (fun h =>
    let n := (h.r64 false b).toNat
    if h.gr.x.latches.any (fun l => l.handle == n && l.spad == sp) then
      .done { st := (h.s.latchDrop h.gr.ctx (.manual h.gr.id n)).modX h.gr.id (fun x =>
        { x with latches := x.latches.filter (fun l => l.handle != n) }) }
    else .trap (.plain .illegalOperand 0)) s

end Sys2Proof.Machine
end

