-- ==== Sys2Proof/Machine/AccessProc.lean ====
section
/-! DEFINITION. The access processor (R319 to R340): queues and programs, APRUN, the queue instructions of programs and
of warps, and QCTL. -/

namespace Sys2Proof.Machine

open Sys2Proof

/-! ### Queues and programs (R319 to R322) -/

def Group.queue? (gr : Group) (q : Nat) : Option ApQueue := gr.x.queues.find? (fun k => k.name == q)

/-- The program to which a name is mapped. -/
def Group.owner? (gr : Group) (q : Nat) : Option ApProgram := (gr.queue? q).bind (fun k => gr.program? k.program)

def State.modQueue (s : State) (g q : Nat) (f : ApQueue → ApQueue) : State :=
  s.modX g (fun x => { x with queues := x.queues.map (fun k => if k.name == q then f k else k) })

/-- The number of a queue operand. -/
def queueNo : Operand → Nat
  | .queue q => q.toNat
  | _ => 0

/-- The name is mapped for the group with the kind (R319). -/
def Group.mapped (gr : Group) (q : Nat) (store : Bool) : Option ApQueue :=
  (gr.queue? q).bind (fun k => if k.isStore == store then some k else none)

/-- A queue is freed once its program has ended: a store queue at once, a load queue when nothing is left in it (R322). -/
def Group.freed (gr : Group) (k : ApQueue) : Bool :=
  match gr.program? k.program with
  | some p => p.state == .ended && (k.isStore || k.slots.isEmpty)
  | none => true

/-- The status record that the name keeps (R322). -/
def Group.apRecord (gr : Group) (k : ApQueue) : ApRecord :=
  match gr.program? k.program with
  | some p => ⟨k.name, k.program, BitVec.ofNat 8 (match p.fault with
      | some (t, _) => t.cause.code
      | none => 0), p.pc⟩
  | none => ⟨k.name, k.program, 0, 0⟩

/-- Frees the queues that R322 frees, and forgets ended programs of which nothing is left. -/
def Group.sweep (gr : Group) : Group :=
  let gone := gr.x.queues.filter (fun k => gr.freed k)
  let kept := gr.x.queues.filter (fun k => !gr.freed k)
  { gr with x := { gr.x with
      queues := kept
      records := gr.x.records.filter (fun (r : ApRecord) => !gone.any (fun k => k.name == r.name)) ++ gone.map gr.apRecord
      programs := gr.x.programs.filter (fun (p : ApProgram) => p.state != .ended || !p.flights.isEmpty || !p.issued.isEmpty ||
        kept.any (fun k => k.program == p.id)) } }

def State.sweep (s : State) (g : Nat) : State := s.modGroup g Group.sweep

/-- The program executes EXIT (R321). -/
def State.exitProgram (s : State) (g p : Nat) : State :=
  (s.modProgram g p (fun q => { q with state := .ended, stalled := false })).sweep g

/-- What a flight delivers to a scratchpad: eight granules, each set full (R330). -/
def GroupExtra.spadFlight (x : GroupExtra) (off : Nat) (ws : Lanes Word) : GroupExtra :=
  x.spadWrite (laneNumbers.flatMap (fun l => cellsAt (off + 4 * l) (leBytes 4 (ws.get l).toNat)))
    ((List.range 8).map (fun j => off / 16 + j)) []

/-- The first PENDING entry of a queue becomes FULL (R330). -/
def fillFirst (ws : Lanes Word) : List QueueSlot → List QueueSlot
  | [] => []
  | x :: xs => if x.state == .pending then ⟨.full, BitVec.allOnes 32, ws⟩ :: xs else x :: fillFirst ws xs

/-- The words of an AQLD; none where an own store supplies a part of one only (R325). -/
def State.apLoad (s : State) (gr : Group) (p : ApProgram) (places : List (Nat × Nat)) : State × Option (Lanes Word) :=
  let ps := (List.range places.length).map (fun l => Place.mk l 0 (places.getD l (0, 0)).1 (places.getD l (0, 0)).2)
  let r := s.agentLoad gr (.ap gr.id p.id) p.issued 4 ps
  (r.1, r.2.map (fun vs => Lanes.of (fun l => BitVec.ofNat 32 (laneVal vs l))))

/-- The flight's words arrive (R330). -/
def State.landFlight (s : State) (g p : Nat) (f : Flight) (ws : Lanes Word) : State :=
  let s := match f.queue with
    | none => s.modX g (fun x => x.spadFlight f.offset ws)
    | some q => s.modQueue g q (fun k => { k with slots := fillFirst ws k.slots })
  s.modProgram g p (fun x => { x with flights := x.flights.erase f })

/-- A flight's words: those fixed at its issue, or what memory gives now. -/
def State.flightWords (s : State) (gr : Group) (p : ApProgram) (f : Flight) : State × Option (Lanes Word) :=
  match f.words with
  | some ws => (s, some ws)
  | none => s.apLoad gr p f.places

/-- The accesses of a program that are in flight complete (R335, R338). -/
def State.landAll (s : State) (g p : Nat) : State :=
  ((((s.group? g).bind (fun gr => gr.program? p)).map (·.flights)).getD []).foldl
    (fun s f =>
      match s.group? g with
      | none => s
      | some gr =>
        match gr.program? p with
        | none => s
        | some q =>
          match s.flightWords gr q f with
          | (s, some ws) => s.landFlight g p f ws
          | (s, none) => s)
    s

/-- The program ends as QCTL.KILL ends it: accesses in flight complete first, and its queues are freed (R322, R335). -/
def State.killProgram (s : State) (g p : Nat) : State :=
  let s := (s.landAll g p).drainAgent g (.ap g p)
  let s := match s.group? g with
    | some gr => s.performAll gr.ctx (some gr.core)
    | none => s
  (s.modX g (fun x => { x with
    programs := x.programs.map (fun q => if q.id == p then { q with state := .ended, stalled := false } else q)
    queues := x.queues.map (fun k => if k.program == p then { k with slots := [] } else k) })).sweep g

/-- Every program of a group ends (R322). -/
def State.killPrograms (s : State) (g : Nat) : State :=
  (((s.group? g).map (fun gr => gr.x.programs.map (·.id))).getD []).foldl (fun s p => s.killProgram g p) s

/-- A stopped program runs again: its record is cleared, and a POISONED entry becomes PENDING for the AQLD that is
reissued (R335). -/
def State.retryProgram (s : State) (g p : Nat) : State :=
  s.modX g (fun x => { x with
    programs := x.programs.map (fun q => if q.id == p then { q with state := .running, fault := none } else q)
    queues := x.queues.map (fun k =>
      if k.program == p then
        { k with slots := k.slots.map (fun e => if e.state == .poisoned then { e with state := .pending } else e) }
      else k) })

/-- TRET.RETRY from a QUEUE_FAULT first does what QCTL.RETRY does for the queue's program (R337). -/
def State.queueRetry (s : State) (g q : Nat) : State :=
  match (s.group? g).bind (fun gr => gr.owner? q) with
  | some p => if p.state == .stopped then s.retryProgram g p.id else s
  | none => s

/-! ### APRUN (R329) -/

/-- The names whose bits are set in a mask. -/
def maskNames (m : Nat) : List Nat := (List.range 8).filter (fun i => m.testBit i)

/-- `n` physical queues of the core are free, and U_QUEUES allows them (R13, R319). -/
def State.queuesFit (s : State) (gr : Group) (n : Nat) : Bool :=
  decide (((s.groups.filter (fun x => x.inPlace && x.core == gr.core)).map (fun x => x.x.queueCount)).sum + n ≤ 8) &&
    s.fits gr.ctx gr.home .uQueues .bQueues n

/-- Another group of the core waits for a queue that it could have, and comes first (R286). -/
def State.queuesAfter (s : State) (gr : Group) (since : Nat) : Bool :=
  s.groups.any (fun x => x.id != gr.id && x.resident && x.core == gr.core &&
    (match x.x.asks with
    | some a => s.queuesFit x 1 && (s.hallAsk x a.since).before s.cycles.toNat (s.hallAsk gr since)
    | none => false))

/-- An APRUN maps the names that are left one after another, each when a queue is free; whether all are mapped (R329). -/
def State.mapNames (g : Nat) : List Nat → QueueAsk → State → State × Bool
  | [], a, s => (s.modX g (fun x => { x with asks := some a }), true)
  | q :: qs, a, s =>
    let t := s.modX g (fun x => { x with asks := some a })
    match t.group? g with
    | none => (t, false)
    | some gr =>
      if t.queuesFit gr 1 && !t.queuesAfter gr a.since then State.mapNames g qs ⟨s.cycles.toNat, a.got ++ [q]⟩ t else (t, false)

/-- A program at its start (R329). -/
def ApProgram.start (id : Nat) (entry : Word) (arg : DWord) (lm sm : Nat) : ApProgram where
  id := id
  state := .running
  stalled := false
  pc := entry
  sc := ⟨(Vector.replicate 64 0).set 0 arg, 1⟩
  tokens := 0
  late := 0
  lateAt := 0
  loads := BitVec.ofNat 8 lm
  stores := BitVec.ofNat 8 sm
  fault := none
  issued := []
  flights := []

/-- The queues are mapped and the program runs. -/
def GroupExtra.startProgram (x : GroupExtra) (id : Nat) (entry : Word) (arg : DWord) (lm sm : Nat) : GroupExtra :=
  let names := maskNames (lm ||| sm)
  { x with
    programs := x.programs ++ [ApProgram.start id entry arg lm sm]
    queues := x.queues ++ names.map (fun (n : Nat) => (⟨n, id, sm.testBit n, []⟩ : ApQueue))
    records := x.records.filter (fun (r : ApRecord) => !names.contains r.name)
    asks := none }

def hallAprun (a b c : Operand) (h : HallView) : HallRes :=
  let m := (h.r64 false c).toNat
  let lm := m % 256
  let sm := m / 256 % 256
  let names := maskNames (lm ||| sm)
  let answer := fun (st : State) (n : Nat) => HallRes.done { st := st, s := sWrite a (BitVec.ofNat 64 n) }
  if 65536 ≤ m then .trap (.plain .illegalOperand 0)
  else if !h.engineDrained then .stall h.s
  else if names.isEmpty || (lm &&& sm) != 0 then answer h.s 2
  else if names.any (fun n => (h.gr.queue? n).isSome) then answer h.s 1
  else
    let ask := h.gr.x.asks.getD ⟨h.s.cycles.toNat, []⟩
    match State.mapNames h.gr.id (names.filter (fun n => !ask.got.contains n)) ask h.s with
    | (s, false) => .stall s
    | (s, true) =>
      answer (({ s with nextId := s.nextId + 1 }).modX h.gr.id (fun x =>
        x.startProgram s.nextId (h.r32 false b) (h.s64 (sregNo b + 1)) lm sm)) 0

/-- APRUN (R329). -/
def execAprun (k : Ctl) (a b c : Operand) (s : State) : Host.Outcome State Fault Refusal :=
  runHall (.aprun k a b c) (hallAprun a b c) s

/-! ### AQLD, AQST, AQSYN (R326, R330 to R332) -/

/-- The program of a view. -/
def HallView.program (h : HallView) : Option ApProgram :=
  match h.agent with
  | .ap _ p => h.gr.program? p
  | .hall _ | .warp _ _ => none

/-- Qaddr of the lanes of a mask (R326). -/
def HallView.qaddrs (h : HallView) (str : Bool) (off : BitVec 24) (b : Operand) (m : Mask) : List (Nat × Nat) :=
  let step := if str then h.s64 (sregNo b + 1) else 4
  (Mask.lanes m).map (fun l => (l, (h.r64 false b + off.signExtend 64 + BitVec.ofNat 64 l * step).toNat))

/-- Accesses that the core's access processor has in flight (R321). -/
def State.apFlying (s : State) (core : Nat) : Nat :=
  ((s.groups.filter (fun gr => gr.inPlace && gr.core == core)).flatMap (fun gr =>
    gr.x.programs.map (fun p => p.flights.length + p.issued.length))).sum

/-- An AQLD leaves (R330): on a determined core its words are fixed now and arrive 64 rotations later (R311, R339); none
where an own store supplies a part of them only. -/
def State.launch (s : State) (gr : Group) (p : ApProgram) (queue : Option Nat) (offset : Nat) (ps : List Place) :
    Option State :=
  let places := ps.map (fun x => (x.pa, x.cls))
  let put := fun (s : State) (ws : Option (Lanes Word)) (r : Nat) =>
    some (s.modProgram gr.id p.id (fun q => { q with flights := q.flights ++ [⟨queue, offset, places, ws, r⟩] }))
  if s.coreDetermined gr.core then
    (match s.apLoad gr p places with
    | (s, some ws) => put s (some ws) (s.vtimeOf gr.ctx + 64)
    | (_, none) => none)
  else put s none 0

/-- The state of the entry that an AQLD reserves: one left by a retry, or a new one at the tail (R330, R335). -/
def reserve (k : ApQueue) (flying : Nat) (x : SlotState) : Option (List QueueSlot) :=
  let pending := (k.slots.filter (fun e => e.state == .pending)).length
  if flying < pending then
    some ((k.slots.take (k.slots.length - 1)) ++ [⟨x, 0, Lanes.all 0⟩])
  else if k.slots.length < 32 then some (k.slots ++ [⟨x, 0, Lanes.all 0⟩])
  else none

/-- Flights that fill a queue. -/
def Group.flightsOf (gr : Group) (q : Nat) : Nat :=
  ((gr.x.programs.flatMap (·.flights)).filter (fun f => f.queue == some q)).length

def apAqld (str : Bool) (off : BitVec 24) (a b : Operand) (h : HallView) : HallRes :=
  let q := queueNo a
  match h.program, h.gr.mapped q false with
  | some p, some k =>
    (match reserve k (h.gr.flightsOf q) .pending with
    | none => .stall h.s
    | some slots =>
      if 64 ≤ h.s.apFlying h.gr.core then .stall h.s
      else
        match h.s.checkLanes h.gr none 4 .load (h.qaddrs str off b (BitVec.allOnes 32)) with
        | (s, .error t) =>
          .fault (s.modQueue h.gr.id q (fun k => { k with slots := (reserve k (h.gr.flightsOf q) .poisoned).getD k.slots })) t
        | (s, .ok ps) =>
          match (s.modQueue h.gr.id q (fun k => { k with slots := slots })).launch h.gr p (some q) 0 ps with
          | some s => .done { st := s }
          | none => .stall h.s)
  | _, _ => .trap (.plain .illegalOperand 0)

/-- AQLD (R330). -/
def execAqld (k : Ctl) (str : Bool) (off : BitVec 24) (a b : Operand) (s : State) : Host.Outcome State Fault Refusal :=
  runAp (.aqld k str off a b) (apAqld str off a b) s

/-- What a scratchpad destination of AQLD.SP may not be (R92, R97, R330). -/
def State.spTrap (s : State) (gr : Group) (o : Nat) : Option Trap :=
  let at_ := fun (c : Cause) (k : BitVec 8) => some (⟨c, BitVec.allOnes 32, BitVec.ofNat 64 o, k⟩ : Trap)
  if o % 16 ≠ 0 then at_ .misaligned 0
  else if gr.image.spad < o + 128 then at_ .pageFault 5
  else if s.locked gr.ctx (some gr.id) gr.id o 128 true then at_ .rangeLocked 0
  else none

def apAqldSp (str : Bool) (off : BitVec 24) (a b : Operand) (h : HallView) : HallRes :=
  let o := (h.r64 false a).toNat % 2 ^ 21
  match h.program with
  | none => .stall h.s
  | some p =>
    if 64 ≤ h.s.apFlying h.gr.core then .stall h.s
    else
      match h.s.checkLanes h.gr none 4 .load (h.qaddrs str off b (BitVec.allOnes 32)), h.s.spTrap h.gr o with
      | (_, .error t), some u => .trap (t.worse u)
      | (_, .error t), none => .trap t
      | (_, .ok _), some u => .trap u
      | (s, .ok ps), none =>
        match s.launch h.gr p none o ps with
        | some s => .done { st := s }
        | none => .stall h.s

/-- AQLD.SP (R330). -/
def execAqldSp (k : Ctl) (str : Bool) (off : BitVec 24) (a b : Operand) (s : State) : Host.Outcome State Fault Refusal :=
  runAp (.aqldSp k str off a b) (apAqldSp str off a b) s

/-- AQLD_COMPLETE: flight `i` of a group arrives, those of one queue in their order, and on a determined core not before
its rotation (R330, R339). -/
def execAqldComplete (g i : Nat) (s : State) : Host.Outcome State Fault Refusal :=
  finish s (match s.group? g with
    | none => s
    | some gr =>
      let all := gr.x.programs.flatMap (fun p => p.flights.map (fun f => (p, f)))
      match all[i]? with
      | none => s
      | some (p, f) =>
        if f.queue.isSome && (all.take i).any (fun x => x.2.queue == f.queue) then s
        else if f.words.isSome && decide (s.vtimeOf gr.ctx < f.usable) then s
        else
          match s.flightWords gr p f with
          | (s, some ws) => (s.landFlight g p.id f ws).sweep g
          | (_, none) => s)

/-- The address of the lowest of some lanes. -/
def lowestAddr (xs : List (Nat × Nat)) : Nat := ((xs.head?).map (·.2)).getD 0

def apAqst (str : Bool) (off : BitVec 24) (a b : Operand) (h : HallView) : HallRes :=
  let q := queueNo a
  match h.program, h.gr.mapped q true with
  | some p, some k =>
    (match k.slots with
    | [] => .stall h.s
    | e :: rest =>
      if 64 ≤ h.s.apFlying h.gr.core then .stall h.s
      else
        match h.s.checkLanes h.gr none 4 .store (h.qaddrs str off b e.mask) with
        | (_, .error t) => .trap t
        | (s, .ok ps) =>
          if h.gr.x.d2.isSome then .trap { Trap.plain .detIllegalOp e.mask with addr := BitVec.ofNat 64 (lowestAddr (h.qaddrs str off b e.mask)) }
          else if p.flights.any (fun f => f.words.isNone && f.places.any (fun x =>
              ps.any (fun y => decide (x.1 < y.pa + 4) && decide (y.pa < x.1 + 4)))) then .stall h.s
          else
            .done { st := (s.modQueue h.gr.id q (fun k => { k with slots := rest })).issueGlobal h.gr h.agent 4
                      (ps.map (fun y => (y, (e.words.get y.lane).toNat))) none })
  | _, _ => .trap (.plain .illegalOperand 0)

/-- AQST (R331). -/
def execAqst (k : Ctl) (str : Bool) (off : BitVec 24) (a b : Operand) (s : State) : Host.Outcome State Fault Refusal :=
  runAp (.aqst k str off a b) (apAqst str off a b) s

/-- Tokens that can be consumed in this rotation (R339). -/
def ApProgram.counted (p : ApProgram) (determined : Bool) (now : Nat) : ApProgram :=
  if determined && decide (now ≤ p.lateAt) then p else { p with tokens := p.tokens + p.late, late := 0 }

/-- AQSYN (R332). -/
def execAqsyn (k : Ctl) (sc : Scope) (s : State) : Host.Outcome State Fault Refusal :=
  runAp (.aqsyn k sc) (fun h =>
    match h.program with
    | none => .stall h.s
    | some p =>
      let p := p.counted (h.s.coreDetermined h.gr.core) (h.s.vtimeOf h.gr.ctx)
      if p.tokens = 0 then .stall h.s
      else .done { st := h.s.modProgram h.gr.id p.id (fun q =>
        { q with tokens := p.tokens - 1, late := p.late }) }) s

/-! ### QPOP and QPUSH (R328, R333, R334) -/

/-- A QUEUE_FAULT that hands on a program's fault (R328). -/
def queueFault (p : ApProgram) : Trap :=
  match p.fault with
  | some (t, _) => { t with cause := .queueFault }
  | none => .plain .queueFault 0

/-- A QUEUE_FAULT of kind 6 (R333, R334). -/
def queueGone (m : Mask) : Trap := ⟨.queueFault, m, 0, 6⟩

def stoppedProgram (p : Option ApProgram) : Option ApProgram := p.bind (fun p => if p.state == .stopped then some p else none)

/-- What QPOP takes, waits for or traps on. -/
def warpQpop (a : Operand) (q : Nat) (v : WarpView) : WarpRes :=
  match v.gr.mapped q false with
  | none =>
    .trap (if v.prior == some (.qpop q) then queueGone v.is.lanes else .plain .illegalOperand v.is.lanes)
  | some k =>
    match k.slots, stoppedProgram (v.gr.owner? q) with
    | [], some p => .trap (queueFault p)
    | [], none => .wait v.s (.qpop q)
    | e :: rest, _ =>
      match e.state with
      | .poisoned => .trap (((v.gr.owner? q).map queueFault).getD (queueGone v.is.lanes))
      | .pending => .wait v.s (.qpop q)
      | .full =>
        .done { st := (v.s.modQueue v.is.g q (fun k => { k with slots := rest })).sweep v.is.g
                writes := v.w32 a (fun l => e.words.get l) }

/-- QPOP (R333). -/
def execQpop (k : Ctl) (a b : Operand) (s : State) : Host.Outcome State Fault Refusal :=
  runWarp (.qpop k a b) (warpQpop a (queueNo b)) s

def warpQpush (q : Nat) (b : Operand) (v : WarpView) : WarpRes :=
  match v.gr.mapped q true, v.gr.owner? q with
  | some _, some p =>
    (match p.state with
    | .stopped => .trap (queueFault p)
    | .ended => .trap (queueGone v.is.lanes)
    | .running =>
      .done { st := v.s.issueStore v.gr v.agent (.push q (Lanes.of (fun l => if v.active.has l then v.r32 false b l else 0)) v.active) })
  | _, _ => .trap (.plain .illegalOperand v.is.lanes)

/-- QPUSH (R334). -/
def execQpush (k : Ctl) (a b : Operand) (s : State) : Host.Outcome State Fault Refusal :=
  runWarp (.qpush k a b) (warpQpush (queueNo a) b) s

/-! ### QCTL (R335, R336) -/

/-- A form of QCTL after its Hall drain. -/
def hallQctl (a b : Operand) (f : HallView → Nat → HallView × DWord) (h : HallView) : HallRes :=
  if !h.engineDrained then .stall h.s
  else
    let r := f h (queueNo b)
    .done { st := r.1.s, s := sWrite a r.2 }

/-- An answer 0 or 1. -/
def HallView.answer (h : HallView) (s : State) (n : Nat) : HallView × DWord := ({ h with s := s }, BitVec.ofNat 64 n)

def qctlToken (n : Nat) (h : HallView) (q : Nat) : HallView × DWord :=
  match h.gr.owner? q with
  | none => h.answer h.s 1
  | some p =>
    if p.state == .ended || 4095 < p.tokens + p.late + n then h.answer h.s 1
    else
      let now := h.s.vtimeOf h.gr.ctx
      let p := p.counted (h.s.coreDetermined h.gr.core) now
      let t := h.s.modProgram h.gr.id p.id (fun x =>
        if h.s.coreDetermined h.gr.core then { x with tokens := p.tokens, late := p.late + n, lateAt := now }
        else { x with tokens := p.tokens + n, late := 0 })
      h.answer t 0

/-- QCTL.TOKEN (R335). -/
def execQctlToken (k : Ctl) (a b c : Operand) (s : State) : Host.Outcome State Fault Refusal :=
  runHall (.qctlToken k a b c) (fun h =>
    let n := (h.r64 false c).toNat
    if n = 0 || 4095 < n then .trap (.plain .illegalOperand 0) else hallQctl a b (qctlToken n) h) s

/-- QCTL.RETRY (R335). -/
def execQctlRetry (k : Ctl) (a b : Operand) (s : State) : Host.Outcome State Fault Refusal :=
  runHall (.qctlRetry k a b) (hallQctl a b (fun h q =>
    match stoppedProgram (h.gr.owner? q) with
    | some p => h.answer (h.s.retryProgram h.gr.id p.id) 0
    | none => h.answer h.s 1)) s

/-- QCTL.KILL (R335). -/
def execQctlKill (k : Ctl) (a b : Operand) (s : State) : Host.Outcome State Fault Refusal :=
  runHall (.qctlKill k a b) (hallQctl a b (fun h q =>
    match h.gr.owner? q with
    | some p => if p.state == .ended then h.answer h.s 1 else h.answer (h.s.killProgram h.gr.id p.id) 0
    | none => h.answer h.s 1)) s

/-- The code of a program's state (R336). -/
def ApProgram.code (p : ApProgram) : Nat :=
  match p.state with
  | .running => if p.stalled then 2 else 1
  | .stopped => 3
  | .ended => 4

/-- The status word of a queue name (R335, R336). -/
def Group.apStatus (gr : Group) (q : Nat) : DWord :=
  match gr.queue? q, gr.owner? q with
  | some k, some p =>
    BitVec.ofNat 64 ((match p.fault with
      | some (t, _) => t.cause.code
      | none => 0) * 2 ^ 56 + p.code * 2 ^ 52 + k.slots.length * 2 ^ 46 + (p.tokens + p.late) * 2 ^ 32 + p.pc.toNat)
  | _, _ =>
    match gr.x.records.find? (fun (r : ApRecord) => r.name == q) with
    | some r => BitVec.ofNat 64 (r.cause.toNat * 2 ^ 56 + 4 * 2 ^ 52 + r.pc.toNat)
    | none => 0

/-- QCTL.STAT (R335). -/
def execQctlStat (k : Ctl) (a b : Operand) (s : State) : Host.Outcome State Fault Refusal :=
  runHall (.qctlStat k a b) (hallQctl a b (fun h q => (h, h.gr.apStatus q))) s

/-- The program of a name, or the one its status record tells of. -/
def Group.lastProgram (gr : Group) (q : Nat) : Option Nat :=
  match gr.queue? q with
  | some k => some k.program
  | none => (gr.x.records.find? (fun (r : ApRecord) => r.name == q)).map (fun r => r.program)

/-- JOIN need not wait: the program runs no more, and its stores are performed at device scope (R311, R335). -/
def HallView.joined (h : HallView) (q : Nat) : Bool :=
  match h.gr.lastProgram q with
  | none => true
  | some p =>
    (match h.gr.program? p with
    | some x => x.state != .running && x.issued.isEmpty
    | none => true) &&
    h.s.commits.all (fun e => e.agent != .ap h.gr.id p) && h.s.aged h.gr (· == .ap h.gr.id p)

/-- QCTL.JOIN (R335): a stall, which the Hall tries again at each of its turns. -/
def execQctlJoin (k : Ctl) (a b : Operand) (s : State) : Host.Outcome State Fault Refusal :=
  runHall (.qctlJoin k a b) (fun h =>
    if h.joined (queueNo b) then hallQctl a b (fun h q => (h, h.gr.apStatus q)) h else .wait h.s .qjoin) s

end Sys2Proof.Machine
end

