-- ==== Sys2Proof/Machine/Tree.lean ====
section
/-! DEFINITION. The region tree at work: linking a child (R14), counters and completion (R14), events (R15), failures and
cuts (R16), what a pipeline's cut leaves of its suffix (R399), and when a leaf completes (R266, R270, R400). -/

namespace Sys2Proof.Machine

open Sys2Proof

/-! ### Chains of children (R14) -/

/-- The youngest member of a chain that begins at `va`. -/
def State.youngest (s : State) (ctx : Nat) : Nat → Nat → Nat
  | 0, va => va
  | n + 1, va =>
    match s.rcb? ctx va with
    | some r => if s.rget r .nextSib = 0 then va else s.youngest ctx n (s.rget r .nextSib)
    | none => va

/-- A child more whose DONE is 0: a parent that had set DONE clears it, and so counts again at its own parent. -/
def State.countChild (s : State) (ctx : Nat) : Nat → Nat → State
  | 0, _ => s
  | n + 1, va =>
    match s.rcb? ctx va with
    | none => s
    | some r =>
      let was := s.rdone r
      let s := (s.radd r .outstanding 1).setFlag r 17 false
      if was && s.rget r .depth != 0 then s.countChild ctx n (s.rget r .parent) else s

/-- A child is linked at the end of its parent's chain. -/
def State.linkChild (s : State) (ctx parent : Nat) (r : Rcb) : State :=
  match s.rcb? ctx parent with
  | none => s
  | some p =>
    let first := s.rget p .firstChild
    let s := if first = 0 then s.rset p .firstChild r.va
      else
        match s.rcb? ctx (s.youngest ctx s.rcbs.length first) with
        | some y => s.rset y .nextSib r.va
        | none => s
    s.countChild ctx 9 parent

/-- A leaf leaves the chain: the member before it, or the parent, takes its NEXTSIB. -/
def State.unlink (s : State) (ctx : Nat) (p r : Rcb) : State :=
  let next := s.rget r .nextSib
  if s.rget p .firstChild = r.va then s.rset p .firstChild next
  else
    match s.rcbs.find? (fun q => q.ctx == ctx && q.va != r.va && s.rget q .nextSib == r.va && s.rget q .parent == p.va) with
    | some q => s.rset q .nextSib next
    | none => s

/-- The latch of a live RCB (R9). -/
def rcbLatch (ctx va : Nat) : Latch := ⟨ctx, none, va, 256, false, .rcb va⟩

/-- The fields the device sets at creation (R10). -/
def roFields : List RcbField :=
  [.firstChild, .nextSib, .uCores, .uAcct, .uSpad, .uRegs, .uLand, .uQueues, .outstanding, .retired, .faulted, .killed,
    .fcause, .faddr, .fserial, .stopArea, .stopSize, .xroot, .pRetired, .pFaulted, .pKilled]

/-- The bits of FLAGS that are not reserved: a reserved one reads 0 in a live RCB (R4, R11). -/
def liveFlags : Nat := 0xFF0D0F

/-- An RCB becomes live under a parent: its RO fields, its latch and its place in the chain (R9, R10, R14). A leaf is bound
cut where its parent is cut (R16). -/
def State.makeRcb (s : State) (ctx va pa parent : Nat) (leaf : Bool) : State :=
  let r : Rcb := ⟨ctx, va, pa⟩
  match s.rcb? ctx parent with
  | none => s
  | some p =>
    let cut := leaf && s.rcut p
    let depth := s.rget p .depth + 1
    let s := roFields.foldl (fun s f => s.rset r f 0) s
    let s := s.rset r .flags (s.rget r .flags &&& liveFlags)
    let s := ((s.rset r .parent parent).rset r .depth depth).setFlag r 17 false
    let s := s.setFlag r 16 cut
    let s := if leaf then s.rset r .outstanding 1 else s
    let others := s.rcbs.filter (fun (q : Rcb) => !(q.ctx == ctx && q.va == va))
    (({ s with rcbs := others ++ [r] }).enter [rcbLatch ctx va]).linkChild ctx parent r

/-! ### Rings (R390) -/

/-- The instance of a context with a handle. -/
def State.inst? (s : State) (ctx h : Nat) : Option HInst := s.insts.find? (fun x => x.ctx == ctx && x.handle == h)

def State.modInst (s : State) (ctx h : Nat) (f : HInst → HInst) : State :=
  { s with insts := s.insts.map (fun x => if x.ctx == ctx && x.handle == h then f x else x) }

def State.pipe? (s : State) (ctx h : Nat) : Option Pipe := s.pipes.find? (fun x => x.ctx == ctx && x.handle == h)

def State.modPipe (s : State) (ctx h : Nat) (f : Pipe → Pipe) : State :=
  { s with pipes := s.pipes.map (fun x => if x.ctx == ctx && x.handle == h then f x else x) }

/-- Writes bytes for the Hinge; a failure leaves memory as it was. -/
def State.hingeWrite (s : State) (ctx va : Nat) (bs : List Byte) : State × Option (Nat × Cause × Nat) :=
  match s.ctx? ctx with
  | none => (s, none)
  | some c =>
    match s.engineWrite c va bs with
    | (s, .ok ()) => (s, none)
    | (s, .error e) => (s, some e)

/-- The ring header (R390). -/
def HInst.header (x : HInst) : List Byte :=
  leBytes 8 x.next ++ leBytes 1 x.consumers.length ++ List.replicate 7 0 ++
    ((x.consumers.flatMap (fun (c : Consumer) =>
      leBytes 2 (c.stage.getD c.pipe) ++
        leBytes 1 ((if c.lag then 1 else 0) + (if c.stage.isNone then 2 else 0)) ++ [(0 : Byte)] ++ leBytes 4 c.cursor)) ++
      List.replicate 240 (0 : Byte)).take 240

/-- STATUS of a pipeline's record (R388). -/
def State.setStatus (s : State) (p : Pipe) (v : Nat) : State := (s.hingeWrite p.ctx (p.record + 48) (leBytes 1 v)).1

/-- An instance ends: its ring header is written and its latch released (R390, R400). -/
def State.endInst (s : State) (x : HInst) : State :=
  let s := (s.hingeWrite x.ctx x.ring x.header).1
  { (s.latchDrop x.ctx (.pipeline x.handle)) with insts := s.insts.filter (fun y => !(y.ctx == x.ctx && y.handle == x.handle)) }

/-! ### Unbinding (R399) -/

/-- An instance that another pipeline uses. -/
def State.usedElsewhere (s : State) (p : Pipe) (h : Nat) : Option Pipe :=
  s.pipes.find? (fun q => q.ctx == p.ctx && q.handle != p.handle && q.elems.contains h)

/-- A pipeline's own suffix: the instances it owns that no other uses. -/
def State.suffix (s : State) (p : Pipe) : List HInst :=
  s.insts.filter (fun x => x.ctx == p.ctx && x.owner == p.handle && (s.usedElsewhere p x.handle).isNone)

/-- Instances that survive pass to the oldest remaining pipeline that uses them. -/
def State.passOn (s : State) (p : Pipe) : State :=
  { s with
    insts := s.insts.map (fun x =>
      let x := if x.ctx == p.ctx && x.owner == p.handle then
          (match s.usedElsewhere p x.handle with
          | some q => { x with owner := q.handle }
          | none => x)
        else x
      if x.ctx != p.ctx then x
      else
        { x with consumers := x.consumers.map (fun c =>
            match c.stage with
            | some h => if c.pipe == p.handle then
                (match s.usedElsewhere p h with
                | some q => { c with pipe := q.handle }
                | none => c) else c
            | none => c) }) }

/-- The entry of an item in a ring slot: the slot's four words. -/
def State.slotWords (s : State) (x : HInst) (n : Nat) : List DWord :=
  (List.range 4).map (fun j => BitVec.ofNat 64 (s.vread x.ctx (x.ring + 256 + 32 * (n % x.window) + 8 * j) 8))

/-- Byte 2 of an entry's first word is its kind (R261). -/
def entryKind (w : DWord) (k : Nat) : DWord := (w &&& ~~~(0xFF0000 : DWord)) ||| (BitVec.ofNat 64 k <<< 16)

/-- The consumers of a pipeline leave the rings. -/
def State.dropPipe (s : State) (p : Pipe) : State :=
  { s with insts := s.insts.map (fun (x : HInst) => if x.ctx == p.ctx then
      { x with consumers := x.consumers.filter (fun (c : Consumer) => c.pipe != p.handle) } else x) }

/-- HBIND.CUT of a pipeline's suffix: entries in the suffix's rings become killed notices of the stages that would have
taken them, the rings are discarded, and the suffix reads nothing more (R399). -/
def State.cutSuffix (s : State) (p : Pipe) : State :=
  let own := s.suffix p
  let gone := own.map (·.handle)
  let notices := fun (h : Nat) => own.flatMap (fun y =>
    y.consumers.flatMap (fun c =>
      if c.stage = some h then
        (List.range (c.limit.getD y.next - c.cursor)).filterMap (fun i =>
          match s.slotWords y (c.cursor + i) with
          | w :: ws => if (w >>> 16) &&& 0xFF = 2 then some (entryKind ((w &&& ~~~(0xFFFF : DWord)) ||| BitVec.ofNat 64 h) 4 :: ws) else none
          | [] => none)
      else []))
  let s := own.foldl (fun s y => ((s.hingeWrite y.ctx y.ring y.header).1).latchDrop y.ctx (.pipeline y.handle)) s
  let mine := fun (x : HInst) => x.ctx == p.ctx && gone.contains x.handle
  let kept := s.insts.filter (fun (x : HInst) => !mine x || (match x.role with
    | .source .. => false
    | .stage .. => true))
  let cut := kept.map (fun (x : HInst) =>
    if mine x then { x with cut := true, consumers := [], notices := notices x.handle, items := [] } else x)
  (({ s with insts := cut }.passOn p).dropPipe p).modPipe p.ctx p.handle (fun q => { q with elems := gone })

/-! ### Events (R15) -/

/-- An RCB's event: none, a host event, or the status word stored into the event word. -/
def State.raiseEvent (s : State) (r : Rcb) (word : Nat) : State :=
  let mode := s.effEvMode r.ctx r.va
  let target := s.effEvTarget r.ctx r.va
  if mode = 0 then s
  else if mode = 1 then s.postEvent 1 r.ctx (leBytes 8 r.va ++ leBytes 8 target ++ leBytes 8 word) []
  else
    match s.hingeWrite r.ctx target (leBytes 8 word) with
    | (s, none) => s
    | (s, some (_, cause, kind)) =>
      s.postEvent 9 r.ctx (leBytes 8 r.va ++ leBytes 8 target ++ leBytes 8 cause.code ++ leBytes 8 kind) []

/-! ### Completion, failures and cuts (R14, R16) -/

/-- The context is frozen, as a status word says (R17). -/
def State.frozen (s : State) (ctx : Nat) : Bool :=
  match s.ctx? ctx with
  | some c => c.state == .frozen
  | none => false

/-- The first failed or killed point of a subtree (R10). -/
def State.firstFailure (s : State) (r : Rcb) (cause addr serial : Nat) : State :=
  if cause = 0 || s.rget r .fcause != 0 then s
  else ((s.rset r .fcause cause).rset r .faddr addr).rset r .fserial serial

/-- What the tree has still to do. -/
inductive TreeTask where
  | settle (va : Nat)
  | failure (va : Nat)
  | cut (va : Nat)
  deriving DecidableEq, Repr

/-- A child that completes passes its counts and its first failure to its parent (R14). -/
def State.passCounts (s : State) (r p : Rcb) : State :=
  let s := [(RcbField.retired, RcbField.pRetired), (.faulted, .pFaulted), (.killed, .pKilled)].foldl
    (fun s x => (s.radd p x.1 (s.rget r x.1 - s.rget r x.2)).rset r x.2 (s.rget r x.1)) s
  let s := s.firstFailure p (s.rget r .fcause) (s.rget r .faddr) (s.rget r .fserial)
  s.rset p .outstanding (s.rget p .outstanding - 1)

/-- An RCB whose OUTSTANDING is 0 sets DONE: its event, then the update of its parent; a leaf leaves the tree. -/
def State.completeRcb (s : State) (ctx : Nat) (r : Rcb) : State × List TreeTask :=
  let s := s.setFlag r 17 true
  let s := s.raiseEvent r (s.statusWord r false (s.frozen ctx))
  let leaf := decide (2 ≤ s.rget r .kind)
  let failed := decide (0 < s.rget r .faulted + s.rget r .killed) || s.rcut r
  match (if s.rget r .depth = 0 then none else s.rcb? ctx (s.rget r .parent)) with
  | none => (s, [])
  | some p =>
    let s := s.passCounts r p
    let s := if leaf then
        { (((s.unlink ctx p r).keepUse r).latchDrop ctx (.rcb r.va)) with rcbs := s.rcbs.filter (fun q => !(q.ctx == ctx && q.va == r.va)) }
      else s
    (s, (if failed then [.failure p.va] else []) ++ [.settle p.va])

def State.treeTask (s : State) (ctx : Nat) (t : TreeTask) : State × List TreeTask :=
  match t with
  | .settle va =>
    (match s.rcb? ctx va with
    | some r => if s.rget r .outstanding = 0 && !s.rdone r then s.completeRcb ctx r else (s, [])
    | none => (s, []))
  | .failure va =>
    (match s.rcb? ctx va with
    | some r =>
      if s.effDomain ctx va && s.rget r .depth != 0 then
        (s, ((s.children ctx (s.rget r .parent)).filter (fun q => q.va != va && !s.rdone q)).map (fun q => .cut q.va))
      else (s, [])
    | none => (s, []))
  | .cut va =>
    (match s.rcb? ctx va with
    | some r =>
      if s.rdone r then (s, [])
      else if s.rget r .kind ≤ 1 then
        (s.setFlag r 16 true, ((s.children ctx va).filter (fun q => !s.rdone q)).map (fun q => .cut q.va))
      else if s.rcut r then (s, [])
      else
        let s := s.setFlag r 16 true
        (match s.pipes.find? (fun p => p.ctx == ctx && p.rcb == va) with
          | some p =>
            if p.status = 1 || p.status = 2 || p.status = 6 then
              ((s.modPipe ctx p.handle (fun p => { p with status := 4 })).cutSuffix p, [])
            else (s, [])
          | none => (s, []))
    | none => (s, []))

/-! ### When a leaf completes (R266, R270, R399, R400) -/

/-- A bound that the nest evaluates with no outer index: lo0 and hi0 (R254). -/
def Nest.cell (n : Nest) (i : Nat) : Int := ((n.cells[i]?).map (·.k)).getD 0

/-- hi0 as it stands: the constant, or a scheduled nest's task count (R254). -/
def Nest.hi0 (n : Nest) : Int := if n.desc.kind = 2 then n.desc.tasks else n.cell 1

/-- The next row to open: lo0 as long as no row has opened (R257). -/
def Nest.next (n : Nest) : Int := if n.opened then n.nextRow else n.cell 0

/-- Nothing more can come of the nest by its own rules. -/
def Nest.exhausted (n : Nest) : Bool :=
  if n.desc.kind = 2 then decide (n.desc.tasks ≤ n.finished)
  else decide (n.hi0 ≤ n.next) && n.rows.all (fun r => r.done == r.npts)

/-- A nest that its opening 1 alone keeps from completing. -/
def State.nestEnds (s : State) (n : Nest) : Bool :=
  match s.rcb? n.ctx n.rcb with
  | none => false
  | some r => n.handed.isEmpty && n.ready.isEmpty && (n.exhausted || n.faulted || s.rcut r)

/-- A cut stage that has nothing more to hand over or to get back has ended. -/
def HInst.over (x : HInst) : Bool :=
  if x.cut then x.notices.isEmpty && x.given.isEmpty
  else (x.sent && x.consumers.all (·.eos)) && x.given.isEmpty

/-- A pipeline whose instances have all ended and whose items have retired. -/
def State.pipeEnds (s : State) (p : Pipe) : Bool :=
  match s.rcb? p.ctx p.rcb with
  | none => false
  | some r =>
    s.insts.all (fun x => x.ctx != p.ctx || (x.owner != p.handle && x.consumers.all (fun c => c.pipe != p.handle || c.eos))) &&
      s.rget r .outstanding == 1

/-- STATUS when a pipeline ends (R388). -/
def Pipe.lastStatus (p : Pipe) : Nat := if p.status ≤ 2 then 3 else p.status

/-- One leaf or instance of a context that ends now: the state after it, and what the tree has to do. -/
def State.closeOne (s : State) (ctx : Nat) : Option (State × List TreeTask) :=
  let down := fun (s : State) (rcb : Nat) =>
    match s.rcb? ctx rcb with
    | some r => (s.rset r .outstanding (s.rget r .outstanding - 1), [TreeTask.settle rcb])
    | none => (s, [])
  match s.insts.find? (fun x => x.ctx == ctx && x.over) with
  | some x => some (s.endInst x, [])
  | none =>
    match s.nests.find? (fun n => n.ctx == ctx && s.nestEnds n) with
    | some n =>
      let s := s.latchDrop ctx (.work n.handle)
      some (down { s with nests := s.nests.filter (fun m => !(m.ctx == ctx && m.handle == n.handle)) } n.rcb)
    | none =>
      match s.pipes.find? (fun p => p.ctx == ctx && s.pipeEnds p) with
      | some p =>
        let s := (s.setStatus p p.lastStatus).latchDrop ctx (.pipeline p.handle)
        let rest := s.pipes.filter (fun (q : Pipe) => !(q.ctx == ctx && q.handle == p.handle))
        some (down ({ s with pipes := rest }.dropPipe p) p.rcb)
      | none => none

/-- The tree comes to rest: tasks in order, then leaves that end. -/
def State.runTree (ctx : Nat) : Nat → List TreeTask → State → State
  | 0, _, s => s
  | n + 1, t :: ts, s =>
    let (s, more) := s.treeTask ctx t
    s.runTree ctx n (more ++ ts)
  | n + 1, [], s =>
    match s.closeOne ctx with
    | some (s, ts) => s.runTree ctx n ts
    | none => s

/-- A bound on the tasks of one event: each RCB settles and fails at most once for each level and leaf, and each failure cuts each RCB
at most once. -/
def State.treeFuel (s : State) : Nat :=
  let n := s.rcbs.length + s.nests.length + s.pipes.length + s.insts.length
  64 + 32 * n + n * n

def State.settleTree (s : State) (ctx : Nat) (ts : List TreeTask) : State := s.runTree ctx s.treeFuel ts

/-! ### Counting at a leaf (R14, R16) -/

/-- How a point or item retires. -/
inductive Retired where
  | ok | failed | killed
  deriving DecidableEq, Repr

def Retired.field : Retired → RcbField
  | .ok => .retired
  | .failed => .faulted
  | .killed => .killed

/-- FSERIAL (R10): the serial and the leaf's handle. -/
def serialWord (handle serial : Nat) : Nat := handle * 2 ^ 32 + serial % 2 ^ 32

/-- The counters at a retirement; `counted` says that the point stood in OUTSTANDING. -/
def State.countRetired (s : State) (r : Rcb) (how : Retired) (counted : Bool) (cause addr serial : Nat) : State :=
  let s := s.radd r how.field 1
  let s := if counted then s.rset r .outstanding (s.rget r .outstanding - 1) else s
  if how = .ok then s else s.firstFailure r cause addr serial

/-- What the tree does after a retirement. -/
def retireTasks (how : Retired) (va : Nat) : List TreeTask := (if how = .ok then [] else [.failure va]) ++ [.settle va]

/-- A failure that is no point's: it counts in FAULTED and leaves OUTSTANDING (R272, R397, R402). -/
def State.countFault (s : State) (ctx va cause addr serial : Nat) : State :=
  match s.rcb? ctx va with
  | some r => (s.radd r .faulted 1).firstFailure r cause addr serial
  | none => s

end Sys2Proof.Machine
end

