-- ==== Sys2Proof/Machine/Stair.lean ====
section
/-! DEFINITION. The Stair (R252 to R280): bounds and points of a nest (R254, R256), readiness and release (R258, R259),
landings (R262 to R264), hand-over (R260, R261), retirement (R263, R270, R273), D2 merges (R303, R304) and the Stair's
instructions and steps. -/

namespace Sys2Proof.Machine

open Sys2Proof

/-! ### Bounds and points (R254, R256, R257) -/

/-- An affine or table bound at the outer coordinates (R254): cell `2d` is lo of dimension d, `2d + 1` is hi. -/
def Nest.boundAt (n : Nest) (i : Nat) (p : List Int) : Int :=
  match n.cells[i]? with
  | none => 0
  | some b =>
    if i = 1 && n.desc.kind = 2 then n.desc.tasks
    else if b.table then
      (let count := n.desc.counts.getD ((p.getD 0 0).toNat) 0
      ((count + n.desc.tile - 1) / n.desc.tile : Nat))
    else b.k + b.a0 * p.getD 0 0 + b.a1 * p.getD 1 0 + b.a2 * p.getD 2 0

/-- The values of dimension `d` inside the outer coordinates. -/
def Nest.range (n : Nest) (d : Nat) (p : List Int) : List Int :=
  let lo := n.boundAt (2 * d) p
  (List.range (n.boundAt (2 * d + 1) p - lo).toNat).map (fun (j : Nat) => lo + (j : Int))

/-- How many points have the outer coordinates `p`; `k` dimensions are left. -/
def Nest.countIn (n : Nest) : Nat → List Int → Nat
  | 0, _ => 1
  | 1, p => (n.boundAt (2 * p.length + 1) p - n.boundAt (2 * p.length) p).toNat
  | k + 1, p => ((n.range p.length p).map (fun q => n.countIn k (p ++ [q]))).sum

/-- N_row (R257). -/
def Nest.rowCount (n : Nest) (row : Int) : Nat := n.countIn (n.desc.dims - 1) [row]

/-- The point with a linear number inside the outer coordinates (R256). -/
def Nest.pointIn (n : Nest) : Nat → List Int → Nat → List Int
  | 0, p, _ => p
  | 1, p, l => p ++ [n.boundAt (2 * p.length) p + l]
  | k + 1, p, l =>
    match (n.range p.length p).foldl
      (fun (st : Option Int × Nat) q =>
        match st.1 with
        | some _ => st
        | none => if st.2 < n.countIn k (p ++ [q]) then (some q, st.2) else (none, st.2 - n.countIn k (p ++ [q])))
      (none, l) with
    | (some q, l) => n.pointIn k (p ++ [q]) l
    | (none, _) => p

/-- The point of a row with a linear number, components beyond DIMS being 0. -/
def Nest.point (n : Nest) (row : Int) (lin : Nat) : List Int :=
  (n.pointIn (n.desc.dims - 1) [row] lin ++ [0, 0, 0]).take 4

/-- How many points of the row precede `q`: those with a smaller component first, dimension by dimension. -/
def Nest.linIn (n : Nest) : Nat → List Int → List Int → Nat
  | 0, _, _ => 0
  | k + 1, p, q =>
    let x := q.getD p.length 0
    (((n.range p.length p).filter (fun y => decide (y < x))).map (fun y => n.countIn k (p ++ [y]))).sum +
      n.linIn k (p ++ [x]) q

def Nest.lin (n : Nest) (q : List Int) : Nat := n.linIn (n.desc.dims - 1) [q.getD 0 0] q

/-- A point lies in the space under the current bounds (R256). -/
def Nest.inSpace (n : Nest) (q : List Int) : Bool :=
  (List.range n.desc.dims).all (fun d =>
    let x := q.getD d 0
    if d = 0 then decide (n.cell 0 ≤ x) && decide (x < n.hi0)
    else decide (n.boundAt (2 * d) (q.take d) ≤ x) && decide (x < n.boundAt (2 * d + 1) (q.take d)))

/-- A bound of the row that does not fit 32 signed bits: its number (R257). -/
def Nest.badBound (n : Nest) : Nat → List Int → Option Nat
  | 0, _ => none
  | k + 1, p =>
    let d := p.length
    let out := fun i => decide (n.boundAt i p < -2147483648) || decide (2147483647 < n.boundAt i p)
    if out (2 * d) then some (2 * d)
    else if out (2 * d + 1) then some (2 * d + 1)
    else if k = 0 then none
    else (n.range d p).findSome? (fun q => n.badBound k (p ++ [q]))

/-- The bound record that a row fault names: the first that does not fit, or the innermost hi of an oversize row (R257,
R272). -/
def Nest.rowFault (n : Nest) (row : Int) : Option Nat :=
  match n.badBound (n.desc.dims - 1) [row] with
  | some i => some i
  | none => if 2 ^ 32 ≤ n.rowCount row then some (2 * (n.desc.dims - 1) + 1) else none

/-! ### Landings (R262 to R264) -/

def Nest.landing (n : Nest) (row : Int) : Option Landing := n.rows.find? (fun r => r.row == row)

def Nest.modLanding (n : Nest) (row : Int) (f : Landing → Landing) : Nest :=
  { n with rows := n.rows.map (fun r => if r.row == row then f r else r) }

/-- PREFIX advances past the points that the window shows retired (R263). -/
def Landing.slide : Nat → Landing → Landing
  | 0, r => r
  | k + 1, r =>
    let next := { r with done := r.done + 1, window := r.window >>> 1 }
    if r.window.getLsbD 0 then Landing.slide k next else next

/-- A retirement is recorded in prefix or window; none where it must wait (R263). -/
def Landing.record (r : Landing) (lin : Nat) : Option Landing :=
  if lin = r.done then some (Landing.slide 65 r)
  else if r.done + 64 < lin then none
  else some { r with window := r.window ||| BitVec.twoPow 64 (lin - r.done - 1) }

/-- The look-up of R259: the point is outside the space or retired. -/
def Nest.satisfied (n : Nest) (q : List Int) : Bool :=
  if !n.inSpace q then true
  else if q.getD 0 0 < n.oldest then true
  else
    match n.landing (q.getD 0 0) with
    | none => false
    | some r =>
      let l := n.lin q
      decide (l < r.done) || (decide (r.done < l) && decide (l ≤ r.done + 64) && r.window.getLsbD (l - r.done - 1))

/-- A point is ready (R258). -/
def Nest.isReady (n : Nest) (q : List Int) : Bool :=
  n.desc.dist.all (fun v => n.satisfied ((q.zip (v ++ [0, 0, 0, 0])).map (fun x => x.1 - x.2)))

/-- Words 0 to 3 of COORD (R261, R268, R270). -/
def Nest.coord (n : Nest) (q : List Int) : List Word :=
  let w := fun (x : Int) => BitVec.ofInt 32 x
  if n.desc.kind = 1 then
    let g := q.getD 0 0
    let t := q.getD 1 0
    let count := n.desc.counts.getD g.toNat 0
    [w g, w t, w (min (n.desc.tile : Int) (count - t * n.desc.tile)), w count]
  else q.map w

/-- FLAGS of an entry (R261, R268): a residual tile, and the last point of its row. -/
def Nest.flagsOf (n : Nest) (q : List Int) (lin npts : Nat) : Nat :=
  (if n.desc.kind = 1 && decide (((n.coord q).getD 2 0).toNat < n.desc.tile) then 1 else 0) +
    (if lin + 1 = npts then 2 else 0)

/-- Releases the points of a row that are ready, in linear order (R258). -/
def Nest.releaseRow (snap : Option Memory) (now : Nat) (row : Int) : Nat → Nest → Nest
  | 0, n => n
  | k + 1, n =>
    match n.landing row with
    | none => n
    | some r =>
      if r.npts ≤ r.released then n
      else
        let q := n.point row r.released
        if n.isReady q then
          Nest.releaseRow snap now row k
            { n.modLanding row (fun r => { r with released := r.released + 1 }) with
              ready := n.ready ++ [⟨row, r.released, n.coord q, n.flagsOf q r.released r.npts, now, snap⟩] }
        else n

/-- Released entries go out in order of row, then in linear order (R260). -/
def insertReleased (e : Released) : List Released → List Released
  | [] => [e]
  | x :: xs => if e.row < x.row || (e.row == x.row && decide (e.lin < x.lin)) then e :: x :: xs else x :: insertReleased e xs

def Nest.releaseAll (n : Nest) (snap : Option Memory) (now : Nat) : Nest :=
  let m := n.rows.foldl (fun m r => Nest.releaseRow snap now r.row (r.npts - r.released) m) n
  { m with ready := m.ready.foldl (fun l e => insertReleased e l) [] }

/-- The oldest live row may be reclaimed (R264). -/
def Nest.mayReclaim (n : Nest) (r : Landing) : Bool :=
  r.done == r.npts &&
  (List.range (n.desc.depth + 1)).all (fun i =>
    let row := r.row + i
    decide (n.hi0 ≤ row) ||
      (match n.landing row with
      | some x => x.released == x.npts
      | none => false))

/-- Reclaims rows in ascending order (R264). -/
def Nest.reclaim : Nat → Nest → Nest
  | 0, n => n
  | k + 1, n =>
    match n.rows with
    | [] => n
    | r :: rest =>
      if n.mayReclaim r then
        Nest.reclaim k { n with rows := rest, oldest := match rest with
          | x :: _ => x.row
          | [] => n.nextRow }
      else n

/-- Retirements that waited for the prefix are recorded (R273): the nest and the entries recorded. -/
def Nest.recordLate : Nat → Nest → List Handed → Nest × List Handed
  | 0, n, l => (n, l)
  | k + 1, n, l =>
    match n.handed.find? (fun h => h.late && (match n.landing h.row with
      | some r => decide (h.lin ≤ r.done + 64)
      | none => true)) with
    | none => (n, l)
    | some h =>
      Nest.recordLate k
        ({ n with handed := n.handed.filter (fun x => x != h) }.modLanding h.row (fun r => (r.record h.lin).getD r)) (l ++ [h])

def State.nest? (s : State) (ctx h : Nat) : Option Nest := s.nests.find? (fun n => n.ctx == ctx && n.handle == h)

def State.modNest (s : State) (ctx h : Nat) (f : Nest → Nest) : State :=
  { s with nests := s.nests.map (fun n => if n.ctx == ctx && n.handle == h then f n else n) }

/-- A row or schedule fault, or a cut, has ended the nest's releases (R16, R272). -/
def State.nestStopped (s : State) (n : Nest) : Bool :=
  n.faulted ||
  (match s.rcb? n.ctx n.rcb with
  | some r => s.rcut r
  | none => true)

/-- Points now ready are released and add to OUTSTANDING; complete rows are reclaimed (R258, R264, R14). -/
def State.advanceNest (s : State) (ctx h : Nat) : State :=
  match s.nest? ctx h with
  | none => s
  | some n =>
    let stop := s.nestStopped n || n.desc.kind == 2
    let snap := if n.level = 2 then some s.snapshot else none
    let m := if stop then n else n.releaseAll snap s.cycles.toNat
    let m := m.reclaim m.rows.length
    let s := s.modNest ctx h (fun _ => m)
    match s.rcb? ctx n.rcb with
    | some r => if m.ready.length = n.ready.length then s else s.radd r .outstanding (m.ready.length - n.ready.length)
    | none => s

/-! ### Faults of a nest (R272) -/

/-- The RCBs that an NJOIN may name to meet a leaf's fault: the leaf and its ancestors. -/
def State.joinNames (s : State) (ctx rcb : Nat) : List Nat := (s.ancestors ctx rcb).map (·.va)

/-- A fault that waits for the binding group's NJOIN. -/
def State.joinFault (s : State) (g : Nat) (f : JoinFault) : State :=
  s.modX g (fun x => { x with joinFaults := x.joinFaults ++ [f] })

/-- A row or schedule fault: the nest stops, one failure is counted, and the binding group will meet it; a nest that has stopped takes
no second one. -/
def State.nestFault (s : State) (n : Nest) (addr : Nat) : State :=
  if ((s.nest? n.ctx n.handle).map (·.faulted)).getD true then s
  else
    let names := s.joinNames n.ctx n.rcb
    let s := s.modNest n.ctx n.handle (fun n => { n with faulted := true })
    let s := s.countFault n.ctx n.rcb 0x22 addr (serialWord n.handle 0xFFFFFFFF)
    let s := s.joinFault n.binder ⟨false, names, ⟨.nestIllegal, 0, BitVec.ofNat 64 addr, 6⟩⟩
    s.settleTree n.ctx [.failure n.rcb]

/-! ### Scheduled nests (R269, R270) -/

/-- A line at a physical address cannot be corrected (R421). -/
def State.spoilt (s : State) (pa : Nat) : Bool := s.hbm.poisoned.any (fun x => x.1 == pa / 128)

/-- Where a word of a schedule image or of its work area stands; none where the Stair cannot reach it as R269 wants it: aligned, in a page
of class cached, for a write with W = 1. -/
def State.schedPlace (s : State) (n : Nest) (va : Nat) (writes : Bool) : Option Nat :=
  match if va % 4 = 0 then s.vplace n.ctx va writes else none with
  | some (pa, 0) => if s.spoilt pa then none else some pa
  | _ => none

def State.imageWord (s : State) (n : Nest) (va : Nat) : Option Nat := (s.schedPlace n va false).map (fun pa => leNat (s.liveBytes pa 4))

/-- The word of task `t` in WORK becomes `x`. -/
def State.workSet (s : State) (n : Nest) (t x : Nat) : Option State :=
  (s.schedPlace n (n.desc.work + 4 * t) true).map (fun pa => s.deviceWrite 0 pa (leBytes 4 x))

/-- A running scheduled nest cannot reach the word at `va`: the nest ends as by a schedule fault (R31, R272), or a line that cannot be
corrected raises the halt line (R18). -/
def State.schedFault (s : State) (n : Nest) (va : Nat) : State :=
  if ((s.vplace n.ctx va false).map (fun x => s.spoilt x.1)).getD false then
    s.raiseHalt n.ctx (.stair n.die)
      { FaultInfo.blank with cause := 0x3F, unit := n.die * 4096, pc := n.pc.toNat, cinfo := va, leaf := n.rcb, serial := n.serial } false
  else s.nestFault n va

/-- A task is released: COORD word 0 is its number, FLAGS bit 1 is 1 (R270). -/
def Nest.releaseTask (n : Nest) (t now : Nat) (snap : Option Memory) : Nest :=
  { n with ready := n.ready ++ [⟨t, 0, [BitVec.ofNat 32 t, 0, 0, 0], 2, now, snap⟩] }

def State.releaseTask (s : State) (n : Nest) (t : Nat) : State :=
  let snap := if n.level = 2 then some s.snapshot else none
  if s.nestStopped n then s
  else
    let s := s.modNest n.ctx n.handle (fun n => n.releaseTask t s.cycles.toNat snap)
    match s.rcb? n.ctx n.rcb with
    | some r => s.radd r .outstanding 1
    | none => s

/-- The successors of a task, from its START pair: each word of WORK falls by one, and a task whose word reaches 0 is
released; a bad successor or count is a schedule fault (R269, R270). -/
def State.walkSucc (s : State) (n : Nest) : Nat → Nat → Nat → State
  | 0, _, _ => s
  | k + 1, i, last =>
    if last ≤ i then s
    else
      let at_ := n.desc.table + 36 + 8 * n.desc.tasks + 4 * i
      match s.imageWord n at_ with
      | none => s.schedFault n at_
      | some t =>
        if n.desc.tasks ≤ t then s.nestFault n at_
        else
          match s.imageWord n (n.desc.work + 4 * t) with
          | none => s.schedFault n (n.desc.work + 4 * t)
          | some 0 => s.nestFault n at_
          | some (w + 1) =>
            match s.workSet n t w with
            | none => s.schedFault n (n.desc.work + 4 * t)
            | some s => (if w = 0 then s.releaseTask n t else s).walkSucc n k (i + 1) last

/-- Task `t` has retired, with any status: its successors are walked; a cut or a fault stops releases alone (R270). -/
def State.taskDone (s : State) (n : Nest) (t : Nat) : State :=
  let s := s.modNest n.ctx n.handle (fun n => { n with finished := n.finished + 1 })
  let a := n.desc.table + 32 + 4 * n.desc.tasks + 4 * t
  match s.imageWord n a, s.imageWord n (a + 4) with
  | some first, some last =>
    if last < first || n.desc.edges < last then s.nestFault n a else s.walkSucc n (last - first) first last
  | none, _ => s.schedFault n a
  | _, none => s.schedFault n (a + 4)

/-- PRED is copied into WORK from task `t` on, `k` words; true where all could be. -/
def State.copyPreds (s : State) (n : Nest) : Nat → Nat → State × Bool
  | 0, _ => (s, true)
  | k + 1, t =>
    let a := n.desc.table + 32 + 4 * t
    match s.imageWord n a with
    | none => (s.schedFault n a, false)
    | some x =>
      match s.workSet n t x with
      | none => (s.schedFault n (n.desc.work + 4 * t), false)
      | some s => s.copyPreds n k (t + 1)

/-- SCHEDULE_START: PRED is copied into WORK, and the tasks with no predecessor are released (R270). -/
def execScheduleStart (ctx handle : Nat) (s : State) : Host.Outcome State Fault Refusal :=
  finish s (match s.nest? ctx handle with
    | none => s
    | some n =>
      if n.desc.kind != 2 || n.started || !s.engineRuns ctx (.stair n.die) then s
      else
        let s := s.modNest ctx handle (fun n => { n with started := true })
        let (s, ok) := s.copyPreds n n.desc.tasks 0
        let s := if !ok then s
          else (List.range n.desc.tasks).foldl
            (fun s t => if s.imageWord n (n.desc.work + 4 * t) = some 0 then s.releaseTask n t else s) s
        s.settleTree ctx [])

/-! ### Rows open (R257, R265, R272) -/

/-- A landing row more may be charged to the nest (R265). -/
def State.landingFits (s : State) (n : Nest) : Bool :=
  decide (n.rows.length + 1 ≤ n.desc.depth + 1) || s.fits n.ctx n.rcb .uLand .bLand 1

/-- Landing records in use at a Stair (R252). -/
def State.landingRecords (s : State) (die : Nat) : Nat :=
  ((s.nests.filter (fun n => n.die == die && s.holdsWork n.ctx)).map (fun n => n.rows.length)).sum

/-- The trace that the binding group of a leaf replays. -/
def State.leafReplay (s : State) (binder : Nat) : Option (Group × OpenTrace) :=
  match s.group? binder with
  | none => none
  | some o =>
    match o.x.trace with
    | none => none
    | some t => if t.play && s.traceGet o.ctx t.header traceState == 3 then some (o, t) else none

/-- An entry of a leaf's stream: a hand-over or a rewrite of its bind ordinal (R299). -/
def TraceEntry.ofLeaf (e : TraceEntry) (ord : Nat) : Bool := (e.type == 1 && e.b1 == 0 || e.type == 2) && e.ord == ord

/-- The next entry of a leaf's stream in a trace that its binding group replays (R299). -/
def State.leafStream (s : State) (binder ord : Nat) : Option TraceEntry :=
  match s.leafReplay binder with
  | none => none
  | some (o, t) => (s.traceNext o.ctx t (fun e => e.ofLeaf ord)).map (·.2)

/-- A replayed rewrite holds the nest at its next row (R299). -/
def State.heldByRewrite (s : State) (n : Nest) : Bool :=
  match (if n.level = 0 then none else s.leafStream n.binder n.bindOrdinal) with
  | some e => e.type == 2 && e.w12 == (BitVec.ofInt 32 n.next).toNat
  | none => false

/-- The nest's own rules let it open its next row: what is left is a landing under R13 (R257). A Stair that has stopped opens none
(R274). -/
def State.rowWanted (s : State) (n : Nest) : Bool :=
  n.desc.kind != 2 && !s.nestStopped n && s.engineRuns n.ctx (.stair n.die) && decide (n.next < n.hi0) &&
  decide (n.rows.length + 1 ≤ n.desc.landing) && !s.heldByRewrite n

/-- Everything but the order of R286 lets the nest open its next row. -/
def State.rowMayOpen (s : State) (n : Nest) : Bool :=
  s.rowWanted n && s.landingFits n && decide (s.landingRecords n.die < 16384)

/-! ### The order of requests for landing rows (R13, R286) -/

/-- A nest's request for its next row: its leaf's priority, and the place of its binding group's Hall while that lives. -/
def State.nestAsk (s : State) (n : Nest) : Ask :=
  let since := n.asks.getD s.cycles.toNat
  let prio := s.effPrio n.ctx n.rcb
  match s.group? n.binder with
  | some gr => { s.hallAsk gr since with prio := prio }
  | none => ⟨prio, since, n.die * Config.coresPerDie, 0, 0, n.handle⟩

/-- A Hall's request may be granted. -/
def State.landAskFits (s : State) (ctx : Nat) (a : LandAsk) : Bool := a.own && s.fits ctx a.rcb .uLand .bLand a.n

/-- The requests of a context that could be granted now: nests' next rows, and Halls in NBIND or HBIND. -/
def State.landAsks (s : State) (ctx : Nat) : List Ask :=
  (s.nests.filter (fun n => n.ctx == ctx && s.rowMayOpen n)).map s.nestAsk ++
    s.groups.filterMap (fun gr =>
      if gr.ctx == ctx then (gr.x.landAsk.filter (s.landAskFits ctx)).map (fun a => s.hallAsk gr a.since) else none)

/-- No other request for landing rows comes first. -/
def State.landFirst (s : State) (ctx : Nat) (a : Ask) : Bool := (s.landAsks ctx).all (fun b => !b.before s.cycles.toNat a)

/-- A Hall asks for `n` landing rows under an RCB, `own` where its leaf's own ceiling allows them: whether they are granted now; until it
binds, the request stays (R13, R265, R394). -/
def State.askLand (s : State) (gr : Group) (rcb n : Nat) (own : Bool) : State × Bool :=
  let a : LandAsk := ⟨rcb, n, own, (gr.x.landAsk.map (·.since)).getD s.cycles.toNat⟩
  (s.modX gr.id (fun x => { x with landAsk := some a }),
    n == 0 || (s.landAskFits gr.ctx a && s.landFirst gr.ctx (s.hallAsk gr a.since)))

/-- Nests whose next row waits keep the cycle from which it does. -/
def State.noteRowWaits (s : State) : State :=
  { s with nests := s.nests.map (fun n => { n with asks := if s.rowWanted n then some (n.asks.getD s.cycles.toNat) else none }) }

/-- ROW_OPEN: the nest's next row opens, where no request for landing rows comes before it (R257, R286). -/
def execRowOpen (ctx handle : Nat) (s : State) : Host.Outcome State Fault Refusal :=
  finish s (match s.nest? ctx handle with
    | none => s
    | some n =>
      if !s.rowMayOpen n || !s.landFirst ctx (s.nestAsk n) then s
      else
        match n.rowFault n.next with
        | some i => (s.nestFault n (n.desc.va + 64 + 8 * i)).settleTree ctx []
        | none =>
          let row := n.next
          let s := s.modNest ctx handle (fun n =>
            { n with
              opened := true
              asks := none
              nextRow := row + 1
              oldest := if n.rows.isEmpty then row else n.oldest
              rows := n.rows ++ [⟨row, n.rowCount row, 0, 0, 0⟩] })
          (s.advanceNest ctx handle).settleTree ctx [])

/-! ### Retirement (R263, R270, R273, R14, R16) -/

/-- A point's retirement is recorded: landing or schedule, counters, then what it releases. The entry has left `handed`. -/
def State.recordPoint (s : State) (n : Nest) (h : Handed) (how : Retired) (cause addr : Nat) : State × List TreeTask :=
  let s := s.modNest n.ctx n.handle (fun n => n.modLanding h.row (fun r => (r.record h.lin).getD r))
  let s := match s.rcb? n.ctx n.rcb with
    | some r => s.countRetired r how true cause addr (serialWord n.handle h.serial)
    | none => s
  let s := if n.desc.kind = 2 then s.taskDone n h.row.toNat else s
  (s, retireTasks how n.rcb)

/-- Late retirements that the prefix now allows (R273). -/
def State.recordLate (s : State) (ctx h : Nat) : State × List TreeTask :=
  match s.nest? ctx h with
  | none => (s, [])
  | some n =>
    let (m, l) := n.recordLate n.handed.length []
    let s := s.modNest ctx h (fun _ => m)
    l.foldl (fun (st : State × List TreeTask) x =>
      match st.1.rcb? ctx n.rcb with
      | some r => (st.1.countRetired r .killed true x.cause x.addr (serialWord h x.serial), st.2 ++ retireTasks .killed n.rcb)
      | none => st) (s, [])

/-- A point's number lies beyond the window of its row (R263). -/
def Nest.beyond (n : Nest) (h : Handed) : Bool :=
  match n.landing h.row with
  | some r => decide (r.done + 64 < h.lin)
  | none => false

/-- A handed-over point retires: at once, or where its number lies beyond the window, when the prefix allows (R263, R273). -/
def State.retirePoint (s : State) (n : Nest) (h : Handed) (how : Retired) (cause addr : Nat) : State :=
  if n.beyond h then
    s.modNest n.ctx n.handle (fun n => { n with handed := n.handed.map (fun x =>
      if x = h then { h with late := true, cause := cause, addr := addr } else x) })
  else
    let s := s.modNest n.ctx n.handle (fun n => { n with handed := n.handed.filter (fun x => x != h) })
    let (s, ts) := s.recordPoint n h how cause addr
    let (s, us) := s.recordLate n.ctx n.handle
    (s.advanceNest n.ctx n.handle).settleTree n.ctx (ts ++ us)

/-- The entry of a nest that a group holds. -/
def State.heldPoint (s : State) (gr : Group) : Option (Nest × Handed) :=
  match gr.x.held with
  | some (.point h serial) =>
    (match s.nest? gr.ctx h with
    | some n => (n.handed.find? (fun x => x.serial == serial && x.group == gr.id && !x.late)).map (fun x => (n, x))
    | none => none)
  | _ => none

/-- The group holds nothing from now on, and its watchdog starts again (R233). -/
def State.dropHeld (s : State) (g : Nat) : State := s.modX g (fun x => { x with held := none, d2 := none, wdog := 0 })

/-! ### Handing over (R260, R261) -/

/-- The group's Hall waits in NPOP, so it is idle for the nests of its region (R260). -/
def State.idleFor (s : State) (gr : Group) (region : Nat) (kind : WaitKind) : Bool :=
  gr.resident && gr.x.held.isNone && s.inSubtree gr.ctx gr.home region &&
  (match gr.hall.wait with
  | some w => w.kind == kind
  | none => false)

/-- A group restarted by TRET.KILLPT whose retirement is still to be recorded gets nothing (R273). -/
def State.lateGroup (s : State) (g : Nat) : Bool := s.nests.any (fun n => n.handed.any (fun h => h.late && h.group == g))

/-- The turn of R260: among groups in order of residency, the one after the last that received an entry. -/
def nextInTurn (rr : Nat) (gs : List Group) : Option Group :=
  let least := fun (l : List Group) => l.foldl (fun (m : Option Group) g =>
    match m with
    | some x => if g.order < x.order then some g else some x
    | none => some g) none
  (least (gs.filter (fun g => decide (rr < g.order)))).orElse (fun _ => least gs)

/-- The nest offers its next entry to this group, which asks for one; a Stair that has stopped offers none (R260, R274). -/
def State.nestOffers (s : State) (n : Nest) (gr : Group) : Bool :=
  n.ctx == gr.ctx && !n.ready.isEmpty && s.engineRuns n.ctx (.stair n.die) && s.inSubtree gr.ctx gr.home n.desc.region && !s.lateGroup gr.id &&
  (match nextInTurn n.rr (s.groups.filter (fun g => g.ctx == gr.ctx &&
      (g.id == gr.id || (s.idleFor g n.desc.region .npop && !s.lateGroup g.id)))) with
  | some g => g.id == gr.id
  | none => false)

/-- Which of two nests' entries an idle group gets first (R260). -/
def State.nestFirst (s : State) (a b : Nest) : Bool :=
  let pa := s.effPrio a.ctx a.rcb
  let pb := s.effPrio b.ctx b.rcb
  let ta : Nat := (a.ready.head?.map Released.stamp).getD 0
  let tb : Nat := (b.ready.head?.map Released.stamp).getD 0
  decide (pb < pa) || (pa == pb && (decide (ta < tb) || (ta == tb && decide (a.handle < b.handle))))

/-- The nest whose entry the Stair offers a group, without a trace. -/
def State.freeOffer (s : State) (gr : Group) (p : Nest → Bool) : Option Nest :=
  (s.nests.filter (fun n => s.nestOffers n gr && p n)).foldl
    (fun (m : Option Nest) n =>
      match m with
      | some x => if s.nestFirst n x then some n else some x
      | none => some n) none

/-- What a group's NPOP or HRECV finds. -/
inductive Offer (α : Type) where
  | none
  | found (x : α)
  | hold
  | later
  | mismatch (binder i : Nat)

/-- What a replayed trace says of an offer of leaf `x` to a group: nothing where the next entry of the leaf's stream names another
group; its rotation is still to come (later), or is now and the entry not yet there (hold); a mismatch where the stream is exhausted and
there is something to decide, and where the entry cannot be the leaf's `next` (R299, R300). -/
def State.streamOffer {α : Type} (s : State) (gr : Group) (binder ord : Nat) (x : α) (serial next : Option Nat) : Option (Offer α) :=
  match s.leafStream binder ord with
  | none => serial.map (fun _ => .mismatch binder ord)
  | some e =>
    if e.type = 1 && e.w8 = gr.traceName then
      (if next.any (fun n => n % 2 ^ 32 != e.w4) then some (.mismatch binder ord)
      else if s.traceTime gr.ctx < e.w12 then some .later
      else if e.w12 ≠ s.traceTime gr.ctx then some (.mismatch binder ord)
      else
        match serial with
        | none => some .hold
        | some n => if n % 2 ^ 32 = e.w4 then some (.found x) else some (.mismatch binder ord))
    else none

/-- An offer of this rotation that agrees with its trace, else of a later one, else the first mismatch. -/
def pickOffer {α : Type} (l : List (Offer α)) : Option (Offer α) :=
  ((l.find? (fun o => match o with
    | .found _ | .hold => true
    | .none | .later | .mismatch _ _ => false)).orElse (fun _ => l.find? (fun o => match o with
    | .later => true
    | .none | .found _ | .hold | .mismatch _ _ => false))).orElse (fun _ => l.head?)

/-- What the replayed traces say of a group's NPOP (R299, R300). -/
def State.replayOffer (s : State) (gr : Group) : Option (Offer Nest) :=
  let ns := s.nests.filter (fun n => n.ctx == gr.ctx && (s.leafReplay n.binder).isSome && s.inSubtree gr.ctx gr.home n.desc.region)
  pickOffer (ns.filterMap (fun n => s.streamOffer gr n.binder n.bindOrdinal n (n.ready.head?.map (fun _ => n.serial)) (some n.serial)))

/-- A trace that the context replays concerns the group. -/
def State.replaying (s : State) (gr : Group) : Bool :=
  s.determined gr &&
  s.groups.any (fun o => o.ctx == gr.ctx && (match o.x.trace with
    | some t => t.play && s.traceGet o.ctx t.header traceState == 3
    | none => false))

/-- An offer outside the replayed traces, or none. -/
def freely {α : Type} (o : Option α) : Offer α :=
  match o with
  | some x => .found x
  | _ => .none

/-- What a group's NPOP finds. -/
def State.offerTo (s : State) (gr : Group) : Offer Nest :=
  if s.replaying gr then
    (match s.replayOffer gr with
    | some o => o
    | none => freely (s.freeOffer gr (fun n => (s.leafReplay n.binder).isNone)))
  else freely (s.freeOffer gr (fun _ => true))

/-- The four words of an entry (R261). -/
def entryWords (handle kind flags serial : Nat) (coord : List Word) (arg : DWord) : List DWord :=
  let c := fun i => (coord.getD i 0).toNat
  [BitVec.ofNat 64 (handle + kind * 2 ^ 16 + flags * 2 ^ 24 + serial % 2 ^ 32 * 2 ^ 32),
    BitVec.ofNat 64 (c 0 + c 1 * 2 ^ 32), BitVec.ofNat 64 (c 2 + c 3 * 2 ^ 32), arg]

/-- The words go into s4k and its three neighbours. -/
def entryWrites (a : Operand) (ws : List DWord) : List (Nat × DWord) :=
  (List.range 4).map (fun j => (sregNo a + j, ws.getD j 0))

/-- The group whose trace records a leaf's events: the binder's, where it has one. -/
def State.leafOwner (s : State) (binder : Nat) (gr : Group) : Option Group :=
  match s.group? binder with
  | some o => if o.x.trace.isSome then some o else s.traceOwner gr
  | none => s.traceOwner gr

/-- A hand-over to a determined group is recorded or consumed (R298, R299). -/
def State.traceHand (s : State) (gr : Group) (binder ord serial : Nat) : State :=
  if !s.determined gr then s
  else
    match s.traceStep (s.leafOwner binder gr) ⟨1, 0, ord, serial % 2 ^ 32, gr.traceName, s.traceTime gr.ctx⟩
      (fun e => e.ofLeaf ord) (fun _ => .take) 0 with
    | .go s => s
    | .hold => s
    | .mismatch s _ => s

/-- A message goes from one die to another: the one counts it as sent, the other as its own, received as soon as it is no longer on its
way (R25). An entry that an NPOP takes (R260) and a retirement that its NDONE waits for (R277) are never on their way. -/
def State.message (s : State) (ctx fromDie toDie : Nat) : State :=
  if fromDie = toDie then s
  else s.modCtx ctx (fun c =>
    { c with
      sent := countSet c.sent fromDie (countAt c.sent fromDie + 1)
      recv := countSet c.recv toDie (countAt c.recv toDie + 1) })

/-- Rewrites of a context on their way to a Stair of another die. -/
def State.rewritesSent (s : State) (ctx : Nat) : Nat :=
  (s.rewrites.filter (fun w => w.ctx == ctx && w.answer.isNone && ((s.group? w.g).map (fun gr => dieOf gr.core != w.die)).getD false)).length

/-- The Stair hands a nest's next entry to a group (R260, R271, R273, R16): the state and the entry's words. -/
def State.handOver (s : State) (gr : Group) (n : Nest) : State × List DWord :=
  match n.ready with
  | [] => (s, [])
  | e :: rest =>
    let cut := match s.rcb? n.ctx n.rcb with
      | some r => s.rcut r
      | none => false
    let h : Handed := ⟨n.serial, e.row, e.lin, gr.id, false, 0, 0⟩
    let words := entryWords n.handle (if cut then 4 else 1) e.flags n.serial e.coord n.desc.arg
    let s := (s.traceHand gr n.binder n.bindOrdinal n.serial).message n.ctx n.die (dieOf gr.core)
    let s := s.modNest n.ctx n.handle (fun n =>
      { n with ready := rest, serial := n.serial + 1, rr := gr.order, handed := n.handed ++ [h] })
    if cut then
      (match s.nest? n.ctx n.handle with
      | some m => (s.retirePoint m h .killed 0 0, words)
      | none => (s, words))
    else
      (s.modX gr.id (fun x => { x with
        held := some (.point n.handle n.serial)
        wdog := 0
        d2 := e.snapshot.map (fun m => ⟨m, [], []⟩) }), words)

/-- A TRY that finds nothing is recorded, or must stand in the replayed trace (R298 to R300). -/
def State.traceTry (s : State) (gr : Group) : TraceResult :=
  if !s.determined gr then .go s
  else
    let now := s.traceTime gr.ctx
    s.traceStep (s.traceOwner gr) ⟨1, 1, 0, 0xFFFFFFFF, gr.traceName, now⟩ (fun e => e.ofAgent gr.traceName 255)
      (fun e => if e.type = 1 && e.w12 = now then .take else .mismatch) 0

/-- The mismatch of a hand-over (R300). -/
def State.offerMismatch (s : State) (binder ord : Nat) : State × Trap :=
  match s.group? binder with
  | some o =>
    (match o.x.trace with
    | some t =>
      let i := ((s.traceNext o.ctx t (fun e => e.ofLeaf ord)).map (·.1)).getD (s.traceGet o.ctx t.header traceCount)
      s.traceMismatch o t i 0
    | none => (s, .plain .traceMismatch 0))
  | none => (s, .plain .traceMismatch 0)

/-- NPOP and HRECV share what comes of an offer: `take` hands over. -/
def hallOffer (try_ : Bool) (a : Operand) (k : WaitKind) {α : Type} (o : Offer α) (take : α → HallRes) (h : HallView) :
    HallRes :=
  match o with
  | .found n => take n
  | .mismatch binder ord =>
    let (s, t) := h.s.offerMismatch binder ord
    .fault s t
  | .hold => if try_ then .stall h.s else .wait h.s k
  | .none | .later =>
    if try_ then
      (match h.s.traceTry h.gr with
      | .go s => .done { st := s, s := entryWrites a [] }
      | .hold => .stall h.s
      | .mismatch s t => .fault s t)
    else .wait h.s k

/-- NPOP (R276). -/
def hallNpop (try_ : Bool) (a : Operand) (h : HallView) : HallRes :=
  if h.gr.x.held.isSome then .trap (.plain .illegalOperand 0)
  else
    hallOffer try_ a .npop (h.s.offerTo h.gr) (fun n =>
      let (s, ws) := h.s.handOver h.gr n
      .done { st := s, s := entryWrites a ws }) h

def execNpop (k : Ctl) (try_ : Bool) (a : Operand) (s : State) : Host.Outcome State Fault Refusal :=
  runHall (.npop k try_ a) (hallNpop try_ a) s

/-! ### D2 merges (R303, R304) -/

/-- The virtual address by which a context reached a physical byte, as its cached translations give it. -/
def Ctx.vaOf (c : Ctx) (pa : Nat) : Nat :=
  match c.tlb.find? (fun e => decide (e.pa ≤ pa) && decide (pa < e.pa + e.size)) with
  | some e => let v := e.va + (pa - e.pa); if v / 2 ^ 55 % 2 = 1 then v + 255 * 2 ^ 56 else v
  | none => pa

def epochGet (l : List (Int × List Nat)) (e : Int) : List Nat := ((l.find? (fun x => x.1 == e)).map (·.2)).getD []

def epochPut (l : List (Int × List Nat)) (e : Int) (bs : List Nat) : List (Int × List Nat) :=
  (e, epochGet l e ++ bs) :: l.filter (fun x => x.1 != e)

/-- The lowest byte of a write set that an earlier merge of the epoch wrote (R304). -/
def State.conflict (s : State) (ctx : Nat) (d : PointD2) (epoch : List Nat) : Option Nat :=
  match s.ctx? ctx with
  | none => none
  | some c => ((d.writes.filter (fun x => epoch.contains x.1)).map (fun x => c.vaOf x.1)).min?

/-- The write set and then the REDs reach memory (R303). -/
def State.merge (s : State) (d : PointD2) : State :=
  let s := d.writes.foldr (fun x s => s.deviceWrite 0 x.1 [x.2]) s
  d.reds.foldl (fun s r =>
    let old := leNat (s.peekBytes r.2.2.1 r.2.1)
    s.deviceWrite 0 r.2.2.1 (leBytes r.2.1 (atomNew r.1 r.2.1 old r.2.2.2.toNat 0))) s

/-- The merge epoch of a point (R304). -/
def Nest.epoch (n : Nest) (h : Handed) : Int :=
  if n.desc.kind != 2 && 2 ≤ n.desc.dims then h.row else (h.serial / 64 : Nat)

/-! ### NDONE (R277) -/

/-- The bytes 0 to 7 of an entry that an NDONE or HSEND gives back name what the group holds (R277, R407). -/
def namesHeld (x : DWord) (handle serial : Nat) : Bool :=
  x.toNat % 2 ^ 16 == handle && x.toNat / 2 ^ 32 == serial % 2 ^ 32

/-- The cause code and address of a FAIL or KILL (R277, R407). -/
def HallView.failCause (h : HallView) (b : Operand) : Nat := (h.r64 false b).toNat % 256
def HallView.failAddr (h : HallView) (c : Operand) : Nat :=
  match c with
  | .sreg _ => (h.r64 false c).toNat
  | _ => 0

def hallNdone (how : Retired) (a b c : Operand) (h : HallView) : HallRes :=
  match h.s.heldPoint h.gr with
  | none => .trap (.plain .illegalOperand 0)
  | some (n, p) =>
    if !namesHeld (h.r64 false a) n.handle p.serial then .trap (.plain .illegalOperand 0)
    else if !h.engineDrained then .stall h.s
    else
      if n.beyond p then .wait h.s .ndone
      else
        let cause := if how = .ok then 0 else h.failCause b
        let addr := if how = .ok then 0 else h.failAddr c
        let s := h.s.message n.ctx (dieOf h.gr.core) n.die
        match h.gr.x.d2 with
        | none => .done { st := (s.retirePoint n p how cause addr).dropHeld h.gr.id }
        | some d =>
          if n.handed.any (fun x => decide (x.serial < p.serial) && !x.late) then .wait h.s .d2merge
          else
            let e := n.epoch p
            match h.s.conflict n.ctx d (epochGet n.epochBytes e) with
            | some va => .trap ⟨.detConflict, 0, BitVec.ofNat 64 va, 0⟩
            | none =>
              let s := (s.merge d).modNest n.ctx n.handle (fun n =>
                { n with epochBytes := epochPut n.epochBytes e (d.writes.map (·.1)) })
              .done { st := (s.retirePoint n p how cause addr).dropHeld h.gr.id }

/-- NDONE.OK (R277). -/
def execNdoneOk (k : Ctl) (a : Operand) (s : State) : Host.Outcome State Fault Refusal :=
  runHall (.ndoneOk k a) (hallNdone .ok a .unused .unused) s

/-- NDONE.FAIL (R277). -/
def execNdoneFail (k : Ctl) (a b c : Operand) (s : State) : Host.Outcome State Fault Refusal :=
  runHall (.ndoneFail k a b c) (hallNdone .failed a b c) s

/-- NDONE.KILL (R277). -/
def execNdoneKill (k : Ctl) (a b c : Operand) (s : State) : Host.Outcome State Fault Refusal :=
  runHall (.ndoneKill k a b c) (hallNdone .killed a b c) s

/-! ### NXBND (R267, R278) -/

/-- The answer of R267 to a rewrite of cell `i` to `v`: 0 accepted, 1 too late, 2 closed, 3 illegal. -/
def State.rewriteStatus (s : State) (n : Nest) (hi : Bool) (d : Nat) (v : Int) : Nat :=
  let i := 2 * d + (if hi then 1 else 0)
  let table := n.cells.any (·.table)
  let cut := match s.rcb? n.ctx n.rcb with
    | some r => s.rcut r
    | none => true
  if cut then 2
  else if n.desc.dims ≤ d || n.desc.kind = 2 || ((n.cells[i]?).map (·.table)).getD false || (n.desc.kind = 1 && d = 1) ||
      (table && d = 0 && hi && decide ((n.desc.counts.length : Int) < v)) || (table && d = 0 && !hi && decide (v < 0)) then 3
  else if d = 0 then
    (if hi then (if !n.opened || n.nextRow - 1 < v then 0 else 1) else (if n.opened then 1 else 0))
  else if n.rows.isEmpty then 0 else 1

/-- An accepted rewrite changes the bound cell; while no row has opened the oldest live row register names lo0 (R262). -/
def Nest.setCell (n : Nest) (i : Nat) (v : Int) : Nest :=
  { n with cells := n.cells.modify i (fun b => { b with k := v }), oldest := if i = 0 && !n.opened then v else n.oldest }

/-- The rewrite `w` is applied at the Stair: its answer, and what follows from a changed bound (R267, R266). -/
def State.applyRewrite (s : State) (w : Rewrite) : State × Nat :=
  match s.nest? w.ctx w.handle with
  | none =>
    (s, if ((s.ctx? w.ctx).map (fun c => c.handles.any (fun x => x.handle == w.handle && x.nest))).getD false then 2 else 3)
  | some n =>
    let st := s.rewriteStatus n w.hi w.dim w.value
    if st = 0 then
      let s := s.modNest w.ctx w.handle (fun n => n.setCell (2 * w.dim + (if w.hi then 1 else 0)) w.value)
      ((s.advanceNest w.ctx w.handle).settleTree w.ctx [], 0)
    else (s, st)

/-- Of rewrites of one nest that arrive in one cycle the one from the lower die, core and group slot comes first: one that would have come
before a rewrite already applied in this cycle arrives later (R280). -/
def State.rewriteInTurn (s : State) (n : Nest) (gr : Group) : Bool :=
  match n.rewrote with
  | none => true
  | some (cycle, core, slot) =>
    cycle != s.cycles.toNat || decide (core < gr.core) || (core == gr.core && decide (slot < gr.slot))

/-- A rewrite gets its answer. -/
def State.answerRewrite (s : State) (w : Rewrite) (st : Nat) : State :=
  { s with rewrites := s.rewrites.map (fun x => if x = w then { x with answer := some st } else x) }

/-- The rewrite is applied and answered. -/
def State.settleRewrite (s : State) (w : Rewrite) : State :=
  match s.group? w.g with
  | none => (s.applyRewrite w).1.answerRewrite w (s.applyRewrite w).2
  | some gr =>
    let s := s.modNest w.ctx w.handle (fun n =>
      { n with rewrote := some (s.cycles.toNat, gr.core, gr.slot) })
    (s.applyRewrite w).1.answerRewrite w (s.applyRewrite w).2

/-- BOUND_REWRITE: rewrite `i` that has arrived at a die's Stair is applied, for a D1 or D2 leaf in the order that a
replayed trace dictates (R267, R280, R298, R299). -/
def execBoundRewrite (die i : Nat) (s : State) : Host.Outcome State Fault Refusal :=
  finish s (match (s.rewrites.filter (fun w => w.die == die && w.answer.isNone))[i]? with
    | none => s
    | some w =>
      if !s.engineRuns w.ctx (.stair die) then s
      else
        match s.nest? w.ctx w.handle, s.group? w.g with
        | some n, some gr =>
          if !s.rewriteInTurn n gr then s
          else if n.level = 0 then s.settleRewrite w
          else
            let st := s.rewriteStatus n w.hi w.dim w.value
            let next := (BitVec.ofInt 32 n.next).toNat
            let b1 := w.dim + (if w.hi then 4 else 0) + 16 * st
            let e : TraceEntry := ⟨2, b1, n.bindOrdinal, (BitVec.ofInt 32 w.value).toNat, n.serial % 2 ^ 32, next⟩
            (match s.traceStep (s.leafOwner n.binder gr) e
                (fun x => (x.type == 1 && x.b1 == 0 || x.type == 2) && x.ord == n.bindOrdinal)
                (fun x =>
                  if x.type = 2 && x.w8 = e.w8 && x.w12 = next then (if x.b1 = b1 && x.w4 = e.w4 then .take else .mismatch)
                  else .hold) 0 with
            | .go s => s.settleRewrite w
            | .hold => s
            | .mismatch s t => { s with rewrites := s.rewrites.filter (fun x => x != w) }.hallTrap w.g t)
        | _, _ => s.settleRewrite w)

def hallNxbnd (hi : Bool) (d : BitVec 2) (a b c : Operand) (h : HallView) : HallRes :=
  match h.s.rewrites.find? (fun w => w.g == h.gr.id) with
  | some w =>
    (match w.answer with
    | some st => .done { st := { h.s with rewrites := h.s.rewrites.filter (fun x => x.g != h.gr.id) }, s := sWrite a (BitVec.ofNat 64 st) }
    | none => .stall h.s)
  | none =>
    let handle := (h.r64 false b).toNat % 2 ^ 16
    let die := match h.s.nest? h.gr.ctx handle with
      | some n => n.die
      | none => dieOf h.gr.core
    let v := (h.r32 true c).toInt
    let s := h.s.message h.gr.ctx (dieOf h.gr.core) die
    .stall { s with rewrites := s.rewrites ++ [⟨die, h.gr.ctx, h.gr.id, handle, hi, d.toNat, v, none⟩] }

/-- NXBND (R278). -/
def execNxbnd (k : Ctl) (hi : Bool) (d : BitVec 2) (a b c : Operand) (s : State) : Host.Outcome State Fault Refusal :=
  runHall (.nxbnd k hi d a b c) (hallNxbnd hi d a b c) s

/-! ### NJOIN (R17, R279) -/

/-- The block at an address that may be an RCB: its bytes and their place, or the fault of reading it. -/
def State.readBlock (s : State) (ctx va n : Nat) : State × Except Trap (List Byte) :=
  match s.ctx? ctx with
  | none => (s, .ok (List.replicate n 0))
  | some c =>
    match s.engineRead c va n with
    | (s, .error (a, cause, k)) => (s, .error ⟨cause, 0, BitVec.ofNat 64 a, BitVec.ofNat 8 k⟩)
    | (s, .ok bs) => (s, .ok bs)

/-- A fault that an NJOIN on `va` meets (R272, R374, R402). -/
def JoinFault.meets (f : JoinFault) (va : Nat) : Bool := f.any || f.rcbs.contains va

/-- The RCB at an address, as a place in memory. -/
def State.rcbAt (s : State) (ctx va : Nat) : Rcb := ⟨ctx, va, ((s.vplace ctx va false).map (·.1)).getD 0⟩

/-- An RCB may be joined: aligned, of a supported version and a kind of R8. -/
def joinable (va : Nat) (b : List Byte) : Bool := va % 256 == 0 && blockN b 0 2 == 0x0100 && decide (blockN b 2 1 ≤ 3)

/-- NJOIN: a fault is delivered at the first NJOIN issued after it, so not at one that was waiting (R272, R374). -/
def hallNjoin (q try_ : Bool) (a b : Operand) (h : HallView) : HallRes :=
  let va := (h.r64 false b).toNat
  if va % 256 ≠ 0 then .trap (.plain .illegalOperand 0)
  else
    match h.s.readBlock h.gr.ctx va 256 with
    | (_, .error t) => .trap t
    | (s, .ok bs) =>
      if !joinable va bs then .trap (.plain .illegalOperand 0)
      else
        match if h.prior.isSome then none else h.gr.x.joinFaults.find? (fun f => f.meets va) with
        | some f => .fault (s.modX h.gr.id (fun x => { x with joinFaults := x.joinFaults.erase f })) f.trap
        | none =>
          let r := s.rcbAt h.gr.ctx va
          let quiet := q && h.prior == some (.quiesced va)
          if s.rdone r || try_ || quiet then
            let s' := if s.rdone r then
                s.modCtx h.gr.ctx (fun c => { c with handles := c.handles.filter (fun x => x.rcb != va) }) else s
            .done { st := s', s := sWrite a (BitVec.ofNat 64 (s.statusWord r quiet (s.frozen h.gr.ctx))) }
          else .wait s (.njoin q va)

/-- NJOIN (R279). -/
def execNjoin (k : Ctl) (q try_ : Bool) (a b : Operand) (s : State) : Host.Outcome State Fault Refusal :=
  runHall (.njoin k q try_ a b) (hallNjoin q try_ a b) s

end Sys2Proof.Machine
end

