-- ==== Sys2Proof/Machine/Bind.lean ====
section
/-! DEFINITION. NBIND (R252 to R255, R265, R268, R269, R275): the descriptor and its checks, the schedule image, and the
binding of a nest. -/

namespace Sys2Proof.Machine

open Sys2Proof

/-! ### The descriptor (R253, R254) -/

/-- A signed number of `n` bytes of a block. -/
def blockI (b : List Byte) (off n : Nat) : Int := (BitVec.ofNat (8 * n) (blockN b off n)).toInt

/-- The first non-zero byte of a block from `a` up to `z`. -/
def firstNonZero (b : List Byte) (a z : Nat) : Option Nat :=
  ((List.range (z - a)).map (a + ·)).find? (fun i => b.getD i 0 != 0)

/-- Bound record `i` of a descriptor. -/
def boundRecord (b : List Byte) (i : Nat) : Bound :=
  let o := 64 + 8 * i
  ⟨blockI b o 4, blockI b (o + 4) 1, blockI b (o + 5) 1, blockI b (o + 6) 1, blockN b (o + 7) 1 == 1⟩

/-- Distance vector `i` of a descriptor. -/
def distVector (b : List Byte) (i : Nat) : List Int := (List.range 4).map (fun j => blockI b (128 + 8 * i + 2 * j) 2)

/-- A vector's first non-zero component is positive (R255). -/
def lexPositive : List Int → Bool
  | [] => false
  | x :: xs => if x = 0 then lexPositive xs else decide (0 < x)

/-- The first failing byte among a list of checks. -/
def firstFailing (l : List (Bool × Nat)) : Option Nat := (l.find? (·.1)).map (·.2)

/-- Header checks (R255). -/
def headerFails (b : List Byte) : Option Nat :=
  (firstFailing
    [(blockN b 0 2 != 0x0100, 0), (decide (2 < blockN b 2 1), 2), (blockN b 3 1 == 0 || decide (4 < blockN b 3 1), 3),
     (decide (8 < blockN b 4 1), 4), (decide (2 < blockN b 5 1), 5), (blockN b 6 2 == 0 || decide (256 < blockN b 6 2), 6)]).orElse
    (fun _ => (firstNonZero b 36 64).orElse (fun _ => firstNonZero b 192 256))

/-- The checks of bound record `i` alone (R254, R255). -/
def boundFails (b : List Byte) (i : Nat) : Option Nat :=
  let o := 64 + 8 * i
  let d := i / 2
  let dims := blockN b 3 1
  let kind := blockN b 2 1
  let mode := blockN b (o + 7) 1
  let table := mode == 1
  if dims ≤ d then firstNonZero b o (o + 8)
  else
    ((List.range 3).findSome? (fun j => if d ≤ j && b.getD (o + 4 + j) 0 != 0 then some (o + 4 + j) else none)).orElse (fun _ =>
      if 1 < mode then some (o + 7)
      else if table && i % 2 = 0 then some (o + 7)
      else if table && d = 0 && kind != 2 then some (o + 7)
      else if table then firstNonZero b o (o + 7)
      else none)

/-- The checks of table bounds against TABLE, TILE, TABLEN and the bounds of dimension 0 (R255). -/
def tableFails (b : List Byte) : Option Nat :=
  let dims := blockN b 3 1
  let kind := blockN b 2 1
  let inner := ((List.range dims).drop 1).any (fun d => blockN b (64 + 16 * d + 15) 1 == 1)
  let outer := kind == 2 && blockN b 79 1 == 1
  firstFailing
    [((inner || outer) && blockN b 24 8 == 0, 24),
     (inner && blockN b 32 2 == 0, 32), (outer && blockN b 32 2 != 1, 32),
     (inner && (blockN b 34 2 == 0 || decide (256 < blockN b 34 2)), 34),
     (inner && decide (blockI b 64 4 < 0), 64), (inner && decide ((blockN b 34 2 : Int) < blockI b 72 4), 72)]

/-- The checks of the distance vectors (R255). -/
def vectorFails (b : List Byte) : Option Nat :=
  let dims := blockN b 3 1
  let ndist := blockN b 4 1
  (List.range 8).findSome? (fun i =>
    let o := 128 + 8 * i
    if ndist ≤ i then firstNonZero b o (o + 8)
    else if !lexPositive (distVector b i) then some o
    else firstNonZero b (o + 2 * dims) (o + 8))

/-- The largest component 0 among the vectors. -/
def depthOf (b : List Byte) : Nat :=
  (List.range (blockN b 4 1)).foldl (fun m i => max m ((distVector b i).headD 0).toNat) 0

/-- The shape rules of grouped and scheduled nests (R255, R268, R269). -/
def kindFails (b : List Byte) : Option Nat :=
  match blockN b 2 1 with
  | 1 =>
    if blockN b 3 1 != 2 then some 3
    else (firstNonZero b 80 88).orElse (fun _ => if blockN b 95 1 != 1 then some 95 else none)
  | 2 =>
    if blockN b 3 1 != 1 then some 3
    else if blockN b 4 1 != 0 then some 4
    else (firstNonZero b 64 72).orElse (fun _ =>
      firstFailing [(blockN b 79 1 != 1, 79), (blockN b 24 8 == 0, 24), (blockN b 32 2 != 1, 32)])
  | _ => none

/-- The first failing byte of a descriptor; `region` says that REGION names a live context or region (R255). -/
def descFails (b : List Byte) (region : Bool) : Option Nat :=
  (headerFails b).orElse (fun _ =>
    ((List.range 8).findSome? (boundFails b)).orElse (fun _ =>
      (tableFails b).orElse (fun _ =>
        (vectorFails b).orElse (fun _ =>
          (firstFailing [(decide (blockN b 6 2 < depthOf b + 1), 6), (!region, 8)]).orElse (fun _ => kindFails b)))))

/-- The Stair's copy of a descriptor with its table. -/
def descOf (va : Nat) (b : List Byte) (counts : List Nat) (tasks edges work : Nat) : NestDesc where
  va := va
  bytes := b
  kind := blockN b 2 1
  dims := blockN b 3 1
  dist := (List.range (blockN b 4 1)).map (distVector b)
  det := blockN b 5 1
  landing := blockN b 6 2
  region := blockN b 8 8
  arg := BitVec.ofNat 64 (blockN b 16 8)
  table := blockN b 24 8
  tile := blockN b 32 2
  counts := counts
  tasks := tasks
  edges := edges
  work := work

/-! ### The schedule image (R269) -/

/-- The first failing field of an image's header, as its offset. -/
def imageHeaderFails (h : List Byte) : Option Nat :=
  (firstFailing [(blockN h 0 2 != 0x0100, 0)]).orElse (fun _ =>
    (firstNonZero h 2 4).orElse (fun _ =>
      (firstFailing [(blockN h 4 4 == 0 || decide (16777216 < blockN h 4 4), 4), (decide (268435456 < blockN h 8 4), 8)]).orElse
        (fun _ => (firstNonZero h 12 16).orElse (fun _ => firstNonZero h 24 32))))

/-- The checks of PRED and START: the words at their places, in the order of R269. -/
def imageBodyFails (tasks edges first last preds : Nat) : Option Nat :=
  firstFailing [(first != 0, 32 + 4 * tasks), (last != edges, 32 + 8 * tasks), (preds != edges, 32)]

/-! ### Binding (R252, R265, R275) -/

/-- A handle that the context may give out: any free one (R252). -/
def State.freeHandles (s : State) (c : Ctx) : List Nat :=
  ((List.range 4096).drop 1).filter (fun h =>
    !(c.handles.any (fun x => x.handle == h)) && !(s.insts.any (fun x => x.ctx == c.num && x.handle == h)))

def State.drawHandle (s : State) (c : Ctx) : State × Option Nat :=
  let l := s.freeHandles c
  match l with
  | [] => (s, none)
  | _ =>
    let (i, s) := s.draw (l.length - 1)
    (s, l[i]?)

/-- The RCB a program binds: none where R8 or its parent refuses it. -/
def State.leafRcb (s : State) (ctx va kind parent : Nat) (b : List Byte) : Bool :=
  match s.ctx? ctx with
  | none => false
  | some c =>
    va % 256 == 0 && s.pageClass c va == some 0 && s.rcbOk ctx b kind (some parent) &&
    !(s.rcbs.any (fun r => r.ctx == ctx && r.va == va))

/-- The level at which a leaf is bound (R291). -/
def boundLevel (det : Nat) (gr : Group) : Nat := max det gr.x.level

/-- NBIND's refusals by status (R275). -/
def HallView.status (h : HallView) (a : Operand) (s : State) (n : Nat) : HallRes :=
  .done { st := s.modX h.gr.id (fun x => { x with landAsk := none }), s := sWrite a (BitVec.ofNat 64 (n * 2 ^ 56)) }

/-- The binding group counts a bind, which DETSET will wait for (R297, R307). -/
def GroupExtra.countBind (x : GroupExtra) (rcb : Nat) : GroupExtra :=
  { x with bindOrdinal := x.bindOrdinal + 1, bound := x.bound ++ [rcb] }

/-- A word of NEST_ILLEGAL's address and kind. -/
def nestIllegal (va : Nat) : Trap := ⟨.nestIllegal, 0, BitVec.ofNat 64 va, 6⟩

/-- What NBIND reads beside the descriptor: the counts of a table bound, or the image of a scheduled nest with its task and
edge counts and its work area. -/
def State.readTable (s : State) (ctx : Nat) (b : List Byte) : State × Except Trap (List Nat × Nat × Nat × Nat) :=
  let va := blockN b 24 8
  let inner := ((List.range (blockN b 3 1)).drop 1).any (fun d => blockN b (64 + 16 * d + 15) 1 == 1)
  if blockN b 2 1 = 2 then
    if va % 8 ≠ 0 then (s, .error ⟨.misaligned, 0, BitVec.ofNat 64 va, 0⟩)
    else
      match s.readBlock ctx va 32 with
      | (s, .error t) => (s, .error t)
      | (s, .ok h) =>
        match imageHeaderFails h with
        | some o => (s, .error (nestIllegal (va + o)))
        | none =>
          let tasks := blockN h 4 4
          let edges := blockN h 8 4
          match s.readBlock ctx va (36 + 8 * tasks + 4 * edges) with
          | (s, .error t) => (s, .error t)
          | (s, .ok img) =>
            let preds := ((List.range tasks).map (fun i => blockN img (32 + 4 * i) 4)).sum
            let classed := match s.ctx? ctx with
              | some c => s.allCached c va (36 + 8 * tasks + 4 * edges)
              | none => false
            if !classed then (s, .error (nestIllegal va))
            else
              match imageBodyFails tasks edges (blockN img (32 + 4 * tasks) 4) (blockN img (32 + 8 * tasks) 4) preds with
              | some o => (s, .error (nestIllegal (va + o)))
              | none => (s, .ok ([], tasks, edges, blockN h 16 8))
  else if inner then
    if va % 4 ≠ 0 then (s, .error ⟨.misaligned, 0, BitVec.ofNat 64 va, 0⟩)
    else
      let n := blockN b 34 2
      match s.readBlock ctx va (4 * n) with
      | (s, .error t) => (s, .error t)
      | (s, .ok t) => (s, .ok ((List.range n).map (fun i => blockN t (4 * i) 4), 0, 0, 0))
  else (s, .ok ([], 0, 0, 0))

/-- The nest as it begins. -/
def Nest.fresh (gr : Group) (handle rcb : Nat) (d : NestDesc) (b : List Byte) : Nest where
  ctx := gr.ctx
  handle := handle
  die := dieOf gr.core
  rcb := rcb
  pc := gr.hall.pc
  desc := d
  level := boundLevel d.det gr
  binder := gr.id
  binderOrdinal := gr.ordinal
  bindOrdinal := gr.x.bindOrdinal
  cells := (List.range 8).map (boundRecord b)
  rows := []
  nextRow := blockI b 64 4
  asks := none
  opened := false
  oldest := blockI b 64 4
  ready := []
  handed := []
  serial := 0
  rr := 0
  started := false
  finished := 0
  epochBytes := []
  faulted := false
  rewrote := none

/-- The ranges that NBIND latches (R9, R270). -/
def nestLatches (ctx handle rcb : Nat) (d : NestDesc) : List Latch :=
  rcbLatch ctx rcb :: (if d.kind = 2 then [⟨ctx, none, d.work, 4 * d.tasks, true, .work handle⟩] else [])

/-- WORK overlaps the work area of another live scheduled nest (R269). -/
def State.workOverlaps (s : State) (ctx : Nat) (d : NestDesc) : Bool :=
  d.kind == 2 && s.nests.any (fun n => n.ctx == ctx && n.desc.kind == 2 &&
    decide (n.desc.work < d.work + 4 * d.tasks) && decide (d.work < n.desc.work + 4 * n.desc.tasks))

/-- The rows that NBIND charges: D + 1, none for a scheduled nest (R265). -/
def NestDesc.charge (d : NestDesc) : Nat := if d.kind = 2 then 0 else d.depth + 1

/-- A leaf's own ceiling on landing rows, where its RCB has one, allows `n` (R13). -/
def leafAllows (b : List Byte) (n : Nat) : Bool := !(blockN b 4 4).testBit 18 || decide (n ≤ blockN b 44 2)

/-- NBIND's last part: a record, the charge and the latches are waited for; then the nest is bound (R275). -/
def HallView.bindNest (h : HallView) (s : State) (a : Operand) (va rcb parent : Nat) (b rb : List Byte)
    (tb : List Nat × Nat × Nat × Nat) : HallRes :=
  match s.ctx? h.gr.ctx with
  | none => .stall h.s
  | some c =>
    match s.drawHandle c with
    | (s, none) => h.status a s 2
    | (s, some handle) =>
      let d := descOf va b tb.1 tb.2.1 tb.2.2.1 tb.2.2.2
      let latches := nestLatches h.gr.ctx handle rcb d
      if s.workOverlaps h.gr.ctx d then h.status a s 3
      else if 1024 ≤ (s.nests.filter (fun n => n.die == dieOf h.gr.core && s.holdsWork n.ctx)).length then .stall h.s
      else if !(s.askLand h.gr parent d.charge (leafAllows rb d.charge)).2 || !s.latchFits latches then
        .stall (h.s.askLand h.gr parent d.charge (leafAllows rb d.charge)).1
      else
        let s := s.modX h.gr.id (fun x => { x with landAsk := none })
        let s := s.makeRcb h.gr.ctx rcb (s.rcbAt h.gr.ctx rcb).pa parent true
        let s := ({ s with nests := s.nests ++ [Nest.fresh h.gr handle rcb d b] }).enter (latches.drop 1)
        let s := s.modCtx h.gr.ctx (fun c => { c with handles := c.handles ++ [⟨handle, rcb, true⟩] })
        let s := s.modX h.gr.id (fun x => x.countBind rcb)
        .done { st := s.settleTree h.gr.ctx [], s := sWrite a (BitVec.ofNat 64 handle) }

/-- The parent that NBIND binds under: C's register, or the descriptor's region where C is an immediate (R275). -/
def HallView.leafParent (h : HallView) (c : Operand) (region : Nat) : Nat :=
  match c with
  | .imm _ => region
  | _ => (h.r64 false c).toNat

def hallNbind (a b c : Operand) (h : HallView) : HallRes :=
  let ctx := h.gr.ctx
  let va := (h.s64 (sregNo b)).toNat
  let rcb := (h.s64 (sregNo b + 1)).toNat
  if !h.engineDrained then .stall h.s
  else if va % 256 ≠ 0 then .trap ⟨.misaligned, 0, BitVec.ofNat 64 va, 0⟩
  else
    match h.s.readBlock ctx va 256 with
    | (_, .error t) => .trap t
    | (s, .ok b) =>
      match s.readBlock ctx rcb 256 with
      | (_, .error t) => .trap t
      | (s, .ok rb) =>
        let cls := (s.ctx? ctx).bind (fun c => s.pageClass c va)
        let region := blockN b 8 8
        let live := match s.rcb? ctx region with
          | some r => decide (s.rget r .kind ≤ 1)
          | none => false
        if cls != some 0 then .trap (nestIllegal va)
        else
          match descFails b live with
          | some o => .trap (nestIllegal (va + o))
          | none =>
            match s.readTable ctx b with
            | (_, .error t) => .trap t
            | (s, .ok tb) =>
              let parent := h.leafParent c region
              if !s.leafRcb ctx rcb 2 parent rb then h.status a s 1
              else h.bindNest s a va rcb parent b rb tb

/-- NBIND (R275). -/
def execNbind (k : Ctl) (a b c : Operand) (s : State) : Host.Outcome State Fault Refusal :=
  runHall (.nbind k a b c) (hallNbind a b c) s

end Sys2Proof.Machine
end

