-- ==== Sys2Proof/Machine/Fabric.lean ====
section
/-! DEFINITION. The fabric engine (R365 to R384): descriptors, gather, scatter, scatter-add and dispatch in units,
collectives in steps, and completion. Memory of other devices is outside the model: what is read there is free. -/

namespace Sys2Proof.Machine

open Sys2Proof

/-! ### Descriptors (R367, R375, R383) -/

/-- The lowest offset among failed checks. -/
def lowestFailing (l : List (Bool × Nat)) : Option Nat :=
  l.foldl (fun m x => if x.1 then some (match m with
    | some a => min a x.2
    | none => x.2) else m) none

/-- Offset of the first non-zero byte of a range of a descriptor. -/
def nonZeroAt (b : List Byte) (a z : Nat) : List (Bool × Nat) :=
  match (List.range (z - a)).find? (fun i => b.getD (a + i) 0 != 0) with
  | some i => [(true, a + i)]
  | none => []

/-- A field that must be 0 unless it is used. -/
def unusedField (b : List Byte) (off n : Nat) (used : Bool) : Bool × Nat := (!used && blockN b off n != 0, off)

/-- The offset of the first field of an FXG descriptor that fails its check (R367, R368, R370, R383). -/
def fxgFails (b : List Byte) : Option Nat :=
  let kind := blockN b 2 1
  let at_ := blockN b 3 1
  let word := if kind = 2 && (at_ == 1 || at_ == 3) then 8 else 4
  let ls := blockN b 12 1
  let comp := blockN b 13 1
  let loc := if kind = 0 then 32 else 24
  let d := kind == 3
  lowestFailing ([(blockN b 0 2 != 0x0100, 0), (decide (3 < kind), 2),
    (decide ((if kind = 2 then 3 else 0) < at_), 3),
    (decide (blockN b 4 4 < 4) || decide (65536 < blockN b 4 4) || blockN b 4 4 % word != 0, 4),
    (decide (2 ^ 24 < blockN b 8 4), 8),
    (decide (2 < ls) || (ls == 2 && kind != 0), 12), (decide (3 < comp), 13),
    (blockN b 16 8 % 8 != 0, 16),
    (blockN b loc 8 % word != 0 || (ls != 0 && decide (2 ^ 21 ≤ blockN b loc 8)), loc),
    unusedField b 32 8 (kind != 3), unusedField b 40 8 (comp % 2 == 1), unusedField b 48 8 (comp / 2 == 1),
    (blockN b 48 8 % 32 != 0, 48),
    unusedField b 56 8 d, (blockN b 56 8 % 8 != 0, 56), unusedField b 64 8 d, (blockN b 64 8 % 4 != 0, 64),
    unusedField b 72 8 d, (blockN b 72 8 % 32 != 0, 72), unusedField b 80 8 d, (blockN b 80 8 % 4 != 0, 80),
    unusedField b 88 4 d, (d && (blockN b 88 4 == 0 || decide (4096 < blockN b 88 4)), 88)] ++
    nonZeroAt b 14 16 ++ nonZeroAt b 92 128)

/-- Bytes of an element of a collective (R375). -/
def etypeBytes (t : Nat) : Nat :=
  match t with
  | 2 | 3 | 5 => 8
  | 6 => 2
  | _ => 4

/-- The offset of the first field of an FXC descriptor that fails its check (R375, R383). -/
def fxcFails (b : List Byte) : Option Nat :=
  let op := blockN b 2 1
  let comp := blockN b 5 1
  let w := etypeBytes (blockN b 3 1)
  lowestFailing ([(blockN b 0 2 != 0x0100, 0), (decide (2 < op), 2), (decide (6 < blockN b 3 1), 3),
    (decide (2 < blockN b 4 1), 4), unusedField b 4 1 (op != 0), (decide (3 < comp), 5), (blockN b 6 2 == 0, 6),
    (blockN b 8 4 == 0 || decide (2 ^ 28 < blockN b 8 4), 8), (blockN b 12 4 == 0 || decide (4096 < blockN b 12 4), 12),
    (blockN b 20 4 == 0 || decide (blockN b 12 4 < blockN b 20 4), 20),
    (blockN b 24 4 == 0 || decide (256 < blockN b 24 4), 24), unusedField b 28 4 (op == 1),
    (blockN b 32 8 % w != 0, 32), (blockN b 40 8 % w != 0, 40),
    unusedField b 48 8 (comp % 2 == 1), unusedField b 56 8 (comp / 2 == 1), (blockN b 56 8 % 32 != 0, 56)] ++
    nonZeroAt b 64 128)

/-! ### A command's fields -/

def FabCmd.n (c : FabCmd) (off n : Nat) : Nat := blockN c.desc off n

def FabCmd.kind (c : FabCmd) : Nat := c.n 2 1
def FabCmd.atype (c : FabCmd) : Nat := c.n 3 1
def FabCmd.esize (c : FabCmd) : Nat := c.n 4 4
def FabCmd.count (c : FabCmd) : Nat := c.n 8 4
def FabCmd.lspace (c : FabCmd) : Nat := c.n 12 1
def FabCmd.comp (c : FabCmd) : Nat := c.n (if c.collective then 5 else 13) 1
def FabCmd.rcb (c : FabCmd) : Nat := c.n (if c.collective then 48 else 40) 8
def FabCmd.crec (c : FabCmd) : Nat := c.n (if c.collective then 56 else 48) 8
/-- The local rows (R367). -/
def FabCmd.local_ (c : FabCmd) : Nat := if c.kind = 0 then c.n 32 8 else c.n 24 8
/-- The remote base (R368). -/
def FabCmd.base (c : FabCmd) : Nat := if c.kind = 0 then c.n 24 8 else c.n 32 8
/-- Alignment of an element's words (R368). -/
def FabCmd.word (c : FabCmd) : Nat := if c.kind = 2 && (c.atype == 1 || c.atype == 3) then 8 else 4
/-- Positions, or distinct elements, of a unit (R379). -/
def FabCmd.per (c : FabCmd) : Nat := (4095 + c.esize) / c.esize

/-- The ranges that a command registers (R378). -/
def FabCmd.latches (c : FabCmd) : List Latch :=
  let h := Holder.command c.id
  let g := fun (lo len : Nat) (dst : Bool) => (⟨c.ctx, none, lo, len, dst, h⟩ : Latch)
  let rows := c.count * c.esize
  let w := etypeBytes (c.n 3 1)
  (if c.collective then
    [g c.va 128 false, g (c.n 32 8) (c.n 20 4 * c.n 8 4 * w) false,
      g (c.n 40 8) ((if c.n 2 1 = 0 then c.n 12 4 else 1) * c.n 8 4 * w) true]
  else
    [g c.va 128 false, g (c.n 16 8) (8 * c.count) false] ++
    (if c.lspace = 0 then [g c.local_ rows (c.kind == 0)]
     else if c.lspace = 1 then [⟨c.ctx, some c.g, c.local_, rows, c.kind == 0, h⟩] else []) ++
    (if c.kind = 3 then
      [g (c.n 56 8) (16 * c.n 88 4) false, g (c.n 64 8) rows true, g (c.n 72 8) (32 * c.count) true,
        g (c.n 80 8) (4 * (c.n 88 4 + 1)) true]
     else [])).filter (fun (l : Latch) => l.len != 0)

/-! ### Reading and writing (R366, R373) -/

/-- Local bytes, global or of the issuing group's scratchpad. -/
def State.fabRead (s : State) (c : FabCmd) (spad : Bool) (va n : Nat) : State × Except FabErr (List Byte) :=
  if spad then (s, .ok (((s.group? c.g).map (fun gr => cellBytes gr.x.spad va n)).getD (List.replicate n 0)))
  else
    match s.ctx? c.ctx with
    | none => (s, .ok (List.replicate n 0))
    | some x =>
      match s.engineRead x va n with
      | (s, .ok bs) => (s, .ok bs)
      | (s, .error (a, cause, k)) =>
        if cause = .uncorrectableEcc then
          (s.raiseHalt c.ctx (.fabric c.die)
            { s.commandInfo FaultInfo.blank c.g c.pc with cause := 0x3F, unit := c.die * 4096, cinfo := a } false,
            .error (cause, k, a))
        else (s, .error (cause, k, a))

def State.fabWrite (s : State) (c : FabCmd) (spad : Bool) (va : Nat) (bs : List Byte) : State × Except FabErr Unit :=
  if spad then (s.modX c.g (fun x => x.spadWrite (cellsAt va bs) [] []), .ok ())
  else
    match s.ctx? c.ctx with
    | none => (s, .ok ())
    | some x =>
      match s.engineWrite x va bs with
      | (s, .ok ()) => (s, .ok ())
      | (s, .error (a, cause, k)) => (s, .error (cause, k, a))

/-- Bytes that another device supplies: nothing fixes them. -/
def State.freeBytes : Nat → State → State × List Byte
  | 0, s => (s, [])
  | n + 1, s =>
    let (x, s) := s.drawBits
    let (s, bs) := s.freeBytes n
    (s, x.setWidth 8 :: bs)

/-- A fabric device number names this device (R366, R368). -/
def State.isHere (s : State) (ctx dev : Nat) : Bool :=
  dev == 0xFF || (match s.ctx? ctx with
    | some c => c.group != 0xFF && c.device == dev
    | none => false)

/-- The routes over the trained links: the module, its hops and the local port (R436). -/
def Cellar.routes (c : Cellar) : List (DWord × Nat × Nat) :=
  (c.links.flatMap (fun l =>
    (l.identity, 1, l.port) :: (Config.beyond l.identity).map (fun x => (x.1, x.2 + 1, l.port)))).filter (fun x => x.1 != Config.identity)

/-- Hops and local port of the route to a module: the fewest hops, then the lower port (R436). -/
def Cellar.route (c : Cellar) (identity : DWord) : Option (Nat × Nat) :=
  ((c.routes.filter (fun x => x.1 == identity)).map (·.2)).foldl (fun m x =>
    match m with
    | none => some x
    | some y => if x.1 < y.1 || (x.1 == y.1 && decide (x.2 < y.2)) then some x else some y) none

/-- The modules reachable over trained links (R436). -/
def State.reachable (s : State) : List DWord := (s.cellar.routes.map (·.1)).eraseDups

/-- The member's module is reachable over trained links (R436). -/
def State.reaches (s : State) (m : Member) : Bool := (s.cellar.route m.identity).isSome

/-- It names another member of the fabric group, on a reachable module (R436). -/
def State.isMember (s : State) (ctx dev : Nat) : Bool :=
  match s.ctx? ctx with
  | some c => c.group != 0xFF && s.cellar.members.any (fun m => m.group == c.group && m.dev == dev && s.reaches m)
  | none => false

/-- An element's place (R366, R368): here, or on another member; a device number that names none, or a misaligned word,
fails. -/
def State.elemPlace (s : State) (c : FabCmd) (dev va word : Nat) : Except FabErr Bool :=
  if s.isHere c.ctx dev then (if va % word = 0 then .ok true else .error (.misaligned, 0, va))
  else if s.isMember c.ctx dev then (if va % word = 0 then .ok false else .error (.misaligned, 0, va))
  else .error (.illegalOperand, 6, va)

/-- What another device answers: it serves the element, or a check of R28 or R90 fails there. -/
def State.remoteAnswer (s : State) (va : Nat) : State × Except FabErr Unit :=
  let (k, s) := s.draw 5
  (s, match k with
    | 0 => .ok ()
    | 5 => .error (.accessViolation, 0, va)
    | k => .error (.pageFault, k, va))

/-- An element of `n` bytes is read where it is. -/
def State.elemRead (s : State) (c : FabCmd) (dev va n word : Nat) : State × Except FabErr (List Byte) :=
  match s.elemPlace c dev va word with
  | .error e => (s, .error e)
  | .ok true =>
    (match s.fabRead c false va n with
    | (s, .ok bs) => (s, .ok bs)
    | (s, .error (cause, k, _)) => (s, .error (cause, k, va)))
  | .ok false =>
    match s.remoteAnswer va with
    | (s, .error e) => (s, .error e)
    | (s, .ok ()) =>
      let (s, bs) := s.freeBytes n
      (s, .ok bs)

/-- An element is written whole where it is. -/
def State.elemWrite (s : State) (c : FabCmd) (dev va word : Nat) (bs : List Byte) : State × Except FabErr Unit :=
  match s.elemPlace c dev va word with
  | .error e => (s, .error e)
  | .ok true =>
    (match s.fabWrite c false va bs with
    | (s, .ok ()) => (s, .ok ())
    | (s, .error (cause, k, _)) => (s, .error (cause, k, va)))
  | .ok false => s.remoteAnswer va

/-- An element is checked for an access where it is: whether it is here (R28, R90, R373). -/
def State.elemCheck (s : State) (c : FabCmd) (dev va n word : Nat) (acc : Access) : State × Except FabErr Bool :=
  match s.elemPlace c dev va word with
  | .error e => (s, .error e)
  | .ok true =>
    (match s.ctx? c.ctx with
    | none => (s, .ok true)
    | some x =>
      match s.engineUnits x acc (n / 65536 + 2) va n with
      | (s, .error (_, cause, k)) => (s, .error (cause, k, va))
      | (s, .ok ()) => (s, .ok true))
  | .ok false =>
    match s.remoteAnswer va with
    | (s, .error e) => (s, .error e)
    | (s, .ok ()) => (s, .ok false)

/-! ### Index entries (R368) -/

/-- The index list is read: each entry, or the failure of reading it. -/
def State.readIndex (s : State) (c : FabCmd) : State × List (FabErr ⊕ Nat) :=
  (List.range c.count).foldl (fun (r : State × List (FabErr ⊕ Nat)) j =>
    match r.1.fabRead c false (c.n 16 8 + 8 * j) 8 with
    | (s, .ok bs) => (s, r.2 ++ [.inr (leNat bs)])
    | (s, .error e) => (s, r.2 ++ [.inl e])) (s, [])

/-- The index list as the engine read it. -/
def FabCmd.index (c : FabCmd) : List (FabErr ⊕ Nat) := (c.plan.map (·.index)).getD []

/-- Index entry `j`, or the failure of reading it. -/
def FabCmd.indexAt (c : FabCmd) (j : Nat) : FabErr ⊕ Nat := c.index.getD j (.inr 0)

/-- The element that an entry names: its device (0xFF for this one) and its number; none where the entry itself fails. -/
def State.named (s : State) (c : FabCmd) (e : FabErr ⊕ Nat) : Option (Nat × Nat) :=
  match e with
  | .inl _ => none
  | .inr x =>
    if x / 2 ^ 48 % 256 ≠ 0 then none
    else some (if s.isHere c.ctx (x / 2 ^ 56) then 0xFF else x / 2 ^ 56, x % 2 ^ 48)

/-- An entry that itself fails, with its failure. -/
def FabCmd.entryFault (c : FabCmd) (j : Nat) (e : FabErr ⊕ Nat) : FabErr :=
  match e with
  | .inl f => f
  | .inr _ => (.illegalOperand, 6, c.n 16 8 + 8 * j)

/-- The address of an element (R368). -/
def FabCmd.elemAddr (c : FabCmd) (i : Nat) : Nat := (c.base + i * c.esize) % 2 ^ 64

/-! ### Units (R369, R370, R373, R379) -/

/-- What a unit has done: the state, and the lowest failure among its positions. -/
abbrev Served := State × Option (Nat × FabErr)

def noteFault (f : Option (Nat × FabErr)) (j : Nat) (e : FabErr) : Option (Nat × FabErr) :=
  match f with
  | some (i, x) => if j < i then some (j, e) else some (i, x)
  | none => some (j, e)

/-- Position `j` of a gather (R369). -/
def State.gatherAt (s : State) (c : FabCmd) (j : Nat) : State × Except FabErr Unit :=
  match s.named c (c.indexAt j) with
  | none => (s, .error (c.entryFault j (c.indexAt j)))
  | some (dev, i) =>
    match s.elemRead c dev (c.elemAddr i) c.esize 4 with
    | (s, .error e) => (s, .error e)
    | (s, .ok bs) => s.fabWrite c (c.lspace != 0) (c.local_ + j * c.esize) bs

/-- Position `j` of a scatter: every position checks its element, only the highest that names it writes it (R369, R373). -/
def State.scatterAt (s : State) (c : FabCmd) (j : Nat) : State × Except FabErr Unit :=
  match s.named c (c.indexAt j) with
  | none => (s, .error (c.entryFault j (c.indexAt j)))
  | some (dev, i) =>
    match s.fabRead c (c.lspace != 0) (c.local_ + j * c.esize) c.esize with
    | (s, .error e) => (s, .error e)
    | (s, .ok bs) =>
      if (c.index.drop (j + 1)).any (fun e => s.named c e == some (dev, i)) then
        (match s.elemCheck c dev (c.elemAddr i) c.esize 4 .store with
        | (s, .error e) => (s, .error e)
        | (s, .ok _) => (s, .ok ()))
      else s.elemWrite c dev (c.elemAddr i) 4 bs

/-- x ⊕ y of a scatter-add on words of `w` bytes (R369). -/
def fabAdd (atype x y : Nat) : Nat :=
  match atype with
  | 0 => (x + y) % 2 ^ 32
  | 1 => (x + y) % 2 ^ 64
  | 2 => (addRes .f32 .rn (fval .f32 (BitVec.ofNat 64 x)) (fval .f32 (BitVec.ofNat 64 y))).bits.toNat
  | _ => (addRes .f64 .rn (fval .f64 (BitVec.ofNat 64 x)) (fval .f64 (BitVec.ofNat 64 y))).bits.toNat

/-- Two rows added word by word. -/
def rowAdd (atype w : Nat) (x y : List Byte) : List Byte :=
  (List.range (x.length / w)).flatMap (fun i => leBytes w (fabAdd atype (blockN x (w * i) w) (blockN y (w * i) w)))

/-- The distinct elements of the list with their positions, in order of first position; an entry that itself fails stands
alone (R373, R379). -/
def State.elements (s : State) (c : FabCmd) : List (Option (Nat × Nat) × List Nat) :=
  ((List.range c.count).zip c.index).foldl
    (fun l x =>
      match s.named c x.2 with
      | none => l ++ [(none, [x.1])]
      | some e =>
        if l.any (fun y => y.1 == some e) then l.map (fun y => if y.1 == some e then (y.1, y.2 ++ [x.1]) else y)
        else l ++ [(some e, [x.1])])
    []

/-- The rows of an element added in list order, or the failing position. -/
def State.sumRows (s : State) (c : FabCmd) : List Nat → Option (List Byte) → State × Except (Nat × FabErr) (List Byte)
  | [], m => (s, .ok (m.getD []))
  | j :: js, m =>
    match s.fabRead c (c.lspace != 0) (c.local_ + j * c.esize) c.esize with
    | (s, .error e) => (s, .error (j, e))
    | (s, .ok bs) => s.sumRows c js (some (match m with
        | none => bs
        | some x => rowAdd c.atype c.word x bs))

/-- One element of a scatter-add: its sum is added at its home, which no page of class host can do (R90, R369). -/
def State.addElement (s : State) (c : FabCmd) (e : Option (Nat × Nat) × List Nat) : Served :=
  let j := e.2.headD 0
  match e.1 with
  | none => (s, some (j, c.entryFault j (c.indexAt j)))
  | some (dev, i) =>
    match s.sumRows c e.2 none with
    | (s, .error f) => (s, some f)
    | (s, .ok m) =>
      match s.elemCheck c dev (c.elemAddr i) c.esize c.word .atomic with
      | (s, .error f) => (s, some (j, f))
      | (s, .ok false) => (s, none)
      | (s, .ok true) =>
        match s.elemRead c dev (c.elemAddr i) c.esize c.word with
        | (s, .error f) => (s, some (j, f))
        | (s, .ok old) =>
          match s.elemWrite c dev (c.elemAddr i) c.word (rowAdd c.atype c.word old m) with
          | (s, .error f) => (s, some (j, f))
          | (s, .ok ()) => (s, none)

/-- An entry of the expert table: CAP, DEV, BASE. -/
def expertAt (t : List Byte) (e : Nat) : Nat × Nat × Nat := (blockN t (16 * e) 4, blockN t (16 * e + 4) 1, blockN t (16 * e + 8) 8)

/-- The assignment of every token by an expert table (R370). -/
def FabCmd.assign (c : FabCmd) (t : List Byte) (index : List (FabErr ⊕ Nat)) : FabPlan :=
  ((List.range c.count).zip index).foldl
    (fun r x =>
      match x.2 with
      | .inl f => { r with routes := r.routes ++ [.inl f] }
      | .inr e =>
        if c.n 88 4 ≤ e then { r with routes := r.routes ++ [.inl (.illegalOperand, 6, c.n 16 8 + 8 * x.1)] }
        else
          let (cap, dev, base) := expertAt t e
          let k := r.taken.getD e 0
          if k < cap then
            { r with
              taken := r.taken.set e (k + 1)
              routes := r.routes ++ [.inr ⟨e, false, k, dev, (base + k * c.esize) % 2 ^ 64⟩] }
          else
            { r with
              nres := r.nres + 1
              routes := r.routes ++ [.inr ⟨e, true, r.nres, 0xFF, (c.n 64 8 + r.nres * c.esize) % 2 ^ 64⟩] })
    ⟨index, List.replicate (c.n 88 4) 0, 0, []⟩

/-- The expert table, or the table fault (R373). -/
def State.readExperts (s : State) (c : FabCmd) : State × Except FabErr (List Byte) :=
  match s.fabRead c false (c.n 56 8) (16 * c.n 88 4) with
  | (s, .error e) => (s, .error e)
  | (s, .ok t) =>
    match (List.range (16 * c.n 88 4)).find? (fun i => 5 ≤ i % 16 && i % 16 < 8 && t.getD i 0 != 0) with
    | some i => (s, .error (.illegalOperand, 6, c.n 56 8 + i))
    | none => (s, .ok t)

/-- The engine reads what it needs before its first unit, or meets the table fault (R369, R370, R373, R380). -/
def State.planCommand (s : State) (c : FabCmd) : State × Except FabErr FabPlan :=
  match c.plan with
  | some p => (s, .ok p)
  | none =>
    if c.collective then (s, .ok ⟨[], [], 0, []⟩)
    else
      let (s, index) := s.readIndex c
      if c.kind != 3 then (s, .ok ⟨index, [], 0, []⟩)
      else
        match s.readExperts c with
        | (s, .error e) => (s, .error e)
        | (s, .ok t) => (s, .ok (c.assign t index))

/-- A route record (R370). -/
def Route.record (r : Route) (j : Nat) : List Byte :=
  leBytes 2 r.expert ++ [1, if r.res then 1 else 0] ++ leBytes 4 j ++ leBytes 4 r.slot ++ leBytes 1 r.dev ++
    List.replicate 11 0 ++ leBytes 8 r.addr

/-- Token `j` of a dispatch: its row and its route record (R370). -/
def State.dispatchAt (s : State) (c : FabCmd) (j : Nat) : State × Except FabErr Unit :=
  match ((c.plan.map (·.routes)).getD []).getD j (.inl (.illegalOperand, 6, 0)) with
  | .inl e => (s, .error e)
  | .inr r =>
    match s.fabRead c (c.lspace != 0) (c.local_ + j * c.esize) c.esize with
    | (s, .error e) => (s, .error e)
    | (s, .ok bs) =>
      match s.elemWrite c r.dev r.addr 4 bs with
      | (s, .error e) => (s, .error e)
      | (s, .ok ()) => s.fabWrite c false (c.n 72 8 + 32 * j) (r.record j)

/-- Positions one after another; once one has failed, whether later ones are still done is left open (R373). -/
def serveEach (f : State → Nat → State × Except FabErr Unit) : List Nat → State → Option (Nat × FabErr) → Served
  | [], s, e => (s, e)
  | j :: js, s, e =>
    match e with
    | none =>
      (match f s j with
      | (s, .ok ()) => serveEach f js s none
      | (s, .error x) => serveEach f js s (some (j, x)))
    | some e =>
      let (k, s) := s.draw 1
      serveEach f js (if k = 0 then s else (f s j).1) (some e)

/-- The positions of unit `u`. -/
def FabCmd.positions (c : FabCmd) (u : Nat) : List Nat :=
  (List.range c.per).filterMap (fun i => if u * c.per + i < c.count then some (u * c.per + i) else none)

/-- Unit `u` of a gather, scatter, scatter-add or dispatch is served. -/
def State.serveUnit (s : State) (c : FabCmd) (u : Nat) : Served :=
  match c.kind with
  | 0 => serveEach (fun s j => s.gatherAt c j) (c.positions u) s none
  | 1 => serveEach (fun s j => s.scatterAt c j) (c.positions u) s none
  | 2 =>
    (((s.elements c).drop (u * c.per)).take c.per).foldl
      (fun (r : Served) e =>
        let x := r.1.addElement c e
        (x.1, match x.2 with
          | some (j, f) => noteFault r.2 j f
          | none => r.2))
      (s, none)
  | _ => serveEach (fun s j => s.dispatchAt c j) (c.positions u) s none

/-! ### Collectives (R375 to R377, R379) -/

def FabCmd.nelem (c : FabCmd) : Nat := c.n 8 4
def FabCmd.shards (c : FabCmd) : Nat := c.n 12 4
def FabCmd.first (c : FabCmd) : Nat := c.n 16 4
def FabCmd.nsh (c : FabCmd) : Nat := c.n 20 4
def FabCmd.parts (c : FabCmd) : Nat := c.n 24 4
def FabCmd.width (c : FabCmd) : Nat := etypeBytes (c.n 3 1)
def FabCmd.holds (c : FabCmd) (shard : Nat) : Bool := decide (c.first ≤ shard) && decide (shard < c.first + c.nsh)

/-- The chunks of one shard's worth of result. -/
def FabCmd.chunks (c : FabCmd) : Nat := (c.nelem * c.width + 4095) / 4096

/-- Units or steps of a command (R379). -/
def State.unitCount (s : State) (c : FabCmd) : Nat :=
  if c.collective then (if c.n 2 1 = 0 then c.shards * c.chunks else c.chunks)
  else if c.kind = 2 then ((s.elements c).length + c.per - 1) / c.per
  else (c.count + c.per - 1) / c.per

/-- r (op) c of two elements (R377). -/
def foldElem (etype rop x y : Nat) : Nat :=
  let int := fun (bits : Nat) (signed : Bool) =>
    let v := fun (z : Nat) => bitsVal signed bits (BitVec.ofNat 64 z)
    match rop with
    | 0 => (x + y) % 2 ^ bits
    | 1 => if v y < v x then y else x
    | _ => if v x < v y then y else x
  let float := fun (f : Fmt) =>
    let a := fval f (BitVec.ofNat 64 x)
    let b := fval f (BitVec.ofNat 64 y)
    if rop = 0 then (addRes f .rn a b).bits.toNat
    else if a.isNan || b.isNan then fmtCanon f
    else
      let less := decide (orderKey f (BitVec.ofNat 64 y) < orderKey f (BitVec.ofNat 64 x))
      if rop = 1 then (if less then y else x) else (if less then x else y)
  match etype with
  | 0 => int 32 true
  | 1 => int 32 false
  | 2 => int 64 true
  | 3 => int 64 false
  | 4 => float .f32
  | 5 => float .f64
  | _ => float .bf16

/-- `n` bytes from offset `o` of a shard, wherever its holder is. -/
def State.shardBytes (s : State) (party : List FabCmd) (shard o n : Nat) : State × Except FabErr (List Byte) :=
  match party.find? (fun p => p.holds shard) with
  | some p => s.fabRead p false (p.n 32 8 + (shard - p.first) * (p.nelem * p.width) + o) n
  | none =>
    let (s, bs) := s.freeBytes n
    (s, .ok bs)

/-- The fold of `n` bytes at offset `o` over the shards from `k` on (R377). -/
def State.foldShards (s : State) (c : FabCmd) (party : List FabCmd) (o n : Nat) :
    Nat → Nat → Option (List Byte) → State × Except FabErr (List Byte)
  | 0, _, r => (s, .ok (r.getD []))
  | fuel + 1, k, r =>
    match s.shardBytes party k o n with
    | (s, .error e) => (s, .error e)
    | (s, .ok bs) =>
      let w := c.width
      s.foldShards c party o n fuel (k + 1) (some (match r with
        | none => bs
        | some x => (List.range (n / w)).flatMap (fun i =>
            leBytes w (foldElem (c.n 3 1) (c.n 4 1) (blockN x (w * i) w) (blockN bs (w * i) w)))))

/-- Step `u` of a participant (R377, R379). -/
def State.serveStep (s : State) (c : FabCmd) (u : Nat) : Served :=
  let party := s.fabric.filter (fun x => x.collective && x.party.isSome && x.party == c.party)
  let size := c.nelem * c.width
  let err := fun (r : State × Except FabErr Unit) =>
    (match r with
    | (s, .ok ()) => (s, none)
    | (s, .error e) => (s, some (0xFFFFFFFF, e)) : Served)
  let o := u % c.chunks * 4096
  let n := min 4096 (size - o)
  if c.n 2 1 = 0 then
    (let shard := u / c.chunks
    match s.shardBytes party shard o n with
    | (s, .error e) => (s, some (0xFFFFFFFF, e))
    | (s, .ok bs) => err (s.fabWrite c false (c.n 40 8 + shard * size + o) bs))
  else if c.n 2 1 = 1 && !c.holds (c.n 28 4) then (s, none)
  else
    match s.foldShards c party o n c.shards 0 none with
    | (s, .error e) => (s, some (0xFFFFFFFF, e))
    | (s, .ok bs) => err (s.fabWrite c false (c.n 40 8 + o) bs)

/-! ### The engine's steps -/

def State.inHand (s : State) (die : Nat) : List FabCmd := s.fabric.filter (fun c => c.die == die)

def State.modFabric (s : State) (id : Nat) (f : FabCmd → FabCmd) : State :=
  { s with fabric := s.fabric.map (fun c => if c.id == id then f c else c) }

/-- The first failure of a command: the lowest position (R373). -/
def mergeFault (a b : Option FabFault) : Option FabFault :=
  match a, b with
  | some x, some y => if y.pos < x.pos then some y else some x
  | none, y => y
  | x, none => x

def fabFault (f : Option (Nat × FabErr)) : Option FabFault := f.map (fun x => ⟨x.1, x.2.1.code, x.2.2.1, x.2.2.2⟩)

/-- No pre-emption keeps the engine from starting units (R380). -/
def State.mayStart (s : State) (ctx : Nat) : Bool :=
  match s.ctx? ctx with
  | some c => c.preempting.isNone && c.halt.isNone
  | none => false

/-- Units are started in ascending order while fewer than 16 are in flight (R379). -/
def FabCmd.startUnits (c : FabCmd) (total : Nat) : FabCmd :=
  let n := min (16 - c.flying.length) (total - c.started)
  { c with started := c.started + n, flying := c.flying ++ (List.range n).map (fun i => c.started + i) }

/-- The units that a command has started and not served. -/
def FabCmd.newUnits (c d : FabCmd) : List Nat := d.flying.drop c.flying.length

/-- The dies other than its own that serve elements or rows of unit `u` (R366). -/
def State.unitDies (s : State) (c : FabCmd) (u : Nat) : List Nat :=
  let owner := fun (va : Nat) => ((s.ctx? c.ctx).bind (fun x =>
    match s.walk x va with
    | .ok e => some (ownerDie e.cls (e.pa + (va % 2 ^ 56 - e.va)))
    | .error _ => none)).getD c.die
  let entry := fun (e : Option (Nat × Nat)) =>
    match e with
    | some (0xFF, i) => owner (c.elemAddr i)
    | _ => c.die
  let ds :=
    if c.collective then ((s.fabric.filter (fun x => x.collective && x.party.isSome && x.party == c.party)).map (·.die))
    else if c.kind = 2 then (((s.elements c).drop (u * c.per)).take c.per).map (fun e => entry e.1)
    else if c.kind = 3 then (c.positions u).map (fun j =>
      match ((c.plan.map (·.routes)).getD []).getD j (.inl (.illegalOperand, 6, 0)) with
      | .inr r => if s.isHere c.ctx r.dev then owner r.addr else c.die
      | .inl _ => c.die)
    else (c.positions u).map (fun j => entry (s.named c (c.indexAt j)))
  (ds.filter (· != c.die)).eraseDups

/-- The messages of units that start: each is on its way until its unit is served (R25). -/
def State.sendUnits (s : State) (c : FabCmd) (us : List Nat) : State × FabCmd :=
  us.foldl (fun (r : State × FabCmd) u =>
    let ds := r.1.unitDies r.2 u
    (ds.foldl (fun s d => s.message c.ctx c.die d) r.1, { r.2 with away := countSet r.2.away u ds.length })) (s, c)

/-- Fabric messages of a context on their way (R25). -/
def State.unitsSent (s : State) (ctx : Nat) : Nat := ((s.fabric.filter (fun c => c.ctx == ctx)).map (fun c => countSum c.away)).sum

/-- Accesses checked before a command's registration are still to be performed in one of its sources (R96, R126). -/
def State.sourceBusy (s : State) (c : FabCmd) : Bool :=
  match s.ctx? c.ctx with
  | none => false
  | some x => c.latches.any (fun l => !l.dst &&
      (match l.spad with
      | some g => s.spadBusy g l.lo l.len
      | none => s.rangeBusy x l.lo l.len))

/-- The granules of a destination delivered with full/empty bits (R371, R373). -/
def FabCmd.granulesOf (c : FabCmd) : List Nat :=
  if c.lspace = 2 && c.count * c.esize != 0 then
    (List.range ((c.local_ + c.count * c.esize + 15) / 16 - c.local_ / 16)).map (fun i => c.local_ / 16 + i)
  else []

/-- Every byte that the command writes into a granule has been written: the units of its positions have been served. -/
def FabCmd.filled (c : FabCmd) (g : Nat) : Bool :=
  let lo := (16 * g - c.local_) / c.esize
  let hi := min (c.count - 1) ((16 * g + 15 - c.local_) / c.esize)
  (List.range (hi + 1 - lo)).all (fun i =>
    let u := (lo + i) / c.per
    decide (u < c.prog) || c.served.contains u)

/-- A command starts what units it may: the command as it then is, and its messages. -/
def State.startCommand (s : State) (c : FabCmd) : State × FabCmd :=
  if c.fault.isNone && s.mayStart c.ctx then
    let d := c.startUnits (s.unitCount c)
    s.sendUnits d (c.newUnits d)
  else (s, c)

/-- A unit in flight is served; granules that it makes whole become full (R93, R369, R370, R377). -/
def State.serveFlying (s : State) (c : FabCmd) (u : Nat) : State :=
  let r := if c.collective then s.serveStep c u else s.serveUnit c u
  let d := { c with
    flying := c.flying.erase u, served := natPut c.served u, away := countSet c.away u 0
    fault := mergeFault c.fault (fabFault r.2) }
  (r.1.modFabric d.id (fun _ => d)).modX d.g (fun x => x.spadWrite [] (d.granulesOf.filter (fun g => d.filled g && !c.filled g)) [])

/-- FABRIC_SHARE: command `i` of a die reads what it needs, starts what units it may, and one of those in flight is served (R366, R369,
R370, R377); it begins once earlier accesses to its sources have been performed (R96, R126). -/
def execFabricShare (die i : Nat) (s : State) : Host.Outcome State Fault Refusal :=
  finish s (match (s.inHand die)[i]? with
    | none => s
    | some c =>
      if !s.engineRuns c.ctx (.fabric die) || (c.collective && c.party.isNone) || s.sourceBusy c then s
      else
        match s.planCommand c with
        | (s, .error e) => s.modFabric c.id (fun c => { c with fault := fabFault (some (0xFFFFFFFF, e)) })
        | (s, .ok p) =>
          let r := s.startCommand { c with plan := some p }
          let (k, s) := r.1.draw (r.2.flying.length - 1)
          match r.2.flying[k]? with
          | none => s.modFabric c.id (fun _ => r.2)
          | some u => s.serveFlying r.2 u)

/-- FABRIC_UNIT_COMPLETE: PROG counts the completed units, which form a prefix (R379). -/
def execFabricUnitComplete (die i : Nat) (s : State) : Host.Outcome State Fault Refusal :=
  finish s (match (s.inHand die)[i]? with
    | none => s
    | some c =>
      if s.engineRuns c.ctx (.fabric die) && c.fault.isNone && c.served.contains c.prog then
        s.modFabric c.id (fun c => { c with prog := c.prog + 1, served := c.served.erase c.prog })
      else s)

/-- The participants' shard ranges cover every shard exactly once (R376). -/
def covers (ps : List FabCmd) (shards : Nat) : Bool :=
  (List.range shards).all (fun k => (ps.filter (fun p => p.holds k)).length == 1)

/-- The fields that participants must agree in: OP, ETYPE, ROP, N, S, PARTS and ROOT. -/
def FabCmd.terms (c : FabCmd) : List Nat := [c.n 2 1, c.n 3 1, c.n 4 1, c.n 8 4, c.n 12 4, c.n 24 4, c.n 28 4]

/-- A participant that ends in error (R376). -/
def partyFault : FabFault := ⟨0xFFFFFFFF, 0x02, 6, 0⟩

/-- The participants have their steps from now on, or end in error (R376). -/
def State.settleParty (s : State) (here : List FabCmd) (leader : Nat) (ok : Bool) : State :=
  here.foldl (fun s x => s.modFabric x.id (fun y =>
    if ok then { y with party := some leader } else { y with fault := some partyFault })) s

/-- The host of another device may reset the context of a participant there: the participants here end with status error (R376). -/
def State.loseParty (s : State) (c : FabCmd) : State :=
  let mine := fun (x : FabCmd) => x.party.isSome && x.party == c.party
  if (s.fabric.filter mine).length == c.parts then s
  else
    let (k, s) := s.draw 1
    if k = 0 then s
    else { s with fabric := s.fabric.map (fun x => if mine x && x.fault.isNone then { x with fault := some ⟨0xFFFFFFFF, 0x20, 6, 0⟩ } else x) }

/-- COLLECTIVE_CHECK: command `i` of a die and the others of its tag, when PARTS have arrived (R376). Participants on other
devices are outside the model: whether they have arrived, and whether they agree, is left open. -/
def execCollectiveCheck (die i : Nat) (s : State) : Host.Outcome State Fault Refusal :=
  finish s (match (s.inHand die)[i]? with
    | none => s
    | some c =>
      if !c.collective || c.fault.isSome || !s.engineRuns c.ctx (.fabric die) then s
      else if c.party.isSome then s.loseParty c
      else
        let all := s.fabric.filter (fun x => x.collective && x.ctx == c.ctx && x.n 6 2 == c.n 6 2 && x.fault.isNone && !x.closed)
        let here := all.take c.parts
        let leader := (here.head?.map (·.id)).getD c.id
        if all.any (fun x => x.party.isSome) || !here.any (fun x => x.id == c.id) then
          s.modFabric c.id (fun x => { x with fault := some partyFault })
        else if here.any (fun x => decide (x.die < die)) then s
        else
          let agree := here.all (fun x => x.terms == c.terms)
          let done := fun (s : State) (ok : Bool) => s.settleParty here leader ok
          if here.length == c.parts then done s (agree && covers here c.shards)
          else if !s.cellar.members.any (fun m => s.reaches m && ((s.ctx? c.ctx).map (fun x => x.group == m.group && x.device != m.dev)).getD false) then s
          else
            let (k, s) := s.draw 2
            match k with
            | 0 => s
            | 1 => done s (agree && (List.range c.shards).all (fun q => (here.filter (fun p => p.holds q)).length ≤ 1))
            | _ => done s false)

/-! ### Completion (R371 to R374, R378) -/

/-- NRES of a dispatch and its COUNTS words (R370, R372). -/
def FabCmd.dispatchCounts (c : FabCmd) : Option (List Nat × Nat) :=
  if c.collective || c.kind != 3 then none
  else if c.count = 0 then some (List.replicate (c.n 88 4) 0, 0)
  else c.plan.map (fun p => (p.taken, p.nres))

/-- The completion record (R372). -/
def FabCmd.record (c : FabCmd) (f : Option FabFault) (nres : Nat) : List Byte :=
  let f' := f.getD ⟨0xFFFFFFFF, 0, 0, 0⟩
  leBytes 1 (if f.isSome then 2 else 1) ++ leBytes 1 f'.cause ++ leBytes 1 f'.kind ++ [0] ++ leBytes 4 f'.pos ++
    leBytes 8 f'.addr ++ leBytes 4 nres ++ leBytes 4 0 ++ leBytes 8 c.prog

/-- COUNTS is written; a failure of it concerns no position. -/
def State.writeCounts (s : State) (c : FabCmd) : State × Option FabFault :=
  match c.dispatchCounts with
  | none => (s, none)
  | some (taken, nres) =>
    match s.fabWrite c false (c.n 80 8) ((taken ++ [nres]).flatMap (leBytes 4)) with
    | (s, .ok ()) => (s, none)
    | (s, .error (cause, k, a)) => (s, some ⟨0xFFFFFFFF, cause.code, k, a⟩)

/-- The command counts into its RCB as an unnamed child leaf, whose failure is one at the RCB's level (R16, R371). -/
def State.countCommand (s : State) (c : FabCmd) (f : Option FabFault) : State :=
  if c.comp % 2 = 0 then s
  else
    match s.rcb? c.ctx c.rcb with
    | none => s
    | some r =>
      match f with
      | none => (s.countRetired r .ok true 0 0 0).settleTree c.ctx [.settle c.rcb]
      | some f => (s.countRetired r .failed true 0x20 f.addr (serialWord 0 f.pos)).settleTree c.ctx [.failure c.rcb, .settle c.rcb]

/-- Once a participant has completed, its collective takes no further command of its tag (R376). -/
def State.closeParty (s : State) (c : FabCmd) : State :=
  { s with fabric := s.fabric.map (fun (x : FabCmd) => if x.party.isSome && x.party == c.party then { x with closed := true } else x) }

/-- A command completes: record, counters, granules, delivery (R371 to R374, R376, R378). -/
def State.completeCommand (s : State) (c : FabCmd) : State :=
  let (s, bad) := if c.fault.isNone then s.writeCounts c else (s, none)
  let f := mergeFault c.fault bad
  let nres := if c.fault.any (fun x => x.pos == 0xFFFFFFFF) then 0 else (c.dispatchCounts.map (·.2)).getD 0
  let (s, f) := if c.comp / 2 = 0 then (s, f)
    else
      match s.fabWrite c false c.crec (c.record f nres) with
      | (s, .ok ()) => (s, f)
      | (s, .error _) => (s, some ⟨(f.map (·.pos)).getD 0xFFFFFFFF, 0x20, 6, c.crec⟩)
  let s := s.countCommand c f
  let s := s.modX c.g (fun x => x.spadWrite [] (c.granulesOf.filter (fun g => !c.filled g)) [])
  let s := (({ (s.closeParty c) with fabric := (s.closeParty c).fabric.filter (fun (x : FabCmd) => x.id != c.id) }).latchDrop c.ctx (.command c.id)).reap
  match f with
  | none => s
  | some f => s.joinFault c.g ⟨true, [], ⟨.engineFault, BitVec.allOnes 32, BitVec.ofNat 64 f.addr, 6⟩⟩

/-- Every participant has had all its steps, or this one has failed (R376, R377). -/
def State.partyDone (s : State) (c : FabCmd) : Bool :=
  c.fault.isSome || (s.fabric.filter (fun x => x.party.isSome && x.party == c.party)).all (fun x =>
    x.fault.isSome || decide (s.unitCount x ≤ x.prog))

/-- FABRIC_COMMAND_COMPLETE (R371). -/
def execFabricCommandComplete (die i : Nat) (s : State) : Host.Outcome State Fault Refusal :=
  finish s (match (s.inHand die)[i]? with
    | none => s
    | some c =>
      let finished := if c.collective then s.partyDone c && (c.party.isSome || c.fault.isSome)
        else c.fault.isSome || (c.plan.isSome && decide (s.unitCount c ≤ c.prog))
      if s.engineRuns c.ctx (.fabric die) && c.flying.isEmpty && finished then s.completeCommand c else s)

/-! ### FXG and FXC (R383) -/

/-- Commands in hand of a die and those that wait for their registrations (R365). -/
def State.slotsTaken (s : State) (die g : Nat) : Nat :=
  (s.inHand die).length +
  (s.latchWaits.filter (fun w => w.g != g && w.ranges.any (fun l =>
    match l.holder with
    | .command _ => true
    | _ => false) && ((s.group? w.g).map (fun gr => dieOf gr.core == die)).getD false)).length

/-- The command of a descriptor. -/
def HallView.fabCmd (h : HallView) (id va : Nat) (collective : Bool) (desc : List Byte) : FabCmd where
  id := id
  die := dieOf h.gr.core
  ctx := h.gr.ctx
  g := h.gr.id
  pc := h.pc
  collective := collective
  va := va
  desc := desc
  started := 0
  flying := []
  served := []
  prog := 0
  party := none
  closed := false
  fault := none
  plan := none
  away := []

/-- The number under which the Hall's registration waits. -/
def askedId (w : Option LatchWait) : Option Nat :=
  w.bind (fun w => w.ranges.findSome? (fun l =>
    match l.holder with
    | .command id => some id
    | _ => none))

/-- The command is issued once its ranges are registered; its descriptor, read once, is kept until then (R367). -/
def HallView.post (h : HallView) (s : State) (a : Operand) (va : Nat) (collective : Bool) (desc : List Byte) : HallRes :=
  let die := dieOf h.gr.core
  let s := s.modX h.gr.id (fun x => { x with fabDesc := some desc })
  match askedId (s.latchWait h.gr.id) with
  | none =>
    if 64 ≤ s.slotsTaken die h.gr.id then .stall s
    else
      let c := h.fabCmd s.nextId va collective desc
      .stall (({ s with nextId := s.nextId + 1 }).latchAsk h.gr c.latches).1
  | some id =>
    match s.latchAsk h.gr [] with
    | (s, false) => .stall s
    | (s, true) =>
      let c := h.fabCmd id va collective desc
      let s := if c.comp % 2 = 1 then s.countChild h.gr.ctx 9 c.rcb else s
      let s := { s with fabric := s.fabric ++ [c] }
      let s := if !collective && c.count = 0 then s.completeCommand c else s
      let s := s.modX h.gr.id (fun x => { x with fabDesc := none })
      .done { st := s, s := sWrite a 0 }

/-- What FXG and FXC have in common. -/
def hallFabric (collective : Bool) (a b : Operand) (h : HallView) : HallRes :=
  let va := (h.r64 false b).toNat
  let answer := fun (st : State) (n : Nat) => HallRes.done { st := st, s := sWrite a (BitVec.ofNat 64 n) }
  if !h.engineDrained then .stall h.s
  else if va % 64 ≠ 0 then .trap ⟨.misaligned, 0, BitVec.ofNat 64 va, 0⟩
  else
    match h.gr.x.fabDesc, h.s.readBlock h.gr.ctx va 128 with
    | some d, _ => h.post h.s a va collective d
    | none, (_, .error t) => .trap t
    | none, (s, .ok d) =>
      let c := h.fabCmd 0 va collective d
      let cached := (s.ctx? h.gr.ctx).any (fun x => s.allCached x va 128)
      match (if !cached then some 0 else if collective then fxcFails d else fxgFails d) with
      | some o => answer s (1 + o * 256)
      | none =>
        let refused := c.comp % 2 == 1 && (match s.rcb? h.gr.ctx c.rcb with
          | some r => decide (1 < s.rget r .kind)
          | none => true)
        if refused then answer s 2
        else if h.gr.x.d2.isSome && (collective || c.lspace == 0 || c.kind != 0) then .trap (.plain .detIllegalOp 0)
        else if !collective && c.lspace != 0 && decide (h.gr.image.spad < c.local_ + c.count * c.esize) then answer s 3
        else h.post s a va collective d

/-- FXG (R383). -/
def execFxg (k : Ctl) (a b : Operand) (s : State) : Host.Outcome State Fault Refusal :=
  runHall (.fxg k a b) (hallFabric false a b) s

/-- FXC (R383). -/
def execFxc (k : Ctl) (a b : Operand) (s : State) : Host.Outcome State Fault Refusal :=
  runHall (.fxc k a b) (hallFabric true a b) s

end Sys2Proof.Machine
end

