-- ==== Sys2Proof/Machine/Cellar.lean ====
section
/-! DEFINITION. The Cellar's own side (R424 to R437): boot and recovery, attestation, BAR0 and the host rings, requests and their
responses, version negotiation, links and fabric groups, power, and the events it posts. What it does with contexts is in
Contexts.lean, what it asks of the stack controllers in Stacks.lean. -/

namespace Sys2Proof.Machine

open Sys2Proof

/-! ### Host rings (R429, R391) -/

/-- The physical address of a host address (R409); none beyond the space. -/
def hostPa (a : Nat) : Option Nat := if a < 2 ^ 48 then some (2 * 2 ^ 48 + a) else none

/-- Bytes of a ring with records of `size` bytes. -/
def ringBytes (size cap : Nat) : Nat := 64 + size * cap

/-- PROD, CONS and CAP of a ring's header. -/
def State.ringProd (s : State) (pa : Nat) : Nat := s.peekN pa 8
def State.ringCons (s : State) (pa : Nat) : Nat := s.peekN (pa + 8) 8
def State.ringCap (s : State) (pa : Nat) : Nat := s.peekN (pa + 16) 8

/-- The Cellar writes a record to a ring that has room, and then PROD; with EVTVEC enabled it raises the vector (R430). -/
def State.ringPut (s : State) (base : DWord) (record : List Byte) : Option State :=
  if !s.cellar.en then none
  else
    match hostPa base.toNat with
    | none => none
    | some pa =>
      let n := s.ringProd pa
      let cap := s.ringCap pa
      if n - s.ringCons pa < cap then
        let s := (s.pokeBytes (pa + 64 + record.length * (n % cap)) record).pokeN pa 8 (n + 1)
        some { s with cellar := { s.cellar with
          vectors :=
            let v := s.cellar.evtVec.toNat % 2 ^ 11
            if s.cellar.evtVec.toNat.testBit 15 then countSet s.cellar.vectors v (countAt s.cellar.vectors v + 1) else s.cellar.vectors } }
      else none

/-- The responses that the Cellar holds go out as far as their ring has room. -/
def State.flushList : List (List Byte) → State → State
  | [], s => { s with cellar := { s.cellar with responses := [] } }
  | r :: rest, s =>
    match s.ringPut s.cellar.rspBase r with
    | some s => s.flushList rest
    | none => { s with cellar := { s.cellar with responses := r :: rest } }

def State.flush (s : State) : State := s.flushList s.cellar.responses

/-! ### Requests and responses (R431) -/

/-- A response record. -/
def responseRecord (tag status result : Nat) : List Byte :=
  leBytes 4 tag ++ leBytes 1 status ++ [0, 0, 0] ++ leBytes 8 result ++ List.replicate 16 0

def State.answer (s : State) (tag status result : Nat) : State :=
  { s with cellar := { s.cellar with responses := s.cellar.responses ++ [responseRecord tag status result] } }.flush

/-- Fields of a request record. -/
def reqOp (r : List Byte) : Nat := blockN r 0 2
def reqTag (r : List Byte) : Nat := blockN r 4 4
def reqCtx (r : List Byte) : Nat := blockN r 8 2

/-- Requests of no known operation at the head of those taken are malformed; before HELLO they are refused as every other
(R431, R434). -/
def State.skipUnknown : List (List Byte) → State → State
  | [], s => { s with cellar := { s.cellar with taken := [] } }
  | r :: rest, s =>
    if 1 ≤ reqOp r && reqOp r ≤ 10 then { s with cellar := { s.cellar with taken := r :: rest } }
    else (s.answer (reqTag r) (if s.cellar.hello then 5 else 1) 0).skipUnknown rest

/-- The Cellar reads PROD of the request ring and takes what is there, in ring order (R429, R430). -/
def State.takeRequests (s : State) : State :=
  if !s.cellar.en then s
  else
    match hostPa s.cellar.reqBase.toNat with
    | none => s
    | some pa =>
      let cons := s.ringCons pa
      let cap := s.ringCap pa
      let n := min (s.ringProd pa - cons) cap
      let recs := (List.range n).map (fun i => s.peekBytes (pa + 64 + 64 * ((cons + i) % cap)) 64)
      let s := s.pokeN (pa + 8) 8 (cons + n)
      (s.flush).skipUnknown (s.cellar.taken ++ recs)

/-- The oldest request taken, where it names the operation: refused before HELLO and where a reserved byte is not 0, from
byte `used` on; else carried out, unless it has to wait (R431, R434). -/
def State.serve (s : State) (op used : Nat) (f : List Byte → State → Option State) : State :=
  match s.cellar.taken with
  | [] => s
  | r :: rest =>
    if reqOp r ≠ op then s
    else
      let s' := { s with cellar := { s.cellar with taken := rest } }
      let out :=
        if !s.cellar.hello && op != 1 then some (s'.answer (reqTag r) 1 0)
        else if !(blockZero r 2 4 && blockZero r 10 16 && blockZero r used 64) then some (s'.answer (reqTag r) 5 0)
        else f r s'
      match out with
      | some s => s.skipUnknown s.cellar.taken
      | none => s

/-- A stack-controller command: the oldest request, where it is a STORCMD, asked for it and is answered with the status;
otherwise the Cellar gives it of its own accord (R422, R431). `f` answers none where the command has to wait. -/
def State.storCmd (s : State) (f : State → Option (State × Nat)) : State :=
  match s.cellar.taken with
  | r :: _ =>
    if reqOp r = 8 then
      s.serve 8 64 (fun r s => (f s).map (fun x => x.1.answer (reqTag r) x.2 0))
    else ((f s).map (·.1)).getD s
  | [] => ((f s).map (·.1)).getD s

/-! ### Boot (R425) -/

/-- An image is accepted: both signatures verify and its security version is not below the fused one. -/
def imageAccepted (b : List Byte) : Bool := Config.signaturesValid b && decide (Config.fusedVersion ≤ Config.imageVersion b)

/-- Recovery mode, with the stage that was refused (R427, R430). -/
def Cellar.recover (c : Cellar) (stage : Nat) : Cellar :=
  { c with status := 2, stage := stage, staged := [], nextSeq := 0, rack := 0, rerr := 0, recWin := [] }

/-- BOOT: each stage verifies the next; a refusal, or a store without an image, ends in recovery mode, else the queues may
be opened. -/
def execBoot (s : State) : Host.Outcome State Fault Refusal :=
  finish s (
    if s.cellar.status ≠ 1 then s
    else
      match s.cellar.store with
      | none => { s with cellar := s.cellar.recover 1 }
      | some b =>
        if imageAccepted b then { s with cellar := { s.cellar with status := 0, stage := 3, recWin := [], keeps := Config.cellarRegions } }
        else
          let (k, s) := s.draw 2
          { s with cellar := s.cellar.recover (1 + k) })

/-! ### Recovery (R427) -/

/-- Eight bytes of the recovery window. -/
def winPut (m : List Host.Cell) (off : Nat) (v : DWord) : List Host.Cell := cellsPut m (cellsAt off (leBytes 8 v.toNat))

/-- The staged image is discarded, and the host starts again from sequence 0. -/
def Cellar.discard (c : Cellar) (err : Nat) : Cellar := { c with staged := [], nextSeq := 0, rack := 0, rerr := err }

/-- RECOVERY_CHUNK: the window's last 8 bytes are written with `v`. -/
def execRecoveryChunk (v : DWord) (s : State) : Host.Outcome State Fault Refusal :=
  finish s (
    let c := { s.cellar with recWin := winPut s.cellar.recWin 0xFFF8 v }
    let len := v.toNat % 2 ^ 24
    let seq := v.toNat / 2 ^ 24 % 2 ^ 32
    if c.status ≠ 2 then s
    else if seq ≠ c.nextSeq then { s with cellar := c.discard 1 }
    else if len = 0 || 65528 < len then { s with cellar := c.discard 2 }
    else if 2 ^ 30 < c.staged.length + len then { s with cellar := c.discard 3 }
    else
      let staged := c.staged ++ cellBytes c.recWin 0 len
      if !v.toNat.testBit 63 then
        { s with cellar := { c with staged := staged, nextSeq := seq + 1, rack := (seq + 1) % 2 ^ 32, rerr := 0 } }
      else if imageAccepted staged then
        { s with cellar :=
            { c with store := some staged, staged := [], nextSeq := 0, rack := (seq + 1) % 2 ^ 32, rerr := 0, status := 1, stage := 0
                     recWin := [] } }
      else { s with cellar := { c with staged := [], nextSeq := 0, rack := (seq + 1) % 2 ^ 32, rerr := 4 } })

/-! ### Attestation (R428) -/

/-- ResponseNotReady, as the SPDM standard codes it. -/
def spdmNotReady : List Byte := [0x13, 0x7F, 0x42, 0]

/-- An SPDM request is answered through the mailbox: with ResponseNotReady before boot status 0. -/
def State.spdmAnswer (s : State) (kind : Nat) (req : List Byte) : State :=
  let body := Config.spdmBytes s.fresh kind req (s.cellar.store.getD [])
  { s with
    fresh := s.fresh + 1
    cellar := { s.cellar with spdm := s.cellar.spdm ++ [if s.cellar.status = 0 then body else spdmNotReady ++ body.take 4] } }

/-- GET_VERSION. -/
def execGetVersion (req : List Byte) (s : State) : Host.Outcome State Fault Refusal := finish s (s.spdmAnswer 0 req)

/-- GET_CAPABILITIES. -/
def execGetCapabilities (req : List Byte) (s : State) : Host.Outcome State Fault Refusal := finish s (s.spdmAnswer 1 req)

/-- NEGOTIATE_ALGORITHMS. -/
def execNegotiateAlgorithms (req : List Byte) (s : State) : Host.Outcome State Fault Refusal :=
  finish s (s.spdmAnswer 2 req)

/-- GET_DIGESTS. -/
def execGetDigests (req : List Byte) (s : State) : Host.Outcome State Fault Refusal := finish s (s.spdmAnswer 3 req)

/-- GET_CERTIFICATE. -/
def execGetCertificate (req : List Byte) (s : State) : Host.Outcome State Fault Refusal := finish s (s.spdmAnswer 4 req)

/-- CHALLENGE. -/
def execChallenge (req : List Byte) (s : State) : Host.Outcome State Fault Refusal := finish s (s.spdmAnswer 5 req)

/-- GET_MEASUREMENTS. -/
def execGetMeasurements (req : List Byte) (s : State) : Host.Outcome State Fault Refusal := finish s (s.spdmAnswer 6 req)

/-! ### BAR0 (R430) -/

/-- What a read of a BAR0 register returns. DESIGN CHOICE (log entry 72): DOORBELL, which can only be written, reads 0. -/
def Cellar.read (c : Cellar) (off : Nat) : DWord :=
  match off with
  | 0x0000 => 0x0000481200010000
  | 0x0008 => BitVec.ofNat 64 (c.rack % 2 ^ 32 * 2 ^ 32 + c.rerr % 256 * 2 ^ 24 + c.stage % 256 * 2 ^ 16 + c.status % 256)
  | 0x0010 => c.reqBase
  | 0x0018 => c.rspBase
  | 0x0020 => c.evtBase
  | 0x0028 => (if c.en then 1 else 0) ||| (if c.qerr then 2 else 0)
  | 0x0038 => c.evtVec
  | off => if c.status = 2 && 0x10000 ≤ off && off ≤ 0x1FFF8 then BitVec.ofNat 64 (leNat (cellBytes c.recWin (off - 0x10000) 8)) else 0

/-- A ring header that the Cellar accepts: aligned, with a capacity of a power of two up to 2^24. -/
def State.ringOk (s : State) (base : DWord) : Bool :=
  match hostPa base.toNat with
  | none => false
  | some pa => base.toNat % 64 == 0 && (List.range 25).any (fun k => s.ringCap pa == 2 ^ k)

/-- No two rings share a byte. -/
def State.ringsApart (s : State) : Bool :=
  let r := fun (b : DWord) (size : Nat) => (b.toNat, ringBytes size (((hostPa b.toNat).map s.ringCap).getD 0))
  let apart := fun (x y : Nat × Nat) => decide (x.1 + x.2 ≤ y.1) || decide (y.1 + y.2 ≤ x.1)
  let a := r s.cellar.reqBase 64
  let b := r s.cellar.rspBase 32
  let c := r s.cellar.evtBase 128
  apart a b && apart a c && apart b c

/-- QENABLE is written: setting EN makes the Cellar check and take the rings. -/
def execQenableWrite (v : DWord) (s : State) : Host.Outcome State Fault Refusal :=
  finish s (
    let c := s.cellar
    if c.status ≠ 0 then s
    else if !v.getLsbD 0 then { s with cellar := { c with en := false } }
    else if c.en then s
    else if s.ringOk c.reqBase && s.ringOk c.rspBase && s.ringOk c.evtBase && s.ringsApart then
      { s with cellar := { c with en := true, qerr := false } }
    else { s with cellar := { c with en := false, qerr := true } })

/-- DOORBELL: any value (R430). -/
def execDoorbell (_ : DWord) (s : State) : Host.Outcome State Fault Refusal := finish s s.takeRequests

/-- REQUEST_POLL: PROD is read without a doorbell (R430). -/
def execRequestPoll (s : State) : Host.Outcome State Fault Refusal := finish s (s.flush).takeRequests

/-- REGISTER_WRITE: a register without behaviour of its own, at its offset (R430). -/
def execRegisterWrite (off : Nat) (v : DWord) (s : State) : Host.Outcome State Fault Refusal :=
  finish s (
    let c := s.cellar
    if off = 0x0010 then (if c.en then s else { s with cellar := { c with reqBase := v } })
    else if off = 0x0018 then (if c.en then s else { s with cellar := { c with rspBase := v } })
    else if off = 0x0020 then (if c.en then s else { s with cellar := { c with evtBase := v } })
    else if off = 0x0038 then { s with cellar := { c with evtVec := v &&& 0x87FF } }
    else if c.status = 2 && 0x10000 ≤ off && off < 0x1FFF8 && off % 8 = 0 then
      { s with cellar := { c with recWin := winPut c.recWin (off - 0x10000) v } }
    else s)

/-! ### HELLO (R434) -/

/-- An entry of the version block that leaves a common major: Id `i`, the lowest and highest major, byte 3. -/
def versionOk (b : List Byte) (i : Nat) : Bool :=
  let o := 8 * (i - 1)
  blockN b o 1 == i && decide (blockN b (o + 1) 1 ≤ 1) && decide (1 ≤ blockN b (o + 2) 1) && blockN b (o + 3) 1 == 0

/-- The entry as the Cellar rewrites it. -/
def versionReply (b : List Byte) (i : Nat) : List Byte :=
  let o := 8 * (i - 1)
  [BitVec.ofNat 8 i, 1, 0, 0] ++ leBytes 4 (BitVec.ofNat 32 (blockN b (o + 4) 4) &&& Config.features i).toNat

/-- HELLO negotiates the interface versions. -/
def execHello (s : State) : Host.Outcome State Fault Refusal :=
  finish s (s.serve 1 24 (fun r s =>
    let a := blockN r 16 8
    match hostPa a with
    | none => some (s.answer (reqTag r) 5 0)
    | some pa =>
      let b := s.peekBytes pa 64
      let ids := (List.range 8).map (· + 1)
      if a % 8 ≠ 0 || 2 ^ 48 < a + 64 || !ids.all (versionOk b) then some (s.answer (reqTag r) 5 0)
      else
        let s := s.pokeBytes pa (ids.flatMap (versionReply b))
        some ({ s with cellar := { s.cellar with hello := true } }.answer (reqTag r) 0 8)))

/-! ### UPDATE and POWERCAP (R426, R437) -/

/-- UPDATE: the image is verified, and then written over the old one; the write is over when the step comes again. -/
def execUpdate (s : State) : Host.Outcome State Fault Refusal :=
  finish s (s.serve 9 32 (fun r s =>
    let a := blockN r 16 8
    let n := blockN r 24 8
    match s.cellar.updating, hostPa a with
    | some b, _ => some ({ s with cellar := { s.cellar with store := some b, updating := none } }.answer (reqTag r) 0 0)
    | none, none => some (s.answer (reqTag r) 5 0)
    | none, some pa =>
      if !s.ctxs.isEmpty then some (s.answer (reqTag r) 4 0)
      else if 2 ^ 48 < a + n then some (s.answer (reqTag r) 5 0)
      else
        let b := s.peekBytes pa n
        if imageAccepted b then
          some { s with cellar := { s.cellar with updating := some b, taken := r :: s.cellar.taken } }
        else some (s.answer (reqTag r) 4 0)))

/-- POWERCAP sets the module's ceiling. -/
def execPowercap (s : State) : Host.Outcome State Fault Refusal :=
  finish s (s.serve 10 20 (fun r s =>
    let w := blockN r 16 4
    if w < 3000 || 8500 < w then some (s.answer (reqTag r) 5 0)
    else some ({ s with cellar := { s.cellar with powerCap := w } }.answer (reqTag r) 0 0)))

/-! ### Events (R433) -/

/-- EVENT_POST: the oldest event goes to the event ring when it has room. -/
def execEventPost (s : State) : Host.Outcome State Fault Refusal :=
  finish s (
    let s := s.flush
    match s.cellar.events with
    | [] => s
    | e :: rest =>
      match s.ringPut s.cellar.evtBase e with
      | some s => { s with cellar := { s.cellar with events := rest } }
      | none => s)

/-! ### Links and fabric groups (R436) -/

/-- The end of a collective's participant when another one is lost (R376, R436). -/
def lostFault : FabFault := ⟨0xFFFFFFFF, 0x20, 6, 0⟩

/-- A remote member has gone or cannot be reached: each collective of its group that others than this device take part in may
have had it as a participant, and then ends in error here. -/
def State.loseMember (s : State) (group : Nat) : State :=
  s.fabric.foldl (fun s (c : FabCmd) =>
    let mine := s.fabric.filter (fun x => x.collective && x.ctx == c.ctx && x.n 6 2 == c.n 6 2)
    if c.collective && c.fault.isNone && ((s.ctx? c.ctx).map (·.group)) == some group && decide (mine.length < c.parts) then
      let (k, s) := s.draw 1
      if k = 0 then s else s.modFabric c.id (fun x => { x with fault := some lostFault })
    else s) s

/-- LINK_TRAINING: a port's link trains, with the identity at its other end, or fails. An end that does not share the link
protocol's version 1.0 does not train (R434). -/
def execLinkTraining (port : Nat) (up : Bool) (major minor : Nat) (identity : DWord) (s : State) :
    Host.Outcome State Fault Refusal :=
  finish s (
    let others := s.cellar.links.filter (fun l => l.port != port)
    let trained := up && major == 1 && minor == 0 && decide (port < 16)
    let s' := { s with cellar := { s.cellar with links := if trained then others ++ [⟨port, identity⟩] else others } }
    let lost := s.cellar.members.filter (fun m => s.reaches m && !s'.reaches m)
    lost.foldl (fun s m => s.loseMember m.group) s')

/-- FABRIC_GROUP_ANNOUNCE: another module's member enters the table, unless its number is taken here. -/
def execFabricGroupAnnounce (group dev : Nat) (identity : DWord) (ctx : Nat) (s : State) :
    Host.Outcome State Fault Refusal :=
  finish s (
    if s.cellar.members.any (fun m => m.group == group && m.dev == dev) || s.ctxs.any (fun c => c.group == group && c.device == dev) ||
        254 < group then s
    else { s with cellar := { s.cellar with members := s.cellar.members ++ [⟨group, dev, identity, ctx⟩] } })

/-- MEMBER_LEAVE: another module's member is gone. -/
def execMemberLeave (group dev : Nat) (s : State) : Host.Outcome State Fault Refusal :=
  finish s (
    if s.cellar.members.any (fun m => m.group == group && m.dev == dev) then
      { s with cellar := { s.cellar with
        members := s.cellar.members.filter (fun (m : Member) => !(m.group == group && m.dev == dev)) } }.loseMember group
    else s)

/-! ### Power, cooling and ports (R435, R437) -/

/-- Event 8: a die and what was done. -/
def State.powerEvent (s : State) (die : Nat) : State :=
  let (x, s) := s.drawBits
  s.postEvent 8 0xFFFF (leBytes 8 die ++ leBytes 8 x.toNat) []

/-- THERMAL_THROTTLE: a die lowers its arithmetic clock by 100 MHz, from 1,600 MHz down to 800 MHz at the least; nothing that a
program computes changes. -/
def execThermalThrottle (die : Nat) (s : State) : Host.Outcome State Fault Refusal :=
  finish s (
    if Config.dies ≤ die || 8 ≤ countAt s.cellar.clock die then s
    else
      { s with cellar := { s.cellar with
        clock := countSet s.cellar.clock die (countAt s.cellar.clock die + 1) } }.powerEvent die)

/-- EXPANDER_REMOVED: a capacity-tier port's frames are unpopulated (R435); event 6 is posted. -/
def execExpanderRemoved (port : Nat) (s : State) : Host.Outcome State Fault Refusal :=
  finish s (
    if 8 ≤ port || s.cellar.absent.contains port then s
    else
      let (layer, s) := s.drawBits
      let (bytes, s) := s.drawBits
      { s with cellar := { s.cellar with absent := natPut s.cellar.absent port } }.postEvent 6 0xFFFF
        (leBytes 8 layer.toNat ++ leBytes 8 bytes.toNat ++ leBytes 8 0) [])

end Sys2Proof.Machine
end

