-- ==== Sys2Proof/Machine/Hinge.lean ====
section
/-! DEFINITION. The Hinge (R388 to R408): pipeline records and their checks, prefixes, rings and their consumers, the
instructions HBIND, HRECV and HSEND, and the steps of sources and sinks. -/

namespace Sys2Proof.Machine

open Sys2Proof

/-! ### Records (R388 to R390) -/

/-- The checks of the header of a pipeline record, by the offsets of its fields. -/
def recordFails (b : List Byte) : Option Nat :=
  let q := blockN b 3 1 == 1
  (firstFailing
    [(blockN b 0 2 != 0x0100, 0), (blockN b 2 1 == 0 || decide (8 < blockN b 2 1), 2), (decide (1 < blockN b 3 1), 3),
     (decide (blockN b 4 2 < 32) || decide (4096 < blockN b 4 2), 4), (decide (2 < blockN b 6 1), 6), (blockN b 7 1 != 0, 7),
     (blockN b 8 8 % (if q then 64 else 16) != 0, 8),
     ((if q then blockN b 16 8 != 0 else decide (2 ^ 32 < blockN b 16 8)), 16),
     ((if q then blockN b 24 8 != 0 else blockN b 24 8 % 16 != 0), 24), (blockN b 32 8 % 256 != 0, 32),
     (blockN b 40 8 % 64 != 0, 40)]).orElse (fun _ => firstNonZero b 52 64)

/-- The checks of stage entry `k`; `region` and `block` say that its REGION and its parameter block are in order. -/
def stageFails (b : List Byte) (k : Nat) (region block : Bool) : Option Nat :=
  let o := 64 + 64 * k
  if blockN b 2 1 ≤ k then firstNonZero b o (o + 64)
  else
    (firstFailing
      [(blockN b (o + 16) 8 % 16 != 0 || !block, o + 16),
       (decide (blockN b (o + 24) 4 < 16) || decide (65536 < blockN b (o + 24) 4), o + 24),
       (decide (blockN b (o + 28) 2 < 32) || decide (4096 < blockN b (o + 28) 2), o + 28), (!region, o + 32),
       (blockN b (o + 40) 8 % 256 != 0, o + 40)]).orElse (fun _ => firstNonZero b (o + 48) (o + 64))

/-- The stage header of a parameter block (R389). -/
def stageHeaderOk (b : List Byte) : Bool := decide (blockN b 0 1 ≤ 2) && blockZero b 1 16

/-- The role of a record's source. -/
def sourceRole (b : List Byte) : HRole := .source (blockN b 3 1) (blockN b 8 8) (blockN b 16 8) (blockN b 24 8)

/-- The role of stage `k` with its parameter block. -/
def stageRole (b : List Byte) (k : Nat) (block : List Byte) : HRole :=
  let o := 64 + 64 * k
  .stage (blockN b o 16) (blockN b (o + 16) 8) (blockN b (o + 24) 4) (blockN b (o + 32) 8) (blockN block 0 1) block

/-- Identity of sources and stages (R392); determinism levels are compared beside it. -/
def sameRole (a b : HRole) : Bool :=
  match a, b with
  | .source k x n st, .source k' x' n' st' => k == k' && x == x' && n == n' && st == st'
  | .stage d _ n _ _ bl, .stage d' _ n' _ _ bl' => d == d' && n == n' && bl == bl'
  | _, _ => false

/-- How many leading elements of a bound pipeline are identical to the new one's (R393). -/
def State.prefixLen (s : State) (ctx level : Nat) (elems : List Nat) (roles : List HRole) : Nat :=
  ((elems.zip roles).takeWhile (fun x =>
    match s.inst? ctx x.1 with
    | some y => y.level == level && !y.cut && sameRole y.role x.2
    | none => false)).length

/-- The attachment of R393: the longest prefix, among equal ones the oldest pipeline's. -/
def State.attach (s : State) (ctx level : Nat) (start : Bool) (roles : List HRole) : Nat × List Nat :=
  (s.pipes.filter (fun p => p.ctx == ctx && p.status == 1 && (!start || (match p.elems.head? with
    | some h => (match s.inst? ctx h with
      | some y => y.next == 0
      | none => false)
    | none => false)))).foldl
    (fun (m : Nat × List Nat) p =>
      let l := s.prefixLen ctx level p.elems roles
      if m.1 < l then (l, p.elems.take l) else m) (0, [])

/-! ### Faults (R402) -/

/-- A Hinge fault of a pipeline: it is marked, one failure is counted and the binding group will meet it. -/
def State.pipeFault (s : State) (p : Pipe) (addr serial : Nat) : State :=
  let names := s.joinNames p.ctx p.rcb
  let s := if p.status ≤ 2 then (s.modPipe p.ctx p.handle (fun p => { p with status := 6 })).setStatus p 6 else s
  let s := s.countFault p.ctx p.rcb 0x20 addr (serialWord p.handle serial)
  let s := s.joinFault p.binder ⟨false, names, ⟨.engineFault, 0, BitVec.ofNat 64 addr, 6⟩⟩
  s.settleTree p.ctx [.failure p.rcb]

/-- A Hinge fault of an instance: it stops, and its owner has the fault. -/
def State.hingeFault (s : State) (x : HInst) (addr serial : Nat) : State :=
  let s := s.modInst x.ctx x.handle (fun y => { y with stopped := true })
  match s.pipe? x.ctx x.owner with
  | none => s
  | some p => s.pipeFault p addr serial

/-! ### Rings (R395 to R397) -/

/-- A consumer that paces the producer (R395). -/
def Consumer.gates (c : Consumer) : Bool := !c.lag && !c.eos && c.limit.isNone

/-- `k` more items find their slots taken by every gating consumer. -/
def HInst.room (x : HInst) (k : Nat) : Bool :=
  x.consumers.all (fun c => !c.gates || decide (x.next + k ≤ c.cursor + x.window))

/-- A lagging consumer's pipeline is cut as LAGGED (R397). -/
def State.detach (s : State) (ctx pipe : Nat) : State :=
  match s.pipe? ctx pipe with
  | none => s
  | some p =>
    let s := (s.modPipe ctx pipe (fun p => { p with status := 5 })).setStatus p 5
    let s := match s.rcb? ctx p.rcb with
      | some r => s.setFlag r 16 true
      | none => s
    ((s.countFault ctx p.rcb 0x21 0 0).cutSuffix p).settleTree ctx [.failure p.rcb]

/-- The die where a consumer takes its items: its stage's, or its pipeline's for a sink (R394). -/
def State.consumerDie (s : State) (y : HInst) (c : Consumer) : Nat :=
  match c.stage with
  | some h => ((s.inst? y.ctx h).map (·.die)).getD y.die
  | none => ((s.pipe? y.ctx c.pipe).map (·.die)).getD y.die

/-- `k` items go to a consumer (R25, R394). -/
def State.sendItems (s : State) (y : HInst) (c : Consumer) : Nat → State
  | 0 => s
  | k + 1 => (s.message y.ctx y.die (s.consumerDie y c)).sendItems y c k

/-- The consumer has got the item of its cursor: at once on the instance's own die. -/
def State.hasGot (s : State) (y : HInst) (c : Consumer) : Bool := s.consumerDie y c == y.die || decide (c.cursor < c.got)

/-- Items of a context on their way to consumers on other dies. -/
def State.itemsSent (s : State) (ctx : Nat) : Nat :=
  ((s.insts.filter (fun y => y.ctx == ctx)).map (fun y =>
    ((y.consumers.filter (fun c => s.consumerDie y c != y.die)).map (fun c => y.next - c.got)).sum)).sum

/-- The next item on its way to consumer `k` of an instance comes to it. -/
def State.arrive (s : State) (ctx inst k : Nat) : State :=
  s.modInst ctx inst (fun y =>
    { y with consumers := y.consumers.modify k (fun c => if c.got < y.next then { c with got := c.got + 1 } else c) })

/-- Appends an item of kind 2 or 3 to an instance's ring, and sends it to the consumers (R395, R394). -/
def State.append (s : State) (x : HInst) (kind : Nat) (payload : List DWord) : State :=
  if x.stopped then s
  else
    let n := x.next
    let late := x.consumers.filter (fun c => c.lag && !c.eos && c.limit.isNone && decide (c.cursor + x.window ≤ n))
    let s := late.foldl (fun s c => s.detach x.ctx c.pipe) s
    let ws := BitVec.ofNat 64 (x.handle + kind * 2 ^ 16 + n % 2 ^ 32 * 2 ^ 32) :: payload
    match s.hingeWrite x.ctx (x.ring + 256 + 32 * (n % x.window)) (ws.flatMap (fun w => leBytes 8 w.toNat)) with
    | (s, some (va, _, _)) => s.hingeFault x va n
    | (s, none) =>
      let snap := if x.level = 2 then some s.snapshot else none
      let s := match s.inst? x.ctx x.handle with
        | some y => y.consumers.foldl (fun (s : State) c => s.sendItems y c 1) s
        | none => s
      s.modInst x.ctx x.handle (fun y =>
        { y with
          next := n + 1
          sent := y.sent || kind == 3
          items := (n, s.cycles.toNat, snap) :: y.items.filter (fun i => decide (n < i.1 + y.window)) })

/-- The stage that takes an instance's items, with the ring it takes them from. -/
def State.feed (s : State) (x : HInst) : Option (HInst × Consumer) :=
  (s.insts.filter (fun y => y.ctx == x.ctx)).findSome? (fun y =>
    (y.consumers.find? (fun c => c.stage == some x.handle)).map (fun c => (y, c)))

def State.modConsumer (s : State) (y : HInst) (p : Consumer → Bool) (f : Consumer → Consumer) : State :=
  s.modInst y.ctx y.handle (fun z => { z with consumers := z.consumers.map (fun c => if p c then f c else c) })

/-! ### Sources and sinks (R391, R400) -/

/-- What the record of a Hinge shows of the first item in hand: its leaf, its serial and the PC of the leaf's HBIND (R20). -/
def State.hingeInfo (s : State) (ctx die : Nat) (f : FaultInfo) : FaultInfo :=
  match (s.insts.filter (fun x => x.ctx == ctx && x.die == die)).flatMap (·.given) with
  | g :: _ =>
    { f with
      leaf := g.rcb
      serial := g.serial
      pc := ((s.pipes.find? (fun p => p.ctx == ctx && p.rcb == g.rcb)).map (fun p => p.pc.toNat)).getD 0 }
  | [] => f

/-- The Hinge of a die reads memory: the first failing address. Data that cannot be corrected raise the halt line (R224). -/
def State.hingeRead (s : State) (ctx die va n : Nat) : State × Except Nat (List Byte) :=
  match s.ctx? ctx with
  | none => (s, .ok (List.replicate n 0))
  | some c =>
    match s.engineRead c va n with
    | (s, .ok bs) => (s, .ok bs)
    | (s, .error (a, cause, _)) =>
      if cause = .uncorrectableEcc then
        (s.raiseHalt ctx (.hinge die) { s.hingeInfo ctx die FaultInfo.blank with cause := 0x3F, unit := die * 4096, cinfo := a } false, .error a)
      else (s, .error a)

def dwordsOf (b : List Byte) : List DWord := (List.range (b.length / 8)).map (fun i => BitVec.ofNat 64 (blockN b (8 * i) 8))

/-- A faulting source appends an end-of-stream item, so that the stages after it drain (R402). -/
def State.sourceFault (s : State) (x : HInst) (addr : Nat) : State :=
  let s := s.append x 3 [0, 0, 0]
  match s.inst? x.ctx x.handle with
  | some y => if y.stopped then s else s.hingeFault y addr x.next
  | none => s

/-- A page of an external queue is of class cached or host (R391): the address where it is not. -/
def State.queueAperture (s : State) (ctx va : Nat) : Option Nat :=
  match (s.ctx? ctx).bind (fun c => s.pageClass c va) with
  | some 1 => some va
  | _ => none

/-- The Hinge reads an external queue. -/
def State.queueRead (s : State) (ctx die va n : Nat) : State × Except Nat (List Byte) :=
  match s.queueAperture ctx va with
  | some a => (s, .error a)
  | none => s.hingeRead ctx die va n

/-- The Hinge writes an external queue: the first failing address. -/
def State.queueWrite (s : State) (ctx va : Nat) (bs : List Byte) : State × Option Nat :=
  match s.queueAperture ctx va with
  | some a => (s, some a)
  | none =>
    match s.hingeWrite ctx va bs with
    | (s, e) => (s, e.map (·.1))

/-- A source's next item (R391): its payload, or the end of an external queue's stream. -/
def State.emit (s : State) (x : HInst) (kind base count stride : Nat) : State :=
  let n := x.next
  if kind = 0 then
    (if count ≤ n then s
    else
      let a := (base + n * stride) % 2 ^ 64
      match s.hingeRead x.ctx x.die a 16 with
      | (s, .error e) => s.sourceFault x e
      | (s, .ok b) => s.append x 2 (dwordsOf b ++ [BitVec.ofNat 64 a]))
  else
    match s.queueRead x.ctx x.die base 24 with
    | (s, .error e) => s.sourceFault x e
    | (s, .ok q) =>
      let cap := blockN q 16 8
      if blockN q 0 8 ≤ n || cap = 0 then s
      else
        let a := base + 64 + 32 * (n % cap)
        match s.queueRead x.ctx x.die a 32 with
        | (s, .error e) => s.sourceFault x e
        | (s, .ok b) =>
          let s := s.append x (if blockN b 2 1 = 3 then 3 else 2) (dwordsOf (b.drop 8))
          if (s.inst? x.ctx x.handle).any HInst.stopped then s
          else
            match s.queueWrite x.ctx (base + 8) (leBytes 8 (n + 1)) with
            | (s, none) => s
            | (s, some e) => s.hingeFault x e n

/-- SOURCE_EMIT: instance `i`, a source, appends its next item where its ring has room (R391, R395). -/
def execSourceEmit (i : Nat) (s : State) : Host.Outcome State Fault Refusal :=
  finish s (match s.insts[i]? with
    | none => s
    | some x =>
      match x.role with
      | .source kind base count stride =>
        if x.stopped || x.sent || x.cut || !x.room 1 || !s.engineRuns x.ctx (.hinge x.die) then s
        else (s.emit x kind base count stride).settleTree x.ctx []
      | .stage .. => s)

/-- END_OF_STREAM: a memory stream that has emitted its last item appends its end (R400). -/
def execEndOfStream (i : Nat) (s : State) : Host.Outcome State Fault Refusal :=
  finish s (match s.insts[i]? with
    | none => s
    | some x =>
      match x.role with
      | .source kind _ count _ =>
        if kind != 0 || x.stopped || x.sent || x.cut || decide (x.next < count) || !x.room 1 ||
            !s.engineRuns x.ctx (.hinge x.die) then s
        else (s.append x 3 [0, 0, 0]).settleTree x.ctx []
      | .stage .. => s)

/-- What a consumer takes next from a ring: kind, serial and payload; a draining consumer ends at its limit (R399, R400). -/
def State.nextItem (s : State) (y : HInst) (c : Consumer) : Option (Nat × Nat × List DWord) :=
  if c.eos then none
  else if c.limit.any (fun m => decide (m ≤ c.cursor)) then some (3, c.cursor, [0, 0, 0])
  else if y.next ≤ c.cursor || !s.hasGot y c then none
  else
    match s.slotWords y c.cursor with
    | w :: ws => some ((w >>> 16).toNat % 256, c.cursor, ws)
    | [] => none

/-- The Hinge of a die reads the slot of a consumer's next item (R402): the address where it fails. -/
def State.slotFault (s : State) (y : HInst) (c : Consumer) (die : Nat) : State × Option Nat :=
  if c.limit.any (fun m => decide (m ≤ c.cursor)) then (s, none)
  else
    match s.hingeRead y.ctx die (y.ring + 256 + 32 * (c.cursor % y.window)) 32 with
    | (s, .ok _) => (s, none)
    | (s, .error e) => (s, some e)

/-- A Hinge fault at the sink of pipeline `p`: the sink stops, and the last stage with it where it is the pipeline's own. -/
def State.sinkFault (s : State) (p : Pipe) (y : HInst) (addr serial : Nat) : State :=
  let s := s.modConsumer y (fun c => c.stage.isNone && c.pipe == p.handle) (fun c => { c with failed := true })
  let s := if y.owner = p.handle then s.modInst y.ctx y.handle (fun z => { z with stopped := true }) else s
  s.pipeFault p addr serial

/-- A sink's record, once its slot has been read. -/
def State.sinkRecord (s : State) (p : Pipe) (y : HInst) (kind serial : Nat) (ws : List DWord) : State :=
  match s.queueRead p.ctx p.die p.sink 24 with
  | (s, .error e) => s.sinkFault p y e serial
  | (s, .ok q) =>
    let prod := blockN q 0 8
    let cap := blockN q 16 8
    if cap ≤ prod - blockN q 8 8 then s
    else
      let record := BitVec.ofNat 64 (p.handle + kind * 2 ^ 16 + serial % 2 ^ 32 * 2 ^ 32) :: ws
      match s.queueWrite p.ctx (p.sink + 64 + 32 * (prod % cap)) (record.flatMap (fun w => leBytes 8 w.toNat)) with
      | (s, some e) => s.sinkFault p y e serial
      | (s, none) =>
        match s.queueWrite p.ctx p.sink (leBytes 8 (prod + 1)) with
        | (s, some e) => s.sinkFault p y e serial
        | (s, none) =>
          let s := s.modConsumer y (fun c => c.stage.isNone && c.pipe == p.handle)
            (fun c => { c with cursor := c.cursor + 1, eos := c.eos || kind == 3 })
          s.settleTree p.ctx []

/-- SINK_WRITE: a pipeline's sink writes one record to its external queue (R391). -/
def execSinkWrite (ctx handle : Nat) (s : State) : Host.Outcome State Fault Refusal :=
  finish s (match s.pipe? ctx handle, s.insts.findSome? (fun y =>
      if y.ctx == ctx then (y.consumers.find? (fun c => c.stage.isNone && c.pipe == handle)).map (fun c => (y, c)) else none) with
    | some p, some (y, c) =>
      (match s.nextItem y c with
      | none => s
      | some (kind, serial, ws) =>
        if c.failed || !s.engineRuns ctx (.hinge p.die) then s
        else
          match s.slotFault y c y.die with
          | (s, some e) => s.sinkFault p y e serial
          | (s, none) => s.sinkRecord p y kind serial ws)
    | _, _ => s)

/-! ### HRECV (R398, R403, R406) -/

/-- The serving region and PARAM of a stage instance. -/
def HInst.region (x : HInst) : Option Nat :=
  match x.role with
  | .stage _ _ _ r _ _ => some r
  | .source .. => none

def HInst.param (x : HInst) : Nat :=
  match x.role with
  | .stage _ p _ _ _ _ => p
  | .source .. => 0

/-- The entry that a stage instance has for its groups: kind, serial and payload (R398 to R400). -/
def State.stageEntry (s : State) (x : HInst) : Option (Nat × Nat × List DWord) :=
  if x.cut then
    (match x.notices with
    | (w :: ws) :: _ => some (4, w.toNat / 2 ^ 32, ws)
    | _ => none)
  else if x.stopped then none
  else
    match s.feed x with
    | none => none
    | some (y, c) =>
      match s.nextItem y c with
      | some (3, n, ws) => if x.given.isEmpty then some (3, n, ws) else none
      | r => r

/-- The instance offers its next entry to this group (R260, R398). -/
def State.stageOffers (s : State) (x : HInst) (gr : Group) : Bool :=
  match x.region with
  | none => false
  | some r =>
    x.ctx == gr.ctx && s.inSubtree gr.ctx gr.home r && (s.stageEntry x).isSome && s.engineRuns x.ctx (.hinge x.die) &&
    (match nextInTurn x.rr (s.groups.filter (fun g => g.ctx == gr.ctx && (g.id == gr.id || s.idleFor g r .hrecv))) with
    | some g => g.id == gr.id
    | none => false)

/-- When the entry that an instance offers came to its ring. -/
def State.entryStamp (s : State) (x : HInst) : Nat :=
  match s.feed x with
  | some (y, c) => ((y.items.find? (fun i => i.1 == c.cursor)).map (fun i => i.2.1)).getD 0
  | none => 0

def State.ownerPrio (s : State) (x : HInst) : Nat :=
  match s.pipe? x.ctx x.owner with
  | some p => s.effPrio x.ctx p.rcb
  | none => 0

def State.stageFirst (s : State) (a b : HInst) : Bool :=
  let pa := s.ownerPrio a
  let pb := s.ownerPrio b
  let ta := s.entryStamp a
  let tb := s.entryStamp b
  decide (pb < pa) || (pa == pb && (decide (ta < tb) || (ta == tb && decide (a.handle < b.handle))))

/-- The instance whose entry the Hinges offer a group, without a trace. -/
def State.freeRecv (s : State) (gr : Group) (p : HInst → Bool) : Option HInst :=
  (s.insts.filter (fun x => s.stageOffers x gr && p x)).foldl
    (fun (m : Option HInst) x =>
      match m with
      | some y => if s.stageFirst x y then some x else some y
      | none => some x) none

/-- What the replayed traces say of a group's HRECV (R299, R403). -/
def State.replayRecv (s : State) (gr : Group) : Option (Offer HInst) :=
  let xs := s.insts.filter (fun x =>
    x.ctx == gr.ctx && (s.leafReplay x.binder).isSome && x.region.any (fun r => s.inSubtree gr.ctx gr.home r))
  pickOffer (xs.filterMap (fun x => s.streamOffer gr x.binder x.bindOrdinal x ((s.stageEntry x).map (fun e => e.2.1)) none))

/-- What a group's HRECV finds: freely, or as the replayed traces dictate (R299, R403). -/
def State.recvOffer (s : State) (gr : Group) : Offer HInst :=
  if s.replaying gr then
    (match s.replayRecv gr with
    | some o => o
    | none => freely (s.freeRecv gr (fun x => (s.leafReplay x.binder).isNone)))
  else freely (s.freeRecv gr (fun _ => true))

/-- The words of an entry of the Hinge (R398). -/
def hingeWords (handle kind serial : Nat) (ws : List DWord) : List DWord :=
  BitVec.ofNat 64 (handle + kind * 2 ^ 16 + serial % 2 ^ 32 * 2 ^ 32) :: ws

/-- A stage hands its next entry to a group: an item counts as released, an end of stream does not, a killed notice retires
(R16, R398, R400). -/
def State.handItem (s : State) (gr : Group) (x : HInst) : State × List DWord :=
  match s.stageEntry x with
  | none => (s, [])
  | some (kind, serial, ws) =>
    let s := (s.traceHand gr x.binder x.bindOrdinal serial).message x.ctx x.die (dieOf gr.core)
    let s := s.modInst x.ctx x.handle (fun y => { y with rr := gr.order })
    let words := hingeWords x.handle kind serial ws
    let leaf := (s.pipe? x.ctx x.owner).bind (fun p => s.rcb? x.ctx p.rcb)
    if kind = 4 then
      let s := s.modInst x.ctx x.handle (fun y => { y with notices := y.notices.drop 1 })
      (match leaf with
      | some r => ((s.countRetired r .killed false 0 0 0).settleTree x.ctx (retireTasks .killed r.va), words)
      | none => (s.settleTree x.ctx [], words))
    else
      let snap := if x.level = 2 then
          (s.feed x).bind (fun f => ((f.1.items.find? (fun i => i.1 == serial)).bind (fun i => i.2.2)).orElse (fun _ => some s.snapshot))
        else none
      let s := match s.feed x with
        | some (y, _) => s.modConsumer y (fun c => c.stage == some x.handle)
            (fun c => { c with cursor := c.cursor + 1, eos := c.eos || kind == 3 })
        | none => s
      let s := s.modInst x.ctx x.handle (fun y =>
        { y with given := y.given ++ [⟨serial, gr.id, (leaf.map (·.va)).getD 0, kind == 3⟩] })
      let s := match leaf with
        | some r => if kind = 2 then s.radd r .outstanding 1 else s
        | none => s
      let s := s.modX gr.id (fun e =>
        { e with held := some (.item x.handle serial (kind == 3)), wdog := 0, d2 := snap.map (fun m => ⟨m, [], []⟩) })
      (s.settleTree x.ctx [], words)

/-- The slot from which a stage takes its next item is read; a killed notice needs none. -/
def State.entryFault (s : State) (x : HInst) : State × Option Nat :=
  match (if x.cut then none else s.feed x) with
  | some (y, c) => s.slotFault y c x.die
  | none => (s, none)

/-- An entry is taken; where its slot fails, the stage stops and nothing is received (R402). -/
def hallHrecv (try_ : Bool) (a b : Operand) (h : HallView) : HallRes :=
  if h.gr.x.held.isSome then .trap (.plain .illegalOperand 0)
  else
    hallOffer try_ a .hrecv (h.s.recvOffer h.gr) (fun x =>
      match h.s.entryFault x with
      | (s, some e) => .stall (s.hingeFault x e (((s.feed x).map (·.2.cursor)).getD 0))
      | (s, none) =>
        let (s, ws) := s.handItem h.gr x
        .done { st := s, s := entryWrites a ws ++ sWrite b (BitVec.ofNat 64 x.param) }) h

/-- HRECV (R406). -/
def execHrecv (k : Ctl) (try_ : Bool) (a b : Operand) (s : State) : Host.Outcome State Fault Refusal :=
  runHall (.hrecv k try_ a b) (hallHrecv try_ a b) s

/-! ### HSEND (R395, R400, R407) -/

/-- The payload of an output, shaped by OFMT (R389). -/
def shape (ofmt : Nat) (w0 w1 p : DWord) : List DWord :=
  if ofmt = 1 then [w0, w1, 0] else if ofmt = 2 then [0, 0, p] else [w0, w1, p]

def HInst.ofmt (x : HInst) : Nat :=
  match x.role with
  | .stage _ _ _ _ f _ => f
  | .source .. => 0

/-- The item that a group holds, with its stage. -/
def State.heldItem (s : State) (gr : Group) : Option (HInst × HGiven) :=
  match gr.x.held with
  | some (.item h serial _) =>
    (match s.inst? gr.ctx h with
    | some x => (x.given.find? (fun g => g.serial == serial && g.group == gr.id)).map (fun g => (x, g))
    | none => none)
  | _ => none

/-- Appends by handle, as the ring stands. -/
def State.appendTo (s : State) (ctx handle kind : Nat) (ws : List DWord) : State :=
  match s.inst? ctx handle with
  | some x => if x.cut then s else s.append x kind ws
  | none => s

/-- The held item or end of stream retires at its leaf (R14, R400). -/
def State.retireItem (s : State) (x : HInst) (g : HGiven) (how : Retired) (cause addr : Nat) : State :=
  let s := if g.eos then s.appendTo x.ctx x.handle 3 [0, 0, 0] else s
  let s := s.modInst x.ctx x.handle (fun y => { y with given := y.given.filter (fun z => z != g) })
  match (if g.eos then none else s.rcb? x.ctx g.rcb) with
  | some r =>
    (s.countRetired r how true cause addr (serialWord x.handle g.serial)).settleTree x.ctx (retireTasks how g.rcb)
  | none => s.settleTree x.ctx []

/-- The output and the retirement of an HSEND, after its checks, its drain and its waits. -/
def HallView.sendItem (h : HallView) (s : State) (x : HInst) (g : HGiven) (a : Operand) (out retire : Bool) (how : Retired)
    (cause addr : Nat) : State :=
  let k := sregNo a
  let s := s.message h.gr.ctx (dieOf h.gr.core) x.die
  let s := if out then s.appendTo x.ctx x.handle 2 (shape x.ofmt (h.s64 (k + 1)) (h.s64 (k + 2)) (h.s64 (k + 3))) else s
  if retire then (s.retireItem x g how cause addr).dropHeld h.gr.id else s.settleTree x.ctx []

def hallHsend (out retire : Bool) (how : Retired) (a b c : Operand) (h : HallView) : HallRes :=
  match h.s.heldItem h.gr with
  | none => .trap (.plain .illegalOperand 0)
  | some (x, g) =>
    if !namesHeld (h.s64 (sregNo a)) x.handle g.serial then .trap (.plain .illegalOperand 0)
    else if !h.engineDrained then .stall h.s
    else
      let slots := (if out then 1 else 0) + (if retire && g.eos then 1 else 0)
      if !x.cut && !x.stopped && !x.room slots then .wait h.s .hsend
      else
        let cause := if how = .ok then 0 else h.failCause b
        let addr := if how = .ok then 0 else h.failAddr c
        match (if retire then h.gr.x.d2 else none) with
        | none => .done { st := h.sendItem h.s x g a out retire how cause addr }
        | some d =>
          if x.given.any (fun z => decide (z.serial < g.serial)) then .wait h.s .d2merge
          else
            let e : Int := (g.serial / 64 : Nat)
            match h.s.conflict x.ctx d (epochGet x.epochBytes e) with
            | some va => .trap ⟨.detConflict, 0, BitVec.ofNat 64 va, 0⟩
            | none =>
              let s := (h.s.merge d).modInst x.ctx x.handle (fun y =>
                { y with epochBytes := epochPut y.epochBytes e (d.writes.map (·.1)) })
              .done { st := h.sendItem s x g a out retire how cause addr }

/-- HSEND.OK (R407). -/
def execHsendOk (k : Ctl) (a : Operand) (s : State) : Host.Outcome State Fault Refusal :=
  runHall (.hsendOk k a) (hallHsend true true .ok a .unused .unused) s

/-- HSEND.MORE (R407). -/
def execHsendMore (k : Ctl) (a : Operand) (s : State) : Host.Outcome State Fault Refusal :=
  runHall (.hsendMore k a) (hallHsend true false .ok a .unused .unused) s

/-- HSEND.NONE (R407). -/
def execHsendNone (k : Ctl) (a : Operand) (s : State) : Host.Outcome State Fault Refusal :=
  runHall (.hsendNone k a) (hallHsend false true .ok a .unused .unused) s

/-- HSEND.FAIL (R407). -/
def execHsendFail (k : Ctl) (a b c : Operand) (s : State) : Host.Outcome State Fault Refusal :=
  runHall (.hsendFail k a b c) (hallHsend false true .failed a b c) s

/-- HSEND.KILL (R407). -/
def execHsendKill (k : Ctl) (a b c : Operand) (s : State) : Host.Outcome State Fault Refusal :=
  runHall (.hsendKill k a b c) (hallHsend false true .killed a b c) s

/-! ### HBIND (R392 to R396, R399, R405) -/

/-- A live context or region. -/
def State.isRegion (s : State) (ctx va : Nat) : Bool :=
  match s.rcb? ctx va with
  | some r => decide (s.rget r .kind ≤ 1)
  | none => false

/-- The parameter blocks of a record's stages. -/
def State.readParams (s : State) (ctx : Nat) (b : List Byte) : Nat → State × Except Trap (List (List Byte))
  | 0 => (s, .ok [])
  | k + 1 =>
    match s.readParams ctx b k with
    | (s, .error t) => (s, .error t)
    | (s, .ok l) =>
      let o := 64 + 64 * k
      let n := blockN b (o + 24) 4
      if n < 16 || 65536 < n || blockN b (o + 16) 8 % 16 != 0 then (s, .ok (l ++ [[]]))
      else
        match s.readBlock ctx (blockN b (o + 16) 8) n with
        | (s, .error t) => (s, .error t)
        | (s, .ok p) => (s, .ok (l ++ [p]))

/-- The first failing field of a record, its stages and their blocks (R388 to R391). -/
def State.pipeFails (s : State) (ctx : Nat) (b : List Byte) (blocks : List (List Byte)) : Option Nat :=
  (recordFails b).orElse (fun _ => (List.range 8).findSome? (fun k =>
    let o := 64 + 64 * k
    let cached := match s.ctx? ctx with
      | some c => s.allCached c (blockN b (o + 16) 8) (blockN b (o + 24) 4)
      | none => false
    stageFails b k (s.isRegion ctx (blockN b (o + 32) 8)) (stageHeaderOk (blocks.getD k []) && cached)))

/-- The consumer that R396 places: its first cursor. -/
def firstCursor (j : HJoin) (y : HInst) (n : Nat) : Nat :=
  match j with
  | .next => y.next
  | .retain => y.next - n
  | .start => 0

/-- `k` free handles, drawn one after another. -/
def State.drawHandles (s : State) (c : Ctx) : Nat → State × List Nat
  | 0 => (s, [])
  | k + 1 =>
    let (s, l) := s.drawHandles c k
    let free := (s.freeHandles c).filter (fun h => !l.contains h)
    let (i, s) := s.draw (free.length - 1)
    (s, l ++ (free[i]?).toList)

/-- A new instance of an element of a pipeline. -/
def HInst.fresh (gr : Group) (handle owner level : Nat) (role : HRole) (ring window : Nat) (consumers : List Consumer) :
    HInst where
  ctx := gr.ctx
  handle := handle
  die := dieOf gr.core
  owner := owner
  level := level
  role := role
  ring := ring
  window := window
  next := 0
  consumers := consumers
  given := []
  rr := 0
  stopped := false
  sent := false
  cut := false
  notices := []
  items := []
  epochBytes := []
  binder := gr.id
  bindOrdinal := gr.x.bindOrdinal

/-- Ring and window of element `i` of a record: the source, then the stages. -/
def elemRing (b : List Byte) (i : Nat) : Nat × Nat :=
  if i = 0 then (blockN b 32 8, blockN b 4 2) else (blockN b (64 * i + 40) 8, blockN b (64 * i + 28) 2)

/-- What HBIND has found before it waits. -/
structure HPlan where
  record : Nat
  rcb : Nat
  parent : Nat
  leaf : List Byte
  bytes : List Byte
  roles : List HRole
  shared : List Nat
  level : Nat
  lag : Bool
  cursor : Nat

/-- The latches of a pipeline: its RCB, its record and its new rings (R388, R390). -/
def HPlan.latches (p : HPlan) (ctx handle : Nat) (new : List Nat) : List Latch :=
  [rcbLatch ctx p.rcb, ⟨ctx, none, p.record, 576, false, .pipeline handle⟩] ++
    new.zipIdx.map (fun x =>
      let r := elemRing p.bytes (p.shared.length + x.2)
      ⟨ctx, none, r.1, 256 + 32 * r.2, true, .pipeline x.1⟩)

/-- The new instances, each a gating consumer of the element before it (R395, R397). -/
def HPlan.instances (p : HPlan) (gr : Group) (handle : Nat) (new : List Nat) : List HInst :=
  let sink := blockN p.bytes 40 8
  new.zipIdx.map (fun x =>
    let i := p.shared.length + x.2
    let r := elemRing p.bytes i
    let after := match new[x.2 + 1]? with
      | some n => [⟨some n, handle, 0, false, none, false, false, 0⟩]
      | none => if sink = 0 then [] else [⟨none, handle, 0, false, none, false, false, 0⟩]
    HInst.fresh gr x.1 handle p.level (p.roles.getD i (sourceRole p.bytes)) r.1 r.2 after)

/-- The consumer that joins the last shared instance. -/
def HPlan.joiner (p : HPlan) (handle : Nat) (new : List Nat) : List Consumer :=
  match new.head? with
  | some n => [⟨some n, handle, p.cursor, p.lag, none, false, false, p.cursor⟩]
  | none => if blockN p.bytes 40 8 = 0 then [] else [⟨none, handle, p.cursor, p.lag, none, false, false, p.cursor⟩]

/-- CUT of a pipeline (R399). -/
def State.cutPipe (s : State) (p : Pipe) : State :=
  ((s.modPipe p.ctx p.handle (fun q => { q with status := 4 })).cutSuffix p).settleTree p.ctx []

/-- The pipeline is bound: RCB, instances, consumer, latches and the RO fields of its record; under a cut RCB it is bound cut (R16). -/
def HallView.bindPipe (h : HallView) (s : State) (p : HPlan) (handle : Nat) (new : List Nat) : State :=
  let ctx := h.gr.ctx
  let s := s.makeRcb ctx p.rcb (s.rcbAt ctx p.rcb).pa p.parent true
  let elems := p.shared ++ new
  let pipe : Pipe := ⟨ctx, handle, dieOf h.gr.core, p.rcb, h.gr.hall.pc, p.record, elems, blockN p.bytes 40 8, p.level, h.gr.id,
    h.gr.x.bindOrdinal, 1, p.bytes, (s.cycles.toNat, h.gr.core, h.gr.slot)⟩
  let s := match p.shared.getLast? with
    | some last => s.modInst ctx last (fun y => { y with consumers := y.consumers ++ p.joiner handle new })
    | none => s
  let s := ({ s with
    insts := s.insts ++ p.instances h.gr handle new
    pipes := s.pipes ++ [pipe] }).enter ((p.latches ctx handle new).drop 1)
  let s := match (p.shared.getLast?).bind (s.inst? ctx) with
    | some y => (p.joiner handle new).foldl (fun (s : State) c => s.sendItems y c (y.next - c.cursor)) s
    | none => s
  let s := s.modCtx ctx (fun c => { c with handles := c.handles ++ [⟨handle, p.rcb, false⟩] })
  let s := s.modX h.gr.id (fun x => x.countBind p.rcb)
  let s := (s.hingeWrite ctx (p.record + 48) (leBytes 1 1 ++ leBytes 1 p.shared.length ++ leBytes 2 handle)).1
  let s := (elems.zipIdx.drop 1).foldl (fun s x => (s.hingeWrite ctx (p.record + 64 * x.2 + 30) (leBytes 2 x.1)).1) s
  if ((s.rcb? ctx p.rcb).map s.rcut).getD false then s.cutPipe pipe else s.settleTree ctx []

/-- The waits of HBIND for records, charges and latches (R394). -/
def HallView.placePipe (h : HallView) (s : State) (a : Operand) (p : HPlan) : HallRes :=
  match s.ctx? h.gr.ctx with
  | none => .stall h.s
  | some c =>
    let k := p.roles.length - p.shared.length
    match s.drawHandles c (k + 1) with
    | (s, hs) =>
      let handle := hs.headD 0
      let new := hs.drop 1
      let home := dieOf h.gr.core
      let stages := (s.insts.filter (fun x => x.die == home && x.region.isSome && s.holdsWork x.ctx)).length
      let newStages := if p.shared.isEmpty then k - 1 else k
      if hs.length ≤ k then h.status a s 2
      else if 1024 < stages + newStages || 512 ≤ (s.pipes.filter (fun q => q.die == home && s.holdsWork q.ctx)).length then .stall h.s
      else if !(s.askLand h.gr p.parent k (leafAllows p.leaf k)).2 || !s.latchFits (p.latches h.gr.ctx handle new) then
        .stall (h.s.askLand h.gr p.parent k (leafAllows p.leaf k)).1
      else
        let s := s.modX h.gr.id (fun x => { x with landAsk := none })
        .done { st := h.bindPipe s p handle new, s := sWrite a (BitVec.ofNat 64 handle) }

/-- BIND, after the reads of R405. -/
def HallView.planPipe (h : HallView) (s : State) (j : HJoin) (lag : Bool) (a : Operand) (record rcb parent n : Nat)
    (b rb : List Byte) (blocks : List (List Byte)) : HallRes :=
  let ctx := h.gr.ctx
  let parent := if parent = 0 then blockN b 96 8 else parent
  let cached := match s.ctx? ctx with
    | some c => s.allCached c record 576
    | none => false
  let level := boundLevel (blockN b 6 1) h.gr
  if !s.leafRcb ctx rcb 3 parent rb then h.status a s 1
  else if ((s.ctx? ctx).map (fun c => s.freeHandles c)).getD [] = [] then h.status a s 2
  else if !cached then .done { st := s, s := sWrite a (BitVec.ofNat 64 (4 * 2 ^ 56)) }
  else
    match s.pipeFails ctx b blocks with
    | some o => .done { st := s, s := sWrite a (BitVec.ofNat 64 (4 * 2 ^ 56 + o)) }
    | none =>
      let roles := sourceRole b :: (List.range (blockN b 2 1)).map (fun k => stageRole b k (blocks.getD k []))
      let (l, shared) := s.attach ctx level (j == .start) roles
      let last := (shared.getLast?).bind (fun x => s.inst? ctx x)
      let joins := decide (l < roles.length) || blockN b 40 8 != 0
      if joins && (last.map (fun y => decide (16 ≤ y.consumers.length))).getD false then h.status a s 5
      else if j = .retain && (n == 0 || last.any (fun y => decide (y.window < n))) then h.status a s 6
      else
        h.placePipe s a ⟨record, rcb, parent, rb, b, roles, shared, level, lag, (last.map (fun y => firstCursor j y n)).getD 0⟩

/-- Of HBINDs that reach the Hinge in one cycle the one from the lower die, core and group slot comes first: one that would have come
before a bind of this cycle arrives later (R408). -/
def HallView.bindInTurn (h : HallView) : Bool :=
  h.s.coreDetermined h.gr.core || h.s.pipes.all (fun p =>
    p.ctx != h.gr.ctx || p.boundAt.1 != h.s.cycles.toNat || decide (p.boundAt.2.1 < h.gr.core) ||
      (p.boundAt.2.1 == h.gr.core && decide (p.boundAt.2.2 ≤ h.gr.slot)))

def hallHbind (j : HJoin) (lag : Bool) (a b : Operand) (h : HallView) : HallRes :=
  let k := sregNo b
  let record := (h.s64 k).toNat
  let rcb := (h.s64 (k + 1)).toNat
  if !h.engineDrained || !h.bindInTurn then .stall h.s
  else if record % 64 ≠ 0 then .trap ⟨.misaligned, 0, BitVec.ofNat 64 record, 0⟩
  else
    match h.s.readBlock h.gr.ctx record 576 with
    | (_, .error t) => .trap t
    | (s, .ok b) =>
      match s.readParams h.gr.ctx b (min 8 (blockN b 2 1)) with
      | (_, .error t) => .trap t
      | (s, .ok blocks) =>
        match s.readBlock h.gr.ctx rcb 256 with
        | (_, .error t) => .trap t
        | (s, .ok rb) => h.planPipe s j lag a record rcb (h.s64 (k + 2)).toNat (h.s64 (k + 3)).toNat b rb blocks

/-- HBIND (R405). -/
def execHbind (k : Ctl) (j : HJoin) (lag : Bool) (a b : Operand) (s : State) : Host.Outcome State Fault Refusal :=
  runHall (.hbind k j lag a b) (hallHbind j lag a b) s

/-- A pipeline that may be unbound: neither draining nor cut (R405). -/
def State.unbindable (s : State) (ctx handle : Nat) : Option Pipe :=
  match s.pipe? ctx handle with
  | some p => if p.status = 1 || p.status = 6 then some p else none
  | none => none

/-- DRAIN: the suffix takes no further item, and an end of stream follows what it has taken (R399). -/
def State.drain (s : State) (p : Pipe) : State :=
  let own := (s.suffix p).map (·.handle)
  let sources := (s.suffix p).filter (fun x => x.region.isNone)
  let s := s.passOn p
  let stages := own.filter (fun h => !sources.any (fun x => x.handle == h))
  let firstFed := fun (y : HInst) (c : Consumer) =>
    c.pipe == p.handle && (!own.contains y.handle || sources.any (fun x => x.handle == y.handle)) &&
      (match c.stage with
      | some h => stages.contains h
      | none => false)
  let s := { s with insts := s.insts.map (fun (y : HInst) =>
    if y.ctx != p.ctx then y
    else
      { y with
        sent := y.sent || sources.any (fun x => x.handle == y.handle)
        consumers := (y.consumers.map (fun c => if firstFed y c && !c.eos then { c with limit := some c.cursor } else c)).filter
          (fun c => !(c.pipe == p.handle && c.stage.isNone && !own.contains y.handle)) }) }
  let s := s.modPipe p.ctx p.handle (fun q => { q with status := 2, elems := own })
  (s.setStatus p 2).settleTree p.ctx []

def hallUnbind (f : State → Pipe → State) (a b : Operand) (h : HallView) : HallRes :=
  let handle := (h.r64 false b).toNat % 2 ^ 16
  if !h.engineDrained then .stall h.s
  else
    match h.s.unbindable h.gr.ctx handle with
    | some p => .done { st := f h.s p, s := sWrite a 0 }
    | none => .done { st := h.s, s := sWrite a 1 }

/-- HBIND.DRAIN (R405). -/
def execHbindDrain (k : Ctl) (a b : Operand) (s : State) : Host.Outcome State Fault Refusal :=
  runHall (.hbindDrain k a b) (hallUnbind (fun s p => s.drain p) a b) s

/-- HBIND.CUT (R405). -/
def execHbindCut (k : Ctl) (a b : Operand) (s : State) : Host.Outcome State Fault Refusal :=
  runHall (.hbindCut k a b) (hallUnbind (fun s p => s.cutPipe p) a b) s

end Sys2Proof.Machine
end

