-- ==== Sys2Proof/Machine/Exec.lean ====
section
/-! DEFINITION. The execution family: NOP (R50), SHMAP (R75), BAR (R76, R77), SAFEPT (R80 to R84) and YIELD (R85). -/

namespace Sys2Proof.Machine

open Sys2Proof

/-- NOP (R50): no effect. -/
def execNop (k : Ctl) (s : State) : Host.Outcome State Fault Refusal :=
  runBoth (.nop k) (fun h => .done { st := h.s }) (fun v => .done { st := v.s }) s

/-- A collective warp instruction: every live lane is active and the warp is outside a divergent region, else
ILLEGAL_CONVERGENCE; with no active lane it has no effect (R34, R75, R77). -/
def WarpView.collective (v : WarpView) (r : WarpRes) : WarpRes :=
  if v.active = 0 then .done { st := v.s }
  else if !v.is.queued || v.active != v.w.liveMask then .trap (.plain .illegalConvergence v.active)
  else r

/-- The value of an unsigned immediate or of the low bits of a scalar. -/
def WarpView.uniform (v : WarpView) (o : Operand) (bits : Nat) : Nat :=
  match o with
  | .imm x => x.toNat
  | _ => (v.raw false o 0 0).toNat % 2 ^ bits

def immNat : Operand → Nat
  | .imm x => x.toNat
  | _ => 0

/-! ### Shared register ranges (R74, R75) -/

/-- The live ranges that a warp maps. -/
def Group.rangesOf (gr : Group) (w : Nat) : List SharedRange := gr.shared.filter (fun r => r.mapsFor w)

/-- A wait of warp `p` inside SHMAP, as its first name, partner and count. -/
def Group.mapWait (gr : Group) (p : Nat) : Option (Nat × Nat × Nat) :=
  match gr.warps[p]? with
  | none => none
  | some w => w.waits.findSome? (fun x =>
      match x.kind with
      | .shmap first partner count => some (first, partner, count)
      | _ => none)

/-- The names of a range of a warp become private and unallocated. -/
def Group.dropNames (gr : Group) (w first count : Nat) : Group :=
  gr.modWarp w (fun wp => { wp with regs := regFree wp.regs ((List.range count).map (first + ·)) })

/-- What a map may not name (R75). -/
def WarpView.mapRefused (v : WarpView) (first partner count : Nat) : Bool :=
  decide (256 < first + count) || count == 0 || decide (32 < count) || partner == v.is.w ||
  decide (v.gr.warps.length ≤ partner) || decide (4 ≤ (v.gr.rangesOf v.is.w).length) ||
  (v.gr.rangesOf v.is.w).any (fun r => decide (r.first < first + count) && decide (first < r.first + r.regs.length))

/-- Where a warp stands that follows its Hall's stream. -/
def Group.queueIssue (gr : Group) (n : Nat) : Issue :=
  let w := gr.warps[n]?
  let e := gr.queue[(w.elim 0 Warp.rp) - gr.queueBase]?
  ⟨gr.id, n, w.elim 0 Warp.liveMask, (e.map (·.pc)).getD 0, (e.map (·.scalars)).getD gr.hall.sc, true, e.isSome, none, none⟩

/-- The pair matches: the names become one shared range, empty and 0, and both warps go on (R75). -/
def Group.mapPair (gr : Group) (w partner first count : Nat) : Group :=
  let gr := (gr.dropNames w first count).dropNames partner first count
  let gr := gr.modWarp partner (fun p => p.retire (gr.queueIssue partner) none false)
  { gr with shared := gr.shared ++
      [⟨w, partner, true, true, first, List.replicate count (Lanes.all 0), List.replicate count false⟩] }

/-- Registers that the pair's private names free and its range takes (R72, R75). -/
def Group.mapNeeds (gr : Group) (w partner first count : Nat) : Nat :=
  let held := fun x => match gr.warps[x]? with
    | some wp => (wp.regs.filter (fun r => decide (first ≤ r.1) && decide (r.1 < first + count))).length
    | none => 0
  count - (held w + held partner)

/-- The end of the partner's wait, which a trace records or dictates (R298, R299): before its rotation this warp does not issue. -/
def WarpView.pairUp (v : WarpView) (partner first count : Nat) : WarpRes :=
  match v.s.traceWake v.gr partner (v.gr.queueIssue partner).lanes with
  | .go s => .done { st := s.modGroup v.is.g (fun gr => gr.mapPair v.is.w partner first count) }
  | .hold => .stall v.s
  | .mismatch s t => .wait (s.takeTrap (v.gr.queueIssue partner) t false) (.shmap first partner count)

def warpShmap (k : Ctl) (a b c : Operand) (v : WarpView) : WarpRes :=
  let first := (opName a).getD 0
  let partner := immNat b
  let count := immNat c
  if !k.guard.always then .trap (.plain .illegalConvergence v.active)
  else v.collective (
    if v.mapRefused first partner count then .trap (.plain .illegalOperand v.active)
    else
      match v.gr.mapWait partner with
      | some (f, p, n) =>
        if f != first || n != count then .trap (.plain .illegalOperand v.active)
        else if p != v.is.w then .wait v.s (.shmap first partner count)
        else if !v.s.regsFit v.gr (v.gr.mapNeeds v.is.w partner first count) then
          .wait v.s (.registers (v.gr.mapNeeds v.is.w partner first count) v.stallSince)
        else v.pairUp partner first count
      | none => .wait v.s (.shmap first partner count))

/-- SHMAP (R75). -/
def execShmap (k : Ctl) (a b c : Operand) (s : State) : Host.Outcome State Fault Refusal :=
  runWarp (.shmap k a b c) (warpShmap k a b c) s

/-- A warp no longer maps a range; the last of the two frees its registers (R75). -/
def Group.unmap (gr : Group) (w first : Nat) : Group :=
  { gr with shared := (gr.shared.map (fun r =>
      if r.mapsFor w && r.first == first then
        (if r.warpA == w then { r with onA := false } else { r with onB := false })
      else r)).filter (fun r => r.onA || r.onB) }

def warpShmapOff (k : Ctl) (a c : Operand) (v : WarpView) : WarpRes :=
  let first := (opName a).getD 0
  if !k.guard.always then .trap (.plain .illegalConvergence v.active)
  else v.collective (
    if (v.gr.rangesOf v.is.w).any (fun r => r.first == first && r.regs.length == immNat c) then
      .done { st := v.s.modGroup v.is.g (fun gr => gr.unmap v.is.w first) }
    else .trap (.plain .illegalOperand v.active))

/-- SHMAP.OFF (R75). -/
def execShmapOff (k : Ctl) (a b c : Operand) (s : State) : Host.Outcome State Fault Refusal :=
  runWarp (.shmapOff k a b c) (warpShmapOff k a c) s

/-! ### Barriers (R76, R77) -/

def barNo : Operand → Nat
  | .bar b => b.toNat
  | _ => 0

/-- The waits on a barrier's old generation end (R76). -/
def Warp.released (w : Warp) (b : Nat) : Warp :=
  { w with waits := w.waits.map (fun x =>
      match x.kind with
      | .barrier c _ => if c == b then { x with ended := true } else x
      | _ => x) }

/-- A barrier whose mask has reached its expected count starts a new generation (R76). The waits of a determined group end each by itself,
as its trace records or dictates (R298, R299). -/
def Group.completeBar (gr : Group) (determined : Bool) (b : Nat) : Group :=
  match gr.barriers[b]? with
  | none => gr
  | some x =>
    if x.expected ≤ x.arrived.count && x.expected != 0 then
      { gr with
        barriers := gr.barriers.set b { x with arrived := 0, gen := x.gen + 1 }
        warps := if determined then gr.warps else gr.warps.map (fun w => w.released b) }
    else gr

/-- A warp arrives: its token, its bit, and the generation it may complete (R77). -/
def Group.arrive (gr : Group) (determined : Bool) (w b : Nat) : Group :=
  match gr.barriers[b]? with
  | none => gr
  | some x =>
    (({ gr with barriers := gr.barriers.set b { x with arrived := x.arrived ||| BitVec.twoPow 32 w } }).modWarp w
      (fun wp => { wp with tokens := (b, x.gen) :: wp.tokens.filter (fun t => t.1 != b) })).completeBar determined b

/-- A barrier instruction finds its barrier, which the group declares and which is usable (R76). -/
def WarpView.onBar (v : WarpView) (a : Operand) (f : Nat → Barrier → WarpRes) : WarpRes :=
  v.collective (
    match v.gr.barriers[barNo a]? with
    | none => .trap (.plain .illegalOperand v.active)
    | some x => if x.expected = 0 then .trap (.plain .illegalOperand v.active) else f (barNo a) x)

def WarpView.hasArrived (v : WarpView) (x : Barrier) : Bool := x.arrived.has v.is.w

/-- MARK (R77). An arrive is a release at group scope: the warp's earlier stores have committed (R76, R125). -/
def warpMark (a : Operand) (v : WarpView) : WarpRes :=
  v.onBar a (fun b x =>
    if v.hasArrived x then .trap (.plain .illegalOperand v.active)
    else if !v.settled then .stall v.s
    else .done { st := v.s.modGroup v.is.g (fun gr => gr.arrive (v.s.determined v.gr) v.is.w b) })

/-- BAR.MARK (R77). -/
def execBarMark (k : Ctl) (a : Operand) (s : State) : Host.Outcome State Fault Refusal :=
  runWarp (.barMark k a) (warpMark a) s

/-- The wait on a barrier's generation, over once the generation differs (R77). -/
def WarpView.awaitGen (v : WarpView) (b : Nat) (x : Barrier) (g : BitVec 16) : WarpRes :=
  if x.gen != g || v.prior == some (.barrier b g) then .done { st := v.s } else .wait v.s (.barrier b g)

def warpHold (gen : Bool) (a b : Operand) (v : WarpView) : WarpRes :=
  v.onBar a (fun n x =>
    if gen then v.awaitGen n x (BitVec.ofNat 16 (v.uniform b 16))
    else
      match v.w.tokens.find? (fun t => t.1 == n) with
      | some t => v.awaitGen n x t.2
      | none => .trap (.plain .illegalOperand v.active))

/-- BAR.HOLD (R77). -/
def execBarHold (k : Ctl) (gen : Bool) (a b : Operand) (s : State) : Host.Outcome State Fault Refusal :=
  runWarp (.barHold k gen a b) (warpHold gen a b) s

/-- The warp waits inside a GATE that it has marked (R77). -/
def State.setGated (s : State) (is : Issue) (b : Nat) : State :=
  s.modWarp is.g is.w (fun w => { w with gated := some b })

/-- GATE: MARK, then HOLD (R77). A GATE that is reissued has marked already. -/
def warpGate (a : Operand) (v : WarpView) : WarpRes :=
  v.onBar a (fun b x =>
    if v.w.gated = some b then
      (match v.w.tokens.find? (fun t => t.1 == b) with
      | some t =>
        if x.gen != t.2 || v.prior == some (.barrier b t.2) then .done { st := v.s }
        else .wait v.s (.barrier b t.2)
      | none => .done { st := v.s })
    else if v.hasArrived x then .trap (.plain .illegalOperand v.active)
    else if !v.settled then .stall v.s
    else
      let st := v.s.modGroup v.is.g (fun gr => gr.arrive (v.s.determined v.gr) v.is.w b)
      let gen := ((st.group? v.is.g).bind (fun gr => gr.barriers[b]?)).map (·.gen)
      if gen = some x.gen then .wait (st.setGated v.is b) (.barrier b x.gen) else .done { st := st })

/-- BAR.GATE (R77). -/
def execBarGate (k : Ctl) (a : Operand) (s : State) : Host.Outcome State Fault Refusal :=
  runWarp (.barGate k a) (warpGate a) s

def warpBarSet (a b : Operand) (v : WarpView) : WarpRes :=
  v.onBar a (fun n x =>
    let count := v.uniform b 6
    if x.arrived != 0 || count = 0 || 32 < count then .trap (.plain .illegalOperand v.active)
    else .done { st := v.s.modGroup v.is.g (fun gr =>
      { gr with barriers := gr.barriers.set n { x with expected := count } }) })

/-- BAR.SET (R77). -/
def execBarSet (k : Ctl) (a b : Operand) (s : State) : Host.Outcome State Fault Refusal :=
  runWarp (.barSet k a b) (warpBarSet a b) s

/-! ### Safe points (R80 to R84) -/

/-- An entry of the safe-point table has no bad reserved field (R80). -/
def entryOk (b : List Byte) : Bool :=
  blockZero b 44 48 && blockZero b 56 64 && blockN b 52 4 % 2 ^ 31 == 0 &&
  blockN b 40 2 % 2 == 0 && blockN b 42 2 % 2 == 0

/-- The 64 bytes of a safe-point entry of a group's image (R80), or the fault of reading them. -/
def State.safePoint (s : State) (gr : Group) (n : Nat) : State × Except (Nat × Cause × Nat) (List Byte) :=
  match s.ctx? gr.ctx with
  | some c => s.engineRead c ((gr.image.spTable + 64 * n) % 2 ^ 64) 64
  | none => (s, .ok (List.replicate 64 0))

/-- A request is honoured: at once, or in a partition with determined cores from its boundary on (R82, R301). -/
def State.honoured (s : State) (ctx : Nat) (p : Preempting) : Bool := p.begun || !s.partitionDetermined ctx

/-- A pre-emption or a time slice that is honoured asks this group to stop (R23, R82, R288). -/
def State.stopAsked (s : State) (gr : Group) : Bool :=
  match (s.ctx? gr.ctx).bind (fun c => c.preempting) with
  | none => false
  | some p =>
    s.honoured gr.ctx p &&
    (match p.region with
    | none => true
    | some r => s.inSubtree gr.ctx gr.home r)

/-- The path's record is the entry, the masks are cleared where every live lane is active, and a path that is asked to stop
does (R82, R84). -/
def WarpView.mark (v : WarpView) (st : State) (n : Nat) : State :=
  let stop := st.stopAsked v.gr
  let now := if st.coreDetermined v.gr.core then some (st.vtimeOf v.gr.ctx) else none
  st.modWarp v.is.g v.is.w (fun w =>
    let w := { w with marked := now }.modThreads v.active (fun t => { t with record := some n, stopped := t.stopped || stop })
    if v.active == w.liveMask then { w with sinceV := 0, sinceP := 0 } else w)

/-- The mark, which is illegal at handler privilege (R229); the entry is checked first (R80, R84). -/
def warpSafept (c : Operand) (v : WarpView) : WarpRes :=
  let n := immNat c
  if v.w.privileged v.is.lanes then .trap (.plain .illegalInstr v.active)
  else if v.gr.image.spCount ≤ n then .trap (.plain .illegalOperand v.active)
  else
    match v.s.safePoint v.gr n with
    | (_, .error (va, cause, k)) => .trap ⟨cause, v.active, BitVec.ofNat 64 va, BitVec.ofNat 8 k⟩
    | (st, .ok bytes) =>
      if !entryOk bytes then .trap (.plain .illegalOperand v.active)
      else
        .done { st := v.mark st n }

/-- SAFEPT (R84). -/
def execSafept (k : Ctl) (c : Operand) (s : State) : Host.Outcome State Fault Refusal :=
  runWarp (.safept k c) (warpSafept c) s

/-- RESUME: the threads of a stub go on at their resume PC with their kept MEET (R83). -/
def warpResume (v : WarpView) : WarpRes :=
  if (Mask.lanes v.active).any (fun l => !(v.w.threads.get l).stub) then .trap (.plain .illegalInstr v.active)
  else
    .done { st := v.s.modWarp v.is.g v.is.w (fun w =>
              w.modThreads v.active (fun t => { t with stub := false, meet := t.stubMeet })),
            jump := some (Lanes.of (fun l => some (v.w.threads.get l).stubPc)) }

/-- SAFEPT.RESUME (R84). -/
def execSafeptResume (k : Ctl) (s : State) : Host.Outcome State Fault Refusal :=
  runWarp (.safeptResume k) warpResume s

/-! ### YIELD (R85) -/

/-- The threads of the sub-gang are not ready for the cycles, and let their warp's next opportunity pass. -/
def warpYield (c : Operand) (v : WarpView) : WarpRes :=
  let until_ := v.s.timeOf v.gr + immNat c + 1
  .done { st := v.s.modWarp v.is.g v.is.w (fun w =>
    w.modThreads v.active (fun t => { t with notBefore := until_, skip := true })) }

/-- YIELD (R85). -/
def execYieldI (k : Ctl) (c : Operand) (s : State) : Host.Outcome State Fault Refusal :=
  runWarp (.yieldI k c) (warpYield c) s

end Sys2Proof.Machine
end

