-- ==== Sys2Proof/Machine/Fetch.lean ====
section
/-! DEFINITION. What a turn of the Hall, of a warp or of an access program does up to the instruction it executes:
fetching and decoding (R32, R47, R95), the decision queue (R64, R65), the paths of a divergent region (R68, R71), and the
passing of time (R79, R233). -/

namespace Sys2Proof.Machine

open Sys2Proof

/-! ### Instruction fetch (R32, R95) -/

/-- The 64-byte block of code at a physical address as the core fetches it: where the core's cache holds an older copy,
either one (R95). -/
def State.codeBlock (s : State) (core pa : Nat) : State × List Byte :=
  let base := pa / 64 * 64
  let now := s.peekBytes base 64
  match s.code.find? (fun b => b.core == core && b.pa == base) with
  | none => ({ s with code := ⟨core, base, now⟩ :: s.code }, now)
  | some b =>
    if b.bytes = now then (s, now)
    else
      let (n, s) := s.draw 1
      (s, if n = 0 then b.bytes else now)

/-- A core's instruction cache takes in a block of code of its own accord; what is stored there later may then be fetched old until a
CINV.I (R95). -/
def State.prefetch (s : State) (core pa : Nat) : State :=
  if s.populated pa && !s.code.any (fun b => b.core == core && b.pa == pa / 64 * 64) then (s.codeBlock core pa).1 else s

/-- `n` bytes of code at a virtual address, block by block; a fetch needs a cached page with X = 1 (R95). -/
def State.fetchBytes (s : State) (c : Ctx) (core : Nat) : Nat → Nat → Nat → State × Except Trap (List Byte)
  | 0, _, _ => (s, .ok [])
  | fuel + 1, va, n =>
    if n = 0 then (s, .ok [])
    else
      match s.translate c va .fetch with
      | (s, .error (cause, k)) => (s, .error ⟨cause, 0, BitVec.ofNat 64 va, BitVec.ofNat 8 k⟩)
      | (s, .ok (pa, _)) =>
        if s.hbm.poisoned.any (fun x => x.1 == pa / 128) then
          (s, .error ⟨.uncorrectableEcc, 0, BitVec.ofNat 64 va, 0⟩)
        else
          let (s, b) := s.codeBlock core pa
          let take := min n (64 - pa % 64)
          match s.fetchBytes c core fuel (va + take) (n - take) with
          | (s, .error t) => (s, .error t)
          | (s, .ok rest) => (s, .ok ((b.drop (pa % 64)).take take ++ rest))

/-- The byte address of an instruction of a group (R32). -/
def Group.codeAddr (gr : Group) (pc : Word) : Nat := (gr.image.codeBase + 12 * pc.toNat) % 2 ^ 64

/-- The decoding fault of an instruction, as a cause (R47). -/
def checkCause : CheckFault → Cause
  | .illegalInstr => .illegalInstr
  | .privilege => .privilege
  | .illegalOperand => .illegalOperand

/-- The cause of a word that does not decode (R47). -/
def rejectCause : Reject → Cause
  | _ => .illegalInstr

/-- Fetches and decodes the instruction at a PC of a group and makes the checks of R47. -/
def State.fetch (s : State) (gr : Group) (pc : Word) (handler : Bool) : State × Except Trap Instr :=
  match s.ctx? gr.ctx with
  | none => (s, .error (.plain .pageFault 0))
  | some c =>
    match s.fetchBytes c gr.core 2 (gr.codeAddr pc) 12 with
    | (s, .error t) => (s, .error t)
    | (s, .ok bs) =>
      match decodeBytes bs with
      | .error r => (s, .error (.plain (rejectCause r) 0))
      | .ok i =>
        match i.check handler gr.image.super with
        | some f => (s, .error (.plain (checkCause f) 0))
        | none => (s, .ok i)

/-- Whether a control instruction could go to a target: no instruction has the index 0xFFFF_FFFF (R158), and its fetch
must not fail (R157). -/
def State.targetTrap (s : State) (gr : Group) (pc : Word) : Option Trap :=
  if pc = 0xFFFFFFFF then some (.plain .illegalOperand 0)
  else
    match s.ctx? gr.ctx with
    | none => none
    | some c =>
      let va := gr.codeAddr pc
      match (s.translate c va .fetch).2, (s.translate c (va + 11) .fetch).2 with
      | .error (cause, k), _ => some ⟨cause, 0, BitVec.ofNat 64 va, BitVec.ofNat 8 k⟩
      | .ok _, .error (cause, k) => some ⟨cause, 0, BitVec.ofNat 64 (va + 11), BitVec.ofNat 8 k⟩
      | .ok _, .ok _ => none

/-! ### Classes of control instructions (R157) -/

/-- A control instruction that the Hall executes alone. -/
def hallJump : Instr → Bool
  | .bra k l _ => !l && k.guard.uniform
  | .brx k l b => !l && k.guard.uniform && b.kind == .sreg
  | .loop _ _ a => a.kind == .sreg
  | _ => false

/-- A region branch where it is met outside a region. -/
def regionBranch : Instr → Bool
  | .bra k l _ => l || !k.guard.uniform
  | .brx k l b => l || !k.guard.uniform || b.kind != .sreg
  | .call k _ => !k.guard.uniform
  | .callx .. => true
  | .ret k => !k.guard.uniform
  | .loop _ _ a => a.kind != .sreg
  | _ => false

/-- The Hall waits after forwarding the instruction (R66, R163). -/
def hallWaits (i : Instr) (links : List Word) : Bool :=
  match i with
  | .vote _ _ _ a _ | .vred _ _ _ a _ => a.kind == .sreg || a.kind == .cond
  | .ret k => k.guard.uniform && links.isEmpty
  | _ => false

/-- PC plus a signed offset in instructions (R158). -/
def pcPlus (pc : Word) (off : BitVec 24) : Word := pc + off.signExtend 32

/-! ### The Hall (R64) -/

/-- Entries that every live warp has consumed leave the queue. -/
def Group.prune (gr : Group) : Group :=
  let low := gr.liveWarps.foldl (fun m i =>
    match gr.warps[i]? with
    | some w => min m w.rp
    | none => m) gr.position
  let n := low - gr.queueBase
  { gr with queue := gr.queue.drop n, queueBase := gr.queueBase + min n gr.queue.length }

/-- The queue is full: the next entry would be 256 ahead of the slowest live warp (R64). -/
def Group.queueFull (gr : Group) : Bool := decide (Config.queueEntries ≤ gr.prune.queue.length)

/-- The core of a group has stopped for the halt line, or its context does not run (R18, R21). -/
def State.silent (s : State) (gr : Group) : Bool :=
  match s.ctx? gr.ctx with
  | some c =>
    c.state != .running ||
    (match c.halt with
    | some h => h.stopped.contains (.core gr.core)
    | none => false)
  | none => true

/-- The Hall may act now. -/
def State.hallReady (s : State) (gr : Group) : Bool :=
  gr.resident && !s.silent gr && !gr.hall.ended && gr.hall.fault.isNone && gr.hall.combine.isNone &&
  !gr.liveWarps.isEmpty && !gr.allStopped &&
  (match gr.hall.wait with
  | some w => w.ended || w.kind == .qjoin
  | none => true)

/-- The condition guard of an instruction as the Hall samples it (R34). -/
def Group.guard (gr : Group) (k : Ctl) : Bool :=
  k.guard.ix == 0 || !k.guard.cond || (gr.hall.sc.cond k.guard.ix.toNat != k.guard.neg)

/-- The Hall forwards an instruction that is not its own: one entry with the sampled values, and what the instruction
asks of the Hall itself (R64, R65, R81, R161, R162, R163, R164). -/
def Group.forward (gr : Group) (i : Instr) (now : Nat) : Group :=
  let h := gr.hall
  let on := gr.guard i.ctl
  let entry : Entry := ⟨h.pc, i, h.sc, on, none, none, now⟩
  let next := { h with pc := h.pc + 1, dist := h.dist + 1 }
  let put := fun (e : Entry) (h : Hall) => { gr with queue := gr.queue ++ [e], hall := h }
  if !on then put entry next
  else if regionBranch i then
    (match h.meetPtr with
    | some p => put { entry with meet := some p } { next with pc := p, meetPtr := none }
    | none => gr)
  else
    match i with
    | .safept .. => put entry { next with dist := 0, sinceS := 0, sinceC := 0 }
    | .meet _ off | .meetSv _ off _ => put entry { next with meetPtr := some (pcPlus h.pc off) }
    | .call _ off =>
      { put entry { next with pc := pcPlus h.pc off } with
        links := ((h.pc + 1) :: gr.links).take 16 }
    | .ret _ =>
      (match gr.links with
      | v :: rest => { put { entry with link := some v } { next with pc := v } with links := rest }
      | [] => put entry { next with combine := some ⟨gr.position, i, []⟩ })
    | .exit k => put entry (if k.guard.uniform then { next with ended := true } else next)
    | _ =>
      if hallWaits i gr.links then put entry { next with combine := some ⟨gr.position, i, []⟩ } else put entry next

/-- Why the Hall cannot forward an instruction: a region branch with no meeting pointer (R67), a target that cannot be
fetched (R157), or its own safe-point distance (R81). -/
def State.forwardTrap (s : State) (gr : Group) (i : Instr) : Option Trap :=
  let far := decide (Config.safePointLimit ≤ gr.hall.dist)
  let own :=
    if !gr.guard i.ctl then none
    else if regionBranch i then (if gr.hall.meetPtr.isNone then some (Trap.plain .illegalConvergence 0) else none)
    else
      match i with
      | .call _ off => s.targetTrap gr (pcPlus gr.hall.pc off)
      | .ret _ =>
        (match gr.links with
        | v :: _ => s.targetTrap gr v
        | [] => none)
      | _ => none
  match own, far with
  | some t, _ => some t
  | none, true => some (.plain .safepointDistance 0)
  | none, false => none

/-- A turn of the Hall: it fetches; a Hall instruction is given to `exec`, any other is forwarded; a fault waits for R46
(R46, R47, R64). -/
def State.hallTurn (s : State) (g : Nat) : State × Option Instr :=
  match s.group? g with
  | none => (s, none)
  | some gr =>
    if !s.hallReady gr || s.scalarPends gr (· == hallCheck) then (s, none)
    else
      match s.fetch gr gr.hall.pc false with
      | (s, .error t) => (s.hallTrap g t, none)
      | (s, .ok i) =>
        if i.isHall || hallJump i then ({ s with issuer := .hall g }, some i)
        else if gr.queueFull || s.hallPends gr i || (regionBranch i && s.scalarPends gr (fun _ => true)) then (s, none)
        else
          match s.forwardTrap gr i with
          | some t => (s.hallTrap g t, none)
          | none => (s.modGroup g (fun gr => (gr.prune).forward i (s.vtimeOf gr.ctx)), none)

/-! ### Warps (R65, R68, R71) -/

/-- The warp fetches for itself: it is in a divergent region, in a handler, or in a rebuild stub (R68, R83, R229). -/
def Warp.selfFetching (w : Warp) : Bool :=
  w.region.isSome || w.handler.isSome || w.liveLanes (fun t => t.stub) != 0

/-- The lanes of waits that have not ended. -/
def Warp.waitLanes (w : Warp) : Mask := w.waits.foldl (fun m x => if x.ended then m else m ||| x.lanes) 0

/-- Lanes that are ready to issue for themselves: live, not held, stopped or waiting, and while a handler runs its own and those in a
rebuild stub (R68, R70, R82, R83, R85, R228). -/
def Warp.issuable (w : Warp) (now : Nat) : Mask :=
  w.liveLanes (fun t => !t.held && !t.stopped && decide (t.notBefore ≤ now) &&
    (w.handler.isNone || t.handler || t.stub)) &&& ~~~w.waitLanes

/-- The first lane of a slice, from its served lane on, that may issue. -/
def Warp.serve (w : Warp) (m : Mask) (slice : Nat) : Option Nat :=
  let start := (w.served.toArray.getD slice 0) % 4
  ((List.range 4).map (fun j => 4 * slice + (start + j) % 4)).find? (fun l => m.has l)

/-- The path of lanes that a lane is on: equal PC and equal MEET (R68). -/
def Warp.samePath (w : Warp) (a b : Nat) : Bool :=
  (w.threads.get a).pc == (w.threads.get b).pc && (w.threads.get a).meet == (w.threads.get b).meet

/-- The sub-gang that issues next: the first slice in turn that has a path, and every slice whose served path is the
same (R68, R71). -/
def Warp.nextGang (w : Warp) (m : Mask) : Option (Nat × Mask) :=
  let order := (List.range 8).map (fun j => (w.lastSlice + 1 + j) % 8)
  (order.findSome? (fun j => (w.serve m j).map (fun l => (j, l)))).map (fun x =>
    (x.1, Mask.of (fun l => m.has l &&
      (match w.serve m (l / 4) with
      | some q => w.samePath q x.2 && w.samePath l x.2
      | none => false))))

/-- After an issue the sequencers of the gang's slices go to the next path among their lanes, in ascending order of each
path's lowest lane (R68). -/
def Warp.rotate (w : Warp) (slice : Nat) (gang m : Mask) : Warp :=
  { w with
    lastSlice := slice
    served := Vector.ofFn (fun (j : Fin 8) =>
      let lanes := (List.range 4).map (fun k => 4 * j.val + k)
      match lanes.find? (fun l => gang.has l) with
      | none => w.served[j]
      | some mine =>
        let heads := lanes.filter (fun l => m.has l && !(lanes.any (fun k => decide (k < l) && m.has k && w.samePath k l)))
        let own := (heads.find? (fun l => w.samePath l mine)).getD mine
        ((heads.find? (fun l => decide (own < l))).orElse (fun _ => heads.head?)).getD mine) }

/-- The warp has issued its 32 further instructions after a halt, or faulted itself (R18). -/
def State.skidDone (s : State) (gr : Group) (w : Warp) : Bool :=
  match s.ctx? gr.ctx with
  | some c => c.halt.isSome && decide (32 ≤ w.skid)
  | none => true

/-- Counts an issue after a halt-line raise (R18, R20). -/
def State.countSkid (s : State) (gr : Group) (w : Nat) : State :=
  match s.ctx? gr.ctx with
  | some c => if c.halt.isSome then s.modWarp gr.id w (fun x => { x with skid := x.skid + 1 }) else s
  | none => s

/-- The scalars that a self-fetching path reads (R68, R229). -/
def Group.scalarsFor (gr : Group) (w : Warp) : Scalars :=
  match w.handler, w.region with
  | some h, _ => h.scalars
  | none, some r => r.scalars
  | none, none => gr.hall.sc

/-- A path of a warp takes its turn where it fetches for itself: decoding faults and forms that a region does not allow
are taken in its lanes (R46, R47, R68). -/
def State.pathTurn (s : State) (gr : Group) (w : Warp) (n slice : Nat) (gang m : Mask) : State × Option Instr :=
  let pc := (w.threads.get ((Mask.lowest gang).getD 0)).pc
  let sc := gr.scalarsFor w
  let is : Issue := ⟨gr.id, n, gang, pc, sc, true, false, none, none⟩
  let s := s.modWarp gr.id n (fun w => w.rotate slice gang m)
  if w.watchdog && w.handler.isNone && w.atom.isNone && w.liveLanes (fun t => t.stub) &&& gang == 0 then
    ((s.modWarp gr.id n (fun w => { w with watchdog := false })).takeTrap is (.plain .watchdog gang) false, none)
  else
    match s.fetch gr pc (w.privileged gang) with
    | (s, .error t) => (s.takeTrap is { t with mask := gang } false, none)
    | (s, .ok i) =>
      if i.isHall || hallJump i then (s.takeTrap is (.plain .illegalConvergence gang) false, none)
      else
        let guard := i.ctl.guard.ix == 0 || !i.ctl.guard.cond || (sc.cond i.ctl.guard.ix.toNat != i.ctl.guard.neg)
        ((s.countSkid gr n) |> fun s => { s with issuer := .warp { is with guard := guard } }, some i)

/-! ### Blocking waits (R73, R78) -/

/-- A wait of a group that R78 lists; a stall for registers becomes one when it lasts longer than SWAPLIM, and never in a rebuild
stub (R73, R83); MXMOV's stall is none, nor is QCTL.JOIN's (R335, R361). -/
def State.blocking (s : State) (gr : Group) (stub : Mask) (x : Wait) : Bool :=
  !x.ended &&
  (match x.kind with
  | .registers _ since => decide (s.effSwap gr.ctx gr.home < s.timeOf gr - since) && x.lanes &&& stub == 0
  | .joinTile _ | .qjoin => false
  | _ => true)

/-- The Hall is in a blocking wait. -/
def State.hallBlocked (s : State) (gr : Group) : Bool := gr.hall.wait.any (s.blocking gr 0)

/-- The lanes of a warp in blocking waits. -/
def State.blockedLanes (s : State) (gr : Group) (w : Warp) : Mask :=
  (w.waits.filter (s.blocking gr (w.liveLanes (fun t => t.stub)))).foldl (fun (m : Mask) x => m ||| x.lanes) 0

/-- The group is in a blocking wait: its Hall or some warp waits, or a warp has caught up with a Hall that waits (R78, R79). -/
def State.blockedWait (s : State) (gr : Group) : Bool :=
  s.hallBlocked gr || gr.warps.any (fun w => w.isLive && s.blockedLanes gr w != 0)

/-- A warp has caught up with a Hall that is itself in a blocking wait (R78). -/
def State.caughtUp (s : State) (gr : Group) (w : Warp) : Bool :=
  !w.selfFetching && w.rp == gr.position && s.hallBlocked gr

/-! ### A warp's turn (R65, R71) -/

/-- A warp takes the next entry of the decision queue (R65); one that has caught up with a waiting Hall leaves its wait for a pending
WATCHDOG, at the Hall's instruction (R78, R233). -/
def State.entryTurn (s : State) (gr : Group) (w : Warp) (n : Nat) : State × Option Instr :=
  match gr.queue[w.rp - gr.queueBase]? with
  | none =>
    if w.watchdog && w.atom.isNone && s.caughtUp gr w then
      ((s.modWarp gr.id n (fun w => { w with watchdog := false })).takeTrap
        ⟨gr.id, n, w.liveMask, gr.hall.pc, gr.hall.sc, true, false, none, none⟩ (.plain .watchdog w.liveMask) false, none)
    else (s, none)
  | some e =>
    let lanes := w.liveMask
    let is : Issue := ⟨gr.id, n, lanes, e.pc, e.scalars, e.guard, true, e.meet, e.link⟩
    if w.watchdog && w.atom.isNone then
      ((s.modWarp gr.id n (fun w => { w with watchdog := false })).takeTrap is (.plain .watchdog lanes) false, none)
    else ((s.countSkid gr n) |> fun s => { s with issuer := .warp is }, some e.instr)

/-- The entry that the warp would take is of this rotation (R312). -/
def State.entryYoung (s : State) (gr : Group) (w : Warp) : Bool :=
  s.coreDetermined gr.core &&
  (match gr.queue[w.rp - gr.queueBase]? with
  | some e => decide (s.vtimeOf gr.ctx ≤ e.rotation)
  | none => false)

/-- A path with an ATOM of which lanes are still to be performed goes on before any other path of the warp (R116). -/
def Warp.onlyAtom (w : Warp) (stubs m : Mask) : Mask :=
  match w.atom with
  | some r => if stubs = 0 && w.selfFetching then m &&& r.lanes else m
  | none => m

/-- The lanes that a warp's turn may serve. A pending WATCHDOG calls a warp whose paths all wait (R233). Rebuild stubs come first where
their warp has no region to go on in, and on a determined core (R83, R313). -/
def State.turnLanes (s : State) (gr : Group) (w : Warp) : Mask :=
  let stubs := w.liveLanes (fun t => t.stub)
  let m := w.issuable (s.timeOf gr)
  let m := if w.watchdog && w.handler.isNone && m == 0 then w.liveLanes (fun t => !t.held && !t.stopped && !t.stub) &&& w.waitLanes else m
  let m := if stubs != 0 && (s.coreDetermined gr.core || w.region.isNone || w.handler.isSome) then m &&& stubs else m
  w.onlyAtom stubs m

/-- The warp is ready: the hardware has what its next instruction needs, and it has lanes to issue it for (R71). -/
def State.warpReady (s : State) (gr : Group) (w : Warp) : Bool :=
  gr.resident && !s.silent gr && w.isLive && !s.skidDone gr w && decide (w.ready ≤ s.cycles.toNat) &&
  (let m := s.turnLanes gr w
   if w.selfFetching then m != 0
   else m == w.liveMask && (decide (w.rp < gr.position) || (w.watchdog && s.caughtUp gr w)))

/-- A turn of a warp. What YIELD lets pass is one of them (R85). -/
def State.warpTurn (s : State) (g n : Nat) : State × Option Instr :=
  match s.group? g with
  | none => (s, none)
  | some gr =>
    match gr.warps[n]? with
    | none => (s, none)
    | some w =>
      if !gr.resident || s.silent gr || !w.isLive || s.skidDone gr w then (s, none)
      else
        let m := s.turnLanes gr w &&& w.liveLanes (fun t => !t.skip)
        if w.selfFetching then
          (match w.nextGang m with
          | some (slice, gang) => s.pathTurn gr w n slice gang m
          | none => (s.modWarp g n (fun w => w.modThreads (BitVec.allOnes 32) (fun t => { t with skip := false })), none))
        else if m != w.liveMask || s.entryYoung gr w then
          (s.modWarp g n (fun w => w.modThreads (BitVec.allOnes 32) (fun t => { t with skip := false })), none)
        else s.entryTurn gr w n

/-! ### Access programs (R321, R323) -/

/-- Instructions an access program may execute (R323). -/
def apAllowed (i : Instr) : Bool :=
  i.ctl.guard.uniform &&
  (match i with
  | .nop .. | .exit .. | .aqld .. | .aqldSp .. | .aqst .. | .aqsyn .. => true
  | .bra _ l _ => !l
  | .brx _ l b => !l && b.kind == .sreg
  | .loop _ _ a => a.kind == .sreg
  | .ld _ m _ _ _ => i.isHall && m.order == .plain
  | .iadd .. | .isub .. | .imul .. | .imulh .. | .imad .. | .idiv .. | .irem .. | .imin .. | .imax .. | .iabs ..
  | .ineg .. | .iaddc .. | .icmp .. | .isel .. | .and .. | .or .. | .xor .. | .bitfn .. | .shl .. | .shr .. | .rot ..
  | .bfx .. | .bfi .. | .popc .. | .clz .. | .ctz .. | .brev .. | .mov .. | .movi .. | .pset .. => i.isHall
  | _ => false)

/-- The checks of R47 for an access program: the queue instructions, which a group's own stream may not hold, are legal
there (R323). -/
def apCheck (i : Instr) : Option CheckFault :=
  let ok := !(i.ctl.guard.neg && i.ctl.guard.ix == 0) && i.entryInstr && i.slots.all Slot.selOk
  if !ok || !apAllowed i then some .illegalInstr
  else if !i.privOk false false then some .privilege
  else if !i.operandOk then some .illegalOperand
  else none

/-- The engine has acknowledged a time slice that concerns the group (R288, R338). -/
def State.sliceStopped (s : State) (gr : Group) (e : Engine) : Bool :=
  match (s.ctx? gr.ctx).bind (fun c => c.preempting) with
  | some p => (match p.region with
    | some r => p.acks.contains e && s.inSubtree gr.ctx gr.home r
    | none => false)
  | none => false

/-- A turn of an access program. -/
def State.apTurn (s : State) (g p : Nat) : State × Option Instr :=
  match s.group? g with
  | none => (s, none)
  | some gr =>
    match gr.program? p with
    | none => (s, none)
    | some q =>
      if !s.engineRuns gr.ctx (.accessProc gr.core) || s.sliceStopped gr (.accessProc gr.core) || q.state != .running || gr.standing == .preempted || gr.standing == .sliced then (s, none)
      else
        match s.ctx? gr.ctx with
        | none => (s, none)
        | some c =>
          match s.fetchBytes c gr.core 2 (gr.codeAddr q.pc) 12 with
          | (s, .error t) => (s.apFault g p t, none)
          | (s, .ok bs) =>
            match decodeBytes bs with
            | .error r => (s.apFault g p (.plain (rejectCause r) 0), none)
            | .ok i =>
              match apCheck i with
              | some f => (s.apFault g p (.plain (checkCause f) 0), none)
              | none => ({ s with issuer := .ap g p }, some i)

/-! ### Virtual time (R293) -/

/-- Groups in the order of their virtual slots (R293). -/
def byVirtualSlot (gs : List Group) : List Group :=
  (List.range 64).flatMap (fun v => gs.filter (fun gr => gr.vslot.getD gr.slot == v))

/-- The agents of a determined core in the order of a rotation: its Halls by virtual slot, then its warps
(R293), then the access programs of determined groups, swapped out or not, by their lowest queue name (R339, R340). -/
def State.rotationOrder (s : State) (core : Nat) : List Turn :=
  let here := s.groups.filter (fun gr => gr.inPlace && gr.core == core)
  let sorted := byVirtualSlot (here.filter Group.resident)
  let lowest := fun (gr : Group) (p : ApProgram) =>
    ((gr.x.queues.filter (fun q => q.program == p.id)).map (·.name)).foldl min 8
  sorted.map (fun gr => Turn.hall gr.id) ++
    sorted.flatMap (fun gr => (List.range gr.warps.length).map (fun w => Turn.warp gr.id w)) ++
    ((byVirtualSlot here).filter (fun gr => s.determined gr)).flatMap (fun gr =>
      ((List.range 9).flatMap (fun n => gr.x.programs.filter (fun p => lowest gr p == n))).map
        (fun p => Turn.ap gr.id p.id))

end Sys2Proof.Machine
end

