-- ==== Sys2Proof/Machine/Matrix.lean ====
section
/-! DEFINITION. The matrix engine (R341 to R364): images of A, block arithmetic, the key and the tiles, MMA and the steps
of its command, MXMOV, MKEY and PLANE. -/

namespace Sys2Proof.Machine

open Sys2Proof

/-! ### Formats and images (R341 to R344) -/

/-- The planes of an image of A. -/
def aPlanes : AFmt → Nat
  | .bf16 | .s8 | .n8 => 8
  | .f16 => 11
  | .e4m3 | .s4 | .n4 => 4
  | .e5m2 => 3
  | .t5 => 2

/-- The float format of A; none for an integer format. -/
def aFloat : AFmt → Option Fmt
  | .bf16 => some .bf16
  | .f16 => some .f16
  | .e4m3 => some .e4m3
  | .e5m2 => some .e5m2
  | .s8 | .n8 | .s4 | .n4 | .t5 => none

/-- SZ, the bytes of a plain image. -/
def aSize (f : AFmt) : Nat := 512 * aPlanes f + (if (aFloat f).isSome then 512 + 4096 else 0)

/-- The bytes of a row of B. -/
def bRow : BFmt → Nat
  | .bf16 | .f16 => 128
  | .e4m3 | .e5m2 | .s8 | .n8 => 64
  | .s4 | .c4 => 32

/-- The bytes of a source row of PLANE (R363). -/
def planeRow : AFmt → Nat
  | .bf16 | .f16 => 128
  | .e4m3 | .e5m2 | .s8 | .n8 | .t5 => 64
  | .s4 | .n4 => 32

/-- Bit (m, k) of plane `j` of an image of `q` × 64 rows, counting from the image's first plane. -/
def planeBit (sp : Nat → Byte) (base q j m k : Nat) : Bool := (sp (base + 512 * q * j + 8 * m + k / 8)).getLsbD (k % 8)

/-- E′ of element (m, k) of an FP image: its offset and its value. -/
def expAt (f : AFmt) (base q m k : Nat) : Nat := base + 512 * q * (1 + aPlanes f) + 64 * m + k

/-- The legal E′ (R343). -/
def expOk (f : Fmt) (e : Nat) (x0 : Bool) : Bool :=
  match f with
  | .f16 | .e5m2 => (decide (113 ≤ e) && decide (e ≤ 142)) || e == 255
  | .e4m3 => (decide (121 ≤ e) && decide (e ≤ 135)) || (e == 255 && x0)
  | _ => decide (1 ≤ e)

/-- An element of an FP image read with `p` planes (R343). -/
def aValue (sp : Nat → Byte) (f : AFmt) (base q p m k : Nat) : FVal :=
  let e := (sp (expAt f base q m k)).toNat
  let sign := planeBit sp base q 0 m k
  let x := fun j => planeBit sp base q (1 + j) m k
  if e = 255 then (if x 0 then .nan false else .inf sign)
  else .fin sign ((List.range p).foldl (fun n j => 2 * n + (if x j then 1 else 0)) 0) ((e : Int) - 126 - p)

/-- An element of an integer image (R342). -/
def aInt (sp : Nat → Byte) (f : AFmt) (base q m k : Nat) : Int :=
  let p := aPlanes f
  let signed := f == .s8 || f == .s4 || f == .t5
  (List.range p).foldl (fun n j =>
    let w : Int := 2 ^ (p - 1 - j)
    if planeBit sp base q j m k then (if j = 0 && signed then n - w else n + w) else n) 0

/-- The offset of the first bad exponent byte of an image (R343, R357). -/
def badExp (sp : Nat → Byte) (f : AFmt) (base q : Nat) : Option Nat :=
  match aFloat f with
  | none => none
  | some ff =>
    (List.range (64 * q)).findSome? (fun m =>
      ((List.range 64).find? (fun k => !expOk ff (sp (expAt f base q m k)).toNat (planeBit sp base q 1 m k))).map
        (fun k => expAt f base q m k))

/-- Element n of a row of B, as bits (R344). -/
def bBits (sp : Nat → Byte) (f : BFmt) (row n : Nat) : Nat :=
  match bRow f with
  | 128 => (sp (row + 2 * n)).toNat + 256 * (sp (row + 2 * n + 1)).toNat
  | 64 => (sp (row + n)).toNat
  | _ => (sp (row + n / 2)).toNat / 16 ^ (n % 2) % 16

/-- An FP element of B; a code of C4 stands for its entry of the codebook (R174). -/
def bValue (sp : Nat → Byte) (f : BFmt) (book : Nat → Nat) (row n : Nat) : FVal :=
  let x := bBits sp f row n
  match f with
  | .f16 => fval .f16 (BitVec.ofNat 64 x)
  | .e4m3 => fval .e4m3 (BitVec.ofNat 64 x)
  | .e5m2 => fval .e5m2 (BitVec.ofNat 64 x)
  | .c4 => fval .bf16 (BitVec.ofNat 64 (book x))
  | .bf16 | .s8 | .n8 | .s4 => fval .bf16 (BitVec.ofNat 64 x)

/-- An integer element of B. -/
def bInt (sp : Nat → Byte) (f : BFmt) (row n : Nat) : Int :=
  let x := bBits sp f row n
  match f with
  | .s8 => (BitVec.ofNat 8 x).toInt
  | .s4 => (BitVec.ofNat 4 x).toInt
  | _ => x

/-! ### Block arithmetic (R346 to R349) -/

/-- ⌊log2⌋ of a non-zero finite value. -/
def FVal.expo : FVal → Option Int
  | .fin _ m e => if m = 0 then none else some (e + m.log2)
  | _ => none

/-- A product's magnitude truncated to a multiple of 2^q, and whether that lost anything. -/
def truncTo (q : Int) : FVal → FVal × Bool
  | .fin s m e => if q ≤ e then (.fin s m e, false)
    else
      let d := 2 ^ (q - e).toNat
      (.fin s (m / d) q, m % d != 0)
  | x => (x, false)

/-- D of one output element, with the flags it raises (R346, R347). -/
def blockFp (ps : List (FVal × FVal)) : FVal × BitVec 5 :=
  if ps.any (fun p => p.1.isNan || p.2.isNan) then (.nan false, if ps.any (fun p => p.2.signals) then flagNV else 0)
  else
    let prods := ps.map (fun p => p.1.mul p.2)
    if prods.any FVal.isNan || (prods.any (· == .inf true) && prods.any (· == .inf false)) then (.nan false, flagNV)
    else if prods.any FVal.isInf then (.inf (prods.any (· == .inf true)), 0)
    else
      let top := prods.foldl (fun (t : Option Int) p =>
        match t, p.expo with
        | some a, some b => some (max a b)
        | none, b => b
        | a, none => a) none
      match top with
      | none => (fSum .rn prods, 0)
      | some e =>
        let cut := prods.map (truncTo (e - 152))
        (fSum .rn (cut.map (·.1)), if cut.any (·.2) then flagNX else 0)

/-- The accumulator after an FP block (R349): its bits and the flags raised. -/
def accFp (c : Word) (d : FVal × BitVec 5) (scale : FVal) : Word × BitVec 5 :=
  let p := roundVal .f32 .rn (d.1.mul scale)
  let r := addRes .f32 .rn (fval .f32 (c.setWidth 64)) (fval .f32 p.bits)
  (r.bits.setWidth 32, d.2 ||| p.flags ||| r.flags)

/-- The accumulator after an integer block (R349). -/
def accInt (c : Word) (d : Int) (sat : Bool) : Word :=
  let x := c.toInt + d
  if sat then BitVec.ofInt 32 (max (-(2 ^ 31)) (min (2 ^ 31 - 1) x)) else BitVec.ofInt 32 x

/-! ### Command words (R348 to R351, R359) -/

def MatCmd.f0 (c : MatCmd) (lo n : Nat) : Nat := c.cmd0.toNat / 2 ^ lo % 2 ^ n
def MatCmd.f1 (c : MatCmd) (lo n : Nat) : Nat := c.cmd1.toNat / 2 ^ lo % 2 ^ n

def MatCmd.aoff (c : MatCmd) : Nat := c.f0 0 21
def MatCmd.boff (c : MatCmd) : Nat := c.f0 21 21
/-- The number of K-blocks. -/
def MatCmd.blocks (c : MatCmd) : Nat := c.f0 42 6 + 1
/-- Planes read (R345). -/
def MatCmd.planes (c : MatCmd) : Nat :=
  if (aFloat c.mod.af).isSome && c.f0 48 4 != 0 then c.f0 48 4 else aPlanes c.mod.af
/-- NR + 1; 1 outside a gathered command. -/
def MatCmd.pool (c : MatCmd) : Nat := if c.mod.mode = .gth then c.f0 56 4 + 1 else 1
def MatCmd.delta (c : MatCmd) : Int := (BitVec.ofNat 8 (c.f1 0 8)).toInt

/-- Word of register `j` of the lane operand block for row or column `n`: lane n mod 32 of register j + n ÷ 32. -/
def MatCmd.operand (c : MatCmd) (j n : Nat) : Word := (c.regs.getD (j + n / 32) (Lanes.all 0)).get n

/-- Entry `m` of a list whose register is `j`: bits 15:0, or 31:16 for rows 32 on (R351). -/
def MatCmd.entry (c : MatCmd) (j m : Nat) : Nat := ((c.regs.getD j (Lanes.all 0)).get m).toNat / 65536 ^ (m / 32) % 65536

def MatCmd.listAt (c : MatCmd) : Nat := if c.mod.sc then 4 else 0

/-- The A row of result row `m`; none for a row of zeros. -/
def MatCmd.src (c : MatCmd) (m : Nat) : Option Nat :=
  if c.mod.mode = .gth then
    (let e := c.entry c.listAt m
    if e = 0xFFFF then none else some e)
  else some m

/-- The tile row of result row `m`; none where it is discarded. -/
def MatCmd.dst (c : MatCmd) (m : Nat) : Option Nat :=
  if c.mod.mode = .gth then
    (let e := c.entry (c.listAt + 1) m
    if e = 0xFFFF then none else some e)
  else some m

/-- Element (m, n) lies above the diagonal of a triangular command (R350). -/
def MatCmd.above (c : MatCmd) (m n : Nat) : Bool := c.mod.mode == .tri && decide (c.delta < (n : Int) - m)

/-- The 16 × 16 sub-tile of (m, n) is not computed (R350). -/
def MatCmd.skipped (c : MatCmd) (m n : Nat) : Bool := c.above (m / 16 * 16 + 15) (n / 16 * 16)

/-- No sub-tile of a pass is computed. -/
def MatCmd.empty (c : MatCmd) : Bool := c.skipped 63 0

/-- The entry of the codebook register, the last of the block (R174, R360). -/
def MatCmd.book (c : MatCmd) (i : Nat) : Nat := ((c.regs.getD (c.mod.regs - 1) (Lanes.all 0)).get i).toNat % 65536

/-- The scale of result element (m, n) in K-block `b` (R348). -/
def MatCmd.scale (c : MatCmd) (b m n : Nat) : FVal :=
  if !c.mod.sc then .fin false 1 0
  else
    let byte := fun (w : Word) (i : Nat) => scaleVal ((w >>> (8 * i)).toNat % 256)
    (byte (c.operand 0 m) (if b < 4 then b else c.f0 52 2)).mul (byte (c.operand 2 n) (if b < 4 then b else c.f0 54 2))

/-- The offset of K-block `b` of A. -/
def MatCmd.aBase (c : MatCmd) (b : Nat) : Nat := c.aoff + b * (c.pool * aSize c.mod.af)

/-- The latch ranges of a command (R355, R360). -/
def MatCmd.aLen (c : MatCmd) : Nat := c.blocks * c.pool * aSize c.mod.af
def MatCmd.bLen (c : MatCmd) : Nat := 64 * c.blocks * bRow c.mod.bf

def MatCmd.latches (c : MatCmd) (ctx : Nat) : List Latch :=
  [⟨ctx, some c.g, c.aoff, c.aLen, false, .command c.id⟩, ⟨ctx, some c.g, c.boff, c.bLen, false, .command c.id⟩]

/-! ### One pass (R346 to R350, R360) -/

/-- The value of element `t` of a tile. -/
def Tile.get (t : Tile) (i : Nat) : Word := ((t.elems.find? (fun x => x.1 == i)).map (·.2)).getD 0

/-- A tile with every element given anew. -/
def Tile.fill (t : Tile) (f : Nat → Word) : Tile :=
  { t with elems := (List.range 4096).filterMap (fun i => if f i = 0 then none else some (i, f i)) }

/-- The result row that accumulates into a tile row. -/
def MatCmd.rowOf (c : MatCmd) (r : Nat) : Option Nat := (List.range 64).find? (fun m => c.dst m == some r)

/-- The new value of tile element (r, n) after K-block `b`, with its flags. -/
def MatCmd.element (c : MatCmd) (sp : Nat → Byte) (b m n : Nat) (old : Word) : Word × BitVec 5 :=
  let bRowAt := fun k => c.boff + (64 * b + k) * bRow c.mod.bf
  if (aFloat c.mod.af).isSome then
    accFp old (blockFp ((List.range 64).map (fun k =>
        ((match c.src m with
          | some r => aValue sp c.mod.af (c.aBase b) c.pool c.planes r k
          | none => .fin false 0 0),
         bValue sp c.mod.bf c.book (bRowAt k) n))))
      (c.scale b m n)
  else
    (accInt old (((List.range 64).map (fun k =>
      (match c.src m with
      | some r => aInt sp c.mod.af (c.aBase b) c.pool r k
      | none => 0) * bInt sp c.mod.bf (bRowAt k) n)).sum) c.mod.sat, 0)

/-- The tile with every target element at zero (R360, ZC). -/
def MatCmd.zeroed (c : MatCmd) (t : Tile) : Tile :=
  if c.mod.zc && c.next == 0 then t.fill (fun i => if (c.rowOf (i / 64)).isSome then 0 else t.get i) else t

/-- The tile after the pass over the command's next K-block. -/
def MatCmd.passOn (c : MatCmd) (sp : Nat → Byte) (t : Tile) : Tile :=
  let out : Nat → Word × BitVec 5 := fun i =>
    match c.rowOf (i / 64) with
    | some m => if c.skipped m (i % 64) then (t.get i, 0) else c.element sp c.next m (i % 64) (t.get i)
    | none => (t.get i, 0)
  let rs := (List.range 4096).map out
  { t with
    elems := (List.range 4096).filterMap (fun i => if (rs.getD i (0, 0)).1 = 0 then none else some (i, (rs.getD i (0, 0)).1))
    flags := rs.foldl (fun f r => f ||| r.2.setWidth 9) t.flags }

/-- The constants above the diagonal (R350). -/
def MatCmd.finishTile (c : MatCmd) (t : Tile) : Tile :=
  if c.mod.mode != .tri then t
  else
    let k : Word := match c.f1 8 2 with
      | 0 => 0
      | 1 => 0xFF800000
      | 2 => 0x7F800000
      | _ => BitVec.ofNat 32 (c.f1 32 32)
    t.fill (fun i => if c.above (i / 64) (i % 64) then k else t.get i)

/-! ### Tiles (R352, R356, R357) -/

def Tile.at_ (t : Tile) (cluster n g : Nat) : Bool := t.cluster == cluster && t.n == n && t.group == g

/-- The tile that a group holds. -/
def State.tile? (s : State) (gr : Group) (n : Nat) : Option Tile :=
  s.tiles.find? (fun t => t.at_ (clusterOf gr.core) n gr.id && !t.drop)

def State.modTile (s : State) (cluster n g : Nat) (f : Tile → Tile) : State :=
  { s with tiles := s.tiles.map (fun t => if t.at_ cluster n g then f t else t) }

/-- No group holds the tile: one that has ended holds it until its commands have completed (R352). -/
def State.tileFree (s : State) (cluster n : Nat) : Bool :=
  !s.tiles.any (fun t => t.cluster == cluster && t.n == n &&
    (match s.group? t.group with
    | some gr => s.occupies gr
    | none => false))

/-- The tile as MXMOV finds it: a fault whose warp is no longer live has become FLT (R357). -/
def State.tileNow (s : State) (t : Tile) : Tile :=
  match t.fault with
  | some f =>
    if ((s.warp? t.group f.warp).map Warp.isLive).getD false then t else { t with flags := t.flags ||| 0x100, fault := none }
  | none => t

/-- The number of a tile operand. -/
def tileNo : Operand → Nat
  | .tile t => t.toNat
  | _ => 0

/-- Tiles to be released whose commands have completed are free (R352). -/
def State.dropTiles (s : State) : State :=
  { s with tiles := s.tiles.filter (fun t => !t.drop ||
      s.commands.any (fun c => c.cluster == t.cluster && c.tile == t.n && c.g == t.group)) }

/-- Every reservation of a group is released once its commands have completed (R352). -/
def State.releaseTiles (s : State) (g : Nat) : State :=
  ({ s with
    tiles := s.tiles.map (fun (t : Tile) => if t.group == g then { t with drop := true } else t)
    tileWaits := s.tileWaits.filter (fun (w : TileWait) => w.g != g) }).dropTiles

/-! ### The key (R353) -/

def State.key? (s : State) (core : Nat) : KeyRing := (s.keys.find? (fun k => k.core == core)).getD ⟨core, [], none, none⟩

def State.setKey (s : State) (k : KeyRing) : State :=
  let rest := s.keys.filter (fun (x : KeyRing) => x.core != k.core)
  { s with keys := if k.members.isEmpty then rest else rest ++ [k] }

/-- A member's place in ring order. -/
def State.ringPlace (s : State) (m : Nat × Nat) : Nat := ((s.group? m.1).map (·.slot)).getD 0 * 64 + m.2

/-- The member with the lowest place. -/
def State.lowestMember (s : State) : List (Nat × Nat) → Option (Nat × Nat)
  | [] => none
  | m :: ms => some (ms.foldl (fun a b => if s.ringPlace b < s.ringPlace a then b else a) m)

/-- The next member after one, in ring order. -/
def State.nextMember (s : State) (k : KeyRing) (me : Nat × Nat) : Option (Nat × Nat) :=
  let others := k.members.filter (· != me)
  (s.lowestMember (others.filter (fun m => decide (s.ringPlace me < s.ringPlace m)))).orElse
    (fun _ => s.lowestMember others)

/-- The key goes in transit to the member after `me`, or becomes free (R353). -/
def State.passKey (s : State) (core : Nat) (me : Nat × Nat) : State :=
  let k := s.key? core
  s.setKey { k with holder := none, transit := s.nextMember k me }

/-- A warp leaves the ring; a key it holds or was to take moves on (R353). -/
def State.leaveRing (s : State) (core : Nat) (me : Nat × Nat) : State :=
  let k := s.key? core
  let s := if k.holder == some me || k.transit == some me then s.passKey core me else s
  let k := s.key? core
  s.setKey { k with members := k.members.filter (· != me) }

/-- Every warp of a group leaves the ring. -/
def State.leaveRings (s : State) (gr : Group) : State :=
  ((s.key? gr.core).members.filter (fun m => m.1 == gr.id)).foldl (fun s m => s.leaveRing gr.core m) s

/-- The key is free (R353). -/
def KeyRing.free (k : KeyRing) : Bool := k.holder.isNone && k.transit.isNone

/-- A member that waits to take a key, and from when. -/
def State.takeSince (s : State) (m : Nat × Nat) : Option (Group × Nat) :=
  match s.group? m.1 with
  | none => none
  | some gr => ((gr.warps[m.2]?).bind (fun w => w.waits.findSome? (fun x =>
      match x.kind with
      | .mkeyTake t => some t
      | _ => none))).map (fun t => (gr, t))

/-- A free key goes to the first TAKE that finds it, of those of one cycle to the oldest warp (R71, R353): the cycle is over, and no
other member that waits comes first. -/
def State.takeFirst (s : State) (gr : Group) (w since : Nat) : Bool :=
  let ask := fun (y : Group) (n t : Nat) => { s.warpAsk y n t with prio := 0 }
  decide (since < s.cycles.toNat) &&
  !((s.key? gr.core).members.any (fun m => m != (gr.id, w) &&
    (match s.takeSince m with
    | some (y, t) => (ask y m.2 t).before s.cycles.toNat (ask gr w since)
    | none => false)))

/-- The key is free, or comes to this warp. -/
def KeyRing.takeable (k : KeyRing) (me : Nat × Nat) : Bool :=
  k.holder == some me || (k.holder.isNone && (k.transit.isNone || k.transit == some me))

/-! ### MMA (R359, R360) -/

/-- The worst of the traps that checks raise (R226). -/
def worstTrap (ts : List (Option Trap)) : Option Trap :=
  ts.foldl (fun a t =>
    match a, t with
    | some x, some y => some (x.worse y)
    | some x, none => some x
    | none, y => y) none

def trapIf (b : Bool) (t : Trap) : Option Trap := if b then some t else none

/-- The lanes of a gathered command's list entries that are not legal (R351). -/
def MatCmd.badLanes (c : MatCmd) : Mask :=
  if c.mod.mode != .gth then 0
  else
    let dsts := (List.range 64).filterMap c.dst
    Mask.of (fun l => [l, l + 32].any (fun m =>
      (match c.src m with
      | some r => decide (64 * c.pool ≤ r)
      | none => false) ||
      (match c.dst m with
      | some r => decide (63 < r) || decide (1 < dsts.count r)
      | none => false)))

/-- A field of the command words that is out of range (R350, R359). -/
def MatCmd.badField (c : MatCmd) : Bool :=
  let p := aPlanes c.mod.af
  let float := (aFloat c.mod.af).isSome
  c.f0 60 4 != 0 || c.f1 10 22 != 0 ||
  (if float then decide (p < c.f0 48 4) else c.f0 48 4 != 0 && c.f0 48 4 != p) ||
  (c.mod.mode == .tri && !float && (c.f1 8 2 == 1 || c.f1 8 2 == 2))

/-- Alignment and bound of ranges of the allocation (R360, R361, R363). -/
def spadRanges (gr : Group) (m : Mask) (rs : List (Nat × Nat)) : List (Option Trap) :=
  rs.map (fun r => trapIf (r.1 % 64 != 0) ⟨.misaligned, m, BitVec.ofNat 64 r.1, 0⟩) ++
  rs.map (fun r => trapIf (decide (gr.image.spad < r.1 + r.2)) ⟨.pageFault, m, BitVec.ofNat 64 r.1, 5⟩)

/-- The command that the warp would post. -/
def WarpView.command (v : WarpView) (m : MmaMod) (a b c : Operand) : MatCmd where
  id := v.s.nextId
  cluster := clusterOf v.gr.core
  tile := tileNo a
  g := v.is.g
  w := v.is.w
  mod := m
  cmd0 := v.r64 false b 0
  cmd1 := v.is.sc.s[(sregNo b + 1) % 64]'(Nat.mod_lt _ (by decide))
  regs := (List.range m.regs).map (fun j => Lanes.of (fun l => v.raw false c j l))
  pc := v.is.pc
  posted := v.s.cycles.toNat
  eligible := false
  since := v.s.cycles.toNat
  next := 0

def warpMma (m : MmaMod) (a b c : Operand) (v : WarpView) : WarpRes :=
  let cmd := v.command m a b c
  let bad := fun (b : Bool) => trapIf b (Trap.plain .illegalOperand v.active)
  if v.active = 0 then .done { st := v.s }
  else
    match worstTrap ([bad ((v.s.key? v.gr.core).holder != some (v.is.g, v.is.w)),
        trapIf (v.active != BitVec.allOnes 32) (.plain .illegalConvergence v.active),
        bad (v.s.tile? v.gr (tileNo a)).isNone, bad cmd.badField,
        trapIf (cmd.badLanes != 0) (.plain .illegalOperand cmd.badLanes)] ++
        spadRanges v.gr v.active [(cmd.aoff, cmd.aLen), (cmd.boff, cmd.bLen)]) with
    | some t => .trap t
    | none =>
      let entries := v.s.commands.filter (fun x => x.cluster == cmd.cluster &&
        ((v.s.group? x.g).map v.s.occupies).getD false)
      let rs := cmd.latches v.gr.ctx
      if 16 ≤ entries.length || !v.s.latchFits rs || v.s.spadBefore v.gr.core v.s.latchWaits then .stall v.s
      else .done { st := { v.s with
        nextId := v.s.nextId + 1
        commands := v.s.commands ++ [cmd]
        latches := v.s.latches ++ rs } }

/-- MMA (R360). -/
def execMma (k : Ctl) (m : MmaMod) (a b c : Operand) (s : State) : Host.Outcome State Fault Refusal :=
  runWarp (.mma k m a b c) (warpMma m a b c) s

/-! ### The engine's steps (R345, R354 to R358) -/

/-- While the context of an ended group was pre-empted another group has taken the tile: the command waits for it. -/
def State.tileTaken (s : State) (c : MatCmd) (gr : Group) : Bool :=
  gr.standing == .ended && s.tiles.any (fun t => t.cluster == c.cluster && t.n == c.tile && t.group != c.g &&
    ((s.group? t.group).map Group.inPlace).getD false)

/-- The commands in a cluster's reservation entries, in posting order. -/
def State.entries (s : State) (cluster : Nat) : List MatCmd :=
  s.commands.filter (fun c => c.cluster == cluster &&
    (match s.group? c.g with
    | some gr => s.occupies gr && s.engineRuns gr.ctx (.matrix cluster) && !s.tileTaken c gr
    | none => false))

def State.modCommand (s : State) (id : Nat) (f : MatCmd → MatCmd) : State :=
  { s with commands := s.commands.map (fun c => if c.id == id then f c else c) }

/-- A command frees its entry and its registrations (R355, R357, R360). -/
def State.freeCommand (s : State) (c : MatCmd) : State :=
  ({ s with
    commands := s.commands.filter (fun (x : MatCmd) => x.id != c.id)
    latches := s.latches.filter (fun (l : Latch) => l.holder != Holder.command c.id) }).dropTiles.reap

/-- COMMAND_ELIGIBLE: 16 cycles after its posting (R345). -/
def execCommandEligible (cluster i : Nat) (s : State) : Host.Outcome State Fault Refusal :=
  finish s (match (s.entries cluster)[i]? with
    | none => s
    | some c =>
      if c.eligible || s.cycles.toNat < c.posted + 16 then s
      else s.modCommand c.id (fun c => { c with eligible := true, since := s.cycles.toNat }))

/-- A command may have the next pass: it is eligible, has a K-block left and is the oldest on its tile (R354). -/
def MatCmd.passable (c : MatCmd) (es : List MatCmd) : Bool :=
  c.eligible && decide (c.next < c.blocks) && !es.any (fun x => x.tile == c.tile && x.g == c.g && decide (x.id < c.id))

/-- A command's request for a pass (R286, R354). -/
def State.passAsk (s : State) (c : MatCmd) : Ask :=
  match s.group? c.g with
  | some gr => s.warpAsk gr c.w c.posted
  | none => ⟨0, c.posted, 0, 0, 0, 0⟩

/-- The tile of a command. -/
def State.commandTile (s : State) (c : MatCmd) : Option Tile := s.tiles.find? (fun t => t.at_ c.cluster c.tile c.g)

/-- A malformed image: the fault waits on the tile for the issuing warp, or FLT is set (R357). -/
def State.malformed (s : State) (c : MatCmd) (t : Tile) (addr : Nat) : State :=
  let live := ((s.warp? c.g c.w).map Warp.isLive).getD false
  let t' := s.tileNow t
  (s.modTile c.cluster c.tile c.g (fun _ =>
    if t'.fault.isSome || !live then { t' with flags := t'.flags ||| 0x100 }
    else { t' with fault := some ⟨c.w, addr⟩ })).freeCommand c

/-- The pass of a command over its next K-block (R346, R357, R360). -/
def State.pass (s : State) (c : MatCmd) : State :=
  match s.group? c.g, s.commandTile c with
  | some gr, some t =>
    let sp := cellGet gr.x.spad
    let t := c.zeroed t
    match (if c.empty then none else badExp sp c.mod.af (c.aBase c.next) c.pool) with
    | some a => (s.modTile c.cluster c.tile c.g (fun _ => t)).malformed c t a
    | none =>
      (s.modTile c.cluster c.tile c.g (fun _ => if c.empty then t else c.passOn sp t)).modCommand c.id
        (fun c => { c with next := c.next + 1, since := s.cycles.toNat }) |> fun s =>
          if c.empty then s else { s with passed := countSet s.passed c.cluster s.cycles.toNat }
  | _, _ => s

/-- The cycles of a pass (R345, R350). -/
def MatCmd.cycles (c : MatCmd) : Nat := if c.empty then 0 else c.planes

/-- The arbiter chooses this command among those that may have a pass (R286, R354). -/
def State.passFirst (s : State) (es : List MatCmd) (c : MatCmd) : Bool :=
  (es.filter (fun x => x.passable es)).all (fun x => x.id == c.id ||
    (s.passAsk c).before s.cycles.toNat (s.passAsk x) ||
    (!(s.passAsk x).before s.cycles.toNat (s.passAsk c) && decide (c.id ≤ x.id)))

/-- The cycle in which the cluster's latest pass ended, or the one since which the command waits (R345). -/
def State.passFrom (s : State) (c : MatCmd) : Nat := max (countAt s.passed c.cluster) c.since

/-- MATRIX_PASS: the command that the arbiter chooses has a whole pass (R346, R354), which ends no earlier than its cycles
after the cluster's latest pass. -/
def execMatrixPass (cluster i : Nat) (s : State) : Host.Outcome State Fault Refusal :=
  let es := s.entries cluster
  finish s (match es[i]? with
    | none => s
    | some c =>
      if !c.passable es || !s.passFirst es c || s.cycles.toNat < s.passFrom c + c.cycles then s
      else if s.spadBusy c.g c.aoff c.aLen || s.spadBusy c.g c.boff c.bLen then s
      else s.pass c)

/-- MATRIX_COMMAND_COMPLETE: 8 cycles after the last pass (R345, R350, R360). -/
def execMatrixCommandComplete (cluster i : Nat) (s : State) : Host.Outcome State Fault Refusal :=
  finish s (match (s.entries cluster)[i]? with
    | none => s
    | some c =>
      if c.next < c.blocks || s.cycles.toNat < c.since + 8 then s
      else (s.modTile c.cluster c.tile c.g c.finishTile).freeCommand c)

/-! ### MXMOV (R361) -/

/-- There are commands that MXMOV of warp `w` on a tile waits for (R355). -/
def State.unjoined (s : State) (gr : Group) (w n : Nat) : Bool :=
  let taken := ((gr.x.takes.find? (fun t => t.1 == w)).map (·.2)).getD 0
  s.commands.any (fun c => c.cluster == clusterOf gr.core && c.tile == n && c.g == gr.id && (c.w == w || decide (c.id < taken)))

/-- The fault pending on a tile for the warp (R357). -/
def WarpView.tileFault (v : WarpView) (n : Nat) : Option (Tile × Trap) :=
  match (v.s.tile? v.gr n).map v.s.tileNow with
  | none => none
  | some t => (t.fault.filter (fun f => f.warp == v.is.w)).map (fun f =>
      (t, ⟨.engineFault, BitVec.allOnes 32, BitVec.ofNat 64 f.addr, 6⟩))

/-- What every form of MXMOV has in common: it first waits, and its checks and a fault pending on the tile come before its effect
(R226, R357, R361). -/
def WarpView.move (v : WarpView) (n : Nat) (all : Bool) (checks : List (Option Trap)) (eff : Tile → WarpRes) : WarpRes :=
  if v.active = 0 then .done { st := v.s }
  else if v.s.unjoined v.gr v.is.w n then (if v.inStub then .stall v.s else .wait v.s (.joinTile n))
  else
    match worstTrap ([trapIf (all && v.active != BitVec.allOnes 32) (Trap.plain .illegalConvergence v.active),
        trapIf (v.s.tile? v.gr n).isNone (Trap.plain .illegalOperand v.active)] ++ checks), v.tileFault n with
    | some t, some (x, f) =>
      if (t.worse f).cause = .engineFault then .fault (v.s.modTile x.cluster n v.is.g (fun _ => { x with fault := none })) f
      else .trap t
    | some t, none => .trap t
    | none, some (x, f) => .fault (v.s.modTile x.cluster n v.is.g (fun _ => { x with fault := none })) f
    | none, none => ((v.s.tile? v.gr n).map v.s.tileNow).elim (.stall v.s) eff

/-- The state with the tile changed. -/
def WarpView.setTile (v : WarpView) (t : Tile) : State := v.s.modTile t.cluster t.n v.is.g (fun _ => t)

/-- Chunk j of a tile: row j ÷ 2, columns 32 × (j mod 2) on. -/
def WarpView.chunk (v : WarpView) (c : Operand) : Nat :=
  match c with
  | .imm x => x.toNat
  | _ => (v.raw false c 0 0).toNat % 128

/-- MXMOV.RD (R361). -/
def execMxmovRd (k : Ctl) (a b c : Operand) (s : State) : Host.Outcome State Fault Refusal :=
  runWarp (.mxmovRd k a b c) (fun v =>
    v.move (tileNo b) false [] (fun t =>
      .done { st := v.setTile t, writes := v.w32 a (fun l => t.get (32 * v.chunk c + l)) })) s

/-- MXMOV.WR (R361). -/
def execMxmovWr (k : Ctl) (a b c : Operand) (s : State) : Host.Outcome State Fault Refusal :=
  runWarp (.mxmovWr k a b c) (fun v =>
    v.move (tileNo a) false [] (fun t =>
      .done { st := v.setTile (t.fill (fun i =>
        if i / 32 = v.chunk c && v.active.has (i % 32) then v.r32 false b (i % 32) else t.get i)) })) s

/-- The offset operand of MXMOV.ST, MXMOV.LD and PLANE. -/
def WarpView.offset (v : WarpView) (o : Operand) (bits : Nat) : Nat := (v.r64 false o 0).toNat % 2 ^ bits

/-- The latch table's check of a range of the scratchpad (R97). -/
def WarpView.rangeTrap (v : WarpView) (lo len : Nat) (store : Bool) : Option Trap :=
  trapIf (v.s.locked v.gr.ctx (some v.gr.id) v.gr.id lo len store) ⟨.rangeLocked, v.active, BitVec.ofNat 64 lo, 0⟩

/-- A word as MXMOV.ST writes it, and the flags raised. -/
def mxConvert (cv : MxCv) (w : Word) : List Byte × BitVec 5 :=
  match cv with
  | .f32 => (leBytes 4 w.toNat, 0)
  | .bf16 =>
    let r := roundVal .bf16 .rn (fval .f32 (w.setWidth 64))
    (leBytes 2 r.bits.toNat, r.flags)
  | .f16 =>
    let r := roundVal .f16 .rn (fval .f32 (w.setWidth 64))
    (leBytes 2 r.bits.toNat, r.flags)

/-- MXMOV.ST (R361). -/
def execMxmovSt (k : Ctl) (cv : MxCv) (fe : Bool) (a b : Operand) (s : State) : Host.Outcome State Fault Refusal :=
  runWarp (.mxmovSt k cv fe a b) (fun v =>
    let off := v.offset b 64
    let n := if cv = .f32 then 16384 else 8192
    v.move (tileNo a) true (spadRanges v.gr v.active [(off, n)] ++ [v.rangeTrap off n true]) (fun t =>
      let out := (List.range 4096).map (fun i => mxConvert cv (t.get i))
      let full := if fe then (List.range (n / 16)).map (fun j => off / 16 + j) else []
      let fl := out.foldl (fun f x => f ||| x.2) 0
      .done { st := (v.setTile t).issueSpad v.gr v.agent (cellsAt off (out.flatMap (·.1))) full [],
              flags := if fl = 0 then [] else [Lanes.all fl] })) s

/-- MXMOV.LD (R361). -/
def execMxmovLd (k : Ctl) (a b : Operand) (s : State) : Host.Outcome State Fault Refusal :=
  runWarp (.mxmovLd k a b) (fun v =>
    let off := v.offset b 64
    v.move (tileNo a) true (spadRanges v.gr v.active [(off, 16384)] ++ [v.rangeTrap off 16384 false]) (fun t =>
      match spadLoad v.gr v.w.stores 16384 (0, off) with
      | none => .stall v.s
      | some (_, x) => .done { st := v.setTile (t.fill (fun i => BitVec.ofNat 32 (x / 2 ^ (32 * i)))) })) s

/-- MXMOV.ZERO (R361). -/
def execMxmovZero (k : Ctl) (a : Operand) (s : State) : Host.Outcome State Fault Refusal :=
  runWarp (.mxmovZero k a) (fun v =>
    v.move (tileNo a) true [] (fun t => .done { st := v.setTile { t with elems := [], flags := 0 } })) s

/-- MXMOV.FLG (R361). -/
def execMxmovFlg (k : Ctl) (a b : Operand) (s : State) : Host.Outcome State Fault Refusal :=
  runWarp (.mxmovFlg k a b) (fun v =>
    v.move (tileNo b) true [] (fun t =>
      .done { st := v.setTile { t with flags := 0 }, writes := v.w32 a (fun _ => t.flags.setWidth 32) })) s

/-! ### MKEY (R362) -/

/-- The form of MKEY: every live lane, outside a divergent region. -/
def WarpView.key (v : WarpView) (eff : WarpRes) : WarpRes :=
  if v.active = 0 then .done { st := v.s }
  else if !v.is.queued || v.active != v.w.liveMask then .trap (.plain .illegalConvergence v.active)
  else eff

def WarpView.me (v : WarpView) : Nat × Nat := (v.is.g, v.is.w)

/-- MKEY.JOIN (R362). -/
def execMkeyJoin (k : Ctl) (s : State) : Host.Outcome State Fault Refusal :=
  runWarp (.mkeyJoin k) (fun v => v.key (
    let r := v.s.key? v.gr.core
    if r.members.contains v.me then .done { st := v.s }
    else .done { st := v.s.setKey { r with members := r.members ++ [v.me] } })) s

/-- The cycle in which the warp's TAKE found it had to wait. -/
def WarpView.takeAsked (v : WarpView) : Option Nat :=
  match v.prior with
  | some (.mkeyTake t) => some t
  | _ => none

/-- A free key is not taken before the requests of the cycle are known; on a determined core, whose warps act one after another, and in a
stub, which may not wait, the first takes it (R353). -/
def WarpView.takeNow (v : WarpView) : Bool :=
  !(v.s.key? v.gr.core).free || v.s.coreDetermined v.gr.core || v.inStub || v.takeAsked.isSome

/-- MKEY.TAKE (R362): the commands posted so far are joined from now on (R355). -/
def execMkeyTake (k : Ctl) (s : State) : Host.Outcome State Fault Refusal :=
  runWarp (.mkeyTake k) (fun v => v.key (
    let r := v.s.key? v.gr.core
    if !r.members.contains v.me then .trap (.plain .illegalOperand v.active)
    else if !r.takeable v.me || !v.takeNow then .wait v.s (.mkeyTake (v.takeAsked.getD v.s.cycles.toNat))
    else .done { st := (v.s.setKey { r with holder := some v.me, transit := none }).modX v.is.g (fun x =>
      { x with takes := (v.is.w, v.s.nextId) :: x.takes.filter (fun (t : Nat × Nat) => t.1 != v.is.w) }) })) s

/-- MKEY.PASS (R362). -/
def execMkeyPass (k : Ctl) (s : State) : Host.Outcome State Fault Refusal :=
  runWarp (.mkeyPass k) (fun v => v.key (
    if (v.s.key? v.gr.core).holder != some v.me then .trap (.plain .illegalOperand v.active)
    else .done { st := v.s.passKey v.gr.core v.me })) s

/-- MKEY.LEAVE (R362). -/
def execMkeyLeave (k : Ctl) (s : State) : Host.Outcome State Fault Refusal :=
  runWarp (.mkeyLeave k) (fun v => v.key (
    if (v.s.key? v.gr.core).members.contains v.me then .done { st := v.s.leaveRing v.gr.core v.me }
    else .done { st := v.s })) s

/-- A waiting RSV could have its tile: it is free, and U_ACCT allows it (R362). -/
def State.rsvOpen (s : State) (gr : Group) (n : Nat) : Bool :=
  s.tileFree (clusterOf gr.core) n && s.fits gr.ctx gr.home .uAcct .bAcct 1

/-- Another warp that waits for the tile and could have it comes first (R286, R362). -/
def State.rsvAfter (s : State) (gr : Group) (w n since : Nat) : Bool :=
  s.tileWaits.any (fun x => x.cluster == clusterOf gr.core && x.tile == n && !(x.g == gr.id && x.w == w) &&
    (match s.group? x.g with
    | some y => s.rsvOpen y n && (s.warpAsk y x.w x.since).before s.cycles.toNat (s.warpAsk gr w since)
    | none => false))

/-- The cycle from which a warp's RSV waits; none where it does not. -/
def State.rsvSince (s : State) (gr : Group) (w n : Nat) : Option Nat :=
  (s.tileWaits.find? (fun x => x.cluster == clusterOf gr.core && x.tile == n && x.g == gr.id && x.w == w)).map (·.since)

def State.dropWait (s : State) (g w : Nat) : State :=
  { s with tileWaits := s.tileWaits.filter (fun (x : TileWait) => !(x.g == g && x.w == w)) }

/-- MKEY.RSV (R352, R362). -/
def execMkeyRsv (k : Ctl) (a : Operand) (s : State) : Host.Outcome State Fault Refusal :=
  runWarp (.mkeyRsv k a) (fun v => v.key (
    let n := tileNo a
    let cl := clusterOf v.gr.core
    let since := (v.s.rsvSince v.gr v.is.w n).getD v.s.cycles.toNat
    if (v.s.tile? v.gr n).isSome then .done { st := v.s.dropWait v.is.g v.is.w }
    else if !v.s.rsvOpen v.gr n || v.s.rsvAfter v.gr v.is.w n since then
      (let t := v.s.dropWait v.is.g v.is.w
      .wait { t with tileWaits := t.tileWaits ++ [⟨cl, n, v.is.g, v.is.w, since⟩] } (.mkeyRsv n))
    else
      let t := v.s.dropWait v.is.g v.is.w
      .done { st := { t with tiles := t.tiles ++ [⟨cl, n, v.is.g, [], 0, none, false⟩] } })) s

/-- MKEY.REL (R362). -/
def execMkeyRel (k : Ctl) (a : Operand) (s : State) : Host.Outcome State Fault Refusal :=
  runWarp (.mkeyRel k a) (fun v => v.key (
    let n := tileNo a
    let cl := clusterOf v.gr.core
    if (v.s.tile? v.gr n).isNone then .trap (.plain .illegalOperand v.active)
    else if v.s.commands.any (fun c => c.cluster == cl && c.tile == n && c.g == v.is.g) then .stall v.s
    else .done { st := { v.s with tiles := v.s.tiles.filter (fun (t : Tile) => !t.at_ cl n v.is.g) } })) s

/-! ### PLANE (R363) -/

/-- An FP element of a source row as an image holds it: sign, planes from plane 0, E′, and whether it is a signalling NaN. -/
def planeFp (f : Fmt) (x : Nat) : Bool × (Nat → Bool) × Nat × Bool :=
  let fb := fmtF f
  let sign := decide (2 ^ (fmtE f + fb) ≤ x)
  let be := x / 2 ^ fb % 2 ^ fmtE f
  match fval f (BitVec.ofNat 64 x) with
  | .nan s => (false, fun j => j == 0, 255, s)
  | .inf s => (s, fun _ => false, 255, false)
  | .fin .. => (sign, fun j => if j = 0 then be != 0 else x.testBit (fb - j), max be 1 + 127 - fmtBias f, false)

/-- The bits of source element (i, k) of PLANE. -/
def planeSource (f : AFmt) (sp : Nat → Byte) (src i k : Nat) : Nat :=
  let row := src + i * planeRow f
  match planeRow f with
  | 128 => (sp (row + 2 * k)).toNat + 256 * (sp (row + 2 * k + 1)).toNat
  | 64 => (sp (row + k)).toNat
  | _ => (sp (row + k / 2)).toNat / 16 ^ (k % 2) % 16

/-- A byte of eight plane bits. -/
def packBits (f : Nat → Bool) : Byte := (List.range 8).foldl (fun b i => if f i then b ||| BitVec.twoPow 8 i else b) 0

/-- One plane of an image of `rows` rows. -/
def planeBytes (rows : Nat) (bit : Nat → Nat → Bool) : List Byte :=
  (List.range rows).flatMap (fun m => (List.range 8).map (fun j => packBits (fun i => bit m (8 * j + i))))

/-- The image that PLANE writes (R342, R363). -/
def planeImage (f : AFmt) (q : Nat) (sp : Nat → Byte) (src : Nat) : List Byte :=
  let x := fun m k => planeSource f sp src m k
  match aFloat f with
  | some ff =>
    planeBytes (64 * q) (fun m k => (planeFp ff (x m k)).1) ++
    (List.range (aPlanes f)).flatMap (fun j => planeBytes (64 * q) (fun m k => (planeFp ff (x m k)).2.1 j)) ++
    (List.range (64 * q)).flatMap (fun m => (List.range 64).map (fun k => BitVec.ofNat 8 (planeFp ff (x m k)).2.2.1))
  | none => (List.range (aPlanes f)).flatMap (fun j => planeBytes (64 * q) (fun m k => (x m k).testBit (aPlanes f - 1 - j)))

/-- Some source element is a signalling NaN. -/
def planeSignals (f : AFmt) (q : Nat) (sp : Nat → Byte) (src : Nat) : Bool :=
  match aFloat f with
  | some ff => (List.range (64 * q)).any (fun m => (List.range 64).any (fun k => (planeFp ff (planeSource f sp src m k)).2.2.2))
  | none => false

def warpPlane (f : AFmt) (nr : BitVec 4) (b c : Operand) (v : WarpView) : WarpRes :=
  let q := nr.toNat + 1
  let dst := v.offset b 21
  let src := v.offset c 21
  let n := q * aSize f
  let m := 64 * q * planeRow f
  if v.active = 0 then .done { st := v.s }
  else
    match worstTrap ([trapIf (v.active != BitVec.allOnes 32) (.plain .illegalConvergence v.active)] ++
        spadRanges v.gr v.active [(dst, n), (src, m)]) with
    | some t => .trap t
    | none =>
      match spadLoad v.gr v.w.stores m (0, src) with
      | none => .stall v.s
      | some (_, x) =>
        let sp := fun (i : Nat) => BitVec.ofNat 8 (x / 2 ^ (8 * (i - src)))
        let odd := if f = .t5 then (List.range m).find? (fun i => !([0, 1, 255] : List Nat).contains (sp (src + i)).toNat) else none
        match worstTrap [odd.map (fun i => ⟨.illegalOperand, v.active, BitVec.ofNat 64 (src + i), 0⟩),
            v.rangeTrap src m false, v.rangeTrap dst n true] with
        | some t => .trap t
        | none =>
          .done { st := v.s.issueSpad v.gr v.agent (cellsAt dst (planeImage f q sp src)) [] [],
                  flags := if planeSignals f q sp src then [Lanes.all flagNV] else [] }

/-- PLANE (R363). -/
def execPlane (k : Ctl) (af : AFmt) (nr : BitVec 4) (b c : Operand) (s : State) : Host.Outcome State Fault Refusal :=
  runWarp (.plane k af nr b c) (warpPlane af nr b c) s

end Sys2Proof.Machine
end

