-- ==== Sys2Proof/Machine/Image.lean ====
section
/-! DEFINITION. The context image (R236 to R240, R338, R358, R380, R274): its header and blocks, the coding of a payload and its
decoding, and what pre-emption saves of a group (R82). -/

namespace Sys2Proof.Machine

open Sys2Proof

/-! ### Coding (R239) -/

/-- A literal token of at most 64 words. -/
def literalToken (ws : List Word) : List Byte :=
  if ws.isEmpty then [] else BitVec.ofNat 8 (0x80 + (ws.length - 1)) :: ws.flatMap (fun w => leBytes 4 w.toNat)

/-- Words as the device codes them: zero runs, repeats of two or more, and literals; `lit` are the literal words that have no
token yet. -/
def codeFrom : Nat → List Word → List Word → List Byte
  | 0, _, lit => literalToken lit
  | _ + 1, [], lit => literalToken lit
  | n + 1, w :: ws, lit =>
    let k := min 64 (1 + (ws.takeWhile (· == w)).length)
    if w = 0 then literalToken lit ++ BitVec.ofNat 8 (k - 1) :: codeFrom n (ws.drop (k - 1)) []
    else if 2 ≤ k then
      literalToken lit ++ BitVec.ofNat 8 (0x40 + (k - 1)) :: leBytes 4 w.toNat ++ codeFrom n (ws.drop (k - 1)) []
    else if 63 ≤ lit.length then literalToken (lit ++ [w]) ++ codeFrom n ws []
    else codeFrom n ws (lit ++ [w])

def codeWords (ws : List Word) : List Byte := codeFrom (ws.length + 1) ws []

/-- The words of a run of bytes, little-endian. -/
def wordsOf : Nat → List Byte → List Word
  | 0, _ => []
  | n + 1, bs => BitVec.ofNat 32 (leNat (bs.take 4)) :: wordsOf n (bs.drop 4)

/-- The words of any valid sequence of tokens; none where a token is refused or cut short. -/
def decodeTokens : Nat → List Byte → Option (List Word)
  | _, [] => some []
  | 0, _ :: _ => none
  | n + 1, t :: bs =>
    let k := t.toNat % 64 + 1
    match t.toNat / 64 with
    | 0 => (decodeTokens n bs).map (fun l => List.replicate k 0 ++ l)
    | 1 => if bs.length < 4 then none
        else (decodeTokens n (bs.drop 4)).map (fun l => List.replicate k (BitVec.ofNat 32 (leNat (bs.take 4))) ++ l)
    | 2 => if bs.length < 4 * k then none else (decodeTokens n (bs.drop (4 * k))).map (fun l => wordsOf k bs ++ l)
    | _ => none

/-- A payload decodes to its length. -/
def payloadOk (raw : Nat) (coded : List Byte) : Bool :=
  match decodeTokens coded.length coded with
  | some ws => 4 * ws.length == raw
  | none => false

/-! ### Blocks (R237) -/

/-- Bytes padded with zeros to a multiple of `n`. -/
def padTo (n : Nat) (bs : List Byte) : List Byte := bs ++ List.replicate ((n - bs.length % n) % n) 0

/-- A block: type, unit, owner and payload. -/
structure ImageBlock where
  type : Nat
  unit : Nat
  slot : Nat
  warp : Nat
  payload : List Byte

def ImageBlock.bytes (b : ImageBlock) : List Byte :=
  let raw := padTo 4 b.payload
  let coded := codeWords (wordsOf (raw.length / 4) raw)
  leBytes 2 b.type ++ leBytes 2 b.unit ++ leBytes 4 raw.length ++ leBytes 4 coded.length ++
    leBytes 4 (b.slot % 16 + b.warp % 32 * 16) ++ padTo 16 coded

/-- The lanes of a register. -/
def laneBytes (v : Lanes Word) : List Byte := (laneNumbers.map (fun l => leBytes 4 (v.get l).toNat)).flatten

def laneMap (n : Nat) (f : Nat → Nat) : List Byte := (laneNumbers.map (fun l => leBytes n (f l))).flatten

def scalarBytes (x : Scalars) : List Byte := (x.s.toList.map (fun r => leBytes 8 r.toNat)).flatten ++ leBytes 2 x.c.toNat

def flagNat (b : Bool) (n : Nat) : Nat := if b then n else 0

/-! ### Hall and warps (R82, R237, R238) -/

/-- An entry of the decision queue. -/
def entryBytes (e : Entry) : List Byte :=
  leBytes 4 e.pc.toNat ++ leBytes 12 (((encode e.instr).map BitVec.toNat).getD 0) ++ scalarBytes e.scalars ++
    leBytes 2 (flagNat e.guard 1 + flagNat e.meet.isSome 2 + flagNat e.link.isSome 4) ++
    leBytes 4 ((e.meet.getD 0).toNat) ++ leBytes 4 ((e.link.getD 0).toNat)

/-- The Hall block. -/
def Group.hallBlock (gr : Group) : ImageBlock :=
  let h := gr.hall
  let left := gr.prune.queue
  ⟨1, 0, gr.slot, 0,
    scalarBytes h.sc ++ leBytes 2 (flagNat h.meetPtr.isSome 1) ++ leBytes 4 (h.meetPtr.getD 0).toNat ++ leBytes 4 gr.links.length ++
    (gr.links.map (fun w => leBytes 4 w.toNat)).flatten ++ leBytes 4 h.dist ++
    List.replicate 32 0 ++ leBytes 8 h.sinceS.toNat ++ leBytes 2 0 ++ leBytes 2 h.sinceC.toNat ++
    leBytes 4 h.pc.toNat ++ leBytes 4 left.length ++ (left.map entryBytes).flatten ++
    (gr.warps.map (fun w => leBytes 4 (w.rp - gr.prune.queueBase))).flatten⟩

/-- The safe-point entry of a thread's record, as it stands in memory now. -/
def State.recordBytes (s : State) (gr : Group) (t : Thread) : List Byte :=
  match t.record with
  | none => List.replicate 64 0
  | some n =>
    match (s.safePoint gr n).2 with
    | .ok b => b
    | .error _ => List.replicate 64 0

/-- VLIVE and PLIVE, SLIVE and CLIVE of the records of a warp's threads. -/
def State.liveSets (s : State) (gr : Group) (w : Warp) : BitVec 256 × BitVec 16 × BitVec 64 × BitVec 16 :=
  (Mask.lanes w.liveMask).foldl
    (fun m l =>
      let b := s.recordBytes gr (w.threads.get l)
      (m.1 ||| BitVec.ofNat 256 (blockN b 0 32), m.2.1 ||| BitVec.ofNat 16 (blockN b 40 2),
        m.2.2.1 ||| BitVec.ofNat 64 (blockN b 32 8), m.2.2.2 ||| BitVec.ofNat 16 (blockN b 42 2)))
    (0, 0, 0, 0)

/-- The vector registers and predicates that are saved of a warp (R79, R82): its paths' VLIVE and PLIVE, what has been written since,
and what has a physical register. -/
def State.savedSet (s : State) (gr : Group) (w : Warp) : BitVec 256 × BitVec 16 :=
  let (v, p, _, _) := s.liveSets gr w
  let held := w.regs.foldl (fun (m : BitVec 256) r => if r.1 < 256 then m ||| BitVec.twoPow 256 r.1 else m) 0
  (v ||| w.sinceV ||| held, p ||| w.sinceP)

/-- The warp block (R238). A thread whose rebuild stub is still to run stands at its resume PC. -/
def Group.warpBlock (gr : Group) (set : BitVec 256 × BitVec 16) (n : Nat) (w : Warp) : ImageBlock :=
  let th := fun l => w.threads.get l
  let at_ := fun l => if (th l).stub then ((th l).stubPc, (th l).stubMeet) else ((th l).pc, (th l).meet)
  let k := w.regs.filter (fun r => decide (256 ≤ r.1))
  let inHandler := w.handler.isSome
  ⟨2, n, gr.slot, n,
    leBytes 32 set.1.toNat ++ leBytes 8 0 ++ leBytes 2 set.2.toNat ++ leBytes 2 0 ++ leBytes 4 (flagNat inHandler 1 + flagNat w.region.isSome 2) ++
    (laneNumbers.map (fun l => leBytes 4 (at_ l).1.toNat ++ leBytes 4 (at_ l).2.toNat ++ leBytes 4 ((th l).record.getD 0xFFFFFFFF))).flatten ++
    laneMap 4 (fun l => (th l).dist % 4096 + flagNat (th l).held (2 ^ 30) + flagNat (th l).live (2 ^ 31)) ++
    laneMap 2 (fun l => (th l).preds.toNat) ++ laneMap 1 (fun l => (th l).flags.toNat) ++
    leBytes 1 w.rm.toNat ++ leBytes 1 w.cause.toNat ++ leBytes 1 w.cinfoKind.toNat ++ leBytes 1 (gr.vslot.getD gr.slot) ++
    leBytes 4 w.sfuslow.toNat ++ leBytes 4 w.cinfoMask.toNat ++ leBytes 4 w.retired.toNat ++ leBytes 8 w.cinfoAddr.toNat ++
    (if inHandler then leBytes 4 w.epc.toNat ++ leBytes 4 w.emask.toNat ++
      (laneNumbers.map (fun l => leBytes 4 (th l).keptPc.toNat ++ leBytes 4 (th l).keptMeet.toNat)).flatten else []) ++
    (((List.range 256).filter (fun r => set.1.getLsbD r)).map (fun r => laneBytes (gr.reg n r))).flatten ++
    (if inHandler then
      leBytes 4 (k.foldl (fun (m : Word) r => m ||| BitVec.twoPow 32 (r.1 - 256)) 0).toNat ++ (k.map (fun r => laneBytes r.2)).flatten
    else [])⟩

/-- A barrier with each warp's token (R76, R241). -/
def Group.barrierBlock (gr : Group) (n : Nat) (b : Barrier) : ImageBlock :=
  ⟨3, n, gr.slot, 0, leBytes 4 b.expected ++ leBytes 4 b.arrived.toNat ++ leBytes 4 b.gen.toNat ++
    (gr.warps.map (fun w => match w.tokens.find? (fun t => t.1 == n) with
      | some t => leBytes 4 (t.2.toNat + 2 ^ 16)
      | none => leBytes 4 0)).flatten⟩

/-- A shared range (R74). -/
def Group.sharedBlock (gr : Group) (n : Nat) (r : SharedRange) : ImageBlock :=
  ⟨4, n, gr.slot, r.warpA, leBytes 1 r.warpA ++ leBytes 1 r.warpB ++ leBytes 1 (flagNat r.onA 1 + flagNat r.onB 2) ++ leBytes 1 r.regs.length ++
    leBytes 4 r.first ++ leBytes 4 (((r.full.zipIdx).map (fun x => flagNat x.1 (2 ^ x.2))).sum) ++ (r.regs.map laneBytes).flatten⟩

/-- A dirty unit of the scratchpad (R240): its bytes, then its granules. -/
def Group.spadBlock (gr : Group) (u : Nat) : ImageBlock :=
  ⟨5, u, gr.slot, 0, cellBytes gr.x.spad (4096 * u) 4096 ++ (List.range 32).map (fun i =>
    BitVec.ofNat 8 (((List.range 8).map (fun b => flagNat (gr.x.full.contains (256 * u + 8 * i + b)) (2 ^ b))).sum))⟩

/-! ### Access processor, matrix engine, Stair and latches (R338, R358, R274, R380) -/

def slotCode : SlotState → Nat
  | .pending => 1
  | .full => 2
  | .poisoned => 3

/-- A mapped queue (R338); the block of a program's lowest queue carries the program's state. -/
def Group.queueBlock (gr : Group) (k : ApQueue) : ImageBlock :=
  let p := gr.program? k.program
  let first := (gr.x.queues.filter (fun q => q.program == k.program)).all (fun q => decide (k.name ≤ q.name))
  let state := match p with
    | some p => p.code
    | none => 0
  ⟨6, k.name, gr.slot, 0,
    leBytes 4 (flagNat k.isStore 1 + state % 8 * 2 + flagNat first 16) ++ leBytes 4 (k.slots.length * 256) ++
    (k.slots.map (fun e => leBytes 4 (slotCode e.state) ++ leBytes 4 e.mask.toNat ++ laneBytes e.words)).flatten ++
    (match p, first with
    | some p, true =>
      let f := p.fault.getD (⟨.queueFault, 0, 0, 0⟩, 0)
      leBytes 8 f.1.addr.toNat ++ leBytes 4 f.1.mask.toNat ++
        leBytes 4 (if p.fault.isSome then f.1.cause.code + f.1.kind.toNat * 256 else 0) ++ leBytes 4 p.pc.toNat ++
        leBytes 4 (p.loads.toNat + p.stores.toNat * 256) ++ leBytes 2 (p.tokens + p.late) ++ leBytes 2 p.sc.c.toNat ++
        (p.sc.s.toList.map (fun r => leBytes 8 r.toNat)).flatten
    | _, _ => [])⟩

/-- FN of an MMA. -/
def mmaFn (m : MmaMod) : Nat :=
  match (Instr.mma ⟨⟨false, false, 0⟩, false, false, false, 0⟩ m .unused .unused .unused).fields with
  | some f => f.fn.toNat
  | none => 0

/-- A command of a tile, 1,024 bytes (R358). -/
def MatCmd.bytes (c : MatCmd) : List Byte :=
  (leBytes 8 c.cmd0.toNat ++ leBytes 8 c.cmd1.toNat ++ leBytes 4 (mmaFn c.mod + c.w % 32 * 2 ^ 16) ++ leBytes 4 c.next ++
    (c.regs.map laneBytes).flatten ++ List.replicate 1024 (0 : Byte)).take 1024

/-- A reserved tile with its commands. -/
def State.tileBlock (s : State) (slot : Nat) (t : Tile) : ImageBlock :=
  let t := s.tileNow t
  let cs := s.commands.filter (fun c => c.cluster == t.cluster && c.tile == t.n && c.g == t.group)
  ⟨7, t.n, slot, 0,
    leBytes 4 t.flags.toNat ++ leBytes 4 (slot % 16 + ((t.fault.map (·.warp)).getD 0x1F) * 256) ++
    ((List.range 4096).map (fun i => leBytes 4 (t.get i).toNat)).flatten ++ leBytes 4 cs.length ++ (cs.map MatCmd.bytes).flatten⟩

/-- The tiles that a group has reserved; one that has ended still has them while its commands run (R352, R358). -/
def State.tileBlocks (s : State) (gr : Group) : List ImageBlock :=
  (s.tiles.filter (fun t => t.group == gr.id)).map (s.tileBlock gr.slot)

/-- The members of a ring that are of one group. -/
def ringBlock (gr : Group) (k : KeyRing) : ImageBlock :=
  let mine := fun (m : Option (Nat × Nat)) => match m with
    | some (g, w) => if g = gr.id then w else 0xFF
    | none => 0xFF
  ⟨7, 0xFFFF, gr.slot, 0,
    leBytes 4 ((k.members.filter (fun m => m.1 == gr.id)).foldl (fun (x : Word) m => x ||| BitVec.twoPow 32 m.2) 0).toNat ++
    leBytes 1 (mine k.holder) ++ leBytes 1 (mine k.transit) ++ [0, 0]⟩

def boundBytes (b : Bound) : List Byte := leBytes 4 ((BitVec.ofInt 32 b.k).toNat)

/-- A live nest (R274); a released task's number stands in its entry's row. -/
def State.nestBlock (s : State) (n : Nest) : ImageBlock :=
  let cut := match s.rcb? n.ctx n.rcb with
    | some r => s.rcut r
    | none => false
  let binder := s.group? n.binder
  let i32 := fun (x : Int) => leBytes 4 (BitVec.ofInt 32 x).toNat
  let waiting := (s.groups.filter (fun gr => gr.id == n.binder)).any (fun gr => gr.x.joinFaults.any (fun f => f.rcbs.contains n.rcb))
  ⟨8, n.handle, 0, 0,
    leBytes 8 n.rcb ++ leBytes 4 n.serial ++ i32 n.next ++ i32 n.oldest ++ leBytes 4 n.rows.length ++
    leBytes 4 n.rr ++ leBytes 4 (flagNat cut 1 + flagNat waiting 2 + flagNat binder.isSome 4) ++ (n.cells.map boundBytes).flatten ++
    leBytes 4 ((binder.map (fun gr => gr.traceName % 2 ^ 32)).getD 0) ++
    (n.rows.map (fun r => i32 r.row ++ leBytes 4 r.npts ++ leBytes 4 r.done ++ leBytes 4 r.released ++ leBytes 8 r.window.toNat)).flatten ++
    (if n.desc.kind = 2 then leBytes 4 n.ready.length ++ (n.ready.map (fun e => leBytes 4 e.row.toNat)).flatten else [])⟩

/-- What names a holder. -/
def holderWords : Holder → Nat × Nat
  | .manual g h => (1, g * 65536 + h)
  | .rcb va => (2, va)
  | .trace g => (3, g)
  | .work h => (4, h)
  | .pipeline h => (5, h)
  | .command id => (6, id)
  | .ap g p => (7, g * 65536 + p)

/-- A latch registration; a fabric command's carries its descriptor's address (R380). -/
def State.latchBlock (s : State) (n : Nat) (l : Latch) : ImageBlock :=
  let desc := match l.holder with
    | .command id => ((s.fabric.find? (fun c => c.id == id)).map (·.va)).getD 0
    | _ => 0
  ⟨9, n, 0, 0, leBytes 8 l.lo ++ leBytes 8 l.len ++ leBytes 4 (flagNat l.dst 1 + flagNat l.spad.isSome 2) ++
    leBytes 4 (holderWords l.holder).1 ++ leBytes 8 (holderWords l.holder).2 ++ leBytes 8 desc⟩

/-! ### The image (R236) -/

/-- What wait-swap writes of a group (R79): its Hall, warps, barriers and shared ranges. -/
def State.swapBlocks (s : State) (gr : Group) : List ImageBlock :=
  [gr.hallBlock] ++ gr.warps.zipIdx.map (fun x => gr.warpBlock (s.savedSet gr x.1) x.2 x.1) ++
    gr.barriers.zipIdx.map (fun x => gr.barrierBlock x.2 x.1) ++ gr.shared.zipIdx.map (fun x => gr.sharedBlock x.2 x.1)

/-- The blocks of a group that pre-emption has stopped. -/
def State.groupBlocks (s : State) (gr : Group) : List ImageBlock :=
  s.swapBlocks gr ++ gr.x.dirty.map gr.spadBlock ++ gr.x.queues.map gr.queueBlock ++
    s.tileBlocks gr ++
    ((s.keys.filter (fun k => k.members.any (fun m => m.1 == gr.id))).map (ringBlock gr))

def State.imageBlocks (s : State) (ctx : Nat) : List ImageBlock :=
  ((s.groups.filter (fun gr => gr.ctx == ctx && gr.standing != .waiting)).flatMap (fun gr =>
    if gr.standing == .ended then s.tileBlocks gr else s.groupBlocks gr)) ++
    (s.nests.filter (fun n => n.ctx == ctx)).map s.nestBlock ++
    ((s.latches.filter (fun l => l.ctx == ctx)).zipIdx.map (fun x => s.latchBlock x.2 x.1))

/-- An image: its header, then the blocks. -/
def State.imageFile (s : State) (c : Ctx) (blocks : List ImageBlock) : List Byte :=
  let body := (blocks.map ImageBlock.bytes).flatten
  let vt := if s.groups.any (fun gr => gr.ctx == c.num && s.determined gr) then c.vtime else 0
  leBytes 2 0x0100 ++ leBytes 2 c.num ++ leBytes 4 blocks.length ++ leBytes 8 (64 + body.length) ++ leBytes 8 s.cycles.toNat ++
    leBytes 8 vt ++ List.replicate 32 0 ++ body

/-- The image of a context. -/
def State.imageBytes (s : State) (c : Ctx) : List Byte := s.imageFile c (s.imageBlocks c.num)

/-- Walks the blocks of an image in memory: the address of the first whose payload is refused, with the type, unit and address of
every block before it. -/
def State.readBlocks (s : State) : Nat → Nat → List (Nat × Nat × Nat) × Option Nat
  | 0, _ => ([], none)
  | n + 1, pa =>
    let raw := s.peekN (pa + 4) 4
    let coded := s.peekN (pa + 8) 4
    if payloadOk raw (s.peekBytes (pa + 16) coded) then
      let r := s.readBlocks n (pa + 16 + (coded + 15) / 16 * 16)
      ((s.peekN pa 2, s.peekN (pa + 2) 2, pa) :: r.1, r.2)
    else ([], some pa)

/-! ### What pre-emption saves of a group (R82, R83) -/

/-- A thread as it will resume: by the stub of its record, if it has one, else where it stopped (R83). A stub that was not over begins
again. -/
def Thread.rebuilt (t : Thread) (b : List Byte) : Thread :=
  let t := { t with stopped := false, skip := false, notBefore := 0 }
  if !t.live || !(blockN b 48 8).testBit 63 then t
  else
    let t := if t.stub then { t with meet := t.stubMeet } else { t with stub := true, stubPc := t.pc, stubMeet := t.meet }
    { t with pc := BitVec.ofNat 32 (blockN b 48 4), dist := 0, held := false }

/-- A stopped warp keeps its saved set and what it will resume with; a warp that follows its Hall's stream stands at the entry
it takes next. -/
def State.savedWarp (s : State) (gr : Group) (w : Warp) : Warp :=
  let (v, p, _, _) := s.liveSets gr w
  let v := v ||| w.sinceV
  let p := p ||| w.sinceP ||| 1
  let pc := match gr.queue[w.rp - gr.queueBase]? with
    | some e => e.pc
    | none => gr.hall.pc
  { w with
    regs := w.regs.filter (fun r => decide (256 ≤ r.1) || v.getLsbD r.1)
    waits := []
    pending := []
    skid := 0
    threads := Lanes.of (fun l =>
      let t := w.threads.get l
      let t := { t with preds := t.preds &&& p }
      let t := if w.selfFetching then t else { t with pc := pc }
      t.rebuilt (s.recordBytes gr t)) }

/-- The Hall keeps the registers that a record of its warps names, and those written since (R82). -/
def State.savedHall (s : State) (gr : Group) : Hall :=
  let sets := gr.warps.map (s.liveSets gr)
  let sl := sets.foldl (fun (m : BitVec 64) x => m ||| x.2.2.1) gr.hall.sinceS
  let cl := sets.foldl (fun (m : BitVec 16) x => m ||| x.2.2.2) (gr.hall.sinceC ||| 1)
  let h := gr.hall
  { h with
    wait := none
    pending := []
    sc := ⟨Vector.ofFn (fun (i : Fin 64) => if sl.getLsbD i.val then h.sc.s[i] else 0), h.sc.c &&& cl⟩ }

/-- The group as its image holds it. -/
def State.saved (s : State) (gr : Group) (standing : Standing) : Group :=
  { gr with
    standing := standing
    hall := s.savedHall gr
    warps := gr.warps.map (s.savedWarp gr)
    waitingSince := s.cycles.toNat
    x := { gr.x with waitTimer := 0, readyTimer := 0 } }

end Sys2Proof.Machine
end

