-- ==== Sys2Proof/Machine/Lives.lean ====
section
/-! DEFINITION. How a context lives and ends (R7, R18 to R24): its engines, stop records, freezing, the end of a pre-emption,
resumption and reset, and the requests held meanwhile. -/

namespace Sys2Proof.Machine

open Sys2Proof

/-! ### Engines and stop records (R19, R20) -/

/-- A 64-byte stop record (R20): the fields of `f`, with the rest beside it. -/
def stopRecord (type state skid skidMax stamp seq : Nat) (f : FaultInfo) : List Byte :=
  leBytes 1 type ++ leBytes 1 state ++ leBytes 2 f.unit ++ leBytes 4 skid ++ leBytes 1 f.cause ++ leBytes 1 skidMax ++
    leBytes 1 f.warp ++ leBytes 1 f.group ++ leBytes 4 f.lanes.toNat ++ leBytes 8 f.pc ++ leBytes 8 f.cinfo ++ leBytes 8 f.leaf ++
    leBytes 4 f.serial ++ leBytes 1 (if type = 0 then f.origin else 0) ++ leBytes 1 (if type ≠ 0 then 0 else if f.origin = 1 then f.odie else 0xFF) ++ [0, 0] ++
    leBytes 8 stamp ++ leBytes 8 seq

/-- Bytes of the stop area, by the frames that hold it (R424). -/
def State.stopWrite (s : State) (c : Ctx) (off : Nat) (bs : List Byte) : State :=
  match c.stopFrames[off / 65536]? with
  | some u => s.pokeBytes (u * 65536 + off % 65536) bs
  | none => s

/-- Groups of a context on a core. -/
def State.groupsOn (s : State) (ctx core : Nat) : List Group :=
  s.groups.filter (fun gr => gr.ctx == ctx && gr.resident && gr.core == core)

/-- The access programs of a context's groups on a core, resident or swapped out, each with its group (R340). -/
def State.programsOn (s : State) (ctx core : Nat) : List (Group × ApProgram) :=
  (s.groups.filter (fun gr => gr.ctx == ctx && gr.inPlace && gr.core == core)).flatMap (fun gr => gr.x.programs.map (fun p => (gr, p)))

/-- The matrix commands of a context in a cluster, in posting order. -/
def State.commandsIn (s : State) (ctx cluster : Nat) : List MatCmd :=
  s.commands.filter (fun m => m.cluster == cluster && (match s.group? m.g with
    | some gr => gr.ctx == ctx
    | none => false))

/-- STATE of an engine's record (R20). -/
def State.engineState (s : State) (ctx : Nat) : Engine → Nat
  | .core n =>
    let gs := s.groupsOn ctx n
    if gs.isEmpty then 2 else if gs.any (fun gr => gr.x.held.isSome || !s.blockedWait gr) then 1 else 0
  | .accessProc n =>
    let ps := s.programsOn ctx n
    if ps.isEmpty then 2 else if ps.any (fun p => p.2.state == .running) then 1 else 0
  | .matrix k =>
    if (s.commandsIn ctx k).isEmpty then (if s.tiles.any (fun t => t.cluster == k) then 0 else 2) else 1
  | .stair d =>
    let ns := s.nests.filter (fun n => n.ctx == ctx && n.die == d)
    if ns.isEmpty then 2 else if ns.any (fun n => !n.ready.isEmpty || !n.handed.isEmpty) then 1 else 0
  | .fabric d => if s.fabric.any (fun c => c.ctx == ctx && c.die == d) then 1 else 2
  | .hinge d =>
    let xs := s.insts.filter (fun x => x.ctx == ctx && x.die == d)
    if xs.isEmpty then 2 else if xs.any (fun x => !x.given.isEmpty) then 1 else 0

/-- TYPE of an engine's record, and UNIT where the engine has no fault of its own. -/
def engineType : Engine → Nat × Nat
  | .core n => (1, unitOf n)
  | .accessProc n => (2, unitOf n)
  | .matrix k => (3, k / Config.clustersPerDie * 4096 + k % Config.clustersPerDie * 128)
  | .stair d => (4, d * 4096)
  | .fabric d => (5, d * 4096)
  | .hinge d => (6, d * 4096)

/-- The instruction that a live warp would issue next: in a region, handler or stub its lowest live thread's that is not held, else
the entry at its read pointer, or the Hall's own where it has caught up. -/
def Group.nextPc (gr : Group) (w : Warp) : Word :=
  if w.selfFetching then
    match Mask.lowest (w.liveLanes (fun t => (t.handler || t.stub || w.handler.isNone) && !t.held)) with
    | some l => (w.threads.get l).pc
    | none => 0
  else
    match gr.queue[w.rp - gr.queueBase]? with
    | some e => e.pc
    | none => gr.hall.pc

/-- What a warp is about when its core stops, most telling first: a handler (R251), a wait of WAITMEM or LDFE (R116), a region branch
not yet issued (R166). -/
def Group.stopRank (gr : Group) (w : Warp) : Nat :=
  if w.handler.isSome then 0
  else if w.waits.any (fun x => match x.kind with
      | .waitmem .. | .ldfe .. => true
      | _ => false) then 1
  else if !w.selfFetching && ((gr.queue[w.rp - gr.queueBase]?).map (fun e => e.meet.isSome)).getD false then 2
  else 3

/-- What the record of a core without a fault of its own shows: the PC of a live warp that stopped and the leaf of its group, of those
of the least rank the one in slot and warp order. -/
def State.corePoint (s : State) (ctx core : Nat) (f : FaultInfo) : FaultInfo :=
  let ws := (s.groupsOn ctx core).flatMap (fun gr => gr.liveWarps.filterMap (fun n => (gr.warps[n]?).map (fun w => (gr, w))))
  match (List.range 4).findSome? (fun k => ws.find? (fun x => x.1.stopRank x.2 == k)) with
  | some (gr, w) => { f with pc := (gr.nextPc w).toNat, leaf := (s.heldLeaf gr).1, serial := (s.heldLeaf gr).2 }
  | none => f

/-- What an engine's record says where it has not raised the halt line: its unit; of a core what `corePoint` says; the PC and the
leaf of the oldest command in hand (R358, R381); an access processor's first stopped program, or the first running one (R340); of a
Stair or Hinge the first leaf with a point or item in hand, and where its NBIND or HBIND stands. -/
def State.engineInfo (s : State) (ctx : Nat) (e : Engine) : FaultInfo :=
  let f := { FaultInfo.blank with unit := (engineType e).2 }
  match e with
  | .core n => s.corePoint ctx n f
  | .matrix k =>
    (match s.commandsIn ctx k with
    | m :: _ => s.commandInfo f m.g m.pc
    | [] => f)
  | .fabric d =>
    (match s.fabric.filter (fun c => c.ctx == ctx && c.die == d) with
    | m :: _ => s.commandInfo f m.g m.pc
    | [] => f)
  | .accessProc n =>
    let ps := s.programsOn ctx n
    (match (ps.find? (fun x => x.2.state == .stopped)).orElse (fun _ => ps.find? (fun x => x.2.state == .running)) with
    | some (gr, p) =>
      let f := s.commandInfo f gr.id p.pc
      (match p.fault with
      | some (t, _) => { f with cause := t.cause.code, group := gr.slot, lanes := t.mask, cinfo := t.addr.toNat }
      | none => f)
    | none => f)
  | .stair d =>
    let ns := s.nests.filter (fun n => n.ctx == ctx && n.die == d)
    (match ns.find? (fun n => !n.handed.isEmpty || !n.ready.isEmpty) with
    | some n => { f with pc := n.pc.toNat, leaf := n.rcb, serial := ((n.handed.head?).map (·.serial)).getD n.serial }
    | none => f)
  | .hinge d => s.hingeInfo ctx d f

/-- The largest number of instructions that a warp of the core issued after the raise. -/
def State.skidMax (s : State) (ctx : Nat) (e : Engine) : Nat :=
  match e with
  | .core n => ((s.groupsOn ctx n).flatMap (fun gr => gr.warps.map (fun w => w.skid % 64))).foldl max 0
  | _ => 0

/-! ### What is in flight on a core completes -/

/-- The stores of a group's Hall and warps commit. -/
def State.drainGroup (s : State) (gr : Group) : State :=
  (List.range gr.warps.length).foldl (fun s w => s.drainAgent gr.id (.warp gr.id w)) (s.drainAgent gr.id (.hall gr.id))

/-! ### Reset (R22) -/

/-- The context's groups and its work on every engine are dropped; memory keeps its contents. -/
def State.dropWork (s : State) (ctx : Nat) : State :=
  let mine := (s.groups.filter (fun gr => gr.ctx == ctx)).map (·.id)
  let s := s.performAll ctx none
  let s := (s.rcbs.filter (fun r => r.ctx == ctx)).foldl State.keepUse s
  { s with
    groups := s.groups.filter (fun gr => gr.ctx != ctx)
    sfu := s.sfu.filter (fun o => !mine.contains o.g)
    rcbs := s.rcbs.filter (fun r => r.ctx != ctx)
    latches := s.latches.filter (fun l => l.ctx != ctx)
    latchWaits := s.latchWaits.filter (fun w => w.ctx != ctx)
    nests := s.nests.filter (fun n => n.ctx != ctx)
    rewrites := s.rewrites.filter (fun w => w.ctx != ctx)
    pipes := s.pipes.filter (fun p => p.ctx != ctx)
    insts := s.insts.filter (fun x => x.ctx != ctx)
    tiles := s.tiles.filter (fun t => !mine.contains t.group)
    commands := s.commands.filter (fun c => !mine.contains c.g)
    keys := (s.keys.map (fun (k : KeyRing) =>
      { k with
        members := k.members.filter (fun m => !mine.contains m.1)
        holder := k.holder.filter (fun m => !mine.contains m.1)
        transit := k.transit.filter (fun m => !mine.contains m.1) })).filter (fun k => !k.members.isEmpty)
    tileWaits := s.tileWaits.filter (fun w => !mine.contains w.g)
    fabric := s.fabric.filter (fun c => c.ctx != ctx) }

/-- A context as it is in CREATED. -/
def Ctx.recreated (c : Ctx) : Ctx :=
  { c with
    state := .created
    vtime := 0
    taken := []
    ordinals := 0
    orders := 0
    images := 0
    handles := []
    tlb := []
    sent := []
    recv := []
    samples := []
    rung := false
    halt := none
    preempting := none
    quanta := [] }

/-- The host's reset of a context alone (R22). -/
def State.resetCtx (s : State) (ctx : Nat) : State := (s.dropWork ctx).modCtx ctx Ctx.recreated

/-! ### Freezing (R7, R20, R21) -/

/-- Event 5 for a line that could not be read (R421, R433). -/
def State.eccEvent (s : State) (ctx pa : Nat) : State :=
  let integrity := s.hbm.poisoned.any (fun x => x.1 == pa / 128 && x.2)
  s.postEvent 5 ctx (leBytes 8 (paStack pa) ++ leBytes 8 (paLayer pa) ++ leBytes 8 pa ++ leBytes 8 (flagNat integrity 1)) []

/-- The Cellar freezes a context that no engine is running: it writes the header alone (R7, R20). -/
def State.freezeIdle (s : State) (c : Ctx) (origin cause cinfo : Nat) : State :=
  let header := stopRecord 0 0 0 0 s.cycles.toNat 1 { FaultInfo.blank with origin := origin, cause := cause, cinfo := cinfo }
  let s := s.stopWrite c 0 header
  let s := s.modCtx c.num (fun c => { c with state := .frozen, halt := none, preempting := none })
  s.postEvent 2 c.num [] header

/-- What becomes of the requests held for a context that a halt has frozen: a RESET is carried out, all else refused (R7,
R438). -/
def State.heldAtFreeze (ctx : Nat) : List HeldRequest → State → State
  | [], s => s
  | h :: rest, s =>
    if h.ctx ≠ ctx then State.heldAtFreeze ctx rest { s with cellar := { s.cellar with held := s.cellar.held ++ [h] } }
    else if h.op = 6 && ((s.ctx? ctx).map (·.state)) == some .frozen then
      State.heldAtFreeze ctx rest ((s.resetCtx ctx).answer h.tag 0 0)
    else State.heldAtFreeze ctx rest (s.answer h.tag 1 0)

/-- Every record is written: the header, the state and the events (R20, R21). -/
def State.freeze (s : State) (c : Ctx) (h : Halt) : State :=
  let s := s.performAll c.num none
  let header := stopRecord 0 0 0 0 s.cycles.toNat (1 + c.engines.length) h.first
  let s := s.stopWrite c 0 header
  let s := s.modCtx c.num (fun c => { c with state := .frozen, halt := none, preempting := none })
  let s := s.postEvent 2 c.num [] header
  let s := if h.offender then s.postEvent 4 c.num [] header else s
  let s := if h.first.cause = 0x3F then
      (match s.walk c h.first.cinfo with
      | .ok e => s.eccEvent c.num (e.pa + (h.first.cinfo % 2 ^ 56 - e.va))
      | .error _ => s)
    else s
  State.heldAtFreeze c.num s.cellar.held { s with cellar := { s.cellar with held := [] } }

/-! ### Resumption (R239, R274, R404) -/

/-- Bytes of a context as the Cellar and the engines find them when it resumes. -/
def State.vbytes (s : State) (ctx va n : Nat) : List Byte := (List.range n).map (fun i => BitVec.ofNat 8 (s.vread ctx (va + i) 1))

/-- The nest's descriptor and table stand in memory as they were (R274). -/
def State.nestIntact (s : State) (n : Nest) : Bool :=
  s.vbytes n.ctx n.desc.va 256 == n.desc.bytes &&
  (match (s.readTable n.ctx n.desc.bytes).2 with
  | .ok (counts, tasks, edges, work) =>
    counts == n.desc.counts && tasks == n.desc.tasks && edges == n.desc.edges && work == n.desc.work
  | .error _ => false)

/-- The record of a pipeline stands as it was, beside its RO fields (R388, R404). -/
def State.recordIntact (s : State) (p : Pipe) : Bool :=
  (List.range 576).all (fun i =>
    (decide (48 ≤ i) && decide (i < 52)) || (decide (64 ≤ i) && decide (30 ≤ i % 64) && decide (i % 64 < 32)) ||
    BitVec.ofNat 8 (s.vread p.ctx (p.record + i) 1) == p.bytes.getD i 0)

/-- A stage's parameter block stands as it was. -/
def State.paramIntact (s : State) (x : HInst) : Bool :=
  match x.role with
  | .source .. => true
  | .stage _ param plen _ _ block => s.vbytes x.ctx param plen == block

/-- The first item that a resumption refuses (R239, R274, R404): a block of the image, a pipeline record or a parameter
block. -/
def State.refusedItem (s : State) (c : Ctx) : Option Nat :=
  let (blocks, bad) := s.readBlocks (s.peekN (c.imageArea + 4) 4) (c.imageArea + 64)
  let nest := (s.nests.filter (fun n => n.ctx == c.num)).findSome? (fun n =>
    if s.nestIntact n then none
    else some (((blocks.find? (fun b => b.1 == 8 && b.2.1 == n.handle)).map (fun b => b.2.2)).getD c.imageArea))
  let record := (s.pipes.filter (fun p => p.ctx == c.num)).findSome? (fun p => if s.recordIntact p then none else some p.record)
  let param := (s.insts.filter (fun x => x.ctx == c.num)).findSome? (fun x =>
    if s.paramIntact x then none
    else match x.role with
      | .stage _ param _ _ _ _ => some param
      | .source .. => none)
  (bad.orElse (fun _ => nest)).orElse (fun _ => record.orElse (fun _ => param))

/-- RESUME of a pre-empted context: it runs again, or its image is refused and it is frozen; with the status of the answer. -/
def State.resumeCtx (s : State) (c : Ctx) : State × Nat :=
  match s.refusedItem c with
  | some a => (s.freezeIdle c 3 0 a, 6)
  | none => (s.modCtx c.num (fun c => { c with state := .running }), 0)

/-! ### Pre-emption (R23, R24) -/

/-- The region that a pre-emption concerns holds the group; none concerns the whole context. -/
def State.concerned (s : State) (gr : Group) (region : Option Nat) : Bool :=
  match region with
  | none => true
  | some r => s.inSubtree gr.ctx gr.home r

/-- The engine holds work that the pre-emption has to stop. -/
def State.engineWorks (s : State) (ctx : Nat) (region : Option Nat) : Engine → Bool
  | .core n => s.groups.any (fun gr => gr.ctx == ctx && gr.inPlace && gr.core == n && s.concerned gr region)
  | .accessProc n =>
    s.groups.any (fun gr => gr.ctx == ctx && gr.core == n && !gr.x.programs.isEmpty && s.concerned gr region && gr.standing != .waiting)
  | .matrix k =>
    (s.commandsIn ctx k).any (fun m => match s.group? m.g with
      | some gr => s.concerned gr region
      | none => false)
  | .stair d => region.isNone && s.nests.any (fun n => n.ctx == ctx && n.die == d)
  | .fabric d => region.isNone && s.fabric.any (fun c => c.ctx == ctx && c.die == d)
  | .hinge d => region.isNone && s.insts.any (fun x => x.ctx == ctx && x.die == d)

/-- The requests held for a context, once its pre-emption is complete, in their order (R7, R24). -/
def State.heldAtPreempt (ctx : Nat) : List HeldRequest → State → State
  | [], s => s
  | h :: rest, s =>
    if h.ctx ≠ ctx then State.heldAtPreempt ctx rest { s with cellar := { s.cellar with held := s.cellar.held ++ [h] } }
    else
      match s.ctx? ctx with
      | none => State.heldAtPreempt ctx rest (s.answer h.tag 2 0)
      | some c =>
        if h.op = 4 then State.heldAtPreempt ctx rest (s.answer h.tag 0 0)
        else if h.op = 5 && c.state == .preempted then
          State.heldAtPreempt ctx rest ((s.resumeCtx c).1.answer h.tag (s.resumeCtx c).2 0)
        else if h.op = 6 && (c.state == .preempted || c.state == .frozen) then
          State.heldAtPreempt ctx rest ((s.resetCtx ctx).answer h.tag 0 0)
        else State.heldAtPreempt ctx rest (s.answer h.tag 1 0)

/-- Every acknowledgement is held: of a time slice nothing is left to do; a context enters PREEMPTED with its image written, and
the held requests follow (R23, R24, R236). -/
def State.preemptDone (s : State) (ctx : Nat) : State :=
  match s.ctx? ctx with
  | none => s
  | some c =>
    match c.preempting with
    | none => s
    | some p =>
      if c.engines.any (fun e => !p.acks.contains e && s.engineWorks ctx p.region e) then s
      else if p.region.isSome then s.modCtx ctx (fun c => { c with preempting := none })
      else
        let s := s.performAll ctx none
        let image := s.imageBytes c
        let s := s.pokeBytes c.imageArea image
        let s := s.modCtx ctx (fun c => { c with state := .preempted, preempting := none })
        let s := s.postEvent 3 ctx (leBytes 8 c.imageArea ++ leBytes 8 image.length) []
        State.heldAtPreempt ctx s.cellar.held { s with cellar := { s.cellar with held := [] } }

/-- A pre-emption request reaches the collector (R23): of the whole context, or of one region. A request for the context takes
the place of a time slice in progress. -/
def State.askPreempt (s : State) (ctx : Nat) (region : Option Nat) : State :=
  match s.ctx? ctx with
  | none => s
  | some c =>
    match c.preempting with
    | some p =>
      if p.region.isSome && region.isNone then
        (s.modCtx ctx (fun c => { c with preempting := some ⟨none, [], c.vtime, false⟩ })).preemptDone ctx
      else s
    | none => (s.modCtx ctx (fun c => { c with preempting := some ⟨region, [], c.vtime, false⟩ })).preemptDone ctx

end Sys2Proof.Machine
end

