-- ==== Sys2Proof/Machine/Ending.lean ====
section
/-! DEFINITION. How threads, warps and groups end (R164), traps and the return from a handler (R230 to R232), the delivery of a
Hall fault (R46), the watchdog (R233), and the special registers (R234, R235). -/

namespace Sys2Proof.Machine

open Sys2Proof

/-! ### What a group gives up -/

/-- The point or item that a group holds retires with status killed (R164, R230, R273). -/
def State.killHeld (s : State) (g : Nat) (cause addr : Nat) : State :=
  match s.group? g with
  | none => s
  | some gr =>
    match s.heldPoint gr, s.heldItem gr with
    | some (n, h), _ => (s.retirePoint n h .killed cause addr).dropHeld g
    | none, some (x, y) => (s.retireItem x y .killed cause addr).dropHeld g
    | none, none => s.modX g (fun x => { x with held := none, d2 := none })

/-- What the group's Hall had asked of the latch table and of a Stair and not taken up is withdrawn. -/
def State.dropAsks (s : State) (g : Nat) : State :=
  let mine := (s.latchWaits.filter (fun w => w.g == g && w.granted)).flatMap (fun w => w.ranges)
  { s with
    latches := s.latches.filter (fun l => !mine.contains l)
    latchWaits := s.latchWaits.filter (fun w => w.g != g)
    rewrites := s.rewrites.filter (fun w => w.g != g)
    tileWaits := s.tileWaits.filter (fun w => w.g != g)
    sfu := s.sfu.filter (fun o => o.g != g) }

/-- A warp maps no range any more (R164). -/
def Group.unmapAll (gr : Group) (w : Nat) : Group :=
  { gr with shared := (gr.shared.map (fun (r : SharedRange) =>
      { r with onA := r.onA && r.warpA != w, onB := r.onB && r.warpB != w })).filter (fun r => r.onA || r.onB) }

/-- A warp that is no longer live leaves the expected count of barrier `b` (R76). -/
def Group.leaveBar (determined : Bool) (gr : Group) (b : Nat) : Group :=
  (({ gr with barriers := gr.barriers.modify b (fun (x : Barrier) => { x with expected := x.expected - 1 }) }).completeBar determined b)

/-- What is left of a warp with no live lane (R72, R76, R164). -/
def Warp.over (w : Warp) : Warp :=
  { w with regs := [], region := none, handler := none, waits := [], gated := none, watchdog := false, pending := [] }

def Group.endWarp (gr : Group) (determined : Bool) (w : Nat) : Group :=
  let gr := (gr.modWarp w Warp.over).unmapAll w
  (List.range gr.barriers.length).foldl (Group.leaveBar determined) gr

/-- The group's record once it has no live warp: nothing but what its engine commands still name (R164). -/
def Group.over (gr : Group) : Group :=
  { gr with
    standing := .ended
    hall := { gr.hall with ended := true, fault := none, combine := none, wait := none }
    queue := []
    links := []
    barriers := []
    shared := []
    x := { gr.x with held := none, d2 := none, latches := [], asks := none, landAsk := none, fabDesc := none } }

/-- The group's own latches: those of LATCH and of its trace (R115, R296). -/
def ownLatch (g : Nat) (l : Latch) : Bool :=
  match l.holder with
  | .manual h _ => h == g
  | .trace h => h == g
  | .rcb _ | .work _ | .pipeline _ | .command _ | .ap _ _ => false

/-- The group has no live warp: it ends (R164, R322, R352, R353). -/
def State.endGroup (s : State) (g : Nat) : State :=
  match s.group? g with
  | none => s
  | some gr =>
    let s := ((s.killHeld g 0 0).leaveRings gr).releaseTiles g
    let s := s.killPrograms g
    let s := s.drainGroup gr
    let s := gr.x.programs.foldl (fun s p => s.drainAgent g (.ap g p.id)) s
    let s := s.dropAsks g
    ({ s with latches := s.latches.filter (fun l => !ownLatch g l) }.modGroup g Group.over).reap

/-- A warp has no live lane any more: it ends, and with the last one its group (R164). -/
def State.endWarp (s : State) (g w : Nat) : State :=
  match s.group? g with
  | none => s
  | some gr =>
    let s := { s with
      sfu := s.sfu.filter (fun o => o.g != g || o.w != w)
      tileWaits := s.tileWaits.filter (fun o => o.g != g || o.w != w) }
    let s := (s.leaveRing gr.core (g, w)).modGroup g (fun x => x.endWarp (s.determined gr) w)
    match s.group? g with
    | some gr => if gr.liveWarps.isEmpty then s.endGroup g else s
    | none => s

/-- Threads of a warp end (R164). -/
def State.endThreads (s : State) (g w : Nat) (lanes : Mask) : State :=
  let s := s.modWarp g w (fun x => x.modThreads lanes (fun t => { t with live := false, held := false, handler := false }))
  match s.warp? g w with
  | some x => if x.isLive then s else s.endWarp g w
  | none => s

/-- EXIT in an access program ends the program; a false guard only counts (R34, R323). -/
def State.apExit (s : State) (k : Ctl) (g p : Nat) : State :=
  match s.apView g p with
  | none => s
  | some h => if h.guard k then s.exitProgram g p else h.commitAp g p { st := s }

/-- EXIT (R164, R323). -/
def execExit (k : Ctl) (s : State) : Host.Outcome State Fault Refusal :=
  match s.issuer with
  | .ap g p => finish s (s.apExit k g p)
  | .hall _ | .warp _ | .none =>
    runWarp (.exit k) (fun v =>
      .done { st := if v.active = 0 then v.s else v.s.endThreads v.is.g v.is.w v.active }) s

/-! ### Traps (R231, R232) -/

/-- A software trap names its immediate. -/
def WarpView.softTrap (v : WarpView) (cause : Cause) (c : Operand) : WarpRes :=
  if v.active = 0 then .done { st := v.s } else .trap ⟨cause, v.active, BitVec.ofNat 64 (immNat c), 0⟩

/-- TRAP (R231). -/
def execTrap (k : Ctl) (c : Operand) (s : State) : Host.Outcome State Fault Refusal :=
  runWarp (.trap k c) (fun v => v.softTrap .softwareTrap c) s

/-- BKPT (R231). -/
def execBkpt (k : Ctl) (c : Operand) (s : State) : Host.Outcome State Fault Refusal :=
  runWarp (.bkpt k c) (fun v => v.softTrap .breakpoint c) s

/-- ILL raises ILLEGAL_INSTR whatever its fields hold, under every guard and whoever issues it (R232). -/
def execIll (_ : Ctl) (_ : BitVec 12) (_ _ _ : BitVec 22) (s : State) : Host.Outcome State Fault Refusal :=
  finish s (match s.issuer with
    | .warp is => s.takeTrap is (.plain .illegalInstr is.lanes) false
    | .hall g => s.hallTrap g (.plain .illegalInstr 0)
    | .ap g p => s.apFault g p (.plain .illegalInstr 0)
    | .none => s)

/-! ### The delivery of a Hall fault (R46, R228) -/

/-- The lowest live warp has come to the position of the Hall's fault, outside regions, handlers and stubs. -/
def Group.reached (gr : Group) (f : HallFault) (n : Nat) : Bool :=
  match gr.warps[n]? with
  | some w => decide (w.rp = f.position) && !w.selfFetching
  | none => false

/-- HALL_FAULT_DELIVERY (R46): the lowest-numbered live warp takes the Hall's fault in every live lane. -/
def execHallFaultDelivery (g : Nat) (s : State) : Host.Outcome State Fault Refusal :=
  finish s (match s.group? g with
    | none => s
    | some gr =>
      match gr.hall.fault, gr.liveWarps.head? with
      | some f, some n =>
        if f.delivered || !gr.resident || s.silent gr || !gr.reached f n then s
        else
          match gr.warps[n]? with
          | none => s
          | some w =>
            let is : Issue := ⟨g, n, w.liveMask, f.pc, gr.hall.sc, true, false, none, none⟩
            (s.modHall g (fun h => { h with fault := some { f with delivered := true } })).takeTrap is f.trap true
      | _, _ => s)

/-! ### TRET (R230) -/

/-- A return from the handler: at user privilege it raises PRIVILEGE. -/
def runTret (f : Issue → Warp → State → State) (s : State) : Host.Outcome State Fault Refusal :=
  finish s (match s.issuer with
    | .warp is =>
      (match s.warp? is.g is.w with
      | none => s
      | some w =>
        if !w.privileged is.lanes then s.takeTrap is (.plain .privilege is.lanes) false
        else (f is w s).modX is.g (fun x => { x with waitTimer := 0 }))
    | .hall _ | .ap _ _ | .none => s)

/-- The PC at which the handler's fault was raised: what its threads keep aside. -/
def Warp.faultPc (w : Warp) : Word :=
  match Mask.lowest w.emask with
  | some l => (w.threads.get l).keptPc
  | none => w.epc

/-- The instruction that faulted: the decision-queue entry, or in a region what stands in code memory. -/
def State.faulted (s : State) (gr : Group) (w : Warp) (h : Handler) : Option Instr :=
  if h.hallFault then none
  else if h.inRegion then (match (s.fetch gr w.faultPc true).2 with
    | .ok i => some i
    | .error _ => none)
  else (gr.queue[w.rp - gr.queueBase]?).map (·.instr)

/-- A QUEUE_FAULT of QPOP or QPUSH makes a RETRY do first what QCTL.RETRY does (R337). -/
def State.retryQueue (s : State) (g : Nat) (w : Warp) : State :=
  match s.group? g, w.handler with
  | some gr, some h =>
    if h.cause != .queueFault then s
    else
      match s.faulted gr w h with
      | some (.qpop _ _ b) => s.queueRetry g (queueNo b)
      | some (.qpush _ a _) => s.queueRetry g (queueNo a)
      | _ => s
  | _, _ => s

/-- TRET.RETRY (R230, R337). -/
def execTretRetry (_ : Ctl) (s : State) : Host.Outcome State Fault Refusal :=
  runTret (fun is w s => (s.retryQueue is.g w).trapReturn is.g is.w false) s

/-- TRET.SKIP (R230). -/
def execTretSkip (_ : Ctl) (s : State) : Host.Outcome State Fault Refusal :=
  runTret (fun is _ s => s.trapReturn is.g is.w true) s

/-- A warp that begins again at the entry point: its queued stores drain, and what R227 and R230 keep is kept. -/
def Warp.restarted (w : Warp) (entry : Word) : Warp :=
  { Warp.atEntry entry 0 with
    stores := w.stores
    sfuslow := w.sfuslow
    cause := w.cause
    cinfoAddr := w.cinfoAddr
    cinfoMask := w.cinfoMask
    cinfoKind := w.cinfoKind
    epc := w.epc
    emask := w.emask
    skid := w.skid }

/-- A group that begins again (R230). -/
def Group.restarted (gr : Group) : Group :=
  { gr with
    hall := { Hall.atEntry gr.image.entry with stores := gr.hall.stores }
    queue := []
    queueBase := 0
    links := []
    warps := gr.warps.map (fun w => w.restarted gr.image.entry)
    barriers := gr.barriers.map (fun b => Barrier.atResidency gr.image.warps b.gen)
    shared := []
    x := { gr.x with waitTimer := 0, takes := [], asks := none, landAsk := none, fabDesc := none } }

/-- The restart of a group with its engine work (R230, R322, R352, R353). -/
def State.restart (s : State) (g : Nat) : State :=
  match s.group? g with
  | none => s
  | some gr => ((((s.leaveRings gr).releaseTiles g).killPrograms g).dropAsks g).modGroup g (fun gr =>
      { gr.restarted with x := { gr.restarted.x with records := [] } })

/-- TRET.KILLPT (R230). -/
def execTretKillpt (_ : Ctl) (s : State) : Host.Outcome State Fault Refusal :=
  runTret (fun is w s => (s.killHeld is.g w.cause.toNat w.cinfoAddr.toNat).restart is.g) s

/-- A fault that the Hall raised passes to the next live warp (R251). -/
def State.passFault (s : State) (g : Nat) (w : Warp) : State :=
  if (w.handler.map (·.hallFault)).getD false then
    s.modHall g (fun h => { h with fault := h.fault.map (fun f => { f with delivered := false }) })
  else s

/-- TRET.KILLW (R230, R251). -/
def execTretKillw (_ : Ctl) (s : State) : Host.Outcome State Fault Refusal :=
  runTret (fun is w s => (s.passFault is.g w).endThreads is.g is.w (BitVec.allOnes 32)) s

/-- TRET.FATAL (R224, R230): the halt line is raised for the handler's cause. -/
def execTretFatal (_ : Ctl) (s : State) : Host.Outcome State Fault Refusal :=
  runTret (fun is w s =>
    match s.group? is.g with
    | none => s
    | some gr =>
      let t : Trap := ⟨.softwareTrap, w.cinfoMask, w.cinfoAddr, w.cinfoKind⟩
      (s.modWarp is.g is.w (fun w => { w.leaveHandler with skid := w.skid + 64 })).raiseHalt gr.ctx (.core gr.core)
        (s.warpInfo gr is.w t w.cinfoMask w.epc w.cause.toNat) false) s

/-! ### The watchdog (R233) -/

/-- WATCHDOG_EXPIRY (R233): the counter is past the effective WDOGLIM; WATCHDOG becomes pending in every live warp, which leaves
its waits, and the counter starts again. -/
def execWatchdogExpiry (g : Nat) (s : State) : Host.Outcome State Fault Refusal :=
  finish s (match s.group? g with
    | none => s
    | some gr =>
      if !gr.resident || gr.x.wdog.toNat ≤ s.effWdog gr.ctx gr.home then s
      else
        s.modGroup g (fun gr =>
          { gr with
            warps := gr.warps.map (fun w => if w.isLive then { w with watchdog := true } else w)
            x := { gr.x with wdog := 0 } }))

/-! ### Special registers (R234, R235) -/

/-- A special register of the group, as its Hall or a warp reads it (R234); under virtual time %cycles reads %vtime (R295). -/
def State.groupSpr (s : State) (gr : Group) (n : Nat) : DWord :=
  match n with
  | 0x002 => BitVec.ofNat 64 gr.warps.length
  | 0x003 => BitVec.ofNat 64 gr.slot
  | 0x004 => BitVec.ofNat 64 gr.core
  | 0x005 => BitVec.ofNat 64 gr.copy
  | 0x030 => gr.image.stackBase
  | 0x031 => BitVec.ofNat 64 gr.image.stackLog
  | 0x040 => if s.determined gr then BitVec.ofNat 64 (s.vtimeOf gr.ctx) else s.cycles
  | 0x041 => BitVec.ofNat 64 (s.vtimeOf gr.ctx)
  | 0x050 => gr.x.wdog.setWidth 64
  | _ => 0

/-- %tid of a lane. -/
def WarpView.tid (v : WarpView) (l : Nat) : Nat := v.gr.copy * 1024 + v.is.w * 32 + l

/-- %fpstat as a path reads it: RM and the flags of its active lanes (R181). -/
def WarpView.fpstat (v : WarpView) : DWord :=
  let flags := (Mask.lanes v.active).foldl (fun (f : BitVec 5) l => f ||| (v.w.threads.get l).flags) 0
  (v.w.rm.setWidth 64 <<< 8) ||| flags.setWidth 64

/-- A special register as lane `l` reads it (R234). -/
def WarpView.spr (v : WarpView) (n l : Nat) : DWord :=
  match n with
  | 0x000 => BitVec.ofNat 64 l
  | 0x001 => BitVec.ofNat 64 v.is.w
  | 0x006 => BitVec.ofNat 64 (v.tid l)
  | 0x010 => v.fpstat
  | 0x011 => v.w.sfuslow.setWidth 64
  | 0x020 => v.w.cause.setWidth 64
  | 0x021 => v.w.cinfoAddr
  | 0x022 => v.w.cinfoMask.setWidth 64
  | 0x023 => v.w.cinfoKind.setWidth 64
  | 0x024 => v.w.epc.setWidth 64
  | 0x025 => v.w.emask.setWidth 64
  | 0x032 => v.gr.image.stackBase + BitVec.ofNat 64 (v.tid l * 2 ^ v.gr.image.stackLog)
  | 0x042 => v.w.retired.setWidth 64
  | _ => v.s.groupSpr v.gr n

/-- The number of a special register operand. -/
def sprNo : Operand → Nat
  | .spr n => n.toNat
  | _ => 0xFFF

/-- RDSR (R235). -/
def execRdsr (k : Ctl) (a b : Operand) (s : State) : Host.Outcome State Fault Refusal :=
  runBoth (.rdsr k a b)
    (fun h => .write h a (h.s.groupSpr h.gr (sprNo b)))
    (fun v =>
      let f := v.spr (sprNo b)
      .write v (if sprShape b = .w64 then v.w64 a f else v.w32 a (fun l => (f l).setWidth 32))) s

/-- The rounding mode of a code that %fpstat.RM may hold (R181). -/
def rmOk (x : Word) : Bool := let m := x.toNat / 256 % 8; decide (1 ≤ m) && decide (m ≤ 5)

/-- The warp after a WRSR (R181, R210, R235). -/
def WarpView.setSpr (v : WarpView) (n : Nat) (f : Nat → Word) : State :=
  let first := f ((Mask.lowest v.active).getD 0)
  v.s.modWarp v.is.g v.is.w (fun w =>
    match n with
    | 0x010 => { w with
        rm := BitVec.ofNat 3 (first.toNat / 256)
        threads := Lanes.of (fun l =>
          let t := w.threads.get l
          if v.active.has l then { t with flags := (f l).setWidth 5 } else t) }
    | 0x011 => { w with sfuslow := first }
    | 0x024 => { w with epc := first }
    | _ => w)

def warpWrsr (a b : Operand) (v : WarpView) : WarpRes :=
  let f := fun l => v.r32 false b l
  if v.active = 0 then .done { st := v.s }
  else if sprNo a == 0x010 && !rmOk (f ((Mask.lowest v.active).getD 0)) then .trap (.plain .illegalOperand v.active)
  else .done { st := v.setSpr (sprNo a) f }

/-- WRSR (R235). -/
def execWrsr (k : Ctl) (a b : Operand) (s : State) : Host.Outcome State Fault Refusal :=
  runWarp (.wrsr k a b) (warpWrsr a b) s

end Sys2Proof.Machine
end

