-- ==== Sys2Proof/Machine/Clock.lean ====
section
/-! DEFINITION. Determinism levels: DETSET (R307) with the opening and closing of a dispatch trace (R296), and the clocks that CLK
reads (R308). -/

namespace Sys2Proof.Machine

open Sys2Proof

/-! ### Closing and opening a trace (R296, R307) -/

/-- STATE of a trace that is closed: complete, or abandoned where a replay has entries left (R307). -/
def closedState (state : Nat) (atEnd : Bool) : Nat :=
  if state = 1 || (state = 3 && atEnd) then 2 else if state = 3 then 5 else state

/-- A group's open trace is closed: STATE and VTEND are final, and its ranges are released (R296, R307). -/
def State.closeTrace (s : State) (gr : Group) : State :=
  match gr.x.trace with
  | none => s
  | some t =>
    let atEnd := s.traceGet gr.ctx t.header traceCursor == s.traceGet gr.ctx t.header traceCount
    let s := s.traceSet gr.ctx t.header traceState (closedState (s.traceGet gr.ctx t.header traceState) atEnd)
    let s := s.traceSet gr.ctx t.header traceVtEnd (s.vtimeOf gr.ctx)
    (s.latchDrop gr.ctx (.trace gr.id)).modX gr.id (fun x => { x with trace := none })

/-- The header may be opened: its version, reserved bytes, capacity and entry array (R296, R307, R434). -/
def traceOk (b : List Byte) : Bool :=
  blockN b 0 2 == 0x0100 && blockZero b 3 8 && blockZero b 48 64 && blockN b 8 8 != 0 && decide (blockN b 8 8 ≤ 2 ^ 32) &&
  blockN b 24 8 % 16 == 0

/-- The ranges of a trace, registered as destinations (R296). -/
def traceLatches (ctx g hdr : Nat) (b : List Byte) : List Latch :=
  [⟨ctx, none, hdr, 64, true, .trace g⟩, ⟨ctx, none, blockN b 24 8, 16 * blockN b 8 8, true, .trace g⟩]

/-- The header's 64 bytes as a Hall load reads them; none where a load has to wait. -/
def HallView.readHeader (h : HallView) (s : State) (hdr : Nat) : State × Except Trap (Option (List Byte)) :=
  match s.checkLanes h.gr none 8 .load ((List.range 8).map (fun i => (i, hdr + 8 * i))) with
  | (s, .error t) => (s, .error t)
  | (s, .ok ps) =>
    match s.loadPlaces h.gr h.agent (s.queueOf h.agent) 8 ps with
    | (s, some vs) => (s, .ok (some ((List.range 8).flatMap (fun i => leBytes 8 (laneVal vs i)))))
    | (s, none) => (s, .ok none)

/-- The dispatcher's new level: its bind ordinal and its registration ordinal begin again (R297, R307). -/
def GroupExtra.setLevel (x : GroupExtra) (level : Nat) (t : Option OpenTrace) : GroupExtra :=
  { x with level := level, bindOrdinal := 0, regOrdinal := 0, bound := [], trace := t }

/-- The level is set and the trace, if any, is opened. -/
def HallView.setLevel (h : HallView) (s : State) (a : Operand) (level : Nat) (play : Bool) (hdr : Nat) : HallRes :=
  let status := fun (s : State) (n : Nat) => HallRes.done { st := s, s := sWrite a (BitVec.ofNat 64 n) }
  if hdr = 0 then status (s.modX h.gr.id (fun x => x.setLevel level none)) 0
  else if hdr % 64 ≠ 0 then status s 1
  else
    match h.readHeader s hdr with
    | (_, .error t) => .trap t
    | (_, .ok none) => .stall h.s
    | (s, .ok (some b)) =>
      if !traceOk b then status s 1
      else if play && blockN b 2 1 != 2 then status s 2
      else if !s.latchFits (traceLatches h.gr.ctx h.gr.id hdr b) then .stall h.s
      else
        let s := s.enter (traceLatches h.gr.ctx h.gr.id hdr b)
        let s := s.traceSet h.gr.ctx hdr traceState (if play then 3 else 1)
        let s := s.traceSet h.gr.ctx hdr (if play then traceCursor else traceCount) 0
        status (s.modX h.gr.id (fun x => x.setLevel level (some ⟨hdr, play, []⟩))) 0

/-- Every leaf that the group bound since its previous DETSET has DONE = 1 (R307). -/
def State.boundDone (s : State) (gr : Group) : Bool :=
  gr.x.bound.all (fun va =>
    match s.rcb? gr.ctx va with
    | some r => s.rdone r
    | none => true)

/-- DETSET: the drain, the wait for the group's leaves, the close, then the new level (R307). -/
def hallDetset (level : Nat) (play : Bool) (a : Operand) (hdr : HallView → Nat) (h : HallView) : HallRes :=
  if !h.engineDrained then .stall h.s
  else if !h.s.boundDone h.gr then .wait h.s .detset
  else h.setLevel (h.s.closeTrace h.gr) a level play (hdr h)

/-- DETSET.D0 (R307). -/
def execDetsetD0 (k : Ctl) (a : Operand) (s : State) : Host.Outcome State Fault Refusal :=
  runHall (.detsetD0 k a) (hallDetset 0 false a (fun _ => 0)) s

/-- The header address of DETSET.REC and DETSET.PLAY. -/
def detHeader (b : Operand) (h : HallView) : Nat := (h.r64 false b).toNat

/-- DETSET.D1.REC and DETSET.D2.REC (R307). -/
def execDetsetRec (k : Ctl) (d2 : Bool) (a b : Operand) (s : State) : Host.Outcome State Fault Refusal :=
  runHall (.detsetRec k d2 a b) (hallDetset (if d2 then 2 else 1) false a (detHeader b)) s

/-- DETSET.D1.PLAY and DETSET.D2.PLAY (R307). -/
def execDetsetPlay (k : Ctl) (d2 : Bool) (a b : Operand) (s : State) : Host.Outcome State Fault Refusal :=
  runHall (.detsetPlay k d2 a b) (hallDetset (if d2 then 2 else 1) true a (detHeader b)) s

/-! ### CLK (R308) -/

/-- The partition's rotation count, as software reads it. -/
def State.vtimeWord (s : State) (gr : Group) : DWord := BitVec.ofNat 64 (s.vtimeOf gr.ctx)

/-- %cycles, or %vtime where the group is determined (R295, R308). -/
def State.clock (s : State) (gr : Group) : DWord := if s.determined gr then s.vtimeWord gr else s.cycles

/-- CLK (R308). -/
def execClk (k : Ctl) (a : Operand) (s : State) : Host.Outcome State Fault Refusal :=
  runBoth (.clk k a) (fun h => .write h a (h.s.clock h.gr)) (fun v => .write v (v.w64 a (fun _ => v.s.clock v.gr))) s

/-- CLK.VT (R308). -/
def execClkVt (k : Ctl) (a : Operand) (s : State) : Host.Outcome State Fault Refusal :=
  runBoth (.clkVt k a) (fun h => .write h a (h.s.vtimeWord h.gr)) (fun v => .write v (v.w64 a (fun _ => v.s.vtimeWord v.gr))) s

/-- CLK.RET (R302, R308): the Hall has no count of its own. -/
def execClkRet (k : Ctl) (a : Operand) (s : State) : Host.Outcome State Fault Refusal :=
  runBoth (.clkRet k a) (fun _ => .trap (.plain .illegalOperand 0))
    (fun v => .write v (v.w64 a (fun _ => v.w.retired.setWidth 64))) s

end Sys2Proof.Machine
end

