-- ==== Sys2Proof/Machine/Logic.lean ====
section
/-! DEFINITION. Logic, bits, lanes and packing (R142 to R152). -/

namespace Sys2Proof.Machine

open Sys2Proof

/-! ### Logic (R142, R143) -/

/-- A source of a logic operation: an immediate is sign-extended, a selected part zero-extended (R42, R142). -/
def WarpView.logicSrc (v : WarpView) (w64 : Bool) (o : Operand) (l : Nat) : DWord :=
  if w64 then v.r64 true o l else (eselWord false (opEsel o) (v.raw true o 0 l)).setWidth 64

/-- A logic operation in both forms: B, C and the old A. -/
def runLogic (i : Instr) (w64 : Bool) (f : DWord → DWord → DWord → DWord) (old : Bool) (a b c : Operand) (s : State) :
    Host.Outcome State Fault Refusal :=
  runBoth i
    (fun h => .write h a (hallWide w64 (f (h.r64 true b) (h.r64 true c) (h.r64 true a))))
    (fun v => .write v (v.wLong w64 a (fun l =>
      f (v.logicSrc w64 b l) (v.logicSrc w64 c l) (if old then v.logicSrc w64 a l else 0)))) s

def maybeNot (n : Bool) (x : DWord) : DWord := if n then ~~~x else x

/-- AND (R142). -/
def execAnd (k : Ctl) (nc w64 : Bool) (a b c : Operand) (s : State) : Host.Outcome State Fault Refusal :=
  runLogic (.and k nc w64 a b c) w64 (fun x y _ => x &&& maybeNot nc y) false a b c s

/-- OR (R142). -/
def execOr (k : Ctl) (nc w64 : Bool) (a b c : Operand) (s : State) : Host.Outcome State Fault Refusal :=
  runLogic (.or k nc w64 a b c) w64 (fun x y _ => x ||| maybeNot nc y) false a b c s

/-- XOR (R142). -/
def execXor (k : Ctl) (nc w64 : Bool) (a b c : Operand) (s : State) : Host.Outcome State Fault Refusal :=
  runLogic (.xor k nc w64 a b c) w64 (fun x y _ => x ^^^ maybeNot nc y) false a b c s

/-- Each bit by the truth table: the old A gives the least significant index bit, C the most significant (R143). -/
def tableBits (tbl : BitVec 8) (x y z : DWord) : DWord :=
  (List.range 8).foldl (fun r j =>
    if tbl.getLsbD j then
      r ||| (maybeNot (!j.testBit 0) z &&& maybeNot (!j.testBit 1) x &&& maybeNot (!j.testBit 2) y)
    else r) 0

/-- BITFN (R143). -/
def execBitfn (k : Ctl) (w64 : Bool) (tbl : BitVec 8) (a b c : Operand) (s : State) :
    Host.Outcome State Fault Refusal :=
  runLogic (.bitfn k w64 tbl a b c) w64 (tableBits tbl) true a b c s

/-! ### Shifts and fields (R144, R145) -/

def shiftLeft (n : Nat) (x : DWord) (k : Nat) : DWord := if k < n then wrapBits n ((x <<< k).toNat : Int) else 0

def shiftRight (signed : Bool) (n : Nat) (x : DWord) (k : Nat) : DWord :=
  wrapBits n (bitsVal signed n x / (2 ^ min k n : Int))

def rotateLeft (n : Nat) (x : DWord) (k : Nat) : DWord :=
  ((x.truncate n).rotateLeft (k % n)).setWidth 64

/-- A shift in both forms; the amount is bits 31:0 of C (R144). -/
def runShift (i : Instr) (ty : LongTy) (f : Nat → DWord → Nat → DWord) (a b c : Operand) (s : State) :
    Host.Outcome State Fault Refusal :=
  let n := longBits ty.w64
  runBoth i
    (fun h => .write h a (extend64 ty.signed n (f n (h.r64 ty.signed b) (h.r32 ty.signed c).toNat)))
    (fun v => .write v (v.wLong ty.w64 a (fun l =>
      f n (v.scalarSrc ty.signed ty.w64 b l) (v.r32 ty.signed c l).toNat))) s

/-- SHL (R144). -/
def execShl (k : Ctl) (ty : LongTy) (a b c : Operand) (s : State) : Host.Outcome State Fault Refusal :=
  runShift (.shl k ty a b c) ty shiftLeft a b c s

/-- SHR (R144). -/
def execShr (k : Ctl) (ty : LongTy) (a b c : Operand) (s : State) : Host.Outcome State Fault Refusal :=
  runShift (.shr k ty a b c) ty (shiftRight ty.signed) a b c s

/-- ROT (R144). -/
def execRot (k : Ctl) (ty : LongTy) (a b c : Operand) (s : State) : Host.Outcome State Fault Refusal :=
  runShift (.rot k ty a b c) ty rotateLeft a b c s

/-- Position and length of the field that C names (R145). -/
def fieldOf (n : Nat) (c : Word) : Nat × Nat :=
  let pos := c.toNat % 256
  let len := c.toNat / 256 % 256
  if n ≤ pos then (0, 0) else (pos, min len (n - pos))

def extractField (signed : Bool) (n : Nat) (x : DWord) (c : Word) : DWord :=
  let (pos, len) := fieldOf n c
  if len = 0 then 0 else wrapBits n (bitsVal signed len ((x.truncate n).setWidth 64 >>> pos))

def insertField (n : Nat) (x old : DWord) (c : Word) : DWord :=
  let (pos, len) := fieldOf n c
  let mask : DWord := BitVec.ofNat 64 ((2 ^ len - 1) * 2 ^ pos)
  (old &&& ~~~mask) ||| ((x <<< pos) &&& mask)

/-- BFX (R145). -/
def execBfx (k : Ctl) (ty : LongTy) (a b c : Operand) (s : State) : Host.Outcome State Fault Refusal :=
  let n := longBits ty.w64
  runBoth (.bfx k ty a b c)
    (fun h => .write h a (extend64 ty.signed n (extractField ty.signed n (h.r64 ty.signed b) (h.r32 ty.signed c))))
    (fun v => .write v (v.wLong ty.w64 a (fun l =>
      extractField ty.signed n (v.scalarSrc ty.signed ty.w64 b l) (v.r32 ty.signed c l)))) s

/-- BFI (R145). -/
def execBfi (k : Ctl) (ty : LongTy) (a b c : Operand) (s : State) : Host.Outcome State Fault Refusal :=
  let n := longBits ty.w64
  runBoth (.bfi k ty a b c)
    (fun h => .write h a (extend64 ty.signed n (insertField n (h.r64 ty.signed b) (h.r64 ty.signed a) (h.r32 ty.signed c))))
    (fun v => .write v (v.wLong ty.w64 a (fun l =>
      insertField n (v.scalarSrc ty.signed ty.w64 b l) (v.scalarSrc ty.signed ty.w64 a l) (v.r32 ty.signed c l)))) s

/-! ### Counting and reversing (R146) -/

def bitCount (n : Nat) (x : DWord) : DWord :=
  BitVec.ofNat 64 ((List.range n).filter (fun i => x.getLsbD i)).length
def leadingZeros (n : Nat) (x : DWord) : DWord :=
  BitVec.ofNat 64 (((List.range n).find? (fun i => x.getLsbD (n - 1 - i))).getD n)
def trailingZeros (n : Nat) (x : DWord) : DWord :=
  BitVec.ofNat 64 (((List.range n).find? (fun i => x.getLsbD i)).getD n)
def reverseBits (n : Nat) (x : DWord) : DWord :=
  (List.range n).foldl (fun r i => if x.getLsbD i then r ||| BitVec.twoPow 64 (n - 1 - i) else r) 0

/-- A count in both forms: 32 bits, zero-extended in an s register (R146). -/
def runCount (i : Instr) (w64 : Bool) (f : Nat → DWord → DWord) (a b : Operand) (s : State) :
    Host.Outcome State Fault Refusal :=
  let n := longBits w64
  runBoth i
    (fun h => .write h a (f n (h.r64 true b)))
    (fun v => .write v (v.w32 a (fun l => (f n (v.logicSrc w64 b l)).setWidth 32))) s

/-- POPC (R146). -/
def execPopc (k : Ctl) (w64 : Bool) (a b : Operand) (s : State) : Host.Outcome State Fault Refusal :=
  runCount (.popc k w64 a b) w64 bitCount a b s

/-- CLZ (R146). -/
def execClz (k : Ctl) (w64 : Bool) (a b : Operand) (s : State) : Host.Outcome State Fault Refusal :=
  runCount (.clz k w64 a b) w64 leadingZeros a b s

/-- CTZ (R146). -/
def execCtz (k : Ctl) (w64 : Bool) (a b : Operand) (s : State) : Host.Outcome State Fault Refusal :=
  runCount (.ctz k w64 a b) w64 trailingZeros a b s

/-- BREV (R146). -/
def execBrev (k : Ctl) (w64 : Bool) (a b : Operand) (s : State) : Host.Outcome State Fault Refusal :=
  runLogic (.brev k w64 a b) w64 (fun x _ _ => reverseBits (longBits w64) x) false a b b s

/-! ### Moves (R147 to R151) -/

/-- MOV (R147). -/
def execMov (k : Ctl) (w64 : Bool) (a b : Operand) (s : State) : Host.Outcome State Fault Refusal :=
  runLogic (.mov k w64 a b) w64 (fun x _ _ => x) false a b b s

/-- The immediate of MOVI: FN and C (R148). -/
def moviImm (hi : BitVec 12) (c : Operand) : Word :=
  match c with
  | .imm lo => hi ++ lo
  | _ => 0

/-- The mode of MOVI, in B (R148). -/
def moviMode (b : Operand) : Nat :=
  match b with
  | .imm v => v.toNat
  | _ => 0

/-- A scalar destination of MOVI: zero-extended, sign-extended, or the upper half with the lower kept (R148). -/
def moviScalar (mode : Nat) (x : Word) (old : DWord) : DWord :=
  match mode with
  | 0 => x.setWidth 64
  | 1 => x.signExtend 64
  | _ => x ++ old.truncate 32

/-- MOVI (R148). -/
def execMovi (k : Ctl) (hi : BitVec 12) (a b c : Operand) (s : State) : Host.Outcome State Fault Refusal :=
  runBoth (.movi k hi a b c)
    (fun h => .write h a (moviScalar (moviMode b) (moviImm hi c) (h.r64 false a)))
    (fun v => .write v (v.w32 a (fun _ => moviImm hi c))) s

/-- PERM: lane `l` takes B of the lane that C names (R149). -/
def warpPerm (z : Bool) (a b c : Operand) (v : WarpView) : WarpRes :=
  .write v (v.w32 a (fun l =>
    let i := (v.r32 false c l).toNat
    if z && decide (32 ≤ i) then 0 else v.r32 false b (i % 32)))

/-- PERM (R149). -/
def execPerm (k : Ctl) (z : Bool) (a b c : Operand) (s : State) : Host.Outcome State Fault Refusal :=
  runWarp (.perm k z a b c) (warpPerm z a b c) s

/-- The packed register of PACK: B's elements, then C's, each of twice the destination's width (R150). -/
def packTwo (m : IntMod) (x y : Word) : Word :=
  let n := widthBits m.ty.w
  let half := 16 / n
  packElems n (fun e =>
    let src := if e < half then elemBits (2 * n) e x else elemBits (2 * n) (e - half) y
    fixBits m.sat m.ty.signed n (bitsVal m.ty.signed (2 * n) src))

/-- PACK (R150). -/
def execPack (k : Ctl) (m : IntMod) (a b c : Operand) (s : State) : Host.Outcome State Fault Refusal :=
  let src := fun (v : WarpView) o l => if m.ty.w = .b16 then v.r32 m.ty.signed o l else v.rPacked o l
  runBoth (.pack k m a b c)
    (fun h => .write h a ((packTwo m (h.r32 false b) (h.r32 false c)).setWidth 64))
    (fun v => .write v (v.w32 a (fun l => packTwo m (src v b l) (src v c l)))) s

/-- The ternary weight of digit `j` of a T5 code, as a byte (R151). -/
def t5Weight (code j : Nat) : Byte := BitVec.ofInt 8 ((code / 3 ^ j % 3 : Nat) - 1)

/-- UNPK3 (R151). -/
def warpUnpk3 (trap : Bool) (a b c : Operand) (v : WarpView) : WarpRes :=
  let code := fun l => (v.r32 false b l).toNat % 256
  let bad := Mask.of (fun l => v.active.has l && decide (242 < code l))
  if trap && bad != 0 then .trap (.plain .illegalOperand bad)
  else
    .done { st := v.s,
            writes := v.w64 a (fun l =>
              if bad.has l then 0
              else ((t5Weight (code l) 4 ++ t5Weight (code l) 3 ++ t5Weight (code l) 2 ++ t5Weight (code l) 1 ++
                t5Weight (code l) 0 : BitVec 40)).setWidth 64),
            preds := match c with
              | .pred i => [(i.toNat, v.active, bad)]
              | _ => [] }

/-- UNPK3 (R151). -/
def execUnpk3 (k : Ctl) (trap : Bool) (a b c : Operand) (s : State) : Host.Outcome State Fault Refusal :=
  runWarp (.unpk3 k trap a b c) (warpUnpk3 trap a b c) s

/-- ISECT: the lane of C with the same key, and how many keys of each list are at most the smaller last key (R152). -/
def warpIsect (a b c : Operand) (v : WarpView) : WarpRes :=
  let kb := fun l => (v.r32 false b l).toNat
  let kc := fun l => (v.r32 false c l).toNat
  let m := min (kb 31) (kc 31)
  let count := fun (f : Nat → Nat) => (laneNumbers.filter (fun l => decide (f l ≤ m))).length
  let odd : Word := BitVec.ofNat 32 (count kb + count kc * 65536)
  .write v (v.w64 a (fun l =>
    odd ++ (match laneNumbers.find? (fun j => kc j == kb l) with
    | some j => BitVec.ofNat 32 j
    | none => 0xFFFFFFFF)))

/-- ISECT (R152). -/
def execIsect (k : Ctl) (a b c : Operand) (s : State) : Host.Outcome State Fault Refusal :=
  runWarp (.isect k a b c) (warpIsect a b c) s

end Sys2Proof.Machine
end

