-- ==== Sys2Proof/Machine/Control.lean ====
section
/-! DEFINITION. Predicates (R153, R154) and control flow (R157 to R165, R69) but for EXIT, which ends groups. -/

namespace Sys2Proof.Machine

open Sys2Proof

/-! ### PSET and PMOV (R153, R154) -/

def psetOp (op : PsetOp) (x y : Bool) : Bool :=
  match op with
  | .and => x && y
  | .or => x || y
  | .xor => x != y

/-- PSET (R153). -/
def execPset (k : Ctl) (op : PsetOp) (nb nc inv : Bool) (a b c : Operand) (s : State) :
    Host.Outcome State Fault Refusal :=
  runBoth (.pset k op nb nc inv a b c)
    (fun h => .done { st := h.s, c := condWrite a (psetOp op (h.bit b != nb) (h.bit c != nc) != inv) })
    (fun v => .done { st := v.s, preds := v.setBit a (fun l => psetOp op (v.bit b l != nb) (v.bit c l != nc) != inv) }) s

/-- PMOV, copying one bit (R154). -/
def execPmov (k : Ctl) (a b : Operand) (s : State) : Host.Outcome State Fault Refusal :=
  runBoth (.pmov k a b)
    (fun h => .done { st := h.s, c := condWrite a (h.bit b) })
    (fun v => .done { st := v.s, preds := v.setBit a (fun l => v.bit b l) }) s

/-- The set that a TOREG or FROMREG names, as lane `l` reads it: predicates, or the conditions as uniform values. -/
def WarpView.bitSet (v : WarpView) (o : Operand) (l : Nat) : BitVec 16 :=
  match o with
  | .cond _ => v.is.sc.c ||| 1
  | _ => (v.w.threads.get l).preds ||| 1

/-- PMOV.TOREG (R154). -/
def execPmovToreg (k : Ctl) (a b : Operand) (s : State) : Host.Outcome State Fault Refusal :=
  runBoth (.pmovToreg k a b)
    (fun h => .write h a ((h.sc.c ||| 1).setWidth 64))
    (fun v => .write v (v.w32 a (fun l => (v.bitSet b l).setWidth 32))) s

/-- The bits that the mask of FROMREG selects; bit 0 is ignored (R154). -/
def maskBits (c : Operand) : List Nat :=
  match c with
  | .imm m => ((List.range 16).drop 1).filter (fun i => m.getLsbD i)
  | _ => []

/-- PMOV.FROMREG (R154). -/
def execPmovFromreg (k : Ctl) (a b c : Operand) (s : State) : Host.Outcome State Fault Refusal :=
  runBoth (.pmovFromreg k a b c)
    (fun h => .done { st := h.s, c := (maskBits c).map (fun i => (i, (h.r64 false b).getLsbD i)) })
    (fun v => .done { st := v.s, preds := (maskBits c).map (fun i =>
      (i, v.active, Mask.of (fun l => v.active.has l && (v.r32 false b l).getLsbD i))) }) s

/-! ### Jumps (R157) -/

/-- The trap of lanes whose targets cannot be reached (R157, R158). -/
def WarpView.targetTrap (v : WarpView) (target : Nat → Option Word) : Option Trap :=
  laneTrap ((Mask.lanes v.active).filterMap (fun l =>
    ((target l).bind (fun pc => v.s.targetTrap v.gr pc)).map (fun t => (l, t.cause, t.addr, t.kind.toNat))))

/-- Where each lane of the path goes on: an active lane that has a target there, any other at PC + 1 (R157). -/
def WarpView.nextPc (v : WarpView) (target : Nat → Option Word) (l : Nat) : Word :=
  if v.active.has l then (target l).getD (v.is.pc + 1) else v.is.pc + 1

/-- A region branch that the warp takes from the queue opens a region unless every thread comes to its MEET (R68, R161). -/
def WarpView.openRegion (v : WarpView) (target : Nat → Option Word) : State :=
  if !v.is.queued then v.s
  else if (Mask.lanes v.is.lanes).all (fun l => v.nextPc target l == (v.w.threads.get l).meet) then
    v.s.modWarp v.is.g v.is.w (fun w => w.modThreads v.is.lanes (fun t => { t with meet := 0xFFFFFFFF }))
  else v.s.modWarp v.is.g v.is.w (fun w => { w with region := some ⟨v.is.meet.getD 0xFFFFFFFF, v.is.sc⟩ })

/-- What a jump of lanes does: a region branch where the warp takes it from the queue, a lane jump elsewhere (R68, R157). -/
def WarpView.jump (v : WarpView) (target : Nat → Option Word) (writes : List RegWrite) : WarpEff :=
  { st := v.openRegion target, writes := writes, jump := some (Lanes.of (fun l => some (v.nextPc target l))) }

/-- A jump of the active lanes that have a target, unless one cannot be reached (R157, R158). -/
def WarpView.jumpTo (v : WarpView) (target : Nat → Option Word) (writes : List RegWrite) : WarpRes :=
  match v.targetTrap target with
  | some t => .trap t
  | none => .done (v.jump target writes)

/-- A uniform jump of the Hall or of an access program. -/
def HallView.jumpTo (h : HallView) (target : Word) (sw : List (Nat × DWord)) : HallRes :=
  match h.s.targetTrap h.gr target with
  | some t => .trap t
  | none => .done { st := h.s, s := sw, pc := some target }

/-- BRA (R159). -/
def execBra (k : Ctl) (l : Bool) (off : BitVec 24) (s : State) : Host.Outcome State Fault Refusal :=
  runBoth (.bra k l off)
    (fun h => h.jumpTo (pcPlus h.pc off) [])
    (fun v => v.jumpTo (fun _ => some (pcPlus v.is.pc off)) []) s

/-- BRX (R160). -/
def execBrx (k : Ctl) (l : Bool) (b : Operand) (s : State) : Host.Outcome State Fault Refusal :=
  runBoth (.brx k l b)
    (fun h => h.jumpTo (h.r32 false b) [])
    (fun v => v.jumpTo (fun l => some (v.r32 false b l)) []) s

/-! ### MEET (R161) -/

/-- New meeting addresses for the active lanes. -/
def WarpView.setMeet (v : WarpView) (f : Nat → Word) : State :=
  v.s.modWarp v.is.g v.is.w (fun w =>
    { w with threads := Lanes.of (fun l =>
        if v.active.has l then { w.threads.get l with meet := f l } else w.threads.get l) })

/-- MEET (R161). -/
def execMeet (k : Ctl) (off : BitVec 24) (s : State) : Host.Outcome State Fault Refusal :=
  runWarp (.meet k off) (fun v =>
    if v.active != 0 && pcPlus v.is.pc off == 0xFFFFFFFF then .trap (.plain .illegalOperand v.active)
    else .done { st := v.setMeet (fun _ => pcPlus v.is.pc off) }) s

/-- MEET.SV (R161). -/
def execMeetSv (k : Ctl) (off : BitVec 24) (a : Operand) (s : State) : Host.Outcome State Fault Refusal :=
  runWarp (.meetSv k off a) (fun v =>
    if v.active != 0 && pcPlus v.is.pc off == 0xFFFFFFFF then .trap (.plain .illegalOperand v.active)
    else .done { st := v.setMeet (fun _ => pcPlus v.is.pc off),
                 writes := v.w32 a (fun l => (v.w.threads.get l).meet) }) s

/-- MEET.LD (R161). -/
def execMeetLd (k : Ctl) (b : Operand) (s : State) : Host.Outcome State Fault Refusal :=
  runWarp (.meetLd k b) (fun v => .done { st := v.setMeet (fun l => v.r32 false b l) }) s

/-! ### Release at a meeting address (R69) -/

/-- Thread `u` does not keep `t` held: it has ended, has another MEET, or is held too. Threads of a handler or of a stub wait
for each other only, and what a stub keeps aside is the MEET of its thread (R68, R83, R228). -/
def Thread.lets (t u : Thread) : Bool :=
  !u.live || (t.handler && !u.handler) || (t.stub && !u.stub) ||
    (if u.stub && !t.stub then u.stubMeet != t.meet else u.meet != t.meet || u.held)

/-- A held thread that may issue: while the handler runs, only its own threads and those in rebuild stubs. -/
def Warp.mayRelease (w : Warp) (t : Thread) : Bool := t.live && t.held && (t.stub || t.handler == w.handler.isSome)

/-- The first lane whose MEET value every live thread with it has reached. -/
def Warp.releasable (w : Warp) : Option Thread :=
  (laneNumbers.find? (fun l =>
    let t := w.threads.get l
    w.mayRelease t && laneNumbers.all (fun j => t.lets (w.threads.get j)))).map w.threads.get

/-- The held threads go on as one path; where they are every live thread at the region's meeting address, the warp leaves
the region (R69, R161). -/
def Warp.release (w : Warp) (t : Thread) : Warp :=
  let lanes := w.liveLanes (fun u => w.mayRelease u && u.meet == t.meet && u.stub == t.stub)
  let out := match w.region with
    | some r => r.meet == t.meet && lanes == w.liveMask && !t.handler && !t.stub
    | none => false
  { (w.modThreads lanes (fun t => { t with held := false, meet := 0xFFFFFFFF })) with
    region := if out then none else w.region }

/-- REGION_RELEASE (R69). -/
def execRegionRelease (g w : Nat) (s : State) : Host.Outcome State Fault Refusal :=
  finish s (match s.warp? g w with
    | none => s
    | some wp =>
      match wp.releasable with
      | some t => s.modWarp g w (fun x => x.release t)
      | none => s)

/-! ### Calls and returns (R162, R163) -/

/-- The write of PC + 1 to the link register. -/
def WarpView.link (v : WarpView) : List RegWrite :=
  [⟨linkReg, v.active, 0xFFFFFFFF, Lanes.of (fun _ => v.is.pc + 1)⟩]

/-- CALL: where the Hall follows it, the warp only takes its link (R162). -/
def warpCall (k : Ctl) (off : BitVec 24) (v : WarpView) : WarpRes :=
  if v.is.queued && k.guard.uniform then .write v v.link
  else v.jumpTo (fun _ => some (pcPlus v.is.pc off)) v.link

/-- CALL (R162). -/
def execCall (k : Ctl) (off : BitVec 24) (s : State) : Host.Outcome State Fault Refusal :=
  runWarp (.call k off) (warpCall k off) s

/-- CALLX (R162). -/
def execCallx (k : Ctl) (b : Operand) (s : State) : Host.Outcome State Fault Refusal :=
  runWarp (.callx k b) (fun v => v.jumpTo (fun l => some (v.r32 false b l)) v.link) s

/-- What a warp gives its Hall for a combined result (R66). -/
def WarpView.giveVote (v : WarpView) (f : Nat → DWord) : State :=
  v.s.modHall v.is.g (fun h =>
    { h with combine := h.combine.map (fun c =>
        { c with votes := c.votes.filter (fun x => x.1 != v.is.w) ++ [(v.is.w, Lanes.of f, v.active)] }) })

/-- RET: lanes must agree with the value the Hall popped; with an empty link stack the Hall waits for the warps; inside a
region each lane goes where its link says (R163). -/
def warpRet (k : Ctl) (v : WarpView) : WarpRes :=
  let link := fun l => v.lane linkReg l
  if v.is.queued && k.guard.uniform then
    match v.is.link with
    | some x =>
      let bad := Mask.of (fun l => v.active.has l && link l != x)
      if bad != 0 then .trap (.plain .illegalConvergence bad) else .done { st := v.s }
    | none => .done { st := v.giveVote (fun l => (link l).setWidth 64) }
  else v.jumpTo (fun l => some (link l)) []

/-- RET (R163). -/
def execRet (k : Ctl) (s : State) : Host.Outcome State Fault Refusal := runWarp (.ret k) (warpRet k) s

/-! ### LOOP (R165) -/

/-- The Hall's counted branch. -/
def hallLoop (off : BitVec 24) (a : Operand) (h : HallView) : HallRes :=
  let cnt := h.r64 false a
  if cnt = 0 then .done { st := h.s }
  else if cnt = 1 then .write h a 0
  else h.jumpTo (pcPlus h.pc off) (sWrite a (cnt - 1))

/-- The lane's counted branch: lanes whose count goes on jump (R165). -/
def warpLoop (off : BitVec 24) (a : Operand) (v : WarpView) : WarpRes :=
  let cnt := fun l => v.r32 false a l
  let dec := v.w32 a (fun l => if cnt l = 0 then 0 else cnt l - 1)
  let target := fun l => if 2 ≤ (cnt l).toNat then some (pcPlus v.is.pc off) else none
  v.jumpTo target dec

/-- LOOP (R165). -/
def execLoop (k : Ctl) (off : BitVec 24) (a : Operand) (s : State) : Host.Outcome State Fault Refusal :=
  runBoth (.loop k off a) (hallLoop off a) (warpLoop off a) s

end Sys2Proof.Machine
end

