-- ==== Sys2Proof/Machine/Combine.lean ====
section
/-! DEFINITION. Combining across lanes and across a group: VOTE (R155), VRED (R156), and the Hall's wait for the combined
result (R66, R163). -/

namespace Sys2Proof.Machine

open Sys2Proof

/-- A destination whose result the whole group combines (R155, R156). -/
def groupDest (a : Operand) : Bool := a.kind == .sreg || a.kind == .cond

/-- A form for the group, which only the queue may bring (R66, R155, R156), or one for the warp. -/
def WarpView.combine (v : WarpView) (a : Operand) (give : Nat → DWord) (own : WarpRes) : WarpRes :=
  if !groupDest a then own
  else if v.is.queued then .done { st := v.giveVote give }
  else if v.active = 0 then .done { st := v.s }
  else .trap (.plain .illegalConvergence v.active)

/-! ### VOTE (R155) -/

/-- The result of ANY, ALL or CNT over a number of operands of which some are 1. -/
def voteResult (mode : VoteMode) (total ones : Nat) : DWord :=
  match mode with
  | .any => if 0 < ones then 1 else 0
  | .all => if ones = total then 1 else 0
  | .ballot => 0
  | .cnt => BitVec.ofNat 64 ones

/-- The warp's own result: a predicate, a mask or a count (R155). -/
def warpVote (mode : VoteMode) (neg : Bool) (a b : Operand) (v : WarpView) : WarpRes :=
  let ones := Mask.of (fun l => v.active.has l && (v.bit b l != neg))
  let r := voteResult mode v.active.count ones.count
  v.combine a (fun l => if ones.has l then 1 else 0)
    (match a with
    | .pred _ => .done { st := v.s, preds := v.setBit a (fun _ => r.getLsbD 0) }
    | _ => .write v (v.w32 a (fun _ => if mode = .ballot then ones else r.setWidth 32)))

/-- VOTE (R155). -/
def execVote (k : Ctl) (mode : VoteMode) (neg : Bool) (a b : Operand) (s : State) :
    Host.Outcome State Fault Refusal :=
  runWarp (.vote k mode neg a b) (warpVote mode neg a b) s

/-! ### VRED (R156) -/

/-- The identity of an operation (R156). -/
def vredUnit (op : VredOp) (ty : LongTy) : DWord :=
  let n := longBits ty.w64
  match op with
  | .add | .or | .xor | .fadd => 0
  | .min => wrapBits n (typeMax ty.signed n)
  | .max => wrapBits n (typeMin ty.signed n)
  | .and => wrapBits n (-1)

/-- One combining step on `n`-bit operands (R156). -/
def vredStep (op : VredOp) (ty : LongTy) (x y : DWord) : DWord :=
  let n := longBits ty.w64
  let less := decide (bitsVal ty.signed n x ≤ bitsVal ty.signed n y)
  match op with
  | .add => wrapBits n ((x.toNat + y.toNat : Nat) : Int)
  | .min => if less then x else y
  | .max => if less then y else x
  | .and => x &&& y
  | .or => x ||| y
  | .xor => x ^^^ y
  | .fadd => (addRes .f32 .rn (fval .f32 x) (fval .f32 y)).bits

/-- The reduction of operands in order (R156). -/
def vredFold (op : VredOp) (ty : LongTy) (xs : List DWord) : DWord :=
  match xs with
  | [] => vredUnit op ty
  | x :: rest =>
    let x := if op = .fadd then (roundVal .f32 .rn (fval .f32 x)).bits else x
    rest.foldl (vredStep op ty) x

/-- The lanes of a mask in order, each with its value. -/
def maskValues (m : Mask) (f : Nat → DWord) : List DWord := (Mask.lanes m).map f

def warpVred (op : VredOp) (ty : LongTy) (a b : Operand) (v : WarpView) : WarpRes :=
  let x := fun l => v.scalarSrc false ty.w64 b l
  v.combine a x (.write v (v.wLong ty.w64 a (fun _ => vredFold op ty (maskValues v.active x))))

/-- VRED (R156). -/
def execVred (k : Ctl) (op : VredOp) (ty : LongTy) (a b : Operand) (s : State) :
    Host.Outcome State Fault Refusal :=
  runWarp (.vred k op ty a b) (warpVred op ty a b) s

/-! ### The Hall's combination (R66, R163) -/

/-- Every live warp has retired the entry. -/
def Group.combineDue (gr : Group) (c : Combine) : Bool :=
  gr.liveWarps.all (fun i =>
    match gr.warps[i]? with
    | some w => decide (c.position < w.rp)
    | none => true)

/-- The operands of live warps in ascending warp and lane number (R156). -/
def Group.votes (gr : Group) (c : Combine) : List DWord :=
  gr.liveWarps.flatMap (fun i =>
    match c.votes.find? (fun x => x.1 == i) with
    | some (_, vals, m) => maskValues m (fun l => vals.get l)
    | none => [])

/-- The Hall takes a combined value into its destination and goes on. -/
def Hall.takeResult (h : Hall) (a : Operand) (x : DWord) : Hall :=
  let ss := sWrite a x
  let cs := match a with
    | .cond _ => condWrite a (x.getLsbD 0)
    | _ => []
  { h.commit ss cs (some h.pc) with dist := h.dist, combine := none }

/-- v253 of the lowest live lane of the lowest-numbered live warp (R163). -/
def Group.returnLink (gr : Group) : Word :=
  match gr.liveWarps with
  | [] => 0
  | i :: _ =>
    match gr.warps[i]? with
    | some w => (gr.reg i linkReg).get ((Mask.lowest w.liveMask).getD 0)
    | none => 0

/-- A RET whose value the warps gave: the Hall goes there, and the warps with a lane that differs go back to the entry
and raise ILLEGAL_CONVERGENCE (R163). -/
def State.combineRet (s : State) (gr : Group) (c : Combine) : State :=
  let x := gr.returnLink
  let at_ := c.position - gr.queueBase
  match gr.queue[at_]? with
  | none => s
  | some e =>
    match s.targetTrap gr x with
    | some t =>
      (s.modHall gr.id (fun h => { h with pc := e.pc, combine := none })).hallTrap gr.id t
    | none =>
      let s := s.modGroup gr.id (fun g =>
        { g with
          hall := { g.hall with pc := x, combine := none }
          queue := g.queue.set at_ { e with link := some x } })
      gr.liveWarps.foldl
        (fun s i =>
          match c.votes.find? (fun y => y.1 == i), gr.warps[i]? with
          | some (_, vals, m), some w =>
            let bad := Mask.of (fun l => m.has l && (vals.get l).setWidth 32 != x)
            if bad = 0 then s
            else
              (s.modWarp gr.id i (fun w => { w with rp := c.position })).takeTrap
                ⟨gr.id, i, w.liveMask, e.pc, e.scalars, e.guard, true, none, some x⟩ (.plain .illegalConvergence bad) false
          | _, _ => s)
        s

/-- HALL_COMBINE (R66, R163). -/
def execHallCombine (g : Nat) (s : State) : Host.Outcome State Fault Refusal :=
  finish s (match s.group? g with
    | none => s
    | some gr =>
      match gr.hall.combine with
      | none => s
      | some c =>
        if !gr.combineDue c || gr.liveWarps.isEmpty then s
        else
          let xs := gr.votes c
          match c.instr with
          | .vote _ mode _ a _ =>
            s.modHall g (fun h => h.takeResult a (voteResult mode xs.length (xs.filter (· == 1)).length))
          | .vred _ op ty a _ =>
            s.modHall g (fun h => h.takeResult a (extend64 ty.signed (longBits ty.w64) (vredFold op ty xs)))
          | .ret _ => s.combineRet gr c
          | _ => s.modHall g (fun h => { h with combine := none }))

end Sys2Proof.Machine
end

