-- ==== Sys2Proof/Machine/Regions.lean ====
section
/-! DEFINITION. CTXOP (R250): fields of a live RCB changed, regions created with their groups, translations invalidated; and group
images and their lists (R246), which START reads as well. -/

namespace Sys2Proof.Machine

open Sys2Proof

/-! ### Group images (R246) -/

/-- The 64 bytes of a group image are legal. -/
def imageOk (b : List Byte) : Bool :=
  blockN b 0 8 % 64 == 0 && decide (1 ≤ blockN b 12 1) && decide (blockN b 12 1 ≤ 32) && decide (blockN b 13 1 ≤ 48) &&
  decide (blockN b 14 1 ≤ 1) && blockZero b 15 16 && blockN b 16 4 % 4096 == 0 &&
  decide (blockN b 16 4 ≤ Config.scratchpadBytes) && decide (1 ≤ blockN b 20 4) && decide (blockN b 20 4 ≤ 1024) &&
  decide (16 ≤ blockN b 36 4) && decide (blockN b 36 4 ≤ 32) && blockN b 40 8 % 65536 == 0 && blockZero b 48 64

/-- A group image from its bytes. -/
def imageOf (b : List Byte) : Image where
  codeBase := blockN b 0 8
  entry := BitVec.ofNat 32 (blockN b 8 4)
  warps := blockN b 12 1
  barriers := blockN b 13 1
  super := (blockN b 14 1).testBit 0
  spad := blockN b 16 4
  copies := blockN b 20 4
  spTable := blockN b 24 8
  spCount := blockN b 32 4
  stackLog := blockN b 36 4
  stackBase := BitVec.ofNat 64 (blockN b 40 8)

/-- What reading a list of images comes to: the images, a refusal, or a fault. -/
inductive Images where
  | good (l : List Image)
  | refused
  | fault (va : Nat) (cause : Cause) (kind : Nat)

/-- The images at the addresses of a list; a SUPER image is refused unless `super` (R246, R250). -/
def State.readImages (s : State) (c : Ctx) (super : Bool) : List Nat → State × Images
  | [] => (s, .good [])
  | a :: rest =>
    if a % 64 ≠ 0 then (s, .refused)
    else
      match s.engineRead c a 64 with
      | (s, .error (va, cause, k)) => (s, .fault va cause k)
      | (s, .ok b) =>
        if !imageOk b || ((imageOf b).super && !super) then (s, .refused)
        else
          match s.readImages c super rest with
          | (s, .good l) => (s, .good (imageOf b :: l))
          | r => r

/-- An image list: an 8-byte count and the addresses; at address 0 there is none. -/
def State.readList (s : State) (c : Ctx) (super : Bool) (va : Nat) : State × Images :=
  if va = 0 then (s, .good [])
  else if va % 8 ≠ 0 then (s, .fault va .misaligned 0)
  else
    match s.engineRead c va 8 with
    | (s, .error (a, cause, k)) => (s, .fault a cause k)
    | (s, .ok n) =>
      match s.engineRead c (va + 8) (8 * leNat n) with
      | (s, .error (a, cause, k)) => (s, .fault a cause k)
      | (s, .ok b) => s.readImages c super ((List.range (leNat n)).map (fun i => blockN b (8 * i) 8))

/-- The copies of an image begin to wait for a core (R287). -/
def State.addImage (s : State) (ctx home : Nat) (i : Image) : State :=
  let ord := ((s.ctx? ctx).map (·.ordinals)).getD 0
  { (s.modCtx ctx (fun c => { c with ordinals := c.ordinals + 1 })) with
    groups := s.groups ++ (List.range i.copies).map (fun k => Group.waiting (s.nextId + k) ctx i ord k home s.cycles.toNat)
    nextId := s.nextId + i.copies }

def State.addImages (s : State) (ctx home : Nat) (l : List Image) : State := l.foldl (fun s i => s.addImage ctx home i) s

/-! ### SETF (R250) -/

/-- The fields that SETF may write, by offset. -/
def setfField (off : Nat) : Option RcbField :=
  match off with
  | 4 => some .flags
  | 32 => some .bCores
  | 34 => some .bAcct
  | 36 => some .bSpad
  | 40 => some .bRegs
  | 44 => some .bLand
  | 46 => some .bQueues
  | 120 => some .evTarget
  | 128 => some .swapLim
  | 132 => some .wdogLim
  | 160 => some .trapVec
  | _ => none

/-- The RW bits of FLAGS (R11). -/
def flagsRw : Nat := 0xFC0D0F

/-- The value is in the field's own range (R10, R11). -/
def setfRange (f : RcbField) (v : Nat) : Bool :=
  decide (v < 2 ^ (8 * f.place.2)) &&
  (match f with
  | .flags => v / 1024 % 4 != 3
  | .bSpad => v % 4096 == 0
  | .swapLim => decide (256 ≤ v) && decide (v ≤ 2 ^ 31)
  | .wdogLim => decide (2 ^ 16 ≤ v)
  | .trapVec => decide (v < 2 ^ 32)
  | _ => true)

/-- The value a write leaves: of FLAGS only the RW bits change. -/
def State.setfValue (s : State) (r : Rcb) (f : RcbField) (v : Nat) : Nat :=
  match f with
  | .flags => (s.rget r .flags &&& (0xFFFFFFFF - flagsRw)) ||| (v &&& flagsRw)
  | _ => v

/-- The ceilings of an RCB in the order of `State.ceilings`. -/
def budgetFields : List RcbField := [.bCores, .bAcct, .bSpad, .bRegs, .bLand, .bQueues]

/-- The value that a write to `f` leaves in an RCB meets R8 and R13: a written ceiling of its own, or every one where the write makes
them its own (`wasOwn` says they were before), is within the parent's effective one, and an event word is aligned. DESIGN CHOICE:
children's own ceilings are not looked at: a ceiling below theirs, or OVR_BUDGET set above them, is accepted (log entry 30). -/
def State.setfOk (s : State) (r : Rcb) (f : RcbField) (wasOwn : Bool) : Bool :=
  let top := s.rget r .depth == 0
  let judged := (budgetFields.zip (s.ceilings r.ctx (s.rget r .parent))).filter (fun x => x.1 == f || (f == .flags && !wasOwn))
  (top || !s.rflag r 18 || judged.all (fun x => decide (s.rget r x.1 ≤ x.2))) &&
  !((s.rflag r 21 || top) && s.rget r .flags / 1024 % 4 == 2 && s.rget r .evTarget % 8 != 0)

/-- The status of a SETF and the state it leaves (R250). -/
def State.setf (s : State) (ctx va off v : Nat) : State × Nat :=
  match s.rcb? ctx va with
  | none => (s, 4)
  | some r =>
    match setfField off with
    | none => (s, 2)
    | some f =>
      if f = .trapVec && s.rget r .depth != 0 then (s, 2)
      else if !setfRange f v then (s, 3)
      else
        let t := s.rset r f (s.setfValue r f v)
        if t.setfOk r f (s.rflag r 18) then (t, 0) else (s, 3)

/-- CTXOP.SETF (R250). -/
def execCtxopSetf (k : Ctl) (field : BitVec 8) (a b c : Operand) (s : State) : Host.Outcome State Fault Refusal :=
  runHall (.ctxopSetf k field a b c) (fun h =>
    let r := h.s.setf h.gr.ctx (h.r64 false b).toNat field.toNat (h.r64 false c).toNat
    .done { st := r.1, s := sWrite a (BitVec.ofNat 64 r.2) }) s

/-! ### REGION (R250) -/

/-- The new region is linked and latched, and its images wait for cores. -/
def HallView.makeRegion (h : HallView) (s : State) (va parent : Nat) (l : List Image) : State :=
  (s.makeRcb h.gr.ctx va (s.rcbAt h.gr.ctx va).pa parent false).addImages h.gr.ctx va l

def hallRegion (a b c : Operand) (h : HallView) : HallRes :=
  let ctx := h.gr.ctx
  let va := (h.s64 (sregNo b)).toNat
  let list := (h.s64 (sregNo b + 1)).toNat
  let parent := (h.r64 false c).toNat
  let status := fun (s : State) (n : Nat) => HallRes.done { st := s, s := sWrite a (BitVec.ofNat 64 n) }
  match h.s.ctx? ctx with
  | none => .stall h.s
  | some x =>
    if !h.s.isRegion ctx parent then status h.s 4
    else if va % 256 ≠ 0 then status h.s 1
    else
      match h.s.readBlock ctx va 256 with
      | (_, .error t) => .trap t
      | (s, .ok rb) =>
        if !s.leafRcb ctx va 1 parent rb then status s 1
        else
          match s.readList x h.gr.image.super list with
          | (_, .fault e cause k) => .trap ⟨cause, 0, BitVec.ofNat 64 e, BitVec.ofNat 8 k⟩
          | (s, .refused) => status s 1
          | (s, .good l) =>
            if !s.latchFits [rcbLatch ctx va] then .stall h.s else status (h.makeRegion s va parent l) 0

/-- CTXOP.REGION (R250). -/
def execCtxopRegion (k : Ctl) (a b c : Operand) (s : State) : Host.Outcome State Fault Refusal :=
  runHall (.ctxopRegion k a b c) (hallRegion a b c) s

/-! ### TLBINV (R250) -/

/-- A range that TLBINV refuses. -/
def rangeBad (lo len : Nat) : Bool := len == 0 || decide (2 ^ 32 < len) || decide (2 ^ 64 < lo + len)

/-- A cached translation maps a byte of the range. -/
def TlbEntry.touches (e : TlbEntry) (lo len : Nat) : Bool :=
  decide (e.va < lo % 2 ^ 56 + len) && decide (lo % 2 ^ 56 < e.va + e.size)

/-- Physical bytes that an access of the context that is not yet performed will write or read. -/
def State.inFlight (s : State) (ctx : Nat) (hit : Nat → Bool) : Bool :=
  let queued := fun (q : List Store) => q.any (fun x => x.cells.any (fun c => hit c.1))
  s.commits.any (fun e => e.ctx == ctx && e.cells.any (fun c => hit c.1)) ||
  s.groups.any (fun gr => gr.ctx == ctx && (queued gr.hall.stores || gr.warps.any (fun w => queued w.stores) ||
    gr.x.programs.any (fun p => queued p.issued || p.flights.any (fun f => f.places.any (fun x => hit x.1)))))

/-- The ranges leave every cache of translations of the context; none where an access with an old one is still to be
performed (R29, R250). -/
def State.tlbDrop (s : State) (ctx : Nat) (rs : List (Nat × Nat)) : Option State :=
  match s.ctx? ctx with
  | none => some s
  | some c =>
    let gone := c.tlb.filter (fun e => rs.any (fun r => e.touches r.1 r.2))
    if s.inFlight ctx (fun a => gone.any (fun e => decide (e.pa ≤ a) && decide (a < e.pa + e.size))) then none
    else some (s.modCtx ctx (fun c => { c with tlb := c.tlb.filter (fun e => !rs.any (fun r => e.touches r.1 r.2)) }))

/-- The length operand in a lane: a scalar or an immediate whole, a vector's 32 bits. -/
def WarpView.length (v : WarpView) (c : Operand) (l : Nat) : Nat :=
  match c with
  | .sreg _ | .imm _ => (v.r64 false c l).toNat
  | _ => (v.r32 false c l).toNat

def warpTlbinv (b c : Operand) (v : WarpView) : WarpRes :=
  let range := fun l => (v.addr b 0 l, v.length c l)
  let bad := Mask.of (fun l => v.active.has l && rangeBad (range l).1 (range l).2)
  if bad != 0 then .trap (.plain .illegalOperand bad)
  else
    match v.s.tlbDrop v.gr.ctx ((Mask.lanes v.active).map range) with
    | some s => .done { st := s }
    | none => .stall v.s

def hallTlbinv (b c : Operand) (h : HallView) : HallRes :=
  let lo := (h.r64 false b).toNat
  let len := (h.r64 false c).toNat
  if rangeBad lo len then .trap (.plain .illegalOperand 0)
  else
    match h.s.tlbDrop h.gr.ctx [(lo, len)] with
    | some s => .done { st := s }
    | none => .stall h.s

/-- CTXOP.TLBINV (R250). -/
def execCtxopTlbinv (k : Ctl) (b c : Operand) (s : State) : Host.Outcome State Fault Refusal :=
  runBoth (.ctxopTlbinv k b c) (hallTlbinv b c) (warpTlbinv b c) s

end Sys2Proof.Machine
end

