-- ==== Sys2Proof/Machine/Stacks.lean ====
section
/-! DEFINITION. The stack controllers (R409 to R423): the map below the region, remapping, layer slices retired and restored, key
rotation, errors of the HBM, and the Cellar's commands. A program's bytes stand by their address before indirection, so a swap
moves none of them here. -/

namespace Sys2Proof.Machine

open Sys2Proof

/-! ### The map (R410, R412) -/

/-- The physical region of an address: what the indirection table holds, or the region itself. -/
def Stacks.physical (x : Stacks) (stack layer region : Nat) : Nat :=
  match x.moved.find? (fun m => m.stack == stack && m.layer == layer && m.region == region) with
  | some m => m.physical
  | none => region

/-- Channel, bank group, bank, row, column and byte of an HBM address (R410). -/
structure HbmPlace where
  channel : Nat
  bankGroup : Nat
  bank : Nat
  row : Nat
  column : Nat
  byte : Nat
  deriving DecidableEq, Repr

def Stacks.place (x : Stacks) (pa : Nat) : HbmPlace :=
  let g := x.physical (paStack pa) (paLayer pa) (paRegion pa)
  { channel := 8 * (g % 4) + pa / 2 ^ 7 % 8
    bankGroup := pa / 2 ^ 15 % 4
    bank := pa / 2 ^ 13 % 4
    row := g / 4 * 16 + pa / 2 ^ 17 % 16
    column := pa / 2 ^ 10 % 8
    byte := pa % 128 }

/-- An entry of the table; the identity is not listed. -/
def Stacks.setPhysical (x : Stacks) (stack layer region p : Nat) : Stacks :=
  let rest := x.moved.filter (fun (m : Moved) => !(m.stack == stack && m.layer == layer && m.region == region))
  { x with moved := if p = region then rest else rest ++ [⟨stack, layer, region, p⟩] }

def State.modStacks (s : State) (f : Stacks → Stacks) : State := { s with hbm := f s.hbm }

/-! ### Remapping (R413, R414) -/

/-- EPOCH_END: the controller may decide on one swap, of a populated region of one channel set with one of another in the same
layer; how often each set was accessed is not part of the state. A new epoch's error counts begin at 0. -/
def execEpochEnd (stack : Nat) (s : State) : Host.Outcome State Fault Refusal :=
  finish s (
    let s := s.modStacks (fun x => { x with epochErrors := x.epochErrors.filter (fun c => c.place / 2 ^ 11 % 32 != stack) })
    if !s.hbm.swapOn || s.hbm.swaps.any (fun w => w.stack == stack) || 24 ≤ stack then s
    else
      let (go, s) := s.draw 1
      let (layer, s) := s.draw 11
      let (a, s) := s.draw 1907
      let (b, s) := s.draw 1907
      let pa := s.hbm.physical stack layer a
      let pb := s.hbm.physical stack layer b
      if go = 0 || s.hbm.retired.contains layer || pa % 4 = pb % 4 then s
      else s.modStacks (fun x => { x with swaps := x.swaps ++ [⟨stack, layer, a, b⟩] }))

/-- SWAPCFG: the factor counts sixteenths, from 16 to 128 (R422). -/
def execSwapcfg (on : Bool) (factor offset : Nat) (s : State) : Host.Outcome State Fault Refusal :=
  finish s (s.storCmd (fun s =>
    if factor < 16 || 128 < factor then some (s, 4)
    else some (s.modStacks (fun x => { x with swapOn := on, swapFactor := factor, swapOffset := offset }), 0)))

/-! ### Errors (R421) -/

/-- Some frame of the context holds the address. -/
def Ctx.holds (c : Ctx) (pa : Nat) : Bool := c.frames.any (fun f => decide (f.1 ≤ pa) && decide (pa < f.1 + f.2))

/-- The line could not be read for the context: its halt line rises, or the Cellar freezes it where no engine runs it (R7,
R421). -/
def State.lineLost (s : State) (c : Ctx) (pa : Nat) : State :=
  if c.state == .running then
    s.modCtx c.num (fun c =>
      { c with
        halt := c.halt.orElse (fun _ =>
          some ⟨{ FaultInfo.blank with cause := 0x3F, cinfo := c.vaOf pa }, [], false, s.cycles.toNat, []⟩)
        preempting := none })
  else if c.state == .frozen then s
  else (s.freezeIdle c 2 0x3F pa).eccEvent c.num pa

/-- The Cellar reads the frames of a context that satisfy a test: a line among them that cannot be read is met (R423). -/
def State.sweepLines (s : State) (c : Ctx) (f : Nat → Bool) : State :=
  match s.hbm.poisoned.find? (fun x => f (x.1 * 128) && c.holds (x.1 * 128)) with
  | some x => s.lineLost c (x.1 * 128)
  | none => s

/-- A copy reads every line of some addresses, whichever context owns it (R415, R423). -/
def State.sweepAll (s : State) (f : Nat → Bool) : State := s.ctxs.foldl (fun s c => s.sweepLines c f) s

/-- The address lies in a region of a stack's layer. -/
def inRegion (stack layer region pa : Nat) : Bool :=
  isHbm pa && paStack pa == stack && paLayer pa == layer && paRegion pa == region

/-- REGION_SWAP: the swap that the controller has decided on is carried out: the regions are copied and the table entries are exchanged
(R414, R423). -/
def execRegionSwap (stack : Nat) (s : State) : Host.Outcome State Fault Refusal :=
  finish s (
    match s.hbm.swaps.find? (fun w => w.stack == stack) with
    | none => s
    | some w =>
      (s.sweepAll (fun pa => inRegion stack w.layer w.regionA pa || inRegion stack w.layer w.regionB pa)).modStacks (fun x =>
        let pa := x.physical stack w.layer w.regionA
        let pb := x.physical stack w.layer w.regionB
        { ((x.setPhysical stack w.layer w.regionA pb).setPhysical stack w.layer w.regionB pa) with
          swaps := x.swaps.filter (fun (v : Swap) => v.stack != stack) }))

/-- An error of the HBM at a line: 0 one that ECC cannot correct, 1 a mismatch of the integrity, 2 one that is corrected and
counted, and signalled to the Cellar at a region's 64th of an epoch. A line that cannot be corrected in a frame that no context owns makes the Cellar retire the frame. -/
def State.flaw (s : State) (line kind : Nat) : State :=
  let pa := line * 128
  if !isHbm pa || !s.populated pa then s
  else if 2 ≤ kind then
    s.modStacks (fun x =>
      let p := paLayer pa * 32 + paStack pa
      let n := countAt x.epochErrors (pa / 2 ^ 21) + 1
      { x with
        corrected := countSet x.corrected p (min (2 ^ 32 - 1) (countAt x.corrected p + 1))
        epochErrors := countSet x.epochErrors (pa / 2 ^ 21) n
        signalled := if n = 64 then natPut x.signalled (pa / 2 ^ 21) else x.signalled })
  else if s.ctxs.any (fun c => c.holds pa) then
    s.modStacks (fun x => { x with poisoned := (line, kind == 1) :: x.poisoned.filter (fun y => y.1 != line) })
  else s.modStacks (fun x => { x with withdrawn := natPut x.withdrawn (pa / 65536) })

/-- SPARE: a region moves for good to a spare region of its layer, through the steps of a swap; how many spares a layer has is
not fixed. -/
def execSpare (stack layer region : Nat) (s : State) : Host.Outcome State Fault Refusal :=
  finish s (s.storCmd (fun s =>
    if 24 ≤ stack || 12 ≤ layer || 1908 ≤ region then some (s, 5)
    else if s.hbm.swaps.any (fun w => w.stack == stack) then none
    else
      let (k, s) := s.draw 140
      let p := 1908 + k
      if k = 140 || s.hbm.moved.any (fun m => m.stack == stack && m.layer == layer && m.physical == p) then some (s, 4)
      else some ((s.sweepAll (inRegion stack layer region)).modStacks (fun x => x.setPhysical stack layer region p), 0)))

/-- READCNT returns the corrected-error counter of a stack's layer to the Cellar (R422). -/
def execReadcnt (stack layer : Nat) (s : State) : Host.Outcome State Fault Refusal :=
  finish s (s.storCmd (fun s =>
    if 24 ≤ stack || 12 ≤ layer then some (s, 5)
    else some (s.modStacks (fun x => { x with readout := some (countAt x.corrected (layer * 32 + stack)) }), 0)))

/-! ### Deep retention (R415, R416) -/

/-- Bytes of a layer slice (R411). -/
def sliceBytes : Nat := 96032784384

def inSlice (layer pa : Nat) : Bool := isHbm pa && paLayer pa == layer

/-- Where a byte of the slice goes: the same place in a part of the capacity tier that begins at `base`. -/
def moveOut (layer base pa : Nat) : Nat := if inSlice layer pa then base + pa % 2 ^ 37 else pa

/-- Part `i` of the capacity tier, as large as a slice. -/
def tierPart (i : Nat) : Nat := 2 ^ 48 + i / 8 * 2 ^ 40 + i % 8 * 2 ^ 37

/-- The part has room for every frame of the slice that a context holds. -/
def State.partFree (s : State) (layer i : Nat) : Bool :=
  let all := s.ctxs.flatMap (fun c => c.frames)
  (all.filter (fun f => inSlice layer f.1)).all (fun f =>
    let a := moveOut layer (tierPart i) f.1
    s.populated a && all.all (fun g => decide (a + f.2 ≤ g.1) || decide (g.1 + g.2 ≤ a)))

/-- The valid entries of a translation table. -/
def State.tableEntries (s : State) (table bits : Nat) : List (Nat × Nat) :=
  (s.memory.filter (fun c => decide (table ≤ c.1) && decide (c.1 < table + 8 * 2 ^ bits) && (c.1 - table) % 8 == 0 &&
    c.2.getLsbD 0)).map (fun c => (c.1, s.peekN c.1 8))

/-- The entries of a context's tables that name a place which moves, with what they hold afterwards; CLASS and the permission bits
stay (R415). -/
def State.tableMoves (s : State) (mv : Nat → Nat) : List (Nat × Nat × Nat × Nat) → Nat → List (Nat × Nat)
  | [], _ => []
  | (_, bits, _, _) :: rest, table =>
    (s.tableEntries table bits).flatMap (fun x =>
      let addr := x.2 / 256 % 2 ^ 44 * 256
      let own := if mv addr = addr then [] else [(x.1, x.2 - addr + mv addr)]
      if x.2.testBit 1 then own else own ++ s.tableMoves mv rest addr)

def WaitKind.moved (mv : Nat → Nat) : WaitKind → WaitKind
  | .waitmem seen locked cnd ws => .waitmem seen locked cnd (ws.map (fun w => { w with pa := mv w.pa }))
  | k => k

def Wait.moved (mv : Nat → Nat) (w : Wait) : Wait := { w with kind := w.kind.moved mv }

def Store.moved (mv : Nat → Nat) : Store → Store
  | .global cells rel => .global (cells.map (fun (c : Nat × Host.Cell) => (c.1, mv c.2.1, c.2.2))) rel
  | .red op n cls pa x rel => .red op n cls (mv pa) x rel
  | .cinv lines => .cinv (lines.map (fun l => mv (l * 128) / 128))
  | x => x

/-- The physical addresses that a group holds. -/
def Group.moved (mv : Nat → Nat) (gr : Group) : Group :=
  { gr with
    hall := { gr.hall with wait := gr.hall.wait.map (Wait.moved mv), stores := gr.hall.stores.map (Store.moved mv) }
    warps := gr.warps.map (fun (w : Warp) => { w with waits := w.waits.map (Wait.moved mv), stores := w.stores.map (Store.moved mv), atom := w.atom.map (fun r => { r with rest := r.rest.map (fun x => ((x.1.1, x.1.2.1, mv x.1.2.2.1, x.1.2.2.2), x.2)) }) })
    x := { gr.x with
      d2 := gr.x.d2.map (fun d =>
        { d with
          writes := d.writes.map (fun (c : Host.Cell) => (mv c.1, c.2))
          reds := d.reds.map (fun r => (r.1, r.2.1, mv r.2.2.1, r.2.2.2)) })
      programs := gr.x.programs.map (fun (p : ApProgram) =>
        { p with
          issued := p.issued.map (Store.moved mv)
          flights := p.flights.map (fun (f : Flight) => { f with places := f.places.map (fun x => (mv x.1, x.2)) }) }) } }

/-- Cells put one after another into an empty memory in their new places. -/
def cellsMoved (mv : Nat → Nat) (m : Memory) : Memory := cellsInto [] (m.map (fun c => (mv c.1, c.2)))

/-- The bytes of a slice leave it: those of a context's frame go to their new place, and the rest is dropped. -/
def State.moveBytes (s : State) (layer : Nat) (mv : Nat → Nat) : State :=
  let cells := s.memory.filter (fun c => inSlice layer c.1)
  let held := cells.filter (fun c => s.ctxs.any (fun x => x.holds c.1))
  (s.pokeCells (cells.map (fun c => (c.1, 0)))).pokeCells (held.map (fun c => (mv c.1, c.2)))

/-- A retirement carried out: pages with their counters, tables, translations and whatever else names a place of the slice
(R415). -/
def State.moveSlice (s : State) (layer : Nat) (mv : Nat → Nat) : State :=
  let s := s.ctxs.foldl (fun s c =>
    (s.tableMoves mv levels c.xroot).foldl (fun s x => s.pokeN x.1 8 x.2) s) s
  let s := s.moveBytes layer mv
  { s with
    ctxs := s.ctxs.map (fun (c : Ctx) =>
      { c with
        xroot := mv c.xroot
        imageArea := mv c.imageArea
        frames := c.frames.map (fun (f : Nat × Nat) => (mv f.1, f.2))
        tlb := c.tlb.filter (fun e => !inSlice layer e.pa) })
    groups := s.groups.map (Group.moved mv)
    rcbs := s.rcbs.map (fun (r : Rcb) => { r with pa := mv r.pa })
    stale := s.stale.map (fun (u : StaleUnit) => { u with pa := mv u.pa })
    code := s.code.map (fun (b : CodeBlock) => { b with pa := mv b.pa })
    commits := s.commits.map (fun (e : Committed) =>
      { e with
        cells := e.cells.map (fun (c : Host.Cell) => (mv c.1, c.2))
        home := match e.cells.head? with
          | some c => homeOf e.cls (mv c.1)
          | none => e.home })
    nests := s.nests.map (fun (n : Nest) => { n with ready := n.ready.map (fun (e : Released) => { e with snapshot := e.snapshot.map (cellsMoved mv) }) })
    insts := s.insts.map (fun (x : HInst) => { x with items := x.items.map (fun (i : Nat × Nat × Option Memory) => (i.1, i.2.1, i.2.2.map (cellsMoved mv))) }) }.modStacks
      (fun x =>
        let page := fun (p : Nat) => if s.ctxs.any (fun c => c.holds (p * 4096)) then mv (p * 4096) / 4096 else p
        { x with
          poisoned := x.poisoned.map (fun (y : Nat × Bool) => (mv (y.1 * 128) / 128, y.2))
          minor := x.minor.map (fun (n : Count) => { n with place := page (n.place / 32) * 32 + n.place % 32 })
          major := x.major.map (fun (n : Count) => { n with place := page n.place })
          exhausted := x.exhausted.map page })

/-- RETIRE: the slice's held pages move to the capacity tier and its layers are powered off (R415). -/
def execRetire (layer : Nat) (s : State) : Host.Outcome State Fault Refusal :=
  finish s (s.storCmd (fun s =>
    if 12 ≤ layer then some (s, 5)
    else if layer = 0 || s.hbm.retired.contains layer then some (s, 4)
    else if s.hbm.swaps.any (fun w => w.layer == layer) then none
    else
      let (k, s) := s.draw 63
      match ((List.range 64).map (fun i => (k + i) % 64)).find? (fun i => s.partFree layer i) with
      | none => some (s, 4)
      | some i =>
        let mv := moveOut layer (tierPart i)
        let s := s.sweepAll (inSlice layer)
        let s := s.moveSlice layer mv
        let s := s.modStacks (fun x => { x with retired := natPut x.retired layer })
        some (s.postEvent 6 0xFFFF (leBytes 8 layer ++ leBytes 8 sliceBytes ++ leBytes 8 0) [], 0)))

/-- RESTORE: the layers are powered on, every byte is 0, and counters and indirection entries begin anew (R416). -/
def execRestore (layer : Nat) (s : State) : Host.Outcome State Fault Refusal :=
  finish s (s.storCmd (fun s =>
    if !s.hbm.retired.contains layer then some (s, 4)
    else
      let s := s.pokeCells ((s.memory.filter (fun c => inSlice layer c.1)).map (fun c => (c.1, 0)))
      let s := s.modStacks (fun x =>
        { x with
          retired := x.retired.filter (· != layer)
          moved := x.moved.filter (fun m => m.layer != layer)
          minor := x.minor.filter (fun c => !inSlice layer (c.place * 128))
          major := x.major.filter (fun c => !inSlice layer (c.place * 4096))
          exhausted := x.exhausted.filter (fun p => !inSlice layer (p * 4096)) })
      some (s.postEvent 6 0xFFFF (leBytes 8 layer ++ leBytes 8 sliceBytes ++ leBytes 8 1) [], 0)))

/-- Frames that no context owns and that have an uncorrectable line are retired by the Cellar (R421). -/
def State.withdrawLost (s : State) : State :=
  s.modStacks (fun x =>
    { x with
      withdrawn := (x.poisoned.filter (fun y => isHbm (y.1 * 128) && !s.ctxs.any (fun c => c.holds (y.1 * 128)))).foldl
        (fun l y => natPut l (y.1 * 128 / 65536)) x.withdrawn })

/-! ### Key rotation (R420) -/

/-- The counters of a context's pages begin anew, and none is exhausted. -/
def State.freshCounters (s : State) (c : Ctx) : State :=
  s.modStacks (fun x =>
    { x with
      minor := x.minor.filter (fun n => !c.holds (n.place * 128))
      major := x.major.filter (fun n => !c.holds (n.place * 4096))
      exhausted := x.exhausted.filter (fun p => !c.holds (p * 4096)) })

/-- ROTATE: every counter page of a live context is encrypted under the new key (R420). -/
def execRotate (ctx key : Nat) (s : State) : Host.Outcome State Fault Refusal :=
  finish s (s.storCmd (fun s =>
    match s.ctx? ctx with
    | none => some (s, 4)
    | some c =>
      let s := s.sweepLines c isHbm
      let s := (s.freshCounters c).modCtx ctx (fun c => { c with key := key })
      some (s.postEvent 7 ctx [] [], 0)))

end Sys2Proof.Machine
end

