-- ==== Sys2Proof/Machine/Contexts.lean ====
section
/-! DEFINITION. Contexts from the host's side (R6, R7, R431, R432, R436, R439): creation with frames, areas and tables, the start
list, pre-emption, resumption, reset and destruction; and how engines stop for the halt line and for a pre-emption (R18 to R24). -/

namespace Sys2Proof.Machine

open Sys2Proof

/-! ### Frames (R424, R439) -/

/-- The number of 64 KiB units in the physical address space of the HBM (R409). -/
def hbmUnits : Nat := 2 ^ 25

/-- Some context's frame or image area takes the unit. -/
def Ctx.takesUnit (c : Ctx) (u : Nat) : Bool :=
  c.holds (u * 65536) || (decide (c.imageArea ≤ u * 65536) && decide (u * 65536 < c.imageArea + c.imageSize))

/-- A unit that the Cellar may give out: populated, and neither its own, nor withdrawn, nor taken. -/
def State.freeUnit (s : State) (u : Nat) : Bool :=
  s.populated (u * 65536) && isHbm (u * 65536) && !s.cellar.keeps.contains (u / 32) && !s.hbm.withdrawn.contains u &&
  !s.ctxs.any (fun c => c.takesUnit u)

/-- The first unit that satisfies `p`, from unit `u` on and round, among `n`. -/
def unitFrom (p : Nat → Bool) : Nat → Nat → Option Nat
  | 0, _ => none
  | n + 1, u => if p u then some u else unitFrom p n ((u + 1) % hbmUnits)

/-- A unit that satisfies `p`, any of them, or none where there is none. -/
def State.pickUnit (s : State) (p : Nat → Bool) : State × Option Nat :=
  let (u, s) := s.draw (hbmUnits - 1)
  (s, unitFrom p hbmUnits u)

/-- `n` different units that satisfy `p`, any of them. -/
def pickUnits (p : Nat → Bool) : Nat → State → Option (State × List Nat)
  | 0, s => some (s, [])
  | n + 1, s =>
    match pickUnits p n s with
    | none => none
    | some (s, us) =>
      match s.pickUnit (fun u => p u && !us.contains u) with
      | (s, some u) => some (s, us ++ [u])
      | (_, none) => none

/-- A run of `n` free units in one layer of a stack begins at unit `u`. -/
def State.runAt (s : State) (n u : Nat) : Bool :=
  u / 65536 == (u + n - 1) / 65536 && (List.range n).all (fun i => s.freeUnit (u + i))

/-- What CREATE takes: the context's own frames, the stop area's units in layer slice 0, the tables' units and the first unit
of the image area. -/
structure Grant where
  own : List Nat
  stop : List Nat
  tables : List Nat
  image : Nat
  deriving DecidableEq, Repr

/-- Image area, stop area and frames for a context, or none where memory is short: the areas first, so that the frames, which may
be any, leave none without room. The tables stand in the context's first three frames, or where it has fewer in three units
more. -/
def State.takeMemory (s : State) (own stop image : Nat) : Option (State × Grant) :=
  let few := decide (own < 3)
  let free := s.freeUnit
  match s.pickUnit (s.runAt image) with
  | (_, none) => none
  | (s, some a) =>
    let left := fun u => free u && !(decide (a ≤ u) && decide (u < a + image))
    match pickUnits (fun u => left u && paLayer (u * 65536) == 0) stop s with
    | none => none
    | some (s, st) =>
      match pickUnits (fun u => left u && !st.contains u) (own + if few then 3 else 0) s with
      | none => none
      | some (s, us) => some (s, ⟨if few then us.drop 3 else us, st, us.take 3, a⟩)

/-! ### CREATE (R6, R19, R431, R436, R439) -/

/-- The arguments of a CREATE. -/
def createMask (r : List Byte) : List Nat := (List.range 288).filter (fun k => (blockN r (16 + k / 8) 1).testBit (k % 8))
def createBytes (r : List Byte) : Nat := blockN r 52 8
def createGroup (r : List Byte) : Nat := blockN r 60 1
def createDevice (r : List Byte) : Nat := blockN r 61 1
def createPrio (r : List Byte) : Nat := blockN r 62 1

/-- STOPSIZE (R19). -/
def stopSizeOf (partition : List Nat) : Nat :=
  64 * (1 + 9 * partition.length + 3 * ((partition.map (fun k => k / Config.clustersPerDie)).eraseDups).length)

/-- A table entry: a page of class cached, readable only, or a table (R28). -/
def tableWord (pa : Nat) (leaf : Bool) : Nat := pa + (if leaf then 3 else 1)

/-- The tables that map the stop area (R10, R27, R28): level 0 and level 1 in a unit each, levels 2 and 3 in the third. -/
def State.stopTables (s : State) (va : Nat) (tables stop : List Nat) : State :=
  let t := fun i => tables.getD i 0 * 65536
  let s := s.pokeN (t 0 + 8 * (va / 2 ^ 43 % 8192)) 8 (tableWord (t 1) false)
  let s := s.pokeN (t 1 + 8 * (va / 2 ^ 30 % 8192)) 8 (tableWord (t 2) false)
  let s := s.pokeN (t 2 + 8 * (va / 2 ^ 21 % 512)) 8 (tableWord (t 2 + 4096) false)
  stop.zipIdx.foldl (fun s x => s.pokeN (t 2 + 4096 + 8 * x.2) 8 (tableWord (x.1 * 65536) true)) s

/-- A context as CREATE makes it. -/
def Ctx.made (num : Nat) (r : List Byte) (key va : Nat) (g : Grant) : Ctx where
  num := num
  state := .created
  partition := createMask r
  prioMax := createPrio r
  group := createGroup r
  device := createDevice r
  key := key
  root := 0
  xroot := g.tables.getD 0 0 * 65536
  stopArea := va
  stopSize := stopSizeOf (createMask r)
  stopFrames := g.stop
  imageArea := g.image * 65536
  imageSize := 65536 * Config.imageUnits (createMask r).length
  frames := ((g.own ++ g.tables.filter (fun u => !g.own.contains u)) ++ g.stop).map (fun u => (u * 65536, 65536))
  vtime := 0
  taken := []
  ordinals := 0
  orders := 0
  images := 0
  handles := []
  tlb := []
  sent := []
  recv := []
  samples := []
  rung := false
  halt := none
  preempting := none
  quanta := []

/-- The context numbers that no live context has. -/
def State.freeNumbers (s : State) : List Nat :=
  (List.range Config.maxContexts).filter (fun n => !s.ctxs.any (fun c => c.num == n))

/-- CREATE makes context `num` of record `r` over the memory it was given: its key and the virtual address of its stop area are free
values (R6, R19, R439; log entry 55). -/
def State.makeCtx (s : State) (r : List Byte) (num : Nat) (g : Grant) : State :=
  let (key, s) := s.drawBits
  let (x, s) := s.drawBits
  let va := x.toNat % 2 ^ 34 * 2 ^ 21
  { s with ctxs := s.ctxs ++ [Ctx.made num r key.toNat va g] }.stopTables va g.tables g.stop

/-- The context is made; where something is short the answer is status 3. -/
def State.finishCreate (s : State) (r : List Byte) : State :=
  let (k, s) := s.draw (s.freeNumbers.length - 1)
  match s.freeNumbers[k]? with
  | none => s.answer (reqTag r) 3 0
  | some num =>
    match s.takeMemory ((createBytes r + 65535) / 65536) ((stopSizeOf (createMask r) + 65535) / 65536)
        (Config.imageUnits (createMask r).length) with
    | none => s.answer (reqTag r) 3 0
    | some (t, g) => (t.makeCtx r num g).answer (reqTag r) 0 num

/-- A CREATE that resources refuse at once: a cluster that is taken, no number left, or its place in the fabric group taken. -/
def State.createRefused (s : State) (r : List Byte) : Bool :=
  (createMask r).any (fun k => s.ctxs.any (fun c => c.partition.contains k)) || s.freeNumbers.isEmpty ||
  (createGroup r != 0xFF && (s.ctxs.any (fun c => c.group == createGroup r) ||
    s.cellar.members.any (fun m => m.group == createGroup r && m.dev == createDevice r && s.reaches m)))

/-- CREATE: a context at once, or in a fabric group once every reachable module has acknowledged the announcement. -/
def execCreate (s : State) : Host.Outcome State Fault Refusal :=
  finish s (s.serve 2 63 (fun r s =>
    if (createMask r).isEmpty || 15 < createPrio r then some (s.answer (reqTag r) 5 0)
    else if s.cellar.announcing.isSome then none
    else if s.createRefused r then some (s.answer (reqTag r) 3 0)
    else if createGroup r = 0xFF || s.reachable.isEmpty then some (s.finishCreate r)
    else some { s with cellar := { s.cellar with announcing := some ⟨r, s.reachable⟩ } }))

/-- ANNOUNCE_ACKNOWLEDGEMENT: with the last one the CREATE goes on (R436). -/
def execAnnounceAcknowledgement (identity : DWord) (s : State) : Host.Outcome State Fault Refusal :=
  finish s (match s.cellar.announcing with
    | none => s
    | some a =>
      let waiting := a.waiting.filter (· != identity)
      if waiting.isEmpty then { s with cellar := { s.cellar with announcing := none } }.finishCreate a.record
      else { s with cellar := { s.cellar with announcing := some { a with waiting := waiting } } })

/-- ACKNOWLEDGEMENT_TIMEOUT: the CREATE is refused (R436). -/
def execAcknowledgementTimeout (s : State) : Host.Outcome State Fault Refusal :=
  finish s (match s.cellar.announcing with
    | none => s
    | some a => { s with cellar := { s.cellar with announcing := none } }.answer (reqTag a.record) 3 0)

/-! ### START (R432) -/

/-- The context RCB becomes live: its RO fields and its latch (R9, R10, R432). -/
def State.makeRoot (s : State) (c : Ctx) (va : Nat) : State :=
  let r : Rcb := ⟨c.num, va, (s.rcbAt c.num va).pa⟩
  let s := roFields.foldl (fun s f => s.rset r f 0) s
  let s := s.rset r .flags (s.rget r .flags &&& liveFlags)
  let s := ((s.rset r .parent 0).rset r .depth 0).setFlag r 17 false
  let s := (s.setFlag r 16 false).rset r .stopArea c.stopArea
  let s := (s.rset r .stopSize c.stopSize).rset r .xroot c.xroot
  ({ s with rcbs := s.rcbs ++ [r] }).enter [rcbLatch c.num va]

/-- The header of a start list is legal. -/
def startOk (b : List Byte) : Bool :=
  blockN b 0 2 == 0x0100 && blockZero b 2 4 && decide (blockN b 4 4 ≤ 4096) && blockZero b 24 64

/-- The root, checked by R8. -/
def State.rootOk (s : State) (c : Ctx) (va : Nat) : Bool :=
  va % 256 == 0 && s.pageClass c va == some 0 &&
  (match (s.engineRead c va 256).2 with
  | .ok b => s.rcbOk c.num b 0 none
  | .error _ => false)

/-- The region entries of a start list in order, each an RCB, a parent among those before it, and an image list; none where one is
refused. -/
def State.startRegions (s : State) (c : Ctx) (root : Nat) : List (Nat × Nat) → List Nat → Option State
  | [], _ => some s
  | (va, p) :: rest, earlier =>
    let parent := if p = 0 then root else p
    if p ≠ 0 && !earlier.contains p then none
    else
      match (s.engineRead c va 256).2 with
      | .error _ => none
      | .ok b =>
        if s.leafRcb c.num va 1 parent b then
          (s.makeRcb c.num va (s.rcbAt c.num va).pa parent false).startRegions c root rest (va :: earlier)
        else none

/-- The images of the lists in order, each with its home; none where one is refused. -/
def State.startImages (s : State) (c : Ctx) : List (Nat × Nat) → Option State
  | [] => some s
  | (home, list) :: rest =>
    match s.readList c true list with
    | (s, .good l) => (s.addImages c.num home l).startImages c rest
    | (_, .refused) | (_, .fault _ _ _) => none

/-- The start list at an address carried out on a CREATED context; none where it is refused (R432). -/
def State.startList (s : State) (c : Ctx) (va : Nat) : Option State :=
  if va % 64 ≠ 0 || s.pageClass c va != some 0 then none
  else
    match (s.engineRead c va 64).2 with
    | .error _ => none
    | .ok b =>
      if !startOk b then none
      else
        match (s.engineRead c (va + 64) (24 * blockN b 4 4)).2 with
        | .error _ => none
        | .ok e =>
          let root := blockN b 8 8
          let entries := (List.range (blockN b 4 4)).map (fun i => (blockN e (24 * i) 8, blockN e (24 * i + 8) 8, blockN e (24 * i + 16) 8))
          if !s.rootOk c root then none
          else
            match (s.makeRoot c root).startRegions c root (entries.map (fun x => (x.1, x.2.1))) [] with
            | none => none
            | some s =>
              (s.startImages c ((root, blockN b 16 8) :: entries.map (fun x => (x.1, x.2.2)))).map (fun s =>
                s.modCtx c.num (fun c => { c with state := .running, root := root }))

/-- A request of a context that must exist. -/
def State.serveCtx (s : State) (op used : Nat) (f : List Byte → Ctx → State → State) : State :=
  s.serve op used (fun r s =>
    match s.ctx? (reqCtx r) with
    | none => some (s.answer (reqTag r) 2 0)
    | some c => some (f r c s))

/-- The RCBs that a start list makes live can be registered now (R96). -/
def State.startFits (s t : State) (c : Ctx) : Bool :=
  s.latchFits ((t.rcbs.filter (fun r => r.ctx == c.num)).map (fun r => rcbLatch c.num r.va))

/-! ### PREEMPT, RESUME, RESET, DESTROY (R7, R22, R24, R431) -/

/-- A pre-emption of the whole context is in progress. -/
def Ctx.givesWay (c : Ctx) : Bool :=
  match c.preempting with
  | some p => p.region.isNone
  | none => false

/-- A request waits for the end of a pre-emption. -/
def State.hold (s : State) (r : List Byte) (c : Ctx) : State :=
  { s with cellar := { s.cellar with held := s.cellar.held ++ [⟨reqOp r, reqTag r, c.num⟩] } }

/-- PREEMPT. -/
def execPreempt (s : State) : Host.Outcome State Fault Refusal :=
  finish s (s.serveCtx 4 16 (fun r c s =>
    if c.state != .running || c.halt.isSome then s.answer (reqTag r) 1 0
    else (s.hold r c).askPreempt c.num none))

/-- RESUME. -/
def execResume (s : State) : Host.Outcome State Fault Refusal :=
  finish s (s.serveCtx 5 16 (fun r c s =>
    if c.givesWay then s.hold r c
    else if c.state == .preempted then
      let x := s.resumeCtx c
      x.1.answer (reqTag r) x.2 0
    else s.answer (reqTag r) 1 0))

/-- RESET. -/
def execReset (s : State) : Host.Outcome State Fault Refusal :=
  finish s (s.serveCtx 6 16 (fun r c s =>
    if c.givesWay then s.hold r c
    else if c.state == .preempted || c.state == .frozen then (s.resetCtx c.num).answer (reqTag r) 0 0
    else s.answer (reqTag r) 1 0))

/-- Held requests of a context that is gone. -/
def State.heldGone (ctx : Nat) : List HeldRequest → State → State
  | [], s => s
  | h :: rest, s =>
    if h.ctx = ctx then State.heldGone ctx rest (s.answer h.tag 2 0)
    else State.heldGone ctx rest { s with cellar := { s.cellar with held := s.cellar.held ++ [h] } }

/-- A context's memory is zero and free again. -/
def State.wipe (s : State) (c : Ctx) : State :=
  let mine := fun (pa : Nat) => c.takesUnit (pa / 65536)
  { s.zeroWhere mine with
    stale := s.stale.filter (fun u => !mine u.pa)
    code := s.code.filter (fun b => !mine b.pa) }

/-- The context is gone with all its work (R7). -/
def State.destroyCtx (s : State) (c : Ctx) : State :=
  let s := ((s.dropWork c.num).freshCounters c).wipe c
  let s := { s with ctxs := s.ctxs.filter (fun x => x.num != c.num) }.withdrawLost
  State.heldGone c.num s.cellar.held { s with cellar := { s.cellar with held := [] } }

/-- DESTROY. -/
def execDestroy (s : State) : Host.Outcome State Fault Refusal :=
  finish s (s.serveCtx 7 16 (fun r c s => (s.destroyCtx c).answer (reqTag r) 0 0))

/-! ### The halt line (R18 to R21, R437) -/

/-- HALT_LINE_RAISE: an uncorrectable error in a structure that holds the context's data, met by an engine of its own. -/
def execHaltLineRaise (ctx : Nat) (e : Engine) (cause : Nat) (addr : Nat) (s : State) : Host.Outcome State Fault Refusal :=
  finish s (match s.ctx? ctx with
    | none => s
    | some c =>
      if c.state == .running && c.engines.contains e && cause == 0x3F then
        s.raiseHalt ctx e { s.engineInfo ctx e with cause := 0x3F, cinfo := addr } false
      else s)

/-- What a core has in flight completes before its record is written. -/
def State.settleCore (s : State) (ctx : Nat) : Engine → State
  | .core n => ((s.groupsOn ctx n).foldl (fun s gr => s.drainGroup gr) s).performAll ctx (some n)
  | .accessProc _ | .matrix _ | .stair _ | .fabric _ | .hinge _ => s

/-- The stop record of an engine of a context whose halt line is up (R20). -/
def State.recordOf (s : State) (c : Ctx) (h : Halt) (e : Engine) : List Byte :=
  let own := h.own.find? (fun x => x.1 == e)
  let skid := min 96 (s.cycles.toNat - h.raised)
  stopRecord (engineType e).1 (if own.isSome then 1 else s.engineState c.num e) skid (min 32 (s.skidMax c.num e)) (h.raised + skid) 0
    ((own.map (·.2)).getD (s.engineInfo c.num e))

/-- ENGINE_HALT_STOP: the engine writes its record; with the last one the context is frozen. -/
def execEngineHaltStop (ctx : Nat) (e : Engine) (s : State) : Host.Outcome State Fault Refusal :=
  finish s (match s.ctx? ctx with
    | none => s
    | some c =>
      match c.halt with
      | none => s
      | some h =>
        if c.state != .running || h.stopped.contains e || !c.engines.contains e then s
        else
          let s := s.settleCore ctx e
          let s := s.stopWrite c (64 * c.stopSlot e) (s.recordOf c h e)
          let h := { h with stopped := h.stopped ++ [e] }
          let s := s.modCtx ctx (fun c => { c with halt := some h })
          if c.engines.all (fun x => h.stopped.contains x) then s.freeze c h else s)

/-- The halt line rises for a die that has become too hot: no fault stands behind it (R20, R437). -/
def State.tripCtx (s : State) (die : Nat) (c : Ctx) : State :=
  s.modCtx c.num (fun c =>
    if c.state == .running && c.halt.isNone && c.dies.contains die then
      { c with
        halt := some ⟨{ FaultInfo.blank with origin := 1, odie := die }, [], false, s.cycles.toNat, []⟩
        preempting := none }
    else c)

/-- THERMAL_TRIP. -/
def execThermalTrip (die : Nat) (s : State) : Host.Outcome State Fault Refusal :=
  finish s (if Config.dies ≤ die then s else (s.ctxs.foldl (fun s c => s.tripCtx die c) s).powerEvent die)

/-! ### Pre-emption (R23, R82, R338, R358, R380, R404) -/

/-- A warp has caught up with a Hall that a pre-emption stops where it waits: in a blocking wait, or in QCTL.JOIN (R82, R335). -/
def State.hallStopped (s : State) (gr : Group) (w : Warp) : Bool :=
  s.caughtUp gr w || (!w.selfFetching && w.rp == gr.position && gr.hall.wait.any (fun x => !x.ended && x.kind == .qjoin))

/-- The lanes that a pre-emption stops where they wait: in blocking waits, or at an MXMOV (R82, R361). -/
def State.stoppableLanes (s : State) (gr : Group) (w : Warp) : Mask :=
  s.blockedLanes gr w ||| (w.waits.filter (fun x => !x.ended && (match x.kind with
    | .joinTile _ => true
    | _ => false))).foldl (fun (m : Mask) x => m ||| x.lanes) 0

/-- Every path of the warp has stopped or may stop now: it is held or in a wait that may be left; in a handler, in such a wait alone
(R82, R229). -/
def State.warpStops (s : State) (gr : Group) (w : Warp) : Bool :=
  let rest := w.liveLanes (fun t => !t.stopped && (match w.handler with
    | some _ => t.handler || (t.stub && !t.held)
    | none => !t.held))
  (rest &&& ~~~(s.stoppableLanes gr w)) == 0 || s.hallStopped gr w

/-- A resident group can leave its core: all its warps stop (R82), and no result is on its way. -/
def State.groupStops (s : State) (gr : Group) : Bool :=
  gr.liveWarps.all (fun n => match gr.warps[n]? with
    | some w => s.warpStops gr w
    | none => true) &&
  !s.sfu.any (fun o => o.g == gr.id)

/-- A group leaves its core with its state saved (R23, R236). -/
def State.saveGroup (s : State) (gr : Group) (standing : Standing) : State :=
  let s := (s.drainGroup gr).performAll gr.ctx (some gr.core)
  let s := { s with latchWaits := s.latchWaits.filter (fun w => w.g != gr.id || w.granted) }
  let s := s.modX gr.id (fun x => { x with asks := none, landAsk := none, fabDesc := none })
  match s.group? gr.id with
  | some gr => s.modGroup gr.id (fun _ => s.saved gr standing)
  | none => s

/-- The groups of a context bound to a core that a pre-emption concerns. -/
def State.givers (s : State) (ctx core : Nat) (region : Option Nat) : List Group :=
  s.groups.filter (fun gr => gr.ctx == ctx && gr.inPlace && gr.core == core && s.concerned gr region)

/-- The image of groups that a time slice has stopped (R236, R288). -/
def State.writeSlice (s : State) (ctx : Nat) (ids : List Nat) : State :=
  match s.ctx? ctx with
  | some c => s.pokeBytes c.imageArea (s.imageFile c ((s.groups.filter (fun gr => ids.contains gr.id)).flatMap s.groupBlocks))
  | none => s

/-- A core stops its groups, once all of them can; a group that is swapped out is saved already, and a time slice leaves it its
standing (R309). -/
def State.stopCore (s : State) (ctx core : Nat) (region : Option Nat) : Option State :=
  let gs := s.givers ctx core region
  let standing : Standing := if region.isSome then .sliced else .preempted
  if gs.all (fun gr => !gr.resident || s.groupStops gr) then
    let t := gs.foldl (fun s gr =>
      if gr.resident then s.saveGroup gr standing
      else if region.isSome then s
      else s.modGroup gr.id (fun gr => { gr with standing := standing, waitingSince := s.cycles.toNat })) s
    some (if region.isSome then t.writeSlice ctx ((gs.filter Group.resident).map (·.id)) else t)
  else none

/-- An access processor lets its accesses in flight complete (R338). -/
def State.stopAp (s : State) (ctx core : Nat) (region : Option Nat) : State :=
  let gs := s.groups.filter (fun gr => gr.ctx == ctx && gr.core == core && s.concerned gr region)
  (gs.foldl (fun s gr => gr.x.programs.foldl (fun s p => (s.landAll gr.id p.id).drainAgent gr.id (.ap gr.id p.id)) s) s).performAll
    ctx (some core)

/-- The fabric engine lets its units in flight complete and writes PROG into the records (R380). -/
def State.stopFabric (s : State) (ctx die : Nat) : Option State :=
  let cs := s.fabric.filter (fun c => c.ctx == ctx && c.die == die)
  if cs.any (fun c => !c.flying.isEmpty || !c.served.isEmpty || c.fault.isSome) then none
  else some (cs.foldl (fun s c => if c.crec = 0 then s else (s.fabWrite c false (c.crec + 24) (leBytes 8 c.prog)).1) s)

/-- The Hinge writes its ring headers and the RO fields of its records (R404); a cut pipeline's STATUS becomes 4 only once it has
ended (R399). -/
def State.stopHinge (s : State) (ctx die : Nat) : State :=
  let s := (s.insts.filter (fun x => x.ctx == ctx && x.die == die)).foldl (fun s x => (s.hingeWrite ctx x.ring x.header).1) s
  (s.pipes.filter (fun p => p.ctx == ctx && p.die == die)).foldl (fun s p =>
    if p.status = 4 then s else s.setStatus p p.status) s

/-- An engine stops at its own unit; none where it has not come to it (R23). -/
def State.stopEngine (s : State) (ctx : Nat) (region : Option Nat) : Engine → Option State
  | .core n => s.stopCore ctx n region
  | .accessProc n => some (s.stopAp ctx n region)
  | .matrix _ => some s
  | .stair _ => some s
  | .fabric d => if region.isSome then some s else s.stopFabric ctx d
  | .hinge d => some (if region.isSome then s else s.stopHinge ctx d)

/-- ENGINE_PREEMPT_STOP: the engine stops, saves its part and acknowledges (R23). -/
def execEnginePreemptStop (ctx : Nat) (e : Engine) (s : State) : Host.Outcome State Fault Refusal :=
  finish s (match s.ctx? ctx with
    | none => s
    | some c =>
      match c.preempting with
      | none => s
      | some p =>
        if p.acks.contains e || !c.engines.contains e || !s.honoured ctx p then s
        else
          match s.stopEngine ctx p.region e with
          | none => s
          | some s => (s.modCtx ctx (fun c => { c with preempting := some { p with acks := p.acks ++ [e] } })).preemptDone ctx)

/-! ### Bytes from outside (R249, R429, R432) -/

/-- Bytes that the host writes to its memory, or that a loader puts into the frames of a context that has not started. -/
def State.outside (s : State) (pa : Nat) (bs : List Byte) : State :=
  let open_ := fun (a : Nat) => isHost a || s.ctxs.any (fun c => c.state == .created && c.holds a)
  s.pokeCells ((cellsAt pa bs).filter (fun x => open_ x.1))

/-! ### Loss of power (R426) -/

/-- POWER_LOSS: the module starts from reset with its store, which an overwrite in progress leaves without a valid image; the
host's memory stays, and so does what stands outside the module. -/
def execPowerLoss (s : State) : Host.Outcome State Fault Refusal :=
  finish s
    { State.reset with
      agenda := s.agenda
      steps := s.steps
      fresh := s.fresh
      outbox := (s.zeroWhere (fun a => !isHost a)).outbox
      cellar := { Cellar.reset with
        store := if s.cellar.updating.isSome then none else s.cellar.store
        absent := s.cellar.absent } }

end Sys2Proof.Machine
end

