-- ==== Sys2Proof/Machine/Sched.lean ====
section
/-! DEFINITION. Scheduling: the end of a wait (R78), wait-swap and moves (R73, R79), residency (R241, R286, R287, R289), quanta
(R288), the shutter tree (R25, R26), and virtual time (R293, R299, R301, R313). -/

namespace Sys2Proof.Machine

open Sys2Proof

/-! ### The condition of a wait (R78) -/

/-- The places that a WAITMEM watches. -/
def WatchWord.place (x : WatchWord) : Place := ⟨x.lane, x.va, x.pa, x.cls⟩

/-- The lanes of a WAITMEM whose condition has been seen true by now (R112). -/
def State.seenNow (s : State) (gr : Group) (a : Agent) (seen : Mask) (cnd : WaitCond) (ws : List WatchWord) : Mask :=
  let value := fun l => (((ws.find? (fun x => x.lane == l)).map (fun x => x.value.toNat))).getD 0
  let width := ((ws.head?).map (fun x => x.width)).getD 4
  match s.waitSeen gr a (s.queueOf a) cnd width (ws.map WatchWord.place) value with
  | some m => seen ||| m
  | none => seen

/-- A QPOP would take an entry or a fault (R320, R332, R333). -/
def Group.popReady (gr : Group) (q : Nat) : Bool :=
  match gr.mapped q false with
  | none => true
  | some k =>
    match k.slots with
    | [] => (stoppedProgram (gr.owner? q)).isSome
    | e :: _ => e.state != .pending

/-- The partner waits in the matching SHMAP. -/
def Group.partnerWaits (gr : Group) (w first partner count : Nat) : Bool := gr.mapWait partner == some (first, w, count)

/-- The nest's oldest landing has come near enough to the point that an NDONE retires (R263). -/
def State.doneOpen (s : State) (gr : Group) : Bool :=
  match s.heldPoint gr with
  | some (n, p) =>
    (match n.landing p.row with
    | some r => decide (p.lin ≤ r.done + 64)
    | none => true)
  | none => true

/-- The ring of the held item's stage takes an item and an end of stream, or no longer matters (R407). -/
def State.sendOpen (s : State) (gr : Group) : Bool :=
  match s.heldItem gr with
  | some (x, g) => x.cut || x.stopped || x.room (if g.eos then 2 else 1)
  | none => true

/-- Every point or item handed out before the held one has merged (R303). -/
def State.mergeOpen (s : State) (gr : Group) : Bool :=
  (match s.heldPoint gr with
  | some (n, p) => !n.handed.any (fun x => decide (x.serial < p.serial) && !x.late)
  | none => true) &&
  (match s.heldItem gr with
  | some (x, g) => !x.given.any (fun z => decide (z.serial < g.serial))
  | none => true)

def Offer.ready {α : Type} : Offer α → Bool
  | .found _ => true
  | .mismatch _ _ => true
  | .none | .hold | .later => false

/-- The condition of a wait of warp `w` of a group, or of its Hall, holds. -/
def State.waitMet (s : State) (gr : Group) (a : Agent) (w : Nat) (x : Wait) : Bool :=
  match x.kind with
  | .qpop q => gr.popReady q
  | .ldfe _ gs => gs.all (fun g => gr.x.full.contains g)
  | .sharedRead ns => (gr.sharedWith w false ns).isEmpty
  | .sharedWrite ns => (gr.sharedWith w true ns).isEmpty
  | .barrier b gen => decide ((gr.barriers[b]?).map (·.gen) ≠ some gen)
  | .shmap first partner count => gr.partnerWaits w first partner count
  | .waitmem seen locked cnd ws =>
    let m := s.seenNow gr a seen cnd ws
    ws.all (fun y => m.has y.lane) || locked != 0
  | .npop => (s.offerTo gr).ready
  | .njoin _ va => s.rdone (s.rcbAt gr.ctx va)
  | .quiesced _ => true
  | .hrecv => (s.recvOffer gr).ready
  | .registers n _ => if gr.resident then s.regsFit gr n else s.regsFit gr gr.regCount
  | .ndone => s.doneOpen gr
  | .hsend => s.sendOpen gr
  | .detset => s.boundDone gr
  | .d2merge => s.mergeOpen gr
  | .mkeyTake t =>
    let k := s.key? gr.core
    k.takeable (gr.id, w) && (!k.free || s.coreDetermined gr.core || s.takeFirst gr w t)
  | .mkeyRsv n => s.rsvOpen gr n && !s.rsvAfter gr w n ((s.rsvSince gr w n).getD s.cycles.toNat)
  | .joinTile n => !s.unjoined gr w n
  | .qjoin => false
  | .other => true

/-- What a WAITMEM has seen stays seen (R112). -/
def State.sawWait (s : State) (gr : Group) (a : Agent) (x : Wait) : Wait :=
  match x.kind with
  | .waitmem seen locked cnd ws => { x with kind := .waitmem (if locked = 0 then s.seenNow gr a seen cnd ws else seen) locked cnd ws }
  | _ => x

/-! ### Room for groups (R13, R63, R76, R241, R287) -/

/-- Slots, warps, barriers, scratchpad, queues (R319, R338) and registers of a core for some groups more. -/
def State.hasRoom (s : State) (core : Nat) (gs : List Group) : Bool :=
  let here := s.groups.filter (fun x => x.core == core && x.resident)
  let kept := s.groups.filter (fun x => x.core == core && x.inPlace && !gs.any (fun g => g.id == x.id))
  decide (here.length + gs.length ≤ Config.groupsPerCore) &&
  decide (((here ++ gs).map (fun x => x.image.warps)).sum ≤ Config.warpsPerCore) &&
  decide (((here ++ gs).map (fun x => x.image.barriers)).sum ≤ Config.barriersPerCore) &&
  decide (((kept ++ gs).map (fun x => x.image.spad)).sum ≤ Config.scratchpadBytes) &&
  decide (((kept ++ gs).map (fun x => x.x.queueCount)).sum ≤ 8) &&
  decide (s.coreRegs core + (gs.map Group.regCount).sum ≤ Config.physicalRegisters)

/-- Ceilings that some groups more would not pass. -/
def State.setFits (s : State) (gs : List Group) (u b : RcbField) (need : Group → Nat) : Bool :=
  gs.all (fun g => (s.capped g.ctx g.home).all (fun r =>
    decide (s.useOf r.ctx r.va u + ((gs.filter (fun x => s.inSubtree x.ctx x.home r.va)).map need).sum ≤ s.rget r b)))

/-- B_CORES of every ancestor allows the core (R287). -/
def State.coreAllowed (s : State) (core : Nat) (gr : Group) : Bool :=
  (s.capped gr.ctx gr.home).all (fun r =>
    let cs := coresOf (s.groupsOf r.ctx r.va)
    cs.contains core || decide (cs.length < s.rget r .bCores))

/-- What a group brings that is not charged while it is off its core. -/
def newlyCharged (f : Group → Nat) (gr : Group) : Nat := if gr.inPlace then 0 else f gr

/-- The tiles of a group that comes back are held by no other group of the cluster (R241, R358). -/
def State.tilesFree (s : State) (core : Nat) (gr : Group) : Bool :=
  gr.inPlace || s.tiles.all (fun t => t.group != gr.id || s.tileFree (clusterOf core) t.n)

/-- The core can take these groups now. -/
def State.canTake (s : State) (core : Nat) (gs : List Group) : Bool :=
  s.hasRoom core gs && gs.all (fun gr => s.coreAllowed core gr && s.tilesFree core gr) &&
  s.setFits gs .uSpad .bSpad (newlyCharged (fun gr => gr.image.spad)) &&
  s.setFits gs .uRegs .bRegs Group.regCount &&
  s.setFits gs .uQueues .bQueues (newlyCharged (fun gr => gr.x.queueCount)) &&
  s.setFits gs .uAcct .bAcct (newlyCharged (fun gr => (s.tiles.filter (fun t => t.group == gr.id)).length))

/-- Resident groups of a context on a core. -/
def State.residents (s : State) (ctx core : Nat) : Nat := (s.groupsOn ctx core).length

/-- The core of R287 among some: the fewest resident groups, then the lower number. -/
def State.bestCore (s : State) (ctx : Nat) (gs : List Group) (cores : List Nat) : Option Nat :=
  (cores.filter (fun k => s.canTake k gs)).foldl (fun (m : Option Nat) k =>
    match m with
    | none => some k
    | some b => if s.residents ctx k < s.residents ctx b then some k else some b) none

/-- The group holds tiles or matrix commands, which bind it to its cluster (R241). -/
def State.clusterBound (s : State) (gr : Group) : Bool :=
  s.tiles.any (fun t => t.group == gr.id) || s.commands.any (fun m => m.g == gr.id)

/-- The groups that must come back together with one: those with warps in the same ring (R241). -/
def State.ringMates (s : State) (gr : Group) : List Group :=
  let k := s.key? gr.core
  if k.members.any (fun m => m.1 == gr.id) then
    s.groups.filter (fun x => k.members.any (fun m => m.1 == x.id))
  else [gr]

/-- Another core that may restore the group and its mates (R241). -/
def State.otherCore (s : State) (c : Ctx) (gr : Group) : Option Nat :=
  let gs := s.ringMates gr
  let ring := (s.key? gr.core).members.any (fun m => m.1 == gr.id)
  if !gs.all (fun x => x.standing == .preempted || x.standing == .sliced) then none
  else
    s.bestCore c.num gs (c.cores.filter (fun k => k != gr.core &&
      (!(ring || gs.any s.clusterBound) || clusterOf k == clusterOf gr.core) && !(ring && s.keys.any (fun y => y.core == k))))

/-- Every copy before this one has been placed (R287). -/
def State.nextCopy (s : State) (gr : Group) : Bool :=
  !s.groups.any (fun x => x.ctx == gr.ctx && x.standing == .waiting && x.ordinal == gr.ordinal && decide (x.copy < gr.copy))

/-- The context takes groups: it runs, and neither its halt line nor a pre-emption that concerns the group stands against it. -/
def State.admits (s : State) (c : Ctx) (gr : Group) : Bool :=
  c.state == .running && c.halt.isNone &&
  (match c.preempting with
  | some p => !s.concerned gr p.region
  | none => true)

/-- The core on which a group that waits for residency would be made resident now (R287, R289). -/
def State.grantCore (s : State) (gr : Group) : Option Nat :=
  match s.ctx? gr.ctx with
  | none => none
  | some c =>
    if !s.admits c gr then none
    else
      match gr.standing with
      | .waiting => if s.nextCopy gr then s.bestCore c.num [gr] c.cores else none
      | .swapped => if gr.x.ready && s.canTake gr.core [gr] then some gr.core else none
      | .sliced | .preempted => if s.canTake gr.core [gr] then some gr.core else s.otherCore c gr
      | .resident | .ended => none

/-- The request of a group that waits for residency. -/
def State.residencyAsk (s : State) (gr : Group) : Ask := s.hallAsk gr gr.waitingSince

/-- One request for residency comes before another: a swapped group's before others, and one that a time slice stopped behind those that
waited already (R286, R289). -/
def State.residencyFirst (s : State) (a b : Group) : Bool :=
  let x := s.residencyAsk a
  let y := s.residencyAsk b
  let now := s.cycles.toNat
  if x.prio ≠ y.prio then decide (y.prio < x.prio)
  else if (a.standing == .swapped) ≠ (b.standing == .swapped) then a.standing == .swapped
  else if x.since = y.since && (a.standing == .sliced) != (b.standing == .sliced) then b.standing == .sliced
  else if x.before now y then true
  else if y.before now x then false
  else decide (a.id < b.id)

/-- No request of the context that could be granted comes before this one. -/
def State.firstInLine (s : State) (gr : Group) : Bool :=
  !s.groups.any (fun x => x.ctx == gr.ctx && x.id != gr.id && (s.grantCore x).isSome && s.residencyFirst x gr)

/-! ### Rotations: whose turn (R293, R299, R313, R339) -/

/-- The rotation, not the cycle, counts for a group: it is determined, or its core is (R79, R295). -/
def State.countsRotations (s : State) (gr : Group) : Bool := s.determined gr || s.coreDetermined gr.core

/-- The wake entry that comes next in the stream of a determined warp (its number) or Hall (255) of a replay. -/
def State.nextWake (s : State) (gr : Group) (n : Nat) : Option TraceEntry :=
  match s.traceOwner gr with
  | none => none
  | some o =>
    match o.x.trace with
    | none => none
    | some t =>
      if t.play && s.determined gr && s.traceGet o.ctx t.header traceState == 3 then
        ((s.traceNext o.ctx t (fun e => e.ofAgent gr.traceName n)).map (·.2)).filter (fun e => e.type == 4)
      else none

/-- A wake falls due for the agent in this rotation, or should have. -/
def State.wakeDue (s : State) (gr : Group) (n : Nat) : Bool :=
  match s.nextWake gr n with
  | some e => decide (e.w12 ≤ s.traceTime gr.ctx)
  | none => false

def agentTurn : Agent → Turn
  | .hall g => .hall g
  | .warp g w => .warp g w
  | .ap g p => .ap g p

/-- The agent still has its place in this rotation, so that it goes on in the rotation in which its wait ends. -/
def State.placeAhead (s : State) (gr : Group) (a : Agent) : Bool :=
  !s.coreDetermined gr.core ||
  (match s.ctx? gr.ctx with
  | some c => !c.taken.contains (agentTurn a)
  | none => true)

/-- The entries of a leaf's stream that hand over in this rotation, as far as no other comes before them (R299). -/
def State.handQueue (s : State) (ctx binder ord : Nat) : List TraceEntry :=
  match s.leafReplay binder with
  | none => []
  | some (_, t) =>
    let left := (List.range (s.traceGet ctx t.header traceCount)).filter (fun i => !t.consumed.contains i)
    ((left.map (s.traceEntry ctx t.header)).filter (fun e => e.ofLeaf ord)).takeWhile
      (fun e => e.type == 1 && e.w12 == s.traceTime ctx)

/-- The group has an entry in the queue, and it is not released yet, or those before it go to groups of other cores whose places
are still ahead. -/
def State.handHeld (s : State) (gr : Group) (q : List TraceEntry) (bare : Bool) : Bool :=
  match q.findIdx? (fun e => e.w8 == gr.traceName) with
  | none => false
  | some k =>
    if k = 0 then bare
    else (q.take k).all (fun e => s.groups.any (fun o =>
      o.ctx == gr.ctx && o.traceName == e.w8 && o.core != gr.core && s.placeAhead o (.hall o.id)))

/-- An entry that a replayed trace hands to the group in this rotation is not there for it yet (R299). -/
def State.handDue (s : State) (gr : Group) : Bool :=
  s.replaying gr &&
  (s.nests.any (fun n => n.ctx == gr.ctx && !s.nestEnds n &&
      s.handHeld gr (s.handQueue gr.ctx n.binder n.bindOrdinal) n.ready.isEmpty) ||
    s.insts.any (fun x => x.ctx == gr.ctx && !x.over &&
      s.handHeld gr (s.handQueue gr.ctx x.binder x.bindOrdinal) (s.stageEntry x).isNone))

/-- A replayed trace hands an entry to the group in this rotation. -/
def State.handNow (s : State) (gr : Group) : Bool :=
  let has := fun (q : List TraceEntry) => q.any (fun e => e.w8 == gr.traceName)
  s.replaying gr &&
  (s.nests.any (fun n => n.ctx == gr.ctx && !s.nestEnds n && has (s.handQueue gr.ctx n.binder n.bindOrdinal)) ||
    s.insts.any (fun x => x.ctx == gr.ctx && !x.over && has (s.handQueue gr.ctx x.binder x.bindOrdinal)))

/-- A rebuild stub of the warp is still running. -/
def Group.stubIn (gr : Group) (w : Nat) : Bool :=
  match gr.warps[w]? with
  | some wp => wp.liveLanes (fun t => t.stub) != 0
  | none => false

/-- The groups of a context that are determined. -/
def State.determinedOf (s : State) (ctx : Nat) : List Group := s.groups.filter (fun gr => gr.ctx == ctx && s.determined gr)

/-- Groups of a resumed image come first: any whose rebuild stubs run, and those that return to their cores, after a time slice where
the context has no other determined group in place (R301, R313). -/
def State.returning (s : State) (c : Ctx) : Bool :=
  s.groups.any (fun gr => gr.ctx == c.num &&
    ((gr.resident && (List.range gr.warps.length).any gr.stubIn) ||
     ((gr.standing == .preempted || (gr.standing == .sliced && s.determined gr && !(s.determinedOf c.num).any Group.inPlace)) &&
      (s.grantCore gr).isSome)))

/-- No agent of the context's determined cores has its place now: resumed groups come first (R313), or what is due in this rotation is
not there yet (R294, R339). -/
def State.rotationHeld (s : State) (c : Ctx) : Bool :=
  s.returning c ||
  (s.determinedOf c.num).any (fun gr =>
    gr.x.programs.any (fun p => p.flights.any (fun f => f.words.isSome && decide (f.usable ≤ c.vtime)))) ||
  s.sfu.any (fun o => (match o.usable with
    | some r => decide (r ≤ c.vtime)
    | none => false) && c.cores.contains o.core)

/-- The place of the agent waits for what the trace says falls in it: the end of its wait, or an entry (R299). -/
def State.placeHeld (s : State) (gr : Group) : Turn → Bool
  | .hall _ => s.handDue gr || ((gr.hall.wait.any (fun x => !x.ended)) && s.wakeDue gr 255)
  | .warp _ w => (match gr.warps[w]? with
    | some wp => wp.waits.any (fun x => !x.ended) && s.wakeDue gr w
    | none => false)
  | .ap _ _ | .event _ | .tick _ | .flaw _ _ | .outside _ _ | .arrive _ _ _ | .prefetch _ _ => false

/-- The agent that has the next place on a core. -/
def State.nextPlace (s : State) (c : Ctx) (core : Nat) : Option Turn := (s.rotationOrder core).find? (fun t => !c.taken.contains t)

/-- A warp runs a rebuild stub, which takes no place. -/
def Group.stubTurn (gr : Group) : Turn → Bool
  | .warp _ w => gr.stubIn w
  | .hall _ | .ap _ _ | .event _ | .tick _ | .flaw _ _ | .outside _ _ | .arrive _ _ _ | .prefetch _ _ => false

/-- A program of a group that is not determined, which a rotation has no place for (R321, R339). -/
def State.freeProgram (s : State) (gr : Group) : Turn → Bool
  | .ap _ _ => !s.determined gr
  | .hall _ | .warp _ _ | .event _ | .tick _ | .flaw _ _ | .outside _ _ | .arrive _ _ _ | .prefetch _ _ => false

/-- The warps of a core that are ready, as their places in its age order with their groups (R71). -/
def State.readyWarps (s : State) (core : Nat) : List (CoreTurn × Nat) :=
  (s.groups.filter (fun gr => gr.resident && gr.core == core)).flatMap (fun gr =>
    ((List.range gr.warps.length).filter (fun n => (gr.warps[n]?).any (s.warpReady gr))).map (fun n =>
      (⟨core, (s.agePlace gr).1, (s.agePlace gr).2, n⟩, gr.id)))

/-- One place in the age order comes before another. -/
def CoreTurn.before (a b : CoreTurn) : Bool :=
  decide (a.age < b.age) || (a.age == b.age && (decide (a.slot < b.slot) || (a.slot == b.slot && decide (a.warp < b.warp))))

/-- Going round from the latest opportunity, `a` comes before `b`. -/
def roundFirst (last : Option CoreTurn) (a b : CoreTurn) : Bool :=
  match last with
  | none => a.before b
  | some x => if x.before a == x.before b then a.before b else x.before a

/-- A warp of a core that is not determined receives its opportunity where it is ready and first in the round robin; what its next
instruction needs is there from a cycle that no rule gives (R71). DESIGN CHOICE (log 70). -/
def State.takeTurn (s : State) (gr : Group) (n : Nat) : State × Bool :=
  let ws := s.readyWarps gr.core
  let last := s.turns.find? (fun x => x.core == gr.core)
  match ws.find? (fun x => x.2 == gr.id && x.1.warp == n) with
  | none => (s, false)
  | some x =>
    if ws.any (fun y => y.1 != x.1 && roundFirst last y.1 x.1) then (s, false)
    else
      let (k, s) := s.drawBits
      ({ s with turns := x.1 :: s.turns.filter (fun y => y.core != gr.core) }.modWarp gr.id n (fun w =>
        { w with ready := s.cycles.toNat + k.toNat, due := none }), true)

/-- On a determined core an agent acts only at its place of the rotation, and the place then counts as taken (R293); on another a warp
takes its opportunity in the round robin (R71). -/
def State.takePlace (s : State) (t : Turn) (g : Nat) : State × Bool :=
  match s.group? g with
  | none => (s, false)
  | some gr =>
    if s.coreDetermined gr.core && (gr.stubTurn t || s.freeProgram gr t) then (s, true)
    else if !s.coreDetermined gr.core then
      (match t with
      | .warp _ n => s.takeTurn gr n
      | .hall _ | .ap _ _ | .event _ | .tick _ | .flaw _ _ | .outside _ _ | .arrive _ _ _ | .prefetch _ _ => (s, true))
    else
      match s.ctx? gr.ctx with
      | none => (s, false)
      | some c =>
        if s.rotationHeld c || s.placeHeld gr t || s.nextPlace c gr.core != some t then (s, false)
        else (s.modCtx gr.ctx (fun c => { c with taken := c.taken ++ [t] }), true)

/-! ### WAIT_END (R78, R298, R299) -/

/-- The end of this wait is a decision that a trace records (R298). -/
def State.traced (s : State) (gr : Group) (x : Wait) : Bool :=
  match x.kind with
  | .npop | .hrecv | .joinTile _ | .qjoin | .other => false
  | .registers _ since => decide (s.effSwap gr.ctx gr.home < s.timeOf gr - since)
  | _ => true

/-- Where a path of a warp that waits stands. -/
def Group.waitIssue (gr : Group) (n : Nat) (w : Warp) (lanes : Mask) : Issue :=
  let pc := if w.selfFetching then (w.threads.get ((Mask.lowest lanes).getD 0)).pc
    else ((gr.queue[w.rp - gr.queueBase]?).map (·.pc)).getD gr.hall.pc
  ⟨gr.id, n, lanes, pc, gr.scalarsFor w, true, !w.selfFetching && decide (w.rp < gr.position), none, none⟩

/-- A wait of a warp ends. -/
def State.endWarpWait (s : State) (g n : Nat) (x y : Wait) : State :=
  s.modWarp g n (fun w => { w with waits := w.waits.map (fun z => if z == x then { y with ended := true } else z) })

/-- A warp's wait whose condition holds. -/
def State.warpWaitEnd (s : State) (gr : Group) (n : Nat) (w : Warp) (x : Wait) : State :=
  let y := s.sawWait gr (.warp gr.id n) x
  if !s.traced gr x then s.endWarpWait gr.id n x y
  else
    match s.traceWake gr n x.lanes with
    | .go s => s.endWarpWait gr.id n x y
    | .hold => s
    | .mismatch s t => s.takeTrap (gr.waitIssue n w x.lanes) t false

/-- The Hall's wait, whose condition holds. -/
def State.hallWaitEnd (s : State) (gr : Group) (x : Wait) : State :=
  let done := fun (s : State) => s.modHall gr.id (fun h => { h with wait := some { s.sawWait gr (.hall gr.id) x with ended := true } })
  if !s.traced gr x then done s
  else
    match s.traceWake gr 255 0 with
    | .go s => done s
    | .hold => s
    | .mismatch s t => s.hallTrap gr.id t

/-- The agent's waits that have not ended, but for those that a pre-emption has stopped (R82). -/
def Group.openWaits (gr : Group) (a : Agent) : List Wait :=
  match a with
  | .hall _ => (gr.hall.wait.toList).filter (fun x => !x.ended)
  | .warp _ n => ((gr.warps[n]?).map (fun w => w.waits.filter (fun x => !x.ended && w.liveLanes (fun t => !t.stopped) &&& x.lanes != 0))).getD []
  | .ap _ _ => []

def agentWarp : Agent → Nat
  | .warp _ w => w
  | .hall _ | .ap _ _ => 255

/-- A wait that does not end yet keeps what it has seen. -/
def State.keepSeen (s : State) (gr : Group) (a : Agent) : State :=
  match a with
  | .hall g => s.modHall g (fun h => { h with wait := h.wait.map (fun x => if x.ended then x else s.sawWait gr a x) })
  | .warp g n => s.modWarp g n (fun w => { w with waits := w.waits.map (fun x => if x.ended then x else s.sawWait gr a x) })
  | .ap _ _ => s

/-- No lane of the warp can go on: each is stalled, in a wait, or held for one that is (R73). -/
def State.warpStuck (s : State) (gr : Group) (w : Warp) : Bool :=
  let waits := (w.waits.filter (fun x => !x.ended)).foldl (fun (m : Mask) x => m ||| x.lanes) 0
  ((w.liveLanes (fun t => !t.held)) &&& ~~~waits) == 0 || s.caughtUp gr w

/-- A warp of the group is in no blocking wait, or its Hall has an instruction of its own to execute: the group has something to
go on with (R79). -/
def State.canGoOn (s : State) (gr : Group) : Bool :=
  gr.warps.any (fun w => w.isLive && !s.warpStuck gr w) ||
    ((s.modGroup gr.id (fun g => { g with standing := .resident })).hallTurn gr.id).2.isSome

/-- A wait of the agent whose condition holds ends; a swapped group is found ready instead, as one that has something to go on
with may be at any time (R79). -/
def State.endWaits (s : State) (gr : Group) (a : Agent) : State :=
  let s := { s with fresh := s.fresh + 1 }
  match (gr.openWaits a).find? (fun x => s.waitMet gr a (agentWarp a) x) with
  | none =>
    let s := s.keepSeen gr a
    if !gr.resident && s.canGoOn gr then s.modX gr.id (fun e => { e with ready := true }) else s
  | some x =>
    if !gr.resident then s.modX gr.id (fun e => { e with ready := true })
    else
      match a with
      | .hall _ => s.hallWaitEnd gr x
      | .warp _ n => (match gr.warps[n]? with
        | some w => s.warpWaitEnd gr n w x
        | none => s)
      | .ap _ _ => s

/-- WAIT_END. -/
def execWaitEnd (a : Agent) (s : State) : Host.Outcome State Fault Refusal :=
  finish s (match s.group? (agentGroup a) with
    | none => s
    | some gr => if s.silent gr || !gr.inPlace || (gr.resident && !s.placeAhead gr a) then s else s.endWaits gr a)

/-! ### Wait-swap (R73, R79) -/

/-- The key that a warp of the group holds is passed (R353). -/
def State.passKeys (s : State) (gr : Group) : State :=
  match (s.key? gr.core).holder with
  | some m => if m.1 = gr.id then s.passKey gr.core m else s
  | none => s

/-- A group is swapped out: its memory operations complete, its image is written, and its slots, registers and barriers are free. -/
def State.swapOut (s : State) (gr : Group) : State :=
  let s := ((s.drainGroup gr).performAll gr.ctx (some gr.core)).passKeys gr
  let s := s.modGroup gr.id (fun gr =>
    { gr with
      standing := .swapped
      waitingSince := s.cycles.toNat
      x := { gr.x with waitTimer := 0, readyTimer := 0, ready := false } })
  match s.ctx? gr.ctx, s.group? gr.id with
  | some c, some g => s.pokeBytes c.imageArea (s.imageFile c (s.swapBlocks g))
  | _, _ => s

/-- Nothing of the group is in the special-function unit. -/
def State.sfuFree (s : State) (gr : Group) : Bool := !s.sfu.any (fun o => o.g == gr.id)

/-- Some wait of the group could end now, which comes before a swap in the same cycle (R86). -/
def State.someWaitMet (s : State) (gr : Group) : Bool :=
  (Agent.hall gr.id :: (List.range gr.warps.length).map (Agent.warp gr.id)).any (fun a =>
    (gr.openWaits a).any (fun x => s.waitMet gr a (agentWarp a) x))

/-- WAIT_SWAP: neither a wait that ends nor a pre-emption of the context stands against it (R79, R86). -/
def execWaitSwap (g : Nat) (s : State) : Host.Outcome State Fault Refusal :=
  finish s (match s.group? g with
    | none => s
    | some gr =>
      if gr.resident && !s.silent gr && decide (s.effSwap gr.ctx gr.home < gr.x.waitTimer) && s.blockedWait gr && s.sfuFree gr &&
          !s.someWaitMet gr && !((s.ctx? gr.ctx).any Ctx.givesWay) then
        s.swapOut gr
      else s)

/-- The warp is stalled for registers (R73). -/
def Warp.regStalled (w : Warp) : Bool :=
  w.isLive && w.waits.any (fun x => !x.ended && (match x.kind with
    | .registers _ _ => true
    | _ => false))

/-- A handler's write of the group is stalled. -/
def Group.handlerStall (gr : Group) : Option (Nat × Warp) :=
  ((List.range gr.warps.length).filterMap (fun n => (gr.warps[n]?).map (fun w => (n, w)))).find? (fun x =>
    x.2.regStalled && x.2.handler.isSome)

/-- The youngest group in the age order of R71, on a determined core by virtual slots (R293). -/
def State.youngestGroup (s : State) : List Group → Option Group
  | [] => none
  | g :: gs => some (gs.foldl (fun a b =>
      let p := s.agePlace a
      let q := s.agePlace b
      if p.1 < q.1 || (p.1 == q.1 && decide (p.2 < q.2)) then b else a) g)

/-- A stalled handler write that no swap can serve is a double trap with the handler's cause (R73, R229). -/
def State.stallTrap (s : State) (gr : Group) : State :=
  match gr.handlerStall with
  | none => s
  | some (n, w) =>
    let i := gr.waitIssue n w w.emask
    s.raiseHalt gr.ctx (.core gr.core)
      (s.warpInfo gr n ⟨.softwareTrap, w.emask, w.cinfoAddr, w.cinfoKind⟩ w.emask i.pc w.cause.toNat) false

/-- CORE_STALL_SWAP: the youngest stalled group is swapped out, one whose stalled write is a handler's only where all are such; alone it is
a double trap (R73, R229). -/
def execCoreStallSwap (core : Nat) (s : State) : Host.Outcome State Fault Refusal :=
  let gs := s.groups.filter (fun gr => gr.resident && gr.core == core)
  let stalled := gs.filter (fun gr => gr.warps.any Warp.regStalled)
  finish s (
    if gs.any s.silent || !gs.all (fun gr => s.sfuFree gr && gr.warps.all (fun w => !w.isLive || s.warpStuck gr w)) then s
    else
      match s.youngestGroup (stalled.filter (fun gr => gr.handlerStall.isNone)), stalled with
      | some gr, _ => s.swapOut gr
      | none, [gr] => s.stallTrap gr
      | none, gs => (s.youngestGroup gs).elim s s.swapOut)

/-! ### Residency (R63, R241, R287, R293) -/

/-- Group slots of a core that no resident group has. -/
def State.freeSlots (s : State) (core : Nat) : List Nat :=
  (List.range Config.groupsPerCore).filter (fun i => !s.groups.any (fun x => x.resident && x.core == core && x.slot == i))

/-- The place after the last in the order of residency (R260). -/
def State.nextOrder (s : State) (ctx : Nat) : Nat := ((s.ctx? ctx).map (·.orders)).getD 0 + 1

/-- The image of a group that becomes resident gets the next number, where no copy of it has been resident (R297). -/
def State.numberImage (s : State) (g : Nat) : State :=
  match s.group? g with
  | none => s
  | some gr =>
    if gr.imageNo.isSome then s
    else
      let n := ((s.ctx? gr.ctx).map (·.images)).getD 0
      { (s.modCtx gr.ctx (fun c => { c with images := n + 1 })) with
        groups := s.groups.map (fun (x : Group) => if x.ctx == gr.ctx && x.ordinal == gr.ordinal then { x with imageNo := some n } else x) }

/-- A group becomes resident on a core, in any of its free slots. -/
def State.seat (s : State) (g core : Nat) : State :=
  let (k, t) := s.draw ((s.freeSlots core).length - 1)
  match (s.freeSlots core)[k]? with
  | none => s
  | some slot =>
    let first := ((t.group? g).map (fun gr => gr.standing == .waiting)).getD false
    let t := if first then (t.modCtx (((t.group? g).map (·.ctx)).getD 0) (fun c => { c with orders := c.orders + 1 })).numberImage g else t
    t.modGroup g (fun gr =>
      { gr with
        standing := .resident
        core := core
        slot := slot
        vslot := some (gr.vslot.getD slot)
        order := if gr.standing == .waiting then s.nextOrder gr.ctx else gr.order
        since := s.cycles.toNat
        x := { gr.x with waitTimer := 0, readyTimer := 0, ready := false } })

/-- The copies of a start list's images become resident in the order of the list, where they can; the rest wait (R286, R287, R432). -/
def State.placeListed (s : State) (ctx : Nat) : State :=
  (s.groups.filter (fun gr => gr.ctx == ctx)).foldl (fun s gr =>
    match s.grantCore gr with
    | some core => s.seat gr.id core
    | none => s) s

/-- START; it waits where the latch tables have no room for its RCBs (R96). -/
def execStart (s : State) : Host.Outcome State Fault Refusal :=
  finish s (s.serve 3 24 (fun r s =>
    match s.ctx? (reqCtx r) with
    | none => some (s.answer (reqTag r) 2 0)
    | some c =>
      if c.state != .created then some (s.answer (reqTag r) 1 0)
      else
        match s.startList c (blockN r 16 8) with
        | none => some (s.answer (reqTag r) 5 0)
        | some t => if s.startFits t c then some ((t.placeListed c.num).answer (reqTag r) 0 0) else none))

/-- GROUP_PLACEMENT: `i` is the number of the group. -/
def execGroupPlacement (ctx i core : Nat) (s : State) : Host.Outcome State Fault Refusal :=
  finish s (match s.group? i with
    | none => s
    | some gr =>
      if gr.ctx == ctx && gr.standing == .waiting && s.grantCore gr == some core && s.firstInLine gr then s.seat i core else s)

/-- GROUP_READMISSION: on another core with all the mates of its ring, which goes with them. -/
def execGroupReadmission (g core : Nat) (s : State) : Host.Outcome State Fault Refusal :=
  finish s (match s.group? g with
    | none => s
    | some gr =>
      if gr.standing == .waiting || s.grantCore gr != some core || !s.firstInLine gr then s
      else if core = gr.core then s.seat g core
      else
        let gs := s.ringMates gr
        let s := { s with keys := s.keys.map (fun (k : KeyRing) =>
          if k.core == gr.core && k.members.any (fun m => m.1 == g) then { k with core := core } else k) }
        gs.foldl (fun s x => s.seat x.id core) s)

/-- The warps of a group leave one ring and enter another (R79). -/
def State.changeRing (s : State) (gr : Group) (core : Nat) : State :=
  let mine := (s.key? gr.core).members.filter (fun m => m.1 == gr.id)
  let s := mine.foldl (fun (s : State) m => s.leaveRing gr.core m) s
  if mine.isEmpty then s
  else s.setKey { s.key? core with members := (s.key? core).members ++ mine }

/-- GROUP_MOVE: a swapped group that has been ready for a quantum goes to another core that can take it. -/
def execGroupMove (g core : Nat) (s : State) : Host.Outcome State Fault Refusal :=
  finish s (match s.group? g with
    | none => s
    | some gr =>
      match s.ctx? gr.ctx with
      | none => s
      | some c =>
        let cores := c.cores.filter (fun k => k != gr.core && (!s.clusterBound gr || clusterOf k == clusterOf gr.core))
        if gr.standing == .swapped && gr.x.ready && decide (Config.quantum ≤ gr.x.readyTimer) && s.admits c gr &&
            !s.canTake gr.core [gr] && s.bestCore c.num [gr] cores == some core && s.firstInLine gr then
          let s := gr.x.programs.foldl (fun (s : State) p => (s.landAll g p.id).drainAgent g (.ap g p.id)) s
          ((s.changeRing gr core).seat g core)
        else s)

/-! ### Quanta (R288) -/

/-- A group waits for residency. -/
def State.waitsForCore (s : State) (c : Ctx) (gr : Group) : Bool :=
  gr.ctx == c.num &&
  (match gr.standing with
  | .waiting => s.nextCopy gr
  | .swapped => gr.x.ready
  | .sliced | .preempted => true
  | .resident | .ended => false)

/-- The cores on which a waiting group could be made resident. -/
def State.wantedCores (s : State) (c : Ctx) (gr : Group) : List Nat :=
  match gr.standing with
  | .swapped => [gr.core]
  | .sliced | .preempted => c.cores.filter (fun k => !s.clusterBound gr || clusterOf k == clusterOf gr.core)
  | .waiting | .resident | .ended => c.cores

/-- A ceiling of an ancestor of `y` stands against it, under which a group of `gs` holds some of the resource (R13). -/
def State.ceilingHeld (s : State) (y : Group) (gs : List Group) (u b : RcbField) (f : Group → Nat) (need : Nat) : Bool :=
  (s.capped y.ctx y.home).any (fun r => decide (s.rget r b < s.useOf r.ctx r.va u + need) &&
    gs.any (fun x => s.inSubtree x.ctx x.home r.va && f x != 0))

/-- A resource that the group lacks on a core is held there, or under its ceilings, by resident groups of `gs` (R288). -/
def State.lacksHeld (s : State) (y : Group) (gs : List Group) (core : Nat) : Bool :=
  let on := gs.filter (fun x => x.core == core)
  let here := s.groups.filter (fun x => x.core == core && x.resident)
  let kept := s.groups.filter (fun x => x.core == core && x.inPlace && x.id != y.id)
  let lacks := fun (l : List Group) (f : Group → Nat) (cap : Nat) => decide (cap < (l.map f).sum + f y) && on.any (fun x => f x != 0)
  s.coreAllowed core y &&
  (lacks here (fun _ => 1) Config.groupsPerCore || lacks here (fun x => x.image.warps) Config.warpsPerCore ||
    lacks here (fun x => x.image.barriers) Config.barriersPerCore || lacks here Group.regCount Config.physicalRegisters ||
    lacks kept (fun x => x.image.spad) Config.scratchpadBytes ||
    s.ceilingHeld y gs .uSpad .bSpad (fun x => x.image.spad) (newlyCharged (fun x => x.image.spad) y) ||
    s.ceilingHeld y gs .uRegs .bRegs Group.regCount y.regCount)

/-- The quantum of a region runs: a request of equal or higher priority waits for what its resident groups hold (R288). -/
def State.quantumRuns (s : State) (c : Ctx) (r : Rcb) : Bool :=
  let gs := (s.groupsOf c.num r.va).filter Group.resident
  c.state == .running && !gs.isEmpty &&
  s.groups.any (fun y => s.waitsForCore c y && decide (s.effPrio c.num r.va ≤ s.effPrio c.num y.home) && (s.grantCore y).isNone &&
    (s.wantedCores c y).any (s.lacksHeld y gs))

/-- The quanta of a context after `n` cycles; one that does not run begins again. -/
def State.quantaAfter (s : State) (c : Ctx) (n : Nat) : List Quantum :=
  (s.rcbs.filter (fun r => r.ctx == c.num && s.rget r .kind == 1 && s.quantumRuns c r)).map (fun r =>
    ⟨r.va, (((c.quanta.find? (fun q => q.rcb == r.va)).map (·.ran)).getD 0) + n⟩)

/-- QUANTUM_EXPIRY. -/
def execQuantumExpiry (ctx rcb : Nat) (s : State) : Host.Outcome State Fault Refusal :=
  finish s (match s.ctx? ctx with
    | none => s
    | some c =>
      if c.state == .running && c.halt.isNone && c.preempting.isNone &&
          c.quanta.any (fun q => q.rcb == rcb && decide (Config.quantum ≤ q.ran)) then
        (s.modCtx ctx (fun c => { c with quanta := c.quanta.filter (fun q => q.rcb != rcb) })).askPreempt ctx (some rcb)
      else s)

/-! ### Time passes (R79, R233, R288, R295) -/

/-- The counters of a group after `n` cycles or rotations. -/
def State.tickGroup (s : State) (n : Nat) (gr : Group) : Group :=
  let x := gr.x
  let x := if gr.resident && s.blockedWait gr then { x with waitTimer := x.waitTimer + n } else x
  let x := if gr.resident && x.held.isSome then { x with wdog := x.wdog + BitVec.ofNat 32 n } else x
  let x := if gr.standing == .swapped && x.ready then { x with readyTimer := x.readyTimer + n } else x
  { gr with x := x }

/-- The lanes of a warp that an honoured request stops where they are: held, at an MXMOV, or in blocking waits whose condition does not
hold; all, where the warp has caught up with a Hall that waits (R82). -/
def State.stopsHere (s : State) (gr : Group) (n : Nat) (w : Warp) : Mask :=
  let open_ := (w.waits.filter (fun x => !x.ended && !s.waitMet gr (.warp gr.id n) n x)).foldl (fun (m : Mask) x => m ||| x.lanes) 0
  if s.hallStopped gr w then w.liveMask
  else (s.stoppableLanes gr w &&& open_) ||| w.liveLanes (fun t => t.held && !t.handler)

/-- What waits or is held stops at once for a pre-emption that is honoured (R82, R223). -/
def State.stopWaiting (s : State) : State :=
  { s with groups := s.groups.map (fun (gr : Group) =>
      if gr.resident && s.stopAsked gr then
        { gr with warps := gr.warps.zipIdx.map (fun x => x.1.modThreads (s.stopsHere gr x.2 x.1) (fun t => { t with stopped := t.stopped || t.live })) }
      else gr) }

/-- The cycle by which a warp that is ready receives an opportunity (R71). -/
def State.dueOf (s : State) (gr : Group) (w : Warp) : Option Nat :=
  if gr.resident && !s.coreDetermined gr.core && s.warpReady gr w then some (w.due.getD (s.cycles.toNat + 64)) else none

/-- Every ready warp has its opportunity before `n` cycles have passed, or within 64 (R71). -/
def State.turnsKept (s : State) (n : Nat) : Bool :=
  s.groups.all (fun gr => gr.warps.all (fun w => (s.dueOf gr w).all (fun d => decide (s.cycles.toNat + n ≤ d))))

/-- `n` cycles pass: the time counter, the timers of the groups that do not count rotations, and the quanta. -/
def State.passCycles (s : State) (n : Nat) : State :=
  { s with
    cycles := s.cycles + BitVec.ofNat 64 n
    groups := s.groups.map (fun (gr : Group) =>
      let gr := if s.countsRotations gr then gr else s.tickGroup n gr
      { gr with warps := gr.warps.map (fun w => { w with due := s.dueOf gr w }) })
    ctxs := s.ctxs.map (fun c => { c with quanta := s.quantaAfter c n }) }

/-- A turn in which cycles pass, as far as R71 lets them: what has begun to wait is noted, and what waits stops for a pre-emption. -/
def State.tick (s : State) (n : Nat) : State := if s.turnsKept n then ((s.stopWaiting).noteRowWaits).passCycles n else s

/-! ### The shutter tree (R25, R26) -/

/-- A memory operation of the group is in flight. -/
def State.accessesOpen (s : State) (gr : Group) : Bool :=
  !gr.hall.stores.isEmpty || gr.warps.any (fun w => !w.stores.isEmpty) ||
  gr.x.programs.any (fun p => !p.issued.isEmpty || !p.flights.isEmpty) || s.commits.any (fun e => agentGroup e.agent == gr.id)

/-- The group counts as idle: its Hall waits for work, its decision queue is empty, and nothing of it is in flight. -/
def State.groupIdle (s : State) (gr : Group) : Bool :=
  (match gr.hall.wait with
  | some ⟨_, .npop, false⟩ => !(s.offerTo gr).ready
  | some ⟨_, .hrecv, false⟩ => !(s.recvOffer gr).ready
  | some ⟨_, .njoin true _, false⟩ => true
  | _ => false) &&
  gr.prune.queue.isEmpty && !s.accessesOpen gr

/-- Idle on every die. A group that a time slice has stopped is not idle; one that has not been placed is on no die. -/
def State.ctxIdle (s : State) (c : Ctx) : Bool :=
  s.groups.all (fun gr => gr.ctx != c.num || gr.standing == .waiting || gr.standing == .ended || (gr.inPlace && s.groupIdle gr))

/-- An item or an end of stream of the ring has still to be taken; what every consumer has taken is finished (R25, R400). -/
def HInst.untaken (x : HInst) : Bool := x.consumers.any (fun c => !c.eos && (c.limit.isSome || decide (c.cursor < x.next)))

/-- Empty on every die. -/
def State.ctxEmpty (s : State) (c : Ctx) : Bool :=
  s.groups.all (fun gr => gr.ctx != c.num || gr.x.queues.all (fun q => q.slots.isEmpty)) &&
  s.nests.all (fun n => n.ctx != c.num || (n.ready.isEmpty && n.handed.isEmpty)) &&
  s.insts.all (fun x => x.ctx != c.num || (!x.untaken && x.given.isEmpty && x.notices.isEmpty)) &&
  s.fabric.all (fun m => m.ctx != c.num)

def State.shutterAnd (s : State) (c : Ctx) : Bool := s.ctxIdle c && s.ctxEmpty c

/-- ΣRECV: what was sent to the dies of a context and is no longer on its way (R25, R26). -/
def State.received (s : State) (c : Ctx) : Nat := countSum c.recv - (s.itemsSent c.num + s.rewritesSent c.num + s.unitsSent c.num)

/-- SHUTTER_SAMPLE: the AND is looked at; where it has become true a first sample is taken. -/
def execShutterSample (ctx : Nat) (s : State) : Host.Outcome State Fault Refusal :=
  finish s (match s.ctx? ctx with
    | none => s
    | some c =>
      if c.state != .running || c.halt.isSome then s
      else if !s.shutterAnd c then s.modCtx ctx (fun c => { c with rung := false })
      else if c.rung then s
      else s.modCtx ctx (fun c => { c with rung := true, samples := c.samples ++ [⟨s.cycles.toNat, countSum c.sent, s.received c⟩] }))

/-- The NJOINs of a context that wait with the quiescence flag observe it. -/
def Group.quieted (gr : Group) : Group :=
  { gr with hall := { gr.hall with wait := gr.hall.wait.map (fun x =>
      match x.kind with
      | .njoin true va => if x.ended then x else { x with kind := .quiesced va }
      | _ => x) } }

/-- Quiescence is reported: to the NJOINs, and by the event of the context RCB. -/
def State.reportQuiet (s : State) (c : Ctx) : State :=
  let s := { s with groups := s.groups.map (fun (gr : Group) => if gr.ctx == c.num then gr.quieted else gr) }
  match s.rcb? c.num c.root with
  | some r => s.raiseEvent r (s.statusWord r true false)
  | none => s

/-- SHUTTER_SECOND_SAMPLE. -/
def execShutterSecondSample (ctx : Nat) (s : State) : Host.Outcome State Fault Refusal :=
  finish s (match s.ctx? ctx with
    | none => s
    | some c =>
      match c.samples with
      | [] => s
      | x :: rest =>
        if c.state != .running || c.halt.isSome || decide (s.cycles.toNat < x.cycle + 2048) then s
        else
          let now := s.shutterAnd c
          let t := s.modCtx ctx (fun c => { c with samples := rest, rung := c.rung && now })
          if now && x.sent == x.recv && countSum c.sent == s.received c && countSum c.sent == x.sent then t.reportQuiet c else t)

/-! ### ROTATION_END (R293, R294, R299 to R301) -/

/-- Every determined group that the pre-emption in progress concerns has been stopped at a boundary. -/
def State.boundaryDone (s : State) (c : Ctx) : Bool :=
  match c.preempting with
  | none => false
  | some p => (s.determinedOf c.num).all (fun gr => !gr.resident || !s.concerned gr p.region || gr.allStopped)

/-- Every place of the context's determined cores is taken, and nothing that the next rotation needs is missing. Rotations go on
while determined groups are swapped out (R79, R293). -/
def State.rotationOver (s : State) (c : Ctx) : Bool :=
  let cores := c.cores.filter s.coreDetermined
  let gs := s.determinedOf c.num
  gs.any (fun gr => gr.standing != .waiting && gr.standing != .ended) && cores.all (fun k => (s.nextPlace c k).isNone) && !s.rotationHeld c && !s.boundaryDone c &&
  gs.all (fun gr => gr.resident || ((List.range gr.warps.length ++ [255]).all (fun n => !s.wakeDue gr n) && !s.handNow gr)) &&
  s.sfu.all (fun o => !c.cores.contains o.core || (match o.usable with
    | some r => decide (c.vtime + 1 < r)
    | none => true))

/-- A trap of a group's warp or Hall whose wake the trace names wrongly; where the warp is gone, the group's NJOIN takes it. -/
def State.wakeTrap (s : State) (gr : Group) (n : Nat) (t : Trap) : State :=
  if n = 255 then s.hallTrap gr.id t
  else
    match gr.warps[n]? with
    | some w =>
      if w.isLive then s.takeTrap (gr.waitIssue n w w.liveMask) { t with mask := w.liveMask } false
      else s.joinFault gr.id ⟨true, [], t⟩
    | none => s.joinFault gr.id ⟨true, [], t⟩

/-- A wake entry of this rotation that no wait has met is a mismatch (R300). -/
def State.missedWake (s : State) (gr : Group) (n : Nat) : State :=
  if !s.wakeDue gr n then s
  else
    match s.traceOwner gr with
    | none => s
    | some o =>
      match o.x.trace with
      | none => s
      | some t =>
        match s.traceNext o.ctx t (fun e => e.ofAgent gr.traceName n) with
        | none => s
        | some (i, _) =>
          let r := s.traceMismatch o t i 0
          r.1.wakeTrap gr n r.2

/-- Every entry of the nest has been released and taken: it releases no serial any more. -/
def Nest.spent (n : Nest) : Bool :=
  n.ready.isEmpty && (n.faulted || (if n.desc.kind = 2 then decide (n.desc.tasks ≤ n.serial)
    else decide (n.hi0 ≤ n.next) && n.rows.all (fun r => decide (r.npts ≤ r.released))))

/-- The serving region of a leaf by its binder and bind ordinal, while it can still release a serial. -/
def State.leafOpen (s : State) (binder ord : Nat) : Option Nat :=
  ((s.nests.find? (fun n => n.binder == binder && n.bindOrdinal == ord && !n.spent)).map (fun n => n.desc.region)).orElse (fun _ =>
    (s.insts.find? (fun x => x.binder == binder && x.bindOrdinal == ord && !x.over)).bind HInst.region)

/-- An entry of a replayed trace that names what is not there: a group that has ended, a leaf that releases no more, or a group outside
the leaf's serving region (R300). -/
def State.orphan (s : State) (o : Group) (e : TraceEntry) : Bool :=
  let named := s.groups.find? (fun gr => gr.ctx == o.ctx && gr.traceName == e.w8 && gr.standing != .ended)
  if e.type = 4 || (e.type = 1 && e.b1 = 1) then named.isNone
  else e.type == 1 && decide (e.ord < o.x.bindOrdinal) &&
    (match s.leafOpen o.id e.ord, named with
    | some r, some gr => !s.inSubtree gr.ctx gr.home r
    | _, _ => true)

/-- The group that an orphaned hand-over names and that waits for it takes the mismatch, else the group whose trace it is, at its next
NJOIN (R300). -/
def State.orphanTrap (s : State) (o : Group) (e : TraceEntry) (t : Trap) : State :=
  match s.groups.find? (fun gr => gr.ctx == o.ctx && gr.traceName == e.w8 && gr.hall.wait.any (fun x => !x.ended &&
      (x.kind == .npop || x.kind == .hrecv))) with
  | some gr => s.hallTrap gr.id t
  | none => s.joinFault o.id ⟨true, [], t⟩

/-- The first entry due by this rotation that names what is not there is a mismatch (R300). -/
def State.missedEntry (s : State) (o : Group) : State :=
  match o.x.trace with
  | none => s
  | some t =>
    if !t.play || s.traceGet o.ctx t.header traceState != 3 then s
    else
      match s.traceNext o.ctx t (fun e => decide (e.w12 ≤ s.traceTime o.ctx) && s.orphan o e) with
      | none => s
      | some (i, e) =>
        let r := s.traceMismatch o t i 0
        r.1.orphanTrap o e r.2

/-- Entries of this rotation that were not met. -/
def State.missedWakes (s : State) (c : Ctx) : State :=
  let s := (s.determinedOf c.num).foldl
    (fun s gr => (List.range gr.warps.length ++ [255]).foldl (fun (s : State) n => s.missedWake gr n) s) s
  (s.groups.filter (fun gr => gr.ctx == c.num)).foldl (fun (s : State) o => s.missedEntry o) s

/-- No result is on its way that becomes usable after the rotation that follows the boundary. -/
def resultsDue (limit : Nat) (w : Warp) : Bool :=
  w.pending.all (fun p => match p.usable with
    | some r => decide (r ≤ limit)
    | none => false)

/-- The warp is stoppable at the boundary (R301). -/
def State.stoppable (s : State) (c : Ctx) (gr : Group) (w : Warp) : Bool :=
  !w.isLive || ((w.marked == some c.vtime || s.warpStops gr w) && resultsDue (c.vtime + 1) w)

/-- Every determined warp is stoppable, and no result of a Hall or of the special-function unit is on its way. -/
def State.boundaryStops (s : State) (c : Ctx) : Bool :=
  (s.determinedOf c.num).all (fun gr => !gr.resident ||
    (gr.warps.all (s.stoppable c gr) && gr.hall.pending.all (fun p => decide (p.2 ≤ c.vtime + 1)) && s.sfuFree gr))

/-- The request is honoured from here on. -/
def State.begin (s : State) (c : Ctx) (p : Preempting) : State :=
  s.modCtx c.num (fun c => { c with preempting := some { p with begun := true } })

/-- The determined groups that the pre-emption concerns stop. -/
def State.stopAtBoundary (s : State) (c : Ctx) (p : Preempting) : State :=
  { (s.begin c p) with groups := s.groups.map (fun gr =>
      if gr.ctx == c.num && gr.resident && s.determined gr && s.concerned gr p.region then
        { gr with warps := gr.warps.map (fun w => w.modThreads w.liveMask (fun t => { t with stopped := true })) }
      else gr) }

/-- No boundary has come within 65,536 rotations: the context's open traces are abandoned (R301). -/
def State.abandonTraces (s : State) (c : Ctx) : State :=
  (s.groups.filter (fun gr => gr.ctx == c.num)).foldl (fun s gr =>
    match gr.x.trace with
    | some t => s.traceSet c.num t.header traceState 5
    | none => s) s

/-- The next rotation begins. -/
def State.nextRotation (s : State) (c : Ctx) : State :=
  { s with groups := s.groups.map (fun (gr : Group) => if gr.ctx == c.num && s.countsRotations gr then s.tickGroup 1 gr else gr) }.modCtx c.num
    (fun c => { c with vtime := c.vtime + 1, taken := [] })

/-- The rotation ends: at a stoppable boundary a pre-emption is honoured, else the next one begins. -/
def State.endRotation (s : State) (c : Ctx) : State :=
  let s := s.missedWakes c
  match c.preempting with
  | none => s.nextRotation c
  | some p =>
    if p.begun then s.nextRotation c
    else if s.boundaryStops c then s.stopAtBoundary c p
    else if p.since + 65536 ≤ c.vtime + 1 then ((s.abandonTraces c).begin c p).nextRotation c
    else s.nextRotation c

/-- ROTATION_END. -/
def execRotationEnd (ctx : Nat) (s : State) : Host.Outcome State Fault Refusal :=
  finish s (match s.ctx? ctx with
    | none => s
    | some c => if c.state == .running && s.rotationOver c then s.endRotation c else s)

end Sys2Proof.Machine
end

