-- ==== Sys2Proof/Machine/Special.lean ====
section
/-! DEFINITION. The elementary functions of the special-function unit (R202 to R209, R212, R213): exact results where a
format value or a midpoint can arise, and elsewhere fixed-point enclosures that are refined until both ends round to the
same value. -/

namespace Sys2Proof.Machine

open Sys2Proof

/-! ### Fixed-point arithmetic

A number at precision `w` is an integer in units of 2^−w. -/

/-- The integer square root by Newton's iteration from above. -/
def sqrtFrom : Nat → Nat → Nat → Nat
  | 0, _, x => x
  | fuel + 1, n, x =>
    let y := (x + n / x) / 2
    if y < x then sqrtFrom fuel n y else x

def bigSqrt (n : Nat) : Nat := if n = 0 then 0 else sqrtFrom 10000 n (2 ^ (n.log2 / 2 + 1))

/-- The greatest number whose cube is at most `n`, for n below 8^`bits`. -/
def bigCbrt (bits n : Nat) : Nat :=
  (List.range bits).foldl (fun r i =>
    let t := r + 2 ^ (bits - 1 - i)
    if t * t * t ≤ n then t else r) 0

/-- Moves a number up or, truncating, down. -/
def shiftBy (x k : Int) : Int := if 0 ≤ k then x * 2 ^ k.toNat else x.tdiv (2 ^ (-k).toNat)

/-- The dyadic m × 2^e at precision `w`. -/
def toFx (w : Nat) (m : Nat) (e : Int) : Int := shiftBy m (e + w)

def fxMul (w : Nat) (a b : Int) : Int := (a * b).tdiv (2 ^ w)
def fxDiv (w : Nat) (a b : Int) : Int := (a * 2 ^ w).tdiv b
def fxSqrt (w : Nat) (a : Int) : Int := bigSqrt (a.toNat * 2 ^ w)
def fxOne (w : Nat) : Int := 2 ^ w

/-- Σ t_n, where t_{n+1} = t_n × x ÷ 2^w ÷ d(n), until a term vanishes. -/
def seriesFrom (w : Nat) (x : Int) (d : Nat → Int) : Nat → Nat → Int → Int → Int
  | 0, _, _, acc => acc
  | fuel + 1, n, t, acc => if t = 0 then acc else seriesFrom w x d fuel (n + 1) ((fxMul w t x).tdiv (d n)) (acc + t)

/-- Σ p_n ÷ (2n + 1), where p_{n+1} = p_n × x ÷ 2^w. -/
def oddSeriesFrom (w : Nat) (x : Int) : Nat → Nat → Int → Int → Int
  | 0, _, _, acc => acc
  | fuel + 1, n, p, acc =>
    if p = 0 then acc else oddSeriesFrom w x fuel (n + 1) (fxMul w p x) (acc + p.tdiv (2 * n + 1))

/-- artanh t and arctan t by their series. -/
def atanhSeries (w : Nat) (t : Int) : Int := oddSeriesFrom w (fxMul w t t) (4 * w) 0 t 0
def atanSeries (w : Nat) (t : Int) : Int := oddSeriesFrom w (-(fxMul w t t)) (4 * w) 0 t 0

/-- π, ln 2 and ln 10. -/
def fxPi (w : Nat) : Int :=
  16 * atanSeries w ((fxOne w).tdiv 5) - 4 * atanSeries w ((fxOne w).tdiv 239)
def fxLn2 (w : Nat) : Int := 2 * atanhSeries w ((fxOne w).tdiv 3)

/-- ln of n × 2^e for n ≠ 0. -/
def fxLog (w n : Nat) (e : Int) : Int :=
  let k := n.log2
  let m := shiftBy n ((w : Int) - k)
  ((k : Int) + e) * fxLn2 w + 2 * atanhSeries w (fxDiv w (m - fxOne w) (m + fxOne w))

def fxLn10 (w : Nat) : Int := fxLog w 10 0

/-- e^x as m × 2^k, with m at precision `w` in [1, 2). -/
def fxExp (w : Nat) (x : Int) : Int × Int :=
  let l := fxLn2 w
  let k := x / l
  (seriesFrom w (x - k * l) (fun n => n + 1) (4 * w) 0 (fxOne w) 0, k)

/-- e^x at precision `w` for x ≤ 0. -/
def fxExpNeg (w : Nat) (x : Int) : Int := (fun r => shiftBy r.1 r.2) (fxExp w x)

/-- sin r and cos r for small r. -/
def fxSin (w : Nat) (r : Int) : Int :=
  seriesFrom w (-(fxMul w r r)) (fun n => (2 * n + 2) * (2 * n + 3)) (4 * w) 0 r 0
def fxCos (w : Nat) (r : Int) : Int :=
  seriesFrom w (-(fxMul w r r)) (fun n => (2 * n + 1) * (2 * n + 2)) (4 * w) 0 (fxOne w) 0

/-- arctan t for 0 ≤ t ≤ 1, after halving the angle three times. -/
def fxAtan (w : Nat) (t : Int) : Int :=
  let half := fun t => fxDiv w t (fxOne w + fxSqrt w (fxOne w + fxMul w t t))
  8 * atanSeries w (half (half (half t)))

/-- The angle of num ÷ den, both at least 0 and not both 0. -/
def fxAtanOf (w : Nat) (num den : Int) : Int :=
  if num ≤ den then fxAtan w (fxDiv w num den)
  else (fxPi w).tdiv 2 - fxAtan w (fxDiv w den num)

/-- erf x for x ≥ 0: 2 ÷ √π × e^(−x²) × Σ 2^n x^(2n+1) ÷ (2n+1)!!. The sum is of the size of e^(x²), so e^(−x²) enters
with its own exponent. -/
def fxErf (w : Nat) (x : Int) : Int :=
  let q := fxMul w x x
  let sum := seriesFrom w (2 * q) (fun n => 2 * n + 3) (16 * w) 0 x 0
  let (v, k) := fxExp w (-q)
  fxDiv w (shiftBy (2 * fxMul w sum v) k) (fxSqrt w (fxPi w))

/-! ### Results before rounding -/

/-- What a function gives: NV with a NaN, an infinity with or without DZ, a multiple n ÷ d of π from the special-value
tables, an exact value, or at every precision an approximation v × 2^e whose error is below 2^300 units. -/
inductive FnVal where
  | nv
  | nan (signalling : Bool)
  | inf (neg dz : Bool)
  | pi (neg : Bool) (n d : Int)
  | exact (neg : Bool) (m : Nat) (e : Int) (sticky : Bool)
  | approx (f : Nat → Int × Int)

/-- The precisions tried in turn (in bits). -/
def precisions : List Nat := [160, 700, 1500, 2600, 4200]

/-- The guard bits of the working precision, and the bound of the error. -/
def guardBits : Nat := 320
def errorBound : Nat := 2 ^ 300

/-- The rounding of an approximation where both ends of its enclosure agree. -/
def roundIv (f : Fmt) (rm : Rnd) (v e : Int) : Option FRes :=
  let n := v.natAbs
  if n < 2 ^ 380 then none
  else
    let r := roundMag f rm (decide (v < 0)) (n - errorBound) e true
    let r' := roundMag f rm (decide (v < 0)) (n + errorBound) e true
    if r = r' then some r else none

/-- Refines until the rounding is decided. -/
def roundApprox (f : Fmt) (rm : Rnd) (g : Nat → Int × Int) : List Nat → FRes
  | [] => ⟨0, flagNX⟩
  | p :: ps =>
    let (v, e) := g (p + guardBits)
    match roundIv f rm v e with
    | some r => r
    | none => if ps.isEmpty then roundMag f rm (decide (v < 0)) v.natAbs e true else roundApprox f rm g ps

/-- n ÷ d times π at precision `w`, in units of 2^−w. -/
def fxPiTimes (neg : Bool) (n d : Int) (w : Nat) : Int × Int :=
  let x := (n * fxPi w).tdiv d
  (if neg then -x else x, -(w : Int))

/-- Round of a function's value, with its flags (R207). -/
def fnRound (f : Fmt) (rm : Rnd) : FnVal → FRes
  | .nv => fCanon f flagNV
  | .nan s => fCanon f (if s then flagNV else 0)
  | .inf neg dz => ⟨fInf f neg, if dz then flagDZ else 0⟩
  | .pi neg n d => roundApprox f rm (fxPiTimes neg n d) precisions
  | .exact neg m e sticky => roundMag f rm neg m e sticky
  | .approx g => roundApprox f rm g precisions

/-- An approximation at precision `w` in units of 2^−w, with a sign. -/
def FnVal.fx (neg : Bool) (g : Nat → Int) : FnVal := .approx (fun w => (if neg then -(g w) else g w, -(w : Int)))

/-- Beyond every format, below every format, and just below a small integer: results of which only the side matters. -/
def FnVal.huge (neg : Bool) : FnVal := .exact neg 1 8000 false
def FnVal.tiny (neg : Bool) : FnVal := .exact neg (2 ^ 80) (-9000) true
def FnVal.below (neg : Bool) (n : Nat) : FnVal := .exact neg (n * 2 ^ 5000 - 1) (-5000) true

def FnVal.zero (neg : Bool) : FnVal := .exact neg 0 0 false
def FnVal.nat (neg : Bool) (n : Nat) : FnVal := .exact neg n 0 false

/-- The integral part of m × 2^e. -/
def floorMag (m : Nat) (e : Int) : Nat := if 0 ≤ e then m * 2 ^ e.toNat else m / 2 ^ (-e).toNat

/-- m × 2^e as an integer, where it is one. -/
def asNat (m : Nat) (e : Int) : Option Nat :=
  if 0 ≤ e then some (m * 2 ^ e.toNat)
  else if m % 2 ^ (-e).toNat = 0 then some (m / 2 ^ (-e).toNat) else none

/-- m × 2^e compared with 1. -/
def cmpOne (m : Nat) (e : Int) : Ordering :=
  if 0 ≤ e then compare (m * 2 ^ e.toNat) 1 else compare m (2 ^ (-e).toNat)

/-! ### Functions of a finite non-zero argument ±m × 2^e (R202, R205, R208) -/

/-- exp, and the clamps beyond which only the side matters. -/
def expVal (neg : Bool) (m : Nat) (e : Int) : FnVal :=
  if 4096 ≤ floorMag m e then (if neg then .tiny false else .huge false)
  else .approx (fun w =>
    let x := toFx w m e
    let (v, k) := fxExp w (if neg then -x else x)
    (v, k - w))

def exp2Val (neg : Bool) (m : Nat) (e : Int) : FnVal :=
  match asNat m e with
  | some n => .exact false 1 (if neg then -(n : Int) else n) false
  | none =>
    if 4096 ≤ floorMag m e then (if neg then .tiny false else .huge false)
    else .approx (fun w =>
      let x := toFx w m e
      let x := if neg then -x else x
      let k := x / fxOne w
      let (v, j) := fxExp w (fxMul w (x - k * fxOne w) (fxLn2 w))
      (v, j + k - w))

def exp10Val (neg : Bool) (m : Nat) (e : Int) : FnVal :=
  if 4096 ≤ floorMag m e then (if neg then .tiny false else .huge false)
  else
    match asNat m e, neg with
    | some n, false => .exact false (10 ^ n) 0 false
    | _, _ => .approx (fun w =>
      let x := fxMul w (toFx w m e) (fxLn10 w)
      let (v, k) := fxExp w (if neg then -x else x)
      (v, k - w))

def expm1Val (neg : Bool) (m : Nat) (e : Int) : FnVal :=
  if neg && decide (2048 ≤ floorMag m e) then .below true 1
  else if 4096 ≤ floorMag m e then .huge false
  else .approx (fun w =>
    let x := toFx w m e
    let (v, k) := fxExp w (if neg then -x else x)
    if 0 ≤ k then (v - shiftBy (fxOne w) (-k), k - w) else (shiftBy v k - fxOne w, -(w : Int)))

/-- (e^x − e^−x) ÷ 2, or with `plus` their sum. -/
def sinhVal (plus neg : Bool) (m : Nat) (e : Int) : FnVal :=
  if 4096 ≤ floorMag m e then .huge neg
  else .approx (fun w =>
    let x := toFx w m e
    let (v, k) := fxExp w x
    let (u, j) := fxExp w (-x)
    let u := shiftBy u (j - k)
    let r := if plus then v + u else v - u
    (if neg then -r else r, k - 1 - w))

def tanhVal (neg : Bool) (m : Nat) (e : Int) : FnVal :=
  if 1024 ≤ floorMag m e then .below neg 1
  else .fx neg (fun w =>
    let t := fxExpNeg w (-(2 * toFx w m e))
    fxDiv w (fxOne w - t) (fxOne w + t))

/-- ln, and its quotients by ln 2 and ln 10. -/
def logVal (m : Nat) (e : Int) : FnVal :=
  if cmpOne m e = .eq then .zero false else .fx false (fun w => fxLog w m e)

def log2Val (m : Nat) (e : Int) : FnVal :=
  if m = 2 ^ m.log2 then
    let k := e + m.log2
    .exact (decide (k < 0)) k.natAbs 0 false
  else .fx false (fun w => fxDiv w (fxLog w m e) (fxLn2 w))

def log10Val (m : Nat) (e : Int) : FnVal :=
  match (asNat m e).bind (fun n => (List.range 23).find? (fun k => 10 ^ k == n)) with
  | some k => .nat false k
  | none => .fx false (fun w => fxDiv w (fxLog w m e) (fxLn10 w))

/-- 1 ± m × 2^e as a dyadic; none where it is not positive. -/
def onePlus (neg : Bool) (m : Nat) (e : Int) : Option (Nat × Int) :=
  let k := min e 0
  let one := 2 ^ (-k).toNat
  let x := m * 2 ^ (e - k).toNat
  if neg then (if x < one then some (one - x, k) else none) else some (one + x, k)

def log1pVal (neg : Bool) (m : Nat) (e : Int) : FnVal :=
  match onePlus neg m e with
  | some (n, k) => .fx false (fun w => fxLog w n k)
  | none => if cmpOne m e = .eq then .inf true true else .nv

def asinhVal (neg : Bool) (m : Nat) (e : Int) : FnVal :=
  .fx neg (fun w =>
    let x := toFx w m e
    fxLog w (x + fxSqrt w (fxMul w x x + fxOne w)).toNat (-(w : Int)))

def acoshVal (neg : Bool) (m : Nat) (e : Int) : FnVal :=
  if neg then .nv
  else
    match cmpOne m e with
    | .lt => .nv
    | .eq => .zero false
    | .gt => .fx false (fun w =>
      let x := toFx w m e
      fxLog w (x + fxSqrt w (fxMul w x x - fxOne w)).toNat (-(w : Int)))

def atanhVal (neg : Bool) (m : Nat) (e : Int) : FnVal :=
  match cmpOne m e with
  | .gt => .nv
  | .eq => .inf neg true
  | .lt =>
    match onePlus false m e, onePlus true m e with
    | some (p, k), some (q, j) => .fx neg (fun w => (fxLog w p k - fxLog w q j).tdiv 2)
    | _, _ => .nv

/-- sin and cos of x ≥ 0, reduced exactly by π ÷ 2 (R202). -/
def fxSinCos (w : Nat) (m : Nat) (e : Int) : Int × Int :=
  let w' := w + (max 0 (e + m.log2 + 64)).toNat
  let x := toFx w' m e
  let h := (fxPi w').tdiv 2
  let q := (2 * x + h) / (2 * h)
  let r := shiftBy (x - q * h) ((w : Int) - w')
  let s := fxSin w r
  let c := fxCos w r
  match (q % 4).toNat with
  | 0 => (s, c)
  | 1 => (c, -s)
  | 2 => (-s, -c)
  | _ => (-c, s)

def sinVal (neg : Bool) (m : Nat) (e : Int) : FnVal := .fx neg (fun w => (fxSinCos w m e).1)
def cosVal (m : Nat) (e : Int) : FnVal := .fx false (fun w => (fxSinCos w m e).2)
def tanVal (neg : Bool) (m : Nat) (e : Int) : FnVal :=
  .fx neg (fun w => (fun r => fxDiv w r.1 r.2) (fxSinCos w m e))

/-- The half turns of m × 2^e modulo 4, and the rest below one half as a dyadic (in turns of π). -/
def halfTurns (m : Nat) (e : Int) : Nat × Nat :=
  if 0 ≤ e then (2 * (m * 2 ^ e.toNat) % 4, 0)
  else
    let h := 2 ^ ((-e).toNat - 1)
    (m / h % 4, m % h)

/-- sin(πr) and cos(πr). -/
def piSin (r : Nat) (e : Int) (w : Nat) : Int := fxSin w (fxMul w (toFx w r e) (fxPi w))
def piCos (r : Nat) (e : Int) (w : Nat) : Int := fxCos w (fxMul w (toFx w r e) (fxPi w))

def sinpiVal (neg : Bool) (m : Nat) (e : Int) : FnVal :=
  let (j, r) := halfTurns m e
  let neg' := neg != decide (2 ≤ j)
  if r = 0 then (if j % 2 = 0 then .zero neg else .nat neg' 1)
  else .fx neg' (if j % 2 = 0 then piSin r e else piCos r e)

def cospiVal (m : Nat) (e : Int) : FnVal :=
  let (j, r) := halfTurns m e
  let neg := j == 1 || j == 2
  if r = 0 then (if j % 2 = 0 then .nat (j == 2) 1 else .zero false)
  else .fx neg (if j % 2 = 0 then piCos r e else piSin r e)

def tanpiVal (neg : Bool) (m : Nat) (e : Int) : FnVal :=
  let (j, r) := halfTurns m e
  if r = 0 then (if j % 2 = 0 then .zero neg else .inf (neg != (j == 3)) true)
  else if r * 4 = 2 ^ (-e).toNat then .nat (neg != (j % 2 == 1)) 1
  else if j % 2 = 0 then .fx neg (fun w => fxDiv w (piSin r e w) (piCos r e w))
  else .fx (!neg) (fun w => fxDiv w (piCos r e w) (piSin r e w))

def asinVal (neg : Bool) (m : Nat) (e : Int) : FnVal :=
  match cmpOne m e with
  | .gt => .nv
  | .eq => .approx (fxPiTimes neg 1 2)
  | .lt => .fx neg (fun w =>
    let x := toFx w m e
    fxAtanOf w x (fxSqrt w (fxOne w - fxMul w x x)))

def acosVal (neg : Bool) (m : Nat) (e : Int) : FnVal :=
  match cmpOne m e, neg with
  | .gt, _ => .nv
  | .eq, true => .pi false 1 1
  | .eq, false => .zero false
  | .lt, _ => .fx false (fun w =>
    let x := toFx w m e
    let a := 2 * fxAtan w (fxSqrt w (fxDiv w (fxOne w - x) (fxOne w + x)))
    if neg then fxPi w - a else a)

def atanVal (neg : Bool) (m : Nat) (e : Int) : FnVal :=
  .fx neg (fun w => fxAtanOf w (m * 2 ^ e.toNat) (2 ^ (-e).toNat))

def erfVal (neg : Bool) (m : Nat) (e : Int) : FnVal :=
  if 48 ≤ floorMag m e then .below neg 1 else .fx neg (fun w => fxErf w (toFx w m e))

def erfcVal (neg : Bool) (m : Nat) (e : Int) : FnVal :=
  if 48 ≤ floorMag m e then (if neg then .below false 2 else .tiny false)
  else .fx false (fun w => if neg then fxOne w + fxErf w (toFx w m e) else fxOne w - fxErf w (toFx w m e))

def rsqrtVal (neg : Bool) (m : Nat) (e : Int) : FnVal :=
  if neg then .nv
  else
    let d : Nat := if e % 2 = 0 then 0 else 1
    let m' := m * 2 ^ d
    let r := bigSqrt (2 ^ 300 / m')
    .exact false r (-((e - d) / 2) - 150) (r * r * m' != 2 ^ 300)

def cbrtVal (neg : Bool) (m : Nat) (e : Int) : FnVal :=
  let t : Nat := 240 + (e % 3).toNat
  let n := m * 2 ^ t
  let r := bigCbrt 100 n
  .exact neg r ((e - t) / 3) (r * r * r != n)

def rcpVal (neg : Bool) (m : Nat) (e : Int) : FnVal :=
  .exact neg (2 ^ 200 / m) (-e - 200) (2 ^ 200 % m != 0)

/-- A function at a finite non-zero argument. -/
def fnFinite (fn : Fn) (neg : Bool) (m : Nat) (e : Int) : FnVal :=
  match fn with
  | .exp => expVal neg m e
  | .exp2 => exp2Val neg m e
  | .exp10 => exp10Val neg m e
  | .expm1 => expm1Val neg m e
  | .log => if neg then .nv else logVal m e
  | .log2 => if neg then .nv else log2Val m e
  | .log10 => if neg then .nv else log10Val m e
  | .log1p => log1pVal neg m e
  | .sin => sinVal neg m e
  | .cos => cosVal m e
  | .tan => tanVal neg m e
  | .sinpi => sinpiVal neg m e
  | .cospi => cospiVal m e
  | .tanpi => tanpiVal neg m e
  | .asin => asinVal neg m e
  | .acos => acosVal neg m e
  | .atan => atanVal neg m e
  | .sinh => sinhVal false neg m e
  | .cosh => sinhVal true false m e
  | .tanh => tanhVal neg m e
  | .asinh => asinhVal neg m e
  | .acosh => acoshVal neg m e
  | .atanh => atanhVal neg m e
  | .erf => erfVal neg m e
  | .erfc => erfcVal neg m e
  | .rsqrt => rsqrtVal neg m e
  | .cbrt => cbrtVal neg m e
  | .rcp => rcpVal neg m e

/-- A function at a zero (R208). -/
def fnZero (fn : Fn) (neg : Bool) : FnVal :=
  match fn with
  | .exp | .exp2 | .exp10 | .cos | .cospi | .cosh | .erfc => .nat false 1
  | .log | .log2 | .log10 => .inf true true
  | .acos => .pi false 1 2
  | .acosh => .nv
  | .rsqrt | .rcp => .inf neg true
  | .expm1 | .log1p | .sin | .tan | .sinpi | .tanpi | .asin | .atan | .sinh | .tanh | .asinh | .atanh | .erf
  | .cbrt => .zero neg

/-- A function at an infinity (R208). -/
def fnInf (fn : Fn) (neg : Bool) : FnVal :=
  match fn with
  | .exp | .exp2 | .exp10 => if neg then .zero false else .inf false false
  | .expm1 => if neg then .nat true 1 else .inf false false
  | .log | .log2 | .log10 | .log1p | .acosh => if neg then .nv else .inf false false
  | .sin | .cos | .tan | .sinpi | .cospi | .tanpi | .asin | .acos | .atanh => .nv
  | .atan => .pi neg 1 2
  | .sinh | .asinh | .cbrt => .inf neg false
  | .cosh => .inf false false
  | .tanh | .erf => .nat neg 1
  | .erfc => if neg then .nat false 2 else .zero false
  | .rsqrt => if neg then .nv else .zero false
  | .rcp => .zero neg

/-- The value of a function (R202, R208). -/
def fnVal (fn : Fn) (x : FVal) : FnVal :=
  match x with
  | .nan s => .nan s
  | .inf neg => fnInf fn neg
  | .fin neg m e => if m = 0 then fnZero fn neg else fnFinite fn neg m e

/-- FUNC of a value (R214). -/
def funcRes (fn : Fn) (f : Fmt) (rm : Rnd) (x : FVal) : FRes := fnRound f rm (fnVal fn x)

/-! ### Two-argument functions (R209) -/

/-- The angle of the point (x, y) (R209). -/
def atan2Val (y x : FVal) : FnVal :=
  match y, x with
  | .nan a, x => .nan (a || x.signals)
  | y, .nan b => .nan (b || y.signals)
  | .inf s, .inf t => if t then .pi s 3 4 else .pi s 1 4
  | .inf s, .fin _ _ _ => .pi s 1 2
  | .fin s _ _, .inf t => if t then .pi s 1 1 else .zero s
  | .fin s m e, .fin t n k =>
    if m = 0 then (if t then .pi s 1 1 else .zero s)
    else if n = 0 then .pi s 1 2
    else
      let low := min e k
      .fx s (fun w =>
        let a := fxAtanOf w (m * 2 ^ (e - low).toNat) (n * 2 ^ (k - low).toNat)
        if t then fxPi w - a else a)

/-- √(y² + x²) before its one rounding (R209). -/
def hypotVal (y x : FVal) : FnVal :=
  match y, x with
  | .fin _ m e, .fin _ n k =>
    let low := min (if m = 0 then k else e) (if n = 0 then e else k)
    let a := if m = 0 then 0 else m * 2 ^ (e - low).toNat
    let b := if n = 0 then 0 else n * 2 ^ (k - low).toNat
    let q := (a * a + b * b) * 2 ^ 160
    let r := bigSqrt q
    .exact false r (low - 80) (r * r != q)
  | y, x => if y.isInf || x.isInf then .inf false false else .nan (y.signals || x.signals)

/-- HYPOT, which raises NV for a signalling NaN also where the other operand is infinite (R209). -/
def hypotRes (f : Fmt) (rm : Rnd) (y x : FVal) : FRes :=
  if y.isInf || x.isInf then ⟨fInf f false, nanFlag [y, x]⟩ else fnRound f rm (hypotVal y x)

/-- The results of FUNC2: one, or sine and cosine (R216). -/
def func2Res (fn : Fn2) (f : Fmt) (rm : Rnd) (b c : FVal) : FRes × FRes :=
  match fn with
  | .sincos => (funcRes .sin f rm b, funcRes .cos f rm b)
  | .sincospi => (funcRes .sinpi f rm b, funcRes .cospi f rm b)
  | .atan2 => (fnRound f rm (atan2Val b c), ⟨0, 0⟩)
  | .hypot => (hypotRes f rm b c, ⟨0, 0⟩)

/-! ### FUNCA (R212, R213) -/

/-- The bound in ulps of an FP32 approximation (R212). -/
def approxBound : Fn → Nat
  | .exp | .exp2 | .exp10 | .log | .log2 | .log10 | .rsqrt | .cbrt => 2
  | .expm1 | .log1p | .sinpi | .cospi | .asin | .acos | .atan => 3
  | .sin | .cos | .sinh | .cosh | .tanh | .asinh | .acosh | .atanh | .erf => 4
  | .tanpi => 5
  | .tan | .erfc => 6
  | .rcp => 1

/-- The argument lies in the domain of the bound (R212). -/
def approxDomain (fn : Fn) (x : FVal) : Bool :=
  match fn, x with
  | .sin, .fin _ m e | .cos, .fin _ m e | .tan, .fin _ m e => decide (floorMag m e < 2 ^ 20) || asNat m e == some (2 ^ 20)
  | .erfc, .fin neg m e => neg || decide (floorMag m e < 9) || asNat m e == some 9
  | _, _ => true

/-- The exact result as a dyadic interval's middle; none where a special result stands for it. -/
def fnMiddle (v : FnVal) : Option (Int × Int) :=
  match v with
  | .exact neg m e _ => some (if neg then -(m : Int) else m, e)
  | .pi neg n d => some (fxPiTimes neg n d (4200 + guardBits))
  | .approx g => some (g (4200 + guardBits))
  | _ => none

/-- A code's place in the order of a format's values, and the codes at a place: both zeros stand at 0. -/
def codePlace (f : Fmt) (x : DWord) : Int := valueKey f x
def placeCodes (f : Fmt) (p : Int) : List DWord :=
  if p = 0 then [fSigned f false 0, fSigned f true 0] else [fSigned f (decide (p < 0)) p.natAbs]

/-- The value of a code lies within `b` ulps of an exact value, the ulp being that of the value's binade, or the least
subnormal below the least normal value (R212). -/
def withinUlps (f : Fmt) (b : Nat) (v e : Int) (code : DWord) : Bool :=
  match fval f code with
  | .fin neg m k =>
    let least : Int := 1 - fmtBias f - fmtF f
    let ulp := if v = 0 then least else max (e + v.natAbs.log2 - fmtF f) least
    let low := min (min e k) ulp
    let y : Int := ((m * 2 ^ (k - low).toNat : Nat) : Int)
    let y := if neg then -y else y
    decide ((y - v * 2 ^ (e - low).toNat).natAbs ≤ b * 2 ^ (ulp - low).toNat)
  | _ => false

/-- The finite codes that FUNCA may return for a value in its domain (R212). -/
def approxCodes (fn : Fn) (f : Fmt) (v : FnVal) : List DWord :=
  let down := (fnRound f .rd v).bits
  let finite := fun c => match fval f c with
    | .fin _ _ _ => true
    | _ => false
  let near := match f, fnMiddle v with
    | .f32, some (x, e) =>
      let b := approxBound fn
      ((List.range (4 * b + 2)).flatMap (fun (i : Nat) =>
        placeCodes f (codePlace f down + (i : Int) - 2 * (b : Int)))).filter (withinUlps f b x e)
    | _, _ => [down, (fnRound f .ru v).bits]
  let near := near.filter finite
  if near.isEmpty then [(fnRound f .rz v).bits] else near

/-- A finite value in a function's range, where FUNCA has no bound (R212). -/
def rangeCode (fn : Fn) (f : Fmt) (n : Nat) : DWord :=
  let top := match fn with
    | .sin | .cos => (fnRound f .rn (.nat false 1)).bits.toNat
    | .erfc => (fnRound f .rn (.nat false 2)).bits.toNat
    | _ => fmtMax f
  fSigned f (fn != .erfc && n % 2 == 1) (n / 2 % (top + 1))

/-- The code of a format in FN (R52). -/
def fmtCode : Fmt → Nat
  | .f64 => 0
  | .f32 => 1
  | .f16 => 2
  | .bf16 => 3
  | .e4m3 => 4
  | .e5m2 => 5

/-- The code of a function (R202). -/
def fnCode : Fn → Nat
  | .exp => 0
  | .exp2 => 1
  | .exp10 => 2
  | .expm1 => 3
  | .log => 4
  | .log2 => 5
  | .log10 => 6
  | .log1p => 7
  | .sin => 8
  | .cos => 9
  | .tan => 10
  | .sinpi => 11
  | .cospi => 12
  | .tanpi => 13
  | .asin => 14
  | .acos => 15
  | .atan => 16
  | .sinh => 17
  | .cosh => 18
  | .tanh => 19
  | .asinh => 20
  | .acosh => 21
  | .atanh => 22
  | .erf => 23
  | .erfc => 24
  | .rsqrt => 25
  | .cbrt => 26
  | .rcp => 27

/-- The argument is one whose result R208 lists: with the zeros of SINPI, COSPI and TANPI and the π of ACOS. -/
def listedCase (fn : Fn) (x : FVal) (v : FnVal) : Bool :=
  x.isNan || x.isInf || x.isZero ||
  (match v with
  | .nv | .nan _ | .inf _ _ | .pi _ _ _ => true
  | .exact _ m _ sticky => (fn == .sinpi || fn == .cospi || fn == .tanpi) && m == 0 && !sticky
  | .approx _ => false)

/-- FUNCA of a value: the listed results, an overflow as FUNC has it, else a value that the bounds leave open (R212,
R213). -/
def funcaRes (fn : Fn) (f : Fmt) (x : FVal) (bits : DWord) : FRes :=
  let v := fnVal fn x
  let r := fnRound f .rn v
  let pick := (Config.approx (fnCode fn) (fmtCode f) bits).toNat
  if listedCase fn x v then ⟨r.bits, r.flags &&& flagNV⟩
  else if r.flags &&& flagOF != 0 then ⟨r.bits, flagOF⟩
  else if f = .f32 && !approxDomain fn x then ⟨rangeCode fn f pick, 0⟩
  else
    let cs := approxCodes fn f v
    ⟨cs.getD (pick % cs.length) r.bits, 0⟩

end Sys2Proof.Machine
end

