-- ==== Sys2Proof/Machine/Sfu.lean ====
section
/-! DEFINITION. FUNC, FUNCA and FUNC2 (R214 to R216) and the two phases of the special-function unit (R203 to R206, R210,
R217). -/

namespace Sys2Proof.Machine

open Sys2Proof

/-- The code of a rounding mode (R52). -/
def rmCode : Rnd → Nat
  | .dyn => 0
  | .rn => 1
  | .ra => 2
  | .rz => 3
  | .ru => 4
  | .rd => 5

/-- m × 2^e is a value of a format or the midpoint of two adjacent ones (R205). -/
def onGrid (f : Fmt) (m : Nat) (e : Int) : Bool :=
  m == 0 ||
    (let half := max (e + m.log2 - fmtF f) (1 - fmtBias f - fmtF f) - 1
     (decide (half ≤ e) || m % 2 ^ (half - e).toNat == 0) &&
       (roundMag f .ru false m e false).flags &&& flagOF == 0)

/-- A lane may enter phase 2: the format has a phase 2, and phase 1 need not decide the result (R205, R206). What the
special-value tables settle is decided (R203). -/
def mayBeSlow (f : Fmt) (v : FnVal) : Bool :=
  (f == .f64 || f == .f32) &&
  (match v with
  | .approx _ => true
  | .exact _ m e sticky => sticky || !onGrid f m e
  | .nv | .nan _ | .inf _ _ | .pi _ _ _ => false)

/-- A lane enters phase 2 (R203). -/
def slowLane (sel : Nat) (f : Fmt) (rm : Rnd) (x y : DWord) (vs : List FnVal) : Bool :=
  vs.any (mayBeSlow f) && Config.undecided sel (fmtCode f * 8 + rmCode rm) x y

/-- Phase-1 latency in cycles (R203, R213). -/
def sfuLatency (f : Fmt) : Nat := if f = .f64 then 24 else 12

/-- The rotations P + kQ after which a result counts as complete (R217). -/
def sfuRotations (f : Fmt) (fast : Bool) (k : Nat) : Nat :=
  if fast then 2
  else
    match f with
    | .f64 => 4 + 2 * k
    | .f32 => 2 + k
    | _ => 2

/-- An instruction as the special-function unit holds it: its results, flags and phase-2 lanes are fixed by its operands
(R203, R204, R213, R217). -/
def WarpView.sfuOp (v : WarpView) (f : Fmt) (fast : Bool) (writes : List RegWrite) (flags : Nat → BitVec 5) (slow : Nat → Bool) :
    SfuOp :=
  let m := Mask.of (fun l => v.active.has l && slow l)
  ⟨v.gr.core, v.is.g, v.is.w, v.active, writes, Lanes.of flags, m, m.count, if fast then 8 else sfuLatency f, false,
    if v.s.coreDetermined v.gr.core && !v.inStub then some (v.s.vtimeOf v.gr.ctx + sfuRotations f fast m.count) else none⟩

/-- An instruction enters the special-function unit, and its destination waits for its retirement (R204). -/
def WarpView.toSfu (v : WarpView) (f : Fmt) (fast : Bool) (writes : List RegWrite) (flags : Nat → BitVec 5)
    (slow : Nat → Bool) : WarpRes :=
  if v.active = 0 then .done { st := v.s }
  else .done { st := { v.s with sfu := v.s.sfu ++ [v.sfuOp f fast writes flags slow] }, late := writes }

/-- FUNC of the active lanes (R214). -/
def warpFunc (rm : Rnd) (f : Fmt) (fn : Fn) (a b : Operand) (v : WarpView) : WarpRes :=
  let rm := v.mode rm
  let r := fun l => funcRes fn f rm (v.fval f false b l 0)
  v.toSfu f false (v.fdest f false a (fun l _ => (r l).bits)) (fun l => (r l).flags)
    (fun l => slowLane (fnCode fn) f rm (v.fbits f false b l 0) 0 [fnVal fn (v.fval f false b l 0)])

/-- FUNC (R214). -/
def execFunc (k : Ctl) (rm : Rnd) (fmt : Fmt) (fn : Fn) (a b : Operand) (s : State) :
    Host.Outcome State Fault Refusal :=
  runWarp (.func k rm fmt fn a b) (warpFunc rm fmt fn a b) s

/-- FUNCA (R215). -/
def warpFunca (f : Fmt) (fn : Fn) (a b : Operand) (v : WarpView) : WarpRes :=
  let r := fun l => funcaRes fn f (v.fval f false b l 0) (v.fbits f false b l 0)
  v.toSfu f true (v.fdest f false a (fun l _ => (r l).bits)) (fun l => (r l).flags) (fun _ => false)

def execFunca (k : Ctl) (fmt : Fmt) (fn : Fn) (a b : Operand) (s : State) : Host.Outcome State Fault Refusal :=
  runWarp (.funca k fmt fn a b) (warpFunca fmt fn a b) s

/-- The code of a FUNC2 function, apart from FUNC's. -/
def fn2Code : Fn2 → Nat
  | .sincos => 64
  | .sincospi => 65
  | .atan2 => 66
  | .hypot => 67

/-- The values of FUNC2's results, as far as phase 1 is concerned. -/
def func2Vals (fn : Fn2) (b c : FVal) : List FnVal :=
  match fn with
  | .sincos => [fnVal .sin b, fnVal .cos b]
  | .sincospi => [fnVal .sinpi b, fnVal .cospi b]
  | .atan2 => [atan2Val b c]
  | .hypot => [hypotVal b c]

/-- Two results side by side: a quad, a pair or the halves of a register (R216). -/
def WarpView.twoDest (v : WarpView) (f : Fmt) (a : Operand) (s c : Nat → DWord) : List RegWrite :=
  match f with
  | .f64 => v.wQuad a (fun l => (c l ++ s l : BitVec 128))
  | .f32 => v.w64 a (fun l => ((c l).setWidth 32 ++ (s l).setWidth 32 : BitVec 64))
  | _ => v.w32 a (fun l => packElems 16 (fun e => if e = 0 then s l else c l))

def warpFunc2 (rm : Rnd) (f : Fmt) (fn : Fn2) (a b c : Operand) (v : WarpView) : WarpRes :=
  let rm := v.mode rm
  let one := fn == .atan2 || fn == .hypot
  let x := fun l => v.fval f false b l 0
  let y := fun l => if one then v.fval f false c l 0 else .fin false 0 0
  let yb := fun l => if one then v.fbits f false c l 0 else 0
  let r := fun l => func2Res fn f rm (x l) (y l)
  v.toSfu f false
    (if one then v.fdest f false a (fun l _ => (r l).1.bits)
     else v.twoDest f a (fun l => (r l).1.bits) (fun l => (r l).2.bits))
    (fun l => (r l).1.flags ||| (r l).2.flags)
    (fun l => slowLane (fn2Code fn) f rm (v.fbits f false b l 0) (yb l) (func2Vals fn (x l) (y l)))

/-- FUNC2 (R216). -/
def execFunc2 (k : Ctl) (rm : Rnd) (fmt : Fmt) (fn : Fn2) (a b c : Operand) (s : State) :
    Host.Outcome State Fault Refusal :=
  runWarp (.func2 k rm fmt fn a b c) (warpFunc2 rm fmt fn a b c) s

/-! ### Retirement (R204, R210) -/

/-- The scoreboard lets the names go, or holds them to their rotation (R204, R217). -/
def Warp.release_ (w : Warp) (names : List Nat) (usable : Option Nat) : Warp :=
  let w := { w with pending := w.pending.filter (fun p => !(p.usable.isNone && names.contains p.name)) }
  match usable with
  | some r => w.holdBack names (some r)
  | none => w

/-- The instruction writes its destination and flags in every active lane and counts its phase-2 lanes. -/
def State.sfuRetire (s : State) (op : SfuOp) : State :=
  s.modGroup op.g (fun gr =>
    let gr := op.writes.foldl (fun gr x => gr.write op.w x) gr
    gr.modWarp op.w (fun w =>
      { ((w.addFlags op.lanes op.flags).release_ (op.writes.map RegWrite.name) op.usable) with
        sfuslow := w.sfuslow + BitVec.ofNat 32 op.count }))

/-- The halt line has abandoned the unit's work of a core (R218). -/
def State.sfuHalted (s : State) (op : SfuOp) : Bool :=
  match s.group? op.g with
  | none => true
  | some gr => s.silent gr

/-- SFU_PHASE1_COMPLETE: instruction `i` in phase 1 on a core is through, unless an earlier one of its latency is not. It
retires, or goes behind the core's phase-2 work (R203, R204). -/
def execSfuPhase1Complete (core i : Nat) (s : State) : Host.Outcome State Fault Refusal :=
  let mine := s.sfu.filter (fun o => o.core == core && !o.phase2)
  finish s (match mine[i]? with
    | none => s
    | some op =>
      if (mine.take i).any (fun o => o.latency == op.latency) then s
      else
        let s := { s with sfu := s.sfu.erase op }
        if s.sfuHalted op then s
        else if op.slow = 0 then s.sfuRetire op
        else { s with sfu := s.sfu ++ [{ op with phase2 := true }] })

/-- SFU_PHASE2_LANE: the unit decides the lowest lane left of the instruction it serves, which retires with its last one
(R204). -/
def execSfuPhase2Lane (core : Nat) (s : State) : Host.Outcome State Fault Refusal :=
  finish s (match s.sfu.find? (fun o => o.core == core && o.phase2) with
    | none => s
    | some op =>
      let left := op.slow &&& ~~~(BitVec.twoPow 32 ((Mask.lowest op.slow).getD 0))
      if s.sfuHalted op then { s with sfu := s.sfu.erase op }
      else if left = 0 then { s with sfu := s.sfu.erase op }.sfuRetire op
      else { s with sfu := s.sfu.map (fun o => if o = op then { op with slow := left } else o) })

end Sys2Proof.Machine
end

