-- ==== Sys2Proof/Machine/Dispatch.lean ====
section
/-! DEFINITION. The meaning of each instruction: one call of its own definition. -/

namespace Sys2Proof.Machine

open Sys2Proof

def exec (i : Instr) (s : State) : Host.Outcome State Fault Refusal :=
  match i with
  | .nop k => Sys2Proof.Machine.execNop k s
  | .shmap k a b c => Sys2Proof.Machine.execShmap k a b c s
  | .shmapOff k a b c => Sys2Proof.Machine.execShmapOff k a b c s
  | .barGate k a => Sys2Proof.Machine.execBarGate k a s
  | .barMark k a => Sys2Proof.Machine.execBarMark k a s
  | .barHold k gen a b => Sys2Proof.Machine.execBarHold k gen a b s
  | .barSet k a b => Sys2Proof.Machine.execBarSet k a b s
  | .safept k c => Sys2Proof.Machine.execSafept k c s
  | .safeptResume k => Sys2Proof.Machine.execSafeptResume k s
  | .yieldI k c => Sys2Proof.Machine.execYieldI k c s
  | .ld k m off a b => Sys2Proof.Machine.execLd k m off a b s
  | .st k m off a b => Sys2Proof.Machine.execSt k m off a b s
  | .lds k w off a b => Sys2Proof.Machine.execLds k w off a b s
  | .sts k w off a b => Sys2Proof.Machine.execSts k w off a b s
  | .ldfe k take w off a b => Sys2Proof.Machine.execLdfe k take w off a b s
  | .stfe k w off a b => Sys2Proof.Machine.execStfe k w off a b s
  | .stfeClr k off b => Sys2Proof.Machine.execStfeClr k off b s
  | .atom k op m off a b => Sys2Proof.Machine.execAtom k op m off a b s
  | .atoms k op w64 off a b => Sys2Proof.Machine.execAtoms k op w64 off a b s
  | .red k op m off a b => Sys2Proof.Machine.execRed k op m off a b s
  | .splook k a b c => Sys2Proof.Machine.execSplook k a b c s
  | .sptag k a b c => Sys2Proof.Machine.execSptag k a b c s
  | .sptagDel k a c => Sys2Proof.Machine.execSptagDel k a c s
  | .fence k kind sc => Sys2Proof.Machine.execFence k kind sc s
  | .fenceH k kind sc => Sys2Proof.Machine.execFenceH k kind sc s
  | .waitmem k cnd sc w64 off a b => Sys2Proof.Machine.execWaitmem k cnd sc w64 off a b s
  | .pref k off b => Sys2Proof.Machine.execPref k off b s
  | .cinvI k sc => Sys2Proof.Machine.execCinvI k sc s
  | .cinvL2 k off b => Sys2Proof.Machine.execCinvL2 k off b s
  | .latchSrc k sp a b c => Sys2Proof.Machine.execLatchSrc k sp a b c s
  | .latchDst k sp a b c => Sys2Proof.Machine.execLatchDst k sp a b c s
  | .latchRel k sp b => Sys2Proof.Machine.execLatchRel k sp b s
  | .latchGrant ctx i1 => Sys2Proof.Machine.execLatchGrant ctx i1 s
  | .storeCommit g => Sys2Proof.Machine.execStoreCommit g s
  | .storePerformed core i1 => Sys2Proof.Machine.execStorePerformed core i1 s
  | .iadd k m a b c => Sys2Proof.Machine.execIadd k m a b c s
  | .isub k m a b c => Sys2Proof.Machine.execIsub k m a b c s
  | .imul k m a b c => Sys2Proof.Machine.execImul k m a b c s
  | .imulh k m a b c => Sys2Proof.Machine.execImulh k m a b c s
  | .imad k m a b c => Sys2Proof.Machine.execImad k m a b c s
  | .idiv k m a b c => Sys2Proof.Machine.execIdiv k m a b c s
  | .irem k m a b c => Sys2Proof.Machine.execIrem k m a b c s
  | .imin k m a b c => Sys2Proof.Machine.execImin k m a b c s
  | .imax k m a b c => Sys2Proof.Machine.execImax k m a b c s
  | .iabs k m a b => Sys2Proof.Machine.execIabs k m a b s
  | .ineg k m a b => Sys2Proof.Machine.execIneg k m a b s
  | .iaddc k w64 ix a b c => Sys2Proof.Machine.execIaddc k w64 ix a b c s
  | .isad k m a b c => Sys2Proof.Machine.execIsad k m a b c s
  | .idot4 k bs cs sat a b c => Sys2Proof.Machine.execIdot4 k bs cs sat a b c s
  | .asacc k sgn sat a b c => Sys2Proof.Machine.execAsacc k sgn sat a b c s
  | .icmp k cmp ty a b c => Sys2Proof.Machine.execIcmp k cmp ty a b c s
  | .isel k neg ix ty a b c => Sys2Proof.Machine.execIsel k neg ix ty a b c s
  | .and k nc w64 a b c => Sys2Proof.Machine.execAnd k nc w64 a b c s
  | .or k nc w64 a b c => Sys2Proof.Machine.execOr k nc w64 a b c s
  | .xor k nc w64 a b c => Sys2Proof.Machine.execXor k nc w64 a b c s
  | .bitfn k w64 tbl a b c => Sys2Proof.Machine.execBitfn k w64 tbl a b c s
  | .shl k ty a b c => Sys2Proof.Machine.execShl k ty a b c s
  | .shr k ty a b c => Sys2Proof.Machine.execShr k ty a b c s
  | .rot k ty a b c => Sys2Proof.Machine.execRot k ty a b c s
  | .bfx k ty a b c => Sys2Proof.Machine.execBfx k ty a b c s
  | .bfi k ty a b c => Sys2Proof.Machine.execBfi k ty a b c s
  | .popc k w64 a b => Sys2Proof.Machine.execPopc k w64 a b s
  | .clz k w64 a b => Sys2Proof.Machine.execClz k w64 a b s
  | .ctz k w64 a b => Sys2Proof.Machine.execCtz k w64 a b s
  | .brev k w64 a b => Sys2Proof.Machine.execBrev k w64 a b s
  | .mov k w64 a b => Sys2Proof.Machine.execMov k w64 a b s
  | .movi k hi a b c => Sys2Proof.Machine.execMovi k hi a b c s
  | .perm k z a b c => Sys2Proof.Machine.execPerm k z a b c s
  | .pack k m a b c => Sys2Proof.Machine.execPack k m a b c s
  | .unpk3 k trap a b c => Sys2Proof.Machine.execUnpk3 k trap a b c s
  | .isect k a b c => Sys2Proof.Machine.execIsect k a b c s
  | .pset k op nb nc inv a b c => Sys2Proof.Machine.execPset k op nb nc inv a b c s
  | .pmov k a b => Sys2Proof.Machine.execPmov k a b s
  | .pmovToreg k a b => Sys2Proof.Machine.execPmovToreg k a b s
  | .pmovFromreg k a b c => Sys2Proof.Machine.execPmovFromreg k a b c s
  | .vote k mode neg a b => Sys2Proof.Machine.execVote k mode neg a b s
  | .vred k op ty a b => Sys2Proof.Machine.execVred k op ty a b s
  | .hallCombine g => Sys2Proof.Machine.execHallCombine g s
  | .bra k l off => Sys2Proof.Machine.execBra k l off s
  | .brx k l b => Sys2Proof.Machine.execBrx k l b s
  | .meet k off => Sys2Proof.Machine.execMeet k off s
  | .meetSv k off a => Sys2Proof.Machine.execMeetSv k off a s
  | .meetLd k b => Sys2Proof.Machine.execMeetLd k b s
  | .regionRelease g w => Sys2Proof.Machine.execRegionRelease g w s
  | .call k off => Sys2Proof.Machine.execCall k off s
  | .callx k b => Sys2Proof.Machine.execCallx k b s
  | .ret k => Sys2Proof.Machine.execRet k s
  | .exit k => Sys2Proof.Machine.execExit k s
  | .loop k off a => Sys2Proof.Machine.execLoop k off a s
  | .fadd k m a b c => Sys2Proof.Machine.execFadd k m a b c s
  | .fsub k m a b c => Sys2Proof.Machine.execFsub k m a b c s
  | .fmul k m a b c => Sys2Proof.Machine.execFmul k m a b c s
  | .ffma k np na m a b c => Sys2Proof.Machine.execFfma k np na m a b c s
  | .fdiv k m a b c => Sys2Proof.Machine.execFdiv k m a b c s
  | .fsqrt k m a b => Sys2Proof.Machine.execFsqrt k m a b s
  | .fminmax k mx nan m a b c => Sys2Proof.Machine.execFminmax k mx nan m a b c s
  | .fabs k m a b => Sys2Proof.Machine.execFabs k m a b s
  | .fneg k m a b => Sys2Proof.Machine.execFneg k m a b s
  | .fcopys k m a b c => Sys2Proof.Machine.execFcopys k m a b c s
  | .fcmp k cmp m a b c => Sys2Proof.Machine.execFcmp k cmp m a b c s
  | .fclass k m a b c => Sys2Proof.Machine.execFclass k m a b c s
  | .frnd k x m a b => Sys2Proof.Machine.execFrnd k x m a b s
  | .fcvt k m a b c => Sys2Proof.Machine.execFcvt k m a b c s
  | .icvt k m a b => Sys2Proof.Machine.execIcvt k m a b s
  | .fexpoScale k m a b c => Sys2Proof.Machine.execFexpoScale k m a b c s
  | .fexpoGetexp k m a b => Sys2Proof.Machine.execFexpoGetexp k m a b s
  | .fexpoGetmant k m a b => Sys2Proof.Machine.execFexpoGetmant k m a b s
  | .fdot2 k m a b c => Sys2Proof.Machine.execFdot2 k m a b c s
  | .fmad2 k mad conj m a b c => Sys2Proof.Machine.execFmad2 k mad conj m a b c s
  | .fstatGet k a => Sys2Proof.Machine.execFstatGet k a s
  | .fstatClr k b => Sys2Proof.Machine.execFstatClr k b s
  | .fstatSet k b => Sys2Proof.Machine.execFstatSet k b s
  | .quant k a b c => Sys2Proof.Machine.execQuant k a b c s
  | .cbdec k md a b c => Sys2Proof.Machine.execCbdec k md a b c s
  | .deq k src a b c => Sys2Proof.Machine.execDeq k src a b c s
  | .func k rm fmt fn a b => Sys2Proof.Machine.execFunc k rm fmt fn a b s
  | .funca k fmt fn a b => Sys2Proof.Machine.execFunca k fmt fn a b s
  | .func2 k rm fmt fn a b c => Sys2Proof.Machine.execFunc2 k rm fmt fn a b c s
  | .sfuPhase1Complete core i1 => Sys2Proof.Machine.execSfuPhase1Complete core i1 s
  | .sfuPhase2Lane core => Sys2Proof.Machine.execSfuPhase2Lane core s
  | .tretRetry k => Sys2Proof.Machine.execTretRetry k s
  | .tretSkip k => Sys2Proof.Machine.execTretSkip k s
  | .tretKillpt k => Sys2Proof.Machine.execTretKillpt k s
  | .tretKillw k => Sys2Proof.Machine.execTretKillw k s
  | .tretFatal k => Sys2Proof.Machine.execTretFatal k s
  | .hallFaultDelivery g => Sys2Proof.Machine.execHallFaultDelivery g s
  | .trap k c => Sys2Proof.Machine.execTrap k c s
  | .bkpt k c => Sys2Proof.Machine.execBkpt k c s
  | .ill k fn a b c => Sys2Proof.Machine.execIll k fn a b c s
  | .rdsr k a b => Sys2Proof.Machine.execRdsr k a b s
  | .wrsr k a b => Sys2Proof.Machine.execWrsr k a b s
  | .ctxopSetf k field a b c => Sys2Proof.Machine.execCtxopSetf k field a b c s
  | .ctxopRegion k a b c => Sys2Proof.Machine.execCtxopRegion k a b c s
  | .ctxopTlbinv k b c => Sys2Proof.Machine.execCtxopTlbinv k b c s
  | .watchdogExpiry g => Sys2Proof.Machine.execWatchdogExpiry g s
  | .nbind k a b c => Sys2Proof.Machine.execNbind k a b c s
  | .npop k try_ a => Sys2Proof.Machine.execNpop k try_ a s
  | .ndoneOk k a => Sys2Proof.Machine.execNdoneOk k a s
  | .ndoneFail k a b c => Sys2Proof.Machine.execNdoneFail k a b c s
  | .ndoneKill k a b c => Sys2Proof.Machine.execNdoneKill k a b c s
  | .nxbnd k hi d a b c => Sys2Proof.Machine.execNxbnd k hi d a b c s
  | .boundRewrite die i1 => Sys2Proof.Machine.execBoundRewrite die i1 s
  | .njoin k q try_ a b => Sys2Proof.Machine.execNjoin k q try_ a b s
  | .rowOpen ctx handle => Sys2Proof.Machine.execRowOpen ctx handle s
  | .scheduleStart ctx handle => Sys2Proof.Machine.execScheduleStart ctx handle s
  | .detsetD0 k a => Sys2Proof.Machine.execDetsetD0 k a s
  | .detsetRec k d2 a b => Sys2Proof.Machine.execDetsetRec k d2 a b s
  | .detsetPlay k d2 a b => Sys2Proof.Machine.execDetsetPlay k d2 a b s
  | .clk k a => Sys2Proof.Machine.execClk k a s
  | .clkVt k a => Sys2Proof.Machine.execClkVt k a s
  | .clkRet k a => Sys2Proof.Machine.execClkRet k a s
  | .waitEnd g => Sys2Proof.Machine.execWaitEnd g s
  | .waitSwap g => Sys2Proof.Machine.execWaitSwap g s
  | .coreStallSwap core => Sys2Proof.Machine.execCoreStallSwap core s
  | .groupMove g core => Sys2Proof.Machine.execGroupMove g core s
  | .groupReadmission g core => Sys2Proof.Machine.execGroupReadmission g core s
  | .groupPlacement ctx i1 core => Sys2Proof.Machine.execGroupPlacement ctx i1 core s
  | .quantumExpiry ctx rcb => Sys2Proof.Machine.execQuantumExpiry ctx rcb s
  | .enginePreemptStop ctx e => Sys2Proof.Machine.execEnginePreemptStop ctx e s
  | .haltLineRaise ctx e cause addr => Sys2Proof.Machine.execHaltLineRaise ctx e cause addr s
  | .engineHaltStop ctx e => Sys2Proof.Machine.execEngineHaltStop ctx e s
  | .shutterSample ctx => Sys2Proof.Machine.execShutterSample ctx s
  | .shutterSecondSample ctx => Sys2Proof.Machine.execShutterSecondSample ctx s
  | .aprun k a b c => Sys2Proof.Machine.execAprun k a b c s
  | .aqld k str off a b => Sys2Proof.Machine.execAqld k str off a b s
  | .aqldSp k str off a b => Sys2Proof.Machine.execAqldSp k str off a b s
  | .aqldComplete g i1 => Sys2Proof.Machine.execAqldComplete g i1 s
  | .aqst k str off a b => Sys2Proof.Machine.execAqst k str off a b s
  | .aqsyn k sc => Sys2Proof.Machine.execAqsyn k sc s
  | .qpop k a b => Sys2Proof.Machine.execQpop k a b s
  | .qpush k a b => Sys2Proof.Machine.execQpush k a b s
  | .qctlToken k a b c => Sys2Proof.Machine.execQctlToken k a b c s
  | .qctlRetry k a b => Sys2Proof.Machine.execQctlRetry k a b s
  | .qctlKill k a b => Sys2Proof.Machine.execQctlKill k a b s
  | .qctlStat k a b => Sys2Proof.Machine.execQctlStat k a b s
  | .qctlJoin k a b => Sys2Proof.Machine.execQctlJoin k a b s
  | .mma k m a b c => Sys2Proof.Machine.execMma k m a b c s
  | .commandEligible cluster i1 => Sys2Proof.Machine.execCommandEligible cluster i1 s
  | .matrixPass cluster i1 => Sys2Proof.Machine.execMatrixPass cluster i1 s
  | .matrixCommandComplete cluster i1 => Sys2Proof.Machine.execMatrixCommandComplete cluster i1 s
  | .mxmovRd k a b c => Sys2Proof.Machine.execMxmovRd k a b c s
  | .mxmovWr k a b c => Sys2Proof.Machine.execMxmovWr k a b c s
  | .mxmovSt k cv fe a b => Sys2Proof.Machine.execMxmovSt k cv fe a b s
  | .mxmovLd k a b => Sys2Proof.Machine.execMxmovLd k a b s
  | .mxmovZero k a => Sys2Proof.Machine.execMxmovZero k a s
  | .mxmovFlg k a b => Sys2Proof.Machine.execMxmovFlg k a b s
  | .mkeyJoin k => Sys2Proof.Machine.execMkeyJoin k s
  | .mkeyTake k => Sys2Proof.Machine.execMkeyTake k s
  | .mkeyPass k => Sys2Proof.Machine.execMkeyPass k s
  | .mkeyLeave k => Sys2Proof.Machine.execMkeyLeave k s
  | .mkeyRsv k a => Sys2Proof.Machine.execMkeyRsv k a s
  | .mkeyRel k a => Sys2Proof.Machine.execMkeyRel k a s
  | .plane k af nr b c => Sys2Proof.Machine.execPlane k af nr b c s
  | .fxg k a b => Sys2Proof.Machine.execFxg k a b s
  | .fxc k a b => Sys2Proof.Machine.execFxc k a b s
  | .fabricShare die i1 => Sys2Proof.Machine.execFabricShare die i1 s
  | .fabricUnitComplete die i1 => Sys2Proof.Machine.execFabricUnitComplete die i1 s
  | .collectiveCheck die i1 => Sys2Proof.Machine.execCollectiveCheck die i1 s
  | .fabricCommandComplete die i1 => Sys2Proof.Machine.execFabricCommandComplete die i1 s
  | .hbind k j lag a b => Sys2Proof.Machine.execHbind k j lag a b s
  | .hbindDrain k a b => Sys2Proof.Machine.execHbindDrain k a b s
  | .hbindCut k a b => Sys2Proof.Machine.execHbindCut k a b s
  | .hrecv k try_ a b => Sys2Proof.Machine.execHrecv k try_ a b s
  | .hsendOk k a => Sys2Proof.Machine.execHsendOk k a s
  | .hsendMore k a => Sys2Proof.Machine.execHsendMore k a s
  | .hsendNone k a => Sys2Proof.Machine.execHsendNone k a s
  | .hsendFail k a b c => Sys2Proof.Machine.execHsendFail k a b c s
  | .hsendKill k a b c => Sys2Proof.Machine.execHsendKill k a b c s
  | .sourceEmit i1 => Sys2Proof.Machine.execSourceEmit i1 s
  | .sinkWrite ctx handle => Sys2Proof.Machine.execSinkWrite ctx handle s
  | .endOfStream i1 => Sys2Proof.Machine.execEndOfStream i1 s
  | .epochEnd stack => Sys2Proof.Machine.execEpochEnd stack s
  | .regionSwap stack => Sys2Proof.Machine.execRegionSwap stack s
  | .swapcfg on factor offset => Sys2Proof.Machine.execSwapcfg on factor offset s
  | .retire layer => Sys2Proof.Machine.execRetire layer s
  | .restore layer => Sys2Proof.Machine.execRestore layer s
  | .rotate ctx key => Sys2Proof.Machine.execRotate ctx key s
  | .spare stack layer region => Sys2Proof.Machine.execSpare stack layer region s
  | .readcnt stack layer => Sys2Proof.Machine.execReadcnt stack layer s
  | .boot => Sys2Proof.Machine.execBoot s
  | .recoveryChunk v => Sys2Proof.Machine.execRecoveryChunk v s
  | .getVersion req => Sys2Proof.Machine.execGetVersion req s
  | .getCapabilities req => Sys2Proof.Machine.execGetCapabilities req s
  | .negotiateAlgorithms req => Sys2Proof.Machine.execNegotiateAlgorithms req s
  | .getDigests req => Sys2Proof.Machine.execGetDigests req s
  | .getCertificate req => Sys2Proof.Machine.execGetCertificate req s
  | .challenge req => Sys2Proof.Machine.execChallenge req s
  | .getMeasurements req => Sys2Proof.Machine.execGetMeasurements req s
  | .qenableWrite v => Sys2Proof.Machine.execQenableWrite v s
  | .doorbell v => Sys2Proof.Machine.execDoorbell v s
  | .requestPoll => Sys2Proof.Machine.execRequestPoll s
  | .registerWrite off v => Sys2Proof.Machine.execRegisterWrite off v s
  | .hello => Sys2Proof.Machine.execHello s
  | .create => Sys2Proof.Machine.execCreate s
  | .start => Sys2Proof.Machine.execStart s
  | .preempt => Sys2Proof.Machine.execPreempt s
  | .resume => Sys2Proof.Machine.execResume s
  | .reset => Sys2Proof.Machine.execReset s
  | .destroy => Sys2Proof.Machine.execDestroy s
  | .update => Sys2Proof.Machine.execUpdate s
  | .powercap => Sys2Proof.Machine.execPowercap s
  | .eventPost => Sys2Proof.Machine.execEventPost s
  | .linkTraining port up major minor identity => Sys2Proof.Machine.execLinkTraining port up major minor identity s
  | .fabricGroupAnnounce group dev identity ctx => Sys2Proof.Machine.execFabricGroupAnnounce group dev identity ctx s
  | .memberLeave group dev => Sys2Proof.Machine.execMemberLeave group dev s
  | .thermalThrottle die => Sys2Proof.Machine.execThermalThrottle die s
  | .thermalTrip die => Sys2Proof.Machine.execThermalTrip die s
  | .expanderRemoved port => Sys2Proof.Machine.execExpanderRemoved port s
  | .rotationEnd ctx => Sys2Proof.Machine.execRotationEnd ctx s
  | .powerLoss => Sys2Proof.Machine.execPowerLoss s
  | .announceAcknowledgement identity => Sys2Proof.Machine.execAnnounceAcknowledgement identity s
  | .acknowledgementTimeout => Sys2Proof.Machine.execAcknowledgementTimeout s

end Sys2Proof.Machine
end

