-- ==== Sys2Proof/Machine/Place.lean ====
section
/-! DEFINITION. A context with one group, its tables and one instruction in memory, so that the next step runs that
instruction: what a host load of a program comes to (R431, R432). The addresses are the model's own. -/

namespace Sys2Proof.Machine

open Sys2Proof

/-- A translation table entry (R28): address, X, W, CLASS 00, LEAF, V. -/
def tableEntry (pa : Nat) (x w leaf : Bool) : Nat :=
  pa + (if x then 32 else 0) + (if w then 16 else 0) + (if leaf then 2 else 0) + 1

/-- The numbers in memory: tables, code page 0x1_0000, RCB page 0x2_0000 and a data page 0x3_0000, and the context RCB
with its budgets and TRAPVEC 1 (R10, R27, R28). Each is an address, a size and a value. -/
def placedNumbers : List (Nat × Nat × Nat) :=
  [(0x10000, 8, tableEntry 0x20000 false false false),
   (0x20000, 8, tableEntry 0x31000 false false false),
   (0x31000, 8, tableEntry 0x32000 false false false),
   (0x32008, 8, tableEntry 0x40000 true false true),
   (0x32010, 8, tableEntry 0x50000 false true true),
   (0x32018, 8, tableEntry 0x60000 false true true),
   (0x50000, 2, 0x0100),
   (0x50020, 2, 0xFFFF), (0x50022, 2, 0xFFFF), (0x50024, 4, 0xFFFFF000), (0x50028, 4, 0xFFFFFFFF),
   (0x5002C, 2, 0xFFFF), (0x5002E, 1, 0xFF),
   (0x50080, 4, 16384), (0x50084, 4, 0x80000000),
   (0x500A0, 8, 1), (0x500A8, 8, 0x10000)]

/-- The group image of the placed group. -/
def placedImage : Image where
  codeBase := 0x10000
  entry := 0
  warps := 1
  barriers := 1
  super := false
  spad := 4096
  copies := 1
  spTable := 0
  spCount := 0
  stackLog := 16
  stackBase := 0

/-- The context of the placed group: cluster 0, the frames its tables name. -/
def placedCtx : Ctx where
  num := 0
  state := .running
  partition := [0]
  prioMax := 15
  group := 0xFF
  device := 0xFF
  key := 0
  root := 0x20000
  xroot := 0x10000
  stopArea := 0
  stopSize := 0
  stopFrames := []
  imageArea := 0
  imageSize := 0
  frames := [(0x10000, 0x60000)]
  vtime := 0
  taken := []
  ordinals := 1
  orders := 1
  images := 1
  handles := []
  tlb := []
  sent := []
  recv := []
  samples := []
  rung := false
  halt := none
  preempting := none
  quanta := []

/-- The placed group, resident on core 0. -/
def placedGroup : Group :=
  { Group.waiting 0 0 placedImage 0 0 0x20000 0 with standing := .resident, vslot := some 0, imageNo := some 0 }

/-- The 12 bytes of an instruction as R32 stores them. -/
def wordBytes (nbits w : Nat) : List Byte := leBytes 12 (w % 2 ^ min nbits 96)

/-- Who fetches the instruction: the Hall its own instructions and whatever does not decode, an access program its own,
and a warp every other one, as an entry that the Hall has written. -/
def placeFor (s : State) (r : Except Reject Instr) : State :=
  match r with
  | .error _ => { s with agenda := [.hall 0] }
  | .ok i =>
    if i.formClass = .ap then
      { (s.modX 0 (fun x =>
          { x with
            programs := [⟨0, .running, false, 0, ⟨Vector.replicate 64 0, 1⟩, 0, 0, 0, 1, 2, none, [], []⟩]
            queues := [⟨0, 0, false, []⟩, ⟨1, 0, true, []⟩] })) with
        agenda := [.ap 0 0] }
    else if i.check false false != none || i.isHall || hallJump i then { s with agenda := [.hall 0] }
    else
      { (s.modGroup 0 (fun gr =>
          { gr with
            queue := [⟨0, i, gr.hall.sc, true, some 1, none, 0⟩]
            hall := { gr.hall with pc := 1, dist := 1 } })) with
        agenda := [.warp 0 0] }

/-- The state with the instruction placed where the next step takes it. -/
def placeWord (s : State) (nbits w : Nat) : State :=
  let bs := wordBytes nbits w
  let nums := placedNumbers.foldl (fun m x => cellsPut m (cellsAt x.1 (leBytes x.2.1 x.2.2))) s.mem
  placeFor
    { s with
      mem := cellsPut nums (cellsAt 0x40000 bs)
      code := []
      issuer := .none
      outbox := []
      ctxs := [placedCtx]
      rcbs := [⟨0, 0x20000, 0x50000⟩]
      groups := [placedGroup]
      nextId := 1 }
    (decodeBytes bs)

end Sys2Proof.Machine
end

