-- ==== Sys2Proof/Machine/Step.lean ====
section
/-! DEFINITION. One step of the machine: the next turn is taken, and the instruction that it comes to is executed. -/

namespace Sys2Proof.Machine

open Sys2Proof

/-- The turn that comes next: the agenda's first, or a free choice where the agenda is empty. -/
def State.nextTurn (s : State) : Turn × State :=
  match s.agenda with
  | t :: rest => (t, { s with agenda := rest, steps := s.steps + 1, issuer := .none })
  | [] => (Config.turnAt s.steps, { s with steps := s.steps + 1, issuer := .none })

/-- A turn's instruction is executed over the memory that the step found, as every effect is: what a step stores leaves
through its outbox. A turn that comes to no instruction leaves what it has done. -/
def runTurn (s : State) (r : State × Option Instr) : Host.Outcome State Fault Refusal :=
  match r with
  | (t, some i) => exec i { t with mem := s.mem }
  | (t, none) => finish s t

/-- A turn of an agent that issues: on a determined core only at its place of the rotation (R293). -/
def issueTurn (s : State) (t : Turn) (g : Nat) (f : State → State × Option Instr) :
    Host.Outcome State Fault Refusal :=
  match s.takePlace t g with
  | (s', true) => runTurn s (f s')
  | (s', false) => finish s s'

/-- One step. -/
def step (s : State) : Host.Outcome State Fault Refusal :=
  match s.nextTurn with
  | (.hall g, s) => issueTurn s (.hall g) g (fun s => s.hallTurn g)
  | (.warp g w, s) => issueTurn s (.warp g w) g (fun s => s.warpTurn g w)
  | (.ap g p, s) => issueTurn s (.ap g p) g (fun s => s.apTurn g p)
  | (.event i, s) => exec i s
  | (.tick n, s) => finish s (s.tick n)
  | (.flaw line kind, s) => finish s (s.flaw line kind)
  | (.outside pa bytes, s) => finish s (s.outside pa bytes)
  | (.arrive ctx inst k, s) => finish s (s.arrive ctx inst k)
  | (.prefetch core pa, s) => finish s (s.prefetch core pa)

/-- The state with an instruction placed where `step` fetches next. -/
def State.withFetchWord (s : State) (nbits w : Nat) : State := placeWord s nbits w

end Sys2Proof.Machine
end

