-- ==== Sys2Proof/Safety.lean ====
section
/-! DEFINITION. What claims say of a run: the invariant of a state that every step keeps, when an instruction issues and
nothing holds it back, and the state that its effect leaves. -/

namespace Sys2Proof.Machine

open Sys2Proof

/-- Memory is in its canonical form, and nothing that a step wrote is still to be stored. -/
def State.Clean (s : State) : Prop := s.mem.wf = true ∧ s.outbox = [] ∧ s.issuer = .none

/-- The step goes on. -/
def State.Goes (s : State) : Prop := ∃ t, step s = .next t

/-! ### An instruction that a warp issues -/

/-- The warp issues `i` with view `v`: its condition guard is true, no operand is still pending, no shared operand is
empty, and no lane of its path has come too far from a safe point (R34, R74, R81, R204, R294). -/
structure Issuing (s : State) (i : Instr) (v : WarpView) : Prop where
  issuer : s.issuer = .warp v.is
  view : s.warpView v.is i.ctl = some v
  guard : condOff v.is i.ctl = false
  ready : v.blocked i = false
  full : v.active = 0 ∨ v.sharedEmpty i = [] ∨ v.w.atom ≠ none
  near : v.tooFar = 0

/-- The registers that the instruction writes can be had: no shared one is full, those it allocates are free and within
the budget, and a release has nothing to wait for (R72 to R74, R125). -/
structure Fitting (v : WarpView) (i : Instr) (ws : List RegWrite) : Prop where
  released : v.releases ws = false
  empty : v.sharedFull i ws = []
  room : v.s.regsFit v.gr (v.needs i ws) = true

/-- The state after an effect of a warp's instruction. -/
def WarpView.after (v : WarpView) (i : Instr) (e : WarpEff) : State := settle v.s (v.commit i e)

/-- Where `P` holds of its view, the instruction has the effect `e` in a warp. -/
def WarpDoes (i : Instr) (P : WarpView → Prop) (e : WarpView → WarpEff) : Prop :=
  ∀ s v, Issuing s i v → P v → Fitting v i ((e v).writes ++ (e v).late) → exec i s = .next (v.after i (e v))

/-- The instruction enters the special-function unit as `op`, which holds its destination back; without an active lane it has no
effect (R204). -/
def Enters (i : Instr) (op : WarpView → SfuOp) : Prop :=
  WarpDoes i (fun v => v.active = 0) (fun v => { st := v.s }) ∧
  WarpDoes i (fun v => v.active ≠ 0) (fun v => { st := { v.s with sfu := v.s.sfu ++ [op v] }, late := (op v).writes })

/-- The state after the path of a warp takes a trap. -/
def WarpView.trapped (v : WarpView) (t : Trap) : State := settle v.s (v.s.takeTrap v.is t false)

/-- Where `P` holds of its view, the instruction takes the trap `t` in a warp. -/
def WarpTraps (i : Instr) (P : WarpView → Prop) (t : WarpView → Trap) : Prop :=
  ∀ s v, Issuing s i v → P v → exec i s = .next (v.trapped (t v))

/-! ### An instruction that a Hall or an access program executes -/

/-- The Hall of a group executes `i` with view `h`: its guard is true, no scalar is still pending, and it has not come too
far from a safe point (R34, R81, R294). -/
structure Hallward (s : State) (i : Instr) (g : Nat) (h : HallView) : Prop where
  issuer : s.issuer = .hall g
  view : s.hallView g = some h
  ready : s.hallPends h.gr i = false
  guard : h.guard i.ctl = true
  near : h.gr.hall.dist < Config.safePointLimit

/-- Where `P` holds of its view, the instruction has the effect `e` in a Hall. -/
def HallDoes (i : Instr) (P : HallView → Prop) (e : HallView → HallEff) : Prop :=
  ∀ s g h, Hallward s i g h → P h → exec i s = .next (settle s (((e h).commit g).holdScalars g i h.prior.isSome))

/-- An access program executes `i` with view `h`, and its guard is true (R323). -/
structure Apward (s : State) (i : Instr) (g p : Nat) (h : HallView) : Prop where
  issuer : s.issuer = .ap g p
  view : s.apView g p = some h
  guard : h.guard i.ctl = true

/-- Where `P` holds of its view, the instruction has the effect `e` in an access program. -/
def ApDoes (i : Instr) (P : HallView → Prop) (e : HallView → HallEff) : Prop :=
  ∀ s g p h, Apward s i g p h → P h → exec i s = .next (settle s (h.commitAp g p (e h)))

/-- Wherever the instruction may issue, it has its effect: `ew` in a warp, `eh` in a Hall and in an access program. -/
def BothDo (i : Instr) (ew : WarpView → WarpEff) (eh : HallView → HallEff) : Prop :=
  WarpDoes i (fun _ => True) ew ∧ HallDoes i (fun _ => True) eh ∧ ApDoes i (fun _ => True) eh

/-- A warp's instruction without conditions of its own. -/
def OnlyWarp (i : Instr) (e : WarpView → WarpEff) : Prop := WarpDoes i (fun _ => True) e

/-- The instruction writes registers and does nothing else: `ws` in a warp, `ss` in a Hall and in an access program. -/
def Gives (i : Instr) (ws : WarpView → List RegWrite) (ss : HallView → List (Nat × DWord)) : Prop :=
  BothDo i (fun v => { st := v.s, writes := ws v }) (fun h => { st := h.s, s := ss h })

/-- The same of an instruction that only a warp executes. -/
def WarpGives (i : Instr) (ws : WarpView → List RegWrite) : Prop := OnlyWarp i (fun v => { st := v.s, writes := ws v })

/-- The instruction writes predicates in a warp, conditions in a Hall and in an access program. -/
def GivesBits (i : Instr) (ps : WarpView → List (Nat × Mask × Mask)) (cs : HallView → List (Nat × Bool)) : Prop :=
  BothDo i (fun v => { st := v.s, preds := ps v }) (fun h => { st := h.s, c := cs h })

/-- An integer instruction whose value is `f` of the values of B, C and the old A (R131). -/
def GivesInt (i : Instr) (m : IntMod) (f : IntFn) (old : Bool) (a b c : Operand) : Prop :=
  Gives i (fun v => v.intWrites m f old a b c) (fun h => sWrite a (h.intValue m f a b c))

/-- An instruction of 32 or 64 bits whose result is `f` of B, C and the old A, read as R142 says. -/
def GivesLogic (i : Instr) (w64 : Bool) (f : DWord → DWord → DWord → DWord) (a b c : Operand) : Prop :=
  Gives i
    (fun v => v.wLong w64 a (fun l => f (v.logicSrc w64 b l) (v.logicSrc w64 c l) (v.logicSrc w64 a l)))
    (fun h => sWrite a (hallWide w64 (f (h.r64 true b) (h.r64 true c) (h.r64 true a))))

/-- A shift or field instruction of 32 or 64 bits: `f` of B, of C's low word and of the old A (R144, R145). -/
def GivesField (i : Instr) (ty : LongTy) (f : DWord → Word → DWord → DWord) (a b c : Operand) : Prop :=
  Gives i
    (fun v => v.wLong ty.w64 a (fun l =>
      f (v.scalarSrc ty.signed ty.w64 b l) (v.r32 ty.signed c l) (v.scalarSrc ty.signed ty.w64 a l)))
    (fun h => sWrite a (extend64 ty.signed (longBits ty.w64) (f (h.r64 ty.signed b) (h.r32 ty.signed c) (h.r64 ty.signed a))))

/-- A floating-point instruction: `r` gives the result and the flags of each lane and element (R183). -/
def GivesFloat (i : Instr) (f : Fmt) (pk : Bool) (a : Operand) (r : WarpView → Nat → Nat → FRes) : Prop :=
  OnlyWarp i (fun v => { st := v.s, writes := v.fdest f pk a (fun l e => (r v l e).bits), flags := [laneFlags pk (r v)] })

/-- A return from a trap handler, which has its own rules for issuing (R230). -/
def isTret : Instr → Bool
  | .tretRetry _ | .tretSkip _ | .tretKillpt _ | .tretKillw _ | .tretFatal _ => true
  | _ => false

/-- Issued with this view, the instruction has the effect `e` in a warp. -/
def InWarp (i : Instr) (s : State) (v : WarpView) (e : WarpEff) : Prop :=
  Issuing s i v → Fitting v i (e.writes ++ e.late) → exec i s = .next (v.after i e)

/-- Executed with this view, the instruction has the effect `e` in a Hall. -/
def InHall (i : Instr) (s : State) (h : HallView) (e : HallEff) : Prop :=
  ∀ g, Hallward s i g h → exec i s = .next (settle s ((e.commit g).holdScalars g i h.prior.isSome))

/-- Executed with this view, the instruction has the effect `e` in an access program. -/
def InAp (i : Instr) (s : State) (h : HallView) (e : HallEff) : Prop :=
  ∀ g p, Apward s i g p h → exec i s = .next (settle s (h.commitAp g p e))

/-- An ATOM of a warp goes on with the lanes `todo` that are left, after those in `before`: with all of them it completes, with some of them
it keeps the others for a later turn (R106, R116). -/
def WarpView.PerformsLanes (v : WarpView) (s s1 : State) (i : Instr) (op : AtomOp) (w64 : Bool) (a : Operand)
    (todo : List (Place × Nat × Nat)) (before : List (Nat × Nat)) : Prop :=
  let now := s1.lanesNow v.gr todo.length
  let r := now.1.rmwAll v.gr v.agent op (atomBytes w64) (todo.take now.2)
  let olds := before ++ r.2
  (todo.length ≤ now.2 → InWarp i s v
    { st := r.1.noteAtom v.gr v.agent todo.isEmpty, writes := v.wLong w64 a (fun l => BitVec.ofNat 64 (laneVal olds l)) }) ∧
  (now.2 < todo.length → Issuing s i v → exec i s = .next (settle s (r.1.modWarp v.is.g v.is.w (fun w =>
    { w with atom := some ⟨v.is.lanes, v.is.pc,
        (todo.drop now.2).map (fun x => ((x.1.lane, x.1.va, x.1.pa, x.1.cls), x.2)), olds⟩ }))))

/-- The whole warp issues from its queue: every live lane is active (R34, R77). -/
def WarpView.Together (v : WarpView) : Prop := v.active ≠ 0 ∧ v.is.queued = true ∧ v.active = v.w.liveMask

/-- Every target can be reached (R157, R158). -/
def WarpView.Reaches (v : WarpView) (target : Nat → Option Word) : Prop := v.targetTrap target = none

/-- MXMOV finds its tile `t`, with nothing to wait for and no fault of this warp on it; the forms that move a whole tile want all
32 lanes (R355, R357, R361). -/
structure WarpView.Moves (v : WarpView) (n : Nat) (whole : Bool) (t : Tile) : Prop where
  some_ : v.active ≠ 0
  all : whole = true → v.active = BitVec.allOnes 32
  tile : (v.s.tile? v.gr n).map v.s.tileNow = some t
  joined : v.s.unjoined v.gr v.is.w n = false
  good : ∀ f, t.fault = some f → f.warp ≠ v.is.w

/-- A range of the scratchpad allocation that is aligned and in bounds (R360, R361, R363). -/
def WarpView.Holds (v : WarpView) (lo len : Nat) : Prop := lo % 64 = 0 ∧ lo + len ≤ v.gr.image.spad

/-- An instruction that goes to a target in the lanes that have one. -/
def LanesGo (i : Instr) (P : WarpView → Prop) (target : WarpView → Nat → Option Word) (ws : WarpView → List RegWrite) : Prop :=
  WarpDoes i (fun v => P v ∧ v.Reaches (target v)) (fun v => v.jump (target v) (ws v))

/-- A uniform branch of a Hall or of an access program. -/
def HallGoes (i : Instr) (P : HallView → Prop) (target : HallView → Word) (ss : HallView → List (Nat × DWord)) : Prop :=
  HallDoes i (fun h => P h ∧ h.s.targetTrap h.gr (target h) = none) (fun h => { st := h.s, s := ss h, pc := some (target h) }) ∧
  ApDoes i (fun h => P h ∧ h.s.targetTrap h.gr (target h) = none) (fun h => { st := h.s, s := ss h, pc := some (target h) })

/-- A step of the machine other than an issue: it leads to `t`, whose stores then reach memory. -/
def Becomes (i : Instr) (s t : State) : Prop := exec i s = .next (settle s t)

/-! ### A request of the host -/

/-- The Cellar's queue without its oldest request. -/
def State.took (s : State) (rest : List (List Byte)) : State := { s with cellar := { s.cellar with taken := rest } }

/-- The oldest request that the Cellar has taken is `r`, a legal record of operation `op` whose last reserved bytes begin at `used`;
before HELLO only HELLO is served (R431, R434). -/
structure Asked (s : State) (op used : Nat) (r : List Byte) (rest : List (List Byte)) : Prop where
  head : s.cellar.taken = r :: rest
  names : reqOp r = op
  hello : s.cellar.hello = true ∨ op = 1
  zero1 : blockZero r 2 4 = true
  zero2 : blockZero r 10 16 = true
  zero3 : blockZero r used 64 = true

/-- The request is carried out with what it leaves, and malformed ones after it are answered. -/
def Serves (i : Instr) (s t : State) : Prop := Becomes i s (t.skipUnknown t.cellar.taken)

/-- A stack-controller command: given by the Cellar of its own accord, or asked for by the host, which is answered with status 0
(R422). -/
def CommandDoes (i : Instr) (P : State → Prop) (f : State → State) : Prop :=
  ∀ s, ((∀ r ∈ s.cellar.taken.head?, reqOp r ≠ 8) → P s → Becomes i s (f s)) ∧
    (∀ r rest, Asked s 8 64 r rest → P (s.took rest) → Serves i s ((f (s.took rest)).answer (reqTag r) 0 0))

/-- CREATE finds a number and memory for the context of record `r`: it is made as number `num`, with its tables for the stop area, in
`u` (R6, R19, R431). -/
def State.Makes (s : State) (r : List Byte) (num : Nat) (u : State) : Prop :=
  ∃ (k : Nat) (s1 t : State) (g : Grant),
    s.draw (s.freeNumbers.length - 1) = (k, s1) ∧ s1.freeNumbers[k]? = some num ∧
    s1.takeMemory ((createBytes r + 65535) / 65536) ((stopSizeOf (createMask r) + 65535) / 65536)
      (Config.imageUnits (createMask r).length) = some (t, g) ∧ u = t.makeCtx r num g

end Sys2Proof.Machine
end

