-- ==== Sys2Proof/Certificates/Slice0/Obligations.lean ====
section
/-! DEFINITION. The statements for the provers, from the numbered rules of the manual. -/

open Sys2Proof Sys2Proof.Machine

/-! ### What each instruction does where nothing holds it back -/

/-- The integer operations give their exact value, fixed to the type (R131, R133 to R135): the quotient truncates toward zero, a
divisor of 0 gives −1 and the dividend, and IMULH gives the high half of the product.
The model's readings that it rests on are log entry 16. -/
def Obligations.IntegerArithmetic : Prop :=
  ∀ (k : Ctl) (m : IntMod) (a b c : Operand),
    GivesInt (.iadd k m a b c) m (fun _ x y _ => x + y) false a b c ∧
    GivesInt (.isub k m a b c) m (fun _ x y _ => x - y) false a b c ∧
    GivesInt (.imul k m a b c) m (fun _ x y _ => x * y) false a b c ∧
    GivesInt (.imulh k m a b c) m (fun n x y _ => (x * y) / (2 ^ n : Int)) false a b c ∧
    GivesInt (.imad k m a b c) m (fun _ x y z => x * y + z) true a b c ∧
    GivesInt (.idiv k m a b c) m (fun _ x y _ => if y = 0 then -1 else x.tdiv y) false a b c ∧
    GivesInt (.irem k m a b c) m (fun _ x y _ => if y = 0 then x else x.tmod y) false a b c ∧
    GivesInt (.imin k m a b c) m (fun _ x y _ => min x y) false a b c ∧
    GivesInt (.imax k m a b c) m (fun _ x y _ => max x y) false a b c ∧
    GivesInt (.iabs k m a b) m (fun _ x _ _ => if x < 0 then -x else x) false a b b ∧
    GivesInt (.ineg k m a b) m (fun _ x _ _ => -x) false a b b

/-- IADDC takes and gives its carry in a predicate or condition, ISAD adds absolute differences to an unsigned accumulator, IDOT4
and ASACC sum four bytes, ICMP gives a bit, ISEL copies one of two sources (R136 to R141).
The model's readings that it rests on are log entries 12, 16 and 74. -/
def Obligations.IntegerCarryAndSums : Prop :=
  ∀ (k : Ctl) (m : IntMod) (ty : LongTy) (w64 neg bs cs sat : Bool) (ix : BitVec 4) (cmp : ICmp) (a b c : Operand),
    BothDo (.iaddc k w64 ix a b c)
      (fun v =>
        let r := fun l => addCarry (longBits w64) (v.scalarSrc false w64 b l) (v.scalarSrc false w64 c l)
          (ix.toNat != 0 && v.w.pred ix.toNat l)
        { st := v.s, writes := v.wLong w64 a (fun l => (r l).1),
          preds := [(ix.toNat, v.active, Mask.of (fun l => v.active.has l && (r l).2))] })
      (fun h =>
        let r := addCarry (longBits w64) (h.r64 false b) (h.r64 false c) (ix.toNat != 0 && h.sc.cond ix.toNat)
        { st := h.s, s := sWrite a r.1, c := [(ix.toNat, r.2)] }) ∧
    Gives (.isad k m a b c)
      (fun v => v.wLong (m.ty.w == .b64) a (fun l =>
        let src := fun o e => if m.pk then v.elem m.ty.signed (widthBits m.ty.w) o l e
          else v.scalarSrc m.ty.signed (m.ty.w == .b64) o l
        sadAcc m (v.scalarSrc false (m.ty.w == .b64) a l) (sadSum m (src b) (src c))))
      (fun h => sWrite a (sadAcc m (h.r64 false a)
        (sadSum m (fun _ => h.r64 m.ty.signed b) (fun _ => h.r64 m.ty.signed c)))) ∧
    WarpGives (.idot4 k bs cs sat a b c) (fun v =>
      v.w32 a (fun l => dot4 bs cs sat (v.r32 true a l) (v.rPacked b l) (v.rPacked c l))) ∧
    WarpGives (.asacc k bs sat a b c) (fun v =>
      v.w32 a (fun l => signAcc bs sat (v.r32 true a l) (v.bytes4 bs b l) (v.bytes4 bs c l))) ∧
    GivesBits (.icmp k cmp ty a b c)
      (fun v => v.setBit a (fun l => intCompare cmp
        (bitsVal ty.signed (longBits ty.w64) (v.scalarSrc ty.signed ty.w64 b l))
        (bitsVal ty.signed (longBits ty.w64) (v.scalarSrc ty.signed ty.w64 c l))))
      (fun h => condWrite a (intCompare cmp (bitsVal ty.signed (longBits ty.w64) (h.r64 ty.signed b))
        (bitsVal ty.signed (longBits ty.w64) (h.r64 ty.signed c)))) ∧
    Gives (.isel k neg ix ty a b c)
      (fun v => v.wLong ty.w64 a (fun l => v.scalarSrc ty.signed ty.w64 (if v.w.pred ix.toNat l != neg then b else c) l))
      (fun h => sWrite a (h.r64 ty.signed (if h.sc.cond ix.toNat != neg then b else c)))

/-- AND, OR and XOR with a second operand that .NC inverts, BITFN by its table, shifts and rotations by C, fields, counts and
the reversal (R142 to R146).
The model's readings that it rests on are log entries 16 and 74. -/
def Obligations.LogicAndShifts : Prop :=
  ∀ (k : Ctl) (nc w64 : Bool) (tbl : BitVec 8) (ty : LongTy) (a b c : Operand),
    GivesLogic (.and k nc w64 a b c) w64 (fun x y _ => x &&& (if nc then ~~~y else y)) a b c ∧
    GivesLogic (.or k nc w64 a b c) w64 (fun x y _ => x ||| (if nc then ~~~y else y)) a b c ∧
    GivesLogic (.xor k nc w64 a b c) w64 (fun x y _ => x ^^^ (if nc then ~~~y else y)) a b c ∧
    GivesLogic (.bitfn k w64 tbl a b c) w64 (tableBits tbl) a b c ∧
    GivesLogic (.brev k w64 a b) w64 (fun x _ _ => reverseBits (longBits w64) x) a b b ∧
    GivesField (.shl k ty a b c) ty (fun x y _ => shiftLeft (longBits ty.w64) x y.toNat) a b c ∧
    GivesField (.shr k ty a b c) ty (fun x y _ => shiftRight ty.signed (longBits ty.w64) x y.toNat) a b c ∧
    GivesField (.rot k ty a b c) ty (fun x y _ => rotateLeft (longBits ty.w64) x y.toNat) a b c ∧
    GivesField (.bfx k ty a b c) ty (fun x y _ => extractField ty.signed (longBits ty.w64) x y) a b c ∧
    GivesField (.bfi k ty a b c) ty (fun x y z => insertField (longBits ty.w64) x z y) a b c ∧
    Gives (.popc k w64 a b) (fun v => v.w32 a (fun l => (bitCount (longBits w64) (v.logicSrc w64 b l)).setWidth 32))
      (fun h => sWrite a (bitCount (longBits w64) (h.r64 true b))) ∧
    Gives (.clz k w64 a b) (fun v => v.w32 a (fun l => (leadingZeros (longBits w64) (v.logicSrc w64 b l)).setWidth 32))
      (fun h => sWrite a (leadingZeros (longBits w64) (h.r64 true b))) ∧
    Gives (.ctz k w64 a b) (fun v => v.w32 a (fun l => (trailingZeros (longBits w64) (v.logicSrc w64 b l)).setWidth 32))
      (fun h => sWrite a (trailingZeros (longBits w64) (h.r64 true b)))

/-- MOV copies, MOVI writes its 32-bit immediate, PERM takes B of the lane that C names, PACK narrows two registers, UNPK3 opens a
code of five weights, ISECT matches two sorted lists of keys (R147 to R152).
The model's readings that it rests on are log entries 13, 14 and 16. -/
def Obligations.MovesAndLanes : Prop :=
  ∀ (k : Ctl) (m : IntMod) (w64 z trap : Bool) (hi : BitVec 12) (a b c : Operand),
    GivesLogic (.mov k w64 a b) w64 (fun x _ _ => x) a b b ∧
    Gives (.movi k hi a b c) (fun v => v.w32 a (fun _ => moviImm hi c))
      (fun h => sWrite a (moviScalar (moviMode b) (moviImm hi c) (h.r64 false a))) ∧
    WarpGives (.perm k z a b c) (fun v => v.w32 a (fun l =>
      let j := (v.r32 false c l).toNat
      if z = true ∧ 32 ≤ j then 0 else v.r32 false b (j % 32))) ∧
    Gives (.pack k m a b c)
      (fun v =>
        let src := fun o l => if m.ty.w = .b16 then v.r32 m.ty.signed o l else v.rPacked o l
        v.w32 a (fun l => packTwo m (src b l) (src c l)))
      (fun h => sWrite a ((packTwo m (h.r32 false b) (h.r32 false c)).setWidth 64)) ∧
    WarpDoes (.unpk3 k trap a b c)
      (fun v => trap = false ∨ ∀ l, l < 32 → v.active.has l = true → (v.r32 false b l).toNat % 256 ≤ 242)
      (fun v =>
        let code := fun l => (v.r32 false b l).toNat % 256
        let bad := Mask.of (fun l => v.active.has l && decide (242 < code l))
        { st := v.s,
          writes := v.w64 a (fun l => if bad.has l then 0 else
            ((t5Weight (code l) 4 ++ t5Weight (code l) 3 ++ t5Weight (code l) 2 ++ t5Weight (code l) 1 ++
              t5Weight (code l) 0 : BitVec 40)).setWidth 64),
          preds := match c with
            | .pred i => [(i.toNat, v.active, bad)]
            | _ => [] }) ∧
    WarpGives (.isect k a b c) (fun v =>
      let kb := fun l => (v.r32 false b l).toNat
      let kc := fun l => (v.r32 false c l).toNat
      let count := fun (f : Nat → Nat) => (laneNumbers.filter (fun l => decide (f l ≤ min (kb 31) (kc 31)))).length
      v.w64 a (fun l => BitVec.ofNat 32 (count kb + count kc * 65536) ++
        ((laneNumbers.find? (fun j => kc j == kb l)).map (BitVec.ofNat 32)).getD 0xFFFFFFFF))

/-- PSET and the PMOV forms give bits; VOTE and VRED give their result to the warp's own destination, and what a group combines to
the Hall, which takes it once every live warp has come past the entry (R66, R153 to R156).
The model's readings that it rests on are log entries 15, 18 and 21. -/
def Obligations.BitsAndReductions : Prop :=
  ∀ (k : Ctl) (op : PsetOp) (nb nc inv neg : Bool) (mode : VoteMode) (vop : VredOp) (ty : LongTy) (a b c : Operand),
    GivesBits (.pset k op nb nc inv a b c)
      (fun v => v.setBit a (fun l => psetOp op (v.bit b l != nb) (v.bit c l != nc) != inv))
      (fun h => condWrite a (psetOp op (h.bit b != nb) (h.bit c != nc) != inv)) ∧
    GivesBits (.pmov k a b) (fun v => v.setBit a (fun l => v.bit b l)) (fun h => condWrite a (h.bit b)) ∧
    Gives (.pmovToreg k a b) (fun v => v.w32 a (fun l => (v.bitSet b l).setWidth 32))
      (fun h => sWrite a ((h.sc.c ||| 1).setWidth 64)) ∧
    GivesBits (.pmovFromreg k a b c)
      (fun v => (maskBits c).map (fun i => (i, v.active, Mask.of (fun l => v.active.has l && (v.r32 false b l).getLsbD i))))
      (fun h => (maskBits c).map (fun i => (i, (h.r64 false b).getLsbD i))) ∧
    (let ones := fun (v : WarpView) => Mask.of (fun l => v.active.has l && (v.bit b l != neg))
     WarpDoes (.vote k mode neg a b) (fun v => groupDest a = true → v.is.queued = true)
      (fun v =>
        let r := voteResult mode v.active.count (ones v).count
        if groupDest a then { st := v.giveVote (fun l => if (ones v).has l then 1 else 0) }
        else match a with
          | .pred _ => { st := v.s, preds := v.setBit a (fun _ => r.getLsbD 0) }
          | _ => { st := v.s, writes := v.w32 a (fun _ => if mode = .ballot then ones v else r.setWidth 32) })) ∧
    WarpDoes (.vred k vop ty a b) (fun v => groupDest a = true → v.is.queued = true)
      (fun v =>
        let x := fun l => v.scalarSrc false ty.w64 b l
        if groupDest a then { st := v.giveVote x }
        else { st := v.s, writes := v.wLong ty.w64 a (fun _ => vredFold vop ty (maskValues v.active x)) }) ∧
    (∀ (s : State) (g : Nat) (gr : Group) (x : Combine),
      s.group? g = some gr → gr.hall.combine = some x → gr.combineDue x = true → gr.liveWarps.isEmpty = false →
      (x.instr = .vote k mode neg a b → exec (.hallCombine g) s = .next (settle s (s.modHall g (fun h =>
        h.takeResult a (voteResult mode (gr.votes x).length ((gr.votes x).filter (· == 1)).length))))) ∧
      (x.instr = .vred k vop ty a b → exec (.hallCombine g) s = .next (settle s (s.modHall g (fun h =>
        h.takeResult a (extend64 ty.signed (longBits ty.w64) (vredFold vop ty (gr.votes x))))))))

/-- Branches, calls and returns go where they say in the lanes that have a target; a uniform BRA, BRX or LOOP moves the Hall
alone; a uniform CALL leaves the warp its link, and a uniform RET asks that every lane agrees (R157 to R165).
The model's readings that it rests on are log entries 15, 18 and 19. -/
def Obligations.BranchesAndCalls : Prop :=
  ∀ (k : Ctl) (l : Bool) (off : BitVec 24) (a b : Operand),
    LanesGo (.bra k l off) (fun _ => True) (fun v _ => some (pcPlus v.is.pc off)) (fun _ => []) ∧
    HallGoes (.bra k l off) (fun _ => True) (fun h => pcPlus h.pc off) (fun _ => []) ∧
    LanesGo (.brx k l b) (fun _ => True) (fun v j => some (v.r32 false b j)) (fun _ => []) ∧
    HallGoes (.brx k l b) (fun _ => True) (fun h => h.r32 false b) (fun _ => []) ∧
    LanesGo (.call k off) (fun v => (v.is.queued && k.guard.uniform) = false) (fun v _ => some (pcPlus v.is.pc off))
      (fun v => v.link) ∧
    WarpDoes (.call k off) (fun v => (v.is.queued && k.guard.uniform) = true) (fun v => { st := v.s, writes := v.link }) ∧
    LanesGo (.callx k b) (fun _ => True) (fun v j => some (v.r32 false b j)) (fun v => v.link) ∧
    LanesGo (.ret k) (fun v => (v.is.queued && k.guard.uniform) = false) (fun v j => some (v.lane linkReg j)) (fun _ => []) ∧
    (∀ x : Word, WarpDoes (.ret k)
      (fun v => (v.is.queued && k.guard.uniform) = true ∧ v.is.link = some x ∧
        ∀ j, j < 32 → v.active.has j = true → v.lane linkReg j = x)
      (fun v => { st := v.s })) ∧
    WarpDoes (.ret k) (fun v => (v.is.queued && k.guard.uniform) = true ∧ v.is.link = none)
      (fun v => { st := v.giveVote (fun j => (v.lane linkReg j).setWidth 64) }) ∧
    LanesGo (.loop k off a) (fun _ => True)
      (fun v j => if 2 ≤ (v.r32 false a j).toNat then some (pcPlus v.is.pc off) else none)
      (fun v => v.w32 a (fun j => if v.r32 false a j = 0 then 0 else v.r32 false a j - 1)) ∧
    HallGoes (.loop k off a) (fun h => 2 ≤ (h.r64 false a).toNat) (fun h => pcPlus h.pc off)
      (fun h => sWrite a (h.r64 false a - 1)) ∧
    HallDoes (.loop k off a) (fun h => (h.r64 false a).toNat ≤ 1)
      (fun h => { st := h.s, s := if h.r64 false a = 0 then [] else sWrite a 0 })

/-- The MEET forms set, save and load the meeting address of the active lanes; REGION_RELEASE lets the threads go on whose MEET every
live thread with it has reached; EXIT ends the active threads, and in an access program the
program where its guard is true (R69, R161, R164).
The model's readings that it rests on are log entries 18 and 24. -/
def Obligations.MeetingAndExit : Prop :=
  (∀ (k : Ctl) (off : BitVec 24) (a b : Operand),
    WarpDoes (.meet k off) (fun v => v.active = 0 ∨ pcPlus v.is.pc off ≠ 0xFFFFFFFF) (fun v => { st := v.setMeet (fun _ => pcPlus v.is.pc off) }) ∧
    WarpDoes (.meetSv k off a) (fun v => v.active = 0 ∨ pcPlus v.is.pc off ≠ 0xFFFFFFFF)
      (fun v => { st := v.setMeet (fun _ => pcPlus v.is.pc off), writes := v.w32 a (fun l => (v.w.threads.get l).meet) }) ∧
    OnlyWarp (.meetLd k b) (fun v => { st := v.setMeet (fun l => v.r32 false b l) }) ∧
    WarpDoes (.exit k) (fun v => v.active ≠ 0) (fun v => { st := v.s.endThreads v.is.g v.is.w v.active })) ∧
  (∀ (s : State) (g w : Nat) (wp : Warp) (t : Thread), s.warp? g w = some wp → wp.releasable = some t →
    exec (.regionRelease g w) s = .next (settle s (s.modWarp g w (fun x => x.release t)))) ∧
  (∀ (s : State) (g p : Nat) (h : HallView) (k : Ctl), Apward s (.exit k) g p h →
    exec (.exit k) s = .next (settle s (s.exitProgram g p))) ∧
  (∀ (s : State) (g p : Nat) (h : HallView) (k : Ctl), s.issuer = .ap g p → s.apView g p = some h → h.guard k = false →
    exec (.exit k) s = .next (settle s (h.commitAp g p { st := s })))

/-- Sums, products, fused multiply-adds, quotients, roots, minima and maxima: the result and the flags of each element are those of
the exact value rounded once in the instruction's mode (R176, R185, R186, R194, R195).
The model's readings that it rests on are log entry 65. -/
def Obligations.FloatArithmetic : Prop :=
  ∀ (k : Ctl) (m : FloatMod) (p q : Bool) (a b c : Operand),
    GivesFloat (.fadd k m a b c) m.fmt m.pk a (fun v l e =>
      addRes m.fmt (v.mode m.rm) (v.fval m.fmt m.pk b l e) (v.fval m.fmt m.pk c l e)) ∧
    GivesFloat (.fsub k m a b c) m.fmt m.pk a (fun v l e =>
      addRes m.fmt (v.mode m.rm) (v.fval m.fmt m.pk b l e) (v.fval m.fmt m.pk c l e).neg) ∧
    GivesFloat (.fmul k m a b c) m.fmt m.pk a (fun v l e =>
      mulRes m.fmt (v.mode m.rm) (v.fval m.fmt m.pk b l e) (v.fval m.fmt m.pk c l e)) ∧
    GivesFloat (.ffma k p q m a b c) m.fmt m.pk a (fun v l e =>
      ffmaRes m.fmt (v.mode m.rm) p q (v.fval m.fmt m.pk b l e) (v.fval m.fmt m.pk c l e) (v.fval m.fmt m.pk a l e)) ∧
    GivesFloat (.fdiv k m a b c) m.fmt m.pk a (fun v l e =>
      divRes m.fmt (v.mode m.rm) (v.fval m.fmt m.pk b l e) (v.fval m.fmt m.pk c l e)) ∧
    GivesFloat (.fsqrt k m a b) m.fmt m.pk a (fun v l e =>
      sqrtRes m.fmt (v.mode m.rm) (v.fval m.fmt m.pk b l e) (v.fbits m.fmt m.pk b l e)) ∧
    GivesFloat (.fminmax k p q m a b c) m.fmt m.pk a (fun v l e =>
      minmaxRes m.fmt p q (v.fbits m.fmt m.pk b l e) (v.fbits m.fmt m.pk c l e)) ∧
    GivesFloat (.fdot2 k m a b c) .f32 false a (fun v l _ =>
      dotRes (v.mode m.rm) [v.fval .f32 false a l 0]
        [(v.fval m.fmt true b l 0, v.fval m.fmt true c l 0), (v.fval m.fmt true b l 1, v.fval m.fmt true c l 1)]) ∧
    OnlyWarp (.fmad2 k p q m a b c) (fun v =>
      let im := fun l (n : Bool) => if n then (v.complex c l).2.neg else (v.complex c l).2
      let re := fun l => dotRes (v.mode m.rm) (if p then [(v.complex a l).1] else [])
        [((v.complex b l).1, (v.complex c l).1), ((v.complex b l).2.neg, im l q)]
      let ie := fun l => dotRes (v.mode m.rm) (if p then [(v.complex a l).2] else [])
        [((v.complex b l).1, im l q), ((v.complex b l).2, (v.complex c l).1)]
      { st := v.s, writes := v.w64 a (fun l => ((ie l).bits.setWidth 32 ++ (re l).bits.setWidth 32 : BitVec 64)),
        flags := [Lanes.of (fun l => (ie l).flags ||| (re l).flags)] })

/-- Signs, comparisons, classes, integral values, conversions and exponents (R187 to R193).
The model's readings that it rests on are log entry 65. -/
def Obligations.FloatSignsAndConversions : Prop :=
  ∀ (k : Ctl) (m : FloatMod) (cv : CvtMod) (ic : IcvtMod) (cmp : FCmp) (x : Bool) (a b c : Operand),
    GivesFloat (.fabs k m a b) m.fmt m.pk a (fun v l e => withSign m.fmt (v.fbits m.fmt m.pk b l e) false) ∧
    GivesFloat (.fneg k m a b) m.fmt m.pk a (fun v l e =>
      withSign m.fmt (v.fbits m.fmt m.pk b l e) (!signBit m.fmt (v.fbits m.fmt m.pk b l e))) ∧
    GivesFloat (.fcopys k m a b c) m.fmt m.pk a (fun v l e =>
      withSign m.fmt (v.fbits m.fmt m.pk b l e) (signBit m.fmt (v.fbits m.fmt m.pk c l e))) ∧
    OnlyWarp (.fcmp k cmp m a b c) (fun v =>
      let r := fun l => cmpRes m.fmt cmp (v.fbits m.fmt false b l 0) (v.fbits m.fmt false c l 0)
      { st := v.s, preds := v.setBit a (fun l => (r l).1), flags := [Lanes.of (fun l => (r l).2)] }) ∧
    OnlyWarp (.fclass k m a b c) (fun v =>
      let cl := fun l => classBits m.fmt (v.fbits m.fmt false b l 0)
      match a, c with
      | .pred _, .imm mask => { st := v.s, preds := v.setBit a (fun l => cl l &&& mask.setWidth 10 != 0) }
      | _, _ => { st := v.s, writes := v.w32 a (fun l => (cl l).setWidth 32) }) ∧
    GivesFloat (.frnd k x m a b) m.fmt m.pk a (fun v l e =>
      frndRes m.fmt x (v.mode m.rm) (v.fval m.fmt m.pk b l e) (v.fbits m.fmt m.pk b l e)) ∧
    GivesFloat (.fcvt k cv a b c) cv.dst cv.pk a (fun v l e =>
      cvtRes cv (v.mode cv.rm) (v.fval cv.src false (if e = 0 then b else c) l 0)) ∧
    OnlyWarp (.icvt k ic a b) (fun v =>
      let f := fun l (_ : Nat) => roundVal ic.fmt (v.mode ic.rm)
        (fvalInt (bitsVal ic.ty.signed (widthBits ic.ty.w) (v.scalarSrc ic.ty.signed (ic.ty.w == .b64) b l)))
      let n := fun l => toIntRes ic.ty (v.mode ic.rm) (v.fval ic.fmt false b l 0)
      if ic.toInt then
        { st := v.s, writes := v.wLong (ic.ty.w == .b64) a (fun l => (n l).bits), flags := [Lanes.of (fun l => (n l).flags)] }
      else { st := v.s, writes := v.fdest ic.fmt false a (fun l e => (f l e).bits), flags := [laneFlags false f] }) ∧
    GivesFloat (.fexpoScale k m a b c) m.fmt false a (fun v l _ =>
      scaleRes m.fmt (v.mode m.rm) (v.fval m.fmt false b l 0) (v.fbits m.fmt false b l 0) (v.r32 true c l).toInt) ∧
    GivesFloat (.fexpoGetexp k m a b) .f32 false a (fun v l _ => getexpRes (v.fval m.fmt false b l 0)) ∧
    GivesFloat (.fexpoGetmant k m a b) m.fmt m.pk a (fun v l e =>
      getmantRes m.fmt (v.fval m.fmt m.pk b l e) (v.fbits m.fmt m.pk b l e))

/-- QUANT gives the code of the nearest entry of a codebook, CBDEC the entry of a code, DEQ a narrow value times its scale; FSTAT
reads, clears and sets the sticky flags of the active lanes (R196 to R199).
The model's readings that it rests on are log entries 15 and 65. -/
def Obligations.CodebooksAndFlags : Prop :=
  ∀ (k : Ctl) (md : CbMode) (src : DeqSrc) (a b c : Operand),
    GivesFloat (.quant k a b c) .f32 false a (fun v l _ =>
      quantRes (fun i => fval .bf16 (v.book c i)) (v.fval .f32 false b l 0) (v.fval .f32 false b l 0).sign) ∧
    WarpGives (.cbdec k md a b c) (fun v =>
      let entry := fun (w : Word) (n : Nat) => bookBits (v.book c ((w >>> (4 * n)).toNat % 16))
      v.w32 a (fun l => match md with
        | .x2 j => packElems 16 (fun e => entry (v.raw false b 0 l) (2 * j.toNat + e))
        | .f32 => ((entry (v.r32 false b l) 0) <<< 16).setWidth 32)) ∧
    GivesFloat (.deq k src a b c) .f32 false a (fun v l _ =>
      deqRes (deqVal src (v.r32 false b l)) (scaleVal ((v.r32 false c l).toNat % 256))) ∧
    WarpGives (.fstatGet k a) (fun v => v.w32 a (fun l => (v.w.threads.get l).flags.setWidth 32)) ∧
    (∀ (op : Bool), OnlyWarp (if op then .fstatSet k b else .fstatClr k b) (fun v =>
      { st := v.s.modWarp v.is.g v.is.w (fun w =>
          { w with threads := Lanes.of (fun l =>
              if v.active.has l then
                { w.threads.get l with flags :=
                    if op then (w.threads.get l).flags ||| (v.r32 false b l).setWidth 5
                    else (w.threads.get l).flags &&& ~~~(v.r32 false b l).setWidth 5 }
              else w.threads.get l) }) }))

/-- FUNC, FUNCA and FUNC2 put their results, their flags and their lanes for phase 2 into the special-function unit, which holds their
destination back, and without an active lane have no effect; phase 1 completes in order and retires an instruction with no lane for
phase 2, which decides the lowest lane left and retires the instruction with its last one; a halted core's work is dropped (R203, R204,
R214 to R216, R218). The lanes that enter phase 2 and the values of FUNCA are the model's free values.
The model's readings that it rests on are log entries 11 and 26. -/
def Obligations.SpecialFunctions : Prop :=
  (∀ (k : Ctl) (rm : Rnd) (f : Fmt) (fn : Fn) (fn2 : Fn2) (a b c : Operand),
    let one := fn2 == .atan2 || fn2 == .hypot
    let other := fun (v : WarpView) l => if one then v.fval f false c l 0 else .fin false 0 0
    let otherBits := fun (v : WarpView) l => if one then v.fbits f false c l 0 else 0
    Enters (.func k rm f fn a b) (fun v =>
      let r := fun l => funcRes fn f (v.mode rm) (v.fval f false b l 0)
      v.sfuOp f false (v.fdest f false a (fun l _ => (r l).bits)) (fun l => (r l).flags)
        (fun l => slowLane (fnCode fn) f (v.mode rm) (v.fbits f false b l 0) 0 [fnVal fn (v.fval f false b l 0)])) ∧
    Enters (.funca k f fn a b) (fun v =>
      let r := fun l => funcaRes fn f (v.fval f false b l 0) (v.fbits f false b l 0)
      v.sfuOp f true (v.fdest f false a (fun l _ => (r l).bits)) (fun l => (r l).flags) (fun _ => false)) ∧
    Enters (.func2 k rm f fn2 a b c) (fun v =>
      let r := fun l => func2Res fn2 f (v.mode rm) (v.fval f false b l 0) (other v l)
      v.sfuOp f false
        (if one then v.fdest f false a (fun l _ => (r l).1.bits)
         else v.twoDest f a (fun l => (r l).1.bits) (fun l => (r l).2.bits))
        (fun l => (r l).1.flags ||| (r l).2.flags)
        (fun l => slowLane (fn2Code fn2) f (v.mode rm) (v.fbits f false b l 0) (otherBits v l)
          (func2Vals fn2 (v.fval f false b l 0) (other v l))))) ∧
  (∀ (s : State) (core i : Nat) (op : SfuOp),
    let mine := s.sfu.filter (fun o => o.core == core && !o.phase2)
    let without : State := { s with sfu := s.sfu.erase op }
    mine[i]? = some op → (∀ o ∈ mine.take i, o.latency ≠ op.latency) →
    (s.sfuHalted op = true → Becomes (.sfuPhase1Complete core i) s without) ∧
    (s.sfuHalted op = false → op.slow = 0 → Becomes (.sfuPhase1Complete core i) s (without.sfuRetire op)) ∧
    (s.sfuHalted op = false → op.slow ≠ 0 →
      Becomes (.sfuPhase1Complete core i) s { s with sfu := s.sfu.erase op ++ [{ op with phase2 := true }] })) ∧
  (∀ (s : State) (core l : Nat) (op : SfuOp),
    s.sfu.find? (fun o => o.core == core && o.phase2) = some op → Mask.lowest op.slow = some l →
    let left := op.slow &&& ~~~(BitVec.twoPow 32 l)
    let without : State := { s with sfu := s.sfu.erase op }
    (s.sfuHalted op = true → Becomes (.sfuPhase2Lane core) s without) ∧
    (s.sfuHalted op = false → left = 0 → Becomes (.sfuPhase2Lane core) s (without.sfuRetire op)) ∧
    (s.sfuHalted op = false → left ≠ 0 →
      Becomes (.sfuPhase2Lane core) s { s with sfu := s.sfu.map (fun o => if o = op then { op with slow := left } else o) }))

/-- LD gives each active lane the extended bytes at its address and ST stores each lane's datum, once every lane passes the checks
of R100 and what the ORDER field asks for has come about; a D2 point stores into its write set (R101, R102, R118, R123).
The model's readings that it rests on are log entries 6, 8, 9, 36, 74 and 75. -/
def Obligations.LoadsAndStores : Prop :=
  ∀ (k : Ctl) (m : MemMod) (off : BitVec 24) (a b : Operand) (s s1 s2 : State) (ps : List Place) (vs : List (Nat × Nat)),
    (∀ v : WarpView, s.checkLanes v.gr (some v.is.w) (widthBytes m.width) .load (v.addrs b (off.signExtend 64)) = (s1, .ok ps) →
      (memSc m = true → s1.fenceReady v.gr v.agent .sc m.scope = true) →
      s1.loadPlaces v.gr v.agent v.w.stores (widthBytes m.width) ps = (s2, some vs) →
      InWarp (.ld k m off a b) s v { st := s2, writes := v.wLoad m.width a vs }) ∧
    (∀ h : HallView, s.checkLanes h.gr none (widthBytes m.width) .load [(0, h.addr b (off.signExtend 64))] = (s1, .ok ps) →
      (memSc m = true → s1.fenceReady h.gr h.agent .sc m.scope = true) →
      s1.agentLoad h.gr h.agent (s1.queueOf h.agent) (widthBytes m.width) ps = (s2, some vs) →
      InHall (.ld k m off a b) s h { st := s2, s := sWrite a (memExt m.width (laneVal vs 0)) } ∧
      InAp (.ld k m off a b) s h { st := s2, s := sWrite a (memExt m.width (laneVal vs 0)) }) ∧
    (∀ v : WarpView, s.checkLanes v.gr (some v.is.w) (widthBytes m.width) .store (v.addrs b (off.signExtend 64)) = (s1, .ok ps) →
      let data := ps.map (fun p => (p, v.datum m.width a p.lane))
      writeSetFull v.gr (widthBytes m.width) data = false →
      (memSc m = true → s1.fenceReady v.gr v.agent .sc m.scope = true) → s1.releaseReady v.gr v.agent m = true →
      InWarp (.st k m off a b) s v { st := s1.issueGlobal v.gr v.agent (widthBytes m.width) data (stRelease m) }) ∧
    (∀ h : HallView, s.checkLanes h.gr none (widthBytes m.width) .store [(0, h.addr b (off.signExtend 64))] = (s1, .ok ps) →
      let data := ps.map (fun p => (p, (h.r64 false a).toNat % 256 ^ widthBytes m.width))
      writeSetFull h.gr (widthBytes m.width) data = false → ((stRelease m).isSome = true → s1.drained h.gr m.scope = true) →
      (memSc m = true → s1.fenceReady h.gr h.agent .sc m.scope = true) → s1.releaseReady h.gr h.agent m = true →
      InHall (.st k m off a b) s h { st := s1.issueGlobal h.gr h.agent (widthBytes m.width) data (stRelease m) })

/-- ATOM performs the lanes' operations in ascending order at their homes, of a warp on a core that is not determined in as many turns as
it takes, and gives each lane the old value once all are performed; RED merges the lanes' data by address first, enters its agent's
queue and gives nothing (R106, R108, R116).
The model's readings that it rests on are log entries 6, 9 and 67. -/
def Obligations.GlobalAtomics : Prop :=
  ∀ (k : Ctl) (op : AtomOp) (m : MemMod) (off : BitVec 20) (a b : Operand) (s s1 : State) (ps : List Place),
    let n := atomBytes (m.width == .w64)
    (∀ v : WarpView, v.atomRun = none →
      s.checkLanes v.gr (some v.is.w) n .atomic (v.addrs b (off.signExtend 64)) = (s1, .ok ps) →
      (v.gr.x.d2 = none ∨ v.active = 0) → s1.rmwReady v.gr v.agent ps (atomRel m) true m.scope = true →
      v.PerformsLanes s s1 (.atom k op m off a b) op (m.width == .w64) a
        (ps.map (fun p => (p, v.atomData op (m.width == .w64) a p.lane))) []) ∧
    (∀ (v : WarpView) (r : AtomRun), v.atomRun = some r →
      let todo := r.rest.map (fun x => (Place.mk x.1.1 x.1.2.1 x.1.2.2.1 x.1.2.2.2, x.2))
      s.rmwReady v.gr v.agent (todo.map (·.1)) false false m.scope = true →
      v.PerformsLanes s s (.atom k op m off a b) op (m.width == .w64) a todo r.olds) ∧
    (∀ h : HallView, s.checkLanes h.gr none n .atomic [(0, h.addr b (off.signExtend 64))] = (s1, .ok ps) →
      h.gr.x.d2 = none → (atomRel m = true → s1.drained h.gr m.scope = true) →
      s1.rmwReady h.gr h.agent ps (atomRel m) true m.scope = true →
      let r := s1.rmwAll h.gr h.agent op n (ps.map (fun p => (p, h.atomData op n a)))
      InHall (.atom k op m off a b) s h
        { st := r.1.noteAtom h.gr h.agent false, s := sWrite a (BitVec.ofNat 64 (laneVal r.2 0)) }) ∧
    (∀ v : WarpView, s.checkLanes v.gr (some v.is.w) n .atomic (v.addrs b (off.signExtend 64)) = (s1, .ok ps) →
      (v.gr.x.d2 = none → s1.releaseReady v.gr v.agent m = true) →
      InWarp (.red k op m off a b) s v
        { st := s1.issueRed v.gr v.agent op n (redMerge op n (ps.map (fun p => (p, v.datum m.width a p.lane)))) (redRelease m) }) ∧
    (∀ h : HallView, s.checkLanes h.gr none n .atomic [(0, h.addr b (off.signExtend 64))] = (s1, .ok ps) →
      (h.gr.x.d2 = none → s1.releaseReady h.gr h.agent m = true) →
      InHall (.red k op m off a b) s h
        { st := s1.issueRed h.gr h.agent op n (ps.map (fun p => (p, (h.r64 false a).toNat % 256 ^ n))) (redRelease m) })

/-- Scratchpad loads, stores and atomics act on the group's allocation where every lane is aligned, inside it and not latched; LDFE
completes once every granule it touches is FULL, and .TAKE leaves them EMPTY; STFE makes them FULL and .CLR EMPTY
(R92, R93, R97, R103 to R105, R107).
The model's readings that it rests on are log entries 10 and 74. -/
def Obligations.ScratchpadAccesses : Prop :=
  ∀ (k : Ctl) (w : MemWidth) (take w64 : Bool) (op : AtomOp) (off : BitVec 24) (off20 : BitVec 20) (a b : Operand) (s : State)
    (vs : List (Nat × Nat)),
    let n := widthBytes w
    (∀ v : WarpView, let xs := v.saddrs b (off.signExtend 32)
      (s.spadTrap v.gr n false xs = none → spadLoads v.gr v.w.stores n xs = some vs →
        InWarp (.lds k w off a b) s v { st := s, writes := v.wLoad w a vs }) ∧
      (s.spadTrap v.gr n true xs = none →
        InWarp (.sts k w off a b) s v { st := s.issueSpad v.gr v.agent (spadData n xs (v.datum w a)) [] [] }) ∧
      (s.spadTrap v.gr n false xs = none → (∀ x ∈ v.w.stores, ∀ g ∈ granules n xs, x.inSpad (16 * g) 16 = false) →
        (∀ g ∈ granules n xs, g ∈ v.gr.x.full) → (take = true → v.gr.olderTakes v.is.w (granules n xs) = false) →
        InWarp (.ldfe k take w off a b) s v
          { st := if take then s.modX v.is.g (fun x => x.spadWrite [] [] (granules n xs)) else s,
            writes := v.wLoad w a (xs.map (fun x => (x.1, leNat (cellBytes v.gr.x.spad x.2 n)))) }) ∧
      (s.spadTrap v.gr n true xs = none → InWarp (.stfe k w off a b) s v
        { st := s.issueSpad v.gr v.agent (spadData n xs (v.datum w a)) (granules n xs) [] }) ∧
      (s.spadTrap v.gr 16 true xs = none → InWarp (.stfeClr k off b) s v
        { st := s.issueSpad v.gr v.agent [] [] (granules 16 xs) })) ∧
    (∀ h : HallView, let xs := [(0, h.saddr b (off.signExtend 32))]
      (s.spadTrap h.gr n false xs = none → spadLoads h.gr h.gr.hall.stores n xs = some vs →
        InHall (.lds k w off a b) s h { st := s, s := sWrite a (memExt w (laneVal vs 0)) }) ∧
      (s.spadTrap h.gr n true xs = none → InHall (.sts k w off a b) s h
        { st := s.issueSpad h.gr h.agent (spadData n xs (fun _ => (h.r64 false a).toNat % 256 ^ n)) [] [] })) ∧
    (∀ v : WarpView, let xs := v.saddrs b (off20.signExtend 32)
      s.spadTrap v.gr (atomBytes w64) true xs = none → v.w.stores = [] →
      let r := spadRmw op (atomBytes w64) v.gr.x.spad (xs.map (fun x => (x.1, x.2, v.atomData op w64 a x.1)))
      InWarp (.atoms k op w64 off20 a b) s v
        { st := s.modX v.is.g (fun e =>
            { e with spad := r.1, dirty := (xs.map (fun x => x.2 / 4096)).foldl natPut e.dirty }),
          writes := v.wLong w64 a (fun l => BitVec.ofNat 64 (laneVal r.2 l)) })

/-- SPLOOK looks the active lanes' keys up in order and gives each the slot of the key or of its victim; SPTAG writes tag words and
SPTAG.DEL clears them (R94, R109, R110).
The model's readings that it rests on are log entries 10 and 75. -/
def Obligations.TagTables : Prop :=
  ∀ (k : Ctl) (a b c : Operand) (s : State) (v : WarpView) (sets base : Nat),
    v.active ≠ 0 → tagTable (v.r64 false c 0) = some (sets, base) → base + 32 * sets ≤ v.gr.image.spad →
    (∀ lo n, s.locked v.gr.ctx (some v.gr.id) v.gr.id lo n true = false) →
    ((∀ x ∈ v.w.stores, x.inSpad base (32 * sets) = false) →
      let r := tagLookups sets base v.gr.x.spad ((Mask.lanes v.active).map (fun l => (l, (v.r64 false b l).toNat % 2 ^ 62)))
      InWarp (.splook k a b c) s v
        { st := if r.2 = [] then s else s.issueStore v.gr v.agent (.refs r.2),
          writes := v.w64 a (fun l => match r.1.find? (fun x => x.1 == l) with
            | some (_, hit, slot) => (BitVec.ofNat 32 slot ++ (if hit then BitVec.ofNat 32 slot else 0xFFFFFFFF) : BitVec 64)
            | none => 0) }) ∧
    (let xs := (Mask.lanes v.active).map (fun l => (l, base + 8 * ((v.r32 false a l).toNat % (4 * sets))))
     InWarp (.sptag k a b c) s v
      { st := s.issueSpad v.gr v.agent (spadData 8 xs (fun l => 2 ^ 63 + 2 ^ 62 + (v.r64 false b l).toNat % 2 ^ 62)) [] [] } ∧
     InWarp (.sptagDel k a c) s v { st := s.issueSpad v.gr v.agent (spadData 8 xs (fun _ => 0)) [] [] })

/-- A fence completes once what it orders has come about, FENCE.H after the drain; WAITMEM once its condition has been true in every
active lane; PREF has no effect; CINV.I empties the instruction caches of its scope, and CINV.L2 takes its place in the store
queue (R111 to R114, R118, R123, R124).
The model's readings that it rests on are log entries 7, 9, 62 and 75. -/
def Obligations.FencesAndCaches : Prop :=
  ∀ (k : Ctl) (kind : FenceKind) (sc : Scope) (cs : CinvScope) (cnd : WaitCond) (w64 : Bool) (off : BitVec 24) (a b : Operand)
    (s s1 : State) (ps : List Place) (ls : List (Nat × Nat)) (now : Mask),
    (∀ v : WarpView, s.fenceReady v.gr v.agent kind sc = true → InWarp (.fence k kind sc) s v { st := s }) ∧
    (∀ h : HallView, s.fenceReady h.gr h.agent kind sc = true → (kind ≠ .acq → s.drained h.gr sc = true) →
      InHall (.fenceH k kind sc) s h { st := s }) ∧
    (∀ v : WarpView, waitEnd v.prior = none →
      s.checkLanes v.gr (some v.is.w) (atomBytes w64) .load (v.addrs b (off.signExtend 64)) = (s1, .ok ps) →
      s1.waitSeen v.gr v.agent v.w.stores cnd (atomBytes w64) ps (fun l => (v.scalarSrc false w64 a l).toNat) = some now →
      (now ||| priorSeen v.prior) &&& v.active = v.active →
      InWarp (.waitmem k cnd sc w64 off a b) s v { st := s1.checkedWait v }) ∧
    (∀ v : WarpView, waitEnd v.prior = some .met → InWarp (.waitmem k cnd sc w64 off a b) s v { st := s }) ∧
    (∀ h : HallView, waitEnd h.prior = some .met → InHall (.waitmem k cnd sc w64 off a b) s h { st := s }) ∧
    (∀ h : HallView, waitEnd h.prior = none →
      s.checkLanes h.gr none (atomBytes w64) .load [(0, h.addr b (off.signExtend 64))] = (s1, .ok ps) →
      s1.waitSeen h.gr h.agent h.gr.hall.stores cnd (atomBytes w64) ps
        (fun _ => (h.r64 false a).toNat % 256 ^ atomBytes w64) = some now →
      (now ||| priorSeen h.prior).has 0 = true → InHall (.waitmem k cnd sc w64 off a b) s h { st := s1 }) ∧
    BothDo (.pref k off b) (fun v => { st := v.s }) (fun h => { st := h.s }) ∧
    (∀ h : HallView, s.drained h.gr .device = true → h.gr.hall.stores = [] → InHall (.cinvI k cs) s h { st := s.dropCode h.gr cs }) ∧
    (∀ v : WarpView, s.translateLanes v.gr (some v.is.w) (v.addrs b (off.signExtend 64)) = (s1, .ok ls) → ls ≠ [] →
      InWarp (.cinvL2 k off b) s v { st := s1.issueStore v.gr v.agent (.cinv (cinvLines ls)) }) ∧
    (∀ h : HallView, s.translateLanes h.gr none [(0, h.addr b (off.signExtend 64))] = (s1, .ok ls) →
      InHall (.cinvL2 k off b) s h { st := s1.issueStore h.gr h.agent (.cinv (cinvLines ls)) })

/-- A LATCH whose registration has been granted takes the lowest free handle of its group, and LATCH.REL releases one; a grant enters
the ranges of a registration that fits; the oldest store of a queue commits, and a committed one that nothing holds back is
performed (R96, R115, R118, R119).
The model's readings that it rests on are log entries 9 and 75. -/
def Obligations.LatchesAndStores : Prop :=
  (∀ (k : Ctl) (dst sp : Bool) (a b c : Operand) (s : State) (h : HallView) (n : Nat) (w : LatchWait),
    let lo := (h.r64 false b).toNat
    let i := if dst then Instr.latchDst k sp a b c else Instr.latchSrc k sp a b c
    freeHandle h.gr.x.latches = some n → latchRefused h.gr sp lo (h.r64 false c).toNat = false →
    s.latchWait h.gr.id = some w → w.granted = true →
    InHall i s h
      { st := State.modX { s with latchWaits := s.latchWaits.filter (fun x => x.g != h.gr.id) } h.gr.id
          (fun x => { x with latches := x.latches ++ [⟨n, lo, sp⟩] }),
        s := sWrite a (BitVec.ofNat 64 n) }) ∧
  (∀ (k : Ctl) (sp : Bool) (b : Operand) (s : State) (h : HallView),
    (∃ l ∈ h.gr.x.latches, l.handle = (h.r64 false b).toNat ∧ l.spad = sp) →
    InHall (.latchRel k sp b) s h
      { st := State.modX (s.latchDrop h.gr.ctx (.manual h.gr.id (h.r64 false b).toNat)) h.gr.id (fun x =>
          { x with latches := x.latches.filter (fun l => l.handle != (h.r64 false b).toNat) }) }) ∧
  (∀ (ctx n : Nat) (s s1 : State) (w : LatchWait),
    (s.latchWaits.filter (fun w => w.ctx == ctx && !w.granted))[n]? = some w → s.latchFits w.ranges = true →
    s.latchAfter w = false → State.traceGrants w.g (w.ranges.filter (fun r => r.spad.isNone)).length s = .go s1 →
    exec (.latchGrant ctx n) s = .next (settle s (s1.grant w))) ∧
  (∀ (g : Agent) (s : State) (gr : Group) (x : Store) (rest : List Store), s.group? (agentGroup g) = some gr →
    s.queueOf g = x :: rest → s.mayCommit gr g x = true →
    exec (.storeCommit g) s = .next (settle s ((s.setQueue g rest).commitStore gr g x))) ∧
  (∀ (core n : Nat) (s : State) (e : Committed), (s.buffer core)[n]? = some e → mayPerform (s.buffer core) n e = true →
    exec (.storePerformed core n) s =
      .next (settle s (State.perform { s with commits := liftVeils [] (performFirst e s.commits) } e)))

/-- NOP has no effect; the collective instructions act where every live lane of the warp comes to them: SHMAP pairs two warps, MARK
arrives, HOLD and GATE go on once the generation differs, SET gives the count; SAFEPT records the safe point and YIELD lets
opportunities pass (R50, R75 to R77, R82 to R85).
The model's readings that it rests on are log entries 12, 20 and 21. -/
def Obligations.ExecutionInstructions : Prop :=
  ∀ (k : Ctl) (gen : Bool) (a b c : Operand),
    BothDo (.nop k) (fun v => { st := v.s }) (fun h => { st := h.s }) ∧
    (∀ f p n : Nat, (opName a).getD 0 = f → immNat b = p → immNat c = n → k.guard.always = true →
      (∀ s1 : State, WarpDoes (.shmap k a b c)
        (fun v => v.Together ∧ v.mapRefused f p n = false ∧ v.gr.mapWait p = some (f, v.is.w, n) ∧
          v.s.regsFit v.gr (v.gr.mapNeeds v.is.w p f n) = true ∧
          v.s.traceWake v.gr p (v.gr.queueIssue p).lanes = .go s1)
        (fun v => { st := s1.modGroup v.is.g (fun gr => gr.mapPair v.is.w p f n) })) ∧
      WarpDoes (.shmapOff k a b c)
        (fun v => v.Together ∧ ∃ r ∈ v.gr.rangesOf v.is.w, r.first = f ∧ r.regs.length = n)
        (fun v => { st := v.s.modGroup v.is.g (fun gr => gr.unmap v.is.w f) })) ∧
    (∀ (n : Nat) (x : Barrier), barNo a = n → x.expected ≠ 0 →
      WarpDoes (.barMark k a)
        (fun v => v.Together ∧ v.gr.barriers[n]? = some x ∧ v.hasArrived x = false ∧ v.settled = true)
        (fun v => { st := v.s.modGroup v.is.g (fun gr => gr.arrive (v.s.determined v.gr) v.is.w n) }) ∧
      WarpDoes (.barHold k gen a b)
        (fun v => v.Together ∧ v.gr.barriers[n]? = some x ∧
          (if gen then x.gen ≠ BitVec.ofNat 16 (v.uniform b 16)
           else ∃ t, v.w.tokens.find? (fun t => t.1 == n) = some t ∧ x.gen ≠ t.2))
        (fun v => { st := v.s }) ∧
      WarpDoes (.barGate k a)
        (fun v => v.Together ∧ v.gr.barriers[n]? = some x ∧ v.w.gated ≠ some n ∧ v.hasArrived x = false ∧ v.settled = true ∧
          x.expected ≤ (x.arrived ||| BitVec.twoPow 32 v.is.w).count ∧ v.s.group? v.is.g = some v.gr)
        (fun v => { st := v.s.modGroup v.is.g (fun gr => gr.arrive (v.s.determined v.gr) v.is.w n) }) ∧
      WarpDoes (.barSet k a b)
        (fun v => v.Together ∧ v.gr.barriers[n]? = some x ∧ x.arrived = 0 ∧ 1 ≤ v.uniform b 6 ∧ v.uniform b 6 ≤ 32)
        (fun v => { st := v.s.modGroup v.is.g (fun gr =>
          { gr with barriers := gr.barriers.set n { x with expected := v.uniform b 6 } }) })) ∧
    (∀ (st : State) (bytes : List Byte), entryOk bytes = true →
      WarpDoes (.safept k c)
        (fun v => v.w.privileged v.is.lanes = false ∧ immNat c < v.gr.image.spCount ∧ v.s.safePoint v.gr (immNat c) = (st, .ok bytes))
        (fun v => { st := v.mark st (immNat c) })) ∧
    WarpDoes (.safeptResume k) (fun v => ∀ l, l < 32 → v.active.has l = true → (v.w.threads.get l).stub = true)
      (fun v =>
        { st := v.s.modWarp v.is.g v.is.w (fun w =>
            w.modThreads v.active (fun t => { t with stub := false, meet := t.stubMeet })),
          jump := some (Lanes.of (fun l => some (v.w.threads.get l).stubPc)) }) ∧
    OnlyWarp (.yieldI k c) (fun v =>
      { st := v.s.modWarp v.is.g v.is.w (fun w => w.modThreads v.active (fun t =>
          { t with notBefore := v.s.timeOf v.gr + immNat c + 1, skip := true })) })

/-- At handler privilege the TRET forms return from the handler: RETRY and SKIP resume the path, KILLPT retires the group's point and begins the group
again, KILLW ends the warp, FATAL raises the halt line; at user privilege each raises PRIVILEGE in the lanes of its path
(R228, R230, R337).
The model's readings that it rests on are log entries 23 and 71. -/
def Obligations.Returns : Prop :=
  ∀ (k : Ctl) (s : State) (is : Issue) (gr : Group) (w : Warp), s.issuer = .warp is → s.group? is.g = some gr →
    gr.warps[is.w]? = some w →
    let calm := fun (t : State) => t.modX is.g (fun x => { x with waitTimer := 0 })
    let privilege := Host.Outcome.next (settle s (s.takeTrap is (.plain .privilege is.lanes) false))
    (w.privileged is.lanes = true →
      exec (.tretRetry k) s = .next (settle s (calm ((s.retryQueue is.g w).trapReturn is.g is.w false))) ∧
      exec (.tretSkip k) s = .next (settle s (calm (s.trapReturn is.g is.w true))) ∧
      exec (.tretKillpt k) s =
        .next (settle s (calm ((s.killHeld is.g w.cause.toNat w.cinfoAddr.toNat).restart is.g))) ∧
      exec (.tretKillw k) s =
        .next (settle s (calm ((s.passFault is.g w).endThreads is.g is.w (BitVec.allOnes 32)))) ∧
      ∃ info : FaultInfo, info.cause = w.cause.toNat ∧ info.pc = w.epc.toNat ∧ info.cinfo = w.cinfoAddr.toNat ∧
        exec (.tretFatal k) s = .next (settle s (calm ((s.modWarp is.g is.w (fun w =>
          { w.leaveHandler with skid := w.skid + 64 })).raiseHalt gr.ctx (.core gr.core) info false)))) ∧
    (w.privileged is.lanes = false → ∀ i ∈ [Instr.tretRetry k, .tretSkip k, .tretKillpt k, .tretKillw k, .tretFatal k],
      exec i s = privilege)

/-- TRAP and BKPT take their trap in the active lanes with the immediate in %cinfo, ILL takes ILLEGAL_INSTR whatever its fields hold;
a Hall's fault is delivered to the lowest-numbered live warp once that has come to it; a watchdog past its limit becomes pending
in every live warp (R46, R231 to R233).
The model's readings that it rests on are log entries 17 and 22. -/
def Obligations.TrapsAndDelivery : Prop :=
  (∀ (k : Ctl) (c : Operand),
    WarpTraps (.trap k c) (fun v => v.active ≠ 0) (fun v => ⟨.softwareTrap, v.active, BitVec.ofNat 64 (immNat c), 0⟩) ∧
    WarpTraps (.bkpt k c) (fun v => v.active ≠ 0) (fun v => ⟨.breakpoint, v.active, BitVec.ofNat 64 (immNat c), 0⟩)) ∧
  (∀ (k : Ctl) (fn : BitVec 12) (a b c : BitVec 22) (s : State) (is : Issue), s.issuer = .warp is →
    exec (.ill k fn a b c) s = .next (settle s (s.takeTrap is (.plain .illegalInstr is.lanes) false))) ∧
  (∀ (g n : Nat) (s : State) (gr : Group) (f : HallFault) (w : Warp), s.group? g = some gr → gr.hall.fault = some f →
    gr.liveWarps.head? = some n → gr.warps[n]? = some w → f.delivered = false → gr.resident = true → s.silent gr = false →
    w.rp = f.position → w.selfFetching = false →
    ∃ is : Issue, is.g = g ∧ is.w = n ∧ is.lanes = w.liveMask ∧ is.pc = f.pc ∧
      exec (.hallFaultDelivery g) s = .next (settle s
        ((s.modHall g (fun h => { h with fault := some { f with delivered := true } })).takeTrap is f.trap true))) ∧
  (∀ (g : Nat) (s : State) (gr : Group), s.group? g = some gr → gr.resident = true →
    s.effWdog gr.ctx gr.home < gr.x.wdog.toNat →
    exec (.watchdogExpiry g) s = .next (settle s (s.modGroup g (fun gr =>
      { gr with warps := gr.warps.map (fun w => if w.isLive then { w with watchdog := true } else w),
                x := { gr.x with wdog := 0 } }))))

/-- RDSR gives a special register and the CLK forms a clock; WRSR writes %fpstat, %sfuslow or %epc of the warp (R181, R210, R234,
R235, R295, R302, R308).
The model's readings that it rests on are log entry 25. -/
def Obligations.SpecialRegisters : Prop :=
  ∀ (k : Ctl) (a b : Operand),
    Gives (.rdsr k a b)
      (fun v => if sprShape b = .w64 then v.w64 a (v.spr (sprNo b)) else v.w32 a (fun l => (v.spr (sprNo b) l).setWidth 32))
      (fun h => sWrite a (h.s.groupSpr h.gr (sprNo b))) ∧
    WarpDoes (.wrsr k a b)
      (fun v => v.active ≠ 0 ∧ sprNo a ∈ [0x010, 0x011, 0x024] ∧
        (sprNo a = 0x010 → rmOk (v.r32 false b ((Mask.lowest v.active).getD 0)) = true))
      (fun v =>
        let first := v.r32 false b ((Mask.lowest v.active).getD 0)
        { st := v.s.modWarp v.is.g v.is.w (fun w =>
            if sprNo a = 0x011 then { w with sfuslow := first }
            else if sprNo a = 0x024 then { w with epc := first }
            else { w with
              rm := BitVec.ofNat 3 (first.toNat / 256)
              threads := Lanes.of (fun l =>
                if v.active.has l then { w.threads.get l with flags := (v.r32 false b l).setWidth 5 }
                else w.threads.get l) }) }) ∧
    Gives (.clk k a)
      (fun v => v.w64 a (fun _ => if v.s.determined v.gr then BitVec.ofNat 64 (v.s.vtimeOf v.gr.ctx) else v.s.cycles))
      (fun h => sWrite a (if h.s.determined h.gr then BitVec.ofNat 64 (h.s.vtimeOf h.gr.ctx) else h.s.cycles)) ∧
    Gives (.clkVt k a) (fun v => v.w64 a (fun _ => BitVec.ofNat 64 (v.s.vtimeOf v.gr.ctx)))
      (fun h => sWrite a (BitVec.ofNat 64 (h.s.vtimeOf h.gr.ctx))) ∧
    WarpGives (.clkRet k a) (fun v => v.w64 a (fun _ => v.w.retired.setWidth 64))

/-- CTXOP.SETF writes a field that it may write and answers 0; REGION makes a region's RCB live and lets its images wait for
cores; TLBINV drops the translations of a range (R29, R250).
The model's readings that it rests on are log entries 30 and 31. -/
def Obligations.ContextOperations : Prop :=
  (∀ (k : Ctl) (field : BitVec 8) (a b c : Operand) (s : State) (h : HallView) (r : Rcb) (f : RcbField),
    let v := (h.r64 false c).toNat
    s.rcb? h.gr.ctx (h.r64 false b).toNat = some r → setfField field.toNat = some f →
    (f = .trapVec → s.rget r .depth = 0) → setfRange f v = true → (s.rset r f (s.setfValue r f v)).setfOk r f (s.rflag r 18) = true →
    InHall (.ctxopSetf k field a b c) s h { st := s.rset r f (s.setfValue r f v), s := sWrite a 0 }) ∧
  (∀ (k : Ctl) (a b c : Operand) (s s1 s2 : State) (h : HallView) (x : Ctx) (rb : List Byte) (l : List Image),
    let va := (h.s64 (sregNo b)).toNat
    let parent := (h.r64 false c).toNat
    s.ctx? h.gr.ctx = some x → s.isRegion h.gr.ctx parent = true → va % 256 = 0 →
    s.readBlock h.gr.ctx va 256 = (s1, .ok rb) → s1.leafRcb h.gr.ctx va 1 parent rb = true →
    s1.readList x h.gr.image.super (h.s64 (sregNo b + 1)).toNat = (s2, .good l) →
    s2.latchFits [rcbLatch h.gr.ctx va] = true →
    InHall (.ctxopRegion k a b c) s h { st := h.makeRegion s2 va parent l, s := sWrite a 0 }) ∧
  (∀ (k : Ctl) (b c : Operand) (s s1 : State),
    (∀ v : WarpView, (∀ l, l < 32 → v.active.has l = true → rangeBad (v.addr b 0 l) (v.length c l) = false) →
      s.tlbDrop v.gr.ctx ((Mask.lanes v.active).map (fun l => (v.addr b 0 l, v.length c l))) = some s1 →
      InWarp (.ctxopTlbinv k b c) s v { st := s1 }) ∧
    (∀ h : HallView, rangeBad (h.r64 false b).toNat (h.r64 false c).toNat = false →
      s.tlbDrop h.gr.ctx [((h.r64 false b).toNat, (h.r64 false c).toNat)] = some s1 →
      InHall (.ctxopTlbinv k b c) s h { st := s1 }))

/-- DETSET closes the group's trace and sets its level once its leaves are done and its accesses drained; with a header it opens the
trace, recording from entry 0 or replaying from entry 0, and latches its ranges (R296, R307).
The model's readings that it rests on are log entries 27 and 28. -/
def Obligations.DeterminismLevels : Prop :=
  ∀ (k : Ctl) (d2 : Bool) (a b : Operand) (s : State) (h : HallView),
    s.drained h.gr .device = true → h.gr.hall.stores = [] → s.boundDone h.gr = true →
    let s0 := s.closeTrace h.gr
    let level := if d2 then 2 else 1
    let hdr := (h.r64 false b).toNat
    InHall (.detsetD0 k a) s h { st := s0.modX h.gr.id (fun x => x.setLevel 0 none), s := sWrite a 0 } ∧
    (hdr = 0 →
      InHall (.detsetRec k d2 a b) s h { st := s0.modX h.gr.id (fun x => x.setLevel level none), s := sWrite a 0 } ∧
      InHall (.detsetPlay k d2 a b) s h { st := s0.modX h.gr.id (fun x => x.setLevel level none), s := sWrite a 0 }) ∧
    (∀ (s1 : State) (bytes : List Byte), hdr ≠ 0 → hdr % 64 = 0 → h.readHeader s0 hdr = (s1, .ok (some bytes)) →
      traceOk bytes = true → s1.latchFits (traceLatches h.gr.ctx h.gr.id hdr bytes) = true →
      let s2 := s1.enter (traceLatches h.gr.ctx h.gr.id hdr bytes)
      InHall (.detsetRec k d2 a b) s h
        { st := ((s2.traceSet h.gr.ctx hdr traceState 1).traceSet h.gr.ctx hdr traceCount 0).modX h.gr.id
            (fun x => x.setLevel level (some ⟨hdr, false, []⟩)),
          s := sWrite a 0 } ∧
      (blockN bytes 2 1 = 2 →
        InHall (.detsetPlay k d2 a b) s h
          { st := ((s2.traceSet h.gr.ctx hdr traceState 3).traceSet h.gr.ctx hdr traceCursor 0).modX h.gr.id
              (fun x => x.setLevel level (some ⟨hdr, true, []⟩)),
            s := sWrite a 0 }))

/-- NBIND binds a nest whose descriptor, table and RCB pass: the first landing charge and the latches granted, its handle goes to
s4k (R252 to R255, R265, R275). ROW_OPEN opens the nest's next row and releases its ready points; SCHEDULE_START releases the
tasks without a predecessor (R257, R270).
The model's readings that it rests on are log entries 31, 32 and 33. -/
def Obligations.NestsBegin : Prop :=
  (∀ (k : Ctl) (a b c : Operand) (s s1 s2 s3 s4 : State) (h : HallView) (x y : Ctx) (r : Rcb) (bytes rb : List Byte)
      (tb : List Nat × Nat × Nat × Nat) (handle : Nat),
    let ctx := h.gr.ctx
    let va := (h.s64 (sregNo b)).toNat
    let rcb := (h.s64 (sregNo b + 1)).toNat
    let region := blockN bytes 8 8
    let parent := h.leafParent c region
    let d := descOf va bytes tb.1 tb.2.1 tb.2.2.1 tb.2.2.2
    let latches := nestLatches ctx handle rcb d
    s.drained h.gr .device = true → h.gr.hall.stores = [] → va % 256 = 0 →
    s.readBlock ctx va 256 = (s1, .ok bytes) → s1.readBlock ctx rcb 256 = (s2, .ok rb) →
    s2.ctx? ctx = some x → s2.pageClass x va = some 0 → s2.rcb? ctx region = some r → s2.rget r .kind ≤ 1 →
    descFails bytes true = none → s2.readTable ctx bytes = (s3, .ok tb) → s3.leafRcb ctx rcb 2 parent rb = true →
    s3.ctx? ctx = some y → s3.drawHandle y = (s4, some handle) → s4.workOverlaps ctx d = false →
    (s4.nests.filter (fun n => n.die == dieOf h.gr.core && s4.holdsWork n.ctx)).length < 1024 →
    (s4.askLand h.gr parent d.charge (leafAllows rb d.charge)).2 = true → s4.latchFits latches = true →
    InHall (.nbind k a b c) s h
      (let t := s4.modX h.gr.id (fun x => { x with landAsk := none })
       let t := t.makeRcb ctx rcb (t.rcbAt ctx rcb).pa parent true
       let t := ({ t with nests := t.nests ++ [Nest.fresh h.gr handle rcb d bytes] }).enter (latches.drop 1)
       let t := t.modCtx ctx (fun c => { c with handles := c.handles ++ [⟨handle, rcb, true⟩] })
       { st := (t.modX h.gr.id (fun x => x.countBind rcb)).settleTree ctx [], s := sWrite a (BitVec.ofNat 64 handle) })) ∧
  (∀ (ctx handle : Nat) (s : State) (n : Nest), s.nest? ctx handle = some n → s.rowMayOpen n = true →
    s.landFirst ctx (s.nestAsk n) = true → n.rowFault n.next = none →
    Becomes (.rowOpen ctx handle) s
      (((s.modNest ctx handle (fun m =>
        { m with
          opened := true
          asks := none
          nextRow := n.next + 1
          oldest := if m.rows.isEmpty then n.next else m.oldest
          rows := m.rows ++ [⟨n.next, m.rowCount n.next, 0, 0, 0⟩] })).advanceNest ctx handle).settleTree ctx [])) ∧
  (∀ (ctx handle : Nat) (s t : State) (n : Nest), s.nest? ctx handle = some n → n.desc.kind = 2 → n.started = false →
    s.engineRuns ctx (.stair n.die) = true →
    (s.modNest ctx handle (fun n => { n with started := true })).copyPreds n n.desc.tasks 0 = (t, true) →
    Becomes (.scheduleStart ctx handle) s
      (((List.range n.desc.tasks).foldl
        (fun s t => if s.imageWord n (n.desc.work + 4 * t) = some 0 then s.releaseTask n t else s) t).settleTree ctx []))

/-- NPOP takes the entry that the Stair offers, or with .TRY four zeros where there is none; NDONE gives the point back as done, failed
or killed once the group is drained and its number lies in the window (R261, R263, R273, R276, R277).
The model's readings that it rests on are log entry 33. -/
def Obligations.NestEntries : Prop :=
  (∀ (k : Ctl) (try_ : Bool) (a : Operand) (s s1 : State) (h : HallView), h.gr.x.held = none →
    (∀ n, s.offerTo h.gr = .found n →
      InHall (.npop k try_ a) s h { st := (s.handOver h.gr n).1, s := entryWrites a (s.handOver h.gr n).2 }) ∧
    (s.offerTo h.gr = .none ∨ s.offerTo h.gr = .later → s.traceTry h.gr = .go s1 →
      InHall (.npop k true a) s h { st := s1, s := entryWrites a [] })) ∧
  (∀ (k : Ctl) (a b c : Operand) (s : State) (h : HallView) (n : Nest) (p : Handed),
    let x := (h.r64 false a).toNat
    s.heldPoint h.gr = some (n, p) → x % 65536 = n.handle → x / 2 ^ 32 = p.serial % 2 ^ 32 →
    s.drained h.gr .device = true → h.gr.hall.stores = [] →
    n.beyond p = false →
    let sent := s.message n.ctx (dieOf h.gr.core) n.die
    let clear := fun (s : State) => s.dropHeld h.gr.id
    let fails := fun (s : State) (how : Retired) => clear (s.retirePoint n p how (h.failCause b) (h.failAddr c))
    (h.gr.x.d2 = none →
      InHall (.ndoneOk k a) s h { st := clear (sent.retirePoint n p .ok 0 0) } ∧
      InHall (.ndoneFail k a b c) s h { st := fails sent .failed } ∧
      InHall (.ndoneKill k a b c) s h { st := fails sent .killed }) ∧
    (∀ d, h.gr.x.d2 = some d → (∀ x ∈ n.handed, p.serial ≤ x.serial ∨ x.late = true) →
      s.conflict n.ctx d (epochGet n.epochBytes (n.epoch p)) = none →
      let s' := (sent.merge d).modNest n.ctx n.handle (fun m =>
        { m with epochBytes := epochPut m.epochBytes (n.epoch p) (d.writes.map (·.1)) })
      InHall (.ndoneOk k a) s h { st := clear (s'.retirePoint n p .ok 0 0) } ∧
      InHall (.ndoneFail k a b c) s h { st := fails s' .failed } ∧
      InHall (.ndoneKill k a b c) s h { st := fails s' .killed }))

/-- NXBND gives the Stair's answer to its rewrite, which BOUND_REWRITE has applied: 0 for a change that comes in time (R267, R278).
NJOIN gives the status word of an RCB that is done, or with .TRY the present one (R17, R279).
The model's readings that it rests on are log entry 33. -/
def Obligations.BoundsAndJoins : Prop :=
  (∀ (k : Ctl) (hi : Bool) (d : BitVec 2) (a b c : Operand) (s : State) (h : HallView) (w : Rewrite) (st : Nat),
    s.rewrites.find? (fun w => w.g == h.gr.id) = some w → w.answer = some st →
    InHall (.nxbnd k hi d a b c) s h
      { st := { s with rewrites := s.rewrites.filter (fun x => x.g != h.gr.id) }, s := sWrite a (BitVec.ofNat 64 st) }) ∧
  (∀ (die i : Nat) (s : State) (w : Rewrite) (n : Nest) (gr : Group),
    (s.rewrites.filter (fun w => w.die == die && w.answer.isNone))[i]? = some w → s.engineRuns w.ctx (.stair die) = true →
    s.nest? w.ctx w.handle = some n → s.group? w.g = some gr → s.rewriteInTurn n gr = true → n.level = 0 →
    let st := s.rewriteStatus n w.hi w.dim w.value
    let s1 := s.modNest w.ctx w.handle (fun n => { n with rewrote := some (s.cycles.toNat, gr.core, gr.slot) })
    (st = 0 → Becomes (.boundRewrite die i) s
      ((((s1.modNest w.ctx w.handle (fun n => n.setCell (2 * w.dim + (if w.hi then 1 else 0)) w.value)).advanceNest
        w.ctx w.handle).settleTree w.ctx []).answerRewrite w 0)) ∧
    (st ≠ 0 → Becomes (.boundRewrite die i) s (s1.answerRewrite w st))) ∧
  (∀ (k : Ctl) (q try_ : Bool) (a b : Operand) (s s1 : State) (h : HallView) (bytes : List Byte),
    let va := (h.r64 false b).toNat
    let r := s1.rcbAt h.gr.ctx va
    let quiet := q && h.prior == some (.quiesced va)
    s.readBlock h.gr.ctx va 256 = (s1, .ok bytes) → joinable va bytes = true →
    (h.prior = none → ∀ f ∈ h.gr.x.joinFaults, f.meets va = false) →
    (s1.rdone r = true →
      InHall (.njoin k q try_ a b) s h
        { st := s1.modCtx h.gr.ctx (fun c => { c with handles := c.handles.filter (fun x => x.rcb != va) }),
          s := sWrite a (BitVec.ofNat 64 (s1.statusWord r quiet (s1.frozen h.gr.ctx))) }) ∧
    (s1.rdone r = false → try_ = true ∨ quiet = true →
      InHall (.njoin k q try_ a b) s h
        { st := s1, s := sWrite a (BitVec.ofNat 64 (s1.statusWord r quiet (s1.frozen h.gr.ctx))) }))

/-- HBIND binds a pipeline whose record, stages and RCB pass: it shares the prefix that R394 and R396 allow, places one instance for each
element left, and its handle goes to s4k (R388 to R396, R405). DRAIN and CUT unbind one that is bound (R399, R405).
The model's readings that it rests on are log entries 31, 34 and 35. -/
def Obligations.PipelineBinding : Prop :=
  (∀ (k : Ctl) (j : HJoin) (lag : Bool) (a b : Operand) (s s1 s2 s3 s4 : State) (h : HallView) (bytes rb : List Byte)
      (blocks : List (List Byte)) (y : Ctx) (l : Nat) (shared : List Nat) (handle : Nat) (new : List Nat),
    let ctx := h.gr.ctx
    let record := (h.s64 (sregNo b)).toNat
    let rcb := (h.s64 (sregNo b + 1)).toNat
    let named := (h.s64 (sregNo b + 2)).toNat
    let n := (h.s64 (sregNo b + 3)).toNat
    let parent := if named = 0 then blockN bytes 96 8 else named
    let level := boundLevel (blockN bytes 6 1) h.gr
    let roles := sourceRole bytes :: (List.range (blockN bytes 2 1)).map (fun k => stageRole bytes k (blocks.getD k []))
    let last := (shared.getLast?).bind (fun x => s3.inst? ctx x)
    let plan : HPlan := ⟨record, rcb, parent, rb, bytes, roles, shared, level, lag, (last.map (fun y => firstCursor j y n)).getD 0⟩
    let added := roles.length - shared.length
    s.drained h.gr .device = true → h.gr.hall.stores = [] → h.bindInTurn = true → record % 64 = 0 →
    s.readBlock ctx record 576 = (s1, .ok bytes) → s1.readParams ctx bytes (min 8 (blockN bytes 2 1)) = (s2, .ok blocks) →
    s2.readBlock ctx rcb 256 = (s3, .ok rb) → s3.leafRcb ctx rcb 3 parent rb = true →
    s3.ctx? ctx = some y → s3.freeHandles y ≠ [] → s3.allCached y record 576 = true → s3.pipeFails ctx bytes blocks = none →
    s3.attach ctx level (j == .start) roles = (l, shared) →
    (j = .retain → n ≠ 0) →
    (∀ y, last = some y → (l < roles.length ∨ blockN bytes 40 8 ≠ 0 → y.consumers.length < 16) ∧ (j = .retain → n ≤ y.window)) →
    s3.drawHandles y (added + 1) = (s4, handle :: new) → new.length = added →
    (s4.insts.filter (fun x => x.die == dieOf h.gr.core && x.region.isSome && s4.holdsWork x.ctx)).length +
      (if shared.isEmpty then added - 1 else added) ≤ 1024 →
    (s4.pipes.filter (fun q => q.die == dieOf h.gr.core && s4.holdsWork q.ctx)).length < 512 →
    (s4.askLand h.gr parent added (leafAllows rb added)).2 = true → s4.latchFits (plan.latches ctx handle new) = true →
    InHall (.hbind k j lag a b) s h
      { st := h.bindPipe (s4.modX h.gr.id (fun x => { x with landAsk := none })) plan handle new, s := sWrite a (BitVec.ofNat 64 handle) }) ∧
  (∀ (k : Ctl) (a b : Operand) (s : State) (h : HallView) (p : Pipe),
    s.drained h.gr .device = true → h.gr.hall.stores = [] →
    s.pipe? h.gr.ctx ((h.r64 false b).toNat % 65536) = some p → p.status = 1 ∨ p.status = 6 →
    InHall (.hbindDrain k a b) s h { st := s.drain p, s := sWrite a 0 } ∧
    InHall (.hbindCut k a b) s h { st := s.cutPipe p, s := sWrite a 0 })

/-- HRECV takes the item that a Hinge offers, with its stage's parameter; HSEND appends the output of the item held and retires it, once
the ring has room (R395, R398, R406, R407). A source appends its next item or its end of stream, and a sink writes an item to its
external queue (R391, R400).
The model's readings that it rests on are log entry 34. -/
def Obligations.PipelineItems : Prop :=
  (∀ (k : Ctl) (try_ : Bool) (a b : Operand) (s s1 : State) (h : HallView), h.gr.x.held = none →
    (∀ x, s.recvOffer h.gr = .found x → s.entryFault x = (s1, none) →
      InHall (.hrecv k try_ a b) s h
        { st := (s1.handItem h.gr x).1,
          s := entryWrites a (s1.handItem h.gr x).2 ++ sWrite b (BitVec.ofNat 64 x.param) }) ∧
    (s.recvOffer h.gr = .none ∨ s.recvOffer h.gr = .later → s.traceTry h.gr = .go s1 →
      InHall (.hrecv k true a b) s h { st := s1, s := entryWrites a [] })) ∧
  (∀ (k : Ctl) (a b c : Operand) (s : State) (h : HallView) (x : HInst) (g : HGiven),
    let w := (h.s64 (sregNo a)).toNat
    let roomFor := fun (n : Nat) => x.cut = true ∨ x.stopped = true ∨ x.room n = true
    let ends := if g.eos then 1 else 0
    s.heldItem h.gr = some (x, g) → w % 65536 = x.handle → w / 2 ^ 32 = g.serial % 2 ^ 32 →
    s.drained h.gr .device = true → h.gr.hall.stores = [] →
    (roomFor 1 → InHall (.hsendMore k a) s h { st := h.sendItem s x g a true false .ok 0 0 }) ∧
    (∀ s1 : State,
      (h.gr.x.d2 = none ∧ s1 = s) ∨
        (∃ d, h.gr.x.d2 = some d ∧ (∀ z ∈ x.given, g.serial ≤ z.serial) ∧
          s.conflict x.ctx d (epochGet x.epochBytes (g.serial / 64 : Nat)) = none ∧
          s1 = (s.merge d).modInst x.ctx x.handle (fun y =>
            { y with epochBytes := epochPut y.epochBytes (g.serial / 64 : Nat) (d.writes.map (·.1)) })) →
      (roomFor (1 + ends) → InHall (.hsendOk k a) s h { st := h.sendItem s1 x g a true true .ok 0 0 }) ∧
      (roomFor ends →
        InHall (.hsendNone k a) s h { st := h.sendItem s1 x g a false true .ok 0 0 } ∧
        InHall (.hsendFail k a b c) s h { st := h.sendItem s1 x g a false true .failed (h.failCause b) (h.failAddr c) } ∧
        InHall (.hsendKill k a b c) s h { st := h.sendItem s1 x g a false true .killed (h.failCause b) (h.failAddr c) }))) ∧
  (∀ (i : Nat) (s s1 s2 s3 : State) (x : HInst) (kind base count stride : Nat) (bytes q : List Byte),
    s.insts[i]? = some x → x.role = .source kind base count stride → x.stopped = false → x.sent = false → x.cut = false →
    x.room 1 = true → s.engineRuns x.ctx (.hinge x.die) = true →
    let from_ := (base + x.next * stride) % 2 ^ 64
    let slot := base + 64 + 32 * (x.next % blockN q 16 8)
    (kind = 0 → count ≤ x.next → Becomes (.endOfStream i) s ((s.append x 3 [0, 0, 0]).settleTree x.ctx [])) ∧
    (kind = 0 → x.next < count → s.hingeRead x.ctx x.die from_ 16 = (s1, .ok bytes) →
      Becomes (.sourceEmit i) s
        ((s1.append x 2 (dwordsOf bytes ++ [BitVec.ofNat 64 from_])).settleTree x.ctx [])) ∧
    (kind ≠ 0 → s.queueRead x.ctx x.die base 24 = (s1, .ok q) → x.next < blockN q 0 8 → blockN q 16 8 ≠ 0 →
      s1.queueRead x.ctx x.die slot 32 = (s2, .ok bytes) →
      let t := s2.append x (if blockN bytes 2 1 = 3 then 3 else 2) (dwordsOf (bytes.drop 8))
      (t.inst? x.ctx x.handle).any HInst.stopped = false →
      t.queueWrite x.ctx (base + 8) (leBytes 8 (x.next + 1)) = (s3, none) →
      Becomes (.sourceEmit i) s (s3.settleTree x.ctx []))) ∧
  (∀ (ctx handle kind serial : Nat) (s s1 s2 s3 s4 : State) (p : Pipe) (y : HInst) (c : Consumer) (ws : List DWord)
      (q : List Byte),
    let sinks := fun (c : Consumer) => c.stage.isNone && c.pipe == p.handle
    let record := BitVec.ofNat 64 (p.handle + kind * 2 ^ 16 + serial % 2 ^ 32 * 2 ^ 32) :: ws
    s.pipe? ctx handle = some p →
    s.insts.findSome? (fun y => if y.ctx == ctx then
      (y.consumers.find? (fun c => c.stage.isNone && c.pipe == handle)).map (fun c => (y, c)) else none) = some (y, c) →
    s.nextItem y c = some (kind, serial, ws) → c.failed = false → s.engineRuns ctx (.hinge p.die) = true →
    s.slotFault y c y.die = (s1, none) → s1.queueRead p.ctx p.die p.sink 24 = (s2, .ok q) →
    blockN q 0 8 - blockN q 8 8 < blockN q 16 8 →
    s2.queueWrite p.ctx (p.sink + 64 + 32 * (blockN q 0 8 % blockN q 16 8)) (record.flatMap (fun w => leBytes 8 w.toNat)) =
      (s3, none) →
    s3.queueWrite p.ctx p.sink (leBytes 8 (blockN q 0 8 + 1)) = (s4, none) →
    Becomes (.sinkWrite ctx handle) s
      ((s4.modConsumer y sinks (fun c => { c with cursor := c.cursor + 1, eos := c.eos || kind == 3 })).settleTree p.ctx []))

/-- APRUN maps free queues to a program and starts it; in the program AQLD loads 32 words for a queue, AQLD.SP for the scratchpad, and they
arrive at AQLD_COMPLETE; AQST stores the entry at a queue's head, AQSYN takes a token (R321, R329 to R332).
The model's readings that it rests on are log entry 36. -/
def Obligations.AccessPrograms : Prop :=
  (∀ (k : Ctl) (a b c : Operand) (s s1 : State) (h : HallView),
    let lm := (h.r64 false c).toNat % 256
    let sm := (h.r64 false c).toNat / 256 % 256
    let names := maskNames (lm ||| sm)
    let ask := h.gr.x.asks.getD ⟨s.cycles.toNat, []⟩
    (h.r64 false c).toNat < 65536 → s.drained h.gr .device = true → h.gr.hall.stores = [] → names ≠ [] → lm &&& sm = 0 →
    (∀ n ∈ names, h.gr.queue? n = none) →
    State.mapNames h.gr.id (names.filter (fun n => !ask.got.contains n)) ask s = (s1, true) →
    InHall (.aprun k a b c) s h
      { st := ({ s1 with nextId := s1.nextId + 1 }).modX h.gr.id (fun x =>
          x.startProgram s1.nextId (h.r32 false b) (h.s64 (sregNo b + 1)) lm sm),
        s := sWrite a 0 }) ∧
  (∀ (k : Ctl) (str : Bool) (off : BitVec 24) (a b : Operand) (s s1 s2 : State) (h : HallView) (p : ApProgram)
      (q : ApQueue) (slots : List QueueSlot) (ps : List Place),
    let all := h.qaddrs str off b (BitVec.allOnes 32)
    let there := (h.r64 false a).toNat % 2 ^ 21
    h.program = some p → s.apFlying h.gr.core < 64 → s.checkLanes h.gr none 4 .load all = (s1, .ok ps) →
    (h.gr.mapped (queueNo a) false = some q → reserve q (h.gr.flightsOf (queueNo a)) .pending = some slots →
      (s1.modQueue h.gr.id (queueNo a) (fun k => { k with slots := slots })).launch h.gr p (some (queueNo a)) 0 ps = some s2 →
      InAp (.aqld k str off a b) s h { st := s2 }) ∧
    (s.spTrap h.gr there = none → s1.launch h.gr p none there ps = some s2 →
      InAp (.aqldSp k str off a b) s h { st := s2 })) ∧
  (∀ (k : Ctl) (str : Bool) (off : BitVec 24) (a b : Operand) (s s1 : State) (h : HallView) (p : ApProgram) (q : ApQueue)
      (e : QueueSlot) (rest : List QueueSlot) (ps : List Place),
    h.program = some p → h.gr.mapped (queueNo a) true = some q → q.slots = e :: rest → s.apFlying h.gr.core < 64 →
    s.checkLanes h.gr none 4 .store (h.qaddrs str off b e.mask) = (s1, .ok ps) → h.gr.x.d2 = none →
    (∀ f ∈ p.flights, f.words = none → ∀ x ∈ f.places, ∀ y ∈ ps, x.1 + 4 ≤ y.pa ∨ y.pa + 4 ≤ x.1) →
    InAp (.aqst k str off a b) s h
      { st := (s1.modQueue h.gr.id (queueNo a) (fun k => { k with slots := rest })).issueGlobal h.gr h.agent 4
          (ps.map (fun y => (y, (e.words.get y.lane).toNat))) none }) ∧
  (∀ (k : Ctl) (sc : Scope) (s : State) (h : HallView) (p : ApProgram),
    let now := p.counted (s.coreDetermined h.gr.core) (s.vtimeOf h.gr.ctx)
    h.program = some p → now.tokens ≠ 0 →
    InAp (.aqsyn k sc) s h
      { st := s.modProgram h.gr.id p.id (fun q => { q with tokens := now.tokens - 1, late := now.late }) }) ∧
  (∀ (g i : Nat) (s s1 : State) (gr : Group) (p : ApProgram) (f : Flight) (ws : Lanes Word),
    let all := gr.x.programs.flatMap (fun p => p.flights.map (fun f => (p, f)))
    s.group? g = some gr → all[i]? = some (p, f) →
    (f.queue = none ∨ ∀ x ∈ all.take i, x.2.queue ≠ f.queue) → (f.words = none ∨ f.usable ≤ s.vtimeOf gr.ctx) →
    s.flightWords gr p f = (s1, some ws) →
    Becomes (.aqldComplete g i) s ((s1.landFlight g p.id f ws).sweep g))

/-- QPOP takes the full entry at a queue's head, QPUSH puts an entry into one; QCTL.TOKEN, RETRY, KILL, STAT and JOIN do their part
for the queue's program once the group is drained (R333 to R336).
The model's readings that it rests on are log entries 36 and 37. -/
def Obligations.Queues : Prop :=
  (∀ (k : Ctl) (a b : Operand) (s : State) (v : WarpView) (q : ApQueue) (e : QueueSlot) (rest : List QueueSlot),
    v.gr.mapped (queueNo b) false = some q → q.slots = e :: rest → e.state = .full →
    InWarp (.qpop k a b) s v
      { st := (s.modQueue v.is.g (queueNo b) (fun k => { k with slots := rest })).sweep v.is.g,
        writes := v.w32 a (fun l => e.words.get l) }) ∧
  (∀ (k : Ctl) (a b : Operand) (s : State) (v : WarpView) (q : ApQueue) (p : ApProgram),
    v.gr.mapped (queueNo a) true = some q → v.gr.owner? (queueNo a) = some p → p.state = .running →
    InWarp (.qpush k a b) s v
      { st := s.issueStore v.gr v.agent
          (.push (queueNo a) (Lanes.of (fun l => if v.active.has l then v.r32 false b l else 0)) v.active) }) ∧
  (∀ (k : Ctl) (a b c : Operand) (s : State) (h : HallView) (p : ApProgram),
    let n := (h.r64 false c).toNat
    let q := queueNo b
    let now := p.counted (s.coreDetermined h.gr.core) (s.vtimeOf h.gr.ctx)
    s.drained h.gr .device = true → h.gr.hall.stores = [] →
    (h.gr.owner? q = some p →
      (p.state ≠ .ended → 1 ≤ n → p.tokens + p.late + n ≤ 4095 →
        InHall (.qctlToken k a b c) s h
          { st := s.modProgram h.gr.id p.id (fun x =>
              if s.coreDetermined h.gr.core then
                { x with tokens := now.tokens, late := now.late + n, lateAt := s.vtimeOf h.gr.ctx }
              else { x with tokens := now.tokens + n, late := 0 }),
            s := sWrite a 0 }) ∧
      (p.state = .stopped → InHall (.qctlRetry k a b) s h { st := s.retryProgram h.gr.id p.id, s := sWrite a 0 }) ∧
      (p.state ≠ .ended → InHall (.qctlKill k a b) s h { st := s.killProgram h.gr.id p.id, s := sWrite a 0 })) ∧
    InHall (.qctlStat k a b) s h { st := s, s := sWrite a (h.gr.apStatus q) } ∧
    (h.joined q = true → InHall (.qctlJoin k a b) s h { st := s, s := sWrite a (h.gr.apStatus q) }))

/-- MMA posts its command where its words, its tile and its ranges are legal and one of 16 entries and the registrations are free; it becomes
eligible 16 cycles later, the arbiter gives it a whole pass over one K-block at a time, and 8 cycles after the last the tile has its
result and the entry is free (R345, R346, R354, R355, R360).
The model's readings that it rests on are log entries 38 and 39. -/
def Obligations.MatrixCommands : Prop :=
  (∀ (k : Ctl) (m : MmaMod) (a b c : Operand),
    WarpDoes (.mma k m a b c)
      (fun v =>
        let cmd := v.command m a b c
        v.active = BitVec.allOnes 32 ∧ (v.s.key? v.gr.core).holder = some (v.is.g, v.is.w) ∧
        (v.s.tile? v.gr (tileNo a)).isSome = true ∧ cmd.badField = false ∧ cmd.badLanes = 0 ∧
        v.Holds cmd.aoff cmd.aLen ∧ v.Holds cmd.boff cmd.bLen ∧
        (v.s.commands.filter (fun x => x.cluster == cmd.cluster &&
          ((v.s.group? x.g).map v.s.occupies).getD false)).length < 16 ∧
        v.s.latchFits (cmd.latches v.gr.ctx) = true ∧ v.s.spadBefore v.gr.core v.s.latchWaits = false)
      (fun v =>
        let cmd := v.command m a b c
        { st := { v.s with
            nextId := v.s.nextId + 1
            commands := v.s.commands ++ [cmd]
            latches := v.s.latches ++ cmd.latches v.gr.ctx } })) ∧
  (∀ (cluster i : Nat) (s : State) (c : MatCmd), (s.entries cluster)[i]? = some c →
    (c.eligible = false → c.posted + 16 ≤ s.cycles.toNat →
      Becomes (.commandEligible cluster i) s
        (s.modCommand c.id (fun c => { c with eligible := true, since := s.cycles.toNat }))) ∧
    (∀ (gr : Group) (t : Tile), c.passable (s.entries cluster) = true → s.passFirst (s.entries cluster) c = true →
      s.passFrom c + c.cycles ≤ s.cycles.toNat → s.spadBusy c.g c.aoff c.aLen = false →
      s.spadBusy c.g c.boff c.bLen = false → s.group? c.g = some gr → s.commandTile c = some t →
      let bad := badExp (cellGet gr.x.spad) c.mod.af (c.aBase c.next) c.pool
      let after := fun (t : Tile) => (s.modTile c.cluster c.tile c.g (fun _ => t)).modCommand c.id
        (fun c => { c with next := c.next + 1, since := s.cycles.toNat })
      (c.empty = true → Becomes (.matrixPass cluster i) s (after (c.zeroed t))) ∧
      (c.empty = false → bad = none →
        Becomes (.matrixPass cluster i) s
          { after (c.passOn (cellGet gr.x.spad) (c.zeroed t)) with passed := countSet s.passed c.cluster s.cycles.toNat }) ∧
      (∀ x, c.empty = false → bad = some x →
        Becomes (.matrixPass cluster i) s
          ((s.modTile c.cluster c.tile c.g (fun _ => c.zeroed t)).malformed c (c.zeroed t) x))) ∧
    (c.blocks ≤ c.next → c.since + 8 ≤ s.cycles.toNat →
      Becomes (.matrixCommandComplete cluster i) s
        ((s.modTile c.cluster c.tile c.g c.finishTile).freeCommand c)))

/-- MXMOV moves 32 elements of a tile, or a whole tile to and from the scratchpad, clears one, and reads its flags and clears them, once the
commands it must wait for are done; PLANE writes the bit-plane image of its source (R342, R355, R361, R363).
The model's readings that it rests on are log entry 38. -/
def Obligations.TileMoves : Prop :=
  (∀ (k : Ctl) (a b c : Operand) (s : State) (v : WarpView) (t : Tile),
    (v.Moves (tileNo b) false t →
      InWarp (.mxmovRd k a b c) s v { st := v.setTile t, writes := v.w32 a (fun l => t.get (32 * v.chunk c + l)) }) ∧
    (v.Moves (tileNo a) false t →
      InWarp (.mxmovWr k a b c) s v { st := v.setTile (t.fill (fun i =>
        if i / 32 = v.chunk c ∧ v.active.has (i % 32) = true then v.r32 false b (i % 32) else t.get i)) }) ∧
    (v.Moves (tileNo a) true t → InWarp (.mxmovZero k a) s v { st := v.setTile { t with elems := [], flags := 0 } }) ∧
    (v.Moves (tileNo b) true t →
      InWarp (.mxmovFlg k a b) s v
        { st := v.setTile { t with flags := 0 }, writes := v.w32 a (fun _ => t.flags.setWidth 32) })) ∧
  (∀ (k : Ctl) (cv : MxCv) (fe : Bool) (a b : Operand) (s : State) (v : WarpView) (t : Tile),
    let off := v.offset b 64
    let n := if cv = .f32 then 16384 else 8192
    let out := (List.range 4096).map (fun i => mxConvert cv (t.get i))
    let fl := out.foldl (fun f x => f ||| x.2) 0
    v.Moves (tileNo a) true t → v.Holds off n → v.s.locked v.gr.ctx (some v.gr.id) v.gr.id off n true = false →
    InWarp (.mxmovSt k cv fe a b) s v
      { st := (v.setTile t).issueSpad v.gr v.agent (cellsAt off (out.flatMap (·.1)))
          (if fe then (List.range (n / 16)).map (fun j => off / 16 + j) else []) [],
        flags := if fl = 0 then [] else [Lanes.all fl] }) ∧
  (∀ (k : Ctl) (a b : Operand) (s : State) (v : WarpView) (t : Tile) (y x : Nat),
    let off := v.offset b 64
    v.Moves (tileNo a) true t → v.Holds off 16384 → v.s.locked v.gr.ctx (some v.gr.id) v.gr.id off 16384 false = false →
    spadLoad v.gr v.w.stores 16384 (0, off) = some (y, x) →
    InWarp (.mxmovLd k a b) s v { st := v.setTile (t.fill (fun i => BitVec.ofNat 32 (x / 2 ^ (32 * i)))) }) ∧
  (∀ (k : Ctl) (af : AFmt) (nr : BitVec 4) (b c : Operand) (s : State) (v : WarpView) (y x : Nat),
    let q := nr.toNat + 1
    let dst := v.offset b 21
    let src := v.offset c 21
    let m := 64 * q * planeRow af
    let sp := fun (i : Nat) => BitVec.ofNat 8 (x / 2 ^ (8 * (i - src)))
    v.active = BitVec.allOnes 32 → v.Holds dst (q * aSize af) → v.Holds src m →
    spadLoad v.gr v.w.stores m (0, src) = some (y, x) →
    (af = .t5 → ∀ i < m, (sp (src + i)).toNat ∈ [0, 1, 255]) →
    v.s.locked v.gr.ctx (some v.gr.id) v.gr.id src m false = false →
    v.s.locked v.gr.ctx (some v.gr.id) v.gr.id dst (q * aSize af) true = false →
    InWarp (.plane k af nr b c) s v
      { st := s.issueSpad v.gr v.agent (cellsAt dst (planeImage af q sp src)) [] [],
        flags := if planeSignals af q sp src then [Lanes.all flagNV] else [] })

/-- MKEY for a whole warp outside divergent regions: JOIN enters the core's key ring, TAKE takes the key when it may, PASS and LEAVE hand it on;
RSV takes a tile that is free and REL gives back one without commands (R352, R355, R362).
The model's readings that it rests on are log entries 21, 24 and 39. -/
def Obligations.MatrixKeys : Prop :=
  ∀ (k : Ctl) (a : Operand),
    WarpDoes (.mkeyJoin k) (fun v => v.Together ∧ v.me ∉ (v.s.key? v.gr.core).members)
      (fun v =>
        let r := v.s.key? v.gr.core
        { st := v.s.setKey { r with members := r.members ++ [v.me] } }) ∧
    WarpDoes (.mkeyTake k)
      (fun v => v.Together ∧ v.me ∈ (v.s.key? v.gr.core).members ∧ (v.s.key? v.gr.core).takeable v.me = true ∧ v.takeNow = true)
      (fun v =>
        { st := (v.s.setKey { (v.s.key? v.gr.core) with holder := some v.me, transit := none }).modX v.is.g (fun x =>
            { x with takes := (v.is.w, v.s.nextId) :: x.takes.filter (fun (t : Nat × Nat) => t.1 != v.is.w) }) }) ∧
    WarpDoes (.mkeyPass k) (fun v => v.Together ∧ (v.s.key? v.gr.core).holder = some v.me)
      (fun v => { st := v.s.passKey v.gr.core v.me }) ∧
    WarpDoes (.mkeyLeave k) (fun v => v.Together ∧ v.me ∈ (v.s.key? v.gr.core).members)
      (fun v => { st := v.s.leaveRing v.gr.core v.me }) ∧
    WarpDoes (.mkeyRsv k a)
      (fun v =>
        let since := (v.s.rsvSince v.gr v.is.w (tileNo a)).getD v.s.cycles.toNat
        v.Together ∧ v.s.tile? v.gr (tileNo a) = none ∧ v.s.rsvOpen v.gr (tileNo a) = true ∧
        v.s.rsvAfter v.gr v.is.w (tileNo a) since = false)
      (fun v =>
        let t := v.s.dropWait v.is.g v.is.w
        { st := { t with tiles := t.tiles ++ [⟨clusterOf v.gr.core, tileNo a, v.is.g, [], 0, none, false⟩] } }) ∧
    WarpDoes (.mkeyRel k a)
      (fun v => v.Together ∧ (v.s.tile? v.gr (tileNo a)).isSome = true ∧
        ∀ c ∈ v.s.commands, ¬(c.cluster = clusterOf v.gr.core ∧ c.tile = tileNo a ∧ c.g = v.is.g))
      (fun v =>
        { st := { v.s with
            tiles := v.s.tiles.filter (fun (t : Tile) => !t.at_ (clusterOf v.gr.core) (tileNo a) v.is.g) } })

/-- FXG and FXC read and check their descriptor once and ask for the ranges of a command of the fabric engine; once these are registered
the command is issued, and the answer is 0 (R365, R367, R372, R383).
The model's readings that it rests on are log entry 40. -/
def Obligations.FabricIssue : Prop :=
  ∀ (k : Ctl) (a b : Operand) (s : State) (h : HallView) (d : List Byte),
    let va := (h.r64 false b).toNat
    s.drained h.gr .device = true → h.gr.hall.stores = [] → va % 64 = 0 →
    (∀ (collective : Bool) (g : Nat) (s1 : State) (x : Ctx),
      let i := if collective then Instr.fxc k a b else .fxg k a b
      let c := h.fabCmd s1.nextId va collective d
      Hallward s i g h → h.gr.x.fabDesc = none → s.readBlock h.gr.ctx va 128 = (s1, .ok d) →
      s1.ctx? h.gr.ctx = some x → s1.allCached x va 128 = true → (if collective then fxcFails d else fxgFails d) = none →
      (c.comp % 2 = 1 → ∃ r, s1.rcb? h.gr.ctx c.rcb = some r ∧ s1.rget r .kind ≤ 1) →
      (h.gr.x.d2 = none ∨ collective = false ∧ c.lspace ≠ 0 ∧ c.kind = 0) →
      (collective = true ∨ c.lspace = 0 ∨ c.local_ + c.count * c.esize ≤ h.gr.image.spad) →
      askedId (s1.latchWait h.gr.id) = none →
      let s2 := s1.modX h.gr.id (fun x => { x with fabDesc := some d })
      s2.slotsTaken (dieOf h.gr.core) h.gr.id < 64 →
      Becomes i s (({ s2 with nextId := s2.nextId + 1 }).latchAsk h.gr c.latches).1) ∧
    (∀ (id : Nat) (s2 : State),
      let s1 := s.modX h.gr.id (fun x => { x with fabDesc := some d })
      let placed := fun (collective : Bool) =>
        let c := h.fabCmd id va collective d
        let t := if c.comp % 2 = 1 then s2.countChild h.gr.ctx 9 c.rcb else s2
        { t with fabric := t.fabric ++ [c] }
      let done := fun (t : State) => t.modX h.gr.id (fun x => { x with fabDesc := none })
      let c := h.fabCmd id va false d
      h.gr.x.fabDesc = some d → askedId (s1.latchWait h.gr.id) = some id → s1.latchAsk h.gr [] = (s2, true) →
      InHall (.fxg k a b) s h
        { st := done (if c.count = 0 then (placed false).completeCommand c else placed false), s := sWrite a 0 } ∧
      InHall (.fxc k a b) s h { st := done (placed true), s := sWrite a 0 })

/-- The fabric engine reads what a command needs once its sources hold what was stored before, starts up to 16 units of it and serves one
of them, counts completed units that form a prefix, lets a collective begin when its participants have arrived and agree, and completes
a command whose units are all done or that has failed (R366, R371, R376, R379).
The model's readings that it rests on are log entries 41 and 42. -/
def Obligations.FabricSteps : Prop :=
  ∀ (die i : Nat) (s : State) (c : FabCmd), (s.inHand die)[i]? = some c → s.engineRuns c.ctx (.fabric die) = true →
    ((c.collective = true → c.party ≠ none) → s.sourceBusy c = false →
      (∀ (s1 : State) e, s.planCommand c = (s1, .error e) →
        Becomes (.fabricShare die i) s
          (s1.modFabric c.id (fun c => { c with fault := fabFault (some (0xFFFFFFFF, e)) }))) ∧
      (∀ (k u : Nat) (s1 s2 : State) p,
        let r := s1.startCommand { c with plan := some p }
        let c1 := r.2
        s.planCommand c = (s1, .ok p) → r.1.draw (c1.flying.length - 1) = (k, s2) →
        (c1.flying[k]? = none → Becomes (.fabricShare die i) s (s2.modFabric c.id (fun _ => c1))) ∧
        (c1.flying[k]? = some u →
          let q := if c1.collective then s2.serveStep c1 u else s2.serveUnit c1 u
          let c2 := { c1 with
            flying := c1.flying.erase u, served := natPut c1.served u, away := countSet c1.away u 0
            fault := mergeFault c1.fault (fabFault q.2) }
          Becomes (.fabricShare die i) s
            ((q.1.modFabric c2.id (fun _ => c2)).modX c2.g (fun x =>
              x.spadWrite [] (c2.granulesOf.filter (fun g => c2.filled g && !c1.filled g)) []))))) ∧
    (c.fault = none → c.prog ∈ c.served →
      Becomes (.fabricUnitComplete die i) s
        (s.modFabric c.id (fun c => { c with prog := c.prog + 1, served := c.served.erase c.prog }))) ∧
    (∀ (all here : List FabCmd) (lead : FabCmd),
      all = s.fabric.filter (fun x => x.collective && x.ctx == c.ctx && x.n 6 2 == c.n 6 2 && x.fault.isNone && !x.closed) →
      here = all.take c.parts → c.collective = true → c.party = none → c.fault = none → (∀ x ∈ all, x.party = none) →
      c ∈ here → here.length = c.parts → (∀ x ∈ here, die ≤ x.die) → here.head? = some lead →
      Becomes (.collectiveCheck die i) s
        (s.settleParty here lead.id (here.all (fun x => x.terms == c.terms) && covers here c.shards))) ∧
    (c.flying = [] →
      (c.collective = true → s.partyDone c = true ∧ (c.party ≠ none ∨ c.fault ≠ none)) →
      (c.collective = false → c.fault ≠ none ∨ c.plan ≠ none ∧ s.unitCount c ≤ c.prog) →
      Becomes (.fabricCommandComplete die i) s (s.completeCommand c))

/-- WAIT_END ends a wait whose condition holds, of a Hall or of a warp's path; WAIT_SWAP and CORE_STALL_SWAP swap out a group that has been
blocked for its SWAPLIM, or the youngest of those stalled for registers (R73, R79).
The model's readings that it rests on are log entries 57 and 62. -/
def Obligations.WaitsAndSwaps : Prop :=
  (∀ (a : Agent) (s s2 : State) (gr : Group) (x : Wait),
    let s1 : State := { s with fresh := s.fresh + 1 }
    s.group? (agentGroup a) = some gr → s.silent gr = false → gr.standing = .resident → s.placeAhead gr a = true →
    (gr.openWaits a).find? (fun x => s1.waitMet gr a (agentWarp a) x) = some x →
    (∀ g, a = .hall g → (s1.traced gr x = false ∧ s2 = s1 ∨ s1.traced gr x = true ∧ s1.traceWake gr 255 0 = .go s2) →
      Becomes (.waitEnd a) s
        (s2.modHall gr.id (fun h => { h with wait := some { s2.sawWait gr (.hall gr.id) x with ended := true } }))) ∧
    (∀ g n w, a = .warp g n → gr.warps[n]? = some w →
      (s1.traced gr x = false ∧ s2 = s1 ∨ s1.traced gr x = true ∧ s1.traceWake gr n x.lanes = .go s2) →
      Becomes (.waitEnd a) s (s2.endWarpWait gr.id n x (s1.sawWait gr (.warp gr.id n) x)))) ∧
  (∀ (g : Nat) (s : State) (gr : Group), s.group? g = some gr → gr.standing = .resident → s.silent gr = false →
    s.effSwap gr.ctx gr.home < gr.x.waitTimer → s.blockedWait gr = true → s.sfuFree gr = true → s.someWaitMet gr = false →
    (∀ c ∈ s.ctx? gr.ctx, c.givesWay = false) →
    Becomes (.waitSwap g) s (s.swapOut gr)) ∧
  (∀ (core : Nat) (s : State) (gr : Group),
    let gs := s.groups.filter (fun gr => gr.resident && gr.core == core)
    let stalled := gs.filter (fun gr => gr.warps.any Warp.regStalled)
    let others := stalled.filter (fun gr => gr.handlerStall.isNone)
    (∀ x ∈ gs, s.silent x = false ∧ s.sfuFree x = true ∧ ∀ w ∈ x.warps, w.isLive = true → s.warpStuck x w = true) →
    (s.youngestGroup others = some gr → Becomes (.coreStallSwap core) s (s.swapOut gr)) ∧
    (others = [] → stalled = [gr] → Becomes (.coreStallSwap core) s (s.stallTrap gr)) ∧
    (others = [] → 2 ≤ stalled.length → s.youngestGroup stalled = some gr → Becomes (.coreStallSwap core) s (s.swapOut gr)))

/-- A group becomes resident on the core that R287 gives, the first in line of those that could: a new one in GROUP_PLACEMENT, a
stopped or swapped one in GROUP_READMISSION, one ready for a quantum on another core in GROUP_MOVE; QUANTUM_EXPIRY pre-empts a region
whose quantum is over (R79, R241, R287 to R289).
The model's readings that it rests on are log entries 39, 56 and 58. -/
def Obligations.Residency : Prop :=
  (∀ (g core : Nat) (s : State) (gr : Group), s.group? g = some gr → s.firstInLine gr = true →
    (gr.standing = .waiting → s.grantCore gr = some core → Becomes (.groupPlacement gr.ctx g core) s (s.seat g core)) ∧
    (gr.standing ≠ .waiting → s.grantCore gr = some core →
      (core = gr.core → Becomes (.groupReadmission g core) s (s.seat g core)) ∧
      (core ≠ gr.core →
        let moved := { s with keys := s.keys.map (fun (k : KeyRing) =>
          if k.core == gr.core && k.members.any (fun m => m.1 == g) then { k with core := core } else k) }
        Becomes (.groupReadmission g core) s ((s.ringMates gr).foldl (fun s x => s.seat x.id core) moved))) ∧
    (∀ c : Ctx, s.ctx? gr.ctx = some c → gr.standing = .swapped → gr.x.ready = true → Config.quantum ≤ gr.x.readyTimer →
      s.admits c gr = true → s.canTake gr.core [gr] = false →
      s.bestCore c.num [gr] (c.cores.filter (fun k =>
        k != gr.core && (!s.clusterBound gr || clusterOf k == clusterOf gr.core))) = some core →
      Becomes (.groupMove g core) s
        (((gr.x.programs.foldl (fun (s : State) p => (s.landAll g p.id).drainAgent g (.ap g p.id)) s).changeRing gr
          core).seat g core))) ∧
  (∀ (ctx rcb : Nat) (s : State) (c : Ctx) (q : Quantum), s.ctx? ctx = some c → c.state = .running → c.halt = none →
    c.preempting = none → q ∈ c.quanta → q.rcb = rcb → Config.quantum ≤ q.ran →
    Becomes (.quantumExpiry ctx rcb) s
      ((s.modCtx ctx (fun c => { c with quanta := c.quanta.filter (fun q => q.rcb != rcb) })).askPreempt ctx (some rcb)))

/-- An engine of a context that is being pre-empted stops at its unit and acknowledges; an uncorrectable error raises the halt line,
and each engine then writes its stop record, the last one freezing the context (R19, R20, R23, R24). The shutter tree takes a first
sample when the AND becomes true and reports quiescence when a second one agrees with it; a rotation ends when every place of it is
taken (R25, R26, R293, R301).
The model's readings that it rests on are log entries 54, 59, 61 and 69. -/
def Obligations.StopsAndSamples : Prop :=
  (∀ (ctx : Nat) (e : Engine) (s : State) (c : Ctx), s.ctx? ctx = some c → e ∈ c.engines →
      (∀ (p : Preempting) (s1 : State), c.preempting = some p → e ∉ p.acks → s.honoured ctx p = true → s.stopEngine ctx p.region e = some s1 →
        Becomes (.enginePreemptStop ctx e) s
          ((s1.modCtx ctx (fun c => { c with preempting := some { p with acks := p.acks ++ [e] } })).preemptDone ctx)) ∧
      (∀ addr : Nat, c.state = .running →
        Becomes (.haltLineRaise ctx e 0x3F addr) s
          (s.raiseHalt ctx e { s.engineInfo ctx e with cause := 0x3F, cinfo := addr } false)) ∧
      (∀ h : Halt, c.halt = some h → c.state = .running → e ∉ h.stopped →
        let t := s.settleCore ctx e
        let u := t.stopWrite c (64 * c.stopSlot e) (t.recordOf c h e)
        let h' := { h with stopped := h.stopped ++ [e] }
        let u := u.modCtx ctx (fun c => { c with halt := some h' })
        Becomes (.engineHaltStop ctx e) s
          (if c.engines.all (fun x => h'.stopped.contains x) then u.freeze c h' else u))) ∧
  (∀ (ctx : Nat) (s : State) (c : Ctx), s.ctx? ctx = some c → c.state = .running →
      (c.halt = none →
        (s.shutterAnd c = true → c.rung = false →
          Becomes (.shutterSample ctx) s (s.modCtx ctx (fun c =>
            { c with rung := true, samples := c.samples ++ [⟨s.cycles.toNat, countSum c.sent, s.received c⟩] }))) ∧
        (s.shutterAnd c = false → Becomes (.shutterSample ctx) s (s.modCtx ctx (fun c => { c with rung := false }))) ∧
        (∀ (x : Sample) (rest : List Sample), c.samples = x :: rest → x.cycle + 2048 ≤ s.cycles.toNat →
          let now := s.shutterAnd c
          let t := s.modCtx ctx (fun c => { c with samples := rest, rung := c.rung && now })
          Becomes (.shutterSecondSample ctx) s
            (if now = true ∧ x.sent = x.recv ∧ countSum c.sent = s.received c ∧ countSum c.sent = x.sent then t.reportQuiet c
             else t))) ∧
      (s.rotationOver c = true →
        let t := s.missedWakes c
        (c.preempting = none ∨ (∃ p, c.preempting = some p ∧ p.begun = true) →
          Becomes (.rotationEnd ctx) s (t.nextRotation c)) ∧
        (∀ p, c.preempting = some p → p.begun = false →
          (t.boundaryStops c = true → Becomes (.rotationEnd ctx) s (t.stopAtBoundary c p)) ∧
          (t.boundaryStops c = false →
            Becomes (.rotationEnd ctx) s
              (if p.since + 65536 ≤ c.vtime + 1 then ((t.abandonTraces c).begin c p).nextRotation c else t.nextRotation c)))))

/-- The commands of the stack controllers: SWAPCFG sets the swap parameters, SPARE moves a region to a spare one, RETIRE moves a layer slice's
pages to the capacity tier and posts event 6, RESTORE brings the slice back empty, ROTATE gives a context a new key and new counters,
READCNT returns a counter to the Cellar (R415, R416, R420 to R422).
The model's readings that it rests on are log entries 43 and 51. -/
def Obligations.StackCommands : Prop :=
  (∀ (on : Bool) (factor offset : Nat), 16 ≤ factor → factor ≤ 128 →
    CommandDoes (.swapcfg on factor offset) (fun _ => True) (fun s =>
      s.modStacks (fun x => { x with swapOn := on, swapFactor := factor, swapOffset := offset }))) ∧
  (∀ stack layer region : Nat, stack < 24 → layer < 12 → region < 1908 →
    CommandDoes (.spare stack layer region)
      (fun s => (∀ w ∈ s.hbm.swaps, w.stack ≠ stack) ∧ (s.draw 140).1 ≠ 140 ∧
        ∀ m ∈ s.hbm.moved, ¬(m.stack = stack ∧ m.layer = layer ∧ m.physical = 1908 + (s.draw 140).1))
      (fun s => ((s.draw 140).2.sweepAll (inRegion stack layer region)).modStacks
        (fun x => x.setPhysical stack layer region (1908 + (s.draw 140).1)))) ∧
  (∀ stack layer : Nat, CommandDoes (.readcnt stack layer) (fun _ => stack < 24 ∧ layer < 12) (fun s =>
    s.modStacks (fun x => { x with readout := some (countAt x.corrected (layer * 32 + stack)) }))) ∧
  (∀ layer part : Nat, layer ≠ 0 → layer < 12 →
    CommandDoes (.retire layer)
      (fun s => layer ∉ s.hbm.retired ∧ (∀ w ∈ s.hbm.swaps, w.layer ≠ layer) ∧
        ((List.range 64).map (fun i => ((s.draw 63).1 + i) % 64)).find? (fun i => (s.draw 63).2.partFree layer i) = some part)
      (fun s =>
        let t := (s.draw 63).2
        let t := ((t.sweepAll (inSlice layer)).moveSlice layer (moveOut layer (tierPart part))).modStacks
          (fun x => { x with retired := natPut x.retired layer })
        t.postEvent 6 0xFFFF (leBytes 8 layer ++ leBytes 8 sliceBytes ++ leBytes 8 0) [])) ∧
  (∀ layer : Nat,
    CommandDoes (.restore layer) (fun s => layer ∈ s.hbm.retired)
      (fun s =>
        ((s.pokeCells ((s.memory.filter (fun c => inSlice layer c.1)).map (fun c => (c.1, 0)))).modStacks (fun x =>
          { x with
            retired := x.retired.filter (· != layer)
            moved := x.moved.filter (fun m => m.layer != layer)
            minor := x.minor.filter (fun c => !inSlice layer (c.place * 128))
            major := x.major.filter (fun c => !inSlice layer (c.place * 4096))
            exhausted := x.exhausted.filter (fun p => !inSlice layer (p * 4096)) })).postEvent 6 0xFFFF
          (leBytes 8 layer ++ leBytes 8 sliceBytes ++ leBytes 8 1) [])) ∧
  (∀ (ctx key : Nat) (c : Ctx),
    CommandDoes (.rotate ctx key) (fun s => s.ctx? ctx = some c)
      (fun s =>
        (((s.sweepLines c isHbm).freshCounters c).modCtx ctx (fun c => { c with key := key })).postEvent 7 ctx [] []))

/-- At the end of an epoch a controller may decide on one swap of two regions of different channel sets; the swap copies both,
meeting a line of them that cannot be read, and exchanges their entries in the indirection table (R412 to R414, R423).
The model's readings that it rests on are log entry 11. -/
def Obligations.Remapping : Prop :=
  ∀ (stack : Nat) (s : State),
    (let s0 := s.modStacks (fun x => { x with epochErrors := x.epochErrors.filter (fun c => c.place / 2 ^ 11 % 32 != stack) })
     let go := s0.draw 1
     let layer := go.2.draw 11
     let a := layer.2.draw 1907
     let b := a.2.draw 1907
     s.hbm.swapOn = true → (∀ w ∈ s.hbm.swaps, w.stack ≠ stack) → stack < 24 →
     (go.1 = 0 → Becomes (.epochEnd stack) s b.2) ∧
     (go.1 ≠ 0 → layer.1 ∉ s.hbm.retired →
       s.hbm.physical stack layer.1 a.1 % 4 ≠ s.hbm.physical stack layer.1 b.1 % 4 →
       Becomes (.epochEnd stack) s
         (b.2.modStacks (fun x => { x with swaps := x.swaps ++ [⟨stack, layer.1, a.1, b.1⟩] })))) ∧
    (∀ w : Swap, s.hbm.swaps.find? (fun w => w.stack == stack) = some w →
      Becomes (.regionSwap stack) s ((s.sweepAll (fun pa =>
          inRegion stack w.layer w.regionA pa || inRegion stack w.layer w.regionB pa)).modStacks (fun x =>
        { ((x.setPhysical stack w.layer w.regionA (x.physical stack w.layer w.regionB)).setPhysical stack w.layer w.regionB
            (x.physical stack w.layer w.regionA)) with
          swaps := x.swaps.filter (fun (v : Swap) => v.stack != stack) })))

/-- BOOT accepts a store whose signatures verify and whose version is not below the fused one, and else enters recovery; a recovery chunk is
staged where it comes in sequence and fits, and else discards what is staged, and the last one installs an accepted image or answers with
error 4, and both always complete; an SPDM request gets its answer, ResponseNotReady before boot status 0 (R425, R427, R428).
The model's readings that it rests on are log entries 46, 47 and 48. -/
def Obligations.BootAndAttestation : Prop :=
  (∀ (v : DWord) (s : State), (∃ t, Becomes .boot s t) ∧ ∃ t, Becomes (.recoveryChunk v) s t) ∧
  (∀ s : State,
    (s.cellar.status ≠ 1 → Becomes .boot s s) ∧
    (s.cellar.status = 1 →
      (s.cellar.store = none → Becomes .boot s { s with cellar := s.cellar.recover 1 }) ∧
      (∀ b, s.cellar.store = some b →
        (Config.signaturesValid b = true → Config.fusedVersion ≤ Config.imageVersion b →
          Becomes .boot s
            { s with cellar := { s.cellar with status := 0, stage := 3, recWin := [], keeps := Config.cellarRegions } }) ∧
        (Config.signaturesValid b = false ∨ Config.imageVersion b < Config.fusedVersion →
          let stage := s.draw 2
          Becomes .boot s { stage.2 with cellar := s.cellar.recover (1 + stage.1) })))) ∧
  (∀ (v : DWord) (s : State),
    let c := { s.cellar with recWin := winPut s.cellar.recWin 0xFFF8 v }
    let len := v.toNat % 2 ^ 24
    let seq := v.toNat / 2 ^ 24 % 2 ^ 32
    let staged := c.staged ++ cellBytes c.recWin 0 len
    let gives := fun (c : Cellar) => Becomes (.recoveryChunk v) s { s with cellar := c }
    (c.status ≠ 2 → Becomes (.recoveryChunk v) s s) ∧
    (c.status = 2 → seq ≠ c.nextSeq → gives (c.discard 1)) ∧
    (c.status = 2 → seq = c.nextSeq → len = 0 ∨ 65528 < len → gives (c.discard 2)) ∧
    (c.status = 2 → seq = c.nextSeq → 1 ≤ len → len ≤ 65528 → 2 ^ 30 < c.staged.length + len → gives (c.discard 3)) ∧
    (c.status = 2 → seq = c.nextSeq → 1 ≤ len → len ≤ 65528 → c.staged.length + len ≤ 2 ^ 30 →
      (v.toNat.testBit 63 = false →
        gives { c with staged := staged, nextSeq := seq + 1, rack := (seq + 1) % 2 ^ 32, rerr := 0 }) ∧
      (v.toNat.testBit 63 = true → imageAccepted staged = true →
        gives
          { c with
            store := some staged, staged := [], nextSeq := 0, rack := (seq + 1) % 2 ^ 32, rerr := 0, status := 1, stage := 0
            recWin := [] }) ∧
      (v.toNat.testBit 63 = true → imageAccepted staged = false →
        gives { c with staged := [], nextSeq := 0, rack := (seq + 1) % 2 ^ 32, rerr := 4 }))) ∧
  (∀ (req : List Byte) (s : State),
    let answered := fun (kind : Nat) =>
      let body := Config.spdmBytes s.fresh kind req (s.cellar.store.getD [])
      { s with
        fresh := s.fresh + 1
        cellar := { s.cellar with
          spdm := s.cellar.spdm ++ [if s.cellar.status = 0 then body else spdmNotReady ++ body.take 4] } }
    Becomes (.getVersion req) s (answered 0) ∧ Becomes (.getCapabilities req) s (answered 1) ∧
    Becomes (.negotiateAlgorithms req) s (answered 2) ∧ Becomes (.getDigests req) s (answered 3) ∧
    Becomes (.getCertificate req) s (answered 4) ∧ Becomes (.challenge req) s (answered 5) ∧
    Becomes (.getMeasurements req) s (answered 6))

/-- Writing QENABLE checks and opens the rings, or sets QERR; a doorbell or a poll makes the Cellar take the requests in the ring; the base
registers, EVTVEC and the recovery window take what is written; an event goes to its ring when that has room (R429, R430, R433).
The model's readings that it rests on are log entries 45 and 46. -/
def Obligations.HostRegisters : Prop :=
  (∀ (v : DWord) (s : State), s.cellar.status = 0 →
    let c := s.cellar
    let good := s.ringOk c.reqBase && s.ringOk c.rspBase && s.ringOk c.evtBase && s.ringsApart
    (v.getLsbD 0 = false → Becomes (.qenableWrite v) s { s with cellar := { c with en := false } }) ∧
    (v.getLsbD 0 = true → c.en = false → good = true →
      Becomes (.qenableWrite v) s { s with cellar := { c with en := true, qerr := false } }) ∧
    (v.getLsbD 0 = true → c.en = false → good = false →
      Becomes (.qenableWrite v) s { s with cellar := { c with en := false, qerr := true } })) ∧
  (∀ (v : DWord) (s : State) (pa : Nat),
    let taken := fun (s : State) =>
      let cons := s.ringCons pa
      let cap := s.ringCap pa
      let n := min (s.ringProd pa - cons) cap
      let recs := (List.range n).map (fun i => s.peekBytes (pa + 64 + 64 * ((cons + i) % cap)) 64)
      ((s.pokeN (pa + 8) 8 (cons + n)).flush).skipUnknown (s.cellar.taken ++ recs)
    (s.cellar.en = true → hostPa s.cellar.reqBase.toNat = some pa → Becomes (.doorbell v) s (taken s)) ∧
    (s.flush.cellar.en = true → hostPa s.flush.cellar.reqBase.toNat = some pa → Becomes .requestPoll s (taken s.flush))) ∧
  (∀ (v : DWord) (s : State),
    let c := s.cellar
    (c.en = false →
      Becomes (.registerWrite 0x0010 v) s { s with cellar := { c with reqBase := v } } ∧
      Becomes (.registerWrite 0x0018 v) s { s with cellar := { c with rspBase := v } } ∧
      Becomes (.registerWrite 0x0020 v) s { s with cellar := { c with evtBase := v } }) ∧
    Becomes (.registerWrite 0x0038 v) s { s with cellar := { c with evtVec := v &&& 0x87FF } } ∧
    (∀ off : Nat, c.status = 2 → 0x10000 ≤ off → off < 0x1FFF8 → off % 8 = 0 →
      Becomes (.registerWrite off v) s { s with cellar := { c with recWin := winPut c.recWin (off - 0x10000) v } })) ∧
  (∀ (s t : State) (e : List Byte) (rest : List (List Byte)), s.flush.cellar.events = e :: rest →
    s.flush.ringPut s.flush.cellar.evtBase e = some t →
    Becomes .eventPost s { t with cellar := { t.cellar with events := rest } })

/-- HELLO settles the interface versions; CREATE makes a context at once or announces it to the reachable modules first, and the last
acknowledgement completes it, while a timeout refuses it; START makes its lists run; UPDATE writes an accepted image, POWERCAP the ceiling
(R426, R431, R432, R434, R436, R437).
The model's readings that it rests on are log entries 44, 47, 55 and 56. -/
def Obligations.HostRequests : Prop :=
  ∀ (s : State) (r : List Byte) (rest : List (List Byte)),
    let s' := s.took rest
    let a := blockN r 16 8
    let n := blockN r 24 8
    let w := blockN r 16 4
    let pa := 2 * 2 ^ 48 + a
    let ids := (List.range 8).map (· + 1)
    (Asked s 1 24 r rest → a % 8 = 0 → a + 64 ≤ 2 ^ 48 → (∀ i ∈ ids, versionOk (s'.peekBytes pa 64) i = true) →
      let t := s'.pokeBytes pa (ids.flatMap (versionReply (s'.peekBytes pa 64)))
      Serves .hello s (({ t with cellar := { t.cellar with hello := true } }).answer (reqTag r) 0 8)) ∧
    (Asked s 2 63 r rest → createMask r ≠ [] → createPrio r ≤ 15 → s.cellar.announcing = none → s'.createRefused r = false →
      (∀ num u, createGroup r = 0xFF ∨ s'.reachable = [] → s'.Makes r num u → Serves .create s (u.answer (reqTag r) 0 num)) ∧
      (createGroup r ≠ 0xFF → s'.reachable ≠ [] →
        Serves .create s { s' with cellar := { s'.cellar with announcing := some ⟨r, s'.reachable⟩ } })) ∧
    (∀ (c : Ctx) (t : State), Asked s 3 24 r rest → s'.ctx? (reqCtx r) = some c → c.state = .created →
      s'.startList c a = some t → s'.startFits t c = true →
      Serves .start s ((t.placeListed c.num).answer (reqTag r) 0 0)) ∧
    (Asked s 9 32 r rest → a < 2 ^ 48 →
      (∀ b, s.cellar.updating = some b →
        Serves .update s
          (({ s' with cellar := { s'.cellar with store := some b, updating := none } }).answer (reqTag r) 0 0)) ∧
      (s.cellar.updating = none → s.ctxs = [] → a + n ≤ 2 ^ 48 → imageAccepted (s'.peekBytes pa n) = true →
        Serves .update s
          { s' with cellar := { s'.cellar with updating := some (s'.peekBytes pa n), taken := r :: rest } })) ∧
    (Asked s 10 20 r rest → 3000 ≤ w → w ≤ 8500 →
      Serves .powercap s (({ s' with cellar := { s'.cellar with powerCap := w } }).answer (reqTag r) 0 0)) ∧
    (∀ (x : Announcing) (identity : DWord), s.cellar.announcing = some x →
      let left := x.waiting.filter (· != identity)
      let s1 : State := { s with cellar := { s.cellar with announcing := none } }
      (∀ num u, left = [] → s1.Makes x.record num u →
        Becomes (.announceAcknowledgement identity) s (u.answer (reqTag x.record) 0 num)) ∧
      (left ≠ [] →
        Becomes (.announceAcknowledgement identity) s
          { s with cellar := { s.cellar with announcing := some { x with waiting := left } } }) ∧
      Becomes .acknowledgementTimeout s (s1.answer (reqTag x.record) 3 0))

/-- PREEMPT begins a pre-emption and is held until it is done; RESUME makes a pre-empted context run again, RESET a pre-empted or frozen one
begin anew, DESTROY ends a context and wipes its memory (R7, R22, R24, R431).
The model's readings that it rests on are log entries 44, 53 and 55. -/
def Obligations.LivesOfContexts : Prop :=
  ∀ (s : State) (r : List Byte) (rest : List (List Byte)) (c : Ctx),
    let s' := s.took rest
    s'.ctx? (reqCtx r) = some c →
    (Asked s 4 16 r rest → c.state = .running → c.halt = none →
      Serves .preempt s ((s'.hold r c).askPreempt c.num none)) ∧
    (Asked s 5 16 r rest → c.givesWay = false → c.state = .preempted → s'.refusedItem c = none →
      Serves .resume s ((s'.modCtx c.num (fun c => { c with state := .running })).answer (reqTag r) 0 0)) ∧
    (Asked s 6 16 r rest → c.givesWay = false → c.state = .preempted ∨ c.state = .frozen →
      Serves .reset s ((s'.resetCtx c.num).answer (reqTag r) 0 0)) ∧
    (Asked s 7 16 r rest → Serves .destroy s ((s'.destroyCtx c).answer (reqTag r) 0 0))

/-- Links, members, heat, ports and power: a link trains or fails and its members are lost, another module's member enters the table or
leaves it, a die throttles its clock, a trip raises the halt lines of the contexts on the die, a removed expander's port is
unpopulated, and a loss of power leaves the image store and the absent ports (R426, R435 to R437).
The model's readings that it rests on are log entries 42, 45, 49 and 64. -/
def Obligations.ModuleEvents : Prop :=
  (∀ (port : Nat) (up : Bool) (major minor : Nat) (identity : DWord) (s : State),
    let others := s.cellar.links.filter (fun l => l.port != port)
    let t := { s with cellar := { s.cellar with
      links := if up = true ∧ major = 1 ∧ minor = 0 ∧ port < 16 then others ++ [⟨port, identity⟩] else others } }
    Becomes (.linkTraining port up major minor identity) s
      ((s.cellar.members.filter (fun m => s.reaches m && !t.reaches m)).foldl (fun s m => s.loseMember m.group) t)) ∧
  (∀ (group dev ctx : Nat) (identity : DWord) (s : State),
    ((∀ m ∈ s.cellar.members, ¬(m.group = group ∧ m.dev = dev)) → (∀ c ∈ s.ctxs, ¬(c.group = group ∧ c.device = dev)) →
      group ≤ 254 →
      Becomes (.fabricGroupAnnounce group dev identity ctx) s
        { s with cellar := { s.cellar with members := s.cellar.members ++ [⟨group, dev, identity, ctx⟩] } }) ∧
    (∀ m ∈ s.cellar.members, m.group = group → m.dev = dev →
      Becomes (.memberLeave group dev) s
        ({ s with cellar := { s.cellar with
          members := s.cellar.members.filter (fun (m : Member) => !(m.group == group && m.dev == dev)) } }.loseMember group))) ∧
  (∀ (die : Nat) (s : State), die < Config.dies →
    (countAt s.cellar.clock die < 8 →
      Becomes (.thermalThrottle die) s
        ({ s with cellar := { s.cellar with
          clock := countSet s.cellar.clock die (countAt s.cellar.clock die + 1) } }.powerEvent die)) ∧
    Becomes (.thermalTrip die) s ((s.ctxs.foldl (fun s c => s.tripCtx die c) s).powerEvent die)) ∧
  (∀ (port : Nat) (s : State), port < 8 → port ∉ s.cellar.absent →
    let layer := s.drawBits
    let bytes := layer.2.drawBits
    Becomes (.expanderRemoved port) s
      ({ bytes.2 with cellar := { bytes.2.cellar with absent := natPut bytes.2.cellar.absent port } }.postEvent 6 0xFFFF
        (leBytes 8 layer.1.toNat ++ leBytes 8 bytes.1.toNat ++ leBytes 8 0) [])) ∧
  (∀ s : State,
    Becomes .powerLoss s
      { State.reset with
        agenda := s.agenda
        steps := s.steps
        fresh := s.fresh
        outbox := (s.zeroWhere (fun a => !isHost a)).outbox
        cellar := { Cellar.reset with
          store := if s.cellar.updating.isSome then none else s.cellar.store
          absent := s.cellar.absent } })

/-! ### Words and instructions -/

/-- An encoded instruction is read back from its own word, with every field of it (R32, R33, R37 to R39).
The model's readings that it rests on are log entries 12 to 15 for what is well-formed. -/
def Obligations.RoundTrip : Prop :=
  ∀ (i : Instr) (w : BitVec 96), encode i = some w → decodeWord w = .ok i

/-- Words that the manual writes out, each with the instruction that it stands for (R50, R133, R143, R159, R101, R188, R231, R360, R337,
R250). -/
def Obligations.DecodedWords : Prop :=
  let k : Ctl := ⟨⟨false, false, 0⟩, false, false, false, 0⟩
  let v : BitVec 8 → Operand := fun n => .vec ⟨n, .whole, .none, 0⟩
  decodeWord 0x5F180000_00000000_00000000 = .ok (.nop { k with guard := ⟨true, false, 3⟩ }) ∧
  decodeWord 0x0000002C_01000008_00200005 = .ok (.iadd k ⟨⟨true, .b32⟩, false, false⟩ (v 1) (v 2) (.imm 5)) ∧
  decodeWord 0x26000328_05000018_00007000 = .ok (.bitfn k false 0xCA (v 5) (v 6) (v 7)) ∧
  decodeWord 0x47080000_00000000_00200002 = .ok (.bra { k with guard := ⟨true, false, 1⟩ } false 2) ∧
  decodeWord 0xA0000010_0A000440_00200040 = .ok (.ld k ⟨.warp, .plain, .w32⟩ 64 (v 10) (.sreg 4)) ∧
  decodeWord 0x66000900_08000008_00003000 = .ok (.ffma k false false ⟨.rn, .f32, false⟩ (v 8) (v 2) (v 3)) ∧
  decodeWord 0xE4000000_00000000_0020002A = .ok (.trap k (.imm 42)) ∧
  decodeWord 0xD000001B_400034C0_00028000 =
    .ok (.mma k ⟨.bf16, .bf16, .plain, true, true, false⟩ (.tile 3) (.sreg 12) (v 40)) ∧
  decodeWord 0xCE000001_7C000CC0_00600001 = .ok (.qctlToken k (.sreg 31) (.queue 1) (.imm 1)) ∧
  decodeWord 0xF4002001_10000460_00208000 = .ok (.ctxopSetf k 0x80 (.sreg 4) (.sreg 6) (.imm 32768))

/-- Every word with OP 0x7F is ILL whatever its other fields hold. ILL passes every check, raises ILLEGAL_INSTR in the lanes of its path
whatever its guard, and at handler privilege that is a double trap, which raises the halt line (R232). -/
def Obligations.IllegalWord : Prop :=
  (∀ w : BitVec 96, cut 89 7 w = 0x7F → ∃ k fn a b c, decodeWord w = .ok (.ill k fn a b c)) ∧
  (∀ k fn a b c, encode (.ill k fn a b c) ≠ none) ∧
  ∀ (k : Ctl) (fn : BitVec 12) (a b c : BitVec 22),
    (∀ handler super, (Instr.ill k fn a b c).check handler super = none) ∧
    (∀ (s : State) (is : Issue), s.issuer = .warp is →
      exec (.ill k fn a b c) s = .next (settle s (s.takeTrap is (.plain .illegalInstr is.lanes) false))) ∧
    (∀ (s : State) (is : Issue) (gr : Group) (w : Warp), s.issuer = .warp is → s.group? is.g = some gr →
      gr.warps[is.w]? = some w → w.handler.isSome = true →
      ∃ info : FaultInfo, info.cause = 0x01 ∧ info.lanes = is.lanes ∧ info.pc = is.pc.toNat ∧
        exec (.ill k fn a b c) s = .next (settle s ((s.modWarp is.g is.w (fun w => { w with skid := w.skid + 64 })).raiseHalt
          gr.ctx (.core gr.core) info false)))

/-- PREF takes its offset's high bits from FN[11:8], refuses other FN bits and an A, and leaves nothing behind that a program can observe:
with whatever address and whatever latches, it completes without an access (R113). -/
def Obligations.Prefetch : Prop :=
  (∀ f : Fields, f.op = 0x5D →
    (cut 0 8 f.fn ≠ 0 → ∃ r, decodeFields f = .error r) ∧
    (∀ i, decodeFields f = .ok i → ∃ b, Operand.decode f.b = .ok b ∧ f.a = 0 ∧ cut 20 2 f.c = 2 ∧
      i = .pref f.ctl (cut 8 4 f.fn ++ cut 0 20 f.c) b) ∧
    (∀ b, Operand.decode f.b = .ok b → cut 0 8 f.fn = 0 → f.a = 0 → cut 20 2 f.c = 2 →
      decodeFields f = .ok (.pref f.ctl (cut 8 4 f.fn ++ cut 0 20 f.c) b))) ∧
  ∀ (k : Ctl) (off : BitVec 24) (b : Operand),
    BothDo (.pref k off b) (fun v => { st := v.s }) (fun h => { st := h.s })

/-- AND, OR and XOR: FN[4] is NC, FN[3:0] gives 32 or 64 bits and every other FN bit is 0; A becomes B op C, or B op not C, in both forms,
and a KIND 10 C is sign-extended (R142). -/
def Obligations.BitwiseLogic : Prop :=
  (∀ f : Fields, f.op = 0x10 ∨ f.op = 0x11 ∨ f.op = 0x12 →
    (cut 5 7 f.fn ≠ 0 ∨ (cut 0 4 f.fn ≠ 0b0011 ∧ cut 0 4 f.fn ≠ 0b0100) → ∃ r, decodeFields f = .error r) ∧
    ∀ a b c, Operand.decode f.a = .ok a → Operand.decode f.b = .ok b → Operand.decode f.c = .ok c →
      ∀ w64 : Bool, cut 5 7 f.fn = 0 → cut 0 4 f.fn = (if w64 then 0b0100 else 0b0011) →
        decodeFields f = .ok ((if f.op = 0x10 then Instr.and else if f.op = 0x11 then Instr.or else Instr.xor)
          f.ctl (tap f.fn 4) w64 a b c)) ∧
  (∀ (k : Ctl) (nc w64 : Bool) (a b c : Operand),
    GivesLogic (.and k nc w64 a b c) w64 (fun x y _ => x &&& (if nc then ~~~y else y)) a b c ∧
    GivesLogic (.or k nc w64 a b c) w64 (fun x y _ => x ||| (if nc then ~~~y else y)) a b c ∧
    GivesLogic (.xor k nc w64 a b c) w64 (fun x y _ => x ^^^ (if nc then ~~~y else y)) a b c) ∧
  (∀ (v : WarpView) (h : HallView) (x : BitVec 20) (l : Nat),
    v.logicSrc true (.imm x) l = x.signExtend 64 ∧
    (v.logicSrc false (.imm x) l).setWidth 32 = x.signExtend 32 ∧ h.r64 true (.imm x) = x.signExtend 64)

/-! ### A step of the machine -/

/-- A step runs the instruction that its agent has come to: a Hall fetches and decodes at its PC and executes a Hall instruction or
forwards any other; a warp takes its next decision-queue entry, or where it fetches for itself the word at the PC of the path that
issues; an access program fetches at its own PC; any other turn is the event itself. What a step stores leaves through its outbox, so
the instruction meets memory as the step found it (R32, R47, R64, R65, R68, R323).
The model's readings that it rests on are log entries 4, 6, 68, 70 and 71. -/
def Obligations.StepRunsDecoded : Prop :=
  (∀ (s s1 s2 s3 : State) (g : Nat) (gr : Group) (c : Ctx) (bs : List Byte) (i : Instr),
    s.nextTurn = (.hall g, s1) → s1.takePlace (.hall g) g = (s2, true) → s2.group? g = some gr →
    s2.ctx? gr.ctx = some c → s2.hallReady gr = true → s2.scalarPends gr (· == hallCheck) = false →
    s2.fetchBytes c gr.core 2 (gr.codeAddr gr.hall.pc) 12 = (s3, .ok bs) → decodeBytes bs = .ok i →
    i.check false gr.image.super = none →
    ((i.isHall || hallJump i) = true → step s = exec i { s3 with issuer := .hall g, mem := s1.mem }) ∧
    ((i.isHall || hallJump i) = false → gr.queueFull = false → s3.hallPends gr i = false →
      (regionBranch i && s3.scalarPends gr (fun _ => true)) = false →
      s3.forwardTrap gr i = none →
      step s = .next (settle s1 (s3.modGroup g (fun gr => gr.prune.forward i (s3.vtimeOf gr.ctx)))))) ∧
  (∀ (s s1 s2 : State) (g n : Nat) (gr : Group) (w : Warp) (e : Entry),
    s.nextTurn = (.warp g n, s1) → s1.takePlace (.warp g n) g = (s2, true) → s2.group? g = some gr →
    gr.warps[n]? = some w → gr.resident = true → s2.silent gr = false → w.isLive = true → s2.skidDone gr w = false →
    w.watchdog = false → w.selfFetching = false → s2.turnLanes gr w &&& w.liveLanes (fun t => !t.skip) = w.liveMask →
    s2.entryYoung gr w = false →
    gr.queue[w.rp - gr.queueBase]? = some e →
    step s = exec e.instr { s2.countSkid gr n with
      issuer := .warp ⟨g, n, w.liveMask, e.pc, e.scalars, e.guard, true, e.meet, e.link⟩, mem := s1.mem }) ∧
  (∀ (s s1 s2 s3 : State) (g n slice : Nat) (gr : Group) (w : Warp) (c : Ctx) (gang : Mask) (bs : List Byte) (i : Instr),
    s.nextTurn = (.warp g n, s1) → s1.takePlace (.warp g n) g = (s2, true) → s2.group? g = some gr →
    s2.ctx? gr.ctx = some c → gr.warps[n]? = some w → gr.resident = true → s2.silent gr = false → w.isLive = true →
    s2.skidDone gr w = false → w.watchdog = false → w.selfFetching = true →
    let m := s2.turnLanes gr w &&& w.liveLanes (fun t => !t.skip)
    w.nextGang m = some (slice, gang) →
    (let pc := (w.threads.get ((Mask.lowest gang).getD 0)).pc
     let s4 := s2.modWarp g n (fun x => x.rotate slice gang m)
     s4.fetchBytes c gr.core 2 (gr.codeAddr pc) 12 = (s3, .ok bs) → decodeBytes bs = .ok i →
     i.check (w.privileged gang) gr.image.super = none → (i.isHall || hallJump i) = false →
     step s = exec i { s3.countSkid gr n with
       issuer := .warp ⟨g, n, gang, pc, gr.scalarsFor w,
         i.ctl.guard.ix == 0 || !i.ctl.guard.cond || ((gr.scalarsFor w).cond i.ctl.guard.ix.toNat != i.ctl.guard.neg),
         false, none, none⟩,
       mem := s1.mem })) ∧
  (∀ (s s1 s2 s3 : State) (g p : Nat) (gr : Group) (q : ApProgram) (c : Ctx) (bs : List Byte) (i : Instr),
    s.nextTurn = (.ap g p, s1) → s1.takePlace (.ap g p) g = (s2, true) → s2.group? g = some gr →
    gr.program? p = some q → s2.ctx? gr.ctx = some c → s2.engineRuns gr.ctx (.accessProc gr.core) = true →
    s2.sliceStopped gr (.accessProc gr.core) = false → q.state = .running →
    gr.standing ≠ .preempted → gr.standing ≠ .sliced →
    s2.fetchBytes c gr.core 2 (gr.codeAddr q.pc) 12 = (s3, .ok bs) → decodeBytes bs = .ok i → apCheck i = none →
    step s = exec i { s3 with issuer := .ap g p, mem := s1.mem }) ∧
  (∀ (s s1 : State) (i : Instr), s.nextTurn = (.event i, s1) → step s = exec i s1)

/-- Every step of every state with a memory in canonical form goes on, to a state whose memory has that form and to which nothing is left
to store (log entry 2: what the form is, and that an unlisted byte reads 0, is the model's choice). -/
def Obligations.EveryStepKeepsMemory : Prop :=
  ∀ s : State, s.mem.wf = true → ∃ t, step s = .next t ∧ t.Clean

/-- The memory of the machine right after reset has its canonical form, and nothing is left to store (log entry 2). -/
def Obligations.CleanAtReset : Prop := State.reset.Clean

/-! ### What an instruction leaves as it was -/

/-- For every instruction that a warp may issue: a false condition guard leaves it without effect but counted, or takes
SAFEPOINT_DISTANCE; a pending operand holds it back; an empty shared operand makes the path wait; and a lane takes part only where its
lane guard is true (R34, R74, R81, R204).
The model's readings that it rests on are log entries 20 and 71. -/
def Obligations.GuardsAndWaits : Prop :=
  ∀ (i : Instr) (priv super : Bool) (s : State) (is : Issue) (v : WarpView), i.check priv super = none → i.encoded = true →
    i.isHall = false → i.isIll = false → isTret i = false → s.issuer = .warp is → s.warpView is i.ctl = some v →
    (condOff is i.ctl = true → v.tooFar = 0 → exec i s = .next (settle s (s.passWarp is))) ∧
    (condOff is i.ctl = true → v.tooFar ≠ 0 →
      exec i s = .next (settle s (s.takeTrap is (.plain .safepointDistance v.tooFar) false))) ∧
    (condOff is i.ctl = false → v.blocked i = true → exec i s = .next (settle s s)) ∧
    (condOff is i.ctl = false → v.blocked i = false → v.w.atom = none → v.active ≠ 0 → v.sharedEmpty i ≠ [] →
      (v.inStub = false → exec i s = .next (settle s (s.blockWarp is (.sharedRead (v.sharedEmpty i))))) ∧
      (v.inStub = true → exec i s = .next (settle s (s.takeTrap is (.plain .illegalConvergence is.lanes) false)))) ∧
    (i.ctl.guard.cond = false → i.ctl.guard.ix ≠ 0 → ∀ l, l < 32 →
      v.active.has l = (is.lanes.has l && (v.w.threads.get l).live &&
        (v.w.pred i.ctl.guard.ix.toNat l != i.ctl.guard.neg))) ∧
    (i.ctl.guard.cond = true ∨ i.ctl.guard.ix = 0 → ∀ l, l < 32 →
      v.active.has l = (is.lanes.has l && (v.w.threads.get l).live))

/-- What a warp instruction that writes registers, predicates and sticky flags leaves: memory, every other group, every other warp of its
group, the Hall, the barriers, the scratchpad and the special registers; every register that it neither writes nor frees with a
last-read hint; every predicate that it does not write; of the flags it clears none (R35, R62, R74, R180).
The model's readings that it rests on are log entries 6 and 73. -/
def Obligations.RegisterFrame : Prop :=
  ∀ (s : State) (i : Instr) (v : WarpView) (ws : List RegWrite) (ps : List (Nat × Mask × Mask)) (fs : List (Lanes (BitVec 5))),
    Issuing s i v → s.outbox = [] →
    let t := v.after i { st := s, writes := ws, preds := ps, flags := fs }
    ∃ (gr : Group) (w : Warp), t.group? v.is.g = some gr ∧ gr.warps[v.is.w]? = some w ∧
      t = { s with groups := t.groups, issuer := .none } ∧
      (∀ g, g ≠ v.is.g → t.group? g = s.group? g) ∧
      gr = { v.gr with warps := gr.warps, shared := gr.shared, x := { v.gr.x with waitTimer := 0 } } ∧
      (∀ n, n ≠ v.is.w → gr.warps[n]? = v.gr.warps[n]?) ∧
      w = { v.w with regs := w.regs, threads := w.threads, sinceV := w.sinceV, sinceP := w.sinceP, rp := w.rp,
                     retired := w.retired, gated := w.gated, waits := w.waits, pending := w.pending, atom := none } ∧
      (∀ n, n ∉ ws.map (·.name) → n ∉ v.freed i → gr.reg v.is.w n = v.gr.reg v.is.w n) ∧
      (∀ l, l < 32 →
        let old := v.w.threads.get l
        let new := w.threads.get l
        new = { old with pc := new.pc, dist := new.dist, held := new.held, skip := new.skip, preds := new.preds,
                         flags := new.flags } ∧
        (∀ k, (∀ p ∈ ps, p.1 ≠ k ∨ p.2.1.has l = false) → new.preds.getLsbD k = old.preds.getLsbD k) ∧
        old.flags &&& new.flags = old.flags ∧ (fs = [] → new.flags = old.flags))

/-- What it writes: each destination holds the new bits in the written lanes and its old bits elsewhere, a register that a hint has freed
being 0 before; each predicate holds its new value and p0 still reads 1; the lanes of the path go to PC + 1 and no other lane moves
(R35, R39, R62, R72).
The model's readings that it rests on are log entry 73. -/
def Obligations.RegisterWrites : Prop :=
  ∀ (s : State) (i : Instr) (v : WarpView) (ws : List RegWrite) (ps : List (Nat × Mask × Mask)) (fs : List (Lanes (BitVec 5))),
    Issuing s i v →
    let t := v.after i { st := s, writes := ws, preds := ps, flags := fs }
    ∃ (gr : Group) (w : Warp), t.group? v.is.g = some gr ∧ gr.warps[v.is.w]? = some w ∧
      ((ws.map (·.name)).Nodup → ∀ x ∈ ws, x.lanes ≠ 0 → ∀ l, l < 32 →
        let old := if x.name ∈ v.freed i then 0 else (v.gr.reg v.is.w x.name).get l
        (gr.reg v.is.w x.name).get l =
          if x.lanes.has l then (old &&& ~~~x.bits) ||| (x.vals.get l &&& x.bits) else old) ∧
      ((ps.map (·.1)).Nodup → ∀ p ∈ ps, p.1 ≠ 0 → p.1 < 16 → ∀ l, l < 32 → p.2.1.has l = true → w.pred p.1 l = p.2.2.has l) ∧
      (∀ l, w.pred 0 l = true) ∧
      (∀ l, l < 32 → v.is.lanes.has l = true → (w.threads.get l).pc = v.is.pc + 1) ∧
      (∀ l, l < 32 → v.is.lanes.has l = false → (w.threads.get l).pc = (v.w.threads.get l).pc)

/-- What a Hall instruction and an instruction of an access program leave: everything but their own scalars, conditions, PC and
safe-point bookkeeping; a scalar or condition that is not written is as it was, one that is written holds its value, and c0 still reads
1 (R39, R64, R81, R321).
The model's readings that it rests on are log entry 16. -/
def Obligations.HallFrame : Prop :=
  (∀ (s : State) (i : Instr) (g : Nat) (h : HallView) (ss : List (Nat × DWord)) (cs : List (Nat × Bool)) (pc : Option Word),
    Hallward s i g h → s.outbox = [] →
    let t := settle s ((HallEff.commit { st := s, s := ss, c := cs, pc := pc } g).holdScalars g i h.prior.isSome)
    ∃ gr, t.group? g = some gr ∧ t = { s with groups := t.groups, issuer := .none } ∧
      (∀ g', g' ≠ g → t.group? g' = s.group? g') ∧ gr = { h.gr with hall := gr.hall } ∧
      gr.hall = { h.gr.hall with sc := gr.hall.sc, sinceS := gr.hall.sinceS, sinceC := gr.hall.sinceC, wait := none,
                                 pending := gr.hall.pending, pc := pc.getD (h.gr.hall.pc + 1), dist := h.gr.hall.dist + 1 } ∧
      (∀ n : Fin 64, n.val ∉ ss.map (·.1) → gr.hall.sc.s[n] = h.gr.hall.sc.s[n]) ∧
      (∀ n, n ∉ cs.map (·.1) → gr.hall.sc.cond n = h.gr.hall.sc.cond n) ∧
      ((ss.map (·.1)).Nodup → ∀ x ∈ ss, ∀ n : Fin 64, x.1 = n.val → gr.hall.sc.s[n] = x.2) ∧
      ((cs.map (·.1)).Nodup → ∀ x ∈ cs, x.1 ≠ 0 → x.1 < 16 → gr.hall.sc.cond x.1 = x.2) ∧
      gr.hall.sc.cond 0 = true) ∧
  (∀ (s : State) (i : Instr) (g p : Nat) (h : HallView) (ss : List (Nat × DWord)) (cs : List (Nat × Bool)) (pc : Option Word),
    Apward s i g p h → s.outbox = [] →
    let t := settle s (h.commitAp g p { st := s, s := ss, c := cs, pc := pc })
    ∃ gr q gr', s.group? g = some gr ∧ gr.program? p = some q ∧ t.group? g = some gr' ∧
      t = { s with groups := t.groups, issuer := .none } ∧ (∀ g', g' ≠ g → t.group? g' = s.group? g') ∧
      gr' = { gr with x := { gr.x with programs := gr'.x.programs } } ∧
      (∀ p', p' ≠ p → gr'.program? p' = gr.program? p') ∧
      gr'.program? p = some { q with sc := q.sc.put ss cs, pc := pc.getD (q.pc + 1), stalled := false } ∧
      (∀ n : Fin 64, n.val ∉ ss.map (·.1) → (q.sc.put ss cs).s[n] = q.sc.s[n]) ∧
      (∀ n, n ∉ cs.map (·.1) → (q.sc.put ss cs).cond n = q.sc.cond n))

/-- A committed global store is performed by STORE_PERFORMED alone: its bytes then read as it wrote them and every other byte of memory
reads as before; a commit leaves all of memory and files one entry for each home, with every cell of the store at its own home (R118,
R119).
The model's readings that it rests on are log entry 9. -/
def Obligations.StoresReachMemory : Prop :=
  (∀ (core n : Nat) (s : State) (e : Committed), s.mem.wf = true → s.outbox = [] →
    (s.buffer core)[n]? = some e → mayPerform (s.buffer core) n e = true →
    ∃ t, exec (.storePerformed core n) s = .next t ∧ t.commits = liftVeils [] (performFirst e s.commits) ∧ t.groups = s.groups ∧
      ∀ x, t.peek x = (match e.cells.reverse.find? (fun c => c.1 == x) with
        | some c => c.2
        | none => s.peek x)) ∧
  (∀ (a : Agent) (s : State) (gr : Group) (cells : List (Nat × Host.Cell)) (rel : Option Scope) (rest : List Store),
    s.mem.wf = true → s.outbox = [] → s.group? (agentGroup a) = some gr → s.queueOf a = .global cells rel :: rest →
    (s.setQueue a rest).coreDetermined gr.core = false →
    ∃ t, exec (.storeCommit a) s = .next t ∧ (∀ x, t.peek x = s.peek x) ∧
      t.commits = s.commits ++ splitHomes gr.core gr.ctx a rel cells) ∧
  (∀ (core ctx : Nat) (a : Agent) (rel : Option Scope) (cs : List (Nat × Host.Cell)),
    (∀ c ∈ cs, ∃ e ∈ splitHomes core ctx a rel cs, c.2 ∈ e.cells ∧ e.cls = c.1 ∧ e.home = homeOf c.1 c.2.1) ∧
    (∀ e ∈ splitHomes core ctx a rel cs, e.core = core ∧ e.agent = a ∧
      ∀ x ∈ e.cells, (e.cls, x) ∈ cs ∧ e.home = homeOf e.cls x.1) ∧
    (splitHomes core ctx a rel cs).Pairwise (fun e f => e.home ≠ f.home ∨ e.cls ≠ f.cls))

/-- A recoverable trap writes %cause, %cinfo, %epc and %emask, takes the threads of the path to handler privilege at TRAPVEC with PC and
MEET kept aside, and leaves every other thread, warp, group and all of memory; ACCESS_VIOLATION, UNCORRECTABLE_ECC, a trap at handler
privilege and a trap without TRAPVEC raise the halt line of the context instead, with the cause and the PC in the stop record (R224,
R227 to R229, R18).
The model's readings that it rests on are log entries 18 and 71. -/
def Obligations.TrapEntry : Prop :=
  (∀ (s : State) (i : Issue) (t : Trap) (hf : Bool) (gr : Group) (w : Warp),
    s.outbox = [] → s.group? i.g = some gr → gr.warps[i.w]? = some w →
    t.cause ≠ .accessViolation → t.cause ≠ .uncorrectableEcc → w.handler = none →
    (∀ l, l < 32 → i.lanes.has l = true → (w.threads.get l).live = true → (w.threads.get l).stub = false) →
    s.trapVec gr.ctx ≠ 0 →
    let u := settle s (s.takeTrap i t hf)
    ∃ (gr' : Group) (w' : Warp), u.group? i.g = some gr' ∧ gr'.warps[i.w]? = some w' ∧
      u = { s with groups := u.groups, issuer := .none } ∧ (∀ g, g ≠ i.g → u.group? g = s.group? g) ∧
      gr' = { gr with warps := gr'.warps } ∧ (∀ n, n ≠ i.w → gr'.warps[n]? = gr.warps[n]?) ∧
      w' = { w with threads := w'.threads, handler := w'.handler, waits := w'.waits, cause := BitVec.ofNat 8 t.cause.code,
                    cinfoAddr := t.addr, cinfoMask := t.mask, cinfoKind := t.kind, epc := i.pc, emask := i.lanes } ∧
      (∃ h, w'.handler = some h ∧ h.scalars = i.sc ∧ h.cause = t.cause) ∧
      (∀ l, l < 32 → i.lanes.has l = true →
        w'.threads.get l = { w.threads.get l with handler := true, keptPc := i.pc, keptMeet := (w.threads.get l).meet,
                                                  pc := BitVec.ofNat 32 (s.trapVec gr.ctx), held := false }) ∧
      (∀ l, l < 32 → i.lanes.has l = false → w'.threads.get l = w.threads.get l)) ∧
  (∀ (s : State) (i : Issue) (t : Trap) (hf : Bool) (gr : Group) (w : Warp) (c : Ctx),
    s.group? i.g = some gr → gr.warps[i.w]? = some w → s.ctx? gr.ctx = some c → c.state = .running → c.halt = none →
    t.cause = .accessViolation ∨ t.cause = .uncorrectableEcc ∨ w.handler.isSome = true ∨ s.trapVec gr.ctx = 0 →
    let u := settle s (s.takeTrap i t hf)
    ∃ (c' : Ctx) (h : Halt), u.ctx? gr.ctx = some c' ∧ c'.halt = some h ∧ c' = { c with halt := c'.halt, preempting := none } ∧
      h.first.cause = t.cause.code ∧ h.first.pc = i.pc.toNat ∧ h.first.cinfo = t.addr.toNat ∧
      h.offender = decide (t.cause = .accessViolation) ∧
      (∀ k, k ≠ gr.ctx → u.ctx? k = s.ctx? k) ∧
      (∀ w', u.warp? i.g i.w = some w' → w' = { w with skid := w'.skid }))

/-! ### The map of the stacks -/

/-- The place of an HBM address: its channel, bank group, bank, row, column and byte, from the physical region and the offset in it; two
addresses of a layer of a stack have one place only if their regions share a physical region; a 2 MiB region lies in one channel set and
successive lines rotate across it; and the manual's example (R410). -/
def Obligations.HbmMap : Prop :=
  (∀ (x : Stacks) (pa : Nat),
    let g := x.physical (paStack pa) (paLayer pa) (paRegion pa)
    let at_ := fun (hi lo : Nat) => (pa / 2 ^ lo) % 2 ^ (hi + 1 - lo)
    x.place pa = ⟨8 * (g % 4) + at_ 9 7, at_ 16 15, at_ 14 13, g / 4 * 16 + at_ 20 17, at_ 12 10, at_ 6 0⟩ ∧
    paRegion pa = at_ 31 21 ∧ paStack pa = at_ 36 32 ∧ paLayer pa = at_ 40 37) ∧
  (∀ (x : Stacks) (pa pb : Nat), paStack pa = paStack pb → paLayer pa = paLayer pb → pa / 2 ^ 41 = pb / 2 ^ 41 →
    (x.physical (paStack pa) (paLayer pa) (paRegion pa) = x.physical (paStack pa) (paLayer pa) (paRegion pb) →
      paRegion pa = paRegion pb) → x.place pa = x.place pb → pa = pb) ∧
  (∀ (x : Stacks) (pa pb : Nat), pa / 2 ^ 21 = pb / 2 ^ 21 →
    (x.place pa).channel / 8 = (x.place pb).channel / 8 ∧
    (pb = pa + 128 → (x.place pb).channel % 8 = ((x.place pa).channel + 1) % 8)) ∧
  (let pa := 0x494C36CEC5
   (∀ x : Stacks, x.physical 9 2 609 = 609 → x.place pa = ⟨13, 1, 2, 2443, 3, 0x45⟩) ∧
   (∀ x : Stacks, x.physical 9 2 609 = 1202 → x.place pa = ⟨21, 1, 2, 4811, 3, 0x45⟩))
end

