-- ==== Sys2Proof/Laws/Encoding.lean ====
section
/-! SUPPORT. Field by field, what is packed is read back (R33, R38, R39, R52). -/

namespace Sys2Proof

@[simp] theorem cut_full (x : BitVec n) : cut 0 n x = x := by
  simp [cut, BitVec.extractLsb'_eq_self]

theorem cut_append_low (hi : BitVec m) (lo : BitVec k) (s n : Nat) (h : s + n ≤ k) :
    cut s n (hi ++ lo) = cut s n lo := by
  simp only [cut]
  rw [BitVec.extractLsb'_append_eq_of_add_le h]

theorem cut_append_high (hi : BitVec m) (lo : BitVec k) (s n : Nat) (h : k ≤ s) :
    cut s n (hi ++ lo) = cut (s - k) n hi := by
  simp only [cut]
  rw [BitVec.extractLsb'_append_eq_of_le h]

theorem tap_append_low (hi : BitVec m) (lo : BitVec k) (i : Nat) (h : i < k) : tap (hi ++ lo) i = tap lo i := by
  simp [tap, BitVec.getLsbD_append, h]

theorem tap_append_high (hi : BitVec m) (lo : BitVec k) (i : Nat) (h : k ≤ i) :
    tap (hi ++ lo) i = tap hi (i - k) := by
  simp [tap, BitVec.getLsbD_append, Nat.not_lt.mpr h]

@[simp] theorem tap_bit (b : Bool) : tap (bit b) 0 = b := by cases b <;> rfl

theorem unpack_pack (f : Fields) : Fields.unpack f.pack = f := by
  cases f
  simp (disch := omega) only [Fields.unpack, Fields.pack, cut_append_low, cut_append_high, tap_append_low,
    tap_append_high]
  simp

@[simp] theorem ESel.ofCode_code (e : ESel) : ESel.ofCode e.code = e := by
  rcases e with _ | _ | _ | _ | k | k
  · rfl
  · rfl
  · rfl
  · rfl
  · revert k; decide
  · revert k; decide

@[simp] theorem Perm.ofCode_code (p : Perm) : Perm.ofCode p.code = some p := by cases p <;> rfl

theorem Operand.decode_encode (o : Operand) : Operand.decode o.encode = .ok o := by
  rcases o with ⟨r, e, p, m⟩ | r | v | i | i | n | q | t | b | k <;>
    simp (disch := omega) only [Operand.decode, Operand.encode, cut_append_low, cut_append_high, cut_full] <;>
    simp (decide := true) [cut]

@[simp] theorem opnd_encode (o : Operand) (r : Operand → Except Reject α) : opnd o.encode r = r o := by
  simp only [opnd, Operand.decode_encode]

@[simp] theorem free_zero (r : Except Reject α) : free (0#22) r = r := rfl

@[simp] theorem ctl_enc (k : Ctl) (op : BitVec 7) (fn : BitVec 12) (a b c : BitVec 22) : (enc k op fn a b c).ctl = k := rfl

@[simp] theorem IWidth.ofCode_code (t : IWidth) : IWidth.ofCode t.code = some t := by cases t <;> rfl

@[simp] theorem Rnd.ofCode_code (t : Rnd) : Rnd.ofCode t.code = some t := by cases t <;> rfl

@[simp] theorem Fmt.ofCode_code (t : Fmt) : Fmt.ofCode t.code = some t := by cases t <;> rfl

@[simp] theorem ICmp.ofCode_code (t : ICmp) : ICmp.ofCode t.code = some t := by cases t <;> rfl

@[simp] theorem FCmp.ofCode_code (t : FCmp) : FCmp.ofCode t.code = some t := by cases t <;> rfl

@[simp] theorem PsetOp.ofCode_code (t : PsetOp) : PsetOp.ofCode t.code = some t := by cases t <;> rfl

@[simp] theorem VredOp.ofCode_code (t : VredOp) : VredOp.ofCode t.code = some t := by cases t <;> rfl

@[simp] theorem Scope.ofCode_code (t : Scope) : Scope.ofCode t.code = some t := by cases t <;> rfl

@[simp] theorem MemWidth.ofCode_code (t : MemWidth) : MemWidth.ofCode t.code = some t := by cases t <;> rfl

@[simp] theorem AtomOp.ofCode_code (t : AtomOp) : AtomOp.ofCode t.code = some t := by cases t <;> rfl

@[simp] theorem WaitCond.ofCode_code (t : WaitCond) : WaitCond.ofCode t.code = some t := by cases t <;> rfl

@[simp] theorem CinvScope.ofCode_code (t : CinvScope) : CinvScope.ofCode t.code = some t := by cases t <;> rfl

@[simp] theorem DeqSrc.ofCode_code (t : DeqSrc) : DeqSrc.ofCode t.code = some t := by cases t <;> rfl

@[simp] theorem Fn.ofCode_code (t : Fn) : Fn.ofCode t.code = some t := by cases t <;> rfl

@[simp] theorem Fn2.ofCode_code (t : Fn2) : Fn2.ofCode t.code = some t := by cases t <;> rfl

@[simp] theorem AFmt.ofCode_code (t : AFmt) : AFmt.ofCode t.code = some t := by cases t <;> rfl

@[simp] theorem MmaMode.ofCode_code (t : MmaMode) : MmaMode.ofCode t.code = some t := by cases t <;> rfl

@[simp] theorem MxCv.ofCode_code (t : MxCv) : MxCv.ofCode t.code = some t := by cases t <;> rfl

@[simp] theorem HJoin.ofCode_code (t : HJoin) : HJoin.ofCode t.code = some t := by cases t <;> rfl

@[simp] theorem VoteMode.ofCode_code (t : VoteMode) : VoteMode.ofCode t.code = t := by cases t <;> rfl

@[simp] theorem MemOrder.ofCode_code (t : MemOrder) : MemOrder.ofCode t.code = t := by cases t <;> rfl

@[simp] theorem FenceKind.ofCode_code (t : FenceKind) : FenceKind.ofCode t.code = t := by cases t <;> rfl

@[simp] theorem BFmt.ofCode_code (t : BFmt) : BFmt.ofCode t.code = t := by cases t <;> rfl

@[simp] theorem IntTy.ofCode_code (t : IntTy) : IntTy.ofCode t.code = some t := by
  rcases t with ⟨s, w⟩
  cases s <;> cases w <;> rfl

@[simp] theorem LongTy.ofCode_code (t : LongTy) : LongTy.ofCode t.code = some t := by
  rcases t with ⟨s, w⟩
  cases s <;> cases w <;> rfl

@[simp] theorem w64OfCode_code (w : Bool) : w64OfCode (wCode w) = some w := by cases w <;> rfl

@[simp] theorem wideOfCode_code (w : Bool) : wideOfCode (wideCode w) = some w := by cases w <;> rfl

@[simp] theorem CbMode.ofCode_code (m : CbMode) : CbMode.ofCode m.code = some m := by
  rcases m with j | _
  · revert j
    decide
  · rfl

theorem offLo_kind (o : BitVec 24) : cut 20 2 (offLo o) = 2 := by
  simp (disch := omega) only [offLo, cut_append_high]
  rfl

theorem offHi_offLo (o : BitVec 24) : offHi o ++ cut 0 20 (offLo o) = o := by
  simp (disch := omega) only [offLo, offHi, cut_append_low, cut_full]
  apply BitVec.eq_of_getLsbD_eq
  intro i hi
  simp only [cut, BitVec.getLsbD_append, BitVec.getLsbD_extractLsb']
  split
  · simp_all
  · have : i - 20 < 4 := by omega
    have h : 20 + (i - 20) = i := by omega
    simp [this, h]

theorem off20_kind (o : BitVec 20) : cut 20 2 (off20 o) = 2 := by
  simp (disch := omega) only [off20, cut_append_high]
  rfl

theorem off20_value (o : BitVec 20) : cut 0 20 (off20 o) = o := by
  simp (disch := omega) only [off20, cut_append_low, cut_full]

end Sys2Proof
end

