-- ==== Sys2Proof/Laws/State.lean ====
section
/-! SUPPORT. What each update of the state leaves alone, field by field. -/

namespace Sys2Proof.Machine

/-! ### modGroup -/

@[simp] theorem State.modGroup_agenda (s : State) (g : Nat) (f : Group → Group) : (s.modGroup g f).agenda = s.agenda := rfl
@[simp] theorem State.modGroup_steps (s : State) (g : Nat) (f : Group → Group) : (s.modGroup g f).steps = s.steps := rfl
@[simp] theorem State.modGroup_fresh (s : State) (g : Nat) (f : Group → Group) : (s.modGroup g f).fresh = s.fresh := rfl
@[simp] theorem State.modGroup_issuer (s : State) (g : Nat) (f : Group → Group) : (s.modGroup g f).issuer = s.issuer := rfl
@[simp] theorem State.modGroup_outbox (s : State) (g : Nat) (f : Group → Group) : (s.modGroup g f).outbox = s.outbox := rfl
@[simp] theorem State.modGroup_cycles (s : State) (g : Nat) (f : Group → Group) : (s.modGroup g f).cycles = s.cycles := rfl
@[simp] theorem State.modGroup_mem (s : State) (g : Nat) (f : Group → Group) : (s.modGroup g f).mem = s.mem := rfl
@[simp] theorem State.modGroup_stale (s : State) (g : Nat) (f : Group → Group) : (s.modGroup g f).stale = s.stale := rfl
@[simp] theorem State.modGroup_code (s : State) (g : Nat) (f : Group → Group) : (s.modGroup g f).code = s.code := rfl
@[simp] theorem State.modGroup_commits (s : State) (g : Nat) (f : Group → Group) : (s.modGroup g f).commits = s.commits := rfl
@[simp] theorem State.modGroup_rcbs (s : State) (g : Nat) (f : Group → Group) : (s.modGroup g f).rcbs = s.rcbs := rfl
@[simp] theorem State.modGroup_latches (s : State) (g : Nat) (f : Group → Group) : (s.modGroup g f).latches = s.latches := rfl
@[simp] theorem State.modGroup_latchWaits (s : State) (g : Nat) (f : Group → Group) : (s.modGroup g f).latchWaits = s.latchWaits := rfl
@[simp] theorem State.modGroup_ctxs (s : State) (g : Nat) (f : Group → Group) : (s.modGroup g f).ctxs = s.ctxs := rfl
@[simp] theorem State.modGroup_nextId (s : State) (g : Nat) (f : Group → Group) : (s.modGroup g f).nextId = s.nextId := rfl
@[simp] theorem State.modGroup_turns (s : State) (g : Nat) (f : Group → Group) : (s.modGroup g f).turns = s.turns := rfl
@[simp] theorem State.modGroup_sfu (s : State) (g : Nat) (f : Group → Group) : (s.modGroup g f).sfu = s.sfu := rfl
@[simp] theorem State.modGroup_nests (s : State) (g : Nat) (f : Group → Group) : (s.modGroup g f).nests = s.nests := rfl
@[simp] theorem State.modGroup_rewrites (s : State) (g : Nat) (f : Group → Group) : (s.modGroup g f).rewrites = s.rewrites := rfl
@[simp] theorem State.modGroup_pipes (s : State) (g : Nat) (f : Group → Group) : (s.modGroup g f).pipes = s.pipes := rfl
@[simp] theorem State.modGroup_insts (s : State) (g : Nat) (f : Group → Group) : (s.modGroup g f).insts = s.insts := rfl
@[simp] theorem State.modGroup_tiles (s : State) (g : Nat) (f : Group → Group) : (s.modGroup g f).tiles = s.tiles := rfl
@[simp] theorem State.modGroup_commands (s : State) (g : Nat) (f : Group → Group) : (s.modGroup g f).commands = s.commands := rfl
@[simp] theorem State.modGroup_keys (s : State) (g : Nat) (f : Group → Group) : (s.modGroup g f).keys = s.keys := rfl
@[simp] theorem State.modGroup_tileWaits (s : State) (g : Nat) (f : Group → Group) : (s.modGroup g f).tileWaits = s.tileWaits := rfl
@[simp] theorem State.modGroup_passed (s : State) (g : Nat) (f : Group → Group) : (s.modGroup g f).passed = s.passed := rfl
@[simp] theorem State.modGroup_fabric (s : State) (g : Nat) (f : Group → Group) : (s.modGroup g f).fabric = s.fabric := rfl
@[simp] theorem State.modGroup_stacks (s : State) (g : Nat) (f : Group → Group) : (s.modGroup g f).hbm = s.hbm := rfl
@[simp] theorem State.modGroup_cellar (s : State) (g : Nat) (f : Group → Group) : (s.modGroup g f).cellar = s.cellar := rfl

/-! ### modX -/

@[simp] theorem State.modX_agenda (s : State) (g : Nat) (f : GroupExtra → GroupExtra) : (s.modX g f).agenda = s.agenda := rfl
@[simp] theorem State.modX_steps (s : State) (g : Nat) (f : GroupExtra → GroupExtra) : (s.modX g f).steps = s.steps := rfl
@[simp] theorem State.modX_fresh (s : State) (g : Nat) (f : GroupExtra → GroupExtra) : (s.modX g f).fresh = s.fresh := rfl
@[simp] theorem State.modX_issuer (s : State) (g : Nat) (f : GroupExtra → GroupExtra) : (s.modX g f).issuer = s.issuer := rfl
@[simp] theorem State.modX_outbox (s : State) (g : Nat) (f : GroupExtra → GroupExtra) : (s.modX g f).outbox = s.outbox := rfl
@[simp] theorem State.modX_cycles (s : State) (g : Nat) (f : GroupExtra → GroupExtra) : (s.modX g f).cycles = s.cycles := rfl
@[simp] theorem State.modX_mem (s : State) (g : Nat) (f : GroupExtra → GroupExtra) : (s.modX g f).mem = s.mem := rfl
@[simp] theorem State.modX_stale (s : State) (g : Nat) (f : GroupExtra → GroupExtra) : (s.modX g f).stale = s.stale := rfl
@[simp] theorem State.modX_code (s : State) (g : Nat) (f : GroupExtra → GroupExtra) : (s.modX g f).code = s.code := rfl
@[simp] theorem State.modX_commits (s : State) (g : Nat) (f : GroupExtra → GroupExtra) : (s.modX g f).commits = s.commits := rfl
@[simp] theorem State.modX_rcbs (s : State) (g : Nat) (f : GroupExtra → GroupExtra) : (s.modX g f).rcbs = s.rcbs := rfl
@[simp] theorem State.modX_latches (s : State) (g : Nat) (f : GroupExtra → GroupExtra) : (s.modX g f).latches = s.latches := rfl
@[simp] theorem State.modX_latchWaits (s : State) (g : Nat) (f : GroupExtra → GroupExtra) : (s.modX g f).latchWaits = s.latchWaits := rfl
@[simp] theorem State.modX_ctxs (s : State) (g : Nat) (f : GroupExtra → GroupExtra) : (s.modX g f).ctxs = s.ctxs := rfl
@[simp] theorem State.modX_nextId (s : State) (g : Nat) (f : GroupExtra → GroupExtra) : (s.modX g f).nextId = s.nextId := rfl
@[simp] theorem State.modX_turns (s : State) (g : Nat) (f : GroupExtra → GroupExtra) : (s.modX g f).turns = s.turns := rfl
@[simp] theorem State.modX_sfu (s : State) (g : Nat) (f : GroupExtra → GroupExtra) : (s.modX g f).sfu = s.sfu := rfl
@[simp] theorem State.modX_nests (s : State) (g : Nat) (f : GroupExtra → GroupExtra) : (s.modX g f).nests = s.nests := rfl
@[simp] theorem State.modX_rewrites (s : State) (g : Nat) (f : GroupExtra → GroupExtra) : (s.modX g f).rewrites = s.rewrites := rfl
@[simp] theorem State.modX_pipes (s : State) (g : Nat) (f : GroupExtra → GroupExtra) : (s.modX g f).pipes = s.pipes := rfl
@[simp] theorem State.modX_insts (s : State) (g : Nat) (f : GroupExtra → GroupExtra) : (s.modX g f).insts = s.insts := rfl
@[simp] theorem State.modX_tiles (s : State) (g : Nat) (f : GroupExtra → GroupExtra) : (s.modX g f).tiles = s.tiles := rfl
@[simp] theorem State.modX_commands (s : State) (g : Nat) (f : GroupExtra → GroupExtra) : (s.modX g f).commands = s.commands := rfl
@[simp] theorem State.modX_keys (s : State) (g : Nat) (f : GroupExtra → GroupExtra) : (s.modX g f).keys = s.keys := rfl
@[simp] theorem State.modX_tileWaits (s : State) (g : Nat) (f : GroupExtra → GroupExtra) : (s.modX g f).tileWaits = s.tileWaits := rfl
@[simp] theorem State.modX_passed (s : State) (g : Nat) (f : GroupExtra → GroupExtra) : (s.modX g f).passed = s.passed := rfl
@[simp] theorem State.modX_fabric (s : State) (g : Nat) (f : GroupExtra → GroupExtra) : (s.modX g f).fabric = s.fabric := rfl
@[simp] theorem State.modX_stacks (s : State) (g : Nat) (f : GroupExtra → GroupExtra) : (s.modX g f).hbm = s.hbm := rfl
@[simp] theorem State.modX_cellar (s : State) (g : Nat) (f : GroupExtra → GroupExtra) : (s.modX g f).cellar = s.cellar := rfl

/-! ### modHall -/

@[simp] theorem State.modHall_agenda (s : State) (g : Nat) (f : Hall → Hall) : (s.modHall g f).agenda = s.agenda := rfl
@[simp] theorem State.modHall_steps (s : State) (g : Nat) (f : Hall → Hall) : (s.modHall g f).steps = s.steps := rfl
@[simp] theorem State.modHall_fresh (s : State) (g : Nat) (f : Hall → Hall) : (s.modHall g f).fresh = s.fresh := rfl
@[simp] theorem State.modHall_issuer (s : State) (g : Nat) (f : Hall → Hall) : (s.modHall g f).issuer = s.issuer := rfl
@[simp] theorem State.modHall_outbox (s : State) (g : Nat) (f : Hall → Hall) : (s.modHall g f).outbox = s.outbox := rfl
@[simp] theorem State.modHall_cycles (s : State) (g : Nat) (f : Hall → Hall) : (s.modHall g f).cycles = s.cycles := rfl
@[simp] theorem State.modHall_mem (s : State) (g : Nat) (f : Hall → Hall) : (s.modHall g f).mem = s.mem := rfl
@[simp] theorem State.modHall_stale (s : State) (g : Nat) (f : Hall → Hall) : (s.modHall g f).stale = s.stale := rfl
@[simp] theorem State.modHall_code (s : State) (g : Nat) (f : Hall → Hall) : (s.modHall g f).code = s.code := rfl
@[simp] theorem State.modHall_commits (s : State) (g : Nat) (f : Hall → Hall) : (s.modHall g f).commits = s.commits := rfl
@[simp] theorem State.modHall_rcbs (s : State) (g : Nat) (f : Hall → Hall) : (s.modHall g f).rcbs = s.rcbs := rfl
@[simp] theorem State.modHall_latches (s : State) (g : Nat) (f : Hall → Hall) : (s.modHall g f).latches = s.latches := rfl
@[simp] theorem State.modHall_latchWaits (s : State) (g : Nat) (f : Hall → Hall) : (s.modHall g f).latchWaits = s.latchWaits := rfl
@[simp] theorem State.modHall_ctxs (s : State) (g : Nat) (f : Hall → Hall) : (s.modHall g f).ctxs = s.ctxs := rfl
@[simp] theorem State.modHall_nextId (s : State) (g : Nat) (f : Hall → Hall) : (s.modHall g f).nextId = s.nextId := rfl
@[simp] theorem State.modHall_turns (s : State) (g : Nat) (f : Hall → Hall) : (s.modHall g f).turns = s.turns := rfl
@[simp] theorem State.modHall_sfu (s : State) (g : Nat) (f : Hall → Hall) : (s.modHall g f).sfu = s.sfu := rfl
@[simp] theorem State.modHall_nests (s : State) (g : Nat) (f : Hall → Hall) : (s.modHall g f).nests = s.nests := rfl
@[simp] theorem State.modHall_rewrites (s : State) (g : Nat) (f : Hall → Hall) : (s.modHall g f).rewrites = s.rewrites := rfl
@[simp] theorem State.modHall_pipes (s : State) (g : Nat) (f : Hall → Hall) : (s.modHall g f).pipes = s.pipes := rfl
@[simp] theorem State.modHall_insts (s : State) (g : Nat) (f : Hall → Hall) : (s.modHall g f).insts = s.insts := rfl
@[simp] theorem State.modHall_tiles (s : State) (g : Nat) (f : Hall → Hall) : (s.modHall g f).tiles = s.tiles := rfl
@[simp] theorem State.modHall_commands (s : State) (g : Nat) (f : Hall → Hall) : (s.modHall g f).commands = s.commands := rfl
@[simp] theorem State.modHall_keys (s : State) (g : Nat) (f : Hall → Hall) : (s.modHall g f).keys = s.keys := rfl
@[simp] theorem State.modHall_tileWaits (s : State) (g : Nat) (f : Hall → Hall) : (s.modHall g f).tileWaits = s.tileWaits := rfl
@[simp] theorem State.modHall_passed (s : State) (g : Nat) (f : Hall → Hall) : (s.modHall g f).passed = s.passed := rfl
@[simp] theorem State.modHall_fabric (s : State) (g : Nat) (f : Hall → Hall) : (s.modHall g f).fabric = s.fabric := rfl
@[simp] theorem State.modHall_stacks (s : State) (g : Nat) (f : Hall → Hall) : (s.modHall g f).hbm = s.hbm := rfl
@[simp] theorem State.modHall_cellar (s : State) (g : Nat) (f : Hall → Hall) : (s.modHall g f).cellar = s.cellar := rfl

/-! ### modWarp -/

@[simp] theorem State.modWarp_agenda (s : State) (g w : Nat) (f : Warp → Warp) : (s.modWarp g w f).agenda = s.agenda := rfl
@[simp] theorem State.modWarp_steps (s : State) (g w : Nat) (f : Warp → Warp) : (s.modWarp g w f).steps = s.steps := rfl
@[simp] theorem State.modWarp_fresh (s : State) (g w : Nat) (f : Warp → Warp) : (s.modWarp g w f).fresh = s.fresh := rfl
@[simp] theorem State.modWarp_issuer (s : State) (g w : Nat) (f : Warp → Warp) : (s.modWarp g w f).issuer = s.issuer := rfl
@[simp] theorem State.modWarp_outbox (s : State) (g w : Nat) (f : Warp → Warp) : (s.modWarp g w f).outbox = s.outbox := rfl
@[simp] theorem State.modWarp_cycles (s : State) (g w : Nat) (f : Warp → Warp) : (s.modWarp g w f).cycles = s.cycles := rfl
@[simp] theorem State.modWarp_mem (s : State) (g w : Nat) (f : Warp → Warp) : (s.modWarp g w f).mem = s.mem := rfl
@[simp] theorem State.modWarp_stale (s : State) (g w : Nat) (f : Warp → Warp) : (s.modWarp g w f).stale = s.stale := rfl
@[simp] theorem State.modWarp_code (s : State) (g w : Nat) (f : Warp → Warp) : (s.modWarp g w f).code = s.code := rfl
@[simp] theorem State.modWarp_commits (s : State) (g w : Nat) (f : Warp → Warp) : (s.modWarp g w f).commits = s.commits := rfl
@[simp] theorem State.modWarp_rcbs (s : State) (g w : Nat) (f : Warp → Warp) : (s.modWarp g w f).rcbs = s.rcbs := rfl
@[simp] theorem State.modWarp_latches (s : State) (g w : Nat) (f : Warp → Warp) : (s.modWarp g w f).latches = s.latches := rfl
@[simp] theorem State.modWarp_latchWaits (s : State) (g w : Nat) (f : Warp → Warp) : (s.modWarp g w f).latchWaits = s.latchWaits := rfl
@[simp] theorem State.modWarp_ctxs (s : State) (g w : Nat) (f : Warp → Warp) : (s.modWarp g w f).ctxs = s.ctxs := rfl
@[simp] theorem State.modWarp_nextId (s : State) (g w : Nat) (f : Warp → Warp) : (s.modWarp g w f).nextId = s.nextId := rfl
@[simp] theorem State.modWarp_turns (s : State) (g w : Nat) (f : Warp → Warp) : (s.modWarp g w f).turns = s.turns := rfl
@[simp] theorem State.modWarp_sfu (s : State) (g w : Nat) (f : Warp → Warp) : (s.modWarp g w f).sfu = s.sfu := rfl
@[simp] theorem State.modWarp_nests (s : State) (g w : Nat) (f : Warp → Warp) : (s.modWarp g w f).nests = s.nests := rfl
@[simp] theorem State.modWarp_rewrites (s : State) (g w : Nat) (f : Warp → Warp) : (s.modWarp g w f).rewrites = s.rewrites := rfl
@[simp] theorem State.modWarp_pipes (s : State) (g w : Nat) (f : Warp → Warp) : (s.modWarp g w f).pipes = s.pipes := rfl
@[simp] theorem State.modWarp_insts (s : State) (g w : Nat) (f : Warp → Warp) : (s.modWarp g w f).insts = s.insts := rfl
@[simp] theorem State.modWarp_tiles (s : State) (g w : Nat) (f : Warp → Warp) : (s.modWarp g w f).tiles = s.tiles := rfl
@[simp] theorem State.modWarp_commands (s : State) (g w : Nat) (f : Warp → Warp) : (s.modWarp g w f).commands = s.commands := rfl
@[simp] theorem State.modWarp_keys (s : State) (g w : Nat) (f : Warp → Warp) : (s.modWarp g w f).keys = s.keys := rfl
@[simp] theorem State.modWarp_tileWaits (s : State) (g w : Nat) (f : Warp → Warp) : (s.modWarp g w f).tileWaits = s.tileWaits := rfl
@[simp] theorem State.modWarp_passed (s : State) (g w : Nat) (f : Warp → Warp) : (s.modWarp g w f).passed = s.passed := rfl
@[simp] theorem State.modWarp_fabric (s : State) (g w : Nat) (f : Warp → Warp) : (s.modWarp g w f).fabric = s.fabric := rfl
@[simp] theorem State.modWarp_stacks (s : State) (g w : Nat) (f : Warp → Warp) : (s.modWarp g w f).hbm = s.hbm := rfl
@[simp] theorem State.modWarp_cellar (s : State) (g w : Nat) (f : Warp → Warp) : (s.modWarp g w f).cellar = s.cellar := rfl

/-! ### modCtx -/

@[simp] theorem State.modCtx_agenda (s : State) (c : Nat) (f : Ctx → Ctx) : (s.modCtx c f).agenda = s.agenda := rfl
@[simp] theorem State.modCtx_steps (s : State) (c : Nat) (f : Ctx → Ctx) : (s.modCtx c f).steps = s.steps := rfl
@[simp] theorem State.modCtx_fresh (s : State) (c : Nat) (f : Ctx → Ctx) : (s.modCtx c f).fresh = s.fresh := rfl
@[simp] theorem State.modCtx_issuer (s : State) (c : Nat) (f : Ctx → Ctx) : (s.modCtx c f).issuer = s.issuer := rfl
@[simp] theorem State.modCtx_outbox (s : State) (c : Nat) (f : Ctx → Ctx) : (s.modCtx c f).outbox = s.outbox := rfl
@[simp] theorem State.modCtx_cycles (s : State) (c : Nat) (f : Ctx → Ctx) : (s.modCtx c f).cycles = s.cycles := rfl
@[simp] theorem State.modCtx_mem (s : State) (c : Nat) (f : Ctx → Ctx) : (s.modCtx c f).mem = s.mem := rfl
@[simp] theorem State.modCtx_stale (s : State) (c : Nat) (f : Ctx → Ctx) : (s.modCtx c f).stale = s.stale := rfl
@[simp] theorem State.modCtx_code (s : State) (c : Nat) (f : Ctx → Ctx) : (s.modCtx c f).code = s.code := rfl
@[simp] theorem State.modCtx_commits (s : State) (c : Nat) (f : Ctx → Ctx) : (s.modCtx c f).commits = s.commits := rfl
@[simp] theorem State.modCtx_rcbs (s : State) (c : Nat) (f : Ctx → Ctx) : (s.modCtx c f).rcbs = s.rcbs := rfl
@[simp] theorem State.modCtx_latches (s : State) (c : Nat) (f : Ctx → Ctx) : (s.modCtx c f).latches = s.latches := rfl
@[simp] theorem State.modCtx_latchWaits (s : State) (c : Nat) (f : Ctx → Ctx) : (s.modCtx c f).latchWaits = s.latchWaits := rfl
@[simp] theorem State.modCtx_groups (s : State) (c : Nat) (f : Ctx → Ctx) : (s.modCtx c f).groups = s.groups := rfl
@[simp] theorem State.modCtx_nextId (s : State) (c : Nat) (f : Ctx → Ctx) : (s.modCtx c f).nextId = s.nextId := rfl
@[simp] theorem State.modCtx_turns (s : State) (c : Nat) (f : Ctx → Ctx) : (s.modCtx c f).turns = s.turns := rfl
@[simp] theorem State.modCtx_sfu (s : State) (c : Nat) (f : Ctx → Ctx) : (s.modCtx c f).sfu = s.sfu := rfl
@[simp] theorem State.modCtx_nests (s : State) (c : Nat) (f : Ctx → Ctx) : (s.modCtx c f).nests = s.nests := rfl
@[simp] theorem State.modCtx_rewrites (s : State) (c : Nat) (f : Ctx → Ctx) : (s.modCtx c f).rewrites = s.rewrites := rfl
@[simp] theorem State.modCtx_pipes (s : State) (c : Nat) (f : Ctx → Ctx) : (s.modCtx c f).pipes = s.pipes := rfl
@[simp] theorem State.modCtx_insts (s : State) (c : Nat) (f : Ctx → Ctx) : (s.modCtx c f).insts = s.insts := rfl
@[simp] theorem State.modCtx_tiles (s : State) (c : Nat) (f : Ctx → Ctx) : (s.modCtx c f).tiles = s.tiles := rfl
@[simp] theorem State.modCtx_commands (s : State) (c : Nat) (f : Ctx → Ctx) : (s.modCtx c f).commands = s.commands := rfl
@[simp] theorem State.modCtx_keys (s : State) (c : Nat) (f : Ctx → Ctx) : (s.modCtx c f).keys = s.keys := rfl
@[simp] theorem State.modCtx_tileWaits (s : State) (c : Nat) (f : Ctx → Ctx) : (s.modCtx c f).tileWaits = s.tileWaits := rfl
@[simp] theorem State.modCtx_passed (s : State) (c : Nat) (f : Ctx → Ctx) : (s.modCtx c f).passed = s.passed := rfl
@[simp] theorem State.modCtx_fabric (s : State) (c : Nat) (f : Ctx → Ctx) : (s.modCtx c f).fabric = s.fabric := rfl
@[simp] theorem State.modCtx_stacks (s : State) (c : Nat) (f : Ctx → Ctx) : (s.modCtx c f).hbm = s.hbm := rfl
@[simp] theorem State.modCtx_cellar (s : State) (c : Nat) (f : Ctx → Ctx) : (s.modCtx c f).cellar = s.cellar := rfl

/-! ### modNest -/

@[simp] theorem State.modNest_agenda (s : State) (c h : Nat) (f : Nest → Nest) : (s.modNest c h f).agenda = s.agenda := rfl
@[simp] theorem State.modNest_steps (s : State) (c h : Nat) (f : Nest → Nest) : (s.modNest c h f).steps = s.steps := rfl
@[simp] theorem State.modNest_fresh (s : State) (c h : Nat) (f : Nest → Nest) : (s.modNest c h f).fresh = s.fresh := rfl
@[simp] theorem State.modNest_issuer (s : State) (c h : Nat) (f : Nest → Nest) : (s.modNest c h f).issuer = s.issuer := rfl
@[simp] theorem State.modNest_outbox (s : State) (c h : Nat) (f : Nest → Nest) : (s.modNest c h f).outbox = s.outbox := rfl
@[simp] theorem State.modNest_cycles (s : State) (c h : Nat) (f : Nest → Nest) : (s.modNest c h f).cycles = s.cycles := rfl
@[simp] theorem State.modNest_mem (s : State) (c h : Nat) (f : Nest → Nest) : (s.modNest c h f).mem = s.mem := rfl
@[simp] theorem State.modNest_stale (s : State) (c h : Nat) (f : Nest → Nest) : (s.modNest c h f).stale = s.stale := rfl
@[simp] theorem State.modNest_code (s : State) (c h : Nat) (f : Nest → Nest) : (s.modNest c h f).code = s.code := rfl
@[simp] theorem State.modNest_commits (s : State) (c h : Nat) (f : Nest → Nest) : (s.modNest c h f).commits = s.commits := rfl
@[simp] theorem State.modNest_rcbs (s : State) (c h : Nat) (f : Nest → Nest) : (s.modNest c h f).rcbs = s.rcbs := rfl
@[simp] theorem State.modNest_latches (s : State) (c h : Nat) (f : Nest → Nest) : (s.modNest c h f).latches = s.latches := rfl
@[simp] theorem State.modNest_latchWaits (s : State) (c h : Nat) (f : Nest → Nest) : (s.modNest c h f).latchWaits = s.latchWaits := rfl
@[simp] theorem State.modNest_ctxs (s : State) (c h : Nat) (f : Nest → Nest) : (s.modNest c h f).ctxs = s.ctxs := rfl
@[simp] theorem State.modNest_groups (s : State) (c h : Nat) (f : Nest → Nest) : (s.modNest c h f).groups = s.groups := rfl
@[simp] theorem State.modNest_nextId (s : State) (c h : Nat) (f : Nest → Nest) : (s.modNest c h f).nextId = s.nextId := rfl
@[simp] theorem State.modNest_turns (s : State) (c h : Nat) (f : Nest → Nest) : (s.modNest c h f).turns = s.turns := rfl
@[simp] theorem State.modNest_sfu (s : State) (c h : Nat) (f : Nest → Nest) : (s.modNest c h f).sfu = s.sfu := rfl
@[simp] theorem State.modNest_rewrites (s : State) (c h : Nat) (f : Nest → Nest) : (s.modNest c h f).rewrites = s.rewrites := rfl
@[simp] theorem State.modNest_pipes (s : State) (c h : Nat) (f : Nest → Nest) : (s.modNest c h f).pipes = s.pipes := rfl
@[simp] theorem State.modNest_insts (s : State) (c h : Nat) (f : Nest → Nest) : (s.modNest c h f).insts = s.insts := rfl
@[simp] theorem State.modNest_tiles (s : State) (c h : Nat) (f : Nest → Nest) : (s.modNest c h f).tiles = s.tiles := rfl
@[simp] theorem State.modNest_commands (s : State) (c h : Nat) (f : Nest → Nest) : (s.modNest c h f).commands = s.commands := rfl
@[simp] theorem State.modNest_keys (s : State) (c h : Nat) (f : Nest → Nest) : (s.modNest c h f).keys = s.keys := rfl
@[simp] theorem State.modNest_tileWaits (s : State) (c h : Nat) (f : Nest → Nest) : (s.modNest c h f).tileWaits = s.tileWaits := rfl
@[simp] theorem State.modNest_passed (s : State) (c h : Nat) (f : Nest → Nest) : (s.modNest c h f).passed = s.passed := rfl
@[simp] theorem State.modNest_fabric (s : State) (c h : Nat) (f : Nest → Nest) : (s.modNest c h f).fabric = s.fabric := rfl
@[simp] theorem State.modNest_stacks (s : State) (c h : Nat) (f : Nest → Nest) : (s.modNest c h f).hbm = s.hbm := rfl
@[simp] theorem State.modNest_cellar (s : State) (c h : Nat) (f : Nest → Nest) : (s.modNest c h f).cellar = s.cellar := rfl

/-! ### modInst -/

@[simp] theorem State.modInst_agenda (s : State) (c h : Nat) (f : HInst → HInst) : (s.modInst c h f).agenda = s.agenda := rfl
@[simp] theorem State.modInst_steps (s : State) (c h : Nat) (f : HInst → HInst) : (s.modInst c h f).steps = s.steps := rfl
@[simp] theorem State.modInst_fresh (s : State) (c h : Nat) (f : HInst → HInst) : (s.modInst c h f).fresh = s.fresh := rfl
@[simp] theorem State.modInst_issuer (s : State) (c h : Nat) (f : HInst → HInst) : (s.modInst c h f).issuer = s.issuer := rfl
@[simp] theorem State.modInst_outbox (s : State) (c h : Nat) (f : HInst → HInst) : (s.modInst c h f).outbox = s.outbox := rfl
@[simp] theorem State.modInst_cycles (s : State) (c h : Nat) (f : HInst → HInst) : (s.modInst c h f).cycles = s.cycles := rfl
@[simp] theorem State.modInst_mem (s : State) (c h : Nat) (f : HInst → HInst) : (s.modInst c h f).mem = s.mem := rfl
@[simp] theorem State.modInst_stale (s : State) (c h : Nat) (f : HInst → HInst) : (s.modInst c h f).stale = s.stale := rfl
@[simp] theorem State.modInst_code (s : State) (c h : Nat) (f : HInst → HInst) : (s.modInst c h f).code = s.code := rfl
@[simp] theorem State.modInst_commits (s : State) (c h : Nat) (f : HInst → HInst) : (s.modInst c h f).commits = s.commits := rfl
@[simp] theorem State.modInst_rcbs (s : State) (c h : Nat) (f : HInst → HInst) : (s.modInst c h f).rcbs = s.rcbs := rfl
@[simp] theorem State.modInst_latches (s : State) (c h : Nat) (f : HInst → HInst) : (s.modInst c h f).latches = s.latches := rfl
@[simp] theorem State.modInst_latchWaits (s : State) (c h : Nat) (f : HInst → HInst) : (s.modInst c h f).latchWaits = s.latchWaits := rfl
@[simp] theorem State.modInst_ctxs (s : State) (c h : Nat) (f : HInst → HInst) : (s.modInst c h f).ctxs = s.ctxs := rfl
@[simp] theorem State.modInst_groups (s : State) (c h : Nat) (f : HInst → HInst) : (s.modInst c h f).groups = s.groups := rfl
@[simp] theorem State.modInst_nextId (s : State) (c h : Nat) (f : HInst → HInst) : (s.modInst c h f).nextId = s.nextId := rfl
@[simp] theorem State.modInst_turns (s : State) (c h : Nat) (f : HInst → HInst) : (s.modInst c h f).turns = s.turns := rfl
@[simp] theorem State.modInst_sfu (s : State) (c h : Nat) (f : HInst → HInst) : (s.modInst c h f).sfu = s.sfu := rfl
@[simp] theorem State.modInst_nests (s : State) (c h : Nat) (f : HInst → HInst) : (s.modInst c h f).nests = s.nests := rfl
@[simp] theorem State.modInst_rewrites (s : State) (c h : Nat) (f : HInst → HInst) : (s.modInst c h f).rewrites = s.rewrites := rfl
@[simp] theorem State.modInst_pipes (s : State) (c h : Nat) (f : HInst → HInst) : (s.modInst c h f).pipes = s.pipes := rfl
@[simp] theorem State.modInst_tiles (s : State) (c h : Nat) (f : HInst → HInst) : (s.modInst c h f).tiles = s.tiles := rfl
@[simp] theorem State.modInst_commands (s : State) (c h : Nat) (f : HInst → HInst) : (s.modInst c h f).commands = s.commands := rfl
@[simp] theorem State.modInst_keys (s : State) (c h : Nat) (f : HInst → HInst) : (s.modInst c h f).keys = s.keys := rfl
@[simp] theorem State.modInst_tileWaits (s : State) (c h : Nat) (f : HInst → HInst) : (s.modInst c h f).tileWaits = s.tileWaits := rfl
@[simp] theorem State.modInst_passed (s : State) (c h : Nat) (f : HInst → HInst) : (s.modInst c h f).passed = s.passed := rfl
@[simp] theorem State.modInst_fabric (s : State) (c h : Nat) (f : HInst → HInst) : (s.modInst c h f).fabric = s.fabric := rfl
@[simp] theorem State.modInst_stacks (s : State) (c h : Nat) (f : HInst → HInst) : (s.modInst c h f).hbm = s.hbm := rfl
@[simp] theorem State.modInst_cellar (s : State) (c h : Nat) (f : HInst → HInst) : (s.modInst c h f).cellar = s.cellar := rfl

/-! ### modPipe -/

@[simp] theorem State.modPipe_agenda (s : State) (c h : Nat) (f : Pipe → Pipe) : (s.modPipe c h f).agenda = s.agenda := rfl
@[simp] theorem State.modPipe_steps (s : State) (c h : Nat) (f : Pipe → Pipe) : (s.modPipe c h f).steps = s.steps := rfl
@[simp] theorem State.modPipe_fresh (s : State) (c h : Nat) (f : Pipe → Pipe) : (s.modPipe c h f).fresh = s.fresh := rfl
@[simp] theorem State.modPipe_issuer (s : State) (c h : Nat) (f : Pipe → Pipe) : (s.modPipe c h f).issuer = s.issuer := rfl
@[simp] theorem State.modPipe_outbox (s : State) (c h : Nat) (f : Pipe → Pipe) : (s.modPipe c h f).outbox = s.outbox := rfl
@[simp] theorem State.modPipe_cycles (s : State) (c h : Nat) (f : Pipe → Pipe) : (s.modPipe c h f).cycles = s.cycles := rfl
@[simp] theorem State.modPipe_mem (s : State) (c h : Nat) (f : Pipe → Pipe) : (s.modPipe c h f).mem = s.mem := rfl
@[simp] theorem State.modPipe_stale (s : State) (c h : Nat) (f : Pipe → Pipe) : (s.modPipe c h f).stale = s.stale := rfl
@[simp] theorem State.modPipe_code (s : State) (c h : Nat) (f : Pipe → Pipe) : (s.modPipe c h f).code = s.code := rfl
@[simp] theorem State.modPipe_commits (s : State) (c h : Nat) (f : Pipe → Pipe) : (s.modPipe c h f).commits = s.commits := rfl
@[simp] theorem State.modPipe_rcbs (s : State) (c h : Nat) (f : Pipe → Pipe) : (s.modPipe c h f).rcbs = s.rcbs := rfl
@[simp] theorem State.modPipe_latches (s : State) (c h : Nat) (f : Pipe → Pipe) : (s.modPipe c h f).latches = s.latches := rfl
@[simp] theorem State.modPipe_latchWaits (s : State) (c h : Nat) (f : Pipe → Pipe) : (s.modPipe c h f).latchWaits = s.latchWaits := rfl
@[simp] theorem State.modPipe_ctxs (s : State) (c h : Nat) (f : Pipe → Pipe) : (s.modPipe c h f).ctxs = s.ctxs := rfl
@[simp] theorem State.modPipe_groups (s : State) (c h : Nat) (f : Pipe → Pipe) : (s.modPipe c h f).groups = s.groups := rfl
@[simp] theorem State.modPipe_nextId (s : State) (c h : Nat) (f : Pipe → Pipe) : (s.modPipe c h f).nextId = s.nextId := rfl
@[simp] theorem State.modPipe_turns (s : State) (c h : Nat) (f : Pipe → Pipe) : (s.modPipe c h f).turns = s.turns := rfl
@[simp] theorem State.modPipe_sfu (s : State) (c h : Nat) (f : Pipe → Pipe) : (s.modPipe c h f).sfu = s.sfu := rfl
@[simp] theorem State.modPipe_nests (s : State) (c h : Nat) (f : Pipe → Pipe) : (s.modPipe c h f).nests = s.nests := rfl
@[simp] theorem State.modPipe_rewrites (s : State) (c h : Nat) (f : Pipe → Pipe) : (s.modPipe c h f).rewrites = s.rewrites := rfl
@[simp] theorem State.modPipe_insts (s : State) (c h : Nat) (f : Pipe → Pipe) : (s.modPipe c h f).insts = s.insts := rfl
@[simp] theorem State.modPipe_tiles (s : State) (c h : Nat) (f : Pipe → Pipe) : (s.modPipe c h f).tiles = s.tiles := rfl
@[simp] theorem State.modPipe_commands (s : State) (c h : Nat) (f : Pipe → Pipe) : (s.modPipe c h f).commands = s.commands := rfl
@[simp] theorem State.modPipe_keys (s : State) (c h : Nat) (f : Pipe → Pipe) : (s.modPipe c h f).keys = s.keys := rfl
@[simp] theorem State.modPipe_tileWaits (s : State) (c h : Nat) (f : Pipe → Pipe) : (s.modPipe c h f).tileWaits = s.tileWaits := rfl
@[simp] theorem State.modPipe_passed (s : State) (c h : Nat) (f : Pipe → Pipe) : (s.modPipe c h f).passed = s.passed := rfl
@[simp] theorem State.modPipe_fabric (s : State) (c h : Nat) (f : Pipe → Pipe) : (s.modPipe c h f).fabric = s.fabric := rfl
@[simp] theorem State.modPipe_stacks (s : State) (c h : Nat) (f : Pipe → Pipe) : (s.modPipe c h f).hbm = s.hbm := rfl
@[simp] theorem State.modPipe_cellar (s : State) (c h : Nat) (f : Pipe → Pipe) : (s.modPipe c h f).cellar = s.cellar := rfl

/-! ### modTile -/

@[simp] theorem State.modTile_agenda (s : State) (k n g : Nat) (f : Tile → Tile) : (s.modTile k n g f).agenda = s.agenda := rfl
@[simp] theorem State.modTile_steps (s : State) (k n g : Nat) (f : Tile → Tile) : (s.modTile k n g f).steps = s.steps := rfl
@[simp] theorem State.modTile_fresh (s : State) (k n g : Nat) (f : Tile → Tile) : (s.modTile k n g f).fresh = s.fresh := rfl
@[simp] theorem State.modTile_issuer (s : State) (k n g : Nat) (f : Tile → Tile) : (s.modTile k n g f).issuer = s.issuer := rfl
@[simp] theorem State.modTile_outbox (s : State) (k n g : Nat) (f : Tile → Tile) : (s.modTile k n g f).outbox = s.outbox := rfl
@[simp] theorem State.modTile_cycles (s : State) (k n g : Nat) (f : Tile → Tile) : (s.modTile k n g f).cycles = s.cycles := rfl
@[simp] theorem State.modTile_mem (s : State) (k n g : Nat) (f : Tile → Tile) : (s.modTile k n g f).mem = s.mem := rfl
@[simp] theorem State.modTile_stale (s : State) (k n g : Nat) (f : Tile → Tile) : (s.modTile k n g f).stale = s.stale := rfl
@[simp] theorem State.modTile_code (s : State) (k n g : Nat) (f : Tile → Tile) : (s.modTile k n g f).code = s.code := rfl
@[simp] theorem State.modTile_commits (s : State) (k n g : Nat) (f : Tile → Tile) : (s.modTile k n g f).commits = s.commits := rfl
@[simp] theorem State.modTile_rcbs (s : State) (k n g : Nat) (f : Tile → Tile) : (s.modTile k n g f).rcbs = s.rcbs := rfl
@[simp] theorem State.modTile_latches (s : State) (k n g : Nat) (f : Tile → Tile) : (s.modTile k n g f).latches = s.latches := rfl
@[simp] theorem State.modTile_latchWaits (s : State) (k n g : Nat) (f : Tile → Tile) : (s.modTile k n g f).latchWaits = s.latchWaits := rfl
@[simp] theorem State.modTile_ctxs (s : State) (k n g : Nat) (f : Tile → Tile) : (s.modTile k n g f).ctxs = s.ctxs := rfl
@[simp] theorem State.modTile_groups (s : State) (k n g : Nat) (f : Tile → Tile) : (s.modTile k n g f).groups = s.groups := rfl
@[simp] theorem State.modTile_nextId (s : State) (k n g : Nat) (f : Tile → Tile) : (s.modTile k n g f).nextId = s.nextId := rfl
@[simp] theorem State.modTile_turns (s : State) (k n g : Nat) (f : Tile → Tile) : (s.modTile k n g f).turns = s.turns := rfl
@[simp] theorem State.modTile_sfu (s : State) (k n g : Nat) (f : Tile → Tile) : (s.modTile k n g f).sfu = s.sfu := rfl
@[simp] theorem State.modTile_nests (s : State) (k n g : Nat) (f : Tile → Tile) : (s.modTile k n g f).nests = s.nests := rfl
@[simp] theorem State.modTile_rewrites (s : State) (k n g : Nat) (f : Tile → Tile) : (s.modTile k n g f).rewrites = s.rewrites := rfl
@[simp] theorem State.modTile_pipes (s : State) (k n g : Nat) (f : Tile → Tile) : (s.modTile k n g f).pipes = s.pipes := rfl
@[simp] theorem State.modTile_insts (s : State) (k n g : Nat) (f : Tile → Tile) : (s.modTile k n g f).insts = s.insts := rfl
@[simp] theorem State.modTile_commands (s : State) (k n g : Nat) (f : Tile → Tile) : (s.modTile k n g f).commands = s.commands := rfl
@[simp] theorem State.modTile_keys (s : State) (k n g : Nat) (f : Tile → Tile) : (s.modTile k n g f).keys = s.keys := rfl
@[simp] theorem State.modTile_tileWaits (s : State) (k n g : Nat) (f : Tile → Tile) : (s.modTile k n g f).tileWaits = s.tileWaits := rfl
@[simp] theorem State.modTile_passed (s : State) (k n g : Nat) (f : Tile → Tile) : (s.modTile k n g f).passed = s.passed := rfl
@[simp] theorem State.modTile_fabric (s : State) (k n g : Nat) (f : Tile → Tile) : (s.modTile k n g f).fabric = s.fabric := rfl
@[simp] theorem State.modTile_stacks (s : State) (k n g : Nat) (f : Tile → Tile) : (s.modTile k n g f).hbm = s.hbm := rfl
@[simp] theorem State.modTile_cellar (s : State) (k n g : Nat) (f : Tile → Tile) : (s.modTile k n g f).cellar = s.cellar := rfl

/-! ### modCommand -/

@[simp] theorem State.modCommand_agenda (s : State) (i : Nat) (f : MatCmd → MatCmd) : (s.modCommand i f).agenda = s.agenda := rfl
@[simp] theorem State.modCommand_steps (s : State) (i : Nat) (f : MatCmd → MatCmd) : (s.modCommand i f).steps = s.steps := rfl
@[simp] theorem State.modCommand_fresh (s : State) (i : Nat) (f : MatCmd → MatCmd) : (s.modCommand i f).fresh = s.fresh := rfl
@[simp] theorem State.modCommand_issuer (s : State) (i : Nat) (f : MatCmd → MatCmd) : (s.modCommand i f).issuer = s.issuer := rfl
@[simp] theorem State.modCommand_outbox (s : State) (i : Nat) (f : MatCmd → MatCmd) : (s.modCommand i f).outbox = s.outbox := rfl
@[simp] theorem State.modCommand_cycles (s : State) (i : Nat) (f : MatCmd → MatCmd) : (s.modCommand i f).cycles = s.cycles := rfl
@[simp] theorem State.modCommand_mem (s : State) (i : Nat) (f : MatCmd → MatCmd) : (s.modCommand i f).mem = s.mem := rfl
@[simp] theorem State.modCommand_stale (s : State) (i : Nat) (f : MatCmd → MatCmd) : (s.modCommand i f).stale = s.stale := rfl
@[simp] theorem State.modCommand_code (s : State) (i : Nat) (f : MatCmd → MatCmd) : (s.modCommand i f).code = s.code := rfl
@[simp] theorem State.modCommand_commits (s : State) (i : Nat) (f : MatCmd → MatCmd) : (s.modCommand i f).commits = s.commits := rfl
@[simp] theorem State.modCommand_rcbs (s : State) (i : Nat) (f : MatCmd → MatCmd) : (s.modCommand i f).rcbs = s.rcbs := rfl
@[simp] theorem State.modCommand_latches (s : State) (i : Nat) (f : MatCmd → MatCmd) : (s.modCommand i f).latches = s.latches := rfl
@[simp] theorem State.modCommand_latchWaits (s : State) (i : Nat) (f : MatCmd → MatCmd) : (s.modCommand i f).latchWaits = s.latchWaits := rfl
@[simp] theorem State.modCommand_ctxs (s : State) (i : Nat) (f : MatCmd → MatCmd) : (s.modCommand i f).ctxs = s.ctxs := rfl
@[simp] theorem State.modCommand_groups (s : State) (i : Nat) (f : MatCmd → MatCmd) : (s.modCommand i f).groups = s.groups := rfl
@[simp] theorem State.modCommand_nextId (s : State) (i : Nat) (f : MatCmd → MatCmd) : (s.modCommand i f).nextId = s.nextId := rfl
@[simp] theorem State.modCommand_turns (s : State) (i : Nat) (f : MatCmd → MatCmd) : (s.modCommand i f).turns = s.turns := rfl
@[simp] theorem State.modCommand_sfu (s : State) (i : Nat) (f : MatCmd → MatCmd) : (s.modCommand i f).sfu = s.sfu := rfl
@[simp] theorem State.modCommand_nests (s : State) (i : Nat) (f : MatCmd → MatCmd) : (s.modCommand i f).nests = s.nests := rfl
@[simp] theorem State.modCommand_rewrites (s : State) (i : Nat) (f : MatCmd → MatCmd) : (s.modCommand i f).rewrites = s.rewrites := rfl
@[simp] theorem State.modCommand_pipes (s : State) (i : Nat) (f : MatCmd → MatCmd) : (s.modCommand i f).pipes = s.pipes := rfl
@[simp] theorem State.modCommand_insts (s : State) (i : Nat) (f : MatCmd → MatCmd) : (s.modCommand i f).insts = s.insts := rfl
@[simp] theorem State.modCommand_tiles (s : State) (i : Nat) (f : MatCmd → MatCmd) : (s.modCommand i f).tiles = s.tiles := rfl
@[simp] theorem State.modCommand_keys (s : State) (i : Nat) (f : MatCmd → MatCmd) : (s.modCommand i f).keys = s.keys := rfl
@[simp] theorem State.modCommand_tileWaits (s : State) (i : Nat) (f : MatCmd → MatCmd) : (s.modCommand i f).tileWaits = s.tileWaits := rfl
@[simp] theorem State.modCommand_passed (s : State) (i : Nat) (f : MatCmd → MatCmd) : (s.modCommand i f).passed = s.passed := rfl
@[simp] theorem State.modCommand_fabric (s : State) (i : Nat) (f : MatCmd → MatCmd) : (s.modCommand i f).fabric = s.fabric := rfl
@[simp] theorem State.modCommand_stacks (s : State) (i : Nat) (f : MatCmd → MatCmd) : (s.modCommand i f).hbm = s.hbm := rfl
@[simp] theorem State.modCommand_cellar (s : State) (i : Nat) (f : MatCmd → MatCmd) : (s.modCommand i f).cellar = s.cellar := rfl

/-! ### modFabric -/

@[simp] theorem State.modFabric_agenda (s : State) (i : Nat) (f : FabCmd → FabCmd) : (s.modFabric i f).agenda = s.agenda := rfl
@[simp] theorem State.modFabric_steps (s : State) (i : Nat) (f : FabCmd → FabCmd) : (s.modFabric i f).steps = s.steps := rfl
@[simp] theorem State.modFabric_fresh (s : State) (i : Nat) (f : FabCmd → FabCmd) : (s.modFabric i f).fresh = s.fresh := rfl
@[simp] theorem State.modFabric_issuer (s : State) (i : Nat) (f : FabCmd → FabCmd) : (s.modFabric i f).issuer = s.issuer := rfl
@[simp] theorem State.modFabric_outbox (s : State) (i : Nat) (f : FabCmd → FabCmd) : (s.modFabric i f).outbox = s.outbox := rfl
@[simp] theorem State.modFabric_cycles (s : State) (i : Nat) (f : FabCmd → FabCmd) : (s.modFabric i f).cycles = s.cycles := rfl
@[simp] theorem State.modFabric_mem (s : State) (i : Nat) (f : FabCmd → FabCmd) : (s.modFabric i f).mem = s.mem := rfl
@[simp] theorem State.modFabric_stale (s : State) (i : Nat) (f : FabCmd → FabCmd) : (s.modFabric i f).stale = s.stale := rfl
@[simp] theorem State.modFabric_code (s : State) (i : Nat) (f : FabCmd → FabCmd) : (s.modFabric i f).code = s.code := rfl
@[simp] theorem State.modFabric_commits (s : State) (i : Nat) (f : FabCmd → FabCmd) : (s.modFabric i f).commits = s.commits := rfl
@[simp] theorem State.modFabric_rcbs (s : State) (i : Nat) (f : FabCmd → FabCmd) : (s.modFabric i f).rcbs = s.rcbs := rfl
@[simp] theorem State.modFabric_latches (s : State) (i : Nat) (f : FabCmd → FabCmd) : (s.modFabric i f).latches = s.latches := rfl
@[simp] theorem State.modFabric_latchWaits (s : State) (i : Nat) (f : FabCmd → FabCmd) : (s.modFabric i f).latchWaits = s.latchWaits := rfl
@[simp] theorem State.modFabric_ctxs (s : State) (i : Nat) (f : FabCmd → FabCmd) : (s.modFabric i f).ctxs = s.ctxs := rfl
@[simp] theorem State.modFabric_groups (s : State) (i : Nat) (f : FabCmd → FabCmd) : (s.modFabric i f).groups = s.groups := rfl
@[simp] theorem State.modFabric_nextId (s : State) (i : Nat) (f : FabCmd → FabCmd) : (s.modFabric i f).nextId = s.nextId := rfl
@[simp] theorem State.modFabric_turns (s : State) (i : Nat) (f : FabCmd → FabCmd) : (s.modFabric i f).turns = s.turns := rfl
@[simp] theorem State.modFabric_sfu (s : State) (i : Nat) (f : FabCmd → FabCmd) : (s.modFabric i f).sfu = s.sfu := rfl
@[simp] theorem State.modFabric_nests (s : State) (i : Nat) (f : FabCmd → FabCmd) : (s.modFabric i f).nests = s.nests := rfl
@[simp] theorem State.modFabric_rewrites (s : State) (i : Nat) (f : FabCmd → FabCmd) : (s.modFabric i f).rewrites = s.rewrites := rfl
@[simp] theorem State.modFabric_pipes (s : State) (i : Nat) (f : FabCmd → FabCmd) : (s.modFabric i f).pipes = s.pipes := rfl
@[simp] theorem State.modFabric_insts (s : State) (i : Nat) (f : FabCmd → FabCmd) : (s.modFabric i f).insts = s.insts := rfl
@[simp] theorem State.modFabric_tiles (s : State) (i : Nat) (f : FabCmd → FabCmd) : (s.modFabric i f).tiles = s.tiles := rfl
@[simp] theorem State.modFabric_commands (s : State) (i : Nat) (f : FabCmd → FabCmd) : (s.modFabric i f).commands = s.commands := rfl
@[simp] theorem State.modFabric_keys (s : State) (i : Nat) (f : FabCmd → FabCmd) : (s.modFabric i f).keys = s.keys := rfl
@[simp] theorem State.modFabric_tileWaits (s : State) (i : Nat) (f : FabCmd → FabCmd) : (s.modFabric i f).tileWaits = s.tileWaits := rfl
@[simp] theorem State.modFabric_passed (s : State) (i : Nat) (f : FabCmd → FabCmd) : (s.modFabric i f).passed = s.passed := rfl
@[simp] theorem State.modFabric_stacks (s : State) (i : Nat) (f : FabCmd → FabCmd) : (s.modFabric i f).hbm = s.hbm := rfl
@[simp] theorem State.modFabric_cellar (s : State) (i : Nat) (f : FabCmd → FabCmd) : (s.modFabric i f).cellar = s.cellar := rfl

/-! ### modStacks -/

@[simp] theorem State.modStacks_agenda (s : State) (f : Stacks → Stacks) : (s.modStacks f).agenda = s.agenda := rfl
@[simp] theorem State.modStacks_steps (s : State) (f : Stacks → Stacks) : (s.modStacks f).steps = s.steps := rfl
@[simp] theorem State.modStacks_fresh (s : State) (f : Stacks → Stacks) : (s.modStacks f).fresh = s.fresh := rfl
@[simp] theorem State.modStacks_issuer (s : State) (f : Stacks → Stacks) : (s.modStacks f).issuer = s.issuer := rfl
@[simp] theorem State.modStacks_outbox (s : State) (f : Stacks → Stacks) : (s.modStacks f).outbox = s.outbox := rfl
@[simp] theorem State.modStacks_cycles (s : State) (f : Stacks → Stacks) : (s.modStacks f).cycles = s.cycles := rfl
@[simp] theorem State.modStacks_mem (s : State) (f : Stacks → Stacks) : (s.modStacks f).mem = s.mem := rfl
@[simp] theorem State.modStacks_stale (s : State) (f : Stacks → Stacks) : (s.modStacks f).stale = s.stale := rfl
@[simp] theorem State.modStacks_code (s : State) (f : Stacks → Stacks) : (s.modStacks f).code = s.code := rfl
@[simp] theorem State.modStacks_commits (s : State) (f : Stacks → Stacks) : (s.modStacks f).commits = s.commits := rfl
@[simp] theorem State.modStacks_rcbs (s : State) (f : Stacks → Stacks) : (s.modStacks f).rcbs = s.rcbs := rfl
@[simp] theorem State.modStacks_latches (s : State) (f : Stacks → Stacks) : (s.modStacks f).latches = s.latches := rfl
@[simp] theorem State.modStacks_latchWaits (s : State) (f : Stacks → Stacks) : (s.modStacks f).latchWaits = s.latchWaits := rfl
@[simp] theorem State.modStacks_ctxs (s : State) (f : Stacks → Stacks) : (s.modStacks f).ctxs = s.ctxs := rfl
@[simp] theorem State.modStacks_groups (s : State) (f : Stacks → Stacks) : (s.modStacks f).groups = s.groups := rfl
@[simp] theorem State.modStacks_nextId (s : State) (f : Stacks → Stacks) : (s.modStacks f).nextId = s.nextId := rfl
@[simp] theorem State.modStacks_turns (s : State) (f : Stacks → Stacks) : (s.modStacks f).turns = s.turns := rfl
@[simp] theorem State.modStacks_sfu (s : State) (f : Stacks → Stacks) : (s.modStacks f).sfu = s.sfu := rfl
@[simp] theorem State.modStacks_nests (s : State) (f : Stacks → Stacks) : (s.modStacks f).nests = s.nests := rfl
@[simp] theorem State.modStacks_rewrites (s : State) (f : Stacks → Stacks) : (s.modStacks f).rewrites = s.rewrites := rfl
@[simp] theorem State.modStacks_pipes (s : State) (f : Stacks → Stacks) : (s.modStacks f).pipes = s.pipes := rfl
@[simp] theorem State.modStacks_insts (s : State) (f : Stacks → Stacks) : (s.modStacks f).insts = s.insts := rfl
@[simp] theorem State.modStacks_tiles (s : State) (f : Stacks → Stacks) : (s.modStacks f).tiles = s.tiles := rfl
@[simp] theorem State.modStacks_commands (s : State) (f : Stacks → Stacks) : (s.modStacks f).commands = s.commands := rfl
@[simp] theorem State.modStacks_keys (s : State) (f : Stacks → Stacks) : (s.modStacks f).keys = s.keys := rfl
@[simp] theorem State.modStacks_tileWaits (s : State) (f : Stacks → Stacks) : (s.modStacks f).tileWaits = s.tileWaits := rfl
@[simp] theorem State.modStacks_passed (s : State) (f : Stacks → Stacks) : (s.modStacks f).passed = s.passed := rfl
@[simp] theorem State.modStacks_fabric (s : State) (f : Stacks → Stacks) : (s.modStacks f).fabric = s.fabric := rfl
@[simp] theorem State.modStacks_cellar (s : State) (f : Stacks → Stacks) : (s.modStacks f).cellar = s.cellar := rfl

/-! ### setKey -/

@[simp] theorem State.setKey_agenda (s : State) (k : KeyRing) : (s.setKey k).agenda = s.agenda := rfl
@[simp] theorem State.setKey_steps (s : State) (k : KeyRing) : (s.setKey k).steps = s.steps := rfl
@[simp] theorem State.setKey_fresh (s : State) (k : KeyRing) : (s.setKey k).fresh = s.fresh := rfl
@[simp] theorem State.setKey_issuer (s : State) (k : KeyRing) : (s.setKey k).issuer = s.issuer := rfl
@[simp] theorem State.setKey_outbox (s : State) (k : KeyRing) : (s.setKey k).outbox = s.outbox := rfl
@[simp] theorem State.setKey_cycles (s : State) (k : KeyRing) : (s.setKey k).cycles = s.cycles := rfl
@[simp] theorem State.setKey_mem (s : State) (k : KeyRing) : (s.setKey k).mem = s.mem := rfl
@[simp] theorem State.setKey_stale (s : State) (k : KeyRing) : (s.setKey k).stale = s.stale := rfl
@[simp] theorem State.setKey_code (s : State) (k : KeyRing) : (s.setKey k).code = s.code := rfl
@[simp] theorem State.setKey_commits (s : State) (k : KeyRing) : (s.setKey k).commits = s.commits := rfl
@[simp] theorem State.setKey_rcbs (s : State) (k : KeyRing) : (s.setKey k).rcbs = s.rcbs := rfl
@[simp] theorem State.setKey_latches (s : State) (k : KeyRing) : (s.setKey k).latches = s.latches := rfl
@[simp] theorem State.setKey_latchWaits (s : State) (k : KeyRing) : (s.setKey k).latchWaits = s.latchWaits := rfl
@[simp] theorem State.setKey_ctxs (s : State) (k : KeyRing) : (s.setKey k).ctxs = s.ctxs := rfl
@[simp] theorem State.setKey_groups (s : State) (k : KeyRing) : (s.setKey k).groups = s.groups := rfl
@[simp] theorem State.setKey_nextId (s : State) (k : KeyRing) : (s.setKey k).nextId = s.nextId := rfl
@[simp] theorem State.setKey_turns (s : State) (k : KeyRing) : (s.setKey k).turns = s.turns := rfl
@[simp] theorem State.setKey_sfu (s : State) (k : KeyRing) : (s.setKey k).sfu = s.sfu := rfl
@[simp] theorem State.setKey_nests (s : State) (k : KeyRing) : (s.setKey k).nests = s.nests := rfl
@[simp] theorem State.setKey_rewrites (s : State) (k : KeyRing) : (s.setKey k).rewrites = s.rewrites := rfl
@[simp] theorem State.setKey_pipes (s : State) (k : KeyRing) : (s.setKey k).pipes = s.pipes := rfl
@[simp] theorem State.setKey_insts (s : State) (k : KeyRing) : (s.setKey k).insts = s.insts := rfl
@[simp] theorem State.setKey_tiles (s : State) (k : KeyRing) : (s.setKey k).tiles = s.tiles := rfl
@[simp] theorem State.setKey_commands (s : State) (k : KeyRing) : (s.setKey k).commands = s.commands := rfl
@[simp] theorem State.setKey_tileWaits (s : State) (k : KeyRing) : (s.setKey k).tileWaits = s.tileWaits := rfl
@[simp] theorem State.setKey_passed (s : State) (k : KeyRing) : (s.setKey k).passed = s.passed := rfl
@[simp] theorem State.setKey_fabric (s : State) (k : KeyRing) : (s.setKey k).fabric = s.fabric := rfl
@[simp] theorem State.setKey_stacks (s : State) (k : KeyRing) : (s.setKey k).hbm = s.hbm := rfl
@[simp] theorem State.setKey_cellar (s : State) (k : KeyRing) : (s.setKey k).cellar = s.cellar := rfl

/-! ### poke -/

@[simp] theorem State.poke_agenda (s : State) (pa : Nat) (b : Byte) : (s.poke pa b).agenda = s.agenda := rfl
@[simp] theorem State.poke_steps (s : State) (pa : Nat) (b : Byte) : (s.poke pa b).steps = s.steps := rfl
@[simp] theorem State.poke_fresh (s : State) (pa : Nat) (b : Byte) : (s.poke pa b).fresh = s.fresh := rfl
@[simp] theorem State.poke_issuer (s : State) (pa : Nat) (b : Byte) : (s.poke pa b).issuer = s.issuer := rfl
@[simp] theorem State.poke_cycles (s : State) (pa : Nat) (b : Byte) : (s.poke pa b).cycles = s.cycles := rfl
@[simp] theorem State.poke_mem (s : State) (pa : Nat) (b : Byte) : (s.poke pa b).mem = s.mem := rfl
@[simp] theorem State.poke_stale (s : State) (pa : Nat) (b : Byte) : (s.poke pa b).stale = s.stale := rfl
@[simp] theorem State.poke_code (s : State) (pa : Nat) (b : Byte) : (s.poke pa b).code = s.code := rfl
@[simp] theorem State.poke_commits (s : State) (pa : Nat) (b : Byte) : (s.poke pa b).commits = s.commits := rfl
@[simp] theorem State.poke_rcbs (s : State) (pa : Nat) (b : Byte) : (s.poke pa b).rcbs = s.rcbs := rfl
@[simp] theorem State.poke_latches (s : State) (pa : Nat) (b : Byte) : (s.poke pa b).latches = s.latches := rfl
@[simp] theorem State.poke_latchWaits (s : State) (pa : Nat) (b : Byte) : (s.poke pa b).latchWaits = s.latchWaits := rfl
@[simp] theorem State.poke_ctxs (s : State) (pa : Nat) (b : Byte) : (s.poke pa b).ctxs = s.ctxs := rfl
@[simp] theorem State.poke_groups (s : State) (pa : Nat) (b : Byte) : (s.poke pa b).groups = s.groups := rfl
@[simp] theorem State.poke_nextId (s : State) (pa : Nat) (b : Byte) : (s.poke pa b).nextId = s.nextId := rfl
@[simp] theorem State.poke_turns (s : State) (pa : Nat) (b : Byte) : (s.poke pa b).turns = s.turns := rfl
@[simp] theorem State.poke_sfu (s : State) (pa : Nat) (b : Byte) : (s.poke pa b).sfu = s.sfu := rfl
@[simp] theorem State.poke_nests (s : State) (pa : Nat) (b : Byte) : (s.poke pa b).nests = s.nests := rfl
@[simp] theorem State.poke_rewrites (s : State) (pa : Nat) (b : Byte) : (s.poke pa b).rewrites = s.rewrites := rfl
@[simp] theorem State.poke_pipes (s : State) (pa : Nat) (b : Byte) : (s.poke pa b).pipes = s.pipes := rfl
@[simp] theorem State.poke_insts (s : State) (pa : Nat) (b : Byte) : (s.poke pa b).insts = s.insts := rfl
@[simp] theorem State.poke_tiles (s : State) (pa : Nat) (b : Byte) : (s.poke pa b).tiles = s.tiles := rfl
@[simp] theorem State.poke_commands (s : State) (pa : Nat) (b : Byte) : (s.poke pa b).commands = s.commands := rfl
@[simp] theorem State.poke_keys (s : State) (pa : Nat) (b : Byte) : (s.poke pa b).keys = s.keys := rfl
@[simp] theorem State.poke_tileWaits (s : State) (pa : Nat) (b : Byte) : (s.poke pa b).tileWaits = s.tileWaits := rfl
@[simp] theorem State.poke_passed (s : State) (pa : Nat) (b : Byte) : (s.poke pa b).passed = s.passed := rfl
@[simp] theorem State.poke_fabric (s : State) (pa : Nat) (b : Byte) : (s.poke pa b).fabric = s.fabric := rfl
@[simp] theorem State.poke_stacks (s : State) (pa : Nat) (b : Byte) : (s.poke pa b).hbm = s.hbm := rfl
@[simp] theorem State.poke_cellar (s : State) (pa : Nat) (b : Byte) : (s.poke pa b).cellar = s.cellar := rfl

/-! ### pokeCells -/

@[simp] theorem State.pokeCells_agenda (s : State) (cs : List Host.Cell) : (s.pokeCells cs).agenda = s.agenda := rfl
@[simp] theorem State.pokeCells_steps (s : State) (cs : List Host.Cell) : (s.pokeCells cs).steps = s.steps := rfl
@[simp] theorem State.pokeCells_fresh (s : State) (cs : List Host.Cell) : (s.pokeCells cs).fresh = s.fresh := rfl
@[simp] theorem State.pokeCells_issuer (s : State) (cs : List Host.Cell) : (s.pokeCells cs).issuer = s.issuer := rfl
@[simp] theorem State.pokeCells_cycles (s : State) (cs : List Host.Cell) : (s.pokeCells cs).cycles = s.cycles := rfl
@[simp] theorem State.pokeCells_mem (s : State) (cs : List Host.Cell) : (s.pokeCells cs).mem = s.mem := rfl
@[simp] theorem State.pokeCells_stale (s : State) (cs : List Host.Cell) : (s.pokeCells cs).stale = s.stale := rfl
@[simp] theorem State.pokeCells_code (s : State) (cs : List Host.Cell) : (s.pokeCells cs).code = s.code := rfl
@[simp] theorem State.pokeCells_commits (s : State) (cs : List Host.Cell) : (s.pokeCells cs).commits = s.commits := rfl
@[simp] theorem State.pokeCells_rcbs (s : State) (cs : List Host.Cell) : (s.pokeCells cs).rcbs = s.rcbs := rfl
@[simp] theorem State.pokeCells_latches (s : State) (cs : List Host.Cell) : (s.pokeCells cs).latches = s.latches := rfl
@[simp] theorem State.pokeCells_latchWaits (s : State) (cs : List Host.Cell) : (s.pokeCells cs).latchWaits = s.latchWaits := rfl
@[simp] theorem State.pokeCells_ctxs (s : State) (cs : List Host.Cell) : (s.pokeCells cs).ctxs = s.ctxs := rfl
@[simp] theorem State.pokeCells_groups (s : State) (cs : List Host.Cell) : (s.pokeCells cs).groups = s.groups := rfl
@[simp] theorem State.pokeCells_nextId (s : State) (cs : List Host.Cell) : (s.pokeCells cs).nextId = s.nextId := rfl
@[simp] theorem State.pokeCells_turns (s : State) (cs : List Host.Cell) : (s.pokeCells cs).turns = s.turns := rfl
@[simp] theorem State.pokeCells_sfu (s : State) (cs : List Host.Cell) : (s.pokeCells cs).sfu = s.sfu := rfl
@[simp] theorem State.pokeCells_nests (s : State) (cs : List Host.Cell) : (s.pokeCells cs).nests = s.nests := rfl
@[simp] theorem State.pokeCells_rewrites (s : State) (cs : List Host.Cell) : (s.pokeCells cs).rewrites = s.rewrites := rfl
@[simp] theorem State.pokeCells_pipes (s : State) (cs : List Host.Cell) : (s.pokeCells cs).pipes = s.pipes := rfl
@[simp] theorem State.pokeCells_insts (s : State) (cs : List Host.Cell) : (s.pokeCells cs).insts = s.insts := rfl
@[simp] theorem State.pokeCells_tiles (s : State) (cs : List Host.Cell) : (s.pokeCells cs).tiles = s.tiles := rfl
@[simp] theorem State.pokeCells_commands (s : State) (cs : List Host.Cell) : (s.pokeCells cs).commands = s.commands := rfl
@[simp] theorem State.pokeCells_keys (s : State) (cs : List Host.Cell) : (s.pokeCells cs).keys = s.keys := rfl
@[simp] theorem State.pokeCells_tileWaits (s : State) (cs : List Host.Cell) : (s.pokeCells cs).tileWaits = s.tileWaits := rfl
@[simp] theorem State.pokeCells_passed (s : State) (cs : List Host.Cell) : (s.pokeCells cs).passed = s.passed := rfl
@[simp] theorem State.pokeCells_fabric (s : State) (cs : List Host.Cell) : (s.pokeCells cs).fabric = s.fabric := rfl
@[simp] theorem State.pokeCells_stacks (s : State) (cs : List Host.Cell) : (s.pokeCells cs).hbm = s.hbm := rfl
@[simp] theorem State.pokeCells_cellar (s : State) (cs : List Host.Cell) : (s.pokeCells cs).cellar = s.cellar := rfl

/-! ### pokeBytes -/

@[simp] theorem State.pokeBytes_agenda (s : State) (pa : Nat) (bs : List Byte) : (s.pokeBytes pa bs).agenda = s.agenda := rfl
@[simp] theorem State.pokeBytes_steps (s : State) (pa : Nat) (bs : List Byte) : (s.pokeBytes pa bs).steps = s.steps := rfl
@[simp] theorem State.pokeBytes_fresh (s : State) (pa : Nat) (bs : List Byte) : (s.pokeBytes pa bs).fresh = s.fresh := rfl
@[simp] theorem State.pokeBytes_issuer (s : State) (pa : Nat) (bs : List Byte) : (s.pokeBytes pa bs).issuer = s.issuer := rfl
@[simp] theorem State.pokeBytes_cycles (s : State) (pa : Nat) (bs : List Byte) : (s.pokeBytes pa bs).cycles = s.cycles := rfl
@[simp] theorem State.pokeBytes_mem (s : State) (pa : Nat) (bs : List Byte) : (s.pokeBytes pa bs).mem = s.mem := rfl
@[simp] theorem State.pokeBytes_stale (s : State) (pa : Nat) (bs : List Byte) : (s.pokeBytes pa bs).stale = s.stale := rfl
@[simp] theorem State.pokeBytes_code (s : State) (pa : Nat) (bs : List Byte) : (s.pokeBytes pa bs).code = s.code := rfl
@[simp] theorem State.pokeBytes_commits (s : State) (pa : Nat) (bs : List Byte) : (s.pokeBytes pa bs).commits = s.commits := rfl
@[simp] theorem State.pokeBytes_rcbs (s : State) (pa : Nat) (bs : List Byte) : (s.pokeBytes pa bs).rcbs = s.rcbs := rfl
@[simp] theorem State.pokeBytes_latches (s : State) (pa : Nat) (bs : List Byte) : (s.pokeBytes pa bs).latches = s.latches := rfl
@[simp] theorem State.pokeBytes_latchWaits (s : State) (pa : Nat) (bs : List Byte) : (s.pokeBytes pa bs).latchWaits = s.latchWaits := rfl
@[simp] theorem State.pokeBytes_ctxs (s : State) (pa : Nat) (bs : List Byte) : (s.pokeBytes pa bs).ctxs = s.ctxs := rfl
@[simp] theorem State.pokeBytes_groups (s : State) (pa : Nat) (bs : List Byte) : (s.pokeBytes pa bs).groups = s.groups := rfl
@[simp] theorem State.pokeBytes_nextId (s : State) (pa : Nat) (bs : List Byte) : (s.pokeBytes pa bs).nextId = s.nextId := rfl
@[simp] theorem State.pokeBytes_turns (s : State) (pa : Nat) (bs : List Byte) : (s.pokeBytes pa bs).turns = s.turns := rfl
@[simp] theorem State.pokeBytes_sfu (s : State) (pa : Nat) (bs : List Byte) : (s.pokeBytes pa bs).sfu = s.sfu := rfl
@[simp] theorem State.pokeBytes_nests (s : State) (pa : Nat) (bs : List Byte) : (s.pokeBytes pa bs).nests = s.nests := rfl
@[simp] theorem State.pokeBytes_rewrites (s : State) (pa : Nat) (bs : List Byte) : (s.pokeBytes pa bs).rewrites = s.rewrites := rfl
@[simp] theorem State.pokeBytes_pipes (s : State) (pa : Nat) (bs : List Byte) : (s.pokeBytes pa bs).pipes = s.pipes := rfl
@[simp] theorem State.pokeBytes_insts (s : State) (pa : Nat) (bs : List Byte) : (s.pokeBytes pa bs).insts = s.insts := rfl
@[simp] theorem State.pokeBytes_tiles (s : State) (pa : Nat) (bs : List Byte) : (s.pokeBytes pa bs).tiles = s.tiles := rfl
@[simp] theorem State.pokeBytes_commands (s : State) (pa : Nat) (bs : List Byte) : (s.pokeBytes pa bs).commands = s.commands := rfl
@[simp] theorem State.pokeBytes_keys (s : State) (pa : Nat) (bs : List Byte) : (s.pokeBytes pa bs).keys = s.keys := rfl
@[simp] theorem State.pokeBytes_tileWaits (s : State) (pa : Nat) (bs : List Byte) : (s.pokeBytes pa bs).tileWaits = s.tileWaits := rfl
@[simp] theorem State.pokeBytes_passed (s : State) (pa : Nat) (bs : List Byte) : (s.pokeBytes pa bs).passed = s.passed := rfl
@[simp] theorem State.pokeBytes_fabric (s : State) (pa : Nat) (bs : List Byte) : (s.pokeBytes pa bs).fabric = s.fabric := rfl
@[simp] theorem State.pokeBytes_stacks (s : State) (pa : Nat) (bs : List Byte) : (s.pokeBytes pa bs).hbm = s.hbm := rfl
@[simp] theorem State.pokeBytes_cellar (s : State) (pa : Nat) (bs : List Byte) : (s.pokeBytes pa bs).cellar = s.cellar := rfl

/-! ### pokeN -/

@[simp] theorem State.pokeN_agenda (s : State) (pa n v : Nat) : (s.pokeN pa n v).agenda = s.agenda := rfl
@[simp] theorem State.pokeN_steps (s : State) (pa n v : Nat) : (s.pokeN pa n v).steps = s.steps := rfl
@[simp] theorem State.pokeN_fresh (s : State) (pa n v : Nat) : (s.pokeN pa n v).fresh = s.fresh := rfl
@[simp] theorem State.pokeN_issuer (s : State) (pa n v : Nat) : (s.pokeN pa n v).issuer = s.issuer := rfl
@[simp] theorem State.pokeN_cycles (s : State) (pa n v : Nat) : (s.pokeN pa n v).cycles = s.cycles := rfl
@[simp] theorem State.pokeN_mem (s : State) (pa n v : Nat) : (s.pokeN pa n v).mem = s.mem := rfl
@[simp] theorem State.pokeN_stale (s : State) (pa n v : Nat) : (s.pokeN pa n v).stale = s.stale := rfl
@[simp] theorem State.pokeN_code (s : State) (pa n v : Nat) : (s.pokeN pa n v).code = s.code := rfl
@[simp] theorem State.pokeN_commits (s : State) (pa n v : Nat) : (s.pokeN pa n v).commits = s.commits := rfl
@[simp] theorem State.pokeN_rcbs (s : State) (pa n v : Nat) : (s.pokeN pa n v).rcbs = s.rcbs := rfl
@[simp] theorem State.pokeN_latches (s : State) (pa n v : Nat) : (s.pokeN pa n v).latches = s.latches := rfl
@[simp] theorem State.pokeN_latchWaits (s : State) (pa n v : Nat) : (s.pokeN pa n v).latchWaits = s.latchWaits := rfl
@[simp] theorem State.pokeN_ctxs (s : State) (pa n v : Nat) : (s.pokeN pa n v).ctxs = s.ctxs := rfl
@[simp] theorem State.pokeN_groups (s : State) (pa n v : Nat) : (s.pokeN pa n v).groups = s.groups := rfl
@[simp] theorem State.pokeN_nextId (s : State) (pa n v : Nat) : (s.pokeN pa n v).nextId = s.nextId := rfl
@[simp] theorem State.pokeN_turns (s : State) (pa n v : Nat) : (s.pokeN pa n v).turns = s.turns := rfl
@[simp] theorem State.pokeN_sfu (s : State) (pa n v : Nat) : (s.pokeN pa n v).sfu = s.sfu := rfl
@[simp] theorem State.pokeN_nests (s : State) (pa n v : Nat) : (s.pokeN pa n v).nests = s.nests := rfl
@[simp] theorem State.pokeN_rewrites (s : State) (pa n v : Nat) : (s.pokeN pa n v).rewrites = s.rewrites := rfl
@[simp] theorem State.pokeN_pipes (s : State) (pa n v : Nat) : (s.pokeN pa n v).pipes = s.pipes := rfl
@[simp] theorem State.pokeN_insts (s : State) (pa n v : Nat) : (s.pokeN pa n v).insts = s.insts := rfl
@[simp] theorem State.pokeN_tiles (s : State) (pa n v : Nat) : (s.pokeN pa n v).tiles = s.tiles := rfl
@[simp] theorem State.pokeN_commands (s : State) (pa n v : Nat) : (s.pokeN pa n v).commands = s.commands := rfl
@[simp] theorem State.pokeN_keys (s : State) (pa n v : Nat) : (s.pokeN pa n v).keys = s.keys := rfl
@[simp] theorem State.pokeN_tileWaits (s : State) (pa n v : Nat) : (s.pokeN pa n v).tileWaits = s.tileWaits := rfl
@[simp] theorem State.pokeN_passed (s : State) (pa n v : Nat) : (s.pokeN pa n v).passed = s.passed := rfl
@[simp] theorem State.pokeN_fabric (s : State) (pa n v : Nat) : (s.pokeN pa n v).fabric = s.fabric := rfl
@[simp] theorem State.pokeN_stacks (s : State) (pa n v : Nat) : (s.pokeN pa n v).hbm = s.hbm := rfl
@[simp] theorem State.pokeN_cellar (s : State) (pa n v : Nat) : (s.pokeN pa n v).cellar = s.cellar := rfl

/-! ### What a step has written becomes memory -/

@[simp] theorem settle_agenda (s t : State) : (settle s t).agenda = t.agenda := rfl
@[simp] theorem settle_steps (s t : State) : (settle s t).steps = t.steps := rfl
@[simp] theorem settle_fresh (s t : State) : (settle s t).fresh = t.fresh := rfl
@[simp] theorem settle_cycles (s t : State) : (settle s t).cycles = t.cycles := rfl
@[simp] theorem settle_stale (s t : State) : (settle s t).stale = t.stale := rfl
@[simp] theorem settle_code (s t : State) : (settle s t).code = t.code := rfl
@[simp] theorem settle_commits (s t : State) : (settle s t).commits = t.commits := rfl
@[simp] theorem settle_rcbs (s t : State) : (settle s t).rcbs = t.rcbs := rfl
@[simp] theorem settle_latches (s t : State) : (settle s t).latches = t.latches := rfl
@[simp] theorem settle_latchWaits (s t : State) : (settle s t).latchWaits = t.latchWaits := rfl
@[simp] theorem settle_ctxs (s t : State) : (settle s t).ctxs = t.ctxs := rfl
@[simp] theorem settle_groups (s t : State) : (settle s t).groups = t.groups := rfl
@[simp] theorem settle_nextId (s t : State) : (settle s t).nextId = t.nextId := rfl
@[simp] theorem settle_turns (s t : State) : (settle s t).turns = t.turns := rfl
@[simp] theorem settle_sfu (s t : State) : (settle s t).sfu = t.sfu := rfl
@[simp] theorem settle_nests (s t : State) : (settle s t).nests = t.nests := rfl
@[simp] theorem settle_rewrites (s t : State) : (settle s t).rewrites = t.rewrites := rfl
@[simp] theorem settle_pipes (s t : State) : (settle s t).pipes = t.pipes := rfl
@[simp] theorem settle_insts (s t : State) : (settle s t).insts = t.insts := rfl
@[simp] theorem settle_tiles (s t : State) : (settle s t).tiles = t.tiles := rfl
@[simp] theorem settle_commands (s t : State) : (settle s t).commands = t.commands := rfl
@[simp] theorem settle_keys (s t : State) : (settle s t).keys = t.keys := rfl
@[simp] theorem settle_tileWaits (s t : State) : (settle s t).tileWaits = t.tileWaits := rfl
@[simp] theorem settle_passed (s t : State) : (settle s t).passed = t.passed := rfl
@[simp] theorem settle_fabric (s t : State) : (settle s t).fabric = t.fabric := rfl
@[simp] theorem settle_stacks (s t : State) : (settle s t).hbm = t.hbm := rfl
@[simp] theorem settle_cellar (s t : State) : (settle s t).cellar = t.cellar := rfl
@[simp] theorem settle_mem (s t : State) : (settle s t).mem = cellsInto s.mem t.outbox := rfl
@[simp] theorem settle_outbox (s t : State) : (settle s t).outbox = [] := rfl
@[simp] theorem settle_issuer (s t : State) : (settle s t).issuer = .none := rfl

/-! ### The fields that an update writes -/

@[simp] theorem State.modGroup_groups (s : State) (g : Nat) (f : Group → Group) :
    (s.modGroup g f).groups = s.groups.map (fun x => if x.id == g then f x else x) := rfl
@[simp] theorem State.modCtx_ctxs (s : State) (c : Nat) (f : Ctx → Ctx) :
    (s.modCtx c f).ctxs = s.ctxs.map (fun x => if x.num == c then f x else x) := rfl
@[simp] theorem State.modStacks_stacks (s : State) (f : Stacks → Stacks) : (s.modStacks f).hbm = f s.hbm := rfl
@[simp] theorem State.pokeCells_outbox (s : State) (cs : List Host.Cell) :
    (s.pokeCells cs).outbox = cs.reverse ++ s.outbox := rfl

end Sys2Proof.Machine
end

