-- ==== Sys2Proof/Laws/Memory.lean ====
section
/-! SUPPORT. Memory: every operation keeps the canonical form, a byte that was written is read back, and no other byte
changes. -/

namespace Sys2Proof.Machine

open Sys2Proof

/-! ### Cells -/

theorem cellsFrom_mono {m : Memory} {a b : Nat} (h : a ≤ b) (hm : cellsFrom b m = true) : cellsFrom a m = true := by
  cases m with
  | nil => rfl
  | cons c m =>
    simp only [cellsFrom, Bool.and_eq_true, decide_eq_true_eq, bne_iff_ne, ne_eq] at hm ⊢
    exact ⟨⟨by omega, hm.1.2⟩, hm.2⟩

theorem cellGet_below {m : Memory} {n x : Nat} (hm : cellsFrom n m = true) (h : x < n) : cellGet m x = 0 := by
  induction m generalizing n with
  | nil => rfl
  | cons c m ih =>
    simp only [cellsFrom, Bool.and_eq_true, decide_eq_true_eq, bne_iff_ne, ne_eq] at hm
    rw [cellGet, if_neg (by omega)]
    exact ih hm.2 (by omega)

theorem cellsFrom_cellSet {m : Memory} {n x : Nat} {v : Byte} (hm : cellsFrom n m = true) (h : n ≤ x) :
    cellsFrom n (cellSet m x v) = true := by
  induction m generalizing n with
  | nil =>
    by_cases hv : v = 0#8
    · rw [cellSet, if_pos (show v = 0 from hv)]; rfl
    · rw [cellSet, if_neg (show ¬ v = 0 from hv)]; simp [cellsFrom, h, hv]
  | cons c m ih =>
    simp only [cellsFrom, Bool.and_eq_true, decide_eq_true_eq, bne_iff_ne, ne_eq] at hm
    rw [cellSet]
    split
    · by_cases hv : v = 0#8
      · have h0 : ¬ c.2 = 0#8 := hm.1.2
        simp [cellsFrom, hv, h0, hm.2, hm.1.1]
      · have h0 : ¬ c.2 = 0#8 := hm.1.2
        simp [cellsFrom, hv, h0, hm.2, h]; omega
    · split
      · by_cases hv : v = 0#8
        · rw [if_pos (show v = 0 from hv)]; exact cellsFrom_mono (by omega) hm.2
        · rw [if_neg (show ¬ v = 0 from hv)]; subst x; simp [cellsFrom, hv, hm.2, h]
      · simp only [cellsFrom, Bool.and_eq_true, decide_eq_true_eq, bne_iff_ne, ne_eq]
        exact ⟨hm.1, ih hm.2 (by omega)⟩

/-- A write keeps the canonical form. -/
theorem wf_cellSet {m : Memory} (hm : m.wf = true) (x : Nat) (v : Byte) : Memory.wf (cellSet m x v) = true :=
  cellsFrom_cellSet hm (Nat.zero_le x)

/-- The byte that was written is read back. -/
theorem cellGet_cellSet_self {m : Memory} {n : Nat} (hm : cellsFrom n m = true) (x : Nat) (v : Byte) :
    cellGet (cellSet m x v) x = v := by
  induction m generalizing n with
  | nil => by_cases hv : v = 0#8 <;> simp [cellSet, cellGet, hv]
  | cons c m ih =>
    simp only [cellsFrom, Bool.and_eq_true, decide_eq_true_eq, bne_iff_ne, ne_eq] at hm
    rw [cellSet]
    split
    · rename_i hlt
      by_cases hv : v = 0#8
      · rw [if_pos (show v = 0 from hv), cellGet, if_neg (by omega), hv]
        exact cellGet_below hm.2 (by omega)
      · simp [cellGet, hv]
    · split
      · rename_i heq
        by_cases hv : v = 0#8
        · rw [if_pos (show v = 0 from hv), hv]; exact cellGet_below hm.2 (by omega)
        · simp [cellGet, hv]
      · rename_i h1 h2
        rw [cellGet, if_neg (by omega)]
        exact ih hm.2

/-- Every other byte is as it was. -/
theorem cellGet_cellSet_other {m : Memory} {x y : Nat} (v : Byte) (h : y ≠ x) : cellGet (cellSet m x v) y = cellGet m y := by
  induction m with
  | nil => by_cases hv : v = 0#8 <;> simp [cellSet, cellGet, hv, Ne.symm h]
  | cons c m ih =>
    rw [cellSet]
    split
    · by_cases hv : v = 0#8 <;> simp [cellGet, hv, Ne.symm h]
    · split
      · rename_i heq
        by_cases hv : v = 0#8
        · rw [if_pos (show v = 0 from hv), cellGet, if_neg (by omega)]
        · rw [if_neg (show ¬ v = 0 from hv), cellGet, cellGet, if_neg (Ne.symm h), if_neg (by omega)]
      · simp only [cellGet, ih]

theorem wf_cellsInto {m : Memory} (hm : m.wf = true) (ws : List Host.Cell) : Memory.wf (cellsInto m ws) = true := by
  induction ws with
  | nil => exact hm
  | cons c ws ih => exact wf_cellSet ih c.1 c.2

theorem wf_cellsPut {m : Memory} (hm : m.wf = true) (ws : List Host.Cell) : Memory.wf (cellsPut m ws) = true := by
  induction ws generalizing m with
  | nil => exact hm
  | cons c ws ih => exact ih (wf_cellSet hm c.1 c.2)

/-- The memory after the writes of a step: the last write of a byte counts, and a byte that none wrote is as it was. -/
theorem cellGet_cellsInto {m : Memory} (hm : m.wf = true) (ws : List Host.Cell) (x : Nat) :
    cellGet (cellsInto m ws) x = (match ws.find? (fun c => c.1 == x) with
      | some c => c.2
      | none => cellGet m x) := by
  induction ws with
  | nil => rfl
  | cons c ws ih =>
    have hw := wf_cellsInto hm ws
    by_cases h : c.1 = x
    · subst h
      simp only [List.find?_cons, BEq.rfl]
      exact cellGet_cellSet_self hw c.1 c.2
    · have h' : (c.1 == x) = false := by simpa using h
      simp only [List.find?_cons, h']
      rw [← ih]
      exact cellGet_cellSet_other c.2 (Ne.symm h)

/-- What the step in hand has left is what memory holds after it. -/
theorem peek_settle {s t : State} (hs : s.mem.wf = true) (ht : t.mem = s.mem) (x : Nat) : (settle s t).peek x = t.peek x := by
  simp only [State.peek, settle_outbox, settle_mem, List.find?_nil, cellGet_cellsInto hs, ht]
  all_goals cases t.outbox.find? (fun c => c.1 == x) <;> rfl

theorem wf_settle {s t : State} (hs : s.mem.wf = true) : Memory.wf (settle s t).mem = true := wf_cellsInto hs t.outbox

/-! ### Bytes -/

@[simp] theorem peek_poke_self (s : State) (pa : Nat) (b : Byte) : (s.poke pa b).peek pa = b := by
  simp [State.peek, State.poke]

theorem peek_poke_other (s : State) {pa x : Nat} (b : Byte) (h : x ≠ pa) : (s.poke pa b).peek x = s.peek x := by
  have h' : (pa == x) = false := by simpa using Ne.symm h
  simp [State.peek, State.poke, h']

theorem cellsAt_mem {pa : Nat} {bs : List Byte} {c : Host.Cell} (h : c ∈ cellsAt pa bs) :
    pa ≤ c.1 ∧ c.1 < pa + bs.length ∧ bs[c.1 - pa]? = some c.2 := by
  induction bs generalizing pa with
  | nil => simp [cellsAt] at h
  | cons b bs ih =>
    rw [cellsAt, List.mem_cons] at h
    rcases h with rfl | h
    · simp
    · obtain ⟨h1, h2, h3⟩ := ih h
      refine ⟨by omega, by simp; omega, ?_⟩
      rw [show c.1 - pa = (c.1 - (pa + 1)) + 1 by omega]
      simpa using h3

theorem cellsAt_addr {pa : Nat} {bs : List Byte} {i : Nat} (h : i < bs.length) : (pa + i, bs[i]) ∈ cellsAt pa bs := by
  induction bs generalizing pa i with
  | nil => simp at h
  | cons b bs ih =>
    rw [cellsAt, List.mem_cons]
    cases i with
    | zero => left; rfl
    | succ i =>
      right
      have := ih (pa := pa + 1) (i := i) (by simpa using h)
      rw [show pa + (i + 1) = pa + 1 + i by omega]
      simpa using this

/-- The bytes of a run are read back, and every other byte is as it was. -/
theorem peek_pokeBytes (s : State) (pa : Nat) (bs : List Byte) (x : Nat) :
    (s.pokeBytes pa bs).peek x = if h : pa ≤ x ∧ x < pa + bs.length then bs[x - pa]'(by omega) else s.peek x := by
  simp only [State.peek, State.pokeBytes, State.pokeCells, List.find?_append]
  by_cases h : pa ≤ x ∧ x < pa + bs.length
  · rw [dif_pos h]
    have hi : x - pa < bs.length := by omega
    have hm : (x, bs[x - pa]) ∈ (cellsAt pa bs).reverse := by
      rw [List.mem_reverse]
      have := cellsAt_addr (pa := pa) hi
      rwa [show pa + (x - pa) = x by omega] at this
    cases hf : (cellsAt pa bs).reverse.find? (fun c => c.1 == x) with
    | none =>
      rw [List.find?_eq_none] at hf
      exact absurd (hf _ hm) (by simp)
    | some c =>
      simp only [Option.some_or]
      have hp := List.find?_some hf
      have hc := cellsAt_mem (List.mem_reverse.mp (List.mem_of_find?_eq_some hf))
      have he : c.1 = x := by simpa using hp
      rw [he] at hc
      have := hc.2.2
      rw [List.getElem?_eq_getElem hi, Option.some.injEq] at this
      exact this.symm
  · rw [dif_neg h]
    have hf : (cellsAt pa bs).reverse.find? (fun c => c.1 == x) = none := by
      rw [List.find?_eq_none]
      intro c hc hp
      have := cellsAt_mem (List.mem_reverse.mp hc)
      have he : c.1 = x := by simpa using hp
      omega
    rw [hf, Option.none_or]

theorem reset_mem_wf : State.reset.mem.wf = true := rfl

end Sys2Proof.Machine
end

