-- ==== Sys2Proof/Laws/Issue.lean ====
section
/-! SUPPORT. What each way of issuing an instruction comes to, said once: where nothing holds the instruction back, its own
result decides. -/

namespace Sys2Proof.Machine

open Sys2Proof

variable {s : State} {i : Instr} {v : WarpView} {h : HallView} {g p : Nat}

/-- The view of a state names that state, and the issue it was made for. -/
theorem warpView_s {is : Issue} {k : Ctl} (hv : s.warpView is k = some v) : v.s = s ∧ v.is = is := by
  unfold State.warpView at hv
  split at hv
  · cases hv
  · split at hv
    · cases hv
    · cases hv; exact ⟨rfl, rfl⟩

theorem Issuing.state (hi : Issuing s i v) : v.s = s := (warpView_s hi.view).1

theorem Hallward.state (hi : Hallward s i g h) : h.s = s := by
  have hv := hi.view
  simp only [State.hallView, Option.map_eq_some_iff] at hv
  obtain ⟨gr, _, rfl⟩ := hv
  rfl

theorem Apward.state (hi : Apward s i g p h) : h.s = s := by
  have hv := hi.view
  unfold State.apView at hv
  split at hv
  · cases hv
  · simp only [Option.map_eq_some_iff] at hv
    obtain ⟨q, _, rfl⟩ := hv
    rfl

theorem issueWarp_view {f : WarpView → WarpRes} (hi : Issuing s i v) : issueWarp i f v.is s = v.conclude i (f v) := by
  have hf : (v.w.atom.isNone && v.active != 0 && !(v.sharedEmpty i).isEmpty) = false := by
    rcases hi.full with h | h | h
    · simp [h]
    · simp [h]
    · cases ha : v.w.atom
      · exact absurd ha h
      · rfl
  simp only [issueWarp, hi.view, hi.guard, hi.ready, hf]
  rfl

theorem conclude_done {e : WarpEff} (hn : v.tooFar = 0) (hf : Fitting v i (e.writes ++ e.late)) : v.conclude i (.done e) = v.commit i e := by
  simp [WarpView.conclude, WarpView.distanceTrap, hn, WarpView.complete, hf.released, hf.empty, hf.room]

theorem conclude_trap {t : Trap} (hn : v.tooFar = 0) : v.conclude i (.trap t) = v.s.takeTrap v.is t false := by
  simp [WarpView.conclude, WarpView.distanceTrap, hn]

theorem conclude_stall {st : State} (hn : v.tooFar = 0) : v.conclude i (.stall st) = st := by
  simp [WarpView.conclude, WarpView.distanceTrap, hn]

theorem conclude_wait {st : State} {k : WaitKind} (hn : v.tooFar = 0) (hs : v.inStub = false) :
    v.conclude i (.wait st k) = st.blockWarp v.is k := by
  simp [WarpView.conclude, WarpView.distanceTrap, hn, hs]

/-- A warp's instruction that nothing holds back has its effect. -/
theorem issueWarp_done {f : WarpView → WarpRes} {e : WarpEff} (hi : Issuing s i v) (he : f v = .done e)
    (hf : Fitting v i (e.writes ++ e.late)) : issueWarp i f v.is s = v.commit i e := by
  rw [issueWarp_view hi, he, conclude_done hi.near hf]

theorem runWarp_done {f : WarpView → WarpRes} {e : WarpEff} (hi : Issuing s i v) (he : f v = .done e)
    (hf : Fitting v i (e.writes ++ e.late)) : runWarp i f s = .next (v.after i e) := by
  simp only [runWarp, hi.issuer, issueWarp_done hi he hf, WarpView.after, finish, hi.state]

theorem runBoth_done {fh : HallView → HallRes} {f : WarpView → WarpRes} {e : WarpEff} (hi : Issuing s i v)
    (he : f v = .done e) (hf : Fitting v i (e.writes ++ e.late)) : runBoth i fh f s = .next (v.after i e) := by
  simp only [runBoth, hi.issuer, issueWarp_done hi he hf, WarpView.after, finish, hi.state]

/-- A warp's instruction that is not done yet leaves the state it answers with, for a later turn. -/
theorem issueWarp_stall {f : WarpView → WarpRes} {st : State} (hi : Issuing s i v) (he : f v = .stall st) :
    issueWarp i f v.is s = st := by
  rw [issueWarp_view hi, he, conclude_stall hi.near]

theorem runWarp_stall {f : WarpView → WarpRes} {st : State} (hi : Issuing s i v) (he : f v = .stall st) :
    runWarp i f s = .next (settle s st) := by
  simp only [runWarp, hi.issuer, issueWarp_stall hi he, finish]

theorem runBoth_stall {fh : HallView → HallRes} {f : WarpView → WarpRes} {st : State} (hi : Issuing s i v)
    (he : f v = .stall st) : runBoth i fh f s = .next (settle s st) := by
  simp only [runBoth, hi.issuer, issueWarp_stall hi he, finish]

/-- A warp's instruction that traps takes its trap. -/
theorem issueWarp_trap {f : WarpView → WarpRes} {t : Trap} (hi : Issuing s i v) (he : f v = .trap t) :
    issueWarp i f v.is s = v.s.takeTrap v.is t false := by
  rw [issueWarp_view hi, he, conclude_trap hi.near]

theorem runWarp_trap {f : WarpView → WarpRes} {t : Trap} (hi : Issuing s i v) (he : f v = .trap t) :
    runWarp i f s = .next (v.trapped t) := by
  simp only [runWarp, hi.issuer, issueWarp_trap hi he, WarpView.trapped, finish, hi.state]

theorem runBoth_trap {fh : HallView → HallRes} {f : WarpView → WarpRes} {t : Trap} (hi : Issuing s i v)
    (he : f v = .trap t) : runBoth i fh f s = .next (v.trapped t) := by
  simp only [runBoth, hi.issuer, issueWarp_trap hi he, WarpView.trapped, finish, hi.state]

theorem issueHall_done {f : HallView → HallRes} {e : HallEff} (hi : Hallward s i g h) (he : f h = .done e) :
    issueHall i f g s = (e.commit g).holdScalars g i h.prior.isSome := by
  simp only [issueHall, hi.view, hi.ready, hi.guard, he, HallView.conclude, HallView.distanceTrap, hi.near, HallRes.trap?,
    HallRes.isDone]
  rfl

theorem runHall_done {f : HallView → HallRes} {e : HallEff} (hi : Hallward s i g h) (he : f h = .done e) :
    runHall i f s = .next (settle s ((e.commit g).holdScalars g i h.prior.isSome)) := by
  simp only [runHall, hi.issuer, issueHall_done hi he, finish]

theorem issueHall_stall {f : HallView → HallRes} {st : State} (hi : Hallward s i g h) (he : f h = .stall st) :
    issueHall i f g s = st := by
  simp only [issueHall, hi.view, hi.ready, hi.guard, he, HallView.conclude, HallView.distanceTrap, hi.near, HallRes.trap?,
    HallRes.isDone]
  rfl

theorem runHall_stall {f : HallView → HallRes} {st : State} (hi : Hallward s i g h) (he : f h = .stall st) :
    runHall i f s = .next (settle s st) := by
  simp only [runHall, hi.issuer, issueHall_stall hi he, finish]

theorem runBoth_hall {f : HallView → HallRes} {fw : WarpView → WarpRes} {e : HallEff} (hi : Hallward s i g h)
    (he : f h = .done e) : runBoth i f fw s = .next (settle s ((e.commit g).holdScalars g i h.prior.isSome)) := by
  simp only [runBoth, hi.issuer, issueHall_done hi he, finish]

theorem issueAp_done {f : HallView → HallRes} {e : HallEff} (hi : Apward s i g p h) (he : f h = .done e) :
    issueAp i f g p s = h.commitAp g p e := by
  simp only [issueAp, hi.view, hi.guard, he, HallView.concludeAp]
  rfl

theorem runBoth_ap {f : HallView → HallRes} {fw : WarpView → WarpRes} {e : HallEff} (hi : Apward s i g p h)
    (he : f h = .done e) : runBoth i f fw s = .next (settle s (h.commitAp g p e)) := by
  simp only [runBoth, hi.issuer, issueAp_done hi he, finish]

theorem runAp_done {f : HallView → HallRes} {e : HallEff} (hi : Apward s i g p h) (he : f h = .done e) :
    runAp i f s = .next (settle s (h.commitAp g p e)) := by
  simp only [runAp, hi.issuer, issueAp_done hi he, finish]

/-- An instruction whose forms always complete does so wherever it may issue. -/
theorem bothDo_of {fh : HallView → HallRes} {fw : WarpView → WarpRes} {eh : HallView → HallEff} {ew : WarpView → WarpEff}
    (hx : ∀ s, exec i s = runBoth i fh fw s) (hw : ∀ v, fw v = .done (ew v)) (hh : ∀ h, fh h = .done (eh h)) :
    BothDo i ew eh :=
  ⟨fun s v hi _ hf => (hx s).trans (runBoth_done hi (hw v) hf),
   fun s _ h hi _ => (hx s).trans (runBoth_hall hi (hh h)),
   fun s _ _ h hi _ => (hx s).trans (runBoth_ap hi (hh h))⟩

theorem onlyWarp_of {fw : WarpView → WarpRes} {ew : WarpView → WarpEff} (hx : ∀ s, exec i s = runWarp i fw s)
    (hw : ∀ v, fw v = .done (ew v)) : OnlyWarp i ew :=
  fun s v hi _ hf => (hx s).trans (runWarp_done hi (hw v) hf)

end Sys2Proof.Machine
end

