-- ==== Sys2Proof/Laws/Exec.lean ====
section
/-! SUPPORT. Every meaning leaves its stores to `settle`; every instruction of a warp is issued in the one way; a trap entry changes its
warp alone. -/

namespace Sys2Proof.Machine

open Sys2Proof

theorem exec_settles (i : Instr) (s : State) : ∃ t, exec i s = .next (settle s t) := by
  cases i
  case exit k =>
    show ∃ t, execExit k s = _
    unfold execExit
    split <;> exact ⟨_, rfl⟩
  all_goals exact ⟨_, rfl⟩

theorem settle_clean {s t : State} (h : s.mem.wf = true) : (settle s t).Clean := ⟨wf_settle h, rfl, rfl⟩

theorem settles_runWarp {i f} (is : Issue) (h : ∀ s, exec i s = runWarp i f s) : ∃ f, ∀ s : State, s.issuer = .warp is → exec i s = .next (settle s (issueWarp i f is s)) :=
  ⟨f, fun s hs => (h s).trans (by unfold runWarp; rw [hs]; rfl)⟩

theorem settles_runBoth {i f fh} (is : Issue) (h : ∀ s, exec i s = runBoth i fh f s) : ∃ f, ∀ s : State, s.issuer = .warp is → exec i s = .next (settle s (issueWarp i f is s)) :=
  ⟨f, fun s hs => (h s).trans (by unfold runBoth; rw [hs]; rfl)⟩

theorem settles_exit (k) (is : Issue) : ∃ f, ∀ s : State, s.issuer = .warp is → exec (.exit k) s = .next (settle s (issueWarp (.exit k) f is s)) :=
  ⟨_, fun s hs => by show execExit k s = _; unfold execExit; rw [hs]; simp only [runWarp, hs]; rfl⟩

theorem check_ap (i : Instr) (hf : i.formClass = .ap) {h p} (hi : i.isIll = false) : i.check h p ≠ none := by
  have : i.instrOk = false := by simp [Instr.instrOk, hf]
  simp [Instr.check, hi, this]

theorem exec_warp_form (i : Instr) {h p} (hh : i.isHall = false) (hc : i.check h p = none) (hi : i.isIll = false) (ht : isTret i = false) (he : i.encoded = true) (is : Issue) :
    ∃ f, ∀ s : State, s.issuer = .warp is → exec i s = .next (settle s (issueWarp i f is s)) := by
  cases i
  case exit k => exact settles_exit k is
  all_goals first
    | exact settles_runWarp is (fun _ => rfl)
    | exact settles_runBoth is (fun _ => rfl)
    | (cases hh; done)
    | (cases hi; done)
    | (cases ht; done)
    | (cases he; done)
    | exact absurd hc (check_ap _ rfl rfl)

theorem settle_modGroup (s : State) (g : Nat) (f : Group → Group) (u : State) (hu : u = settle s (s.modGroup g f)) (ho : s.outbox = []) : u = { s with groups := u.groups, issuer := .none } := by
  have h3 : settle s (s.modGroup g f) = { s with groups := (settle s (s.modGroup g f)).groups, issuer := .none, mem := (settle s (s.modGroup g f)).mem, outbox := [] } := rfl
  have h2 : (settle s (s.modGroup g f)).mem = s.mem := by
    show cellsInto s.mem s.outbox = _; rw [ho]; rfl
  rw [h2] at h3
  subst hu
  refine h3.trans ?_
  show ({ s with groups := _, issuer := .none, outbox := [] } : State) = _
  rw [← ho]

theorem enterHandler_frame (w : Warp) (i : Issue) (t : Trap) (vec : Word) (hf : Bool) : ∃ th h ws,
    w.enterHandler i t vec hf = { w with
      threads := th, handler := h, waits := ws,
      cause := BitVec.ofNat 8 t.cause.code, cinfoAddr := t.addr, cinfoMask := t.mask, cinfoKind := t.kind, epc := i.pc,
      emask := i.lanes } := by
  unfold Warp.enterHandler Warp.modThreads
  exact ⟨_, _, _, rfl⟩

end Sys2Proof.Machine
end

