-- ==== Sys2Proof/Laws/Groups.lean ====
section
/-! SUPPORT. Finding a group, warp or context after a change of one. -/

namespace Sys2Proof.Machine

open Sys2Proof

theorem find?_map_key {α : Type} (key : α → Nat) (n : Nat) (p : Nat → Bool) (f : α → α) (hf : ∀ x, key (f x) = key x) (l : List α) :
    (l.map (fun x => if p (key x) then f x else x)).find? (fun x => key x == n) =
      (l.find? (fun x => key x == n)).map (fun x => if p (key x) then f x else x) := by
  induction l with
  | nil => rfl
  | cons a l ih =>
    have hk : key (if p (key a) then f a else a) = key a := by split <;> simp [hf]
    rw [List.map_cons, List.find?_cons, List.find?_cons, hk, ih]
    cases key a == n <;> rfl

/-- The group that was changed. -/
theorem group?_modGroup (s : State) (g : Nat) (f : Group → Group) (hf : ∀ x, (f x).id = x.id) :
    (s.modGroup g f).group? g = (s.group? g).map f := by
  simp only [State.group?, State.modGroup]
  rw [find?_map_key Group.id g (· == g) f hf]
  cases h : s.groups.find? (fun x => x.id == g) with
  | none => rfl
  | some gr =>
    have := List.find?_some h
    simp_all

/-- Any other group is as it was. -/
theorem group?_modGroup_other (s : State) {g g' : Nat} (f : Group → Group) (hf : ∀ x, (f x).id = x.id) (h : g' ≠ g) :
    (s.modGroup g f).group? g' = s.group? g' := by
  simp only [State.group?, State.modGroup]
  rw [find?_map_key Group.id g' (· == g) f hf]
  cases h' : s.groups.find? (fun x => x.id == g') with
  | none => rfl
  | some gr =>
    have := List.find?_some h'
    simp_all

@[simp] theorem modWarp_id (gr : Group) (w : Nat) (f : Warp → Warp) : (gr.modWarp w f).id = gr.id := rfl

@[simp] theorem modWarp_warps (gr : Group) (w : Nat) (f : Warp → Warp) : (gr.modWarp w f).warps = gr.warps.modify w f := rfl

/-- The warp that was changed. -/
theorem warps_modWarp (gr : Group) (w : Nat) (f : Warp → Warp) : (gr.modWarp w f).warps[w]? = (gr.warps[w]?).map f := by
  simp

theorem warps_modWarp_other (gr : Group) {w w' : Nat} (f : Warp → Warp) (h : w' ≠ w) :
    (gr.modWarp w f).warps[w']? = gr.warps[w']? := by
  simp [Ne.symm h]

theorem warp?_modWarp (s : State) (g w : Nat) (f : Warp → Warp) : (s.modWarp g w f).warp? g w = (s.warp? g w).map f := by
  simp only [State.warp?, State.modWarp]
  rw [group?_modGroup s g (fun x => x.modWarp w f) (fun _ => rfl)]
  cases s.group? g with
  | none => rfl
  | some gr => simp

theorem ctx?_modCtx (s : State) (c : Nat) (f : Ctx → Ctx) (hf : ∀ x, (f x).num = x.num) :
    (s.modCtx c f).ctx? c = (s.ctx? c).map f := by
  simp only [State.ctx?, State.modCtx]
  rw [find?_map_key Ctx.num c (· == c) f hf]
  cases h : s.ctxs.find? (fun x => x.num == c) with
  | none => rfl
  | some gr =>
    have := List.find?_some h
    simp_all

theorem group?_id {s : State} {g : Nat} {gr : Group} (h : s.group? g = some gr) : gr.id = g := by
  have := List.find?_some h
  simpa using this

end Sys2Proof.Machine
end

