-- ==== Sys2Proof/Laws/Lanes.lean ====
section
/-! SUPPORT. Masks and lanes: a mask has the lanes of its test, and a value given by lanes is read lane by lane. -/

namespace Sys2Proof

theorem foldl_mask (f : Nat → Bool) (j : Nat) (hj : j < 32) (ls : List Nat) (m : Mask) :
    (ls.foldl (fun m l => if f l then m ||| BitVec.twoPow 32 l else m) m).getLsbD j =
      (m.getLsbD j || ls.any (fun l => f l && l == j)) := by
  induction ls generalizing m with
  | nil => simp
  | cons l ls ih =>
    rw [List.foldl_cons, ih, List.any_cons]
    cases hf : f l
    · simp
    · by_cases h : l = j
      · subst h; simp [hj]
      · have : (l == j) = false := by simpa using h
        simp [this, Ne.symm h, hj]

/-- A mask made from a test has exactly the lanes that satisfy it. -/
theorem has_of (f : Nat → Bool) {j : Nat} (hj : j < 32) : Mask.has (Mask.of f) j = f j := by
  have := foldl_mask f j hj laneNumbers 0
  have h0 : (0 : Mask).getLsbD j = false := by simp
  rw [Mask.has, Mask.of, this, h0, Bool.false_or, Bool.eq_iff_iff]
  simp only [List.any_eq_true, Bool.and_eq_true, beq_iff_eq]
  constructor
  · rintro ⟨l, _, hl, rfl⟩
    exact hl
  · exact fun hf => ⟨j, List.mem_range.mpr hj, hf, rfl⟩

theorem mask_ext {a b : Mask} (h : ∀ l, l < 32 → Mask.has a l = Mask.has b l) : a = b :=
  BitVec.eq_of_getLsbD_eq (fun l hl => h l hl)

/-- A mask none of whose lanes satisfies the test is empty. -/
theorem of_eq_zero {f : Nat → Bool} (h : ∀ l, l < 32 → f l = false) : Mask.of f = 0 :=
  mask_ext (fun l hl => by rw [has_of f hl, h l hl]; simp [Mask.has])

@[simp] theorem lanes_get_of (f : Nat → α) {l : Nat} (hl : l < 32) : (Lanes.of f).get l = f l := by
  simp [Lanes.get, Lanes.of, Nat.mod_eq_of_lt hl]

end Sys2Proof
end

