-- ==== Sys2Proof/Laws/PerInstr.lean ====
section
/-! SUPPORT. The family RoundTrip: for every instruction, the fields it encodes to are decoded as that instruction
(R32, R33, R37, R48 and the encodings of the reference entries). -/

namespace Sys2Proof.Laws.RoundTrip

set_option linter.unusedSimpArgs false

/-- An encoded instruction is read back from its own word. -/
def Statement (i : Instr) : Prop := ∀ w, encode i = some w → decodeWord w = .ok i

theorem of_fields (i : Instr) (f : Fields) (h : i.fields = some f) (hd : decodeFields f = .ok i) : Statement i := by
  intro w hw
  simp only [encode, h, Option.map_some, Option.some.injEq] at hw
  subst hw
  simp only [decodeWord, unpack_pack, hd]

theorem of_none (i : Instr) (h : i.fields = none) : Statement i := by
  intro w hw
  simp [encode, h] at hw

theorem nop (k : Ctl) : Statement (.nop k) := by
  refine of_fields _ _ rfl ?_
  have h1 : (cut 4 3 (0x2F : BitVec 7)).toNat = 2 := by decide
  have h2 : (cut 0 4 (0x2F : BitVec 7)).toNat = 15 := by decide
  simp (disch := omega) only [decodeFields, decRow2, enc, h1, h2, decInt, decLong, decLogic, decBcnt, decPmov, decMeet, decFloat, decFsign, decFexpo, decFstat, decFcvt, decIcvt, decAqld, decStfe, decCinv, decLatch, decNdone, decQctl, decMma, decMxmov, decMkey, decHbind, decHsend, decBar, decTret, decDetset, decClk, decCtxop, IntMod.fn, FloatMod.fn, MemMod.fn, offFn,
    cut_append_low, cut_append_high, cut_full, tap_append_low, tap_append_high, intMod, floatMod, memMod, code, fnNeed,
    abc, ab, ac, bc, aOnly, bOnly, cOnly, none3, abOff, abOff20, offset24, offset20]
  simp [Fields.ctl, offLo_kind, offHi_offLo, off20_kind, off20_value] <;> simp (decide := true) [cut, tap, MemWidth.ofCode]

theorem shmap (k : Ctl) (a b c : Operand) : Statement (.shmap k a b c) := by
  refine of_fields _ _ rfl ?_
  have h1 : (cut 4 3 (0x77 : BitVec 7)).toNat = 7 := by decide
  have h2 : (cut 0 4 (0x77 : BitVec 7)).toNat = 7 := by decide
  simp (disch := omega) only [decodeFields, decRow7, enc, h1, h2, decInt, decLong, decLogic, decBcnt, decPmov, decMeet, decFloat, decFsign, decFexpo, decFstat, decFcvt, decIcvt, decAqld, decStfe, decCinv, decLatch, decNdone, decQctl, decMma, decMxmov, decMkey, decHbind, decHsend, decBar, decTret, decDetset, decClk, decCtxop, IntMod.fn, FloatMod.fn, MemMod.fn, offFn,
    cut_append_low, cut_append_high, cut_full, tap_append_low, tap_append_high, intMod, floatMod, memMod, code, fnNeed,
    abc, ab, ac, bc, aOnly, bOnly, cOnly, none3, abOff, abOff20, offset24, offset20]
  simp [Fields.ctl, offLo_kind, offHi_offLo, off20_kind, off20_value] <;> simp (decide := true) [cut, tap, MemWidth.ofCode]

theorem shmapOff (k : Ctl) (a b c : Operand) : Statement (.shmapOff k a b c) := by
  refine of_fields _ _ rfl ?_
  have h1 : (cut 4 3 (0x77 : BitVec 7)).toNat = 7 := by decide
  have h2 : (cut 0 4 (0x77 : BitVec 7)).toNat = 7 := by decide
  simp (disch := omega) only [decodeFields, decRow7, enc, h1, h2, decInt, decLong, decLogic, decBcnt, decPmov, decMeet, decFloat, decFsign, decFexpo, decFstat, decFcvt, decIcvt, decAqld, decStfe, decCinv, decLatch, decNdone, decQctl, decMma, decMxmov, decMkey, decHbind, decHsend, decBar, decTret, decDetset, decClk, decCtxop, IntMod.fn, FloatMod.fn, MemMod.fn, offFn,
    cut_append_low, cut_append_high, cut_full, tap_append_low, tap_append_high, intMod, floatMod, memMod, code, fnNeed,
    abc, ab, ac, bc, aOnly, bOnly, cOnly, none3, abOff, abOff20, offset24, offset20]
  simp [Fields.ctl, offLo_kind, offHi_offLo, off20_kind, off20_value] <;> simp (decide := true) [cut, tap, MemWidth.ofCode]

theorem barGate (k : Ctl) (a : Operand) : Statement (.barGate k a) := by
  refine of_fields _ _ rfl ?_
  have h1 : (cut 4 3 (0x71 : BitVec 7)).toNat = 7 := by decide
  have h2 : (cut 0 4 (0x71 : BitVec 7)).toNat = 1 := by decide
  simp (disch := omega) only [decodeFields, decRow7, enc, h1, h2, decInt, decLong, decLogic, decBcnt, decPmov, decMeet, decFloat, decFsign, decFexpo, decFstat, decFcvt, decIcvt, decAqld, decStfe, decCinv, decLatch, decNdone, decQctl, decMma, decMxmov, decMkey, decHbind, decHsend, decBar, decTret, decDetset, decClk, decCtxop, IntMod.fn, FloatMod.fn, MemMod.fn, offFn,
    cut_append_low, cut_append_high, cut_full, tap_append_low, tap_append_high, intMod, floatMod, memMod, code, fnNeed,
    abc, ab, ac, bc, aOnly, bOnly, cOnly, none3, abOff, abOff20, offset24, offset20]
  simp [Fields.ctl, offLo_kind, offHi_offLo, off20_kind, off20_value] <;> simp (decide := true) [cut, tap, MemWidth.ofCode]

theorem barMark (k : Ctl) (a : Operand) : Statement (.barMark k a) := by
  refine of_fields _ _ rfl ?_
  have h1 : (cut 4 3 (0x71 : BitVec 7)).toNat = 7 := by decide
  have h2 : (cut 0 4 (0x71 : BitVec 7)).toNat = 1 := by decide
  simp (disch := omega) only [decodeFields, decRow7, enc, h1, h2, decInt, decLong, decLogic, decBcnt, decPmov, decMeet, decFloat, decFsign, decFexpo, decFstat, decFcvt, decIcvt, decAqld, decStfe, decCinv, decLatch, decNdone, decQctl, decMma, decMxmov, decMkey, decHbind, decHsend, decBar, decTret, decDetset, decClk, decCtxop, IntMod.fn, FloatMod.fn, MemMod.fn, offFn,
    cut_append_low, cut_append_high, cut_full, tap_append_low, tap_append_high, intMod, floatMod, memMod, code, fnNeed,
    abc, ab, ac, bc, aOnly, bOnly, cOnly, none3, abOff, abOff20, offset24, offset20]
  simp [Fields.ctl, offLo_kind, offHi_offLo, off20_kind, off20_value] <;> simp (decide := true) [cut, tap, MemWidth.ofCode]

theorem barHold (k : Ctl) (gen : Bool) (a b : Operand) : Statement (.barHold k gen a b) := by
  refine of_fields _ _ rfl ?_
  cases gen
  all_goals
    simp (decide := true) [decodeFields, decRow7, decBar, enc, ab, Fields.ctl, cut]

theorem barSet (k : Ctl) (a b : Operand) : Statement (.barSet k a b) := by
  refine of_fields _ _ rfl ?_
  have h1 : (cut 4 3 (0x71 : BitVec 7)).toNat = 7 := by decide
  have h2 : (cut 0 4 (0x71 : BitVec 7)).toNat = 1 := by decide
  simp (disch := omega) only [decodeFields, decRow7, enc, h1, h2, decInt, decLong, decLogic, decBcnt, decPmov, decMeet, decFloat, decFsign, decFexpo, decFstat, decFcvt, decIcvt, decAqld, decStfe, decCinv, decLatch, decNdone, decQctl, decMma, decMxmov, decMkey, decHbind, decHsend, decBar, decTret, decDetset, decClk, decCtxop, IntMod.fn, FloatMod.fn, MemMod.fn, offFn,
    cut_append_low, cut_append_high, cut_full, tap_append_low, tap_append_high, intMod, floatMod, memMod, code, fnNeed,
    abc, ab, ac, bc, aOnly, bOnly, cOnly, none3, abOff, abOff20, offset24, offset20]
  simp [Fields.ctl, offLo_kind, offHi_offLo, off20_kind, off20_value] <;> simp (decide := true) [cut, tap, MemWidth.ofCode]

theorem safept (k : Ctl) (c : Operand) : Statement (.safept k c) := by
  refine of_fields _ _ rfl ?_
  have h1 : (cut 4 3 (0x70 : BitVec 7)).toNat = 7 := by decide
  have h2 : (cut 0 4 (0x70 : BitVec 7)).toNat = 0 := by decide
  simp (disch := omega) only [decodeFields, decRow7, enc, h1, h2, decInt, decLong, decLogic, decBcnt, decPmov, decMeet, decFloat, decFsign, decFexpo, decFstat, decFcvt, decIcvt, decAqld, decStfe, decCinv, decLatch, decNdone, decQctl, decMma, decMxmov, decMkey, decHbind, decHsend, decBar, decTret, decDetset, decClk, decCtxop, IntMod.fn, FloatMod.fn, MemMod.fn, offFn,
    cut_append_low, cut_append_high, cut_full, tap_append_low, tap_append_high, intMod, floatMod, memMod, code, fnNeed,
    abc, ab, ac, bc, aOnly, bOnly, cOnly, none3, abOff, abOff20, offset24, offset20]
  simp [Fields.ctl, offLo_kind, offHi_offLo, off20_kind, off20_value] <;> simp (decide := true) [cut, tap, MemWidth.ofCode]

theorem safeptResume (k : Ctl) : Statement (.safeptResume k) := by
  refine of_fields _ _ rfl ?_
  have h1 : (cut 4 3 (0x70 : BitVec 7)).toNat = 7 := by decide
  have h2 : (cut 0 4 (0x70 : BitVec 7)).toNat = 0 := by decide
  simp (disch := omega) only [decodeFields, decRow7, enc, h1, h2, decInt, decLong, decLogic, decBcnt, decPmov, decMeet, decFloat, decFsign, decFexpo, decFstat, decFcvt, decIcvt, decAqld, decStfe, decCinv, decLatch, decNdone, decQctl, decMma, decMxmov, decMkey, decHbind, decHsend, decBar, decTret, decDetset, decClk, decCtxop, IntMod.fn, FloatMod.fn, MemMod.fn, offFn,
    cut_append_low, cut_append_high, cut_full, tap_append_low, tap_append_high, intMod, floatMod, memMod, code, fnNeed,
    abc, ab, ac, bc, aOnly, bOnly, cOnly, none3, abOff, abOff20, offset24, offset20]
  simp [Fields.ctl, offLo_kind, offHi_offLo, off20_kind, off20_value] <;> simp (decide := true) [cut, tap, MemWidth.ofCode]

theorem yieldI (k : Ctl) (c : Operand) : Statement (.yieldI k c) := by
  refine of_fields _ _ rfl ?_
  have h1 : (cut 4 3 (0x76 : BitVec 7)).toNat = 7 := by decide
  have h2 : (cut 0 4 (0x76 : BitVec 7)).toNat = 6 := by decide
  simp (disch := omega) only [decodeFields, decRow7, enc, h1, h2, decInt, decLong, decLogic, decBcnt, decPmov, decMeet, decFloat, decFsign, decFexpo, decFstat, decFcvt, decIcvt, decAqld, decStfe, decCinv, decLatch, decNdone, decQctl, decMma, decMxmov, decMkey, decHbind, decHsend, decBar, decTret, decDetset, decClk, decCtxop, IntMod.fn, FloatMod.fn, MemMod.fn, offFn,
    cut_append_low, cut_append_high, cut_full, tap_append_low, tap_append_high, intMod, floatMod, memMod, code, fnNeed,
    abc, ab, ac, bc, aOnly, bOnly, cOnly, none3, abOff, abOff20, offset24, offset20]
  simp [Fields.ctl, offLo_kind, offHi_offLo, off20_kind, off20_value] <;> simp (decide := true) [cut, tap, MemWidth.ofCode]

theorem ld (k : Ctl) (m : MemMod) (off : BitVec 24) (a b : Operand) : Statement (.ld k m off a b) := by
  refine of_fields _ _ rfl ?_
  have h1 : (cut 4 3 (0x50 : BitVec 7)).toNat = 5 := by decide
  have h2 : (cut 0 4 (0x50 : BitVec 7)).toNat = 0 := by decide
  simp (disch := omega) only [decodeFields, decRow5, enc, h1, h2, decInt, decLong, decLogic, decBcnt, decPmov, decMeet, decFloat, decFsign, decFexpo, decFstat, decFcvt, decIcvt, decAqld, decStfe, decCinv, decLatch, decNdone, decQctl, decMma, decMxmov, decMkey, decHbind, decHsend, decBar, decTret, decDetset, decClk, decCtxop, IntMod.fn, FloatMod.fn, MemMod.fn, offFn,
    cut_append_low, cut_append_high, cut_full, tap_append_low, tap_append_high, intMod, floatMod, memMod, code, fnNeed,
    abc, ab, ac, bc, aOnly, bOnly, cOnly, none3, abOff, abOff20, offset24, offset20]
  simp [Fields.ctl, offLo_kind, offHi_offLo, off20_kind, off20_value] <;> simp (decide := true) [cut, tap, MemWidth.ofCode]

theorem st (k : Ctl) (m : MemMod) (off : BitVec 24) (a b : Operand) : Statement (.st k m off a b) := by
  refine of_fields _ _ rfl ?_
  have h1 : (cut 4 3 (0x51 : BitVec 7)).toNat = 5 := by decide
  have h2 : (cut 0 4 (0x51 : BitVec 7)).toNat = 1 := by decide
  simp (disch := omega) only [decodeFields, decRow5, enc, h1, h2, decInt, decLong, decLogic, decBcnt, decPmov, decMeet, decFloat, decFsign, decFexpo, decFstat, decFcvt, decIcvt, decAqld, decStfe, decCinv, decLatch, decNdone, decQctl, decMma, decMxmov, decMkey, decHbind, decHsend, decBar, decTret, decDetset, decClk, decCtxop, IntMod.fn, FloatMod.fn, MemMod.fn, offFn,
    cut_append_low, cut_append_high, cut_full, tap_append_low, tap_append_high, intMod, floatMod, memMod, code, fnNeed,
    abc, ab, ac, bc, aOnly, bOnly, cOnly, none3, abOff, abOff20, offset24, offset20]
  simp [Fields.ctl, offLo_kind, offHi_offLo, off20_kind, off20_value] <;> simp (decide := true) [cut, tap, MemWidth.ofCode]

theorem lds (k : Ctl) (w : MemWidth) (off : BitVec 24) (a b : Operand) : Statement (.lds k w off a b) := by
  refine of_fields _ _ rfl ?_
  have h1 : (cut 4 3 (0x52 : BitVec 7)).toNat = 5 := by decide
  have h2 : (cut 0 4 (0x52 : BitVec 7)).toNat = 2 := by decide
  simp (disch := omega) only [decodeFields, decRow5, enc, h1, h2, decInt, decLong, decLogic, decBcnt, decPmov, decMeet, decFloat, decFsign, decFexpo, decFstat, decFcvt, decIcvt, decAqld, decStfe, decCinv, decLatch, decNdone, decQctl, decMma, decMxmov, decMkey, decHbind, decHsend, decBar, decTret, decDetset, decClk, decCtxop, IntMod.fn, FloatMod.fn, MemMod.fn, offFn,
    cut_append_low, cut_append_high, cut_full, tap_append_low, tap_append_high, intMod, floatMod, memMod, code, fnNeed,
    abc, ab, ac, bc, aOnly, bOnly, cOnly, none3, abOff, abOff20, offset24, offset20]
  simp [Fields.ctl, offLo_kind, offHi_offLo, off20_kind, off20_value] <;> simp (decide := true) [cut, tap, MemWidth.ofCode]

theorem sts (k : Ctl) (w : MemWidth) (off : BitVec 24) (a b : Operand) : Statement (.sts k w off a b) := by
  refine of_fields _ _ rfl ?_
  have h1 : (cut 4 3 (0x53 : BitVec 7)).toNat = 5 := by decide
  have h2 : (cut 0 4 (0x53 : BitVec 7)).toNat = 3 := by decide
  simp (disch := omega) only [decodeFields, decRow5, enc, h1, h2, decInt, decLong, decLogic, decBcnt, decPmov, decMeet, decFloat, decFsign, decFexpo, decFstat, decFcvt, decIcvt, decAqld, decStfe, decCinv, decLatch, decNdone, decQctl, decMma, decMxmov, decMkey, decHbind, decHsend, decBar, decTret, decDetset, decClk, decCtxop, IntMod.fn, FloatMod.fn, MemMod.fn, offFn,
    cut_append_low, cut_append_high, cut_full, tap_append_low, tap_append_high, intMod, floatMod, memMod, code, fnNeed,
    abc, ab, ac, bc, aOnly, bOnly, cOnly, none3, abOff, abOff20, offset24, offset20]
  simp [Fields.ctl, offLo_kind, offHi_offLo, off20_kind, off20_value] <;> simp (decide := true) [cut, tap, MemWidth.ofCode]

theorem ldfe (k : Ctl) (take : Bool) (w : MemWidth) (off : BitVec 24) (a b : Operand) : Statement (.ldfe k take w off a b) := by
  refine of_fields _ _ rfl ?_
  have h1 : (cut 4 3 (0x54 : BitVec 7)).toNat = 5 := by decide
  have h2 : (cut 0 4 (0x54 : BitVec 7)).toNat = 4 := by decide
  simp (disch := omega) only [decodeFields, decRow5, enc, h1, h2, decInt, decLong, decLogic, decBcnt, decPmov, decMeet, decFloat, decFsign, decFexpo, decFstat, decFcvt, decIcvt, decAqld, decStfe, decCinv, decLatch, decNdone, decQctl, decMma, decMxmov, decMkey, decHbind, decHsend, decBar, decTret, decDetset, decClk, decCtxop, IntMod.fn, FloatMod.fn, MemMod.fn, offFn,
    cut_append_low, cut_append_high, cut_full, tap_append_low, tap_append_high, intMod, floatMod, memMod, code, fnNeed,
    abc, ab, ac, bc, aOnly, bOnly, cOnly, none3, abOff, abOff20, offset24, offset20]
  simp [Fields.ctl, offLo_kind, offHi_offLo, off20_kind, off20_value] <;> simp (decide := true) [cut, tap, MemWidth.ofCode]

theorem stfe (k : Ctl) (w : MemWidth) (off : BitVec 24) (a b : Operand) : Statement (.stfe k w off a b) := by
  refine of_fields _ _ rfl ?_
  have h1 : (cut 4 3 (0x55 : BitVec 7)).toNat = 5 := by decide
  have h2 : (cut 0 4 (0x55 : BitVec 7)).toNat = 5 := by decide
  simp (disch := omega) only [decodeFields, decRow5, enc, h1, h2, decInt, decLong, decLogic, decBcnt, decPmov, decMeet, decFloat, decFsign, decFexpo, decFstat, decFcvt, decIcvt, decAqld, decStfe, decCinv, decLatch, decNdone, decQctl, decMma, decMxmov, decMkey, decHbind, decHsend, decBar, decTret, decDetset, decClk, decCtxop, IntMod.fn, FloatMod.fn, MemMod.fn, offFn,
    cut_append_low, cut_append_high, cut_full, tap_append_low, tap_append_high, intMod, floatMod, memMod, code, fnNeed,
    abc, ab, ac, bc, aOnly, bOnly, cOnly, none3, abOff, abOff20, offset24, offset20]
  simp [Fields.ctl, offLo_kind, offHi_offLo, off20_kind, off20_value] <;> simp (decide := true) [cut, tap, MemWidth.ofCode]

theorem stfeClr (k : Ctl) (off : BitVec 24) (b : Operand) : Statement (.stfeClr k off b) := by
  refine of_fields _ _ rfl ?_
  have h1 : (cut 4 3 (0x55 : BitVec 7)).toNat = 5 := by decide
  have h2 : (cut 0 4 (0x55 : BitVec 7)).toNat = 5 := by decide
  simp (disch := omega) only [decodeFields, decRow5, enc, h1, h2, decInt, decLong, decLogic, decBcnt, decPmov, decMeet, decFloat, decFsign, decFexpo, decFstat, decFcvt, decIcvt, decAqld, decStfe, decCinv, decLatch, decNdone, decQctl, decMma, decMxmov, decMkey, decHbind, decHsend, decBar, decTret, decDetset, decClk, decCtxop, IntMod.fn, FloatMod.fn, MemMod.fn, offFn,
    cut_append_low, cut_append_high, cut_full, tap_append_low, tap_append_high, intMod, floatMod, memMod, code, fnNeed,
    abc, ab, ac, bc, aOnly, bOnly, cOnly, none3, abOff, abOff20, offset24, offset20]
  simp [Fields.ctl, offLo_kind, offHi_offLo, off20_kind, off20_value] <;> simp (decide := true) [cut, tap, MemWidth.ofCode]

theorem atom (k : Ctl) (op : AtomOp) (m : MemMod) (off : BitVec 20) (a b : Operand) : Statement (.atom k op m off a b) := by
  refine of_fields _ _ rfl ?_
  have h1 : (cut 4 3 (0x56 : BitVec 7)).toNat = 5 := by decide
  have h2 : (cut 0 4 (0x56 : BitVec 7)).toNat = 6 := by decide
  simp (disch := omega) only [decodeFields, decRow5, enc, h1, h2, decInt, decLong, decLogic, decBcnt, decPmov, decMeet, decFloat, decFsign, decFexpo, decFstat, decFcvt, decIcvt, decAqld, decStfe, decCinv, decLatch, decNdone, decQctl, decMma, decMxmov, decMkey, decHbind, decHsend, decBar, decTret, decDetset, decClk, decCtxop, IntMod.fn, FloatMod.fn, MemMod.fn, offFn,
    cut_append_low, cut_append_high, cut_full, tap_append_low, tap_append_high, intMod, floatMod, memMod, code, fnNeed,
    abc, ab, ac, bc, aOnly, bOnly, cOnly, none3, abOff, abOff20, offset24, offset20]
  simp [Fields.ctl, offLo_kind, offHi_offLo, off20_kind, off20_value] <;> simp (decide := true) [cut, tap, MemWidth.ofCode]

theorem atoms (k : Ctl) (op : AtomOp) (w64 : Bool) (off : BitVec 20) (a b : Operand) : Statement (.atoms k op w64 off a b) := by
  refine of_fields _ _ rfl ?_
  have h1 : (cut 4 3 (0x57 : BitVec 7)).toNat = 5 := by decide
  have h2 : (cut 0 4 (0x57 : BitVec 7)).toNat = 7 := by decide
  simp (disch := omega) only [decodeFields, decRow5, enc, h1, h2, decInt, decLong, decLogic, decBcnt, decPmov, decMeet, decFloat, decFsign, decFexpo, decFstat, decFcvt, decIcvt, decAqld, decStfe, decCinv, decLatch, decNdone, decQctl, decMma, decMxmov, decMkey, decHbind, decHsend, decBar, decTret, decDetset, decClk, decCtxop, IntMod.fn, FloatMod.fn, MemMod.fn, offFn,
    cut_append_low, cut_append_high, cut_full, tap_append_low, tap_append_high, intMod, floatMod, memMod, code, fnNeed,
    abc, ab, ac, bc, aOnly, bOnly, cOnly, none3, abOff, abOff20, offset24, offset20]
  simp [Fields.ctl, offLo_kind, offHi_offLo, off20_kind, off20_value] <;> simp (decide := true) [cut, tap, MemWidth.ofCode]

theorem red (k : Ctl) (op : AtomOp) (m : MemMod) (off : BitVec 20) (a b : Operand) : Statement (.red k op m off a b) := by
  refine of_fields _ _ rfl ?_
  have h1 : (cut 4 3 (0x58 : BitVec 7)).toNat = 5 := by decide
  have h2 : (cut 0 4 (0x58 : BitVec 7)).toNat = 8 := by decide
  simp (disch := omega) only [decodeFields, decRow5, enc, h1, h2, decInt, decLong, decLogic, decBcnt, decPmov, decMeet, decFloat, decFsign, decFexpo, decFstat, decFcvt, decIcvt, decAqld, decStfe, decCinv, decLatch, decNdone, decQctl, decMma, decMxmov, decMkey, decHbind, decHsend, decBar, decTret, decDetset, decClk, decCtxop, IntMod.fn, FloatMod.fn, MemMod.fn, offFn,
    cut_append_low, cut_append_high, cut_full, tap_append_low, tap_append_high, intMod, floatMod, memMod, code, fnNeed,
    abc, ab, ac, bc, aOnly, bOnly, cOnly, none3, abOff, abOff20, offset24, offset20]
  simp [Fields.ctl, offLo_kind, offHi_offLo, off20_kind, off20_value] <;> simp (decide := true) [cut, tap, MemWidth.ofCode]

theorem splook (k : Ctl) (a b c : Operand) : Statement (.splook k a b c) := by
  refine of_fields _ _ rfl ?_
  have h1 : (cut 4 3 (0x59 : BitVec 7)).toNat = 5 := by decide
  have h2 : (cut 0 4 (0x59 : BitVec 7)).toNat = 9 := by decide
  simp (disch := omega) only [decodeFields, decRow5, enc, h1, h2, decInt, decLong, decLogic, decBcnt, decPmov, decMeet, decFloat, decFsign, decFexpo, decFstat, decFcvt, decIcvt, decAqld, decStfe, decCinv, decLatch, decNdone, decQctl, decMma, decMxmov, decMkey, decHbind, decHsend, decBar, decTret, decDetset, decClk, decCtxop, IntMod.fn, FloatMod.fn, MemMod.fn, offFn,
    cut_append_low, cut_append_high, cut_full, tap_append_low, tap_append_high, intMod, floatMod, memMod, code, fnNeed,
    abc, ab, ac, bc, aOnly, bOnly, cOnly, none3, abOff, abOff20, offset24, offset20]
  simp [Fields.ctl, offLo_kind, offHi_offLo, off20_kind, off20_value] <;> simp (decide := true) [cut, tap, MemWidth.ofCode]

theorem sptag (k : Ctl) (a b c : Operand) : Statement (.sptag k a b c) := by
  refine of_fields _ _ rfl ?_
  have h1 : (cut 4 3 (0x5A : BitVec 7)).toNat = 5 := by decide
  have h2 : (cut 0 4 (0x5A : BitVec 7)).toNat = 10 := by decide
  simp (disch := omega) only [decodeFields, decRow5, enc, h1, h2, decInt, decLong, decLogic, decBcnt, decPmov, decMeet, decFloat, decFsign, decFexpo, decFstat, decFcvt, decIcvt, decAqld, decStfe, decCinv, decLatch, decNdone, decQctl, decMma, decMxmov, decMkey, decHbind, decHsend, decBar, decTret, decDetset, decClk, decCtxop, IntMod.fn, FloatMod.fn, MemMod.fn, offFn,
    cut_append_low, cut_append_high, cut_full, tap_append_low, tap_append_high, intMod, floatMod, memMod, code, fnNeed,
    abc, ab, ac, bc, aOnly, bOnly, cOnly, none3, abOff, abOff20, offset24, offset20]
  simp [Fields.ctl, offLo_kind, offHi_offLo, off20_kind, off20_value] <;> simp (decide := true) [cut, tap, MemWidth.ofCode]

theorem sptagDel (k : Ctl) (a c : Operand) : Statement (.sptagDel k a c) := by
  refine of_fields _ _ rfl ?_
  have h1 : (cut 4 3 (0x5A : BitVec 7)).toNat = 5 := by decide
  have h2 : (cut 0 4 (0x5A : BitVec 7)).toNat = 10 := by decide
  simp (disch := omega) only [decodeFields, decRow5, enc, h1, h2, decInt, decLong, decLogic, decBcnt, decPmov, decMeet, decFloat, decFsign, decFexpo, decFstat, decFcvt, decIcvt, decAqld, decStfe, decCinv, decLatch, decNdone, decQctl, decMma, decMxmov, decMkey, decHbind, decHsend, decBar, decTret, decDetset, decClk, decCtxop, IntMod.fn, FloatMod.fn, MemMod.fn, offFn,
    cut_append_low, cut_append_high, cut_full, tap_append_low, tap_append_high, intMod, floatMod, memMod, code, fnNeed,
    abc, ab, ac, bc, aOnly, bOnly, cOnly, none3, abOff, abOff20, offset24, offset20]
  simp [Fields.ctl, offLo_kind, offHi_offLo, off20_kind, off20_value] <;> simp (decide := true) [cut, tap, MemWidth.ofCode]

theorem fence (k : Ctl) (kind : FenceKind) (sc : Scope) : Statement (.fence k kind sc) := by
  refine of_fields _ _ rfl ?_
  have h1 : (cut 4 3 (0x5B : BitVec 7)).toNat = 5 := by decide
  have h2 : (cut 0 4 (0x5B : BitVec 7)).toNat = 11 := by decide
  simp (disch := omega) only [decodeFields, decRow5, enc, h1, h2, decInt, decLong, decLogic, decBcnt, decPmov, decMeet, decFloat, decFsign, decFexpo, decFstat, decFcvt, decIcvt, decAqld, decStfe, decCinv, decLatch, decNdone, decQctl, decMma, decMxmov, decMkey, decHbind, decHsend, decBar, decTret, decDetset, decClk, decCtxop, IntMod.fn, FloatMod.fn, MemMod.fn, offFn,
    cut_append_low, cut_append_high, cut_full, tap_append_low, tap_append_high, intMod, floatMod, memMod, code, fnNeed,
    abc, ab, ac, bc, aOnly, bOnly, cOnly, none3, abOff, abOff20, offset24, offset20]
  simp [Fields.ctl, offLo_kind, offHi_offLo, off20_kind, off20_value] <;> simp (decide := true) [cut, tap, MemWidth.ofCode]

theorem fenceH (k : Ctl) (kind : FenceKind) (sc : Scope) : Statement (.fenceH k kind sc) := by
  refine of_fields _ _ rfl ?_
  have h1 : (cut 4 3 (0x5B : BitVec 7)).toNat = 5 := by decide
  have h2 : (cut 0 4 (0x5B : BitVec 7)).toNat = 11 := by decide
  simp (disch := omega) only [decodeFields, decRow5, enc, h1, h2, decInt, decLong, decLogic, decBcnt, decPmov, decMeet, decFloat, decFsign, decFexpo, decFstat, decFcvt, decIcvt, decAqld, decStfe, decCinv, decLatch, decNdone, decQctl, decMma, decMxmov, decMkey, decHbind, decHsend, decBar, decTret, decDetset, decClk, decCtxop, IntMod.fn, FloatMod.fn, MemMod.fn, offFn,
    cut_append_low, cut_append_high, cut_full, tap_append_low, tap_append_high, intMod, floatMod, memMod, code, fnNeed,
    abc, ab, ac, bc, aOnly, bOnly, cOnly, none3, abOff, abOff20, offset24, offset20]
  simp [Fields.ctl, offLo_kind, offHi_offLo, off20_kind, off20_value] <;> simp (decide := true) [cut, tap, MemWidth.ofCode]

theorem waitmem (k : Ctl) (cnd : WaitCond) (sc : Scope) (w64 : Bool) (off : BitVec 24) (a b : Operand) : Statement (.waitmem k cnd sc w64 off a b) := by
  refine of_fields _ _ rfl ?_
  have h1 : (cut 4 3 (0x5C : BitVec 7)).toNat = 5 := by decide
  have h2 : (cut 0 4 (0x5C : BitVec 7)).toNat = 12 := by decide
  simp (disch := omega) only [decodeFields, decRow5, enc, h1, h2, decInt, decLong, decLogic, decBcnt, decPmov, decMeet, decFloat, decFsign, decFexpo, decFstat, decFcvt, decIcvt, decAqld, decStfe, decCinv, decLatch, decNdone, decQctl, decMma, decMxmov, decMkey, decHbind, decHsend, decBar, decTret, decDetset, decClk, decCtxop, IntMod.fn, FloatMod.fn, MemMod.fn, offFn,
    cut_append_low, cut_append_high, cut_full, tap_append_low, tap_append_high, intMod, floatMod, memMod, code, fnNeed,
    abc, ab, ac, bc, aOnly, bOnly, cOnly, none3, abOff, abOff20, offset24, offset20]
  simp [Fields.ctl, offLo_kind, offHi_offLo, off20_kind, off20_value] <;> simp (decide := true) [cut, tap, MemWidth.ofCode]

theorem pref (k : Ctl) (off : BitVec 24) (b : Operand) : Statement (.pref k off b) := by
  refine of_fields _ _ rfl ?_
  have h1 : (cut 4 3 (0x5D : BitVec 7)).toNat = 5 := by decide
  have h2 : (cut 0 4 (0x5D : BitVec 7)).toNat = 13 := by decide
  simp (disch := omega) only [decodeFields, decRow5, enc, h1, h2, decInt, decLong, decLogic, decBcnt, decPmov, decMeet, decFloat, decFsign, decFexpo, decFstat, decFcvt, decIcvt, decAqld, decStfe, decCinv, decLatch, decNdone, decQctl, decMma, decMxmov, decMkey, decHbind, decHsend, decBar, decTret, decDetset, decClk, decCtxop, IntMod.fn, FloatMod.fn, MemMod.fn, offFn,
    cut_append_low, cut_append_high, cut_full, tap_append_low, tap_append_high, intMod, floatMod, memMod, code, fnNeed,
    abc, ab, ac, bc, aOnly, bOnly, cOnly, none3, abOff, abOff20, offset24, offset20]
  simp [Fields.ctl, offLo_kind, offHi_offLo, off20_kind, off20_value] <;> simp (decide := true) [cut, tap, MemWidth.ofCode]

theorem cinvI (k : Ctl) (sc : CinvScope) : Statement (.cinvI k sc) := by
  refine of_fields _ _ rfl ?_
  have h1 : (cut 4 3 (0x5E : BitVec 7)).toNat = 5 := by decide
  have h2 : (cut 0 4 (0x5E : BitVec 7)).toNat = 14 := by decide
  simp (disch := omega) only [decodeFields, decRow5, enc, h1, h2, decInt, decLong, decLogic, decBcnt, decPmov, decMeet, decFloat, decFsign, decFexpo, decFstat, decFcvt, decIcvt, decAqld, decStfe, decCinv, decLatch, decNdone, decQctl, decMma, decMxmov, decMkey, decHbind, decHsend, decBar, decTret, decDetset, decClk, decCtxop, IntMod.fn, FloatMod.fn, MemMod.fn, offFn,
    cut_append_low, cut_append_high, cut_full, tap_append_low, tap_append_high, intMod, floatMod, memMod, code, fnNeed,
    abc, ab, ac, bc, aOnly, bOnly, cOnly, none3, abOff, abOff20, offset24, offset20]
  simp [Fields.ctl, offLo_kind, offHi_offLo, off20_kind, off20_value] <;> simp (decide := true) [cut, tap, MemWidth.ofCode]

theorem cinvL2 (k : Ctl) (off : BitVec 24) (b : Operand) : Statement (.cinvL2 k off b) := by
  refine of_fields _ _ rfl ?_
  have h1 : (cut 4 3 (0x5E : BitVec 7)).toNat = 5 := by decide
  have h2 : (cut 0 4 (0x5E : BitVec 7)).toNat = 14 := by decide
  simp (disch := omega) only [decodeFields, decRow5, enc, h1, h2, decInt, decLong, decLogic, decBcnt, decPmov, decMeet, decFloat, decFsign, decFexpo, decFstat, decFcvt, decIcvt, decAqld, decStfe, decCinv, decLatch, decNdone, decQctl, decMma, decMxmov, decMkey, decHbind, decHsend, decBar, decTret, decDetset, decClk, decCtxop, IntMod.fn, FloatMod.fn, MemMod.fn, offFn,
    cut_append_low, cut_append_high, cut_full, tap_append_low, tap_append_high, intMod, floatMod, memMod, code, fnNeed,
    abc, ab, ac, bc, aOnly, bOnly, cOnly, none3, abOff, abOff20, offset24, offset20]
  simp [Fields.ctl, offLo_kind, offHi_offLo, off20_kind, off20_value] <;> simp (decide := true) [cut, tap, MemWidth.ofCode]

theorem latchSrc (k : Ctl) (sp : Bool) (a b c : Operand) : Statement (.latchSrc k sp a b c) := by
  refine of_fields _ _ rfl ?_
  have h1 : (cut 4 3 (0x5F : BitVec 7)).toNat = 5 := by decide
  have h2 : (cut 0 4 (0x5F : BitVec 7)).toNat = 15 := by decide
  simp (disch := omega) only [decodeFields, decRow5, enc, h1, h2, decInt, decLong, decLogic, decBcnt, decPmov, decMeet, decFloat, decFsign, decFexpo, decFstat, decFcvt, decIcvt, decAqld, decStfe, decCinv, decLatch, decNdone, decQctl, decMma, decMxmov, decMkey, decHbind, decHsend, decBar, decTret, decDetset, decClk, decCtxop, IntMod.fn, FloatMod.fn, MemMod.fn, offFn,
    cut_append_low, cut_append_high, cut_full, tap_append_low, tap_append_high, intMod, floatMod, memMod, code, fnNeed,
    abc, ab, ac, bc, aOnly, bOnly, cOnly, none3, abOff, abOff20, offset24, offset20]
  simp [Fields.ctl, offLo_kind, offHi_offLo, off20_kind, off20_value] <;> simp (decide := true) [cut, tap, MemWidth.ofCode]

theorem latchDst (k : Ctl) (sp : Bool) (a b c : Operand) : Statement (.latchDst k sp a b c) := by
  refine of_fields _ _ rfl ?_
  have h1 : (cut 4 3 (0x5F : BitVec 7)).toNat = 5 := by decide
  have h2 : (cut 0 4 (0x5F : BitVec 7)).toNat = 15 := by decide
  simp (disch := omega) only [decodeFields, decRow5, enc, h1, h2, decInt, decLong, decLogic, decBcnt, decPmov, decMeet, decFloat, decFsign, decFexpo, decFstat, decFcvt, decIcvt, decAqld, decStfe, decCinv, decLatch, decNdone, decQctl, decMma, decMxmov, decMkey, decHbind, decHsend, decBar, decTret, decDetset, decClk, decCtxop, IntMod.fn, FloatMod.fn, MemMod.fn, offFn,
    cut_append_low, cut_append_high, cut_full, tap_append_low, tap_append_high, intMod, floatMod, memMod, code, fnNeed,
    abc, ab, ac, bc, aOnly, bOnly, cOnly, none3, abOff, abOff20, offset24, offset20]
  simp [Fields.ctl, offLo_kind, offHi_offLo, off20_kind, off20_value] <;> simp (decide := true) [cut, tap, MemWidth.ofCode]

theorem latchRel (k : Ctl) (sp : Bool) (b : Operand) : Statement (.latchRel k sp b) := by
  refine of_fields _ _ rfl ?_
  have h1 : (cut 4 3 (0x5F : BitVec 7)).toNat = 5 := by decide
  have h2 : (cut 0 4 (0x5F : BitVec 7)).toNat = 15 := by decide
  simp (disch := omega) only [decodeFields, decRow5, enc, h1, h2, decInt, decLong, decLogic, decBcnt, decPmov, decMeet, decFloat, decFsign, decFexpo, decFstat, decFcvt, decIcvt, decAqld, decStfe, decCinv, decLatch, decNdone, decQctl, decMma, decMxmov, decMkey, decHbind, decHsend, decBar, decTret, decDetset, decClk, decCtxop, IntMod.fn, FloatMod.fn, MemMod.fn, offFn,
    cut_append_low, cut_append_high, cut_full, tap_append_low, tap_append_high, intMod, floatMod, memMod, code, fnNeed,
    abc, ab, ac, bc, aOnly, bOnly, cOnly, none3, abOff, abOff20, offset24, offset20]
  simp [Fields.ctl, offLo_kind, offHi_offLo, off20_kind, off20_value] <;> simp (decide := true) [cut, tap, MemWidth.ofCode]

theorem latchGrant (ctx i : Nat) : Statement (.latchGrant ctx i) := of_none _ rfl

theorem storeCommit (g : Agent) : Statement (.storeCommit g) := of_none _ rfl

theorem storePerformed (core i : Nat) : Statement (.storePerformed core i) := of_none _ rfl

theorem iadd (k : Ctl) (m : IntMod) (a b c : Operand) : Statement (.iadd k m a b c) := by
  refine of_fields _ _ rfl ?_
  have h1 : (cut 4 3 (0x00 : BitVec 7)).toNat = 0 := by decide
  have h2 : (cut 0 4 (0x00 : BitVec 7)).toNat = 0 := by decide
  simp (disch := omega) only [decodeFields, decRow0, enc, h1, h2, decInt, decLong, decLogic, decBcnt, decPmov, decMeet, decFloat, decFsign, decFexpo, decFstat, decFcvt, decIcvt, decAqld, decStfe, decCinv, decLatch, decNdone, decQctl, decMma, decMxmov, decMkey, decHbind, decHsend, decBar, decTret, decDetset, decClk, decCtxop, IntMod.fn, FloatMod.fn, MemMod.fn, offFn,
    cut_append_low, cut_append_high, cut_full, tap_append_low, tap_append_high, intMod, floatMod, memMod, code, fnNeed,
    abc, ab, ac, bc, aOnly, bOnly, cOnly, none3, abOff, abOff20, offset24, offset20]
  simp [Fields.ctl, offLo_kind, offHi_offLo, off20_kind, off20_value] <;> simp (decide := true) [cut, tap, MemWidth.ofCode]

theorem isub (k : Ctl) (m : IntMod) (a b c : Operand) : Statement (.isub k m a b c) := by
  refine of_fields _ _ rfl ?_
  have h1 : (cut 4 3 (0x01 : BitVec 7)).toNat = 0 := by decide
  have h2 : (cut 0 4 (0x01 : BitVec 7)).toNat = 1 := by decide
  simp (disch := omega) only [decodeFields, decRow0, enc, h1, h2, decInt, decLong, decLogic, decBcnt, decPmov, decMeet, decFloat, decFsign, decFexpo, decFstat, decFcvt, decIcvt, decAqld, decStfe, decCinv, decLatch, decNdone, decQctl, decMma, decMxmov, decMkey, decHbind, decHsend, decBar, decTret, decDetset, decClk, decCtxop, IntMod.fn, FloatMod.fn, MemMod.fn, offFn,
    cut_append_low, cut_append_high, cut_full, tap_append_low, tap_append_high, intMod, floatMod, memMod, code, fnNeed,
    abc, ab, ac, bc, aOnly, bOnly, cOnly, none3, abOff, abOff20, offset24, offset20]
  simp [Fields.ctl, offLo_kind, offHi_offLo, off20_kind, off20_value] <;> simp (decide := true) [cut, tap, MemWidth.ofCode]

theorem imul (k : Ctl) (m : IntMod) (a b c : Operand) : Statement (.imul k m a b c) := by
  refine of_fields _ _ rfl ?_
  have h1 : (cut 4 3 (0x02 : BitVec 7)).toNat = 0 := by decide
  have h2 : (cut 0 4 (0x02 : BitVec 7)).toNat = 2 := by decide
  simp (disch := omega) only [decodeFields, decRow0, enc, h1, h2, decInt, decLong, decLogic, decBcnt, decPmov, decMeet, decFloat, decFsign, decFexpo, decFstat, decFcvt, decIcvt, decAqld, decStfe, decCinv, decLatch, decNdone, decQctl, decMma, decMxmov, decMkey, decHbind, decHsend, decBar, decTret, decDetset, decClk, decCtxop, IntMod.fn, FloatMod.fn, MemMod.fn, offFn,
    cut_append_low, cut_append_high, cut_full, tap_append_low, tap_append_high, intMod, floatMod, memMod, code, fnNeed,
    abc, ab, ac, bc, aOnly, bOnly, cOnly, none3, abOff, abOff20, offset24, offset20]
  simp [Fields.ctl, offLo_kind, offHi_offLo, off20_kind, off20_value] <;> simp (decide := true) [cut, tap, MemWidth.ofCode]

theorem imulh (k : Ctl) (m : IntMod) (a b c : Operand) : Statement (.imulh k m a b c) := by
  refine of_fields _ _ rfl ?_
  have h1 : (cut 4 3 (0x03 : BitVec 7)).toNat = 0 := by decide
  have h2 : (cut 0 4 (0x03 : BitVec 7)).toNat = 3 := by decide
  simp (disch := omega) only [decodeFields, decRow0, enc, h1, h2, decInt, decLong, decLogic, decBcnt, decPmov, decMeet, decFloat, decFsign, decFexpo, decFstat, decFcvt, decIcvt, decAqld, decStfe, decCinv, decLatch, decNdone, decQctl, decMma, decMxmov, decMkey, decHbind, decHsend, decBar, decTret, decDetset, decClk, decCtxop, IntMod.fn, FloatMod.fn, MemMod.fn, offFn,
    cut_append_low, cut_append_high, cut_full, tap_append_low, tap_append_high, intMod, floatMod, memMod, code, fnNeed,
    abc, ab, ac, bc, aOnly, bOnly, cOnly, none3, abOff, abOff20, offset24, offset20]
  simp [Fields.ctl, offLo_kind, offHi_offLo, off20_kind, off20_value] <;> simp (decide := true) [cut, tap, MemWidth.ofCode]

theorem imad (k : Ctl) (m : IntMod) (a b c : Operand) : Statement (.imad k m a b c) := by
  refine of_fields _ _ rfl ?_
  have h1 : (cut 4 3 (0x04 : BitVec 7)).toNat = 0 := by decide
  have h2 : (cut 0 4 (0x04 : BitVec 7)).toNat = 4 := by decide
  simp (disch := omega) only [decodeFields, decRow0, enc, h1, h2, decInt, decLong, decLogic, decBcnt, decPmov, decMeet, decFloat, decFsign, decFexpo, decFstat, decFcvt, decIcvt, decAqld, decStfe, decCinv, decLatch, decNdone, decQctl, decMma, decMxmov, decMkey, decHbind, decHsend, decBar, decTret, decDetset, decClk, decCtxop, IntMod.fn, FloatMod.fn, MemMod.fn, offFn,
    cut_append_low, cut_append_high, cut_full, tap_append_low, tap_append_high, intMod, floatMod, memMod, code, fnNeed,
    abc, ab, ac, bc, aOnly, bOnly, cOnly, none3, abOff, abOff20, offset24, offset20]
  simp [Fields.ctl, offLo_kind, offHi_offLo, off20_kind, off20_value] <;> simp (decide := true) [cut, tap, MemWidth.ofCode]

theorem idiv (k : Ctl) (m : IntMod) (a b c : Operand) : Statement (.idiv k m a b c) := by
  refine of_fields _ _ rfl ?_
  have h1 : (cut 4 3 (0x05 : BitVec 7)).toNat = 0 := by decide
  have h2 : (cut 0 4 (0x05 : BitVec 7)).toNat = 5 := by decide
  simp (disch := omega) only [decodeFields, decRow0, enc, h1, h2, decInt, decLong, decLogic, decBcnt, decPmov, decMeet, decFloat, decFsign, decFexpo, decFstat, decFcvt, decIcvt, decAqld, decStfe, decCinv, decLatch, decNdone, decQctl, decMma, decMxmov, decMkey, decHbind, decHsend, decBar, decTret, decDetset, decClk, decCtxop, IntMod.fn, FloatMod.fn, MemMod.fn, offFn,
    cut_append_low, cut_append_high, cut_full, tap_append_low, tap_append_high, intMod, floatMod, memMod, code, fnNeed,
    abc, ab, ac, bc, aOnly, bOnly, cOnly, none3, abOff, abOff20, offset24, offset20]
  simp [Fields.ctl, offLo_kind, offHi_offLo, off20_kind, off20_value] <;> simp (decide := true) [cut, tap, MemWidth.ofCode]

theorem irem (k : Ctl) (m : IntMod) (a b c : Operand) : Statement (.irem k m a b c) := by
  refine of_fields _ _ rfl ?_
  have h1 : (cut 4 3 (0x06 : BitVec 7)).toNat = 0 := by decide
  have h2 : (cut 0 4 (0x06 : BitVec 7)).toNat = 6 := by decide
  simp (disch := omega) only [decodeFields, decRow0, enc, h1, h2, decInt, decLong, decLogic, decBcnt, decPmov, decMeet, decFloat, decFsign, decFexpo, decFstat, decFcvt, decIcvt, decAqld, decStfe, decCinv, decLatch, decNdone, decQctl, decMma, decMxmov, decMkey, decHbind, decHsend, decBar, decTret, decDetset, decClk, decCtxop, IntMod.fn, FloatMod.fn, MemMod.fn, offFn,
    cut_append_low, cut_append_high, cut_full, tap_append_low, tap_append_high, intMod, floatMod, memMod, code, fnNeed,
    abc, ab, ac, bc, aOnly, bOnly, cOnly, none3, abOff, abOff20, offset24, offset20]
  simp [Fields.ctl, offLo_kind, offHi_offLo, off20_kind, off20_value] <;> simp (decide := true) [cut, tap, MemWidth.ofCode]

theorem imin (k : Ctl) (m : IntMod) (a b c : Operand) : Statement (.imin k m a b c) := by
  refine of_fields _ _ rfl ?_
  have h1 : (cut 4 3 (0x07 : BitVec 7)).toNat = 0 := by decide
  have h2 : (cut 0 4 (0x07 : BitVec 7)).toNat = 7 := by decide
  simp (disch := omega) only [decodeFields, decRow0, enc, h1, h2, decInt, decLong, decLogic, decBcnt, decPmov, decMeet, decFloat, decFsign, decFexpo, decFstat, decFcvt, decIcvt, decAqld, decStfe, decCinv, decLatch, decNdone, decQctl, decMma, decMxmov, decMkey, decHbind, decHsend, decBar, decTret, decDetset, decClk, decCtxop, IntMod.fn, FloatMod.fn, MemMod.fn, offFn,
    cut_append_low, cut_append_high, cut_full, tap_append_low, tap_append_high, intMod, floatMod, memMod, code, fnNeed,
    abc, ab, ac, bc, aOnly, bOnly, cOnly, none3, abOff, abOff20, offset24, offset20]
  simp [Fields.ctl, offLo_kind, offHi_offLo, off20_kind, off20_value] <;> simp (decide := true) [cut, tap, MemWidth.ofCode]

theorem imax (k : Ctl) (m : IntMod) (a b c : Operand) : Statement (.imax k m a b c) := by
  refine of_fields _ _ rfl ?_
  have h1 : (cut 4 3 (0x08 : BitVec 7)).toNat = 0 := by decide
  have h2 : (cut 0 4 (0x08 : BitVec 7)).toNat = 8 := by decide
  simp (disch := omega) only [decodeFields, decRow0, enc, h1, h2, decInt, decLong, decLogic, decBcnt, decPmov, decMeet, decFloat, decFsign, decFexpo, decFstat, decFcvt, decIcvt, decAqld, decStfe, decCinv, decLatch, decNdone, decQctl, decMma, decMxmov, decMkey, decHbind, decHsend, decBar, decTret, decDetset, decClk, decCtxop, IntMod.fn, FloatMod.fn, MemMod.fn, offFn,
    cut_append_low, cut_append_high, cut_full, tap_append_low, tap_append_high, intMod, floatMod, memMod, code, fnNeed,
    abc, ab, ac, bc, aOnly, bOnly, cOnly, none3, abOff, abOff20, offset24, offset20]
  simp [Fields.ctl, offLo_kind, offHi_offLo, off20_kind, off20_value] <;> simp (decide := true) [cut, tap, MemWidth.ofCode]

theorem iabs (k : Ctl) (m : IntMod) (a b : Operand) : Statement (.iabs k m a b) := by
  refine of_fields _ _ rfl ?_
  have h1 : (cut 4 3 (0x09 : BitVec 7)).toNat = 0 := by decide
  have h2 : (cut 0 4 (0x09 : BitVec 7)).toNat = 9 := by decide
  simp (disch := omega) only [decodeFields, decRow0, enc, h1, h2, decInt, decLong, decLogic, decBcnt, decPmov, decMeet, decFloat, decFsign, decFexpo, decFstat, decFcvt, decIcvt, decAqld, decStfe, decCinv, decLatch, decNdone, decQctl, decMma, decMxmov, decMkey, decHbind, decHsend, decBar, decTret, decDetset, decClk, decCtxop, IntMod.fn, FloatMod.fn, MemMod.fn, offFn,
    cut_append_low, cut_append_high, cut_full, tap_append_low, tap_append_high, intMod, floatMod, memMod, code, fnNeed,
    abc, ab, ac, bc, aOnly, bOnly, cOnly, none3, abOff, abOff20, offset24, offset20]
  simp [Fields.ctl, offLo_kind, offHi_offLo, off20_kind, off20_value] <;> simp (decide := true) [cut, tap, MemWidth.ofCode]

theorem ineg (k : Ctl) (m : IntMod) (a b : Operand) : Statement (.ineg k m a b) := by
  refine of_fields _ _ rfl ?_
  have h1 : (cut 4 3 (0x09 : BitVec 7)).toNat = 0 := by decide
  have h2 : (cut 0 4 (0x09 : BitVec 7)).toNat = 9 := by decide
  simp (disch := omega) only [decodeFields, decRow0, enc, h1, h2, decInt, decLong, decLogic, decBcnt, decPmov, decMeet, decFloat, decFsign, decFexpo, decFstat, decFcvt, decIcvt, decAqld, decStfe, decCinv, decLatch, decNdone, decQctl, decMma, decMxmov, decMkey, decHbind, decHsend, decBar, decTret, decDetset, decClk, decCtxop, IntMod.fn, FloatMod.fn, MemMod.fn, offFn,
    cut_append_low, cut_append_high, cut_full, tap_append_low, tap_append_high, intMod, floatMod, memMod, code, fnNeed,
    abc, ab, ac, bc, aOnly, bOnly, cOnly, none3, abOff, abOff20, offset24, offset20]
  simp [Fields.ctl, offLo_kind, offHi_offLo, off20_kind, off20_value] <;> simp (decide := true) [cut, tap, MemWidth.ofCode]

theorem iaddc (k : Ctl) (w64 : Bool) (ix : BitVec 4) (a b c : Operand) : Statement (.iaddc k w64 ix a b c) := by
  refine of_fields _ _ rfl ?_
  have h1 : (cut 4 3 (0x0A : BitVec 7)).toNat = 0 := by decide
  have h2 : (cut 0 4 (0x0A : BitVec 7)).toNat = 10 := by decide
  simp (disch := omega) only [decodeFields, decRow0, enc, h1, h2, decInt, decLong, decLogic, decBcnt, decPmov, decMeet, decFloat, decFsign, decFexpo, decFstat, decFcvt, decIcvt, decAqld, decStfe, decCinv, decLatch, decNdone, decQctl, decMma, decMxmov, decMkey, decHbind, decHsend, decBar, decTret, decDetset, decClk, decCtxop, IntMod.fn, FloatMod.fn, MemMod.fn, offFn,
    cut_append_low, cut_append_high, cut_full, tap_append_low, tap_append_high, intMod, floatMod, memMod, code, fnNeed,
    abc, ab, ac, bc, aOnly, bOnly, cOnly, none3, abOff, abOff20, offset24, offset20]
  simp [Fields.ctl, offLo_kind, offHi_offLo, off20_kind, off20_value] <;> simp (decide := true) [cut, tap, MemWidth.ofCode]

theorem isad (k : Ctl) (m : IntMod) (a b c : Operand) : Statement (.isad k m a b c) := by
  refine of_fields _ _ rfl ?_
  have h1 : (cut 4 3 (0x0B : BitVec 7)).toNat = 0 := by decide
  have h2 : (cut 0 4 (0x0B : BitVec 7)).toNat = 11 := by decide
  simp (disch := omega) only [decodeFields, decRow0, enc, h1, h2, decInt, decLong, decLogic, decBcnt, decPmov, decMeet, decFloat, decFsign, decFexpo, decFstat, decFcvt, decIcvt, decAqld, decStfe, decCinv, decLatch, decNdone, decQctl, decMma, decMxmov, decMkey, decHbind, decHsend, decBar, decTret, decDetset, decClk, decCtxop, IntMod.fn, FloatMod.fn, MemMod.fn, offFn,
    cut_append_low, cut_append_high, cut_full, tap_append_low, tap_append_high, intMod, floatMod, memMod, code, fnNeed,
    abc, ab, ac, bc, aOnly, bOnly, cOnly, none3, abOff, abOff20, offset24, offset20]
  simp [Fields.ctl, offLo_kind, offHi_offLo, off20_kind, off20_value] <;> simp (decide := true) [cut, tap, MemWidth.ofCode]

theorem idot4 (k : Ctl) (bs cs sat : Bool) (a b c : Operand) : Statement (.idot4 k bs cs sat a b c) := by
  refine of_fields _ _ rfl ?_
  have h1 : (cut 4 3 (0x0C : BitVec 7)).toNat = 0 := by decide
  have h2 : (cut 0 4 (0x0C : BitVec 7)).toNat = 12 := by decide
  simp (disch := omega) only [decodeFields, decRow0, enc, h1, h2, decInt, decLong, decLogic, decBcnt, decPmov, decMeet, decFloat, decFsign, decFexpo, decFstat, decFcvt, decIcvt, decAqld, decStfe, decCinv, decLatch, decNdone, decQctl, decMma, decMxmov, decMkey, decHbind, decHsend, decBar, decTret, decDetset, decClk, decCtxop, IntMod.fn, FloatMod.fn, MemMod.fn, offFn,
    cut_append_low, cut_append_high, cut_full, tap_append_low, tap_append_high, intMod, floatMod, memMod, code, fnNeed,
    abc, ab, ac, bc, aOnly, bOnly, cOnly, none3, abOff, abOff20, offset24, offset20]
  simp [Fields.ctl, offLo_kind, offHi_offLo, off20_kind, off20_value] <;> simp (decide := true) [cut, tap, MemWidth.ofCode]

theorem asacc (k : Ctl) (sgn sat : Bool) (a b c : Operand) : Statement (.asacc k sgn sat a b c) := by
  refine of_fields _ _ rfl ?_
  have h1 : (cut 4 3 (0x0D : BitVec 7)).toNat = 0 := by decide
  have h2 : (cut 0 4 (0x0D : BitVec 7)).toNat = 13 := by decide
  simp (disch := omega) only [decodeFields, decRow0, enc, h1, h2, decInt, decLong, decLogic, decBcnt, decPmov, decMeet, decFloat, decFsign, decFexpo, decFstat, decFcvt, decIcvt, decAqld, decStfe, decCinv, decLatch, decNdone, decQctl, decMma, decMxmov, decMkey, decHbind, decHsend, decBar, decTret, decDetset, decClk, decCtxop, IntMod.fn, FloatMod.fn, MemMod.fn, offFn,
    cut_append_low, cut_append_high, cut_full, tap_append_low, tap_append_high, intMod, floatMod, memMod, code, fnNeed,
    abc, ab, ac, bc, aOnly, bOnly, cOnly, none3, abOff, abOff20, offset24, offset20]
  simp [Fields.ctl, offLo_kind, offHi_offLo, off20_kind, off20_value] <;> simp (decide := true) [cut, tap, MemWidth.ofCode]

theorem icmp (k : Ctl) (cmp : ICmp) (ty : LongTy) (a b c : Operand) : Statement (.icmp k cmp ty a b c) := by
  refine of_fields _ _ rfl ?_
  have h1 : (cut 4 3 (0x0E : BitVec 7)).toNat = 0 := by decide
  have h2 : (cut 0 4 (0x0E : BitVec 7)).toNat = 14 := by decide
  simp (disch := omega) only [decodeFields, decRow0, enc, h1, h2, decInt, decLong, decLogic, decBcnt, decPmov, decMeet, decFloat, decFsign, decFexpo, decFstat, decFcvt, decIcvt, decAqld, decStfe, decCinv, decLatch, decNdone, decQctl, decMma, decMxmov, decMkey, decHbind, decHsend, decBar, decTret, decDetset, decClk, decCtxop, IntMod.fn, FloatMod.fn, MemMod.fn, offFn,
    cut_append_low, cut_append_high, cut_full, tap_append_low, tap_append_high, intMod, floatMod, memMod, code, fnNeed,
    abc, ab, ac, bc, aOnly, bOnly, cOnly, none3, abOff, abOff20, offset24, offset20]
  simp [Fields.ctl, offLo_kind, offHi_offLo, off20_kind, off20_value] <;> simp (decide := true) [cut, tap, MemWidth.ofCode]

theorem isel (k : Ctl) (neg : Bool) (ix : BitVec 4) (ty : LongTy) (a b c : Operand) : Statement (.isel k neg ix ty a b c) := by
  refine of_fields _ _ rfl ?_
  have h1 : (cut 4 3 (0x0F : BitVec 7)).toNat = 0 := by decide
  have h2 : (cut 0 4 (0x0F : BitVec 7)).toNat = 15 := by decide
  simp (disch := omega) only [decodeFields, decRow0, enc, h1, h2, decInt, decLong, decLogic, decBcnt, decPmov, decMeet, decFloat, decFsign, decFexpo, decFstat, decFcvt, decIcvt, decAqld, decStfe, decCinv, decLatch, decNdone, decQctl, decMma, decMxmov, decMkey, decHbind, decHsend, decBar, decTret, decDetset, decClk, decCtxop, IntMod.fn, FloatMod.fn, MemMod.fn, offFn,
    cut_append_low, cut_append_high, cut_full, tap_append_low, tap_append_high, intMod, floatMod, memMod, code, fnNeed,
    abc, ab, ac, bc, aOnly, bOnly, cOnly, none3, abOff, abOff20, offset24, offset20]
  simp [Fields.ctl, offLo_kind, offHi_offLo, off20_kind, off20_value] <;> simp (decide := true) [cut, tap, MemWidth.ofCode]

theorem and (k : Ctl) (nc w64 : Bool) (a b c : Operand) : Statement (.and k nc w64 a b c) := by
  refine of_fields _ _ rfl ?_
  have h1 : (cut 4 3 (0x10 : BitVec 7)).toNat = 1 := by decide
  have h2 : (cut 0 4 (0x10 : BitVec 7)).toNat = 0 := by decide
  simp (disch := omega) only [decodeFields, decRow1, enc, h1, h2, decInt, decLong, decLogic, decBcnt, decPmov, decMeet, decFloat, decFsign, decFexpo, decFstat, decFcvt, decIcvt, decAqld, decStfe, decCinv, decLatch, decNdone, decQctl, decMma, decMxmov, decMkey, decHbind, decHsend, decBar, decTret, decDetset, decClk, decCtxop, IntMod.fn, FloatMod.fn, MemMod.fn, offFn,
    cut_append_low, cut_append_high, cut_full, tap_append_low, tap_append_high, intMod, floatMod, memMod, code, fnNeed,
    abc, ab, ac, bc, aOnly, bOnly, cOnly, none3, abOff, abOff20, offset24, offset20]
  simp [Fields.ctl, offLo_kind, offHi_offLo, off20_kind, off20_value] <;> simp (decide := true) [cut, tap, MemWidth.ofCode]

theorem or (k : Ctl) (nc w64 : Bool) (a b c : Operand) : Statement (.or k nc w64 a b c) := by
  refine of_fields _ _ rfl ?_
  have h1 : (cut 4 3 (0x11 : BitVec 7)).toNat = 1 := by decide
  have h2 : (cut 0 4 (0x11 : BitVec 7)).toNat = 1 := by decide
  simp (disch := omega) only [decodeFields, decRow1, enc, h1, h2, decInt, decLong, decLogic, decBcnt, decPmov, decMeet, decFloat, decFsign, decFexpo, decFstat, decFcvt, decIcvt, decAqld, decStfe, decCinv, decLatch, decNdone, decQctl, decMma, decMxmov, decMkey, decHbind, decHsend, decBar, decTret, decDetset, decClk, decCtxop, IntMod.fn, FloatMod.fn, MemMod.fn, offFn,
    cut_append_low, cut_append_high, cut_full, tap_append_low, tap_append_high, intMod, floatMod, memMod, code, fnNeed,
    abc, ab, ac, bc, aOnly, bOnly, cOnly, none3, abOff, abOff20, offset24, offset20]
  simp [Fields.ctl, offLo_kind, offHi_offLo, off20_kind, off20_value] <;> simp (decide := true) [cut, tap, MemWidth.ofCode]

theorem xor (k : Ctl) (nc w64 : Bool) (a b c : Operand) : Statement (.xor k nc w64 a b c) := by
  refine of_fields _ _ rfl ?_
  have h1 : (cut 4 3 (0x12 : BitVec 7)).toNat = 1 := by decide
  have h2 : (cut 0 4 (0x12 : BitVec 7)).toNat = 2 := by decide
  simp (disch := omega) only [decodeFields, decRow1, enc, h1, h2, decInt, decLong, decLogic, decBcnt, decPmov, decMeet, decFloat, decFsign, decFexpo, decFstat, decFcvt, decIcvt, decAqld, decStfe, decCinv, decLatch, decNdone, decQctl, decMma, decMxmov, decMkey, decHbind, decHsend, decBar, decTret, decDetset, decClk, decCtxop, IntMod.fn, FloatMod.fn, MemMod.fn, offFn,
    cut_append_low, cut_append_high, cut_full, tap_append_low, tap_append_high, intMod, floatMod, memMod, code, fnNeed,
    abc, ab, ac, bc, aOnly, bOnly, cOnly, none3, abOff, abOff20, offset24, offset20]
  simp [Fields.ctl, offLo_kind, offHi_offLo, off20_kind, off20_value] <;> simp (decide := true) [cut, tap, MemWidth.ofCode]

theorem bitfn (k : Ctl) (w64 : Bool) (tbl : BitVec 8) (a b c : Operand) : Statement (.bitfn k w64 tbl a b c) := by
  refine of_fields _ _ rfl ?_
  have h1 : (cut 4 3 (0x13 : BitVec 7)).toNat = 1 := by decide
  have h2 : (cut 0 4 (0x13 : BitVec 7)).toNat = 3 := by decide
  simp (disch := omega) only [decodeFields, decRow1, enc, h1, h2, decInt, decLong, decLogic, decBcnt, decPmov, decMeet, decFloat, decFsign, decFexpo, decFstat, decFcvt, decIcvt, decAqld, decStfe, decCinv, decLatch, decNdone, decQctl, decMma, decMxmov, decMkey, decHbind, decHsend, decBar, decTret, decDetset, decClk, decCtxop, IntMod.fn, FloatMod.fn, MemMod.fn, offFn,
    cut_append_low, cut_append_high, cut_full, tap_append_low, tap_append_high, intMod, floatMod, memMod, code, fnNeed,
    abc, ab, ac, bc, aOnly, bOnly, cOnly, none3, abOff, abOff20, offset24, offset20]
  simp [Fields.ctl, offLo_kind, offHi_offLo, off20_kind, off20_value] <;> simp (decide := true) [cut, tap, MemWidth.ofCode]

theorem shl (k : Ctl) (ty : LongTy) (a b c : Operand) : Statement (.shl k ty a b c) := by
  refine of_fields _ _ rfl ?_
  have h1 : (cut 4 3 (0x14 : BitVec 7)).toNat = 1 := by decide
  have h2 : (cut 0 4 (0x14 : BitVec 7)).toNat = 4 := by decide
  simp (disch := omega) only [decodeFields, decRow1, enc, h1, h2, decInt, decLong, decLogic, decBcnt, decPmov, decMeet, decFloat, decFsign, decFexpo, decFstat, decFcvt, decIcvt, decAqld, decStfe, decCinv, decLatch, decNdone, decQctl, decMma, decMxmov, decMkey, decHbind, decHsend, decBar, decTret, decDetset, decClk, decCtxop, IntMod.fn, FloatMod.fn, MemMod.fn, offFn,
    cut_append_low, cut_append_high, cut_full, tap_append_low, tap_append_high, intMod, floatMod, memMod, code, fnNeed,
    abc, ab, ac, bc, aOnly, bOnly, cOnly, none3, abOff, abOff20, offset24, offset20]
  simp [Fields.ctl, offLo_kind, offHi_offLo, off20_kind, off20_value] <;> simp (decide := true) [cut, tap, MemWidth.ofCode]

theorem shr (k : Ctl) (ty : LongTy) (a b c : Operand) : Statement (.shr k ty a b c) := by
  refine of_fields _ _ rfl ?_
  have h1 : (cut 4 3 (0x15 : BitVec 7)).toNat = 1 := by decide
  have h2 : (cut 0 4 (0x15 : BitVec 7)).toNat = 5 := by decide
  simp (disch := omega) only [decodeFields, decRow1, enc, h1, h2, decInt, decLong, decLogic, decBcnt, decPmov, decMeet, decFloat, decFsign, decFexpo, decFstat, decFcvt, decIcvt, decAqld, decStfe, decCinv, decLatch, decNdone, decQctl, decMma, decMxmov, decMkey, decHbind, decHsend, decBar, decTret, decDetset, decClk, decCtxop, IntMod.fn, FloatMod.fn, MemMod.fn, offFn,
    cut_append_low, cut_append_high, cut_full, tap_append_low, tap_append_high, intMod, floatMod, memMod, code, fnNeed,
    abc, ab, ac, bc, aOnly, bOnly, cOnly, none3, abOff, abOff20, offset24, offset20]
  simp [Fields.ctl, offLo_kind, offHi_offLo, off20_kind, off20_value] <;> simp (decide := true) [cut, tap, MemWidth.ofCode]

theorem rot (k : Ctl) (ty : LongTy) (a b c : Operand) : Statement (.rot k ty a b c) := by
  refine of_fields _ _ rfl ?_
  have h1 : (cut 4 3 (0x16 : BitVec 7)).toNat = 1 := by decide
  have h2 : (cut 0 4 (0x16 : BitVec 7)).toNat = 6 := by decide
  simp (disch := omega) only [decodeFields, decRow1, enc, h1, h2, decInt, decLong, decLogic, decBcnt, decPmov, decMeet, decFloat, decFsign, decFexpo, decFstat, decFcvt, decIcvt, decAqld, decStfe, decCinv, decLatch, decNdone, decQctl, decMma, decMxmov, decMkey, decHbind, decHsend, decBar, decTret, decDetset, decClk, decCtxop, IntMod.fn, FloatMod.fn, MemMod.fn, offFn,
    cut_append_low, cut_append_high, cut_full, tap_append_low, tap_append_high, intMod, floatMod, memMod, code, fnNeed,
    abc, ab, ac, bc, aOnly, bOnly, cOnly, none3, abOff, abOff20, offset24, offset20]
  simp [Fields.ctl, offLo_kind, offHi_offLo, off20_kind, off20_value] <;> simp (decide := true) [cut, tap, MemWidth.ofCode]

theorem bfx (k : Ctl) (ty : LongTy) (a b c : Operand) : Statement (.bfx k ty a b c) := by
  refine of_fields _ _ rfl ?_
  have h1 : (cut 4 3 (0x17 : BitVec 7)).toNat = 1 := by decide
  have h2 : (cut 0 4 (0x17 : BitVec 7)).toNat = 7 := by decide
  simp (disch := omega) only [decodeFields, decRow1, enc, h1, h2, decInt, decLong, decLogic, decBcnt, decPmov, decMeet, decFloat, decFsign, decFexpo, decFstat, decFcvt, decIcvt, decAqld, decStfe, decCinv, decLatch, decNdone, decQctl, decMma, decMxmov, decMkey, decHbind, decHsend, decBar, decTret, decDetset, decClk, decCtxop, IntMod.fn, FloatMod.fn, MemMod.fn, offFn,
    cut_append_low, cut_append_high, cut_full, tap_append_low, tap_append_high, intMod, floatMod, memMod, code, fnNeed,
    abc, ab, ac, bc, aOnly, bOnly, cOnly, none3, abOff, abOff20, offset24, offset20]
  simp [Fields.ctl, offLo_kind, offHi_offLo, off20_kind, off20_value] <;> simp (decide := true) [cut, tap, MemWidth.ofCode]

theorem bfi (k : Ctl) (ty : LongTy) (a b c : Operand) : Statement (.bfi k ty a b c) := by
  refine of_fields _ _ rfl ?_
  have h1 : (cut 4 3 (0x18 : BitVec 7)).toNat = 1 := by decide
  have h2 : (cut 0 4 (0x18 : BitVec 7)).toNat = 8 := by decide
  simp (disch := omega) only [decodeFields, decRow1, enc, h1, h2, decInt, decLong, decLogic, decBcnt, decPmov, decMeet, decFloat, decFsign, decFexpo, decFstat, decFcvt, decIcvt, decAqld, decStfe, decCinv, decLatch, decNdone, decQctl, decMma, decMxmov, decMkey, decHbind, decHsend, decBar, decTret, decDetset, decClk, decCtxop, IntMod.fn, FloatMod.fn, MemMod.fn, offFn,
    cut_append_low, cut_append_high, cut_full, tap_append_low, tap_append_high, intMod, floatMod, memMod, code, fnNeed,
    abc, ab, ac, bc, aOnly, bOnly, cOnly, none3, abOff, abOff20, offset24, offset20]
  simp [Fields.ctl, offLo_kind, offHi_offLo, off20_kind, off20_value] <;> simp (decide := true) [cut, tap, MemWidth.ofCode]

theorem popc (k : Ctl) (w64 : Bool) (a b : Operand) : Statement (.popc k w64 a b) := by
  refine of_fields _ _ rfl ?_
  have h1 : (cut 4 3 (0x19 : BitVec 7)).toNat = 1 := by decide
  have h2 : (cut 0 4 (0x19 : BitVec 7)).toNat = 9 := by decide
  simp (disch := omega) only [decodeFields, decRow1, enc, h1, h2, decInt, decLong, decLogic, decBcnt, decPmov, decMeet, decFloat, decFsign, decFexpo, decFstat, decFcvt, decIcvt, decAqld, decStfe, decCinv, decLatch, decNdone, decQctl, decMma, decMxmov, decMkey, decHbind, decHsend, decBar, decTret, decDetset, decClk, decCtxop, IntMod.fn, FloatMod.fn, MemMod.fn, offFn,
    cut_append_low, cut_append_high, cut_full, tap_append_low, tap_append_high, intMod, floatMod, memMod, code, fnNeed,
    abc, ab, ac, bc, aOnly, bOnly, cOnly, none3, abOff, abOff20, offset24, offset20]
  simp [Fields.ctl, offLo_kind, offHi_offLo, off20_kind, off20_value] <;> simp (decide := true) [cut, tap, MemWidth.ofCode]

theorem clz (k : Ctl) (w64 : Bool) (a b : Operand) : Statement (.clz k w64 a b) := by
  refine of_fields _ _ rfl ?_
  have h1 : (cut 4 3 (0x19 : BitVec 7)).toNat = 1 := by decide
  have h2 : (cut 0 4 (0x19 : BitVec 7)).toNat = 9 := by decide
  simp (disch := omega) only [decodeFields, decRow1, enc, h1, h2, decInt, decLong, decLogic, decBcnt, decPmov, decMeet, decFloat, decFsign, decFexpo, decFstat, decFcvt, decIcvt, decAqld, decStfe, decCinv, decLatch, decNdone, decQctl, decMma, decMxmov, decMkey, decHbind, decHsend, decBar, decTret, decDetset, decClk, decCtxop, IntMod.fn, FloatMod.fn, MemMod.fn, offFn,
    cut_append_low, cut_append_high, cut_full, tap_append_low, tap_append_high, intMod, floatMod, memMod, code, fnNeed,
    abc, ab, ac, bc, aOnly, bOnly, cOnly, none3, abOff, abOff20, offset24, offset20]
  simp [Fields.ctl, offLo_kind, offHi_offLo, off20_kind, off20_value] <;> simp (decide := true) [cut, tap, MemWidth.ofCode]

theorem ctz (k : Ctl) (w64 : Bool) (a b : Operand) : Statement (.ctz k w64 a b) := by
  refine of_fields _ _ rfl ?_
  have h1 : (cut 4 3 (0x19 : BitVec 7)).toNat = 1 := by decide
  have h2 : (cut 0 4 (0x19 : BitVec 7)).toNat = 9 := by decide
  simp (disch := omega) only [decodeFields, decRow1, enc, h1, h2, decInt, decLong, decLogic, decBcnt, decPmov, decMeet, decFloat, decFsign, decFexpo, decFstat, decFcvt, decIcvt, decAqld, decStfe, decCinv, decLatch, decNdone, decQctl, decMma, decMxmov, decMkey, decHbind, decHsend, decBar, decTret, decDetset, decClk, decCtxop, IntMod.fn, FloatMod.fn, MemMod.fn, offFn,
    cut_append_low, cut_append_high, cut_full, tap_append_low, tap_append_high, intMod, floatMod, memMod, code, fnNeed,
    abc, ab, ac, bc, aOnly, bOnly, cOnly, none3, abOff, abOff20, offset24, offset20]
  simp [Fields.ctl, offLo_kind, offHi_offLo, off20_kind, off20_value] <;> simp (decide := true) [cut, tap, MemWidth.ofCode]

theorem brev (k : Ctl) (w64 : Bool) (a b : Operand) : Statement (.brev k w64 a b) := by
  refine of_fields _ _ rfl ?_
  have h1 : (cut 4 3 (0x19 : BitVec 7)).toNat = 1 := by decide
  have h2 : (cut 0 4 (0x19 : BitVec 7)).toNat = 9 := by decide
  simp (disch := omega) only [decodeFields, decRow1, enc, h1, h2, decInt, decLong, decLogic, decBcnt, decPmov, decMeet, decFloat, decFsign, decFexpo, decFstat, decFcvt, decIcvt, decAqld, decStfe, decCinv, decLatch, decNdone, decQctl, decMma, decMxmov, decMkey, decHbind, decHsend, decBar, decTret, decDetset, decClk, decCtxop, IntMod.fn, FloatMod.fn, MemMod.fn, offFn,
    cut_append_low, cut_append_high, cut_full, tap_append_low, tap_append_high, intMod, floatMod, memMod, code, fnNeed,
    abc, ab, ac, bc, aOnly, bOnly, cOnly, none3, abOff, abOff20, offset24, offset20]
  simp [Fields.ctl, offLo_kind, offHi_offLo, off20_kind, off20_value] <;> simp (decide := true) [cut, tap, MemWidth.ofCode]

theorem mov (k : Ctl) (w64 : Bool) (a b : Operand) : Statement (.mov k w64 a b) := by
  refine of_fields _ _ rfl ?_
  have h1 : (cut 4 3 (0x1A : BitVec 7)).toNat = 1 := by decide
  have h2 : (cut 0 4 (0x1A : BitVec 7)).toNat = 10 := by decide
  simp (disch := omega) only [decodeFields, decRow1, enc, h1, h2, decInt, decLong, decLogic, decBcnt, decPmov, decMeet, decFloat, decFsign, decFexpo, decFstat, decFcvt, decIcvt, decAqld, decStfe, decCinv, decLatch, decNdone, decQctl, decMma, decMxmov, decMkey, decHbind, decHsend, decBar, decTret, decDetset, decClk, decCtxop, IntMod.fn, FloatMod.fn, MemMod.fn, offFn,
    cut_append_low, cut_append_high, cut_full, tap_append_low, tap_append_high, intMod, floatMod, memMod, code, fnNeed,
    abc, ab, ac, bc, aOnly, bOnly, cOnly, none3, abOff, abOff20, offset24, offset20]
  simp [Fields.ctl, offLo_kind, offHi_offLo, off20_kind, off20_value] <;> simp (decide := true) [cut, tap, MemWidth.ofCode]

theorem movi (k : Ctl) (hi : BitVec 12) (a b c : Operand) : Statement (.movi k hi a b c) := by
  refine of_fields _ _ rfl ?_
  have h1 : (cut 4 3 (0x1B : BitVec 7)).toNat = 1 := by decide
  have h2 : (cut 0 4 (0x1B : BitVec 7)).toNat = 11 := by decide
  simp (disch := omega) only [decodeFields, decRow1, enc, h1, h2, decInt, decLong, decLogic, decBcnt, decPmov, decMeet, decFloat, decFsign, decFexpo, decFstat, decFcvt, decIcvt, decAqld, decStfe, decCinv, decLatch, decNdone, decQctl, decMma, decMxmov, decMkey, decHbind, decHsend, decBar, decTret, decDetset, decClk, decCtxop, IntMod.fn, FloatMod.fn, MemMod.fn, offFn,
    cut_append_low, cut_append_high, cut_full, tap_append_low, tap_append_high, intMod, floatMod, memMod, code, fnNeed,
    abc, ab, ac, bc, aOnly, bOnly, cOnly, none3, abOff, abOff20, offset24, offset20]
  simp [Fields.ctl, offLo_kind, offHi_offLo, off20_kind, off20_value] <;> simp (decide := true) [cut, tap, MemWidth.ofCode]

theorem perm (k : Ctl) (z : Bool) (a b c : Operand) : Statement (.perm k z a b c) := by
  refine of_fields _ _ rfl ?_
  have h1 : (cut 4 3 (0x1C : BitVec 7)).toNat = 1 := by decide
  have h2 : (cut 0 4 (0x1C : BitVec 7)).toNat = 12 := by decide
  simp (disch := omega) only [decodeFields, decRow1, enc, h1, h2, decInt, decLong, decLogic, decBcnt, decPmov, decMeet, decFloat, decFsign, decFexpo, decFstat, decFcvt, decIcvt, decAqld, decStfe, decCinv, decLatch, decNdone, decQctl, decMma, decMxmov, decMkey, decHbind, decHsend, decBar, decTret, decDetset, decClk, decCtxop, IntMod.fn, FloatMod.fn, MemMod.fn, offFn,
    cut_append_low, cut_append_high, cut_full, tap_append_low, tap_append_high, intMod, floatMod, memMod, code, fnNeed,
    abc, ab, ac, bc, aOnly, bOnly, cOnly, none3, abOff, abOff20, offset24, offset20]
  simp [Fields.ctl, offLo_kind, offHi_offLo, off20_kind, off20_value] <;> simp (decide := true) [cut, tap, MemWidth.ofCode]

theorem pack (k : Ctl) (m : IntMod) (a b c : Operand) : Statement (.pack k m a b c) := by
  refine of_fields _ _ rfl ?_
  have h1 : (cut 4 3 (0x1D : BitVec 7)).toNat = 1 := by decide
  have h2 : (cut 0 4 (0x1D : BitVec 7)).toNat = 13 := by decide
  simp (disch := omega) only [decodeFields, decRow1, enc, h1, h2, decInt, decLong, decLogic, decBcnt, decPmov, decMeet, decFloat, decFsign, decFexpo, decFstat, decFcvt, decIcvt, decAqld, decStfe, decCinv, decLatch, decNdone, decQctl, decMma, decMxmov, decMkey, decHbind, decHsend, decBar, decTret, decDetset, decClk, decCtxop, IntMod.fn, FloatMod.fn, MemMod.fn, offFn,
    cut_append_low, cut_append_high, cut_full, tap_append_low, tap_append_high, intMod, floatMod, memMod, code, fnNeed,
    abc, ab, ac, bc, aOnly, bOnly, cOnly, none3, abOff, abOff20, offset24, offset20]
  simp [Fields.ctl, offLo_kind, offHi_offLo, off20_kind, off20_value] <;> simp (decide := true) [cut, tap, MemWidth.ofCode]

theorem unpk3 (k : Ctl) (trap : Bool) (a b c : Operand) : Statement (.unpk3 k trap a b c) := by
  refine of_fields _ _ rfl ?_
  have h1 : (cut 4 3 (0x1E : BitVec 7)).toNat = 1 := by decide
  have h2 : (cut 0 4 (0x1E : BitVec 7)).toNat = 14 := by decide
  simp (disch := omega) only [decodeFields, decRow1, enc, h1, h2, decInt, decLong, decLogic, decBcnt, decPmov, decMeet, decFloat, decFsign, decFexpo, decFstat, decFcvt, decIcvt, decAqld, decStfe, decCinv, decLatch, decNdone, decQctl, decMma, decMxmov, decMkey, decHbind, decHsend, decBar, decTret, decDetset, decClk, decCtxop, IntMod.fn, FloatMod.fn, MemMod.fn, offFn,
    cut_append_low, cut_append_high, cut_full, tap_append_low, tap_append_high, intMod, floatMod, memMod, code, fnNeed,
    abc, ab, ac, bc, aOnly, bOnly, cOnly, none3, abOff, abOff20, offset24, offset20]
  simp [Fields.ctl, offLo_kind, offHi_offLo, off20_kind, off20_value] <;> simp (decide := true) [cut, tap, MemWidth.ofCode]

theorem isect (k : Ctl) (a b c : Operand) : Statement (.isect k a b c) := by
  refine of_fields _ _ rfl ?_
  have h1 : (cut 4 3 (0x1F : BitVec 7)).toNat = 1 := by decide
  have h2 : (cut 0 4 (0x1F : BitVec 7)).toNat = 15 := by decide
  simp (disch := omega) only [decodeFields, decRow1, enc, h1, h2, decInt, decLong, decLogic, decBcnt, decPmov, decMeet, decFloat, decFsign, decFexpo, decFstat, decFcvt, decIcvt, decAqld, decStfe, decCinv, decLatch, decNdone, decQctl, decMma, decMxmov, decMkey, decHbind, decHsend, decBar, decTret, decDetset, decClk, decCtxop, IntMod.fn, FloatMod.fn, MemMod.fn, offFn,
    cut_append_low, cut_append_high, cut_full, tap_append_low, tap_append_high, intMod, floatMod, memMod, code, fnNeed,
    abc, ab, ac, bc, aOnly, bOnly, cOnly, none3, abOff, abOff20, offset24, offset20]
  simp [Fields.ctl, offLo_kind, offHi_offLo, off20_kind, off20_value] <;> simp (decide := true) [cut, tap, MemWidth.ofCode]

theorem pset (k : Ctl) (op : PsetOp) (nb nc inv : Bool) (a b c : Operand) : Statement (.pset k op nb nc inv a b c) := by
  refine of_fields _ _ rfl ?_
  have h1 : (cut 4 3 (0x20 : BitVec 7)).toNat = 2 := by decide
  have h2 : (cut 0 4 (0x20 : BitVec 7)).toNat = 0 := by decide
  simp (disch := omega) only [decodeFields, decRow2, enc, h1, h2, decInt, decLong, decLogic, decBcnt, decPmov, decMeet, decFloat, decFsign, decFexpo, decFstat, decFcvt, decIcvt, decAqld, decStfe, decCinv, decLatch, decNdone, decQctl, decMma, decMxmov, decMkey, decHbind, decHsend, decBar, decTret, decDetset, decClk, decCtxop, IntMod.fn, FloatMod.fn, MemMod.fn, offFn,
    cut_append_low, cut_append_high, cut_full, tap_append_low, tap_append_high, intMod, floatMod, memMod, code, fnNeed,
    abc, ab, ac, bc, aOnly, bOnly, cOnly, none3, abOff, abOff20, offset24, offset20]
  simp [Fields.ctl, offLo_kind, offHi_offLo, off20_kind, off20_value] <;> simp (decide := true) [cut, tap, MemWidth.ofCode]

theorem pmov (k : Ctl) (a b : Operand) : Statement (.pmov k a b) := by
  refine of_fields _ _ rfl ?_
  have h1 : (cut 4 3 (0x21 : BitVec 7)).toNat = 2 := by decide
  have h2 : (cut 0 4 (0x21 : BitVec 7)).toNat = 1 := by decide
  simp (disch := omega) only [decodeFields, decRow2, enc, h1, h2, decInt, decLong, decLogic, decBcnt, decPmov, decMeet, decFloat, decFsign, decFexpo, decFstat, decFcvt, decIcvt, decAqld, decStfe, decCinv, decLatch, decNdone, decQctl, decMma, decMxmov, decMkey, decHbind, decHsend, decBar, decTret, decDetset, decClk, decCtxop, IntMod.fn, FloatMod.fn, MemMod.fn, offFn,
    cut_append_low, cut_append_high, cut_full, tap_append_low, tap_append_high, intMod, floatMod, memMod, code, fnNeed,
    abc, ab, ac, bc, aOnly, bOnly, cOnly, none3, abOff, abOff20, offset24, offset20]
  simp [Fields.ctl, offLo_kind, offHi_offLo, off20_kind, off20_value] <;> simp (decide := true) [cut, tap, MemWidth.ofCode]

theorem pmovToreg (k : Ctl) (a b : Operand) : Statement (.pmovToreg k a b) := by
  refine of_fields _ _ rfl ?_
  have h1 : (cut 4 3 (0x21 : BitVec 7)).toNat = 2 := by decide
  have h2 : (cut 0 4 (0x21 : BitVec 7)).toNat = 1 := by decide
  simp (disch := omega) only [decodeFields, decRow2, enc, h1, h2, decInt, decLong, decLogic, decBcnt, decPmov, decMeet, decFloat, decFsign, decFexpo, decFstat, decFcvt, decIcvt, decAqld, decStfe, decCinv, decLatch, decNdone, decQctl, decMma, decMxmov, decMkey, decHbind, decHsend, decBar, decTret, decDetset, decClk, decCtxop, IntMod.fn, FloatMod.fn, MemMod.fn, offFn,
    cut_append_low, cut_append_high, cut_full, tap_append_low, tap_append_high, intMod, floatMod, memMod, code, fnNeed,
    abc, ab, ac, bc, aOnly, bOnly, cOnly, none3, abOff, abOff20, offset24, offset20]
  simp [Fields.ctl, offLo_kind, offHi_offLo, off20_kind, off20_value] <;> simp (decide := true) [cut, tap, MemWidth.ofCode]

theorem pmovFromreg (k : Ctl) (a b c : Operand) : Statement (.pmovFromreg k a b c) := by
  refine of_fields _ _ rfl ?_
  have h1 : (cut 4 3 (0x21 : BitVec 7)).toNat = 2 := by decide
  have h2 : (cut 0 4 (0x21 : BitVec 7)).toNat = 1 := by decide
  simp (disch := omega) only [decodeFields, decRow2, enc, h1, h2, decInt, decLong, decLogic, decBcnt, decPmov, decMeet, decFloat, decFsign, decFexpo, decFstat, decFcvt, decIcvt, decAqld, decStfe, decCinv, decLatch, decNdone, decQctl, decMma, decMxmov, decMkey, decHbind, decHsend, decBar, decTret, decDetset, decClk, decCtxop, IntMod.fn, FloatMod.fn, MemMod.fn, offFn,
    cut_append_low, cut_append_high, cut_full, tap_append_low, tap_append_high, intMod, floatMod, memMod, code, fnNeed,
    abc, ab, ac, bc, aOnly, bOnly, cOnly, none3, abOff, abOff20, offset24, offset20]
  simp [Fields.ctl, offLo_kind, offHi_offLo, off20_kind, off20_value] <;> simp (decide := true) [cut, tap, MemWidth.ofCode]

theorem vote (k : Ctl) (mode : VoteMode) (neg : Bool) (a b : Operand) : Statement (.vote k mode neg a b) := by
  refine of_fields _ _ rfl ?_
  have h1 : (cut 4 3 (0x22 : BitVec 7)).toNat = 2 := by decide
  have h2 : (cut 0 4 (0x22 : BitVec 7)).toNat = 2 := by decide
  simp (disch := omega) only [decodeFields, decRow2, enc, h1, h2, decInt, decLong, decLogic, decBcnt, decPmov, decMeet, decFloat, decFsign, decFexpo, decFstat, decFcvt, decIcvt, decAqld, decStfe, decCinv, decLatch, decNdone, decQctl, decMma, decMxmov, decMkey, decHbind, decHsend, decBar, decTret, decDetset, decClk, decCtxop, IntMod.fn, FloatMod.fn, MemMod.fn, offFn,
    cut_append_low, cut_append_high, cut_full, tap_append_low, tap_append_high, intMod, floatMod, memMod, code, fnNeed,
    abc, ab, ac, bc, aOnly, bOnly, cOnly, none3, abOff, abOff20, offset24, offset20]
  simp [Fields.ctl, offLo_kind, offHi_offLo, off20_kind, off20_value] <;> simp (decide := true) [cut, tap, MemWidth.ofCode]

theorem vred (k : Ctl) (op : VredOp) (ty : LongTy) (a b : Operand) : Statement (.vred k op ty a b) := by
  refine of_fields _ _ rfl ?_
  have h1 : (cut 4 3 (0x2B : BitVec 7)).toNat = 2 := by decide
  have h2 : (cut 0 4 (0x2B : BitVec 7)).toNat = 11 := by decide
  simp (disch := omega) only [decodeFields, decRow2, enc, h1, h2, decInt, decLong, decLogic, decBcnt, decPmov, decMeet, decFloat, decFsign, decFexpo, decFstat, decFcvt, decIcvt, decAqld, decStfe, decCinv, decLatch, decNdone, decQctl, decMma, decMxmov, decMkey, decHbind, decHsend, decBar, decTret, decDetset, decClk, decCtxop, IntMod.fn, FloatMod.fn, MemMod.fn, offFn,
    cut_append_low, cut_append_high, cut_full, tap_append_low, tap_append_high, intMod, floatMod, memMod, code, fnNeed,
    abc, ab, ac, bc, aOnly, bOnly, cOnly, none3, abOff, abOff20, offset24, offset20]
  simp [Fields.ctl, offLo_kind, offHi_offLo, off20_kind, off20_value] <;> simp (decide := true) [cut, tap, MemWidth.ofCode]

theorem hallCombine (g : Nat) : Statement (.hallCombine g) := of_none _ rfl

theorem bra (k : Ctl) (l : Bool) (off : BitVec 24) : Statement (.bra k l off) := by
  refine of_fields _ _ rfl ?_
  have h1 : (cut 4 3 (0x23 : BitVec 7)).toNat = 2 := by decide
  have h2 : (cut 0 4 (0x23 : BitVec 7)).toNat = 3 := by decide
  simp (disch := omega) only [decodeFields, decRow2, enc, h1, h2, decInt, decLong, decLogic, decBcnt, decPmov, decMeet, decFloat, decFsign, decFexpo, decFstat, decFcvt, decIcvt, decAqld, decStfe, decCinv, decLatch, decNdone, decQctl, decMma, decMxmov, decMkey, decHbind, decHsend, decBar, decTret, decDetset, decClk, decCtxop, IntMod.fn, FloatMod.fn, MemMod.fn, offFn,
    cut_append_low, cut_append_high, cut_full, tap_append_low, tap_append_high, intMod, floatMod, memMod, code, fnNeed,
    abc, ab, ac, bc, aOnly, bOnly, cOnly, none3, abOff, abOff20, offset24, offset20]
  simp [Fields.ctl, offLo_kind, offHi_offLo, off20_kind, off20_value] <;> simp (decide := true) [cut, tap, MemWidth.ofCode]

theorem brx (k : Ctl) (l : Bool) (b : Operand) : Statement (.brx k l b) := by
  refine of_fields _ _ rfl ?_
  have h1 : (cut 4 3 (0x24 : BitVec 7)).toNat = 2 := by decide
  have h2 : (cut 0 4 (0x24 : BitVec 7)).toNat = 4 := by decide
  simp (disch := omega) only [decodeFields, decRow2, enc, h1, h2, decInt, decLong, decLogic, decBcnt, decPmov, decMeet, decFloat, decFsign, decFexpo, decFstat, decFcvt, decIcvt, decAqld, decStfe, decCinv, decLatch, decNdone, decQctl, decMma, decMxmov, decMkey, decHbind, decHsend, decBar, decTret, decDetset, decClk, decCtxop, IntMod.fn, FloatMod.fn, MemMod.fn, offFn,
    cut_append_low, cut_append_high, cut_full, tap_append_low, tap_append_high, intMod, floatMod, memMod, code, fnNeed,
    abc, ab, ac, bc, aOnly, bOnly, cOnly, none3, abOff, abOff20, offset24, offset20]
  simp [Fields.ctl, offLo_kind, offHi_offLo, off20_kind, off20_value] <;> simp (decide := true) [cut, tap, MemWidth.ofCode]

theorem meet (k : Ctl) (off : BitVec 24) : Statement (.meet k off) := by
  refine of_fields _ _ rfl ?_
  have h1 : (cut 4 3 (0x28 : BitVec 7)).toNat = 2 := by decide
  have h2 : (cut 0 4 (0x28 : BitVec 7)).toNat = 8 := by decide
  simp (disch := omega) only [decodeFields, decRow2, enc, h1, h2, decInt, decLong, decLogic, decBcnt, decPmov, decMeet, decFloat, decFsign, decFexpo, decFstat, decFcvt, decIcvt, decAqld, decStfe, decCinv, decLatch, decNdone, decQctl, decMma, decMxmov, decMkey, decHbind, decHsend, decBar, decTret, decDetset, decClk, decCtxop, IntMod.fn, FloatMod.fn, MemMod.fn, offFn,
    cut_append_low, cut_append_high, cut_full, tap_append_low, tap_append_high, intMod, floatMod, memMod, code, fnNeed,
    abc, ab, ac, bc, aOnly, bOnly, cOnly, none3, abOff, abOff20, offset24, offset20]
  simp [Fields.ctl, offLo_kind, offHi_offLo, off20_kind, off20_value] <;> simp (decide := true) [cut, tap, MemWidth.ofCode]

theorem meetSv (k : Ctl) (off : BitVec 24) (a : Operand) : Statement (.meetSv k off a) := by
  refine of_fields _ _ rfl ?_
  have h1 : (cut 4 3 (0x28 : BitVec 7)).toNat = 2 := by decide
  have h2 : (cut 0 4 (0x28 : BitVec 7)).toNat = 8 := by decide
  simp (disch := omega) only [decodeFields, decRow2, enc, h1, h2, decInt, decLong, decLogic, decBcnt, decPmov, decMeet, decFloat, decFsign, decFexpo, decFstat, decFcvt, decIcvt, decAqld, decStfe, decCinv, decLatch, decNdone, decQctl, decMma, decMxmov, decMkey, decHbind, decHsend, decBar, decTret, decDetset, decClk, decCtxop, IntMod.fn, FloatMod.fn, MemMod.fn, offFn,
    cut_append_low, cut_append_high, cut_full, tap_append_low, tap_append_high, intMod, floatMod, memMod, code, fnNeed,
    abc, ab, ac, bc, aOnly, bOnly, cOnly, none3, abOff, abOff20, offset24, offset20]
  simp [Fields.ctl, offLo_kind, offHi_offLo, off20_kind, off20_value] <;> simp (decide := true) [cut, tap, MemWidth.ofCode]

theorem meetLd (k : Ctl) (b : Operand) : Statement (.meetLd k b) := by
  refine of_fields _ _ rfl ?_
  have h1 : (cut 4 3 (0x28 : BitVec 7)).toNat = 2 := by decide
  have h2 : (cut 0 4 (0x28 : BitVec 7)).toNat = 8 := by decide
  simp (disch := omega) only [decodeFields, decRow2, enc, h1, h2, decInt, decLong, decLogic, decBcnt, decPmov, decMeet, decFloat, decFsign, decFexpo, decFstat, decFcvt, decIcvt, decAqld, decStfe, decCinv, decLatch, decNdone, decQctl, decMma, decMxmov, decMkey, decHbind, decHsend, decBar, decTret, decDetset, decClk, decCtxop, IntMod.fn, FloatMod.fn, MemMod.fn, offFn,
    cut_append_low, cut_append_high, cut_full, tap_append_low, tap_append_high, intMod, floatMod, memMod, code, fnNeed,
    abc, ab, ac, bc, aOnly, bOnly, cOnly, none3, abOff, abOff20, offset24, offset20]
  simp [Fields.ctl, offLo_kind, offHi_offLo, off20_kind, off20_value] <;> simp (decide := true) [cut, tap, MemWidth.ofCode]

theorem regionRelease (g w : Nat) : Statement (.regionRelease g w) := of_none _ rfl

theorem call (k : Ctl) (off : BitVec 24) : Statement (.call k off) := by
  refine of_fields _ _ rfl ?_
  have h1 : (cut 4 3 (0x25 : BitVec 7)).toNat = 2 := by decide
  have h2 : (cut 0 4 (0x25 : BitVec 7)).toNat = 5 := by decide
  simp (disch := omega) only [decodeFields, decRow2, enc, h1, h2, decInt, decLong, decLogic, decBcnt, decPmov, decMeet, decFloat, decFsign, decFexpo, decFstat, decFcvt, decIcvt, decAqld, decStfe, decCinv, decLatch, decNdone, decQctl, decMma, decMxmov, decMkey, decHbind, decHsend, decBar, decTret, decDetset, decClk, decCtxop, IntMod.fn, FloatMod.fn, MemMod.fn, offFn,
    cut_append_low, cut_append_high, cut_full, tap_append_low, tap_append_high, intMod, floatMod, memMod, code, fnNeed,
    abc, ab, ac, bc, aOnly, bOnly, cOnly, none3, abOff, abOff20, offset24, offset20]
  simp [Fields.ctl, offLo_kind, offHi_offLo, off20_kind, off20_value] <;> simp (decide := true) [cut, tap, MemWidth.ofCode]

theorem callx (k : Ctl) (b : Operand) : Statement (.callx k b) := by
  refine of_fields _ _ rfl ?_
  have h1 : (cut 4 3 (0x26 : BitVec 7)).toNat = 2 := by decide
  have h2 : (cut 0 4 (0x26 : BitVec 7)).toNat = 6 := by decide
  simp (disch := omega) only [decodeFields, decRow2, enc, h1, h2, decInt, decLong, decLogic, decBcnt, decPmov, decMeet, decFloat, decFsign, decFexpo, decFstat, decFcvt, decIcvt, decAqld, decStfe, decCinv, decLatch, decNdone, decQctl, decMma, decMxmov, decMkey, decHbind, decHsend, decBar, decTret, decDetset, decClk, decCtxop, IntMod.fn, FloatMod.fn, MemMod.fn, offFn,
    cut_append_low, cut_append_high, cut_full, tap_append_low, tap_append_high, intMod, floatMod, memMod, code, fnNeed,
    abc, ab, ac, bc, aOnly, bOnly, cOnly, none3, abOff, abOff20, offset24, offset20]
  simp [Fields.ctl, offLo_kind, offHi_offLo, off20_kind, off20_value] <;> simp (decide := true) [cut, tap, MemWidth.ofCode]

theorem ret (k : Ctl) : Statement (.ret k) := by
  refine of_fields _ _ rfl ?_
  have h1 : (cut 4 3 (0x27 : BitVec 7)).toNat = 2 := by decide
  have h2 : (cut 0 4 (0x27 : BitVec 7)).toNat = 7 := by decide
  simp (disch := omega) only [decodeFields, decRow2, enc, h1, h2, decInt, decLong, decLogic, decBcnt, decPmov, decMeet, decFloat, decFsign, decFexpo, decFstat, decFcvt, decIcvt, decAqld, decStfe, decCinv, decLatch, decNdone, decQctl, decMma, decMxmov, decMkey, decHbind, decHsend, decBar, decTret, decDetset, decClk, decCtxop, IntMod.fn, FloatMod.fn, MemMod.fn, offFn,
    cut_append_low, cut_append_high, cut_full, tap_append_low, tap_append_high, intMod, floatMod, memMod, code, fnNeed,
    abc, ab, ac, bc, aOnly, bOnly, cOnly, none3, abOff, abOff20, offset24, offset20]
  simp [Fields.ctl, offLo_kind, offHi_offLo, off20_kind, off20_value] <;> simp (decide := true) [cut, tap, MemWidth.ofCode]

theorem exit (k : Ctl) : Statement (.exit k) := by
  refine of_fields _ _ rfl ?_
  have h1 : (cut 4 3 (0x29 : BitVec 7)).toNat = 2 := by decide
  have h2 : (cut 0 4 (0x29 : BitVec 7)).toNat = 9 := by decide
  simp (disch := omega) only [decodeFields, decRow2, enc, h1, h2, decInt, decLong, decLogic, decBcnt, decPmov, decMeet, decFloat, decFsign, decFexpo, decFstat, decFcvt, decIcvt, decAqld, decStfe, decCinv, decLatch, decNdone, decQctl, decMma, decMxmov, decMkey, decHbind, decHsend, decBar, decTret, decDetset, decClk, decCtxop, IntMod.fn, FloatMod.fn, MemMod.fn, offFn,
    cut_append_low, cut_append_high, cut_full, tap_append_low, tap_append_high, intMod, floatMod, memMod, code, fnNeed,
    abc, ab, ac, bc, aOnly, bOnly, cOnly, none3, abOff, abOff20, offset24, offset20]
  simp [Fields.ctl, offLo_kind, offHi_offLo, off20_kind, off20_value] <;> simp (decide := true) [cut, tap, MemWidth.ofCode]

theorem loop (k : Ctl) (off : BitVec 24) (a : Operand) : Statement (.loop k off a) := by
  refine of_fields _ _ rfl ?_
  have h1 : (cut 4 3 (0x2A : BitVec 7)).toNat = 2 := by decide
  have h2 : (cut 0 4 (0x2A : BitVec 7)).toNat = 10 := by decide
  simp (disch := omega) only [decodeFields, decRow2, enc, h1, h2, decInt, decLong, decLogic, decBcnt, decPmov, decMeet, decFloat, decFsign, decFexpo, decFstat, decFcvt, decIcvt, decAqld, decStfe, decCinv, decLatch, decNdone, decQctl, decMma, decMxmov, decMkey, decHbind, decHsend, decBar, decTret, decDetset, decClk, decCtxop, IntMod.fn, FloatMod.fn, MemMod.fn, offFn,
    cut_append_low, cut_append_high, cut_full, tap_append_low, tap_append_high, intMod, floatMod, memMod, code, fnNeed,
    abc, ab, ac, bc, aOnly, bOnly, cOnly, none3, abOff, abOff20, offset24, offset20]
  simp [Fields.ctl, offLo_kind, offHi_offLo, off20_kind, off20_value] <;> simp (decide := true) [cut, tap, MemWidth.ofCode]

theorem fadd (k : Ctl) (m : FloatMod) (a b c : Operand) : Statement (.fadd k m a b c) := by
  refine of_fields _ _ rfl ?_
  have h1 : (cut 4 3 (0x30 : BitVec 7)).toNat = 3 := by decide
  have h2 : (cut 0 4 (0x30 : BitVec 7)).toNat = 0 := by decide
  simp (disch := omega) only [decodeFields, decRow3, enc, h1, h2, decInt, decLong, decLogic, decBcnt, decPmov, decMeet, decFloat, decFsign, decFexpo, decFstat, decFcvt, decIcvt, decAqld, decStfe, decCinv, decLatch, decNdone, decQctl, decMma, decMxmov, decMkey, decHbind, decHsend, decBar, decTret, decDetset, decClk, decCtxop, IntMod.fn, FloatMod.fn, MemMod.fn, offFn,
    cut_append_low, cut_append_high, cut_full, tap_append_low, tap_append_high, intMod, floatMod, memMod, code, fnNeed,
    abc, ab, ac, bc, aOnly, bOnly, cOnly, none3, abOff, abOff20, offset24, offset20]
  simp [Fields.ctl, offLo_kind, offHi_offLo, off20_kind, off20_value] <;> simp (decide := true) [cut, tap, MemWidth.ofCode]

theorem fsub (k : Ctl) (m : FloatMod) (a b c : Operand) : Statement (.fsub k m a b c) := by
  refine of_fields _ _ rfl ?_
  have h1 : (cut 4 3 (0x31 : BitVec 7)).toNat = 3 := by decide
  have h2 : (cut 0 4 (0x31 : BitVec 7)).toNat = 1 := by decide
  simp (disch := omega) only [decodeFields, decRow3, enc, h1, h2, decInt, decLong, decLogic, decBcnt, decPmov, decMeet, decFloat, decFsign, decFexpo, decFstat, decFcvt, decIcvt, decAqld, decStfe, decCinv, decLatch, decNdone, decQctl, decMma, decMxmov, decMkey, decHbind, decHsend, decBar, decTret, decDetset, decClk, decCtxop, IntMod.fn, FloatMod.fn, MemMod.fn, offFn,
    cut_append_low, cut_append_high, cut_full, tap_append_low, tap_append_high, intMod, floatMod, memMod, code, fnNeed,
    abc, ab, ac, bc, aOnly, bOnly, cOnly, none3, abOff, abOff20, offset24, offset20]
  simp [Fields.ctl, offLo_kind, offHi_offLo, off20_kind, off20_value] <;> simp (decide := true) [cut, tap, MemWidth.ofCode]

theorem fmul (k : Ctl) (m : FloatMod) (a b c : Operand) : Statement (.fmul k m a b c) := by
  refine of_fields _ _ rfl ?_
  have h1 : (cut 4 3 (0x32 : BitVec 7)).toNat = 3 := by decide
  have h2 : (cut 0 4 (0x32 : BitVec 7)).toNat = 2 := by decide
  simp (disch := omega) only [decodeFields, decRow3, enc, h1, h2, decInt, decLong, decLogic, decBcnt, decPmov, decMeet, decFloat, decFsign, decFexpo, decFstat, decFcvt, decIcvt, decAqld, decStfe, decCinv, decLatch, decNdone, decQctl, decMma, decMxmov, decMkey, decHbind, decHsend, decBar, decTret, decDetset, decClk, decCtxop, IntMod.fn, FloatMod.fn, MemMod.fn, offFn,
    cut_append_low, cut_append_high, cut_full, tap_append_low, tap_append_high, intMod, floatMod, memMod, code, fnNeed,
    abc, ab, ac, bc, aOnly, bOnly, cOnly, none3, abOff, abOff20, offset24, offset20]
  simp [Fields.ctl, offLo_kind, offHi_offLo, off20_kind, off20_value] <;> simp (decide := true) [cut, tap, MemWidth.ofCode]

theorem ffma (k : Ctl) (np na : Bool) (m : FloatMod) (a b c : Operand) : Statement (.ffma k np na m a b c) := by
  refine of_fields _ _ rfl ?_
  have h1 : (cut 4 3 (0x33 : BitVec 7)).toNat = 3 := by decide
  have h2 : (cut 0 4 (0x33 : BitVec 7)).toNat = 3 := by decide
  simp (disch := omega) only [decodeFields, decRow3, enc, h1, h2, decInt, decLong, decLogic, decBcnt, decPmov, decMeet, decFloat, decFsign, decFexpo, decFstat, decFcvt, decIcvt, decAqld, decStfe, decCinv, decLatch, decNdone, decQctl, decMma, decMxmov, decMkey, decHbind, decHsend, decBar, decTret, decDetset, decClk, decCtxop, IntMod.fn, FloatMod.fn, MemMod.fn, offFn,
    cut_append_low, cut_append_high, cut_full, tap_append_low, tap_append_high, intMod, floatMod, memMod, code, fnNeed,
    abc, ab, ac, bc, aOnly, bOnly, cOnly, none3, abOff, abOff20, offset24, offset20]
  simp [Fields.ctl, offLo_kind, offHi_offLo, off20_kind, off20_value] <;> simp (decide := true) [cut, tap, MemWidth.ofCode]

theorem fdiv (k : Ctl) (m : FloatMod) (a b c : Operand) : Statement (.fdiv k m a b c) := by
  refine of_fields _ _ rfl ?_
  have h1 : (cut 4 3 (0x34 : BitVec 7)).toNat = 3 := by decide
  have h2 : (cut 0 4 (0x34 : BitVec 7)).toNat = 4 := by decide
  simp (disch := omega) only [decodeFields, decRow3, enc, h1, h2, decInt, decLong, decLogic, decBcnt, decPmov, decMeet, decFloat, decFsign, decFexpo, decFstat, decFcvt, decIcvt, decAqld, decStfe, decCinv, decLatch, decNdone, decQctl, decMma, decMxmov, decMkey, decHbind, decHsend, decBar, decTret, decDetset, decClk, decCtxop, IntMod.fn, FloatMod.fn, MemMod.fn, offFn,
    cut_append_low, cut_append_high, cut_full, tap_append_low, tap_append_high, intMod, floatMod, memMod, code, fnNeed,
    abc, ab, ac, bc, aOnly, bOnly, cOnly, none3, abOff, abOff20, offset24, offset20]
  simp [Fields.ctl, offLo_kind, offHi_offLo, off20_kind, off20_value] <;> simp (decide := true) [cut, tap, MemWidth.ofCode]

theorem fsqrt (k : Ctl) (m : FloatMod) (a b : Operand) : Statement (.fsqrt k m a b) := by
  refine of_fields _ _ rfl ?_
  have h1 : (cut 4 3 (0x35 : BitVec 7)).toNat = 3 := by decide
  have h2 : (cut 0 4 (0x35 : BitVec 7)).toNat = 5 := by decide
  simp (disch := omega) only [decodeFields, decRow3, enc, h1, h2, decInt, decLong, decLogic, decBcnt, decPmov, decMeet, decFloat, decFsign, decFexpo, decFstat, decFcvt, decIcvt, decAqld, decStfe, decCinv, decLatch, decNdone, decQctl, decMma, decMxmov, decMkey, decHbind, decHsend, decBar, decTret, decDetset, decClk, decCtxop, IntMod.fn, FloatMod.fn, MemMod.fn, offFn,
    cut_append_low, cut_append_high, cut_full, tap_append_low, tap_append_high, intMod, floatMod, memMod, code, fnNeed,
    abc, ab, ac, bc, aOnly, bOnly, cOnly, none3, abOff, abOff20, offset24, offset20]
  simp [Fields.ctl, offLo_kind, offHi_offLo, off20_kind, off20_value] <;> simp (decide := true) [cut, tap, MemWidth.ofCode]

theorem fminmax (k : Ctl) (mx nan : Bool) (m : FloatMod) (a b c : Operand) : Statement (.fminmax k mx nan m a b c) := by
  refine of_fields _ _ rfl ?_
  have h1 : (cut 4 3 (0x36 : BitVec 7)).toNat = 3 := by decide
  have h2 : (cut 0 4 (0x36 : BitVec 7)).toNat = 6 := by decide
  simp (disch := omega) only [decodeFields, decRow3, enc, h1, h2, decInt, decLong, decLogic, decBcnt, decPmov, decMeet, decFloat, decFsign, decFexpo, decFstat, decFcvt, decIcvt, decAqld, decStfe, decCinv, decLatch, decNdone, decQctl, decMma, decMxmov, decMkey, decHbind, decHsend, decBar, decTret, decDetset, decClk, decCtxop, IntMod.fn, FloatMod.fn, MemMod.fn, offFn,
    cut_append_low, cut_append_high, cut_full, tap_append_low, tap_append_high, intMod, floatMod, memMod, code, fnNeed,
    abc, ab, ac, bc, aOnly, bOnly, cOnly, none3, abOff, abOff20, offset24, offset20]
  simp [Fields.ctl, offLo_kind, offHi_offLo, off20_kind, off20_value] <;> simp (decide := true) [cut, tap, MemWidth.ofCode]

theorem fabs (k : Ctl) (m : FloatMod) (a b : Operand) : Statement (.fabs k m a b) := by
  refine of_fields _ _ rfl ?_
  have h1 : (cut 4 3 (0x37 : BitVec 7)).toNat = 3 := by decide
  have h2 : (cut 0 4 (0x37 : BitVec 7)).toNat = 7 := by decide
  simp (disch := omega) only [decodeFields, decRow3, enc, h1, h2, decInt, decLong, decLogic, decBcnt, decPmov, decMeet, decFloat, decFsign, decFexpo, decFstat, decFcvt, decIcvt, decAqld, decStfe, decCinv, decLatch, decNdone, decQctl, decMma, decMxmov, decMkey, decHbind, decHsend, decBar, decTret, decDetset, decClk, decCtxop, IntMod.fn, FloatMod.fn, MemMod.fn, offFn,
    cut_append_low, cut_append_high, cut_full, tap_append_low, tap_append_high, intMod, floatMod, memMod, code, fnNeed,
    abc, ab, ac, bc, aOnly, bOnly, cOnly, none3, abOff, abOff20, offset24, offset20]
  simp [Fields.ctl, offLo_kind, offHi_offLo, off20_kind, off20_value] <;> simp (decide := true) [cut, tap, MemWidth.ofCode]

theorem fneg (k : Ctl) (m : FloatMod) (a b : Operand) : Statement (.fneg k m a b) := by
  refine of_fields _ _ rfl ?_
  have h1 : (cut 4 3 (0x37 : BitVec 7)).toNat = 3 := by decide
  have h2 : (cut 0 4 (0x37 : BitVec 7)).toNat = 7 := by decide
  simp (disch := omega) only [decodeFields, decRow3, enc, h1, h2, decInt, decLong, decLogic, decBcnt, decPmov, decMeet, decFloat, decFsign, decFexpo, decFstat, decFcvt, decIcvt, decAqld, decStfe, decCinv, decLatch, decNdone, decQctl, decMma, decMxmov, decMkey, decHbind, decHsend, decBar, decTret, decDetset, decClk, decCtxop, IntMod.fn, FloatMod.fn, MemMod.fn, offFn,
    cut_append_low, cut_append_high, cut_full, tap_append_low, tap_append_high, intMod, floatMod, memMod, code, fnNeed,
    abc, ab, ac, bc, aOnly, bOnly, cOnly, none3, abOff, abOff20, offset24, offset20]
  simp [Fields.ctl, offLo_kind, offHi_offLo, off20_kind, off20_value] <;> simp (decide := true) [cut, tap, MemWidth.ofCode]

theorem fcopys (k : Ctl) (m : FloatMod) (a b c : Operand) : Statement (.fcopys k m a b c) := by
  refine of_fields _ _ rfl ?_
  have h1 : (cut 4 3 (0x37 : BitVec 7)).toNat = 3 := by decide
  have h2 : (cut 0 4 (0x37 : BitVec 7)).toNat = 7 := by decide
  simp (disch := omega) only [decodeFields, decRow3, enc, h1, h2, decInt, decLong, decLogic, decBcnt, decPmov, decMeet, decFloat, decFsign, decFexpo, decFstat, decFcvt, decIcvt, decAqld, decStfe, decCinv, decLatch, decNdone, decQctl, decMma, decMxmov, decMkey, decHbind, decHsend, decBar, decTret, decDetset, decClk, decCtxop, IntMod.fn, FloatMod.fn, MemMod.fn, offFn,
    cut_append_low, cut_append_high, cut_full, tap_append_low, tap_append_high, intMod, floatMod, memMod, code, fnNeed,
    abc, ab, ac, bc, aOnly, bOnly, cOnly, none3, abOff, abOff20, offset24, offset20]
  simp [Fields.ctl, offLo_kind, offHi_offLo, off20_kind, off20_value] <;> simp (decide := true) [cut, tap, MemWidth.ofCode]

theorem fcmp (k : Ctl) (cmp : FCmp) (m : FloatMod) (a b c : Operand) : Statement (.fcmp k cmp m a b c) := by
  refine of_fields _ _ rfl ?_
  have h1 : (cut 4 3 (0x2C : BitVec 7)).toNat = 2 := by decide
  have h2 : (cut 0 4 (0x2C : BitVec 7)).toNat = 12 := by decide
  simp (disch := omega) only [decodeFields, decRow2, enc, h1, h2, decInt, decLong, decLogic, decBcnt, decPmov, decMeet, decFloat, decFsign, decFexpo, decFstat, decFcvt, decIcvt, decAqld, decStfe, decCinv, decLatch, decNdone, decQctl, decMma, decMxmov, decMkey, decHbind, decHsend, decBar, decTret, decDetset, decClk, decCtxop, IntMod.fn, FloatMod.fn, MemMod.fn, offFn,
    cut_append_low, cut_append_high, cut_full, tap_append_low, tap_append_high, intMod, floatMod, memMod, code, fnNeed,
    abc, ab, ac, bc, aOnly, bOnly, cOnly, none3, abOff, abOff20, offset24, offset20]
  simp [Fields.ctl, offLo_kind, offHi_offLo, off20_kind, off20_value] <;> simp (decide := true) [cut, tap, MemWidth.ofCode]

theorem fclass (k : Ctl) (m : FloatMod) (a b c : Operand) : Statement (.fclass k m a b c) := by
  refine of_fields _ _ rfl ?_
  have h1 : (cut 4 3 (0x3B : BitVec 7)).toNat = 3 := by decide
  have h2 : (cut 0 4 (0x3B : BitVec 7)).toNat = 11 := by decide
  simp (disch := omega) only [decodeFields, decRow3, enc, h1, h2, decInt, decLong, decLogic, decBcnt, decPmov, decMeet, decFloat, decFsign, decFexpo, decFstat, decFcvt, decIcvt, decAqld, decStfe, decCinv, decLatch, decNdone, decQctl, decMma, decMxmov, decMkey, decHbind, decHsend, decBar, decTret, decDetset, decClk, decCtxop, IntMod.fn, FloatMod.fn, MemMod.fn, offFn,
    cut_append_low, cut_append_high, cut_full, tap_append_low, tap_append_high, intMod, floatMod, memMod, code, fnNeed,
    abc, ab, ac, bc, aOnly, bOnly, cOnly, none3, abOff, abOff20, offset24, offset20]
  simp [Fields.ctl, offLo_kind, offHi_offLo, off20_kind, off20_value] <;> simp (decide := true) [cut, tap, MemWidth.ofCode]

theorem frnd (k : Ctl) (x : Bool) (m : FloatMod) (a b : Operand) : Statement (.frnd k x m a b) := by
  refine of_fields _ _ rfl ?_
  have h1 : (cut 4 3 (0x38 : BitVec 7)).toNat = 3 := by decide
  have h2 : (cut 0 4 (0x38 : BitVec 7)).toNat = 8 := by decide
  simp (disch := omega) only [decodeFields, decRow3, enc, h1, h2, decInt, decLong, decLogic, decBcnt, decPmov, decMeet, decFloat, decFsign, decFexpo, decFstat, decFcvt, decIcvt, decAqld, decStfe, decCinv, decLatch, decNdone, decQctl, decMma, decMxmov, decMkey, decHbind, decHsend, decBar, decTret, decDetset, decClk, decCtxop, IntMod.fn, FloatMod.fn, MemMod.fn, offFn,
    cut_append_low, cut_append_high, cut_full, tap_append_low, tap_append_high, intMod, floatMod, memMod, code, fnNeed,
    abc, ab, ac, bc, aOnly, bOnly, cOnly, none3, abOff, abOff20, offset24, offset20]
  simp [Fields.ctl, offLo_kind, offHi_offLo, off20_kind, off20_value] <;> simp (decide := true) [cut, tap, MemWidth.ofCode]

theorem fcvt (k : Ctl) (m : CvtMod) (a b c : Operand) : Statement (.fcvt k m a b c) := by
  refine of_fields _ _ rfl ?_
  have h1 : (cut 4 3 (0x39 : BitVec 7)).toNat = 3 := by decide
  have h2 : (cut 0 4 (0x39 : BitVec 7)).toNat = 9 := by decide
  simp (disch := omega) only [decodeFields, decRow3, enc, h1, h2, decInt, decLong, decLogic, decBcnt, decPmov, decMeet, decFloat, decFsign, decFexpo, decFstat, decFcvt, decIcvt, decAqld, decStfe, decCinv, decLatch, decNdone, decQctl, decMma, decMxmov, decMkey, decHbind, decHsend, decBar, decTret, decDetset, decClk, decCtxop, IntMod.fn, FloatMod.fn, MemMod.fn, offFn,
    cut_append_low, cut_append_high, cut_full, tap_append_low, tap_append_high, intMod, floatMod, memMod, code, fnNeed,
    abc, ab, ac, bc, aOnly, bOnly, cOnly, none3, abOff, abOff20, offset24, offset20]
  simp [Fields.ctl, offLo_kind, offHi_offLo, off20_kind, off20_value] <;> simp (decide := true) [cut, tap, MemWidth.ofCode]

theorem icvt (k : Ctl) (m : IcvtMod) (a b : Operand) : Statement (.icvt k m a b) := by
  refine of_fields _ _ rfl ?_
  have h1 : (cut 4 3 (0x3A : BitVec 7)).toNat = 3 := by decide
  have h2 : (cut 0 4 (0x3A : BitVec 7)).toNat = 10 := by decide
  simp (disch := omega) only [decodeFields, decRow3, enc, h1, h2, decInt, decLong, decLogic, decBcnt, decPmov, decMeet, decFloat, decFsign, decFexpo, decFstat, decFcvt, decIcvt, decAqld, decStfe, decCinv, decLatch, decNdone, decQctl, decMma, decMxmov, decMkey, decHbind, decHsend, decBar, decTret, decDetset, decClk, decCtxop, IntMod.fn, FloatMod.fn, MemMod.fn, offFn,
    cut_append_low, cut_append_high, cut_full, tap_append_low, tap_append_high, intMod, floatMod, memMod, code, fnNeed,
    abc, ab, ac, bc, aOnly, bOnly, cOnly, none3, abOff, abOff20, offset24, offset20]
  simp [Fields.ctl, offLo_kind, offHi_offLo, off20_kind, off20_value] <;> simp (decide := true) [cut, tap, MemWidth.ofCode]

theorem fexpoScale (k : Ctl) (m : FloatMod) (a b c : Operand) : Statement (.fexpoScale k m a b c) := by
  refine of_fields _ _ rfl ?_
  have h1 : (cut 4 3 (0x3D : BitVec 7)).toNat = 3 := by decide
  have h2 : (cut 0 4 (0x3D : BitVec 7)).toNat = 13 := by decide
  simp (disch := omega) only [decodeFields, decRow3, enc, h1, h2, decInt, decLong, decLogic, decBcnt, decPmov, decMeet, decFloat, decFsign, decFexpo, decFstat, decFcvt, decIcvt, decAqld, decStfe, decCinv, decLatch, decNdone, decQctl, decMma, decMxmov, decMkey, decHbind, decHsend, decBar, decTret, decDetset, decClk, decCtxop, IntMod.fn, FloatMod.fn, MemMod.fn, offFn,
    cut_append_low, cut_append_high, cut_full, tap_append_low, tap_append_high, intMod, floatMod, memMod, code, fnNeed,
    abc, ab, ac, bc, aOnly, bOnly, cOnly, none3, abOff, abOff20, offset24, offset20]
  simp [Fields.ctl, offLo_kind, offHi_offLo, off20_kind, off20_value] <;> simp (decide := true) [cut, tap, MemWidth.ofCode]

theorem fexpoGetexp (k : Ctl) (m : FloatMod) (a b : Operand) : Statement (.fexpoGetexp k m a b) := by
  refine of_fields _ _ rfl ?_
  have h1 : (cut 4 3 (0x3D : BitVec 7)).toNat = 3 := by decide
  have h2 : (cut 0 4 (0x3D : BitVec 7)).toNat = 13 := by decide
  simp (disch := omega) only [decodeFields, decRow3, enc, h1, h2, decInt, decLong, decLogic, decBcnt, decPmov, decMeet, decFloat, decFsign, decFexpo, decFstat, decFcvt, decIcvt, decAqld, decStfe, decCinv, decLatch, decNdone, decQctl, decMma, decMxmov, decMkey, decHbind, decHsend, decBar, decTret, decDetset, decClk, decCtxop, IntMod.fn, FloatMod.fn, MemMod.fn, offFn,
    cut_append_low, cut_append_high, cut_full, tap_append_low, tap_append_high, intMod, floatMod, memMod, code, fnNeed,
    abc, ab, ac, bc, aOnly, bOnly, cOnly, none3, abOff, abOff20, offset24, offset20]
  simp [Fields.ctl, offLo_kind, offHi_offLo, off20_kind, off20_value] <;> simp (decide := true) [cut, tap, MemWidth.ofCode]

theorem fexpoGetmant (k : Ctl) (m : FloatMod) (a b : Operand) : Statement (.fexpoGetmant k m a b) := by
  refine of_fields _ _ rfl ?_
  have h1 : (cut 4 3 (0x3D : BitVec 7)).toNat = 3 := by decide
  have h2 : (cut 0 4 (0x3D : BitVec 7)).toNat = 13 := by decide
  simp (disch := omega) only [decodeFields, decRow3, enc, h1, h2, decInt, decLong, decLogic, decBcnt, decPmov, decMeet, decFloat, decFsign, decFexpo, decFstat, decFcvt, decIcvt, decAqld, decStfe, decCinv, decLatch, decNdone, decQctl, decMma, decMxmov, decMkey, decHbind, decHsend, decBar, decTret, decDetset, decClk, decCtxop, IntMod.fn, FloatMod.fn, MemMod.fn, offFn,
    cut_append_low, cut_append_high, cut_full, tap_append_low, tap_append_high, intMod, floatMod, memMod, code, fnNeed,
    abc, ab, ac, bc, aOnly, bOnly, cOnly, none3, abOff, abOff20, offset24, offset20]
  simp [Fields.ctl, offLo_kind, offHi_offLo, off20_kind, off20_value] <;> simp (decide := true) [cut, tap, MemWidth.ofCode]

theorem fdot2 (k : Ctl) (m : FloatMod) (a b c : Operand) : Statement (.fdot2 k m a b c) := by
  refine of_fields _ _ rfl ?_
  have h1 : (cut 4 3 (0x3C : BitVec 7)).toNat = 3 := by decide
  have h2 : (cut 0 4 (0x3C : BitVec 7)).toNat = 12 := by decide
  simp (disch := omega) only [decodeFields, decRow3, enc, h1, h2, decInt, decLong, decLogic, decBcnt, decPmov, decMeet, decFloat, decFsign, decFexpo, decFstat, decFcvt, decIcvt, decAqld, decStfe, decCinv, decLatch, decNdone, decQctl, decMma, decMxmov, decMkey, decHbind, decHsend, decBar, decTret, decDetset, decClk, decCtxop, IntMod.fn, FloatMod.fn, MemMod.fn, offFn,
    cut_append_low, cut_append_high, cut_full, tap_append_low, tap_append_high, intMod, floatMod, memMod, code, fnNeed,
    abc, ab, ac, bc, aOnly, bOnly, cOnly, none3, abOff, abOff20, offset24, offset20]
  simp [Fields.ctl, offLo_kind, offHi_offLo, off20_kind, off20_value] <;> simp (decide := true) [cut, tap, MemWidth.ofCode]

theorem fmad2 (k : Ctl) (mad conj : Bool) (m : FloatMod) (a b c : Operand) : Statement (.fmad2 k mad conj m a b c) := by
  refine of_fields _ _ rfl ?_
  have h1 : (cut 4 3 (0x3F : BitVec 7)).toNat = 3 := by decide
  have h2 : (cut 0 4 (0x3F : BitVec 7)).toNat = 15 := by decide
  simp (disch := omega) only [decodeFields, decRow3, enc, h1, h2, decInt, decLong, decLogic, decBcnt, decPmov, decMeet, decFloat, decFsign, decFexpo, decFstat, decFcvt, decIcvt, decAqld, decStfe, decCinv, decLatch, decNdone, decQctl, decMma, decMxmov, decMkey, decHbind, decHsend, decBar, decTret, decDetset, decClk, decCtxop, IntMod.fn, FloatMod.fn, MemMod.fn, offFn,
    cut_append_low, cut_append_high, cut_full, tap_append_low, tap_append_high, intMod, floatMod, memMod, code, fnNeed,
    abc, ab, ac, bc, aOnly, bOnly, cOnly, none3, abOff, abOff20, offset24, offset20]
  simp [Fields.ctl, offLo_kind, offHi_offLo, off20_kind, off20_value] <;> simp (decide := true) [cut, tap, MemWidth.ofCode]

theorem fstatGet (k : Ctl) (a : Operand) : Statement (.fstatGet k a) := by
  refine of_fields _ _ rfl ?_
  have h1 : (cut 4 3 (0x3E : BitVec 7)).toNat = 3 := by decide
  have h2 : (cut 0 4 (0x3E : BitVec 7)).toNat = 14 := by decide
  simp (disch := omega) only [decodeFields, decRow3, enc, h1, h2, decInt, decLong, decLogic, decBcnt, decPmov, decMeet, decFloat, decFsign, decFexpo, decFstat, decFcvt, decIcvt, decAqld, decStfe, decCinv, decLatch, decNdone, decQctl, decMma, decMxmov, decMkey, decHbind, decHsend, decBar, decTret, decDetset, decClk, decCtxop, IntMod.fn, FloatMod.fn, MemMod.fn, offFn,
    cut_append_low, cut_append_high, cut_full, tap_append_low, tap_append_high, intMod, floatMod, memMod, code, fnNeed,
    abc, ab, ac, bc, aOnly, bOnly, cOnly, none3, abOff, abOff20, offset24, offset20]
  simp [Fields.ctl, offLo_kind, offHi_offLo, off20_kind, off20_value] <;> simp (decide := true) [cut, tap, MemWidth.ofCode]

theorem fstatClr (k : Ctl) (b : Operand) : Statement (.fstatClr k b) := by
  refine of_fields _ _ rfl ?_
  have h1 : (cut 4 3 (0x3E : BitVec 7)).toNat = 3 := by decide
  have h2 : (cut 0 4 (0x3E : BitVec 7)).toNat = 14 := by decide
  simp (disch := omega) only [decodeFields, decRow3, enc, h1, h2, decInt, decLong, decLogic, decBcnt, decPmov, decMeet, decFloat, decFsign, decFexpo, decFstat, decFcvt, decIcvt, decAqld, decStfe, decCinv, decLatch, decNdone, decQctl, decMma, decMxmov, decMkey, decHbind, decHsend, decBar, decTret, decDetset, decClk, decCtxop, IntMod.fn, FloatMod.fn, MemMod.fn, offFn,
    cut_append_low, cut_append_high, cut_full, tap_append_low, tap_append_high, intMod, floatMod, memMod, code, fnNeed,
    abc, ab, ac, bc, aOnly, bOnly, cOnly, none3, abOff, abOff20, offset24, offset20]
  simp [Fields.ctl, offLo_kind, offHi_offLo, off20_kind, off20_value] <;> simp (decide := true) [cut, tap, MemWidth.ofCode]

theorem fstatSet (k : Ctl) (b : Operand) : Statement (.fstatSet k b) := by
  refine of_fields _ _ rfl ?_
  have h1 : (cut 4 3 (0x3E : BitVec 7)).toNat = 3 := by decide
  have h2 : (cut 0 4 (0x3E : BitVec 7)).toNat = 14 := by decide
  simp (disch := omega) only [decodeFields, decRow3, enc, h1, h2, decInt, decLong, decLogic, decBcnt, decPmov, decMeet, decFloat, decFsign, decFexpo, decFstat, decFcvt, decIcvt, decAqld, decStfe, decCinv, decLatch, decNdone, decQctl, decMma, decMxmov, decMkey, decHbind, decHsend, decBar, decTret, decDetset, decClk, decCtxop, IntMod.fn, FloatMod.fn, MemMod.fn, offFn,
    cut_append_low, cut_append_high, cut_full, tap_append_low, tap_append_high, intMod, floatMod, memMod, code, fnNeed,
    abc, ab, ac, bc, aOnly, bOnly, cOnly, none3, abOff, abOff20, offset24, offset20]
  simp [Fields.ctl, offLo_kind, offHi_offLo, off20_kind, off20_value] <;> simp (decide := true) [cut, tap, MemWidth.ofCode]

theorem quant (k : Ctl) (a b c : Operand) : Statement (.quant k a b c) := by
  refine of_fields _ _ rfl ?_
  have h1 : (cut 4 3 (0x43 : BitVec 7)).toNat = 4 := by decide
  have h2 : (cut 0 4 (0x43 : BitVec 7)).toNat = 3 := by decide
  simp (disch := omega) only [decodeFields, decRow4, enc, h1, h2, decInt, decLong, decLogic, decBcnt, decPmov, decMeet, decFloat, decFsign, decFexpo, decFstat, decFcvt, decIcvt, decAqld, decStfe, decCinv, decLatch, decNdone, decQctl, decMma, decMxmov, decMkey, decHbind, decHsend, decBar, decTret, decDetset, decClk, decCtxop, IntMod.fn, FloatMod.fn, MemMod.fn, offFn,
    cut_append_low, cut_append_high, cut_full, tap_append_low, tap_append_high, intMod, floatMod, memMod, code, fnNeed,
    abc, ab, ac, bc, aOnly, bOnly, cOnly, none3, abOff, abOff20, offset24, offset20]
  simp [Fields.ctl, offLo_kind, offHi_offLo, off20_kind, off20_value] <;> simp (decide := true) [cut, tap, MemWidth.ofCode]

theorem cbdec (k : Ctl) (md : CbMode) (a b c : Operand) : Statement (.cbdec k md a b c) := by
  refine of_fields _ _ rfl ?_
  have h1 : (cut 4 3 (0x44 : BitVec 7)).toNat = 4 := by decide
  have h2 : (cut 0 4 (0x44 : BitVec 7)).toNat = 4 := by decide
  simp (disch := omega) only [decodeFields, decRow4, enc, h1, h2, decInt, decLong, decLogic, decBcnt, decPmov, decMeet, decFloat, decFsign, decFexpo, decFstat, decFcvt, decIcvt, decAqld, decStfe, decCinv, decLatch, decNdone, decQctl, decMma, decMxmov, decMkey, decHbind, decHsend, decBar, decTret, decDetset, decClk, decCtxop, IntMod.fn, FloatMod.fn, MemMod.fn, offFn,
    cut_append_low, cut_append_high, cut_full, tap_append_low, tap_append_high, intMod, floatMod, memMod, code, fnNeed,
    abc, ab, ac, bc, aOnly, bOnly, cOnly, none3, abOff, abOff20, offset24, offset20]
  simp [Fields.ctl, offLo_kind, offHi_offLo, off20_kind, off20_value] <;> simp (decide := true) [cut, tap, MemWidth.ofCode]

theorem deq (k : Ctl) (src : DeqSrc) (a b c : Operand) : Statement (.deq k src a b c) := by
  refine of_fields _ _ rfl ?_
  have h1 : (cut 4 3 (0x45 : BitVec 7)).toNat = 4 := by decide
  have h2 : (cut 0 4 (0x45 : BitVec 7)).toNat = 5 := by decide
  simp (disch := omega) only [decodeFields, decRow4, enc, h1, h2, decInt, decLong, decLogic, decBcnt, decPmov, decMeet, decFloat, decFsign, decFexpo, decFstat, decFcvt, decIcvt, decAqld, decStfe, decCinv, decLatch, decNdone, decQctl, decMma, decMxmov, decMkey, decHbind, decHsend, decBar, decTret, decDetset, decClk, decCtxop, IntMod.fn, FloatMod.fn, MemMod.fn, offFn,
    cut_append_low, cut_append_high, cut_full, tap_append_low, tap_append_high, intMod, floatMod, memMod, code, fnNeed,
    abc, ab, ac, bc, aOnly, bOnly, cOnly, none3, abOff, abOff20, offset24, offset20]
  simp [Fields.ctl, offLo_kind, offHi_offLo, off20_kind, off20_value] <;> simp (decide := true) [cut, tap, MemWidth.ofCode]

theorem func (k : Ctl) (rm : Rnd) (fmt : Fmt) (fn : Fn) (a b : Operand) : Statement (.func k rm fmt fn a b) := by
  refine of_fields _ _ rfl ?_
  have h1 : (cut 4 3 (0x40 : BitVec 7)).toNat = 4 := by decide
  have h2 : (cut 0 4 (0x40 : BitVec 7)).toNat = 0 := by decide
  simp (disch := omega) only [decodeFields, decRow4, enc, h1, h2, decInt, decLong, decLogic, decBcnt, decPmov, decMeet, decFloat, decFsign, decFexpo, decFstat, decFcvt, decIcvt, decAqld, decStfe, decCinv, decLatch, decNdone, decQctl, decMma, decMxmov, decMkey, decHbind, decHsend, decBar, decTret, decDetset, decClk, decCtxop, IntMod.fn, FloatMod.fn, MemMod.fn, offFn,
    cut_append_low, cut_append_high, cut_full, tap_append_low, tap_append_high, intMod, floatMod, memMod, code, fnNeed,
    abc, ab, ac, bc, aOnly, bOnly, cOnly, none3, abOff, abOff20, offset24, offset20]
  simp [Fields.ctl, offLo_kind, offHi_offLo, off20_kind, off20_value] <;> simp (decide := true) [cut, tap, MemWidth.ofCode]

theorem funca (k : Ctl) (fmt : Fmt) (fn : Fn) (a b : Operand) : Statement (.funca k fmt fn a b) := by
  refine of_fields _ _ rfl ?_
  have h1 : (cut 4 3 (0x41 : BitVec 7)).toNat = 4 := by decide
  have h2 : (cut 0 4 (0x41 : BitVec 7)).toNat = 1 := by decide
  simp (disch := omega) only [decodeFields, decRow4, enc, h1, h2, decInt, decLong, decLogic, decBcnt, decPmov, decMeet, decFloat, decFsign, decFexpo, decFstat, decFcvt, decIcvt, decAqld, decStfe, decCinv, decLatch, decNdone, decQctl, decMma, decMxmov, decMkey, decHbind, decHsend, decBar, decTret, decDetset, decClk, decCtxop, IntMod.fn, FloatMod.fn, MemMod.fn, offFn,
    cut_append_low, cut_append_high, cut_full, tap_append_low, tap_append_high, intMod, floatMod, memMod, code, fnNeed,
    abc, ab, ac, bc, aOnly, bOnly, cOnly, none3, abOff, abOff20, offset24, offset20]
  simp [Fields.ctl, offLo_kind, offHi_offLo, off20_kind, off20_value] <;> simp (decide := true) [cut, tap, MemWidth.ofCode]

theorem func2 (k : Ctl) (rm : Rnd) (fmt : Fmt) (fn : Fn2) (a b c : Operand) : Statement (.func2 k rm fmt fn a b c) := by
  refine of_fields _ _ rfl ?_
  have h1 : (cut 4 3 (0x42 : BitVec 7)).toNat = 4 := by decide
  have h2 : (cut 0 4 (0x42 : BitVec 7)).toNat = 2 := by decide
  simp (disch := omega) only [decodeFields, decRow4, enc, h1, h2, decInt, decLong, decLogic, decBcnt, decPmov, decMeet, decFloat, decFsign, decFexpo, decFstat, decFcvt, decIcvt, decAqld, decStfe, decCinv, decLatch, decNdone, decQctl, decMma, decMxmov, decMkey, decHbind, decHsend, decBar, decTret, decDetset, decClk, decCtxop, IntMod.fn, FloatMod.fn, MemMod.fn, offFn,
    cut_append_low, cut_append_high, cut_full, tap_append_low, tap_append_high, intMod, floatMod, memMod, code, fnNeed,
    abc, ab, ac, bc, aOnly, bOnly, cOnly, none3, abOff, abOff20, offset24, offset20]
  simp [Fields.ctl, offLo_kind, offHi_offLo, off20_kind, off20_value] <;> simp (decide := true) [cut, tap, MemWidth.ofCode]

theorem sfuPhase1Complete (core i : Nat) : Statement (.sfuPhase1Complete core i) := of_none _ rfl

theorem sfuPhase2Lane (core : Nat) : Statement (.sfuPhase2Lane core) := of_none _ rfl

theorem tretRetry (k : Ctl) : Statement (.tretRetry k) := by
  refine of_fields _ _ rfl ?_
  have h1 : (cut 4 3 (0x73 : BitVec 7)).toNat = 7 := by decide
  have h2 : (cut 0 4 (0x73 : BitVec 7)).toNat = 3 := by decide
  simp (disch := omega) only [decodeFields, decRow7, enc, h1, h2, decInt, decLong, decLogic, decBcnt, decPmov, decMeet, decFloat, decFsign, decFexpo, decFstat, decFcvt, decIcvt, decAqld, decStfe, decCinv, decLatch, decNdone, decQctl, decMma, decMxmov, decMkey, decHbind, decHsend, decBar, decTret, decDetset, decClk, decCtxop, IntMod.fn, FloatMod.fn, MemMod.fn, offFn,
    cut_append_low, cut_append_high, cut_full, tap_append_low, tap_append_high, intMod, floatMod, memMod, code, fnNeed,
    abc, ab, ac, bc, aOnly, bOnly, cOnly, none3, abOff, abOff20, offset24, offset20]
  simp [Fields.ctl, offLo_kind, offHi_offLo, off20_kind, off20_value] <;> simp (decide := true) [cut, tap, MemWidth.ofCode]

theorem tretSkip (k : Ctl) : Statement (.tretSkip k) := by
  refine of_fields _ _ rfl ?_
  have h1 : (cut 4 3 (0x73 : BitVec 7)).toNat = 7 := by decide
  have h2 : (cut 0 4 (0x73 : BitVec 7)).toNat = 3 := by decide
  simp (disch := omega) only [decodeFields, decRow7, enc, h1, h2, decInt, decLong, decLogic, decBcnt, decPmov, decMeet, decFloat, decFsign, decFexpo, decFstat, decFcvt, decIcvt, decAqld, decStfe, decCinv, decLatch, decNdone, decQctl, decMma, decMxmov, decMkey, decHbind, decHsend, decBar, decTret, decDetset, decClk, decCtxop, IntMod.fn, FloatMod.fn, MemMod.fn, offFn,
    cut_append_low, cut_append_high, cut_full, tap_append_low, tap_append_high, intMod, floatMod, memMod, code, fnNeed,
    abc, ab, ac, bc, aOnly, bOnly, cOnly, none3, abOff, abOff20, offset24, offset20]
  simp [Fields.ctl, offLo_kind, offHi_offLo, off20_kind, off20_value] <;> simp (decide := true) [cut, tap, MemWidth.ofCode]

theorem tretKillpt (k : Ctl) : Statement (.tretKillpt k) := by
  refine of_fields _ _ rfl ?_
  have h1 : (cut 4 3 (0x73 : BitVec 7)).toNat = 7 := by decide
  have h2 : (cut 0 4 (0x73 : BitVec 7)).toNat = 3 := by decide
  simp (disch := omega) only [decodeFields, decRow7, enc, h1, h2, decInt, decLong, decLogic, decBcnt, decPmov, decMeet, decFloat, decFsign, decFexpo, decFstat, decFcvt, decIcvt, decAqld, decStfe, decCinv, decLatch, decNdone, decQctl, decMma, decMxmov, decMkey, decHbind, decHsend, decBar, decTret, decDetset, decClk, decCtxop, IntMod.fn, FloatMod.fn, MemMod.fn, offFn,
    cut_append_low, cut_append_high, cut_full, tap_append_low, tap_append_high, intMod, floatMod, memMod, code, fnNeed,
    abc, ab, ac, bc, aOnly, bOnly, cOnly, none3, abOff, abOff20, offset24, offset20]
  simp [Fields.ctl, offLo_kind, offHi_offLo, off20_kind, off20_value] <;> simp (decide := true) [cut, tap, MemWidth.ofCode]

theorem tretKillw (k : Ctl) : Statement (.tretKillw k) := by
  refine of_fields _ _ rfl ?_
  have h1 : (cut 4 3 (0x73 : BitVec 7)).toNat = 7 := by decide
  have h2 : (cut 0 4 (0x73 : BitVec 7)).toNat = 3 := by decide
  simp (disch := omega) only [decodeFields, decRow7, enc, h1, h2, decInt, decLong, decLogic, decBcnt, decPmov, decMeet, decFloat, decFsign, decFexpo, decFstat, decFcvt, decIcvt, decAqld, decStfe, decCinv, decLatch, decNdone, decQctl, decMma, decMxmov, decMkey, decHbind, decHsend, decBar, decTret, decDetset, decClk, decCtxop, IntMod.fn, FloatMod.fn, MemMod.fn, offFn,
    cut_append_low, cut_append_high, cut_full, tap_append_low, tap_append_high, intMod, floatMod, memMod, code, fnNeed,
    abc, ab, ac, bc, aOnly, bOnly, cOnly, none3, abOff, abOff20, offset24, offset20]
  simp [Fields.ctl, offLo_kind, offHi_offLo, off20_kind, off20_value] <;> simp (decide := true) [cut, tap, MemWidth.ofCode]

theorem tretFatal (k : Ctl) : Statement (.tretFatal k) := by
  refine of_fields _ _ rfl ?_
  have h1 : (cut 4 3 (0x73 : BitVec 7)).toNat = 7 := by decide
  have h2 : (cut 0 4 (0x73 : BitVec 7)).toNat = 3 := by decide
  simp (disch := omega) only [decodeFields, decRow7, enc, h1, h2, decInt, decLong, decLogic, decBcnt, decPmov, decMeet, decFloat, decFsign, decFexpo, decFstat, decFcvt, decIcvt, decAqld, decStfe, decCinv, decLatch, decNdone, decQctl, decMma, decMxmov, decMkey, decHbind, decHsend, decBar, decTret, decDetset, decClk, decCtxop, IntMod.fn, FloatMod.fn, MemMod.fn, offFn,
    cut_append_low, cut_append_high, cut_full, tap_append_low, tap_append_high, intMod, floatMod, memMod, code, fnNeed,
    abc, ab, ac, bc, aOnly, bOnly, cOnly, none3, abOff, abOff20, offset24, offset20]
  simp [Fields.ctl, offLo_kind, offHi_offLo, off20_kind, off20_value] <;> simp (decide := true) [cut, tap, MemWidth.ofCode]

theorem hallFaultDelivery (g : Nat) : Statement (.hallFaultDelivery g) := of_none _ rfl

theorem trap (k : Ctl) (c : Operand) : Statement (.trap k c) := by
  refine of_fields _ _ rfl ?_
  have h1 : (cut 4 3 (0x72 : BitVec 7)).toNat = 7 := by decide
  have h2 : (cut 0 4 (0x72 : BitVec 7)).toNat = 2 := by decide
  simp (disch := omega) only [decodeFields, decRow7, enc, h1, h2, decInt, decLong, decLogic, decBcnt, decPmov, decMeet, decFloat, decFsign, decFexpo, decFstat, decFcvt, decIcvt, decAqld, decStfe, decCinv, decLatch, decNdone, decQctl, decMma, decMxmov, decMkey, decHbind, decHsend, decBar, decTret, decDetset, decClk, decCtxop, IntMod.fn, FloatMod.fn, MemMod.fn, offFn,
    cut_append_low, cut_append_high, cut_full, tap_append_low, tap_append_high, intMod, floatMod, memMod, code, fnNeed,
    abc, ab, ac, bc, aOnly, bOnly, cOnly, none3, abOff, abOff20, offset24, offset20]
  simp [Fields.ctl, offLo_kind, offHi_offLo, off20_kind, off20_value] <;> simp (decide := true) [cut, tap, MemWidth.ofCode]

theorem bkpt (k : Ctl) (c : Operand) : Statement (.bkpt k c) := by
  refine of_fields _ _ rfl ?_
  have h1 : (cut 4 3 (0x7E : BitVec 7)).toNat = 7 := by decide
  have h2 : (cut 0 4 (0x7E : BitVec 7)).toNat = 14 := by decide
  simp (disch := omega) only [decodeFields, decRow7, enc, h1, h2, decInt, decLong, decLogic, decBcnt, decPmov, decMeet, decFloat, decFsign, decFexpo, decFstat, decFcvt, decIcvt, decAqld, decStfe, decCinv, decLatch, decNdone, decQctl, decMma, decMxmov, decMkey, decHbind, decHsend, decBar, decTret, decDetset, decClk, decCtxop, IntMod.fn, FloatMod.fn, MemMod.fn, offFn,
    cut_append_low, cut_append_high, cut_full, tap_append_low, tap_append_high, intMod, floatMod, memMod, code, fnNeed,
    abc, ab, ac, bc, aOnly, bOnly, cOnly, none3, abOff, abOff20, offset24, offset20]
  simp [Fields.ctl, offLo_kind, offHi_offLo, off20_kind, off20_value] <;> simp (decide := true) [cut, tap, MemWidth.ofCode]

theorem ill (k : Ctl) (fn : BitVec 12) (a b c : BitVec 22) : Statement (.ill k fn a b c) := by
  refine of_fields _ _ rfl ?_
  have h1 : (cut 4 3 (0x7F : BitVec 7)).toNat = 7 := by decide
  have h2 : (cut 0 4 (0x7F : BitVec 7)).toNat = 15 := by decide
  simp (disch := omega) only [decodeFields, decRow7, enc, h1, h2, decInt, decLong, decLogic, decBcnt, decPmov, decMeet, decFloat, decFsign, decFexpo, decFstat, decFcvt, decIcvt, decAqld, decStfe, decCinv, decLatch, decNdone, decQctl, decMma, decMxmov, decMkey, decHbind, decHsend, decBar, decTret, decDetset, decClk, decCtxop, IntMod.fn, FloatMod.fn, MemMod.fn, offFn,
    cut_append_low, cut_append_high, cut_full, tap_append_low, tap_append_high, intMod, floatMod, memMod, code, fnNeed,
    abc, ab, ac, bc, aOnly, bOnly, cOnly, none3, abOff, abOff20, offset24, offset20]
  simp [Fields.ctl, offLo_kind, offHi_offLo, off20_kind, off20_value] <;> simp (decide := true) [cut, tap, MemWidth.ofCode]

theorem rdsr (k : Ctl) (a b : Operand) : Statement (.rdsr k a b) := by
  refine of_fields _ _ rfl ?_
  have h1 : (cut 4 3 (0x74 : BitVec 7)).toNat = 7 := by decide
  have h2 : (cut 0 4 (0x74 : BitVec 7)).toNat = 4 := by decide
  simp (disch := omega) only [decodeFields, decRow7, enc, h1, h2, decInt, decLong, decLogic, decBcnt, decPmov, decMeet, decFloat, decFsign, decFexpo, decFstat, decFcvt, decIcvt, decAqld, decStfe, decCinv, decLatch, decNdone, decQctl, decMma, decMxmov, decMkey, decHbind, decHsend, decBar, decTret, decDetset, decClk, decCtxop, IntMod.fn, FloatMod.fn, MemMod.fn, offFn,
    cut_append_low, cut_append_high, cut_full, tap_append_low, tap_append_high, intMod, floatMod, memMod, code, fnNeed,
    abc, ab, ac, bc, aOnly, bOnly, cOnly, none3, abOff, abOff20, offset24, offset20]
  simp [Fields.ctl, offLo_kind, offHi_offLo, off20_kind, off20_value] <;> simp (decide := true) [cut, tap, MemWidth.ofCode]

theorem wrsr (k : Ctl) (a b : Operand) : Statement (.wrsr k a b) := by
  refine of_fields _ _ rfl ?_
  have h1 : (cut 4 3 (0x75 : BitVec 7)).toNat = 7 := by decide
  have h2 : (cut 0 4 (0x75 : BitVec 7)).toNat = 5 := by decide
  simp (disch := omega) only [decodeFields, decRow7, enc, h1, h2, decInt, decLong, decLogic, decBcnt, decPmov, decMeet, decFloat, decFsign, decFexpo, decFstat, decFcvt, decIcvt, decAqld, decStfe, decCinv, decLatch, decNdone, decQctl, decMma, decMxmov, decMkey, decHbind, decHsend, decBar, decTret, decDetset, decClk, decCtxop, IntMod.fn, FloatMod.fn, MemMod.fn, offFn,
    cut_append_low, cut_append_high, cut_full, tap_append_low, tap_append_high, intMod, floatMod, memMod, code, fnNeed,
    abc, ab, ac, bc, aOnly, bOnly, cOnly, none3, abOff, abOff20, offset24, offset20]
  simp [Fields.ctl, offLo_kind, offHi_offLo, off20_kind, off20_value] <;> simp (decide := true) [cut, tap, MemWidth.ofCode]

theorem ctxopSetf (k : Ctl) (field : BitVec 8) (a b c : Operand) : Statement (.ctxopSetf k field a b c) := by
  refine of_fields _ _ rfl ?_
  have h1 : (cut 4 3 (0x7A : BitVec 7)).toNat = 7 := by decide
  have h2 : (cut 0 4 (0x7A : BitVec 7)).toNat = 10 := by decide
  simp (disch := omega) only [decodeFields, decRow7, enc, h1, h2, decInt, decLong, decLogic, decBcnt, decPmov, decMeet, decFloat, decFsign, decFexpo, decFstat, decFcvt, decIcvt, decAqld, decStfe, decCinv, decLatch, decNdone, decQctl, decMma, decMxmov, decMkey, decHbind, decHsend, decBar, decTret, decDetset, decClk, decCtxop, IntMod.fn, FloatMod.fn, MemMod.fn, offFn,
    cut_append_low, cut_append_high, cut_full, tap_append_low, tap_append_high, intMod, floatMod, memMod, code, fnNeed,
    abc, ab, ac, bc, aOnly, bOnly, cOnly, none3, abOff, abOff20, offset24, offset20]
  simp [Fields.ctl, offLo_kind, offHi_offLo, off20_kind, off20_value] <;> simp (decide := true) [cut, tap, MemWidth.ofCode]

theorem ctxopRegion (k : Ctl) (a b c : Operand) : Statement (.ctxopRegion k a b c) := by
  refine of_fields _ _ rfl ?_
  have h1 : (cut 4 3 (0x7A : BitVec 7)).toNat = 7 := by decide
  have h2 : (cut 0 4 (0x7A : BitVec 7)).toNat = 10 := by decide
  simp (disch := omega) only [decodeFields, decRow7, enc, h1, h2, decInt, decLong, decLogic, decBcnt, decPmov, decMeet, decFloat, decFsign, decFexpo, decFstat, decFcvt, decIcvt, decAqld, decStfe, decCinv, decLatch, decNdone, decQctl, decMma, decMxmov, decMkey, decHbind, decHsend, decBar, decTret, decDetset, decClk, decCtxop, IntMod.fn, FloatMod.fn, MemMod.fn, offFn,
    cut_append_low, cut_append_high, cut_full, tap_append_low, tap_append_high, intMod, floatMod, memMod, code, fnNeed,
    abc, ab, ac, bc, aOnly, bOnly, cOnly, none3, abOff, abOff20, offset24, offset20]
  simp [Fields.ctl, offLo_kind, offHi_offLo, off20_kind, off20_value] <;> simp (decide := true) [cut, tap, MemWidth.ofCode]

theorem ctxopTlbinv (k : Ctl) (b c : Operand) : Statement (.ctxopTlbinv k b c) := by
  refine of_fields _ _ rfl ?_
  have h1 : (cut 4 3 (0x7A : BitVec 7)).toNat = 7 := by decide
  have h2 : (cut 0 4 (0x7A : BitVec 7)).toNat = 10 := by decide
  simp (disch := omega) only [decodeFields, decRow7, enc, h1, h2, decInt, decLong, decLogic, decBcnt, decPmov, decMeet, decFloat, decFsign, decFexpo, decFstat, decFcvt, decIcvt, decAqld, decStfe, decCinv, decLatch, decNdone, decQctl, decMma, decMxmov, decMkey, decHbind, decHsend, decBar, decTret, decDetset, decClk, decCtxop, IntMod.fn, FloatMod.fn, MemMod.fn, offFn,
    cut_append_low, cut_append_high, cut_full, tap_append_low, tap_append_high, intMod, floatMod, memMod, code, fnNeed,
    abc, ab, ac, bc, aOnly, bOnly, cOnly, none3, abOff, abOff20, offset24, offset20]
  simp [Fields.ctl, offLo_kind, offHi_offLo, off20_kind, off20_value] <;> simp (decide := true) [cut, tap, MemWidth.ofCode]

theorem watchdogExpiry (g : Nat) : Statement (.watchdogExpiry g) := of_none _ rfl

theorem nbind (k : Ctl) (a b c : Operand) : Statement (.nbind k a b c) := by
  refine of_fields _ _ rfl ?_
  have h1 : (cut 4 3 (0x60 : BitVec 7)).toNat = 6 := by decide
  have h2 : (cut 0 4 (0x60 : BitVec 7)).toNat = 0 := by decide
  simp (disch := omega) only [decodeFields, decRow6, enc, h1, h2, decInt, decLong, decLogic, decBcnt, decPmov, decMeet, decFloat, decFsign, decFexpo, decFstat, decFcvt, decIcvt, decAqld, decStfe, decCinv, decLatch, decNdone, decQctl, decMma, decMxmov, decMkey, decHbind, decHsend, decBar, decTret, decDetset, decClk, decCtxop, IntMod.fn, FloatMod.fn, MemMod.fn, offFn,
    cut_append_low, cut_append_high, cut_full, tap_append_low, tap_append_high, intMod, floatMod, memMod, code, fnNeed,
    abc, ab, ac, bc, aOnly, bOnly, cOnly, none3, abOff, abOff20, offset24, offset20]
  simp [Fields.ctl, offLo_kind, offHi_offLo, off20_kind, off20_value] <;> simp (decide := true) [cut, tap, MemWidth.ofCode]

theorem npop (k : Ctl) (try_ : Bool) (a : Operand) : Statement (.npop k try_ a) := by
  refine of_fields _ _ rfl ?_
  have h1 : (cut 4 3 (0x61 : BitVec 7)).toNat = 6 := by decide
  have h2 : (cut 0 4 (0x61 : BitVec 7)).toNat = 1 := by decide
  simp (disch := omega) only [decodeFields, decRow6, enc, h1, h2, decInt, decLong, decLogic, decBcnt, decPmov, decMeet, decFloat, decFsign, decFexpo, decFstat, decFcvt, decIcvt, decAqld, decStfe, decCinv, decLatch, decNdone, decQctl, decMma, decMxmov, decMkey, decHbind, decHsend, decBar, decTret, decDetset, decClk, decCtxop, IntMod.fn, FloatMod.fn, MemMod.fn, offFn,
    cut_append_low, cut_append_high, cut_full, tap_append_low, tap_append_high, intMod, floatMod, memMod, code, fnNeed,
    abc, ab, ac, bc, aOnly, bOnly, cOnly, none3, abOff, abOff20, offset24, offset20]
  simp [Fields.ctl, offLo_kind, offHi_offLo, off20_kind, off20_value] <;> simp (decide := true) [cut, tap, MemWidth.ofCode]

theorem ndoneOk (k : Ctl) (a : Operand) : Statement (.ndoneOk k a) := by
  refine of_fields _ _ rfl ?_
  have h1 : (cut 4 3 (0x62 : BitVec 7)).toNat = 6 := by decide
  have h2 : (cut 0 4 (0x62 : BitVec 7)).toNat = 2 := by decide
  simp (disch := omega) only [decodeFields, decRow6, enc, h1, h2, decInt, decLong, decLogic, decBcnt, decPmov, decMeet, decFloat, decFsign, decFexpo, decFstat, decFcvt, decIcvt, decAqld, decStfe, decCinv, decLatch, decNdone, decQctl, decMma, decMxmov, decMkey, decHbind, decHsend, decBar, decTret, decDetset, decClk, decCtxop, IntMod.fn, FloatMod.fn, MemMod.fn, offFn,
    cut_append_low, cut_append_high, cut_full, tap_append_low, tap_append_high, intMod, floatMod, memMod, code, fnNeed,
    abc, ab, ac, bc, aOnly, bOnly, cOnly, none3, abOff, abOff20, offset24, offset20]
  simp [Fields.ctl, offLo_kind, offHi_offLo, off20_kind, off20_value] <;> simp (decide := true) [cut, tap, MemWidth.ofCode]

theorem ndoneFail (k : Ctl) (a b c : Operand) : Statement (.ndoneFail k a b c) := by
  refine of_fields _ _ rfl ?_
  have h1 : (cut 4 3 (0x62 : BitVec 7)).toNat = 6 := by decide
  have h2 : (cut 0 4 (0x62 : BitVec 7)).toNat = 2 := by decide
  simp (disch := omega) only [decodeFields, decRow6, enc, h1, h2, decInt, decLong, decLogic, decBcnt, decPmov, decMeet, decFloat, decFsign, decFexpo, decFstat, decFcvt, decIcvt, decAqld, decStfe, decCinv, decLatch, decNdone, decQctl, decMma, decMxmov, decMkey, decHbind, decHsend, decBar, decTret, decDetset, decClk, decCtxop, IntMod.fn, FloatMod.fn, MemMod.fn, offFn,
    cut_append_low, cut_append_high, cut_full, tap_append_low, tap_append_high, intMod, floatMod, memMod, code, fnNeed,
    abc, ab, ac, bc, aOnly, bOnly, cOnly, none3, abOff, abOff20, offset24, offset20]
  simp [Fields.ctl, offLo_kind, offHi_offLo, off20_kind, off20_value] <;> simp (decide := true) [cut, tap, MemWidth.ofCode]

theorem ndoneKill (k : Ctl) (a b c : Operand) : Statement (.ndoneKill k a b c) := by
  refine of_fields _ _ rfl ?_
  have h1 : (cut 4 3 (0x62 : BitVec 7)).toNat = 6 := by decide
  have h2 : (cut 0 4 (0x62 : BitVec 7)).toNat = 2 := by decide
  simp (disch := omega) only [decodeFields, decRow6, enc, h1, h2, decInt, decLong, decLogic, decBcnt, decPmov, decMeet, decFloat, decFsign, decFexpo, decFstat, decFcvt, decIcvt, decAqld, decStfe, decCinv, decLatch, decNdone, decQctl, decMma, decMxmov, decMkey, decHbind, decHsend, decBar, decTret, decDetset, decClk, decCtxop, IntMod.fn, FloatMod.fn, MemMod.fn, offFn,
    cut_append_low, cut_append_high, cut_full, tap_append_low, tap_append_high, intMod, floatMod, memMod, code, fnNeed,
    abc, ab, ac, bc, aOnly, bOnly, cOnly, none3, abOff, abOff20, offset24, offset20]
  simp [Fields.ctl, offLo_kind, offHi_offLo, off20_kind, off20_value] <;> simp (decide := true) [cut, tap, MemWidth.ofCode]

theorem nxbnd (k : Ctl) (hi : Bool) (d : BitVec 2) (a b c : Operand) : Statement (.nxbnd k hi d a b c) := by
  refine of_fields _ _ rfl ?_
  have h1 : (cut 4 3 (0x63 : BitVec 7)).toNat = 6 := by decide
  have h2 : (cut 0 4 (0x63 : BitVec 7)).toNat = 3 := by decide
  simp (disch := omega) only [decodeFields, decRow6, enc, h1, h2, decInt, decLong, decLogic, decBcnt, decPmov, decMeet, decFloat, decFsign, decFexpo, decFstat, decFcvt, decIcvt, decAqld, decStfe, decCinv, decLatch, decNdone, decQctl, decMma, decMxmov, decMkey, decHbind, decHsend, decBar, decTret, decDetset, decClk, decCtxop, IntMod.fn, FloatMod.fn, MemMod.fn, offFn,
    cut_append_low, cut_append_high, cut_full, tap_append_low, tap_append_high, intMod, floatMod, memMod, code, fnNeed,
    abc, ab, ac, bc, aOnly, bOnly, cOnly, none3, abOff, abOff20, offset24, offset20]
  simp [Fields.ctl, offLo_kind, offHi_offLo, off20_kind, off20_value] <;> simp (decide := true) [cut, tap, MemWidth.ofCode]

theorem boundRewrite (die i : Nat) : Statement (.boundRewrite die i) := of_none _ rfl

theorem njoin (k : Ctl) (q try_ : Bool) (a b : Operand) : Statement (.njoin k q try_ a b) := by
  refine of_fields _ _ rfl ?_
  have h1 : (cut 4 3 (0x64 : BitVec 7)).toNat = 6 := by decide
  have h2 : (cut 0 4 (0x64 : BitVec 7)).toNat = 4 := by decide
  simp (disch := omega) only [decodeFields, decRow6, enc, h1, h2, decInt, decLong, decLogic, decBcnt, decPmov, decMeet, decFloat, decFsign, decFexpo, decFstat, decFcvt, decIcvt, decAqld, decStfe, decCinv, decLatch, decNdone, decQctl, decMma, decMxmov, decMkey, decHbind, decHsend, decBar, decTret, decDetset, decClk, decCtxop, IntMod.fn, FloatMod.fn, MemMod.fn, offFn,
    cut_append_low, cut_append_high, cut_full, tap_append_low, tap_append_high, intMod, floatMod, memMod, code, fnNeed,
    abc, ab, ac, bc, aOnly, bOnly, cOnly, none3, abOff, abOff20, offset24, offset20]
  simp [Fields.ctl, offLo_kind, offHi_offLo, off20_kind, off20_value] <;> simp (decide := true) [cut, tap, MemWidth.ofCode]

theorem rowOpen (ctx handle : Nat) : Statement (.rowOpen ctx handle) := of_none _ rfl

theorem scheduleStart (ctx handle : Nat) : Statement (.scheduleStart ctx handle) := of_none _ rfl

theorem detsetD0 (k : Ctl) (a : Operand) : Statement (.detsetD0 k a) := by
  refine of_fields _ _ rfl ?_
  have h1 : (cut 4 3 (0x78 : BitVec 7)).toNat = 7 := by decide
  have h2 : (cut 0 4 (0x78 : BitVec 7)).toNat = 8 := by decide
  simp (disch := omega) only [decodeFields, decRow7, enc, h1, h2, decInt, decLong, decLogic, decBcnt, decPmov, decMeet, decFloat, decFsign, decFexpo, decFstat, decFcvt, decIcvt, decAqld, decStfe, decCinv, decLatch, decNdone, decQctl, decMma, decMxmov, decMkey, decHbind, decHsend, decBar, decTret, decDetset, decClk, decCtxop, IntMod.fn, FloatMod.fn, MemMod.fn, offFn,
    cut_append_low, cut_append_high, cut_full, tap_append_low, tap_append_high, intMod, floatMod, memMod, code, fnNeed,
    abc, ab, ac, bc, aOnly, bOnly, cOnly, none3, abOff, abOff20, offset24, offset20]
  simp [Fields.ctl, offLo_kind, offHi_offLo, off20_kind, off20_value] <;> simp (decide := true) [cut, tap, MemWidth.ofCode]

theorem detsetRec (k : Ctl) (d2 : Bool) (a b : Operand) : Statement (.detsetRec k d2 a b) := by
  refine of_fields _ _ rfl ?_
  cases d2
  all_goals
    simp (decide := true) [decodeFields, decRow7, decDetset, enc, ab, Fields.ctl, cut]

theorem detsetPlay (k : Ctl) (d2 : Bool) (a b : Operand) : Statement (.detsetPlay k d2 a b) := by
  refine of_fields _ _ rfl ?_
  cases d2
  all_goals
    simp (decide := true) [decodeFields, decRow7, decDetset, enc, ab, Fields.ctl, cut]

theorem clk (k : Ctl) (a : Operand) : Statement (.clk k a) := by
  refine of_fields _ _ rfl ?_
  have h1 : (cut 4 3 (0x79 : BitVec 7)).toNat = 7 := by decide
  have h2 : (cut 0 4 (0x79 : BitVec 7)).toNat = 9 := by decide
  simp (disch := omega) only [decodeFields, decRow7, enc, h1, h2, decInt, decLong, decLogic, decBcnt, decPmov, decMeet, decFloat, decFsign, decFexpo, decFstat, decFcvt, decIcvt, decAqld, decStfe, decCinv, decLatch, decNdone, decQctl, decMma, decMxmov, decMkey, decHbind, decHsend, decBar, decTret, decDetset, decClk, decCtxop, IntMod.fn, FloatMod.fn, MemMod.fn, offFn,
    cut_append_low, cut_append_high, cut_full, tap_append_low, tap_append_high, intMod, floatMod, memMod, code, fnNeed,
    abc, ab, ac, bc, aOnly, bOnly, cOnly, none3, abOff, abOff20, offset24, offset20]
  simp [Fields.ctl, offLo_kind, offHi_offLo, off20_kind, off20_value] <;> simp (decide := true) [cut, tap, MemWidth.ofCode]

theorem clkVt (k : Ctl) (a : Operand) : Statement (.clkVt k a) := by
  refine of_fields _ _ rfl ?_
  have h1 : (cut 4 3 (0x79 : BitVec 7)).toNat = 7 := by decide
  have h2 : (cut 0 4 (0x79 : BitVec 7)).toNat = 9 := by decide
  simp (disch := omega) only [decodeFields, decRow7, enc, h1, h2, decInt, decLong, decLogic, decBcnt, decPmov, decMeet, decFloat, decFsign, decFexpo, decFstat, decFcvt, decIcvt, decAqld, decStfe, decCinv, decLatch, decNdone, decQctl, decMma, decMxmov, decMkey, decHbind, decHsend, decBar, decTret, decDetset, decClk, decCtxop, IntMod.fn, FloatMod.fn, MemMod.fn, offFn,
    cut_append_low, cut_append_high, cut_full, tap_append_low, tap_append_high, intMod, floatMod, memMod, code, fnNeed,
    abc, ab, ac, bc, aOnly, bOnly, cOnly, none3, abOff, abOff20, offset24, offset20]
  simp [Fields.ctl, offLo_kind, offHi_offLo, off20_kind, off20_value] <;> simp (decide := true) [cut, tap, MemWidth.ofCode]

theorem clkRet (k : Ctl) (a : Operand) : Statement (.clkRet k a) := by
  refine of_fields _ _ rfl ?_
  have h1 : (cut 4 3 (0x79 : BitVec 7)).toNat = 7 := by decide
  have h2 : (cut 0 4 (0x79 : BitVec 7)).toNat = 9 := by decide
  simp (disch := omega) only [decodeFields, decRow7, enc, h1, h2, decInt, decLong, decLogic, decBcnt, decPmov, decMeet, decFloat, decFsign, decFexpo, decFstat, decFcvt, decIcvt, decAqld, decStfe, decCinv, decLatch, decNdone, decQctl, decMma, decMxmov, decMkey, decHbind, decHsend, decBar, decTret, decDetset, decClk, decCtxop, IntMod.fn, FloatMod.fn, MemMod.fn, offFn,
    cut_append_low, cut_append_high, cut_full, tap_append_low, tap_append_high, intMod, floatMod, memMod, code, fnNeed,
    abc, ab, ac, bc, aOnly, bOnly, cOnly, none3, abOff, abOff20, offset24, offset20]
  simp [Fields.ctl, offLo_kind, offHi_offLo, off20_kind, off20_value] <;> simp (decide := true) [cut, tap, MemWidth.ofCode]

theorem waitEnd (g : Agent) : Statement (.waitEnd g) := of_none _ rfl

theorem waitSwap (g : Nat) : Statement (.waitSwap g) := of_none _ rfl

theorem coreStallSwap (core : Nat) : Statement (.coreStallSwap core) := of_none _ rfl

theorem groupMove (g core : Nat) : Statement (.groupMove g core) := of_none _ rfl

theorem groupReadmission (g core : Nat) : Statement (.groupReadmission g core) := of_none _ rfl

theorem groupPlacement (ctx i core : Nat) : Statement (.groupPlacement ctx i core) := of_none _ rfl

theorem quantumExpiry (ctx : Nat) (rcb : Nat) : Statement (.quantumExpiry ctx rcb) := of_none _ rfl

theorem enginePreemptStop (ctx : Nat) (e : Engine) : Statement (.enginePreemptStop ctx e) := of_none _ rfl

theorem haltLineRaise (ctx : Nat) (e : Engine) (cause : Nat) (addr : Nat) : Statement (.haltLineRaise ctx e cause addr) := of_none _ rfl

theorem engineHaltStop (ctx : Nat) (e : Engine) : Statement (.engineHaltStop ctx e) := of_none _ rfl

theorem shutterSample (ctx : Nat) : Statement (.shutterSample ctx) := of_none _ rfl

theorem shutterSecondSample (ctx : Nat) : Statement (.shutterSecondSample ctx) := of_none _ rfl

theorem aprun (k : Ctl) (a b c : Operand) : Statement (.aprun k a b c) := by
  refine of_fields _ _ rfl ?_
  have h1 : (cut 4 3 (0x65 : BitVec 7)).toNat = 6 := by decide
  have h2 : (cut 0 4 (0x65 : BitVec 7)).toNat = 5 := by decide
  simp (disch := omega) only [decodeFields, decRow6, enc, h1, h2, decInt, decLong, decLogic, decBcnt, decPmov, decMeet, decFloat, decFsign, decFexpo, decFstat, decFcvt, decIcvt, decAqld, decStfe, decCinv, decLatch, decNdone, decQctl, decMma, decMxmov, decMkey, decHbind, decHsend, decBar, decTret, decDetset, decClk, decCtxop, IntMod.fn, FloatMod.fn, MemMod.fn, offFn,
    cut_append_low, cut_append_high, cut_full, tap_append_low, tap_append_high, intMod, floatMod, memMod, code, fnNeed,
    abc, ab, ac, bc, aOnly, bOnly, cOnly, none3, abOff, abOff20, offset24, offset20]
  simp [Fields.ctl, offLo_kind, offHi_offLo, off20_kind, off20_value] <;> simp (decide := true) [cut, tap, MemWidth.ofCode]

theorem aqld (k : Ctl) (str : Bool) (off : BitVec 24) (a b : Operand) : Statement (.aqld k str off a b) := by
  refine of_fields _ _ rfl ?_
  have h1 : (cut 4 3 (0x49 : BitVec 7)).toNat = 4 := by decide
  have h2 : (cut 0 4 (0x49 : BitVec 7)).toNat = 9 := by decide
  simp (disch := omega) only [decodeFields, decRow4, enc, h1, h2, decInt, decLong, decLogic, decBcnt, decPmov, decMeet, decFloat, decFsign, decFexpo, decFstat, decFcvt, decIcvt, decAqld, decStfe, decCinv, decLatch, decNdone, decQctl, decMma, decMxmov, decMkey, decHbind, decHsend, decBar, decTret, decDetset, decClk, decCtxop, IntMod.fn, FloatMod.fn, MemMod.fn, offFn,
    cut_append_low, cut_append_high, cut_full, tap_append_low, tap_append_high, intMod, floatMod, memMod, code, fnNeed,
    abc, ab, ac, bc, aOnly, bOnly, cOnly, none3, abOff, abOff20, offset24, offset20]
  simp [Fields.ctl, offLo_kind, offHi_offLo, off20_kind, off20_value] <;> simp (decide := true) [cut, tap, MemWidth.ofCode]

theorem aqldSp (k : Ctl) (str : Bool) (off : BitVec 24) (a b : Operand) : Statement (.aqldSp k str off a b) := by
  refine of_fields _ _ rfl ?_
  have h1 : (cut 4 3 (0x49 : BitVec 7)).toNat = 4 := by decide
  have h2 : (cut 0 4 (0x49 : BitVec 7)).toNat = 9 := by decide
  simp (disch := omega) only [decodeFields, decRow4, enc, h1, h2, decInt, decLong, decLogic, decBcnt, decPmov, decMeet, decFloat, decFsign, decFexpo, decFstat, decFcvt, decIcvt, decAqld, decStfe, decCinv, decLatch, decNdone, decQctl, decMma, decMxmov, decMkey, decHbind, decHsend, decBar, decTret, decDetset, decClk, decCtxop, IntMod.fn, FloatMod.fn, MemMod.fn, offFn,
    cut_append_low, cut_append_high, cut_full, tap_append_low, tap_append_high, intMod, floatMod, memMod, code, fnNeed,
    abc, ab, ac, bc, aOnly, bOnly, cOnly, none3, abOff, abOff20, offset24, offset20]
  simp [Fields.ctl, offLo_kind, offHi_offLo, off20_kind, off20_value] <;> simp (decide := true) [cut, tap, MemWidth.ofCode]

theorem aqldComplete (g i : Nat) : Statement (.aqldComplete g i) := of_none _ rfl

theorem aqst (k : Ctl) (str : Bool) (off : BitVec 24) (a b : Operand) : Statement (.aqst k str off a b) := by
  refine of_fields _ _ rfl ?_
  have h1 : (cut 4 3 (0x4A : BitVec 7)).toNat = 4 := by decide
  have h2 : (cut 0 4 (0x4A : BitVec 7)).toNat = 10 := by decide
  simp (disch := omega) only [decodeFields, decRow4, enc, h1, h2, decInt, decLong, decLogic, decBcnt, decPmov, decMeet, decFloat, decFsign, decFexpo, decFstat, decFcvt, decIcvt, decAqld, decStfe, decCinv, decLatch, decNdone, decQctl, decMma, decMxmov, decMkey, decHbind, decHsend, decBar, decTret, decDetset, decClk, decCtxop, IntMod.fn, FloatMod.fn, MemMod.fn, offFn,
    cut_append_low, cut_append_high, cut_full, tap_append_low, tap_append_high, intMod, floatMod, memMod, code, fnNeed,
    abc, ab, ac, bc, aOnly, bOnly, cOnly, none3, abOff, abOff20, offset24, offset20]
  simp [Fields.ctl, offLo_kind, offHi_offLo, off20_kind, off20_value] <;> simp (decide := true) [cut, tap, MemWidth.ofCode]

theorem aqsyn (k : Ctl) (sc : Scope) : Statement (.aqsyn k sc) := by
  refine of_fields _ _ rfl ?_
  have h1 : (cut 4 3 (0x4B : BitVec 7)).toNat = 4 := by decide
  have h2 : (cut 0 4 (0x4B : BitVec 7)).toNat = 11 := by decide
  simp (disch := omega) only [decodeFields, decRow4, enc, h1, h2, decInt, decLong, decLogic, decBcnt, decPmov, decMeet, decFloat, decFsign, decFexpo, decFstat, decFcvt, decIcvt, decAqld, decStfe, decCinv, decLatch, decNdone, decQctl, decMma, decMxmov, decMkey, decHbind, decHsend, decBar, decTret, decDetset, decClk, decCtxop, IntMod.fn, FloatMod.fn, MemMod.fn, offFn,
    cut_append_low, cut_append_high, cut_full, tap_append_low, tap_append_high, intMod, floatMod, memMod, code, fnNeed,
    abc, ab, ac, bc, aOnly, bOnly, cOnly, none3, abOff, abOff20, offset24, offset20]
  simp [Fields.ctl, offLo_kind, offHi_offLo, off20_kind, off20_value] <;> simp (decide := true) [cut, tap, MemWidth.ofCode]

theorem qpop (k : Ctl) (a b : Operand) : Statement (.qpop k a b) := by
  refine of_fields _ _ rfl ?_
  have h1 : (cut 4 3 (0x66 : BitVec 7)).toNat = 6 := by decide
  have h2 : (cut 0 4 (0x66 : BitVec 7)).toNat = 6 := by decide
  simp (disch := omega) only [decodeFields, decRow6, enc, h1, h2, decInt, decLong, decLogic, decBcnt, decPmov, decMeet, decFloat, decFsign, decFexpo, decFstat, decFcvt, decIcvt, decAqld, decStfe, decCinv, decLatch, decNdone, decQctl, decMma, decMxmov, decMkey, decHbind, decHsend, decBar, decTret, decDetset, decClk, decCtxop, IntMod.fn, FloatMod.fn, MemMod.fn, offFn,
    cut_append_low, cut_append_high, cut_full, tap_append_low, tap_append_high, intMod, floatMod, memMod, code, fnNeed,
    abc, ab, ac, bc, aOnly, bOnly, cOnly, none3, abOff, abOff20, offset24, offset20]
  simp [Fields.ctl, offLo_kind, offHi_offLo, off20_kind, off20_value] <;> simp (decide := true) [cut, tap, MemWidth.ofCode]

theorem qpush (k : Ctl) (a b : Operand) : Statement (.qpush k a b) := by
  refine of_fields _ _ rfl ?_
  have h1 : (cut 4 3 (0x48 : BitVec 7)).toNat = 4 := by decide
  have h2 : (cut 0 4 (0x48 : BitVec 7)).toNat = 8 := by decide
  simp (disch := omega) only [decodeFields, decRow4, enc, h1, h2, decInt, decLong, decLogic, decBcnt, decPmov, decMeet, decFloat, decFsign, decFexpo, decFstat, decFcvt, decIcvt, decAqld, decStfe, decCinv, decLatch, decNdone, decQctl, decMma, decMxmov, decMkey, decHbind, decHsend, decBar, decTret, decDetset, decClk, decCtxop, IntMod.fn, FloatMod.fn, MemMod.fn, offFn,
    cut_append_low, cut_append_high, cut_full, tap_append_low, tap_append_high, intMod, floatMod, memMod, code, fnNeed,
    abc, ab, ac, bc, aOnly, bOnly, cOnly, none3, abOff, abOff20, offset24, offset20]
  simp [Fields.ctl, offLo_kind, offHi_offLo, off20_kind, off20_value] <;> simp (decide := true) [cut, tap, MemWidth.ofCode]

theorem qctlToken (k : Ctl) (a b c : Operand) : Statement (.qctlToken k a b c) := by
  refine of_fields _ _ rfl ?_
  have h1 : (cut 4 3 (0x67 : BitVec 7)).toNat = 6 := by decide
  have h2 : (cut 0 4 (0x67 : BitVec 7)).toNat = 7 := by decide
  simp (disch := omega) only [decodeFields, decRow6, enc, h1, h2, decInt, decLong, decLogic, decBcnt, decPmov, decMeet, decFloat, decFsign, decFexpo, decFstat, decFcvt, decIcvt, decAqld, decStfe, decCinv, decLatch, decNdone, decQctl, decMma, decMxmov, decMkey, decHbind, decHsend, decBar, decTret, decDetset, decClk, decCtxop, IntMod.fn, FloatMod.fn, MemMod.fn, offFn,
    cut_append_low, cut_append_high, cut_full, tap_append_low, tap_append_high, intMod, floatMod, memMod, code, fnNeed,
    abc, ab, ac, bc, aOnly, bOnly, cOnly, none3, abOff, abOff20, offset24, offset20]
  simp [Fields.ctl, offLo_kind, offHi_offLo, off20_kind, off20_value] <;> simp (decide := true) [cut, tap, MemWidth.ofCode]

theorem qctlRetry (k : Ctl) (a b : Operand) : Statement (.qctlRetry k a b) := by
  refine of_fields _ _ rfl ?_
  have h1 : (cut 4 3 (0x67 : BitVec 7)).toNat = 6 := by decide
  have h2 : (cut 0 4 (0x67 : BitVec 7)).toNat = 7 := by decide
  simp (disch := omega) only [decodeFields, decRow6, enc, h1, h2, decInt, decLong, decLogic, decBcnt, decPmov, decMeet, decFloat, decFsign, decFexpo, decFstat, decFcvt, decIcvt, decAqld, decStfe, decCinv, decLatch, decNdone, decQctl, decMma, decMxmov, decMkey, decHbind, decHsend, decBar, decTret, decDetset, decClk, decCtxop, IntMod.fn, FloatMod.fn, MemMod.fn, offFn,
    cut_append_low, cut_append_high, cut_full, tap_append_low, tap_append_high, intMod, floatMod, memMod, code, fnNeed,
    abc, ab, ac, bc, aOnly, bOnly, cOnly, none3, abOff, abOff20, offset24, offset20]
  simp [Fields.ctl, offLo_kind, offHi_offLo, off20_kind, off20_value] <;> simp (decide := true) [cut, tap, MemWidth.ofCode]

theorem qctlKill (k : Ctl) (a b : Operand) : Statement (.qctlKill k a b) := by
  refine of_fields _ _ rfl ?_
  have h1 : (cut 4 3 (0x67 : BitVec 7)).toNat = 6 := by decide
  have h2 : (cut 0 4 (0x67 : BitVec 7)).toNat = 7 := by decide
  simp (disch := omega) only [decodeFields, decRow6, enc, h1, h2, decInt, decLong, decLogic, decBcnt, decPmov, decMeet, decFloat, decFsign, decFexpo, decFstat, decFcvt, decIcvt, decAqld, decStfe, decCinv, decLatch, decNdone, decQctl, decMma, decMxmov, decMkey, decHbind, decHsend, decBar, decTret, decDetset, decClk, decCtxop, IntMod.fn, FloatMod.fn, MemMod.fn, offFn,
    cut_append_low, cut_append_high, cut_full, tap_append_low, tap_append_high, intMod, floatMod, memMod, code, fnNeed,
    abc, ab, ac, bc, aOnly, bOnly, cOnly, none3, abOff, abOff20, offset24, offset20]
  simp [Fields.ctl, offLo_kind, offHi_offLo, off20_kind, off20_value] <;> simp (decide := true) [cut, tap, MemWidth.ofCode]

theorem qctlStat (k : Ctl) (a b : Operand) : Statement (.qctlStat k a b) := by
  refine of_fields _ _ rfl ?_
  have h1 : (cut 4 3 (0x67 : BitVec 7)).toNat = 6 := by decide
  have h2 : (cut 0 4 (0x67 : BitVec 7)).toNat = 7 := by decide
  simp (disch := omega) only [decodeFields, decRow6, enc, h1, h2, decInt, decLong, decLogic, decBcnt, decPmov, decMeet, decFloat, decFsign, decFexpo, decFstat, decFcvt, decIcvt, decAqld, decStfe, decCinv, decLatch, decNdone, decQctl, decMma, decMxmov, decMkey, decHbind, decHsend, decBar, decTret, decDetset, decClk, decCtxop, IntMod.fn, FloatMod.fn, MemMod.fn, offFn,
    cut_append_low, cut_append_high, cut_full, tap_append_low, tap_append_high, intMod, floatMod, memMod, code, fnNeed,
    abc, ab, ac, bc, aOnly, bOnly, cOnly, none3, abOff, abOff20, offset24, offset20]
  simp [Fields.ctl, offLo_kind, offHi_offLo, off20_kind, off20_value] <;> simp (decide := true) [cut, tap, MemWidth.ofCode]

theorem qctlJoin (k : Ctl) (a b : Operand) : Statement (.qctlJoin k a b) := by
  refine of_fields _ _ rfl ?_
  have h1 : (cut 4 3 (0x67 : BitVec 7)).toNat = 6 := by decide
  have h2 : (cut 0 4 (0x67 : BitVec 7)).toNat = 7 := by decide
  simp (disch := omega) only [decodeFields, decRow6, enc, h1, h2, decInt, decLong, decLogic, decBcnt, decPmov, decMeet, decFloat, decFsign, decFexpo, decFstat, decFcvt, decIcvt, decAqld, decStfe, decCinv, decLatch, decNdone, decQctl, decMma, decMxmov, decMkey, decHbind, decHsend, decBar, decTret, decDetset, decClk, decCtxop, IntMod.fn, FloatMod.fn, MemMod.fn, offFn,
    cut_append_low, cut_append_high, cut_full, tap_append_low, tap_append_high, intMod, floatMod, memMod, code, fnNeed,
    abc, ab, ac, bc, aOnly, bOnly, cOnly, none3, abOff, abOff20, offset24, offset20]
  simp [Fields.ctl, offLo_kind, offHi_offLo, off20_kind, off20_value] <;> simp (decide := true) [cut, tap, MemWidth.ofCode]

theorem mma (k : Ctl) (m : MmaMod) (a b c : Operand) : Statement (.mma k m a b c) := by
  refine of_fields _ _ rfl ?_
  have h1 : (cut 4 3 (0x68 : BitVec 7)).toNat = 6 := by decide
  have h2 : (cut 0 4 (0x68 : BitVec 7)).toNat = 8 := by decide
  simp (disch := omega) only [decodeFields, decRow6, enc, h1, h2, decInt, decLong, decLogic, decBcnt, decPmov, decMeet, decFloat, decFsign, decFexpo, decFstat, decFcvt, decIcvt, decAqld, decStfe, decCinv, decLatch, decNdone, decQctl, decMma, decMxmov, decMkey, decHbind, decHsend, decBar, decTret, decDetset, decClk, decCtxop, IntMod.fn, FloatMod.fn, MemMod.fn, offFn,
    cut_append_low, cut_append_high, cut_full, tap_append_low, tap_append_high, intMod, floatMod, memMod, code, fnNeed,
    abc, ab, ac, bc, aOnly, bOnly, cOnly, none3, abOff, abOff20, offset24, offset20]
  simp [Fields.ctl, offLo_kind, offHi_offLo, off20_kind, off20_value] <;> simp (decide := true) [cut, tap, MemWidth.ofCode]

theorem commandEligible (cluster i : Nat) : Statement (.commandEligible cluster i) := of_none _ rfl

theorem matrixPass (cluster i : Nat) : Statement (.matrixPass cluster i) := of_none _ rfl

theorem matrixCommandComplete (cluster i : Nat) : Statement (.matrixCommandComplete cluster i) := of_none _ rfl

theorem mxmovRd (k : Ctl) (a b c : Operand) : Statement (.mxmovRd k a b c) := by
  refine of_fields _ _ rfl ?_
  have h1 : (cut 4 3 (0x69 : BitVec 7)).toNat = 6 := by decide
  have h2 : (cut 0 4 (0x69 : BitVec 7)).toNat = 9 := by decide
  simp (disch := omega) only [decodeFields, decRow6, enc, h1, h2, decInt, decLong, decLogic, decBcnt, decPmov, decMeet, decFloat, decFsign, decFexpo, decFstat, decFcvt, decIcvt, decAqld, decStfe, decCinv, decLatch, decNdone, decQctl, decMma, decMxmov, decMkey, decHbind, decHsend, decBar, decTret, decDetset, decClk, decCtxop, IntMod.fn, FloatMod.fn, MemMod.fn, offFn,
    cut_append_low, cut_append_high, cut_full, tap_append_low, tap_append_high, intMod, floatMod, memMod, code, fnNeed,
    abc, ab, ac, bc, aOnly, bOnly, cOnly, none3, abOff, abOff20, offset24, offset20]
  simp [Fields.ctl, offLo_kind, offHi_offLo, off20_kind, off20_value] <;> simp (decide := true) [cut, tap, MemWidth.ofCode]

theorem mxmovWr (k : Ctl) (a b c : Operand) : Statement (.mxmovWr k a b c) := by
  refine of_fields _ _ rfl ?_
  have h1 : (cut 4 3 (0x69 : BitVec 7)).toNat = 6 := by decide
  have h2 : (cut 0 4 (0x69 : BitVec 7)).toNat = 9 := by decide
  simp (disch := omega) only [decodeFields, decRow6, enc, h1, h2, decInt, decLong, decLogic, decBcnt, decPmov, decMeet, decFloat, decFsign, decFexpo, decFstat, decFcvt, decIcvt, decAqld, decStfe, decCinv, decLatch, decNdone, decQctl, decMma, decMxmov, decMkey, decHbind, decHsend, decBar, decTret, decDetset, decClk, decCtxop, IntMod.fn, FloatMod.fn, MemMod.fn, offFn,
    cut_append_low, cut_append_high, cut_full, tap_append_low, tap_append_high, intMod, floatMod, memMod, code, fnNeed,
    abc, ab, ac, bc, aOnly, bOnly, cOnly, none3, abOff, abOff20, offset24, offset20]
  simp [Fields.ctl, offLo_kind, offHi_offLo, off20_kind, off20_value] <;> simp (decide := true) [cut, tap, MemWidth.ofCode]

theorem mxmovSt (k : Ctl) (cv : MxCv) (fe : Bool) (a b : Operand) : Statement (.mxmovSt k cv fe a b) := by
  refine of_fields _ _ rfl ?_
  have h1 : (cut 4 3 (0x69 : BitVec 7)).toNat = 6 := by decide
  have h2 : (cut 0 4 (0x69 : BitVec 7)).toNat = 9 := by decide
  simp (disch := omega) only [decodeFields, decRow6, enc, h1, h2, decInt, decLong, decLogic, decBcnt, decPmov, decMeet, decFloat, decFsign, decFexpo, decFstat, decFcvt, decIcvt, decAqld, decStfe, decCinv, decLatch, decNdone, decQctl, decMma, decMxmov, decMkey, decHbind, decHsend, decBar, decTret, decDetset, decClk, decCtxop, IntMod.fn, FloatMod.fn, MemMod.fn, offFn,
    cut_append_low, cut_append_high, cut_full, tap_append_low, tap_append_high, intMod, floatMod, memMod, code, fnNeed,
    abc, ab, ac, bc, aOnly, bOnly, cOnly, none3, abOff, abOff20, offset24, offset20]
  simp [Fields.ctl, offLo_kind, offHi_offLo, off20_kind, off20_value] <;> simp (decide := true) [cut, tap, MemWidth.ofCode]

theorem mxmovLd (k : Ctl) (a b : Operand) : Statement (.mxmovLd k a b) := by
  refine of_fields _ _ rfl ?_
  have h1 : (cut 4 3 (0x69 : BitVec 7)).toNat = 6 := by decide
  have h2 : (cut 0 4 (0x69 : BitVec 7)).toNat = 9 := by decide
  simp (disch := omega) only [decodeFields, decRow6, enc, h1, h2, decInt, decLong, decLogic, decBcnt, decPmov, decMeet, decFloat, decFsign, decFexpo, decFstat, decFcvt, decIcvt, decAqld, decStfe, decCinv, decLatch, decNdone, decQctl, decMma, decMxmov, decMkey, decHbind, decHsend, decBar, decTret, decDetset, decClk, decCtxop, IntMod.fn, FloatMod.fn, MemMod.fn, offFn,
    cut_append_low, cut_append_high, cut_full, tap_append_low, tap_append_high, intMod, floatMod, memMod, code, fnNeed,
    abc, ab, ac, bc, aOnly, bOnly, cOnly, none3, abOff, abOff20, offset24, offset20]
  simp [Fields.ctl, offLo_kind, offHi_offLo, off20_kind, off20_value] <;> simp (decide := true) [cut, tap, MemWidth.ofCode]

theorem mxmovZero (k : Ctl) (a : Operand) : Statement (.mxmovZero k a) := by
  refine of_fields _ _ rfl ?_
  have h1 : (cut 4 3 (0x69 : BitVec 7)).toNat = 6 := by decide
  have h2 : (cut 0 4 (0x69 : BitVec 7)).toNat = 9 := by decide
  simp (disch := omega) only [decodeFields, decRow6, enc, h1, h2, decInt, decLong, decLogic, decBcnt, decPmov, decMeet, decFloat, decFsign, decFexpo, decFstat, decFcvt, decIcvt, decAqld, decStfe, decCinv, decLatch, decNdone, decQctl, decMma, decMxmov, decMkey, decHbind, decHsend, decBar, decTret, decDetset, decClk, decCtxop, IntMod.fn, FloatMod.fn, MemMod.fn, offFn,
    cut_append_low, cut_append_high, cut_full, tap_append_low, tap_append_high, intMod, floatMod, memMod, code, fnNeed,
    abc, ab, ac, bc, aOnly, bOnly, cOnly, none3, abOff, abOff20, offset24, offset20]
  simp [Fields.ctl, offLo_kind, offHi_offLo, off20_kind, off20_value] <;> simp (decide := true) [cut, tap, MemWidth.ofCode]

theorem mxmovFlg (k : Ctl) (a b : Operand) : Statement (.mxmovFlg k a b) := by
  refine of_fields _ _ rfl ?_
  have h1 : (cut 4 3 (0x69 : BitVec 7)).toNat = 6 := by decide
  have h2 : (cut 0 4 (0x69 : BitVec 7)).toNat = 9 := by decide
  simp (disch := omega) only [decodeFields, decRow6, enc, h1, h2, decInt, decLong, decLogic, decBcnt, decPmov, decMeet, decFloat, decFsign, decFexpo, decFstat, decFcvt, decIcvt, decAqld, decStfe, decCinv, decLatch, decNdone, decQctl, decMma, decMxmov, decMkey, decHbind, decHsend, decBar, decTret, decDetset, decClk, decCtxop, IntMod.fn, FloatMod.fn, MemMod.fn, offFn,
    cut_append_low, cut_append_high, cut_full, tap_append_low, tap_append_high, intMod, floatMod, memMod, code, fnNeed,
    abc, ab, ac, bc, aOnly, bOnly, cOnly, none3, abOff, abOff20, offset24, offset20]
  simp [Fields.ctl, offLo_kind, offHi_offLo, off20_kind, off20_value] <;> simp (decide := true) [cut, tap, MemWidth.ofCode]

theorem mkeyJoin (k : Ctl) : Statement (.mkeyJoin k) := by
  refine of_fields _ _ rfl ?_
  have h1 : (cut 4 3 (0x6A : BitVec 7)).toNat = 6 := by decide
  have h2 : (cut 0 4 (0x6A : BitVec 7)).toNat = 10 := by decide
  simp (disch := omega) only [decodeFields, decRow6, enc, h1, h2, decInt, decLong, decLogic, decBcnt, decPmov, decMeet, decFloat, decFsign, decFexpo, decFstat, decFcvt, decIcvt, decAqld, decStfe, decCinv, decLatch, decNdone, decQctl, decMma, decMxmov, decMkey, decHbind, decHsend, decBar, decTret, decDetset, decClk, decCtxop, IntMod.fn, FloatMod.fn, MemMod.fn, offFn,
    cut_append_low, cut_append_high, cut_full, tap_append_low, tap_append_high, intMod, floatMod, memMod, code, fnNeed,
    abc, ab, ac, bc, aOnly, bOnly, cOnly, none3, abOff, abOff20, offset24, offset20]
  simp [Fields.ctl, offLo_kind, offHi_offLo, off20_kind, off20_value] <;> simp (decide := true) [cut, tap, MemWidth.ofCode]

theorem mkeyTake (k : Ctl) : Statement (.mkeyTake k) := by
  refine of_fields _ _ rfl ?_
  have h1 : (cut 4 3 (0x6A : BitVec 7)).toNat = 6 := by decide
  have h2 : (cut 0 4 (0x6A : BitVec 7)).toNat = 10 := by decide
  simp (disch := omega) only [decodeFields, decRow6, enc, h1, h2, decInt, decLong, decLogic, decBcnt, decPmov, decMeet, decFloat, decFsign, decFexpo, decFstat, decFcvt, decIcvt, decAqld, decStfe, decCinv, decLatch, decNdone, decQctl, decMma, decMxmov, decMkey, decHbind, decHsend, decBar, decTret, decDetset, decClk, decCtxop, IntMod.fn, FloatMod.fn, MemMod.fn, offFn,
    cut_append_low, cut_append_high, cut_full, tap_append_low, tap_append_high, intMod, floatMod, memMod, code, fnNeed,
    abc, ab, ac, bc, aOnly, bOnly, cOnly, none3, abOff, abOff20, offset24, offset20]
  simp [Fields.ctl, offLo_kind, offHi_offLo, off20_kind, off20_value] <;> simp (decide := true) [cut, tap, MemWidth.ofCode]

theorem mkeyPass (k : Ctl) : Statement (.mkeyPass k) := by
  refine of_fields _ _ rfl ?_
  have h1 : (cut 4 3 (0x6A : BitVec 7)).toNat = 6 := by decide
  have h2 : (cut 0 4 (0x6A : BitVec 7)).toNat = 10 := by decide
  simp (disch := omega) only [decodeFields, decRow6, enc, h1, h2, decInt, decLong, decLogic, decBcnt, decPmov, decMeet, decFloat, decFsign, decFexpo, decFstat, decFcvt, decIcvt, decAqld, decStfe, decCinv, decLatch, decNdone, decQctl, decMma, decMxmov, decMkey, decHbind, decHsend, decBar, decTret, decDetset, decClk, decCtxop, IntMod.fn, FloatMod.fn, MemMod.fn, offFn,
    cut_append_low, cut_append_high, cut_full, tap_append_low, tap_append_high, intMod, floatMod, memMod, code, fnNeed,
    abc, ab, ac, bc, aOnly, bOnly, cOnly, none3, abOff, abOff20, offset24, offset20]
  simp [Fields.ctl, offLo_kind, offHi_offLo, off20_kind, off20_value] <;> simp (decide := true) [cut, tap, MemWidth.ofCode]

theorem mkeyLeave (k : Ctl) : Statement (.mkeyLeave k) := by
  refine of_fields _ _ rfl ?_
  have h1 : (cut 4 3 (0x6A : BitVec 7)).toNat = 6 := by decide
  have h2 : (cut 0 4 (0x6A : BitVec 7)).toNat = 10 := by decide
  simp (disch := omega) only [decodeFields, decRow6, enc, h1, h2, decInt, decLong, decLogic, decBcnt, decPmov, decMeet, decFloat, decFsign, decFexpo, decFstat, decFcvt, decIcvt, decAqld, decStfe, decCinv, decLatch, decNdone, decQctl, decMma, decMxmov, decMkey, decHbind, decHsend, decBar, decTret, decDetset, decClk, decCtxop, IntMod.fn, FloatMod.fn, MemMod.fn, offFn,
    cut_append_low, cut_append_high, cut_full, tap_append_low, tap_append_high, intMod, floatMod, memMod, code, fnNeed,
    abc, ab, ac, bc, aOnly, bOnly, cOnly, none3, abOff, abOff20, offset24, offset20]
  simp [Fields.ctl, offLo_kind, offHi_offLo, off20_kind, off20_value] <;> simp (decide := true) [cut, tap, MemWidth.ofCode]

theorem mkeyRsv (k : Ctl) (a : Operand) : Statement (.mkeyRsv k a) := by
  refine of_fields _ _ rfl ?_
  have h1 : (cut 4 3 (0x6A : BitVec 7)).toNat = 6 := by decide
  have h2 : (cut 0 4 (0x6A : BitVec 7)).toNat = 10 := by decide
  simp (disch := omega) only [decodeFields, decRow6, enc, h1, h2, decInt, decLong, decLogic, decBcnt, decPmov, decMeet, decFloat, decFsign, decFexpo, decFstat, decFcvt, decIcvt, decAqld, decStfe, decCinv, decLatch, decNdone, decQctl, decMma, decMxmov, decMkey, decHbind, decHsend, decBar, decTret, decDetset, decClk, decCtxop, IntMod.fn, FloatMod.fn, MemMod.fn, offFn,
    cut_append_low, cut_append_high, cut_full, tap_append_low, tap_append_high, intMod, floatMod, memMod, code, fnNeed,
    abc, ab, ac, bc, aOnly, bOnly, cOnly, none3, abOff, abOff20, offset24, offset20]
  simp [Fields.ctl, offLo_kind, offHi_offLo, off20_kind, off20_value] <;> simp (decide := true) [cut, tap, MemWidth.ofCode]

theorem mkeyRel (k : Ctl) (a : Operand) : Statement (.mkeyRel k a) := by
  refine of_fields _ _ rfl ?_
  have h1 : (cut 4 3 (0x6A : BitVec 7)).toNat = 6 := by decide
  have h2 : (cut 0 4 (0x6A : BitVec 7)).toNat = 10 := by decide
  simp (disch := omega) only [decodeFields, decRow6, enc, h1, h2, decInt, decLong, decLogic, decBcnt, decPmov, decMeet, decFloat, decFsign, decFexpo, decFstat, decFcvt, decIcvt, decAqld, decStfe, decCinv, decLatch, decNdone, decQctl, decMma, decMxmov, decMkey, decHbind, decHsend, decBar, decTret, decDetset, decClk, decCtxop, IntMod.fn, FloatMod.fn, MemMod.fn, offFn,
    cut_append_low, cut_append_high, cut_full, tap_append_low, tap_append_high, intMod, floatMod, memMod, code, fnNeed,
    abc, ab, ac, bc, aOnly, bOnly, cOnly, none3, abOff, abOff20, offset24, offset20]
  simp [Fields.ctl, offLo_kind, offHi_offLo, off20_kind, off20_value] <;> simp (decide := true) [cut, tap, MemWidth.ofCode]

theorem plane (k : Ctl) (af : AFmt) (nr : BitVec 4) (b c : Operand) : Statement (.plane k af nr b c) := by
  refine of_fields _ _ rfl ?_
  have h1 : (cut 4 3 (0x46 : BitVec 7)).toNat = 4 := by decide
  have h2 : (cut 0 4 (0x46 : BitVec 7)).toNat = 6 := by decide
  simp (disch := omega) only [decodeFields, decRow4, enc, h1, h2, decInt, decLong, decLogic, decBcnt, decPmov, decMeet, decFloat, decFsign, decFexpo, decFstat, decFcvt, decIcvt, decAqld, decStfe, decCinv, decLatch, decNdone, decQctl, decMma, decMxmov, decMkey, decHbind, decHsend, decBar, decTret, decDetset, decClk, decCtxop, IntMod.fn, FloatMod.fn, MemMod.fn, offFn,
    cut_append_low, cut_append_high, cut_full, tap_append_low, tap_append_high, intMod, floatMod, memMod, code, fnNeed,
    abc, ab, ac, bc, aOnly, bOnly, cOnly, none3, abOff, abOff20, offset24, offset20]
  simp [Fields.ctl, offLo_kind, offHi_offLo, off20_kind, off20_value] <;> simp (decide := true) [cut, tap, MemWidth.ofCode]

theorem fxg (k : Ctl) (a b : Operand) : Statement (.fxg k a b) := by
  refine of_fields _ _ rfl ?_
  have h1 : (cut 4 3 (0x6B : BitVec 7)).toNat = 6 := by decide
  have h2 : (cut 0 4 (0x6B : BitVec 7)).toNat = 11 := by decide
  simp (disch := omega) only [decodeFields, decRow6, enc, h1, h2, decInt, decLong, decLogic, decBcnt, decPmov, decMeet, decFloat, decFsign, decFexpo, decFstat, decFcvt, decIcvt, decAqld, decStfe, decCinv, decLatch, decNdone, decQctl, decMma, decMxmov, decMkey, decHbind, decHsend, decBar, decTret, decDetset, decClk, decCtxop, IntMod.fn, FloatMod.fn, MemMod.fn, offFn,
    cut_append_low, cut_append_high, cut_full, tap_append_low, tap_append_high, intMod, floatMod, memMod, code, fnNeed,
    abc, ab, ac, bc, aOnly, bOnly, cOnly, none3, abOff, abOff20, offset24, offset20]
  simp [Fields.ctl, offLo_kind, offHi_offLo, off20_kind, off20_value] <;> simp (decide := true) [cut, tap, MemWidth.ofCode]

theorem fxc (k : Ctl) (a b : Operand) : Statement (.fxc k a b) := by
  refine of_fields _ _ rfl ?_
  have h1 : (cut 4 3 (0x6C : BitVec 7)).toNat = 6 := by decide
  have h2 : (cut 0 4 (0x6C : BitVec 7)).toNat = 12 := by decide
  simp (disch := omega) only [decodeFields, decRow6, enc, h1, h2, decInt, decLong, decLogic, decBcnt, decPmov, decMeet, decFloat, decFsign, decFexpo, decFstat, decFcvt, decIcvt, decAqld, decStfe, decCinv, decLatch, decNdone, decQctl, decMma, decMxmov, decMkey, decHbind, decHsend, decBar, decTret, decDetset, decClk, decCtxop, IntMod.fn, FloatMod.fn, MemMod.fn, offFn,
    cut_append_low, cut_append_high, cut_full, tap_append_low, tap_append_high, intMod, floatMod, memMod, code, fnNeed,
    abc, ab, ac, bc, aOnly, bOnly, cOnly, none3, abOff, abOff20, offset24, offset20]
  simp [Fields.ctl, offLo_kind, offHi_offLo, off20_kind, off20_value] <;> simp (decide := true) [cut, tap, MemWidth.ofCode]

theorem fabricShare (die i : Nat) : Statement (.fabricShare die i) := of_none _ rfl

theorem fabricUnitComplete (die i : Nat) : Statement (.fabricUnitComplete die i) := of_none _ rfl

theorem collectiveCheck (die i : Nat) : Statement (.collectiveCheck die i) := of_none _ rfl

theorem fabricCommandComplete (die i : Nat) : Statement (.fabricCommandComplete die i) := of_none _ rfl

theorem hbind (k : Ctl) (j : HJoin) (lag : Bool) (a b : Operand) : Statement (.hbind k j lag a b) := by
  refine of_fields _ _ rfl ?_
  have h1 : (cut 4 3 (0x6D : BitVec 7)).toNat = 6 := by decide
  have h2 : (cut 0 4 (0x6D : BitVec 7)).toNat = 13 := by decide
  simp (disch := omega) only [decodeFields, decRow6, enc, h1, h2, decInt, decLong, decLogic, decBcnt, decPmov, decMeet, decFloat, decFsign, decFexpo, decFstat, decFcvt, decIcvt, decAqld, decStfe, decCinv, decLatch, decNdone, decQctl, decMma, decMxmov, decMkey, decHbind, decHsend, decBar, decTret, decDetset, decClk, decCtxop, IntMod.fn, FloatMod.fn, MemMod.fn, offFn,
    cut_append_low, cut_append_high, cut_full, tap_append_low, tap_append_high, intMod, floatMod, memMod, code, fnNeed,
    abc, ab, ac, bc, aOnly, bOnly, cOnly, none3, abOff, abOff20, offset24, offset20]
  simp [Fields.ctl, offLo_kind, offHi_offLo, off20_kind, off20_value] <;> simp (decide := true) [cut, tap, MemWidth.ofCode]

theorem hbindDrain (k : Ctl) (a b : Operand) : Statement (.hbindDrain k a b) := by
  refine of_fields _ _ rfl ?_
  have h1 : (cut 4 3 (0x6D : BitVec 7)).toNat = 6 := by decide
  have h2 : (cut 0 4 (0x6D : BitVec 7)).toNat = 13 := by decide
  simp (disch := omega) only [decodeFields, decRow6, enc, h1, h2, decInt, decLong, decLogic, decBcnt, decPmov, decMeet, decFloat, decFsign, decFexpo, decFstat, decFcvt, decIcvt, decAqld, decStfe, decCinv, decLatch, decNdone, decQctl, decMma, decMxmov, decMkey, decHbind, decHsend, decBar, decTret, decDetset, decClk, decCtxop, IntMod.fn, FloatMod.fn, MemMod.fn, offFn,
    cut_append_low, cut_append_high, cut_full, tap_append_low, tap_append_high, intMod, floatMod, memMod, code, fnNeed,
    abc, ab, ac, bc, aOnly, bOnly, cOnly, none3, abOff, abOff20, offset24, offset20]
  simp [Fields.ctl, offLo_kind, offHi_offLo, off20_kind, off20_value] <;> simp (decide := true) [cut, tap, MemWidth.ofCode]

theorem hbindCut (k : Ctl) (a b : Operand) : Statement (.hbindCut k a b) := by
  refine of_fields _ _ rfl ?_
  have h1 : (cut 4 3 (0x6D : BitVec 7)).toNat = 6 := by decide
  have h2 : (cut 0 4 (0x6D : BitVec 7)).toNat = 13 := by decide
  simp (disch := omega) only [decodeFields, decRow6, enc, h1, h2, decInt, decLong, decLogic, decBcnt, decPmov, decMeet, decFloat, decFsign, decFexpo, decFstat, decFcvt, decIcvt, decAqld, decStfe, decCinv, decLatch, decNdone, decQctl, decMma, decMxmov, decMkey, decHbind, decHsend, decBar, decTret, decDetset, decClk, decCtxop, IntMod.fn, FloatMod.fn, MemMod.fn, offFn,
    cut_append_low, cut_append_high, cut_full, tap_append_low, tap_append_high, intMod, floatMod, memMod, code, fnNeed,
    abc, ab, ac, bc, aOnly, bOnly, cOnly, none3, abOff, abOff20, offset24, offset20]
  simp [Fields.ctl, offLo_kind, offHi_offLo, off20_kind, off20_value] <;> simp (decide := true) [cut, tap, MemWidth.ofCode]

theorem hrecv (k : Ctl) (try_ : Bool) (a b : Operand) : Statement (.hrecv k try_ a b) := by
  refine of_fields _ _ rfl ?_
  have h1 : (cut 4 3 (0x6F : BitVec 7)).toNat = 6 := by decide
  have h2 : (cut 0 4 (0x6F : BitVec 7)).toNat = 15 := by decide
  simp (disch := omega) only [decodeFields, decRow6, enc, h1, h2, decInt, decLong, decLogic, decBcnt, decPmov, decMeet, decFloat, decFsign, decFexpo, decFstat, decFcvt, decIcvt, decAqld, decStfe, decCinv, decLatch, decNdone, decQctl, decMma, decMxmov, decMkey, decHbind, decHsend, decBar, decTret, decDetset, decClk, decCtxop, IntMod.fn, FloatMod.fn, MemMod.fn, offFn,
    cut_append_low, cut_append_high, cut_full, tap_append_low, tap_append_high, intMod, floatMod, memMod, code, fnNeed,
    abc, ab, ac, bc, aOnly, bOnly, cOnly, none3, abOff, abOff20, offset24, offset20]
  simp [Fields.ctl, offLo_kind, offHi_offLo, off20_kind, off20_value] <;> simp (decide := true) [cut, tap, MemWidth.ofCode]

theorem hsendOk (k : Ctl) (a : Operand) : Statement (.hsendOk k a) := by
  refine of_fields _ _ rfl ?_
  have h1 : (cut 4 3 (0x6E : BitVec 7)).toNat = 6 := by decide
  have h2 : (cut 0 4 (0x6E : BitVec 7)).toNat = 14 := by decide
  simp (disch := omega) only [decodeFields, decRow6, enc, h1, h2, decInt, decLong, decLogic, decBcnt, decPmov, decMeet, decFloat, decFsign, decFexpo, decFstat, decFcvt, decIcvt, decAqld, decStfe, decCinv, decLatch, decNdone, decQctl, decMma, decMxmov, decMkey, decHbind, decHsend, decBar, decTret, decDetset, decClk, decCtxop, IntMod.fn, FloatMod.fn, MemMod.fn, offFn,
    cut_append_low, cut_append_high, cut_full, tap_append_low, tap_append_high, intMod, floatMod, memMod, code, fnNeed,
    abc, ab, ac, bc, aOnly, bOnly, cOnly, none3, abOff, abOff20, offset24, offset20]
  simp [Fields.ctl, offLo_kind, offHi_offLo, off20_kind, off20_value] <;> simp (decide := true) [cut, tap, MemWidth.ofCode]

theorem hsendMore (k : Ctl) (a : Operand) : Statement (.hsendMore k a) := by
  refine of_fields _ _ rfl ?_
  have h1 : (cut 4 3 (0x6E : BitVec 7)).toNat = 6 := by decide
  have h2 : (cut 0 4 (0x6E : BitVec 7)).toNat = 14 := by decide
  simp (disch := omega) only [decodeFields, decRow6, enc, h1, h2, decInt, decLong, decLogic, decBcnt, decPmov, decMeet, decFloat, decFsign, decFexpo, decFstat, decFcvt, decIcvt, decAqld, decStfe, decCinv, decLatch, decNdone, decQctl, decMma, decMxmov, decMkey, decHbind, decHsend, decBar, decTret, decDetset, decClk, decCtxop, IntMod.fn, FloatMod.fn, MemMod.fn, offFn,
    cut_append_low, cut_append_high, cut_full, tap_append_low, tap_append_high, intMod, floatMod, memMod, code, fnNeed,
    abc, ab, ac, bc, aOnly, bOnly, cOnly, none3, abOff, abOff20, offset24, offset20]
  simp [Fields.ctl, offLo_kind, offHi_offLo, off20_kind, off20_value] <;> simp (decide := true) [cut, tap, MemWidth.ofCode]

theorem hsendNone (k : Ctl) (a : Operand) : Statement (.hsendNone k a) := by
  refine of_fields _ _ rfl ?_
  have h1 : (cut 4 3 (0x6E : BitVec 7)).toNat = 6 := by decide
  have h2 : (cut 0 4 (0x6E : BitVec 7)).toNat = 14 := by decide
  simp (disch := omega) only [decodeFields, decRow6, enc, h1, h2, decInt, decLong, decLogic, decBcnt, decPmov, decMeet, decFloat, decFsign, decFexpo, decFstat, decFcvt, decIcvt, decAqld, decStfe, decCinv, decLatch, decNdone, decQctl, decMma, decMxmov, decMkey, decHbind, decHsend, decBar, decTret, decDetset, decClk, decCtxop, IntMod.fn, FloatMod.fn, MemMod.fn, offFn,
    cut_append_low, cut_append_high, cut_full, tap_append_low, tap_append_high, intMod, floatMod, memMod, code, fnNeed,
    abc, ab, ac, bc, aOnly, bOnly, cOnly, none3, abOff, abOff20, offset24, offset20]
  simp [Fields.ctl, offLo_kind, offHi_offLo, off20_kind, off20_value] <;> simp (decide := true) [cut, tap, MemWidth.ofCode]

theorem hsendFail (k : Ctl) (a b c : Operand) : Statement (.hsendFail k a b c) := by
  refine of_fields _ _ rfl ?_
  have h1 : (cut 4 3 (0x6E : BitVec 7)).toNat = 6 := by decide
  have h2 : (cut 0 4 (0x6E : BitVec 7)).toNat = 14 := by decide
  simp (disch := omega) only [decodeFields, decRow6, enc, h1, h2, decInt, decLong, decLogic, decBcnt, decPmov, decMeet, decFloat, decFsign, decFexpo, decFstat, decFcvt, decIcvt, decAqld, decStfe, decCinv, decLatch, decNdone, decQctl, decMma, decMxmov, decMkey, decHbind, decHsend, decBar, decTret, decDetset, decClk, decCtxop, IntMod.fn, FloatMod.fn, MemMod.fn, offFn,
    cut_append_low, cut_append_high, cut_full, tap_append_low, tap_append_high, intMod, floatMod, memMod, code, fnNeed,
    abc, ab, ac, bc, aOnly, bOnly, cOnly, none3, abOff, abOff20, offset24, offset20]
  simp [Fields.ctl, offLo_kind, offHi_offLo, off20_kind, off20_value] <;> simp (decide := true) [cut, tap, MemWidth.ofCode]

theorem hsendKill (k : Ctl) (a b c : Operand) : Statement (.hsendKill k a b c) := by
  refine of_fields _ _ rfl ?_
  have h1 : (cut 4 3 (0x6E : BitVec 7)).toNat = 6 := by decide
  have h2 : (cut 0 4 (0x6E : BitVec 7)).toNat = 14 := by decide
  simp (disch := omega) only [decodeFields, decRow6, enc, h1, h2, decInt, decLong, decLogic, decBcnt, decPmov, decMeet, decFloat, decFsign, decFexpo, decFstat, decFcvt, decIcvt, decAqld, decStfe, decCinv, decLatch, decNdone, decQctl, decMma, decMxmov, decMkey, decHbind, decHsend, decBar, decTret, decDetset, decClk, decCtxop, IntMod.fn, FloatMod.fn, MemMod.fn, offFn,
    cut_append_low, cut_append_high, cut_full, tap_append_low, tap_append_high, intMod, floatMod, memMod, code, fnNeed,
    abc, ab, ac, bc, aOnly, bOnly, cOnly, none3, abOff, abOff20, offset24, offset20]
  simp [Fields.ctl, offLo_kind, offHi_offLo, off20_kind, off20_value] <;> simp (decide := true) [cut, tap, MemWidth.ofCode]

theorem sourceEmit (i : Nat) : Statement (.sourceEmit i) := of_none _ rfl

theorem sinkWrite (ctx handle : Nat) : Statement (.sinkWrite ctx handle) := of_none _ rfl

theorem endOfStream (i : Nat) : Statement (.endOfStream i) := of_none _ rfl

theorem epochEnd (stack : Nat) : Statement (.epochEnd stack) := of_none _ rfl

theorem regionSwap (stack : Nat) : Statement (.regionSwap stack) := of_none _ rfl

theorem swapcfg (on : Bool) (factor offset : Nat) : Statement (.swapcfg on factor offset) := of_none _ rfl

theorem retire (layer : Nat) : Statement (.retire layer) := of_none _ rfl

theorem restore (layer : Nat) : Statement (.restore layer) := of_none _ rfl

theorem rotate (ctx key : Nat) : Statement (.rotate ctx key) := of_none _ rfl

theorem spare (stack layer region : Nat) : Statement (.spare stack layer region) := of_none _ rfl

theorem readcnt (stack layer : Nat) : Statement (.readcnt stack layer) := of_none _ rfl

theorem boot : Statement .boot := of_none _ rfl

theorem recoveryChunk (v : DWord) : Statement (.recoveryChunk v) := of_none _ rfl

theorem getVersion (req : List Byte) : Statement (.getVersion req) := of_none _ rfl

theorem getCapabilities (req : List Byte) : Statement (.getCapabilities req) := of_none _ rfl

theorem negotiateAlgorithms (req : List Byte) : Statement (.negotiateAlgorithms req) := of_none _ rfl

theorem getDigests (req : List Byte) : Statement (.getDigests req) := of_none _ rfl

theorem getCertificate (req : List Byte) : Statement (.getCertificate req) := of_none _ rfl

theorem challenge (req : List Byte) : Statement (.challenge req) := of_none _ rfl

theorem getMeasurements (req : List Byte) : Statement (.getMeasurements req) := of_none _ rfl

theorem qenableWrite (v : DWord) : Statement (.qenableWrite v) := of_none _ rfl

theorem doorbell (v : DWord) : Statement (.doorbell v) := of_none _ rfl

theorem requestPoll : Statement .requestPoll := of_none _ rfl

theorem registerWrite (off : Nat) (v : DWord) : Statement (.registerWrite off v) := of_none _ rfl

theorem hello : Statement .hello := of_none _ rfl

theorem create : Statement .create := of_none _ rfl

theorem start : Statement .start := of_none _ rfl

theorem preempt : Statement .preempt := of_none _ rfl

theorem resume : Statement .resume := of_none _ rfl

theorem reset : Statement .reset := of_none _ rfl

theorem destroy : Statement .destroy := of_none _ rfl

theorem update : Statement .update := of_none _ rfl

theorem powercap : Statement .powercap := of_none _ rfl

theorem eventPost : Statement .eventPost := of_none _ rfl

theorem linkTraining (port : Nat) (up : Bool) (major minor : Nat) (identity : DWord) : Statement (.linkTraining port up major minor identity) := of_none _ rfl

theorem fabricGroupAnnounce (group : Nat) (dev : Nat) (identity : DWord) (ctx : Nat) : Statement (.fabricGroupAnnounce group dev identity ctx) := of_none _ rfl

theorem memberLeave (group : Nat) (dev : Nat) : Statement (.memberLeave group dev) := of_none _ rfl

theorem thermalThrottle (die : Nat) : Statement (.thermalThrottle die) := of_none _ rfl

theorem thermalTrip (die : Nat) : Statement (.thermalTrip die) := of_none _ rfl

theorem expanderRemoved (port : Nat) : Statement (.expanderRemoved port) := of_none _ rfl

theorem rotationEnd (ctx : Nat) : Statement (.rotationEnd ctx) := of_none _ rfl

theorem powerLoss : Statement .powerLoss := of_none _ rfl

theorem announceAcknowledgement (identity : DWord) : Statement (.announceAcknowledgement identity) := of_none _ rfl

theorem acknowledgementTimeout : Statement .acknowledgementTimeout := of_none _ rfl

end Sys2Proof.Laws.RoundTrip
end

