-- ==== Sys2Proof/Laws/Registers.lean ====
section
/-! SUPPORT. Registers, predicates and flags: what a write changes, what it leaves, and what an instruction that only writes them
makes of its group and warp. -/

namespace Sys2Proof.Machine

open Sys2Proof

/-! ### The list of allocated registers -/
theorem regGet_regSet (rs) (n : Nat) (x : Lanes Word) : regGet (regSet rs n x) n = x := by
  induction rs with
  | nil => simp [regSet, regGet]
  | cons r rs ih =>
    obtain ⟨m, y⟩ := r
    simp only [regSet]
    split
    · simp [regGet]
    · split
      · simp [regGet]
      · have : (m == n) = false := by simp; omega
        simp only [regGet, List.find?_cons, this] at ih ⊢
        exact ih

theorem regGet_regSet_other (rs) {n k : Nat} (x : Lanes Word) (h : k ≠ n) : regGet (regSet rs n x) k = regGet rs k := by
  induction rs with
  | nil => simp [regSet, regGet, Ne.symm h]
  | cons r rs ih =>
    obtain ⟨m, y⟩ := r
    simp only [regSet]
    split
    · have : (n == k) = false := by simp; omega
      simp [regGet, this]
    · split
      · rename_i h1 h2; subst h2
        have : (n == k) = false := by simp; omega
        simp [regGet, this]
      · by_cases hm : m = k
        · subst hm; simp [regGet]
        · have : (m == k) = false := by simp [hm]
          simp only [regGet, List.find?_cons, this] at ih ⊢
          exact ih

theorem regGet_regFree (rs : List (Nat × Lanes Word)) (ns : List Nat) (n : Nat) (h : n ∉ ns) : regGet (regFree rs ns) n = regGet rs n := by
  have e : (regFree rs ns).find? (fun r => r.1 == n) = rs.find? (fun r => r.1 == n) := by
    unfold regFree
    rw [List.find?_filter]
    congr 1
    funext r
    by_cases hr : r.1 = n
    · subst hr; simp [h]
    · simp [hr]
  unfold regGet
  rw [e]

theorem regGet_regFree_mem (rs : List (Nat × Lanes Word)) (ns : List Nat) (n : Nat) (h : n ∈ ns) : regGet (regFree rs ns) n = Lanes.all 0 := by
  have : (regFree rs ns).find? (fun r => r.1 == n) = none := by
    simp [regFree, List.find?_eq_none]
    intro a b hab hne
    rintro rfl
    exact hne h
  simp [regGet, this]
/-! ### Shared ranges (R74) -/
theorem find?_map {α} (p : α → Bool) (f : α → α) (hp : ∀ x, p (f x) = p x) (l : List α) : (l.map f).find? p = (l.find? p).map f := by
  induction l with
  | nil => rfl
  | cons x l ih =>
    simp only [List.map_cons, List.find?_cons, hp, ih]
    cases p x <;> rfl

theorem sharedAt_map (gr : Group) (f : SharedRange → SharedRange) (w n : Nat) 
   (hf : ∀ r, (f r).warpA = r.warpA ∧ (f r).warpB = r.warpB ∧ (f r).onA = r.onA ∧ (f r).onB = r.onB ∧ (f r).first = r.first ∧ (f r).regs.length = r.regs.length) :
   Group.sharedAt { gr with shared := gr.shared.map f } w n = (gr.sharedAt w n).map (fun x => (f x.1, x.2)) := by
  unfold Group.sharedAt
  dsimp only
  rw [find?_map _ f (by intro r; obtain ⟨h1,h2,h3,h4,h5,h6⟩ := hf r; simp [SharedRange.mapsFor, h1,h2,h3,h4,h5,h6])]
  cases gr.shared.find? _ with
  | none => rfl
  | some r => simp [(hf r).2.2.2.2.1]

theorem sharedRange_put (r : SharedRange) (i f b) : (r.put i f b).warpA = r.warpA ∧ (r.put i f b).warpB = r.warpB ∧ (r.put i f b).onA = r.onA ∧ (r.put i f b).onB = r.onB ∧ (r.put i f b).first = r.first ∧ (r.put i f b).regs.length = r.regs.length := by
  simp [SharedRange.put]

theorem sharedAt_some {gr : Group} {w n r j} (h : gr.sharedAt w n = some (r, j)) : r.first ≤ n ∧ j = n - r.first ∧ j < r.regs.length := by
  unfold Group.sharedAt at h
  cases hf : gr.shared.find? (fun r => r.mapsFor w && decide (r.first ≤ n) && decide (n < r.first + r.regs.length)) with
  | none => rw [hf] at h; simp at h
  | some q =>
    rw [hf] at h; simp at h
    have := List.find?_some hf
    simp at this
    obtain ⟨rfl, rfl⟩ := h
    omega

/-! ### Writes (R62, R72, R74) -/

/-- From `gr` to `gr'` only registers changed, shared ones and those of warp `w`, and what counts as written since the last safe
point. -/
structure OneWarp (w : Nat) (gr gr' : Group) : Prop where
  grp : gr' = { gr with warps := gr'.warps, shared := gr'.shared }
  others : ∀ n, n ≠ w → gr'.warps[n]? = gr.warps[n]?
  mine : ∀ wp, gr.warps[w]? = some wp → ∃ wp', gr'.warps[w]? = some wp' ∧ wp' = { wp with regs := wp'.regs, sinceV := wp'.sinceV }

theorem OneWarp.refl (w gr) : OneWarp w gr gr := ⟨rfl, fun _ _ => rfl, fun wp h => ⟨wp, h, rfl⟩⟩

theorem OneWarp.trans {w a b c} (h1 : OneWarp w a b) (h2 : OneWarp w b c) : OneWarp w a c := by
  refine ⟨?_, ?_, ?_⟩
  · rw [h2.grp, h1.grp]
  · intro n hn; rw [h2.others n hn, h1.others n hn]
  · intro wp h
    obtain ⟨x, hx, e⟩ := h1.mine wp h
    obtain ⟨y, hy, e'⟩ := h2.mine x hx
    refine ⟨y, hy, ?_⟩
    rw [e', e]

theorem oneWarp_mod (w gr) (f : Warp → Warp) (hf : ∀ wp, f wp = { wp with regs := (f wp).regs, sinceV := (f wp).sinceV }) : OneWarp w gr (gr.modWarp w f) := by
  refine ⟨rfl, ?_, ?_⟩
  · intro n hn; exact warps_modWarp_other gr f hn
  · intro wp h; exact ⟨f wp, by rw [warps_modWarp, h]; rfl, hf wp⟩

theorem oneWarp_write (w gr x) : OneWarp w gr (gr.write w x) := by
  unfold Group.write
  split
  · exact OneWarp.refl _ _
  · dsimp only
    have h1 : OneWarp w gr (gr.modWarp w (fun wp => if x.name < 256 then { wp with sinceV := wp.sinceV ||| BitVec.twoPow 256 x.name } else wp)) :=
      oneWarp_mod _ _ _ (by intro wp; split <;> rfl)
    split
    · exact h1.trans ⟨rfl, fun _ _ => rfl, fun wp h => ⟨wp, h, rfl⟩⟩
    · exact h1.trans (oneWarp_mod _ _ _ (by intro wp; rfl))

theorem oneWarp_writes (w) (ws : List RegWrite) : ∀ gr, OneWarp w gr (ws.foldl (fun gr x => gr.write w x) gr) := by
  induction ws with
  | nil => intro gr; exact OneWarp.refl _ _
  | cons x ws ih => intro gr; exact (oneWarp_write w gr x).trans (ih _)

theorem reg_modWarp (gr : Group) (w n) (f : Warp → Warp) (hf : ∀ wp, regGet (f wp).regs n = regGet wp.regs n) : (gr.modWarp w f).reg w n = gr.reg w n := by
  unfold Group.reg
  have : (gr.modWarp w f).sharedAt w n = gr.sharedAt w n := rfl
  rw [this]
  cases gr.sharedAt w n with
  | some x => rfl
  | none =>
    dsimp only
    rw [warps_modWarp]
    cases gr.warps[w]? with
    | none => rfl
    | some wp => exact hf wp

theorem reg_write_other (gr : Group) (w x) {n} (h : n ≠ x.name) : (gr.write w x).reg w n = gr.reg w n := by
  unfold Group.write
  split
  · rfl
  dsimp only
  have h1 : (gr.modWarp w (fun wp => if x.name < 256 then { wp with sinceV := wp.sinceV ||| BitVec.twoPow 256 x.name } else wp)).reg w n = gr.reg w n :=
    reg_modWarp _ _ _ _ (by intro wp; split <;> rfl)
  rw [← h1]
  generalize (gr.modWarp w (fun wp => if x.name < 256 then { wp with sinceV := wp.sinceV ||| BitVec.twoPow 256 x.name } else wp)) = gq
  split
  · rename_i r i hr
    unfold Group.reg
    rw [sharedAt_map gq (fun q => if q == r then q.put i (fun old => laneMerge old x.lanes x.bits x.vals) true else q) w n (by intro q; split; exact sharedRange_put _ _ _ _; simp)]
    cases hq : gq.sharedAt w n with
    | none => rfl
    | some q =>
      obtain ⟨q, j⟩ := q
      dsimp only [Option.map]
      split
      · rename_i he
        have he : q = r := by simpa using he
        subst he
        have a1 := sharedAt_some hr
        have a2 := sharedAt_some hq
        have : i ≠ j := by omega
        simp [SharedRange.put, List.getD, this]
      · rfl
  · exact reg_modWarp _ _ _ _ (by intro wp; exact regGet_regSet_other _ _ h)

theorem reg_write_self (gr : Group) (w x) (hx : x.lanes ≠ 0) (hw : gr.warps[w]?.isSome) : (gr.write w x).reg w x.name = laneMerge (gr.reg w x.name) x.lanes x.bits x.vals := by
  unfold Group.write
  rw [if_neg hx]
  dsimp only
  have h1 : (gr.modWarp w (fun wp => if x.name < 256 then { wp with sinceV := wp.sinceV ||| BitVec.twoPow 256 x.name } else wp)).reg w x.name = gr.reg w x.name :=
    reg_modWarp _ _ _ _ (by intro wp; split <;> rfl)
  have h2 : ((gr.modWarp w (fun wp => if x.name < 256 then { wp with sinceV := wp.sinceV ||| BitVec.twoPow 256 x.name } else wp)).warps[w]?).isSome := by
    rw [warps_modWarp]; simpa using hw
  rw [← h1]
  generalize (gr.modWarp w (fun wp => if x.name < 256 then { wp with sinceV := wp.sinceV ||| BitVec.twoPow 256 x.name } else wp)) = gq at h2
  split
  · rename_i r i hr
    unfold Group.reg
    rw [sharedAt_map gq (fun q => if q == r then q.put i (fun old => laneMerge old x.lanes x.bits x.vals) true else q) w x.name (by intro q; split; exact sharedRange_put _ _ _ _; simp)]
    rw [hr]
    have a1 := sharedAt_some hr
    simp [SharedRange.put, List.getD, a1.2.2]
  · rename_i hr
    unfold Group.reg
    have : (gq.modWarp w (fun wp => { wp with regs := regSet wp.regs x.name (laneMerge (regGet wp.regs x.name) x.lanes x.bits x.vals) })).sharedAt w x.name = none := hr
    rw [this, hr]
    dsimp only
    rw [warps_modWarp]
    cases hq : gq.warps[w]? with
    | none => rw [hq] at h2; cases h2
    | some wp => exact regGet_regSet _ _ _

theorem reg_writes_other (w n) (ws : List RegWrite) (h : n ∉ ws.map (·.name)) : ∀ gr : Group, (ws.foldl (fun gr x => gr.write w x) gr).reg w n = gr.reg w n := by
  induction ws with
  | nil => intro gr; rfl
  | cons x ws ih =>
    intro gr
    simp at h
    rw [List.foldl_cons, ih (by simpa using h.2), reg_write_other _ _ _ (by exact h.1)]

theorem oneWarp_take (w : Nat) (gr : Group) (ns) : OneWarp w gr (gr.take w ns) := ⟨rfl, fun _ _ => rfl, fun wp h => ⟨wp, h, rfl⟩⟩

theorem reg_take (gr : Group) (w : Nat) (ns n) : (gr.take w ns).reg w n = gr.reg w n := by
  unfold Group.reg Group.take
  rw [sharedAt_map gr _ w n (by intro q; split <;> simp)]
  cases gr.sharedAt w n with
  | none => rfl
  | some q =>
    dsimp only [Option.map]
    split <;> rfl
/-! ### The effect of an instruction on its group -/

/-- The group once the hints of an instruction have freed and taken registers (R35, R74). -/
def freeAndTake (v : WarpView) (i : Instr) : Group :=
  let gr := v.gr.modWarp v.is.w (fun wp => { wp with regs := regFree wp.regs (v.freed i) })
  if v.active = 0 then gr else gr.take v.is.w (hintNames i)

theorem freeAndTake_rel (v : WarpView) (i : Instr) : OneWarp v.is.w v.gr (freeAndTake v i) := by
  unfold freeAndTake
  have h : OneWarp v.is.w v.gr (v.gr.modWarp v.is.w (fun wp => { wp with regs := regFree wp.regs (v.freed i) })) := oneWarp_mod _ _ _ (fun _ => rfl)
  dsimp only
  split
  · exact h
  · exact h.trans (oneWarp_take _ _ _)

theorem freeAndTake_reg (v : WarpView) (i : Instr) (n : Nat) (h : n ∉ v.freed i) : (freeAndTake v i).reg v.is.w n = v.gr.reg v.is.w n := by
  have h0 := reg_modWarp v.gr v.is.w n (fun wp => { wp with regs := regFree wp.regs (v.freed i) }) (fun wp => regGet_regFree _ _ _ h)
  unfold freeAndTake
  dsimp only
  split
  · exact h0
  · rw [reg_take]; exact h0

theorem freed_private {v : WarpView} {i : Instr} {n : Nat} (h : n ∈ v.freed i) : v.gr.sharedAt v.is.w n = none := by
  unfold WarpView.freed at h
  split at h
  · simp at h; exact h.2
  · cases h

theorem freeAndTake_freed (v : WarpView) (i : Instr) (n : Nat) (h : n ∈ v.freed i) : (freeAndTake v i).reg v.is.w n = Lanes.all 0 := by
  have hp := freed_private h
  have h0 : (v.gr.modWarp v.is.w (fun wp => { wp with regs := regFree wp.regs (v.freed i) })).reg v.is.w n = Lanes.all 0 := by
    unfold Group.reg
    have : (v.gr.modWarp v.is.w (fun wp => { wp with regs := regFree wp.regs (v.freed i) })).sharedAt v.is.w n = none := hp
    rw [this]
    dsimp only
    rw [warps_modWarp]
    cases v.gr.warps[v.is.w]? with
    | none => rfl
    | some wp => exact regGet_regFree_mem _ _ _ h
  unfold freeAndTake
  dsimp only
  split
  · exact h0
  · rw [reg_take]; exact h0
/-- What an instruction that writes registers, predicates and flags does to its warp after the registers. -/
def afterWrites (v : WarpView) (i : Instr) (ps : List (Nat × Mask × Mask)) (fs : List (Lanes (BitVec 5))) (ws : List RegWrite) (wp : Warp) : Warp :=
  let wp := ps.foldl (fun wp p => wp.setPred p.1 p.2.1 p.2.2) wp
  let wp := fs.foldl (fun wp f => wp.addFlags v.active f) wp
  let wp := wp.holdBack [] none
  let wp := match v.usableFrom i with
      | some r => wp.holdBack (v.heldNames i ws) (some r)
      | none => wp
  (wp.retire v.is none (isMark i)).uncounted wp v.stubbed

theorem setPred_frame (w : Warp) (i : Nat) (m x : Mask) : w.setPred i m x = { w with threads := (w.setPred i m x).threads, sinceP := (w.setPred i m x).sinceP } := by
  unfold Warp.setPred; split <;> rfl

theorem setPreds_frame (ps : List (Nat × Mask × Mask)) : ∀ w : Warp, let u := ps.foldl (fun wp p => wp.setPred p.1 p.2.1 p.2.2) w
    u = { w with threads := u.threads, sinceP := u.sinceP } := by
  induction ps with
  | nil => intro w; rfl
  | cons p ps ih =>
    intro w
    dsimp only at ih ⊢
    rw [List.foldl_cons, ih, setPred_frame w]

theorem setPred_thread (w : Warp) (i : Nat) (m x : Mask) (l : Nat) (hl : l < 32) :
    (w.setPred i m x).threads.get l = { w.threads.get l with preds := ((w.setPred i m x).threads.get l).preds } ∧
    ∀ k, (i ≠ k ∨ m.has l = false) → ((w.setPred i m x).threads.get l).preds.getLsbD k = (w.threads.get l).preds.getLsbD k := by
  unfold Warp.setPred
  split
  · exact ⟨rfl, fun _ _ => rfl⟩
  · dsimp only
    rw [lanes_get_of _ hl]
    split
    · refine ⟨rfl, ?_⟩
      intro k hk
      rename_i hm
      have hk : i ≠ k := hk.resolve_right (by simp [hm])
      dsimp only
      split
      · simp [hk, BitVec.getLsbD_twoPow]
      · simp [hk, BitVec.getLsbD_twoPow]; intro h; exact BitVec.lt_of_getLsbD h
    · exact ⟨rfl, fun _ _ => rfl⟩

theorem setPreds_thread (ps : List (Nat × Mask × Mask)) (l : Nat) (hl : l < 32) : ∀ w : Warp, let u := ps.foldl (fun wp p => wp.setPred p.1 p.2.1 p.2.2) w
    u.threads.get l = { w.threads.get l with preds := (u.threads.get l).preds } ∧
    ∀ k, (∀ p ∈ ps, p.1 ≠ k ∨ p.2.1.has l = false) → (u.threads.get l).preds.getLsbD k = (w.threads.get l).preds.getLsbD k := by
  induction ps with
  | nil => intro w; exact ⟨rfl, fun _ _ => rfl⟩
  | cons p ps ih =>
    intro w
    dsimp only at ih ⊢
    rw [List.foldl_cons]
    have h := setPred_thread w p.1 p.2.1 p.2.2 l hl
    obtain ⟨a, b⟩ := ih (w.setPred p.1 p.2.1 p.2.2)
    constructor
    · rw [a, h.1]
    · intro k hk
      rw [b k (fun q hq => hk q (List.mem_cons_of_mem _ hq)), h.2 k (hk p (List.mem_cons_self ..))]

theorem addFlags_frame (w : Warp) (m : Mask) (f) : w.addFlags m f = { w with threads := (w.addFlags m f).threads } := rfl

theorem addFlagsAll_exists (m : Mask) (fs : List (Lanes (BitVec 5))) : ∀ w : Warp, ∃ th, fs.foldl (fun wp f => wp.addFlags m f) w = { w with threads := th } := by
  induction fs with
  | nil => intro w; exact ⟨w.threads, rfl⟩
  | cons p ps ih =>
    intro w
    obtain ⟨th, h⟩ := ih (w.addFlags m p)
    refine ⟨th, ?_⟩
    rw [List.foldl_cons, h, addFlags_frame w]

theorem addFlagsAll_frame (m : Mask) (fs : List (Lanes (BitVec 5))) (w : Warp) : let u := fs.foldl (fun wp f => wp.addFlags m f) w
    u = { w with threads := u.threads } := by
  obtain ⟨th, h⟩ := addFlagsAll_exists m fs w
  dsimp only
  rw [h]

theorem addFlagsAll_thread (m : Mask) (l : Nat) (hl : l < 32) (fs : List (Lanes (BitVec 5))) : ∀ w : Warp, let u := fs.foldl (fun wp f => wp.addFlags m f) w
    u.threads.get l = { w.threads.get l with flags := (u.threads.get l).flags } ∧ (w.threads.get l).flags &&& (u.threads.get l).flags = (w.threads.get l).flags ∧
    (fs = [] → (u.threads.get l).flags = (w.threads.get l).flags) := by
  induction fs with
  | nil => intro w; exact ⟨rfl, by simp, fun _ => rfl⟩
  | cons f fs ih =>
    intro w
    dsimp only at ih ⊢
    rw [List.foldl_cons]
    obtain ⟨a, b, _⟩ := ih (w.addFlags m f)
    have h1 : (w.addFlags m f).threads.get l = { w.threads.get l with flags := ((w.addFlags m f).threads.get l).flags } := by
      unfold Warp.addFlags; dsimp only; rw [lanes_get_of _ hl]; split <;> rfl
    have h2 : (w.threads.get l).flags &&& ((w.addFlags m f).threads.get l).flags = (w.threads.get l).flags := by
      unfold Warp.addFlags; dsimp only; rw [lanes_get_of _ hl]; split
      · dsimp only; ext i hi; simp; intro h; exact .inl h
      · simp
    refine ⟨?_, ?_, ?_⟩
    · rw [a, h1]
    · rw [← h2, BitVec.and_assoc, b]
    · intro h; cases h

theorem afterWrites_frame (v : WarpView) (i ps fs ws) (w : Warp) : let u := afterWrites v i ps fs ws w
    u = { w with threads := u.threads, sinceP := u.sinceP, rp := u.rp, retired := u.retired, gated := u.gated, waits := u.waits, pending := u.pending, atom := none } := by
  dsimp only
  unfold afterWrites
  dsimp only
  generalize hu : List.foldl (fun wp p => Warp.setPred wp p.1 p.2.1 p.2.2) w ps = u
  have h := setPreds_frame ps w
  dsimp only at h
  rw [hu] at h
  generalize hu' : List.foldl (fun wp f => Warp.addFlags wp v.active f) u fs = u'
  have h' := addFlagsAll_frame v.active fs u
  dsimp only at h'
  rw [hu'] at h'
  rw [h', h]
  unfold Warp.uncounted
  cases v.usableFrom i <;> cases v.stubbed <;> rfl

theorem retire_thread (w : Warp) (is : Issue) (mk : Bool) (l : Nat) (hl : l < 32) : let u := w.retire is none mk
    let old := w.threads.get l
    let new := u.threads.get l
    new = { old with pc := new.pc, dist := new.dist, held := new.held, skip := new.skip } ∧
    new.pc = if is.lanes.has l then is.pc + 1 else old.pc := by
  unfold Warp.retire
  dsimp only
  rw [lanes_get_of _ hl]
  split
  · exact ⟨rfl, rfl⟩
  · exact ⟨rfl, rfl⟩

theorem afterWrites_thread (v : WarpView) (i ps fs ws) (w : Warp) (l : Nat) (hl : l < 32) : let u := afterWrites v i ps fs ws w
    let p := ps.foldl (fun wp p => wp.setPred p.1 p.2.1 p.2.2) w
    let old := w.threads.get l
    let new := u.threads.get l
    new = { old with pc := new.pc, dist := new.dist, held := new.held, skip := new.skip, preds := new.preds,
                         flags := new.flags } ∧
    (∀ k, (∀ p ∈ ps, p.1 ≠ k ∨ p.2.1.has l = false) → new.preds.getLsbD k = old.preds.getLsbD k) ∧
    old.flags &&& new.flags = old.flags ∧ (fs = [] → new.flags = old.flags) ∧
    new.preds = (p.threads.get l).preds ∧
    new.pc = if v.is.lanes.has l then v.is.pc + 1 else old.pc := by
  dsimp only
  unfold afterWrites
  dsimp only
  have h := setPreds_thread ps l hl w
  generalize hu : List.foldl (fun wp p => Warp.setPred wp p.1 p.2.1 p.2.2) w ps = u
  dsimp only at h
  rw [hu] at h
  have h' := addFlagsAll_thread v.active l hl fs u
  generalize hu' : List.foldl (fun wp f => Warp.addFlags wp v.active f) u fs = u'
  dsimp only at h'
  rw [hu'] at h'
  have e : ∀ x : Warp, ((x.retire v.is none (isMark i)).uncounted x v.stubbed).threads = (x.retire v.is none (isMark i)).threads := by
    intro x; unfold Warp.uncounted; split <;> rfl
  rw [e]
  generalize hx : (match v.usableFrom i with
      | some r => (u'.holdBack [] none).holdBack (v.heldNames i ws) (some r)
      | none => (u'.holdBack [] none) : Warp) = x
  have hxt : x.threads = u'.threads := by
    rw [← hx]; cases v.usableFrom i <;> rfl
  have h'' := retire_thread x v.is (isMark i) l hl
  dsimp only at h''
  rw [hxt] at h''
  obtain ⟨c1, c2⟩ := h''
  obtain ⟨b1, b2, b3⟩ := h'
  obtain ⟨a1, a2⟩ := h
  have hpr : ((x.retire v.is none (isMark i)).threads.get l).preds = (u.threads.get l).preds := by rw [c1, b1]
  have hfl : ((x.retire v.is none (isMark i)).threads.get l).flags = (u'.threads.get l).flags := by rw [c1]
  have hfu : (u.threads.get l).flags = (w.threads.get l).flags := by rw [a1]
  have hpc : (u'.threads.get l).pc = (w.threads.get l).pc := by rw [b1, a1]
  refine ⟨?_, ?_, ?_, ?_, hpr, ?_⟩
  · rw [c1, b1, a1]
  · intro k hk; rw [hpr]; exact a2 k hk
  · rw [hfl, ← hfu]; exact b2
  · intro hf; rw [hfl, b3 hf, hfu]
  · rw [c2, hpc]

theorem commit_writes (v : WarpView) (i : Instr) (s : State) (ws ps fs) : v.gr.commit v i { st := s, writes := ws, preds := ps, flags := fs } (v.usableFrom i) =
    (let g := (ws.foldl (fun gr x => gr.write v.is.w x) (freeAndTake v i)).modWarp v.is.w (afterWrites v i ps fs ws)
     { g with x := { g.x with waitTimer := 0 } }) := rfl

theorem commit_id (gr : Group) (v : WarpView) (i e u) : (gr.commit v i e u).id = gr.id := by
  unfold Group.commit
  dsimp only
  have ht : ∀ (g : Group) ns w, (g.take w ns).id = g.id := fun _ _ _ => rfl
  have hw : ∀ (ws : List RegWrite) (g : Group), (ws.foldl (fun gr x => gr.write v.is.w x) g).id = g.id := by
    intro ws
    induction ws with
    | nil => intro g; rfl
    | cons x ws ih => intro g; rw [List.foldl_cons, ih]; rw [(oneWarp_write v.is.w g x).grp]
  have ha : ∀ (ws : List RegWrite) (g : Group), (ws.foldl (fun gr x => gr.allocate v.is.w x) g).id = g.id := by
    intro ws
    induction ws with
    | nil => intro g; rfl
    | cons x ws ih => intro g; rw [List.foldl_cons, ih]; unfold Group.allocate; split <;> rfl
  rw [modWarp_id, ha, hw]
  split <;> rfl

theorem reg_writes_mem (w) (ws : List RegWrite) (hn : (ws.map (·.name)).Nodup) : ∀ gr : Group, gr.warps[w]?.isSome → ∀ x ∈ ws, x.lanes ≠ 0 →
   (ws.foldl (fun gr x => gr.write w x) gr).reg w x.name = laneMerge (gr.reg w x.name) x.lanes x.bits x.vals := by
  induction ws with
  | nil => intro gr _ x hx; cases hx
  | cons y ws ih =>
    intro gr hw x hx hl
    simp only [List.map_cons, List.nodup_cons] at hn
    rw [List.foldl_cons]
    have hw' : ((gr.write w y).warps[w]?).isSome := by
      obtain ⟨wp, hwp⟩ := Option.isSome_iff_exists.mp hw
      obtain ⟨wp', h, _⟩ := (oneWarp_write w gr y).mine wp hwp
      rw [h]; rfl
    rcases List.mem_cons.mp hx with rfl | hx
    · rw [reg_writes_other _ _ _ hn.1, reg_write_self _ _ _ hl hw]
    · have hne : x.name ≠ y.name := by
        intro e; exact hn.1 (e ▸ List.mem_map_of_mem hx)
      rw [ih hn.2 _ hw' x hx hl, reg_write_other _ _ _ hne]

theorem setPreds_mem (ps : List (Nat × Mask × Mask)) (l : Nat) (hl : l < 32) (hn : (ps.map (·.1)).Nodup) : ∀ w : Warp, ∀ p ∈ ps, p.1 ≠ 0 → p.1 < 16 → p.2.1.has l = true →
    ((ps.foldl (fun wp p => wp.setPred p.1 p.2.1 p.2.2) w).threads.get l).preds.getLsbD p.1 = p.2.2.has l := by
  induction ps with
  | nil => intro w p h; cases h
  | cons q ps ih =>
    intro w p hp h0 h16 hm
    simp only [List.map_cons, List.nodup_cons] at hn
    rw [List.foldl_cons]
    rcases List.mem_cons.mp hp with rfl | hp
    · have := (setPreds_thread ps l hl (w.setPred p.1 p.2.1 p.2.2)).2 p.1 (by
        intro q hq; left; intro e; exact hn.1 (e ▸ List.mem_map_of_mem hq))
      rw [this]
      have hz : p.2.1 ≠ 0 := by
        intro e; rw [e] at hm; simp [Mask.has] at hm
      unfold Warp.setPred
      rw [if_neg (by simp [h0]; exact hz)]
      dsimp only
      rw [lanes_get_of _ hl, if_pos hm]
      dsimp only
      split
      · rename_i hv; simp [hv, h16]
      · rename_i hv; simp [hv, h16]
    · exact ih hn.2 _ p hp h0 h16 hm

end Sys2Proof.Machine
end

