-- ==== Sys2Proof/Laws/Scalars.lean ====
section
/-! SUPPORT. Scalars and conditions: what a Hall form writes and what it leaves. -/

namespace Sys2Proof.Machine

open Sys2Proof

theorem modGroup_congr (s : State) (g : Nat) (f k : Group → Group) (h : ∀ x, f x = k x) : s.modGroup g f = s.modGroup g k := by
  rw [show f = k from funext h]

/-- What holding scalars back does: it changes the Hall's list of pending names. -/
theorem holdScalars_pending (t : State) (g : Nat) (i : Instr) (w : Bool) : ∃ f : Group → List (Nat × Nat), t.holdScalars g i w = t.modGroup g (fun gr => { gr with hall := { gr.hall with pending := f gr } }) := by
  unfold State.holdScalars
  refine ⟨fun gr => if hallUsable i ≤ 1 || w || !t.coreDetermined gr.core then gr.hall.pending else
    gr.hall.pending.filter (fun (p : Nat × Nat) => !(hallHeld i).contains p.1) ++
      (hallHeld i).map (fun n => (n, t.vtimeOf gr.ctx + hallUsable i)), ?_⟩
  apply modGroup_congr
  intro gr
  dsimp only
  split
  · rfl
  · rfl

theorem modGroup_modGroup (s : State) (g : Nat) (f k : Group → Group) (hf : ∀ x, (f x).id = x.id) :
    (s.modGroup g f).modGroup g k = s.modGroup g (fun x => k (f x)) := by
  unfold State.modGroup
  dsimp only
  rw [List.map_map]
  congr 2
  funext x
  simp only [Function.comp]
  by_cases h : x.id = g
  · simp [h, hf]
  · simp [h]

theorem put_scalar_other (sc : Scalars) (ss : List (Nat × DWord)) (cs) (n : Fin 64) (h : n.val ∉ ss.map (·.1)) : (sc.put ss cs).s[n] = sc.s[n] := by
  unfold Scalars.put
  dsimp only
  generalize sc.s = v
  induction ss generalizing v with
  | nil => rfl
  | cons x ss ih =>
    simp at h
    rw [List.foldl_cons, ih (by simpa using h.2)]
    show (v.setIfInBounds x.1 x.2)[n.val] = v[n.val]
    rw [Vector.getElem_setIfInBounds_ne]
    exact Ne.symm h.1

theorem put_scalar_mem (sc : Scalars) (ss : List (Nat × DWord)) (cs) (hn : (ss.map (·.1)).Nodup) (x) (hx : x ∈ ss) (n : Fin 64) (h : x.1 = n.val) : (sc.put ss cs).s[n] = x.2 := by
  unfold Scalars.put
  dsimp only
  generalize sc.s = v
  induction ss generalizing v with
  | nil => cases hx
  | cons y ss ih =>
    simp only [List.map_cons, List.nodup_cons] at hn
    rw [List.foldl_cons]
    rcases List.mem_cons.mp hx with rfl | hx
    · have := put_scalar_other ⟨v.setIfInBounds x.1 x.2, 0⟩ ss [] n (h ▸ hn.1)
      unfold Scalars.put at this
      dsimp only at this
      rw [this]
      show (v.setIfInBounds x.1 x.2)[n.val] = _
      simp [h]
    · exact ih hn.2 hx _

theorem put_condition_other (sc : Scalars) (ss : List (Nat × DWord)) (cs : List (Nat × Bool)) (n : Nat) (h : n ∉ cs.map (·.1)) : (sc.put ss cs).cond n = sc.cond n := by
  unfold Scalars.put Scalars.cond
  dsimp only
  congr 1
  generalize sc.c = v
  induction cs generalizing v with
  | nil => rfl
  | cons x cs ih =>
    simp at h
    rw [List.foldl_cons, ih (by simpa using h.2)]
    have hne : x.1 ≠ n := fun e => h.1 e.symm
    split
    · rfl
    · split
      · simp [BitVec.getLsbD_twoPow, hne]
      · simp [BitVec.getLsbD_twoPow, hne]
        intro hv; exact BitVec.lt_of_getLsbD hv

theorem put_condition_mem (sc : Scalars) (ss : List (Nat × DWord)) (cs : List (Nat × Bool)) (hn : (cs.map (·.1)).Nodup) (x) (hx : x ∈ cs) (h0 : x.1 ≠ 0) (h16 : x.1 < 16) : (sc.put ss cs).cond x.1 = x.2 := by
  unfold Scalars.put Scalars.cond
  dsimp only
  have : (x.1 == 0) = false := by simp [h0]
  rw [this, Bool.false_or]
  generalize sc.c = v
  induction cs generalizing v with
  | nil => cases hx
  | cons y cs ih =>
    simp only [List.map_cons, List.nodup_cons] at hn
    rw [List.foldl_cons]
    rcases List.mem_cons.mp hx with rfl | hx
    · have hh := put_condition_other ⟨Vector.replicate 64 0, (if x.1 = 0 then v else if x.2 then v ||| BitVec.twoPow 16 x.1 else v &&& ~~~(BitVec.twoPow 16 x.1))⟩ [] cs x.1 hn.1
      unfold Scalars.put Scalars.cond at hh
      dsimp only at hh
      rw [this, Bool.false_or, Bool.false_or] at hh
      rw [hh, if_neg h0]
      cases hx2 : x.2 <;> simp [h16]
    · exact ih hn.2 hx _

end Sys2Proof.Machine
end

