-- ==== Sys2Proof/Laws/Stores.lean ====
section
/-! SUPPORT. Stores on their way to memory: performing one pokes its cells, and nothing of the bookkeeping touches memory. -/

namespace Sys2Proof.Machine

open Sys2Proof

/-- Groups, committed stores, memory and outbox are as they were. -/
structure Calm (s t : State) : Prop where
  groups : t.groups = s.groups
  commits : t.commits = s.commits
  mem : t.mem = s.mem
  outbox : t.outbox = s.outbox

theorem lineWritten_calm (s : State) (pa) : Calm s (s.lineWritten pa) := by
  unfold State.lineWritten
  split
  · exact ⟨rfl, rfl, rfl, rfl⟩
  · dsimp only
    split
    · exact ⟨rfl, rfl, rfl, rfl⟩
    · repeat' split
      all_goals exact ⟨rfl, rfl, rfl, rfl⟩

theorem linesWritten_calm (ls : List Nat) : ∀ s : State, Calm s (ls.foldl (fun s l => s.lineWritten (l * 128)) s) := by
  induction ls with
  | nil => intro s; exact ⟨rfl, rfl, rfl, rfl⟩
  | cons l ls ih =>
    intro s
    have h1 := lineWritten_calm s (l * 128)
    have h2 := ih (s.lineWritten (l * 128))
    exact ⟨h2.1.trans h1.1, h2.2.trans h1.2, h2.3.trans h1.3, h2.4.trans h1.4⟩

theorem markStale_calm (s : State) (c pa) : Calm s (s.markStale c pa) := by
  unfold State.markStale; dsimp only; repeat' split
  all_goals exact ⟨rfl, rfl, rfl, rfl⟩

theorem stores_poke (cls : Nat) (cs : List Host.Cell) : ∀ s : State, let t := cs.foldl (fun s c => (s.markStale cls c.1).poke c.1 c.2) s
    t.groups = s.groups ∧ t.commits = s.commits ∧ t.mem = s.mem ∧ t.outbox = cs.reverse ++ s.outbox := by
  induction cs with
  | nil => intro s; exact ⟨rfl, rfl, rfl, rfl⟩
  | cons c cs ih =>
    intro s
    have h := ih ((s.markStale cls c.1).poke c.1 c.2)
    have hm := markStale_calm s cls c.1
    dsimp only at h ⊢
    rw [List.foldl_cons]
    refine ⟨h.1.trans hm.1, h.2.1.trans hm.2, h.2.2.1.trans hm.3, ?_⟩
    rw [h.2.2.2]
    show cs.reverse ++ ((c.1, c.2) :: (s.markStale cls c.1).outbox) = _
    rw [hm.4]; simp

theorem perform_cells (s : State) (e : Committed) : (s.perform e).groups = s.groups ∧ (s.perform e).commits = s.commits ∧ (s.perform e).mem = s.mem ∧ (s.perform e).outbox = e.cells.reverse ++ s.outbox := by
  have h := stores_poke e.cls e.cells s
  dsimp only at h
  unfold State.perform
  dsimp only
  split
  · have h2 := linesWritten_calm (cellLines e.cells) (e.cells.foldl (fun s c => (s.markStale e.cls c.1).poke c.1 c.2) s)
    exact ⟨h2.1.trans h.1, h2.2.trans h.2.1, h2.3.trans h.2.2.1, h2.4.trans h.2.2.2⟩
  · exact h

theorem setQueue_calm (s : State) (a q) : (s.setQueue a q).commits = s.commits ∧ (s.setQueue a q).mem = s.mem ∧ (s.setQueue a q).outbox = s.outbox := by
  unfold State.setQueue; cases a <;> exact ⟨rfl, rfl, rfl⟩

end Sys2Proof.Machine
end

