-- ==== Sys2Proof/WellFormed.lean ====
section
/-! DEFINITION. Well-formed instructions: those that pass the checks of R47 at user privilege in a group that is not a
supervisor group. -/

namespace Sys2Proof

/-- An instruction that a user-privilege thread of a group may execute. -/
def Instr.wellFormed (i : Instr) : Bool := i.check false false == none

end Sys2Proof
end

