-- ==== Sys2Proof/Tests/Slice0.lean ====
section
/-! SUPPORT. Tests: words that the spec writes out and what they decode to, ill-formed terms that the checks refuse, and small
states that meet the hypotheses of the statements. -/

namespace Sys2Proof.Tests

open Sys2Proof Sys2Proof.Machine

-- one test after the other, so that the compiler's threads stay few
set_option Elab.async false

/-! ### Words that the spec writes out (R32, R33) -/

/-- The instruction of three 32-bit words, the highest first. -/
def reads (w2 w1 w0 : BitVec 32) : Option Instr :=
  match decodeWord (w2 ++ w1 ++ w0) with
  | .ok i => some i
  | .error _ => none

def always : Ctl := ⟨⟨false, false, 0⟩, false, false, false, 0⟩
def vr (n : BitVec 8) : Operand := .vec ⟨n, .whole, .none, 0⟩
def vsel (n : BitVec 8) (e : ESel) : Operand := .vec ⟨n, e, .none, 0⟩

theorem test_decode_nop : reads 0x5F180000 0 0 = some (.nop { always with guard := ⟨true, false, 3⟩ }) := by decide
theorem test_decode_shmap : reads 0xEE000000 0x28000800 0x00600008 = some (.shmap always (vr 40) (.imm 1) (.imm 8)) := by decide
theorem test_decode_bar_gate : reads 0xE2000003 0x50003000 0 = some (.barGate always (.bar 3)) := by decide
theorem test_decode_bar_hold : reads 0xE200001B 0x50003800 0x01C00000 = some (.barHold always true (.bar 3) (.imm 7)) := by decide
theorem test_decode_safept : reads 0xE0000000 0 0x00200005 = some (.safept always (.imm 5)) := by decide
theorem test_decode_yield : reads 0xEC000000 0 0x00200064 = some (.yieldI always (.imm 100)) := by decide
theorem test_decode_ld : reads 0xA0000010 0x0A000440 0x00200040 =
    some (.ld always ⟨.warp, .plain, .w32⟩ 64 (vr 10) (.sreg 4)) := by decide
theorem test_decode_atom : reads 0xAC0026F0 0x02000460 0x00200008 =
    some (.atom always .cas ⟨.device, .special, .w32⟩ 8 (vr 2) (.sreg 6)) := by decide
theorem test_decode_iadd : reads 0x0000002C 0x01000008 0x00200005 =
    some (.iadd always ⟨⟨true, .b32⟩, false, false⟩ (vr 1) (vr 2) (.imm 5)) := by decide
theorem test_decode_asacc : reads 0x1A030064 0x1E000010 0x0000A000 =
    some (.asacc { always with lrb := true, lrc := true } true false (vr 30) (vr 4) (vr 10)) := by decide
theorem test_decode_perm_read : reads 0x0000002C 0x1E000078 0x0001E061 =
    some (.iadd always ⟨⟨true, .b32⟩, false, false⟩ (vr 30) (vr 30) (.vec ⟨30, .whole, .bf, 1⟩)) := by decide
theorem test_decode_bitfn : reads 0x26000328 0x05000018 0x00007000 =
    some (.bitfn always false 0xCA (vr 5) (vr 6) (vr 7)) := by decide
theorem test_decode_unpk3 : reads 0x3C000000 0x04000025 0x80300003 =
    some (.unpk3 always false (vr 4) (vsel 9 (.byte 2)) (.pred 3)) := by decide
theorem test_decode_bra : reads 0x47080000 0 0x00200002 =
    some (.bra { always with guard := ⟨true, false, 1⟩ } false 2) := by decide
theorem test_decode_ffma : reads 0x66000900 0x08000008 0x00003000 =
    some (.ffma always false false ⟨.rn, .f32, false⟩ (vr 8) (vr 2) (vr 3)) := by decide
theorem test_decode_fcvt : reads 0x72000C18 0x03600014 0 =
    some (.fcvt always ⟨.rn, .e4m3, false, .f32, true⟩ (vsel 3 (.byte 2)) (vr 5) Operand.unused) := by decide
theorem test_decode_fdot2 : reads 0x78000B80 0x0A000010 0x00006000 =
    some (.fdot2 always ⟨.rn, .bf16, true⟩ (vr 10) (vr 4) (vr 6)) := by decide
theorem test_decode_quant : reads 0x86000000 0x07B00008 0x0001E000 =
    some (.quant always (vsel 7 (.nib 3)) (vr 2) (vr 30)) := by decide
theorem test_decode_func : reads 0x80002104 0x06000008 0 = some (.func always .ru .f32 .exp2 (vr 6) (vr 2)) := by decide
theorem test_decode_funca : reads 0x82000120 0x04000010 0 = some (.funca always .f32 .sin (vr 4) (vr 4)) := by decide
theorem test_decode_func2 : reads 0x84000904 0x1E000008 0 =
    some (.func2 always .rn .f32 .sincospi (vr 30) (vr 2) Operand.unused) := by decide
theorem test_decode_tret : reads 0xE6000004 0 0 = some (.tretSkip always) := by decide
theorem test_decode_trap : reads 0xE4000000 0 0x0020002A = some (.trap always (.imm 42)) := by decide
theorem test_decode_rdsr : reads 0xE8000000 0x01000C80 0 = some (.rdsr always (vr 1) (.spr 0)) := by decide
theorem test_decode_ctxop : reads 0xF4002001 0x10000460 0x00208000 =
    some (.ctxopSetf always 0x80 (.sreg 4) (.sreg 6) (.imm 32768)) := by decide
theorem test_decode_nbind : reads 0xC0000001 0x500004C0 0x00200000 =
    some (.nbind always (.sreg 20) (.sreg 12) (.imm 0)) := by decide
theorem test_decode_npop : reads 0xC2000001 0x20000000 0 = some (.npop always false (.sreg 8)) := by decide
theorem test_decode_ndone : reads 0xC4000001 0x20000000 0 = some (.ndoneOk always (.sreg 8)) := by decide
theorem test_decode_nxbnd : reads 0xC6000011 0x78000480 0x00200006 =
    some (.nxbnd always true 0 (.sreg 30) (.sreg 8) (.imm 6)) := by decide
theorem test_decode_njoin : reads 0xC8000005 0x580004E0 0 =
    some (.njoin always true false (.sreg 22) (.sreg 14)) := by decide
theorem test_decode_detset : reads 0xF0000005 0x78000440 0 = some (.detsetRec always false (.sreg 30) (.sreg 4)) := by decide
theorem test_decode_clk : reads 0xF2000004 0x04000000 0 = some (.clkRet always (vr 4)) := by decide
theorem test_decode_aprun : reads 0xCA000001 0x780004C0 0x00200201 =
    some (.aprun always (.sreg 30) (.sreg 12) (.imm 0x201)) := by decide
theorem test_decode_aqld : reads 0x92000003 0x30000440 0x00200080 =
    some (.aqld always false 128 (.queue 0) (.sreg 4)) := by decide
theorem test_decode_aqst : reads 0x94000007 0x30001460 0x00200000 =
    some (.aqst always true 0 (.queue 1) (.sreg 6)) := by decide
theorem test_decode_aqsyn : reads 0x96000280 0 0 = some (.aqsyn always .device) := by decide
theorem test_decode_qpop : reads 0xCC000000 0x10000CC0 0 = some (.qpop always (vr 16) (.queue 0)) := by decide
theorem test_decode_qpush : reads 0x90000003 0x30001050 0 = some (.qpush always (.queue 1) (vr 20)) := by decide
theorem test_decode_qctl : reads 0xCE000001 0x7C000CC0 0x00600001 =
    some (.qctlToken always (.sreg 31) (.queue 1) (.imm 1)) := by decide
theorem test_decode_mma : reads 0xD000001B 0x400034C0 0x00028000 =
    some (.mma always ⟨.bf16, .bf16, .plain, true, true, false⟩ (.tile 3) (.sreg 12) (vr 40)) := by decide
theorem test_decode_mxmov : reads 0xD200002B 0x40003540 0 =
    some (.mxmovSt always .bf16 false (.tile 3) (.sreg 20)) := by decide
theorem test_decode_mkey : reads 0xD4000013 0x40005000 0 = some (.mkeyRsv always (.tile 5)) := by decide
theorem test_decode_plane : reads 0x8C000000 0x00000500 0x00148000 =
    some (.plane always .bf16 0 (.sreg 16) (.sreg 18)) := by decide
theorem test_decode_fxg : reads 0xD6000001 0x780004C0 0 = some (.fxg always (.sreg 30) (.sreg 12)) := by decide
theorem test_decode_fxc : reads 0xD8000001 0x780004E0 0 = some (.fxc always (.sreg 30) (.sreg 14)) := by decide
theorem test_decode_hbind : reads 0xDA000021 0x500004C0 0 =
    some (.hbind always .retain false (.sreg 20) (.sreg 12)) := by decide
theorem test_decode_hbind_drain : reads 0xDA000005 0x50000480 0 =
    some (.hbindDrain always (.sreg 20) (.sreg 8)) := by decide
theorem test_decode_hrecv : reads 0xDE000001 0x200005E0 0 = some (.hrecv always false (.sreg 8) (.sreg 30)) := by decide
theorem test_decode_fmad2 : reads 0x7E000904 0x28000020 0x19032000 =
    some (.fmad2 always true false ⟨.rn, .f32, false⟩ (vr 40) (.vec ⟨8, .whole, .bf, 4⟩) (vr 50)) := by decide
theorem test_decode_lds : reads 0xA4000018 0x100000F4 0x00200000 = some (.lds always .q 0 (vr 16) (vr 61)) := by decide
theorem test_decode_ld_guarded : reads 0xA0983C11 0x68000580 0x002FFFE4 =
    some (.ld { always with guard := ⟨false, true, 3⟩ } ⟨.warp, .plain, .w32⟩ (BitVec.ofInt 24 (-28)) (.sreg 26) (.sreg 24)) := by
  decide
theorem test_decode_nxbnd_reg : reads 0xC6000011 0x74000480 0x0016C000 =
    some (.nxbnd always true 0 (.sreg 29) (.sreg 8) (.sreg 27)) := by decide
theorem test_decode_fenceh : reads 0xB60000A0 0 0 = some (.fenceH always .acq .core) := by decide
theorem test_decode_atom_hall : reads 0xAC0026B1 0x100004E0 0x00200000 =
    some (.atom always .cas ⟨.device, .acq, .w32⟩ 0 (.sreg 4) (.sreg 14)) := by decide
theorem test_decode_st_rel : reads 0xA20002D1 0x600004E0 0x00200000 =
    some (.st always ⟨.device, .rel, .w32⟩ 0 (.sreg 24) (.sreg 14)) := by decide
theorem test_decode_resume : reads 0xE0000004 0 0 = some (.safeptResume always) := by decide
theorem test_decode_ldfe : reads 0xA8080038 0x0800000C 0x00200000 =
    some (.ldfe { always with guard := ⟨false, false, 1⟩ } true .q 0 (vr 8) (vr 3)) := by decide

/-- All 96 bits 1 is ILL (R232). -/
theorem test_decode_ill : reads 0xFFFFFFFF 0xFFFFFFFF 0xFFFFFFFF =
    some (.ill ⟨⟨true, true, 15⟩, true, true, true, 3⟩ 0xFFF 0x3FFFFF 0x3FFFFF 0x3FFFFF) := by decide

/-- NOP with another FN is refused (R50), an operand of KIND 11 class 0111 is (R39), and a reserved PERM is (R43). -/
theorem test_refuse_nop_fn : reads 0x5E000004 0 0 = none := by decide
theorem test_refuse_class : reads 0x0000002C 0x01000008 0x00370000 = none := by decide
theorem test_refuse_perm : reads 0x0000002C 0x01000008 0x000000E0 = none := by decide

/-! ### Well-formed terms: for each check a term that it refuses (R47) -/

def refuses (f : CheckFault) (l : List Instr) : Bool := l.all (fun i => i.check false false == some f && !i.wellFormed)

def flt (m : Fmt) : FloatMod := ⟨.dyn, m, false⟩

theorem test_wf_accepts :
    [Instr.nop always, .iadd always ⟨⟨true, .b32⟩, false, false⟩ (vr 1) (vr 2) (.imm 5), .npop always false (.sreg 8),
      .ld always ⟨.warp, .plain, .w32⟩ 64 (vr 10) (.sreg 4)].all Instr.wellFormed = true := by decide +kernel

/-- A guard that is never true (R34). -/
theorem test_wf_guard_never : refuses .illegalInstr [.nop { always with guard := ⟨true, false, 0⟩ }] = true := by decide +kernel

/-- A lane guard on a Hall-only instruction (R45), and an instruction of access programs in a group's stream (R323). -/
theorem test_wf_form : refuses .illegalInstr
    [.npop { always with guard := ⟨false, false, 1⟩ } false (.sreg 8), .aqsyn always .device] = true := by decide +kernel

/-- FN fields, unused operands and guards that an entry refuses: hints on NOP (R50), a barrier that an omitted GATE names (R90), ORDER and
SCOPE (R98), types of integers (R132), formats (R182), conversions (R191), and MMA's operand formats (R360). -/
theorem test_wf_entry_instr : refuses .illegalInstr
    [.nop { always with lra := true }, .barHold always false (.bar 3) (.imm 7), .tretSkip { always with guard := ⟨false, false, 1⟩ },
      .ld always ⟨.core, .plain, .w32⟩ 0 (vr 1) (.sreg 4), .st always ⟨.warp, .plain, .s8⟩ 0 (vr 1) (.sreg 4),
      .red always .cas ⟨.warp, .plain, .w32⟩ 0 (vr 1) (.sreg 4), .imul always ⟨⟨true, .b8⟩, false, false⟩ (vr 1) (vr 2) (vr 3),
      .imin always ⟨⟨true, .b32⟩, false, true⟩ (vr 1) (vr 2) (vr 3), .pack always ⟨⟨true, .b32⟩, false, false⟩ (vr 1) (vr 2) (vr 3),
      .fadd always ⟨.rn, .e4m3, false⟩ (vr 1) (vr 2) (vr 3), .fdiv always ⟨.rn, .f16, true⟩ (vr 1) (vr 2) (vr 3),
      .fcvt always ⟨.rn, .f32, false, .f32, false⟩ (vr 1) (vr 2) Operand.unused, .func always .rn .e5m2 .exp2 (vr 1) (vr 2),
      .mma always ⟨.s8, .bf16, .plain, false, false, false⟩ (.tile 3) (.sreg 12) Operand.unused] = true := by decide +kernel

/-- An ESEL of a width that the slot does not take (R40). -/
theorem test_wf_esel : refuses .illegalInstr [.func always .rn .f32 .exp2 (vr 1) (.vec ⟨2, .byte 1, .none, 0⟩)] = true := by
  decide +kernel

/-- What handler privilege alone may do: a handler register, TRET, and SETF of TRAPVEC, which is a supervisor's (R39,
R230, R250). -/
theorem test_wf_privilege : refuses .privilege
    [.mov always false (vr 1) (.hreg 3), .tretSkip always, .ctxopSetf always 0xA0 (.sreg 4) (.sreg 6) (.imm 0)] = true := by decide +kernel

/-- An operand of a KIND that the entry does not take (R38). -/
theorem test_wf_kind : refuses .illegalOperand [.npop always false (vr 8), .mkeyRsv always (.queue 1)] = true := by decide +kernel

/-- A warp instruction whose destination is a scalar (R45). -/
theorem test_wf_destination : refuses .illegalOperand
    [.iadd always ⟨⟨true, .b32⟩, false, false⟩ (.sreg 1) (vr 2) (.imm 5)] = true := by decide +kernel

/-- What an entry asks of its operands: multiples of two and four, and the ranges of immediates (R44). -/
theorem test_wf_entry_operand : refuses .illegalOperand
    [.shmap always (vr 40) (.imm 32) (.imm 8), .shmap always (vr 40) (.imm 1) (.imm 0), .safept always (.imm 1048575),
      .yieldI always (.imm 1024), .ld always ⟨.warp, .plain, .w32⟩ 0 (vr 1) (.sreg 5), .npop always false (.sreg 6),
      .pmovFromreg always (.pred 0) (vr 2) (.imm 65536), .rdsr always (vr 1) (.spr 511), .qctlToken always (.sreg 31) (.queue 1) (.imm 0),
      .mma always ⟨.bf16, .bf16, .plain, true, true, false⟩ (.tile 3) (.sreg 12) (vr 41)] = true := by decide +kernel

/-- A 64-bit operand at an odd register (R41), and a barrier that does not exist (R76). -/
theorem test_wf_range : refuses .illegalOperand
    [.iadd always ⟨⟨true, .b64⟩, false, false⟩ (vr 255) (vr 2) (.imm 5), .barGate always (.bar 48)] = true := by decide +kernel

/-! ### Values that the spec writes out -/

/-- IDIV.S32 of -7 by 2 gives -3, and IREM.S32 gives -1 (R134). -/
theorem test_value_idiv :
    let m : IntMod := ⟨⟨true, .b32⟩, false, false⟩
    intElem m 32 fnDiv 0xFFFFFFF9 2 0 = 0xFFFFFFFD ∧ intElem m 32 fnRem 0xFFFFFFF9 2 0 = 0xFFFFFFFF := by decide +kernel

/-- Table 0x96 gives the parity of the three, 0xE8 their majority and 0xCA the bits of B where C is 1 and of A elsewhere (R143). -/
theorem test_value_bitfn :
    let a : DWord := 0xAA
    let b : DWord := 0xCC
    let c : DWord := 0xF0
    let f := fun tbl => tableBits tbl b c a
    f 0x96 = a ^^^ b ^^^ c ∧ f 0xE8 = (a &&& b) ||| (a &&& c) ||| (b &&& c) ∧ f 0xCA = (c &&& b) ||| (a &&& 0x0F) := by decide +kernel

/-- ICVT.S32.F32.rz of 3.0e9 gives 2,147,483,647 and raises NV (R192). -/
theorem test_value_icvt : toIntRes ⟨true, .b32⟩ .rz (fval .f32 0x4F32D05E) = ⟨0x7FFFFFFF, flagNV⟩ := by decide +kernel

/-- Ten words of an image block code to fifteen bytes (R239). -/
theorem test_value_image_words :
    codeWords [0, 0, 0, 0, 0, 7, 7, 7, 0x12345678, 0x9ABCDEF0] =
      [0x04, 0x42, 7, 0, 0, 0, 0x81, 0x78, 0x56, 0x34, 0x12, 0xF0, 0xDE, 0xBC, 0x9A] := by decide +kernel

/-- The address of the example in R410 with its region moved to physical region 1202, and in its own region. -/
theorem test_value_hbm_map :
    (State.reset.hbm.setPhysical 9 2 609 1202).place 0x494C36CEC5 = ⟨21, 1, 2, 4811, 3, 0x45⟩ ∧
      State.reset.hbm.place 0x494C36CEC5 = ⟨13, 1, 2, 2443, 3, 0x45⟩ := by decide +kernel

/-- FUNC.EXP2.F32 of 0.5 in the five rounding modes, each inexact (R208). -/
theorem test_value_exp2 :
    [Rnd.rn, .ra, .rz, .rd, .ru].map (fun rm => funcRes .exp2 .f32 rm (fval .f32 0x3F000000)) =
      [⟨0x3FB504F3, flagNX⟩, ⟨0x3FB504F3, flagNX⟩, ⟨0x3FB504F3, flagNX⟩, ⟨0x3FB504F3, flagNX⟩, ⟨0x3FB504F4, flagNX⟩] := by
  decide +kernel

/-! ### The hypotheses of the statements

For each statement a state, or one for each of its clauses, that meets what the statement supposes. -/

set_option maxRecDepth 4096

/-! ### Small states that meet what the statements suppose -/

def allLanes : Mask := BitVec.allOnes 32

/-- The memory of the placed context: its tables, and the RCB of its root. -/
def demoMem : Memory :=
  [(0x10000, 1), (0x10002, 2), (0x20000, 1), (0x20001, 0x10), (0x20002, 3), (0x31000, 1), (0x31001, 0x20), (0x31002, 3), (0x32008, 0x23),
   (0x3200A, 4), (0x32010, 0x13), (0x32012, 5), (0x32018, 0x13), (0x3201A, 6)] ++
  [(0x50001, 1), (0x50020, 0xFF), (0x50021, 0xFF), (0x50022, 0xFF), (0x50023, 0xFF), (0x50025, 0xF0), (0x50026, 0xFF), (0x50027, 0xFF),
   (0x50028, 0xFF), (0x50029, 0xFF), (0x5002A, 0xFF), (0x5002B, 0xFF), (0x5002C, 0xFF), (0x5002D, 0xFF), (0x5002E, 0xFF), (0x50081, 0x40),
   (0x50087, 0x80), (0x500A0, 1), (0x500AA, 1)]

/-- A running context with one resident group of one warp (log entry 1), and its data page at 0x3_0000. -/
def demo : State := { placeWord State.reset 96 0 with mem := demoMem }

theorem test_demo_memory : (placeWord State.reset 96 0).mem = demoMem := by decide +kernel

/-- The scalars of its Hall. -/
def hallSc (s : State) : Scalars := ((s.group? 0).map (fun gr => gr.hall.sc)).getD placedGroup.hall.sc

/-- Its warp issues an instruction in all lanes: from its queue, or fetched by the path. -/
def byWarp (s : State) : State := { s with issuer := .warp ⟨0, 0, allLanes, 0, hallSc s, true, true, none, none⟩ }

def byPath (s : State) : State := { s with issuer := .warp ⟨0, 0, allLanes, 0, hallSc s, true, false, none, none⟩ }

/-- Its Hall executes an instruction. -/
def byHall (s : State) : State := { s with issuer := .hall 0 }

/-- An access program of the group executes one, with a load queue q0 and a store queue q1. -/
def byAp (s : State) : State :=
  { s.modX 0 (fun x => { x with
      programs := [⟨0, .running, false, 0, ⟨Vector.replicate 64 0, 1⟩, 3, 0, 0, 1, 2, none, [], []⟩]
      queues := [⟨0, 0, false, []⟩, ⟨1, 0, true, []⟩] }) with
    issuer := .ap 0 0 }

def setS (s : State) (l : List (Nat × DWord)) : State :=
  s.modHall 0 (fun h => { h with sc := h.sc.put l [] })

/-- A vector register of the warp. -/
def setV (s : State) (n : Nat) (f : Nat → Word) : State :=
  s.modWarp 0 0 (fun w => { w with regs := (n, Lanes.of f) :: w.regs })

/-- The warp may issue the instruction, `P` holds of its view, and the registers it writes can be had. -/
def warpMeets (s : State) (i : Instr) (P : WarpView → Bool) (e : WarpView → WarpEff) : Bool :=
  match s.issuer with
  | .warp is =>
    match s.warpView is i.ctl with
    | some v =>
      !condOff v.is i.ctl && !v.blocked i && (v.active == 0 || (v.sharedEmpty i).isEmpty || v.w.atom.isSome) && v.tooFar == 0 && P v &&
        !v.releases ((e v).writes ++ (e v).late) && (v.sharedFull i ((e v).writes ++ (e v).late)).isEmpty &&
        v.s.regsFit v.gr (v.needs i ((e v).writes ++ (e v).late))
    | none => false
  | _ => false

theorem warpMeets_sound {s : State} {i : Instr} {P : WarpView → Bool} {e : WarpView → WarpEff}
    (h : warpMeets s i P e = true) :
    ∃ v, Issuing s i v ∧ P v = true ∧ Fitting v i ((e v).writes ++ (e v).late) := by
  unfold warpMeets at h
  split at h
  · rename_i is hs
    split at h
    · rename_i v hv
      obtain ⟨e1, e2⟩ := warpView_s hv
      simp only [Bool.and_eq_true, Bool.or_eq_true, Bool.not_eq_true', beq_iff_eq, List.isEmpty_iff, or_assoc] at h
      obtain ⟨⟨⟨⟨⟨⟨⟨h1, h2⟩, h3⟩, h4⟩, h5⟩, h6⟩, h7⟩, h8⟩ := h
      exact ⟨v, ⟨e2 ▸ hs, e2 ▸ hv, h1, h2, h3.imp id (Or.imp id Option.isSome_iff_ne_none.mp), h4⟩, h5, ⟨h6, h7, h8⟩⟩
    · cases h
  · cases h

/-- The Hall may execute the instruction, and `P` holds of its view. -/
def hallMeets (s : State) (i : Instr) (P : HallView → Bool) : Bool :=
  match s.hallView 0 with
  | some h =>
    s.issuer == .hall 0 && !s.hallPends h.gr i && h.guard i.ctl && decide (h.gr.hall.dist < Config.safePointLimit) && P h
  | none => false

theorem hallMeets_sound {s : State} {i : Instr} {P : HallView → Bool} (h : hallMeets s i P = true) :
    ∃ v, Hallward s i 0 v ∧ P v = true := by
  unfold hallMeets at h
  split at h
  · rename_i v hv
    simp only [Bool.and_eq_true, Bool.not_eq_true', beq_iff_eq, decide_eq_true_eq] at h
    obtain ⟨⟨⟨⟨h1, h2⟩, h3⟩, h4⟩, h5⟩ := h
    exact ⟨v, ⟨h1, hv, h2, h3, h4⟩, h5⟩
  · cases h

/-- The access program may execute the instruction, and `P` holds of its view. -/
def apMeets (s : State) (i : Instr) (P : HallView → Bool) : Bool :=
  match s.apView 0 0 with
  | some h => s.issuer == .ap 0 0 && h.guard i.ctl && P h
  | none => false

theorem apMeets_sound {s : State} {i : Instr} {P : HallView → Bool} (h : apMeets s i P = true) :
    ∃ v, Apward s i 0 0 v ∧ P v = true := by
  unfold apMeets at h
  split at h
  · rename_i v hv
    simp only [Bool.and_eq_true, beq_iff_eq] at h
    exact ⟨v, ⟨h.1.1, hv, h.1.2⟩, h.2⟩
  · cases h

def k0 : Ctl := always
def i32 : IntMod := ⟨⟨true, .b32⟩, false, false⟩
def l32 : LongTy := ⟨true, false⟩

/-- Registers written; `Fitting` looks at names and lanes alone, so the values here are 0. -/
def put32 (a : Operand) (v : WarpView) : WarpEff := { st := v.s, writes := v.w32 a (fun _ => 0) }
def put64 (a : Operand) (v : WarpView) : WarpEff := { st := v.s, writes := v.w64 a (fun _ => 0) }
def keep (v : WarpView) : WarpEff := { st := v.s }

/-- A well-formed warp form may issue in the state, with `P` of its view. -/
def inWarp (s : State) (i : Instr) (P : WarpView → Bool) (e : WarpView → WarpEff) : Bool :=
  i.wellFormed && warpMeets (byWarp s) i P e

/-- The same for lanes 0 and 31 of the warp alone. -/
def byTwo (s : State) : State := { s with issuer := .warp ⟨0, 0, 0x80000001, 0, hallSc s, true, false, none, none⟩ }

def inTwo (s : State) (i : Instr) (P : WarpView → Bool) (e : WarpView → WarpEff) : Bool :=
  i.wellFormed && warpMeets (byTwo s) i P e

def inHall (s : State) (i : Instr) (P : HallView → Bool) : Bool := i.wellFormed && hallMeets (byHall s) i P

/-- The warp's form and the form with scalars may issue, in a warp, a Hall and an access program. -/
def inBoth (iw ih : Instr) (e : WarpView → WarpEff) : Bool :=
  inWarp demo iw (fun _ => true) e && inHall demo ih (fun _ => true) && apMeets (byAp demo) ih (fun _ => true)

/-- The same of an instruction with three operands and a 32-bit destination. -/
def inBoth3 (f : Operand → Operand → Operand → Instr) : Bool :=
  inBoth (f (vr 1) (vr 2) (.imm 5)) (f (.sreg 1) (.sreg 2) (.imm 5)) (put32 (vr 1))

/-- Every clause is met. -/
def allOf (l : List Bool) : Bool := l.all id

theorem test_meets_IntegerArithmetic :
    allOf [inBoth3 (Instr.iadd k0 i32), inBoth3 (Instr.isub k0 i32), inBoth3 (Instr.imul k0 i32), inBoth3 (Instr.imulh k0 i32),
      inBoth3 (Instr.imad k0 i32), inBoth3 (Instr.idiv k0 i32), inBoth3 (Instr.irem k0 i32), inBoth3 (Instr.imin k0 i32),
      inBoth3 (Instr.imax k0 i32), inBoth3 (fun a b _ => Instr.iabs k0 i32 a b), inBoth3 (fun a b _ => Instr.ineg k0 i32 a b)] =
      true := by decide +kernel

theorem test_meets_IntegerCarryAndSums :
    allOf [inBoth3 (Instr.iaddc k0 false 1), inBoth3 (Instr.isad k0 i32), inBoth3 (Instr.isel k0 false 1 l32),
      inWarp demo (.idot4 k0 true true false (vr 1) (vr 2) (vr 3)) (fun _ => true) (put32 (vr 1)),
      inWarp demo (.asacc k0 true false (vr 1) (vr 2) (vr 3)) (fun _ => true) (put32 (vr 1)),
      inBoth (.icmp k0 .lt l32 (.pred 1) (vr 2) (.imm 0)) (.icmp k0 .lt l32 (.cond 1) (.sreg 2) (.imm 0)) keep] = true := by
  decide +kernel

theorem test_meets_LogicAndShifts :
    allOf [inBoth3 (Instr.and k0 true false), inBoth3 (Instr.or k0 false false), inBoth3 (Instr.xor k0 false false),
      inBoth3 (Instr.bitfn k0 false 0xCA), inBoth3 (Instr.shl k0 l32), inBoth3 (Instr.shr k0 l32), inBoth3 (Instr.rot k0 l32),
      inBoth3 (Instr.bfx k0 l32), inBoth3 (Instr.bfi k0 l32), inBoth3 (fun a b _ => Instr.popc k0 false a b),
      inBoth3 (fun a b _ => Instr.clz k0 false a b), inBoth3 (fun a b _ => Instr.ctz k0 false a b),
      inBoth3 (fun a b _ => Instr.brev k0 false a b)] = true := by decide +kernel

theorem test_meets_MovesAndLanes :
    allOf [inBoth3 (fun a b _ => Instr.mov k0 false a b), inBoth3 (fun a _ _ => Instr.movi k0 0x123 a (.imm 0) (.imm 0x45678)),
      inBoth3 (fun a b _ => Instr.pack k0 ⟨⟨true, .b16⟩, true, false⟩ a b b),
      inWarp demo (.perm k0 true (vr 1) (vr 2) (.imm 32)) (fun _ => true) (put32 (vr 1)),
      inWarp (setV demo 2 (fun _ => 242)) (.unpk3 k0 true (vr 4) (vr 2) Operand.unused)
        (fun v => laneNumbers.all (fun l => (v.r32 false (vr 2) l).toNat % 256 ≤ 242)) (put64 (vr 4)),
      inWarp demo (.isect k0 (vr 4) (vr 2) (vr 3)) (fun _ => true) (put64 (vr 4))] = true := by decide +kernel

/-- The group's vote is due in its Hall: every live warp has given its part. -/
def voted : State :=
  demo.modGroup 0 (fun gr =>
    { gr with
      hall := { gr.hall with combine := some ⟨0, .vote k0 .all false (.cond 1) (.pred 2), [(0, Lanes.of (fun _ => 1), allLanes)]⟩ }
      warps := gr.warps.map (fun w => { w with rp := 1 })
      queueBase := 1 })

theorem test_meets_BitsAndReductions :
    allOf [inBoth (.pset k0 .and false true false (.pred 1) (.pred 2) (.pred 3))
        (.pset k0 .and false true false (.cond 1) (.cond 2) (.cond 3)) keep,
      inBoth (.pmov k0 (.pred 1) (.pred 2)) (.pmov k0 (.cond 1) (.cond 2)) keep,
      inBoth (.pmovToreg k0 (vr 1) (.pred 0)) (.pmovToreg k0 (.sreg 1) (.cond 0)) (put32 (vr 1)),
      inBoth (.pmovFromreg k0 (.pred 0) (vr 1) (.imm 0xFFFE)) (.pmovFromreg k0 (.cond 0) (.sreg 1) (.imm 0xFFFE)) keep,
      inWarp demo (.vote k0 .cnt false (vr 1) (.pred 2)) (fun v => v.is.queued) (put32 (vr 1)),
      inWarp demo (.vred k0 .add l32 (vr 1) (vr 2)) (fun v => v.is.queued) (put32 (vr 1)),
      inWarp demo (.vote k0 .all false (.cond 1) (.pred 2)) (fun v => v.is.queued) keep,
      inWarp demo (.vred k0 .add l32 (.sreg 1) (vr 2)) (fun v => v.is.queued) keep,
      match voted.group? 0 with
      | some gr => match gr.hall.combine with
        | some x => gr.combineDue x && !gr.liveWarps.isEmpty
        | none => false
      | none => false] = true := by decide +kernel

/-- The lanes' targets can be reached. -/
def reaches (t : WarpView → Nat → Option Word) (v : WarpView) : Bool := (v.targetTrap (t v)).isNone

/-- In a state with a link register that every lane has. -/
def linked : State := setV demo linkReg (fun _ => 3)

theorem test_meets_BranchesAndCalls :
    allOf [    inTwo demo (.bra k0 true 2) (reaches (fun v _ => some (pcPlus v.is.pc 2))) keep,
    inHall demo (.bra k0 false 2) (fun h => (h.s.targetTrap h.gr (pcPlus h.pc 2)).isNone),
    apMeets (byAp demo) (.bra k0 false 2) (fun h => (h.s.targetTrap h.gr (pcPlus h.pc 2)).isNone),
    inTwo demo (.brx k0 true (vr 2)) (reaches (fun v j => some (v.r32 false (vr 2) j))) keep,
    inHall demo (.brx k0 false (.sreg 2)) (fun h => (h.s.targetTrap h.gr (h.r32 false (.sreg 2))).isNone),
    inTwo (demo.modWarp 0 0 (fun w => { w with threads := Lanes.of (fun l => { w.threads.get l with preds := 3 }) })) (.call { k0 with guard := ⟨false, true, 1⟩ } 2) (fun v => reaches (fun v _ => some (pcPlus v.is.pc 2)) v)
      (fun v => { st := v.s, writes := v.link }),
    inWarp demo (.call k0 2) (fun v => v.is.queued && k0.guard.uniform) (fun v => { st := v.s, writes := v.link }),
    inTwo demo (.callx k0 (vr 2)) (reaches (fun v j => some (v.r32 false (vr 2) j))) (fun v => { st := v.s, writes := v.link }),
    warpMeets (byTwo linked) (.ret k0) (fun v => !(v.is.queued && k0.guard.uniform) && reaches (fun v j => some (v.lane linkReg j)) v)
      keep,
    warpMeets { linked with issuer := .warp ⟨0, 0, 0x80000001, 0, placedGroup.hall.sc, true, true, none, some 3⟩ } (.ret k0)
      (fun v => v.is.queued && k0.guard.uniform && v.is.link == some 3 && laneNumbers.all (fun j => v.lane linkReg j == 3)) keep,
    warpMeets (byWarp linked) (.ret k0) (fun v => v.is.queued && k0.guard.uniform && v.is.link.isNone) keep,
    warpMeets { setV demo 2 (fun l => BitVec.ofNat 32 l) with
          issuer := .warp ⟨0, 0, 0x80000001, 5, placedGroup.hall.sc, true, true, none, none⟩ }
      (.loop { k0 with guard := ⟨false, true, 1⟩ } (-2) (vr 2))
      (reaches (fun v j => if 2 ≤ (v.r32 false (vr 2) j).toNat then some (pcPlus v.is.pc (-2)) else none)) (put32 (vr 2)),
    inHall ((setS demo [(2, 2)]).modHall 0 (fun h => { h with pc := 5 })) (.loop k0 (-2) (.sreg 2))
      (fun h => decide (2 ≤ (h.r64 false (.sreg 2)).toNat) && (h.s.targetTrap h.gr (pcPlus h.pc (-2))).isNone),
    inHall (setS demo [(2, 1)]) (.loop k0 (-2) (.sreg 2)) (fun h => (h.r64 false (.sreg 2)).toNat ≤ 1)] = true := by decide +kernel

/-- Its lane guard p1 is false in every lane. -/
def idleCtl : Ctl := { k0 with guard := ⟨false, false, 1⟩ }

theorem test_meets_MeetingAndExit :
    allOf [    inWarp demo (.meet k0 5) (fun v => pcPlus v.is.pc 5 != 0xFFFFFFFF) keep,
    inWarp demo (.meetSv k0 5 (vr 1)) (fun v => pcPlus v.is.pc 5 != 0xFFFFFFFF) (put32 (vr 1)),
    inWarp demo (.meetLd k0 (vr 1)) (fun _ => true) keep,
    inWarp demo (.exit k0) (fun v => v.active != 0) keep,
    inTwo demo (.meet idleCtl 5) (fun v => v.active == 0) keep,
    inTwo demo (.meetSv idleCtl 5 (vr 1)) (fun v => v.active == 0) (put32 (vr 1)),
    (match (demo.modWarp 0 0 (fun w => w.modThreads allLanes (fun t => { t with pc := 7, meet := 7, held := true }))).warp? 0 0 with
      | some wp => wp.releasable.isSome
      | none => false),
    apMeets (byAp demo) (.exit k0) (fun _ => true),
    ((byAp demo).apView 0 0).any (fun h => h.guard { k0 with guard := ⟨false, true, 1⟩ } == false)] = true := by decide +kernel

def f32 : FloatMod := ⟨.rn, .f32, false⟩
def f32d : FloatMod := ⟨.dyn, .f32, false⟩

/-- A warp-only instruction with three registers and a 32-bit destination. -/
def inWarp3 (f : Operand → Operand → Operand → Instr) : Bool :=
  inWarp demo (f (vr 1) (vr 2) (vr 3)) (fun _ => true) (put32 (vr 1))

theorem test_meets_FloatArithmetic :
    allOf [inWarp3 (Instr.fadd k0 f32), inWarp3 (Instr.fsub k0 f32), inWarp3 (Instr.fmul k0 f32),
      inWarp3 (Instr.ffma k0 false false f32), inWarp3 (Instr.fdiv k0 f32), inWarp3 (fun a b _ => Instr.fsqrt k0 f32 a b),
      inWarp3 (Instr.fminmax k0 true false f32d), inWarp3 (Instr.fdot2 k0 ⟨.rn, .bf16, true⟩),
      inWarp demo (.fmad2 k0 true false f32 (vr 4) (vr 6) (vr 8)) (fun _ => true) (put64 (vr 4))] = true := by decide +kernel

theorem test_meets_FloatSignsAndConversions :
    allOf [inWarp3 (fun a b _ => Instr.fabs k0 f32d a b), inWarp3 (fun a b _ => Instr.fneg k0 f32d a b), inWarp3 (Instr.fcopys k0 f32d),
      inWarp3 (fun a b _ => Instr.fclass k0 f32d a b Operand.unused), inWarp3 (fun a b _ => Instr.frnd k0 false f32 a b),
      inWarp3 (fun a b _ => Instr.fcvt k0 ⟨.rn, .bf16, false, .f32, false⟩ a b Operand.unused),
      inWarp3 (fun a b _ => Instr.icvt k0 ⟨.rn, .f32, true, ⟨true, .b32⟩⟩ a b), inWarp3 (Instr.fexpoScale k0 f32),
      inWarp3 (fun a b _ => Instr.fexpoGetexp k0 f32d a b), inWarp3 (fun a b _ => Instr.fexpoGetmant k0 f32d a b),
      inWarp demo (.fcmp k0 .un f32d (.pred 1) (vr 2) (vr 3)) (fun _ => true) keep] = true := by decide +kernel

theorem test_meets_CodebooksAndFlags :
    allOf [inWarp demo (.quant k0 (vsel 1 (.nib 3)) (vr 2) (vr 30)) (fun _ => true) (put32 (vr 1)),
      inWarp demo (.cbdec k0 .f32 (vr 1) (vsel 2 (.nib 3)) (vr 30)) (fun _ => true) (put32 (vr 1)),
      inWarp demo (.deq k0 .s8 (vr 1) (vsel 2 (.byte 0)) (.imm 127)) (fun _ => true) (put32 (vr 1)),
      inWarp demo (.fstatGet k0 (vr 1)) (fun _ => true) (put32 (vr 1)),
      inWarp demo (.fstatClr k0 (vr 2)) (fun _ => true) keep,
      inWarp demo (.fstatSet k0 (.imm 31)) (fun _ => true) keep] = true := by decide +kernel

/-- Four functions in the unit of core 0: the first undecided in lanes 0 and 31, one decided, one in phase 2 with a single lane left and one
with two. The context runs on, or has halted. -/
def functions (s : State) : State :=
  { s with sfu :=
      [⟨0, 0, 0, allLanes, [], Lanes.all 0, 0x80000001, 2, 16, false, none⟩,
       ⟨0, 0, 0, allLanes, [], Lanes.all 0, 0, 0, 8, false, none⟩,
       ⟨0, 0, 0, allLanes, [], Lanes.all 0, 0x80000000, 1, 16, true, none⟩] }

def halted (s : State) : State := s.modCtx 0 (fun c => { c with halt := some ⟨FaultInfo.blank, [], false, 0, [.core 0]⟩ })
def oneLeft (s : State) : State := { functions s with sfu := (functions s).sfu.drop 2 }
def twoLeft (s : State) : State := { s with sfu := [⟨0, 0, 0, allLanes, [], Lanes.all 0, 0x80000001, 1, 16, true, none⟩] }

theorem test_meets_SpecialFunctions :
    allOf [inWarp demo (.func k0 .rn .f32 .exp (vr 1) (vr 2)) (fun v => v.active != 0) (fun v => { st := v.s, late := v.w32 (vr 1) (fun _ => 0) }),
      inWarp demo (.funca k0 .f32 .sin (vr 1) (vr 2)) (fun v => v.active != 0) (fun v => { st := v.s, late := v.w32 (vr 1) (fun _ => 0) }),
      inWarp demo (.func2 k0 .rn .f32 .sincos (vr 4) (vr 2) Operand.unused) (fun v => v.active != 0)
        (fun v => { st := v.s, late := v.w64 (vr 4) (fun _ => 0) }),
      inTwo demo (.func idleCtl .rn .f32 .exp (vr 1) (vr 2)) (fun v => v.active == 0) keep,
      inTwo demo (.funca idleCtl .f32 .sin (vr 1) (vr 2)) (fun v => v.active == 0) keep,
      inTwo demo (.func2 idleCtl .rn .f32 .sincos (vr 4) (vr 2) Operand.unused) (fun v => v.active == 0) keep,
      [(demo, false), (halted demo, true)].all (fun x =>
        let s := functions x.1
        let mine := s.sfu.filter (fun o => o.core == 0 && !o.phase2)
        [(0, 0x80000001), (1, 0)].all (fun y => match mine[y.1]? with
          | some op => (mine.take y.1).all (fun o => o.latency != op.latency) && s.sfuHalted op == x.2 && op.slow == y.2
          | none => false)),
      [(oneLeft demo, false), (oneLeft (halted demo), true), (twoLeft demo, false)].all (fun x =>
        match x.1.sfu.find? (fun o => o.core == 0 && o.phase2) with
        | some op => x.1.sfuHalted op == x.2 && (Mask.lowest op.slow).any (fun l => op.slow &&& ~~~(BitVec.twoPow 32 l) ==
            (if op.slow.count == 1 then 0 else 0x80000000))
        | none => false)] = true := by decide +kernel

def plain32 : MemMod := ⟨.warp, .plain, .w32⟩

/-- s4 holds the address of the data page, s5 one past a granule in the scratchpad. -/
def based : State := setS demo [(4, 0x30000), (5, 0x40)]

def loads (s : State) (m : MemMod) (b : Operand) (v : WarpView) : Bool :=
  match s.checkLanes v.gr (some v.is.w) (widthBytes m.width) .load (v.addrs b 0) with
  | (s1, .ok ps) => (!memSc m || s1.fenceReady v.gr v.agent .sc m.scope) &&
    (s1.loadPlaces v.gr v.agent v.w.stores (widthBytes m.width) ps).2.isSome
  | _ => false

def loadsH (s : State) (m : MemMod) (b : Operand) (h : HallView) : Bool :=
  match s.checkLanes h.gr none (widthBytes m.width) .load [(0, h.addr b 0)] with
  | (s1, .ok ps) => (!memSc m || s1.fenceReady h.gr h.agent .sc m.scope) &&
    (s1.agentLoad h.gr h.agent (s1.queueOf h.agent) (widthBytes m.width) ps).2.isSome
  | _ => false

def storesW (s : State) (m : MemMod) (a b : Operand) (v : WarpView) : Bool :=
  match s.checkLanes v.gr (some v.is.w) (widthBytes m.width) .store (v.addrs b 0) with
  | (s1, .ok ps) =>
    !writeSetFull v.gr (widthBytes m.width) (ps.map (fun p => (p, v.datum m.width a p.lane))) &&
      (!memSc m || s1.fenceReady v.gr v.agent .sc m.scope) && s1.releaseReady v.gr v.agent m
  | _ => false

def storesH (s : State) (m : MemMod) (a b : Operand) (h : HallView) : Bool :=
  match s.checkLanes h.gr none (widthBytes m.width) .store [(0, h.addr b 0)] with
  | (s1, .ok ps) =>
    !writeSetFull h.gr (widthBytes m.width) (ps.map (fun p => (p, (h.r64 false a).toNat % 256 ^ widthBytes m.width))) &&
      (!(stRelease m).isSome || s1.drained h.gr m.scope) && (!memSc m || s1.fenceReady h.gr h.agent .sc m.scope) &&
      s1.releaseReady h.gr h.agent m
  | _ => false

theorem test_meets_LoadsAndStores :
    let rel : MemMod := ⟨.system, .rel, .w32⟩
    let sc : MemMod := ⟨.system, .special, .w64⟩
    allOf [inTwo based (.ld k0 plain32 0 (vr 1) (.sreg 4)) (loads (byTwo based) plain32 (.sreg 4)) (put32 (vr 1)),
      inTwo based (.ld k0 sc 0 (vr 2) (.sreg 4)) (loads (byTwo based) sc (.sreg 4)) (put64 (vr 2)),
      inHall based (.ld k0 sc 0 (.sreg 1) (.sreg 4)) (loadsH (byHall based) sc (.sreg 4)),
      apMeets (byAp based) (.ld k0 plain32 0 (.sreg 1) (.sreg 0)) (fun h => loadsH ((byAp based)) plain32 (.imm 0x30000) h),
      inTwo based (.st k0 plain32 0 (vr 1) (.sreg 4)) (storesW (byTwo based) plain32 (vr 1) (.sreg 4)) keep,
      inTwo based (.st k0 rel 0 (vr 1) (.sreg 4)) (storesW (byTwo based) rel (vr 1) (.sreg 4)) keep,
      inHall based (.st k0 rel 0 (.sreg 1) (.sreg 4)) (storesH (byHall based) rel (.sreg 1) (.sreg 4)),
      inHall based (.st k0 sc 0 (.sreg 1) (.sreg 4)) (storesH (byHall based) sc (.sreg 1) (.sreg 4))] = true := by decide +kernel

/-- The lanes that an ATOM of a warp performs in this turn are all of them, or not. -/
def atomsW (s : State) (m : MemMod) (b : Operand) (all : Bool) (v : WarpView) : Bool :=
  v.atomRun.isNone && v.active != 0 &&
  match s.checkLanes v.gr (some v.is.w) 4 .atomic (v.addrs b 0) with
  | (s1, .ok ps) => v.gr.x.d2.isNone && s1.rmwReady v.gr v.agent ps (atomRel m) true m.scope &&
    decide (ps.length ≤ (s1.lanesNow v.gr ps.length).2) == all
  | _ => false

def redsW (s : State) (m : MemMod) (b : Operand) (v : WarpView) : Bool :=
  match s.checkLanes v.gr (some v.is.w) 4 .atomic (v.addrs b 0) with
  | (s1, .ok _) => v.gr.x.d2.isNone && s1.releaseReady v.gr v.agent m
  | _ => false

def atomsH (s : State) (m : MemMod) (b : Operand) (h : HallView) : Bool :=
  match s.checkLanes h.gr none 4 .atomic [(0, h.addr b 0)] with
  | (s1, .ok ps) => h.gr.x.d2.isNone && (!atomRel m || s1.drained h.gr m.scope) && s1.rmwReady h.gr h.agent ps (atomRel m) true m.scope
  | _ => false

def redsH (s : State) (m : MemMod) (b : Operand) (h : HallView) : Bool :=
  match s.checkLanes h.gr none 4 .atomic [(0, h.addr b 0)] with
  | (s1, .ok _) => h.gr.x.d2.isNone && s1.releaseReady h.gr h.agent m
  | _ => false

/-- The warp has performed its ATOM in lane 0 and has lane 31 left. -/
def performing : State :=
  based.modWarp 0 0 (fun w => { w with atom := some ⟨0x80000001, 0, [((31, 0x30000, 0x60000, 0), 5, 0)], [(0, 7)]⟩ })

theorem test_meets_GlobalAtomics :
    let m : MemMod := ⟨.device, .special, .w32⟩
    let p : MemMod := ⟨.device, .rel, .w32⟩
    let one : State := { based with issuer := .warp ⟨0, 0, 2, 0, hallSc based, true, false, none, none⟩ }
    let i1 : Instr := .atom k0 .cas m 0 (vr 2) (.sreg 4)
    allOf [inTwo performing (.atom k0 .cas m 0 (vr 2) (.sreg 4)) (fun v => v.atomRun.any (fun r =>
        (byTwo performing).rmwReady v.gr v.agent (r.rest.map (fun x => Place.mk x.1.1 x.1.2.1 x.1.2.2.1 x.1.2.2.2)) false false .device &&
          decide (r.rest.length ≤ ((byTwo performing).lanesNow v.gr r.rest.length).2))) (put32 (vr 2)),
      inTwo demo (.atom idleCtl .cas m 0 (vr 2) (.sreg 4)) (fun v => v.atomRun.isNone && v.active == 0) (put32 (vr 2)),
      i1.wellFormed && warpMeets one i1 (atomsW one m (.sreg 4) true) (put32 (vr 2)),
      inHall based (.atom k0 .add m 0 (.sreg 2) (.sreg 4)) (atomsH (byHall based) m (.sreg 4)),
      inTwo based (.red k0 .add p 0 (vr 2) (.sreg 4)) (redsW (byTwo based) p (.sreg 4)) keep,
      inHall based (.red k0 .add p 0 (.sreg 2) (.sreg 4)) (redsH (byHall based) p (.sreg 4))] = true := by decide +kernel

/-- On a core that is not determined a free value says how many lanes of an ATOM a turn performs: at least one, and maybe fewer than
all, which no state here can settle. -/
theorem test_lanesNow (s : State) (gr : Group) (n : Nat) (h : 1 ≤ n) :
    1 ≤ (s.lanesNow gr n).2 ∧ (s.lanesNow gr n).2 ≤ n := by
  unfold State.lanesNow State.draw
  split
  · exact ⟨h, Nat.le_refl n⟩
  · have : Config.choose s.fresh (n - 1) % (n - 1 + 1) < n - 1 + 1 := Nat.mod_lt _ (Nat.succ_pos _)
    dsimp only
    omega

/-- The granules of lanes 0 to 31 from offset 0x40 are full. -/
def filled : State := based.modX 0 (fun x => { x with full := (List.range 64).map (· + 4) })

theorem test_meets_ScratchpadAccesses :
    let xs := fun (v : WarpView) => v.saddrs (.sreg 5) 0
    let hs := fun (h : HallView) => [(0, h.saddr (.sreg 5) 0)]
    allOf [inWarp based (.lds k0 .w32 0 (vr 1) (.sreg 5)) (fun v => ((byWarp based).spadTrap v.gr 4 false (xs v)).isNone &&
          (spadLoads v.gr v.w.stores 4 (xs v)).isSome) (put32 (vr 1)),
      inWarp based (.sts k0 .w32 0 (vr 1) (.sreg 5)) (fun v => ((byWarp based).spadTrap v.gr 4 true (xs v)).isNone) keep,
      inWarp filled (.ldfe k0 true .w32 0 (vr 1) (.sreg 5)) (fun v => ((byWarp filled).spadTrap v.gr 4 false (xs v)).isNone &&
          (granules 4 (xs v)).all (fun g => v.gr.x.full.contains g && v.w.stores.all (fun x => !x.inSpad (16 * g) 16)) &&
          !v.gr.olderTakes v.is.w (granules 4 (xs v))) (put32 (vr 1)),
      inWarp based (.stfe k0 .w32 0 (vr 1) (.sreg 5)) (fun v => ((byWarp based).spadTrap v.gr 4 true (xs v)).isNone) keep,
      inWarp based (.stfeClr k0 0 (.sreg 5)) (fun v => ((byWarp based).spadTrap v.gr 16 true (xs v)).isNone) keep,
      inHall based (.lds k0 .w32 0 (.sreg 1) (.sreg 5)) (fun h => ((byHall based).spadTrap h.gr 4 false (hs h)).isNone &&
          (spadLoads h.gr h.gr.hall.stores 4 (hs h)).isSome),
      inHall based (.sts k0 .w32 0 (.sreg 1) (.sreg 5)) (fun h => ((byHall based).spadTrap h.gr 4 true (hs h)).isNone),
      inWarp based (.atoms k0 .add false 0 (vr 1) (.sreg 5)) (fun v => ((byWarp based).spadTrap v.gr 4 true (xs v)).isNone &&
          v.w.stores.isEmpty) (put32 (vr 1))] = true := by decide +kernel

/-- s6 describes a table of 128 sets at offset 0, the whole allocation of 4,096 bytes. -/
def tabled : State := setS demo [(6, 0x700000000)]

theorem test_tabled_open : ∀ lo n, (byWarp tabled).locked 0 (some 0) 0 lo n true = false := by
  have h : (byWarp tabled).latches = [] := by decide +kernel
  intro lo n
  simp [State.locked, h]

theorem test_meets_TagTables :
    let P := fun (v : WarpView) => v.active != 0 && v.gr.ctx == 0 && v.gr.id == 0 &&
      (match tagTable (v.r64 false (.sreg 6) 0) with
        | some (sets, base) => decide (base + 32 * sets ≤ v.gr.image.spad) && v.w.stores.all (fun x => !x.inSpad base (32 * sets))
        | none => false)
    allOf [inWarp tabled (.splook k0 (vr 4) (vr 2) (.sreg 6)) P (put64 (vr 4)),
      inWarp tabled (.sptag k0 (vr 1) (vr 2) (.sreg 6)) P keep, inWarp tabled (.sptagDel k0 (vr 1) (.sreg 6)) P keep] = true := by
  decide +kernel

def waits (s : State) (v : WarpView) : Bool :=
  (waitEnd v.prior).isNone &&
  match s.checkLanes v.gr (some v.is.w) 4 .load (v.addrs (.sreg 4) 0) with
  | (s1, .ok ps) =>
    match s1.waitSeen v.gr v.agent v.w.stores .eq 4 ps (fun l => (v.scalarSrc false false (vr 1) l).toNat) with
    | some now => (now ||| priorSeen v.prior) &&& v.active == v.active
    | none => false
  | _ => false

def waitsH (s : State) (h : HallView) : Bool :=
  (waitEnd h.prior).isNone &&
  match s.checkLanes h.gr none 4 .load [(0, h.addr (.sreg 4) 0)] with
  | (s1, .ok ps) =>
    match s1.waitSeen h.gr h.agent h.gr.hall.stores .eq 4 ps (fun _ => (h.r64 false (.sreg 1)).toNat % 256 ^ 4) with
    | some now => (now ||| priorSeen h.prior).has 0
    | none => false
  | _ => false

/-- Waits of the warp's lanes 0 and 31 and of the Hall that have seen their words and have ended. -/
def seen (s : State) : State :=
  let word := fun (l : Nat) => (⟨l, 0x30000, 0x60000, 0, 4, 0⟩ : WatchWord)
  (s.modWarp 0 0 (fun w => { w with waits := [⟨0x80000001, .waitmem 0x80000001 0 .eq [word 0, word 31], true⟩] })).modHall 0 (fun h =>
    { h with wait := some ⟨1, .waitmem 1 0 .eq [word 0], true⟩ })

theorem test_meets_FencesAndCaches :
    allOf [inWarp demo (.fence k0 .sc .system) (fun v => (byWarp demo).fenceReady v.gr v.agent .sc .system) keep,
      inHall demo (.fenceH k0 .sc .system) (fun h => (byHall demo).fenceReady h.gr h.agent .sc .system &&
        (byHall demo).drained h.gr .system),
      inTwo based (.waitmem k0 .eq .device false 0 (vr 1) (.sreg 4)) (waits (byTwo based)) keep,
      inHall based (.waitmem k0 .eq .device false 0 (.sreg 1) (.sreg 4)) (waitsH (byHall based)),
      inTwo (seen based) (.waitmem k0 .eq .device false 0 (vr 1) (.sreg 4)) (fun v => waitEnd v.prior == some .met) keep,
      inHall (seen based) (.waitmem k0 .eq .device false 0 (.sreg 1) (.sreg 4)) (fun h => waitEnd h.prior == some .met),
      inBoth (.pref k0 0 (.sreg 4)) (.pref k0 0 (.sreg 4)) keep,
      inHall demo (.cinvI k0 .device) (fun h => (byHall demo).drained h.gr .device && h.gr.hall.stores.isEmpty),
      inTwo based (.cinvL2 k0 0 (.sreg 4)) (fun v =>
        match (byTwo based).translateLanes v.gr (some v.is.w) (v.addrs (.sreg 4) 0) with
        | (_, .ok ls) => !ls.isEmpty
        | _ => false) keep,
      inHall based (.cinvL2 k0 0 (.sreg 4)) (fun h =>
        match (byHall based).translateLanes h.gr none [(0, h.addr (.sreg 4) 0)] with
        | (_, .ok _) => true
        | _ => false)] = true := by decide +kernel

/-- The group's latch registration has been granted. -/
def granted : State := setS { demo with latchWaits := [⟨0, 0, [], 0, true⟩] } [(2, 0x30000), (3, 64)]

def latched : State :=
  (setS demo [(2, 15)]).modX 0 (fun x => { x with latches := [⟨15, 0x30000, false⟩] })

/-- A registration of one range that fits. -/
def asking : State := { demo with latchWaits := [⟨0, 0, [⟨0, none, 0x30000, 64, true, .manual 0 0⟩], 0, false⟩] }

def queued : State :=
  demo.modWarp 0 0 (fun w => { w with stores := [.global [(0, (0x60000, 7)), (0, (0x60001, 8))] none] })

def committed : State := { demo with commits := [⟨0, 0, .warp 0 0, 0, 0, [(0x60000, 7)], none, false, false⟩] }

theorem test_meets_LatchesAndStores :
    let P := fun (h : HallView) => (freeHandle h.gr.x.latches).isSome &&
      !latchRefused h.gr false (h.r64 false (.sreg 2)).toNat (h.r64 false (.sreg 3)).toNat &&
      ((byHall granted).latchWait h.gr.id).any (fun w => w.granted)
    allOf [inHall granted (.latchSrc k0 false (.sreg 1) (.sreg 2) (.sreg 3)) P,
      inHall granted (.latchDst k0 false (.sreg 1) (.sreg 2) (.sreg 3)) P,
      inHall latched (.latchRel k0 false (.sreg 2)) (fun h =>
        h.gr.x.latches.any (fun l => l.handle == (h.r64 false (.sreg 2)).toNat && l.spad == false)),
      (match (asking.latchWaits.filter (fun w => w.ctx == 0 && !w.granted))[0]? with
        | some w => asking.latchFits w.ranges && !asking.latchAfter w &&
          (match State.traceGrants w.g (w.ranges.filter (fun r => r.spad.isNone)).length asking with
            | .go _ => true
            | _ => false)
        | none => false),
      (match queued.group? 0, queued.queueOf (.warp 0 0) with
        | some gr, x :: _ => queued.mayCommit gr (.warp 0 0) x
        | _, _ => false),
      (match (committed.commits.filter (fun e => e.core == 0))[0]? with
        | some e => mayPerform (committed.commits.filter (fun e => e.core == 0)) 0 e
        | none => false)] = true := by decide +kernel

/-- Numbers put into memory: an address, a size and a value. -/
def poked (s : State) (l : List (Nat × Nat × Nat)) : State :=
  { s with mem := l.foldl (fun m x => cellsPut m (cellsAt x.1 (leBytes x.2.1 x.2.2))) s.mem }

/-- The state that an outcome leaves. -/
def after (o : Host.Outcome State Fault Refusal) : State :=
  match o with
  | .next t => t
  | _ => State.reset

def demoGroup (s : State) : Group := (s.group? 0).getD placedGroup

/-- A second warp waits in SHMAP for the first. -/
def pairing : State :=
  demo.modGroup 0 (fun gr =>
    { gr with warps := gr.warps ++ gr.warps.map (fun w => { w with waits := [⟨allLanes, .shmap 40 0 8, false⟩] }) })

/-- The pair has been made. -/
def paired : State := after (exec (.shmap k0 (vr 40) (.imm 1) (.imm 8)) (byWarp pairing))

/-- A safe-point table of one entry at the start of the data page. -/
def safe : State := demo.modGroup 0 (fun gr => { gr with image := { gr.image with spTable := 0x30000, spCount := 1 } })

def gen1 : State := demo.modGroup 0 (fun gr => { gr with barriers := gr.barriers.map (fun x => { x with gen := 1 }) })

theorem test_meets_ExecutionInstructions :
    let together := fun (v : WarpView) => v.active != 0 && v.is.queued && v.active == v.w.liveMask
    let bar := fun (v : WarpView) => v.gr.barriers[0]?.getD ⟨0, 0, 0⟩
    allOf [inBoth (.nop k0) (.nop k0) keep,
      inWarp pairing (.shmap k0 (vr 40) (.imm 1) (.imm 8)) (fun v => together v && !v.mapRefused 40 1 8 &&
        v.gr.mapWait 1 == some (40, 0, 8) && v.s.regsFit v.gr (v.gr.mapNeeds 0 1 40 8) &&
        (match v.s.traceWake v.gr 1 (v.gr.queueIssue 1).lanes with
          | .go _ => true
          | _ => false)) keep,
      inWarp paired (.shmapOff k0 (vr 40) (.imm 0) (.imm 8)) (fun v => together v &&
        (v.gr.rangesOf 0).any (fun r => r.first == 40 && r.regs.length == 8)) keep,
      inWarp demo (.barMark k0 (.bar 0)) (fun v => together v && (bar v).expected != 0 && !v.hasArrived (bar v) && v.settled) keep,
      inWarp gen1 (.barHold k0 true (.bar 0) (.imm 0)) (fun v => together v && (bar v).expected != 0 &&
        (bar v).gen != BitVec.ofNat 16 (v.uniform (.imm 0) 16)) keep,
      inWarp (gen1.modWarp 0 0 (fun w => { w with tokens := [(0, 0)] })) (.barHold k0 false (.bar 0) Operand.unused)
        (fun v => together v && ((v.w.tokens.find? (fun t => t.1 == 0)).any (fun t => (bar v).gen != t.2))) keep,
      inWarp demo (.barGate k0 (.bar 0)) (fun v => together v && v.w.gated.isNone && !v.hasArrived (bar v) &&
        v.settled && decide ((bar v).expected ≤ ((bar v).arrived ||| 1).count) && v.s.group? 0 == some v.gr) keep,
      inWarp demo (.barSet k0 (.bar 0) (.imm 32)) (fun v => together v && (bar v).expected != 0 && (bar v).arrived == 0) keep,
      inWarp safe (.safept k0 (.imm 0)) (fun v => !v.w.privileged v.is.lanes && decide (0 < v.gr.image.spCount) &&
        (match v.s.safePoint v.gr 0 with
          | (_, .ok bytes) => entryOk bytes
          | _ => false)) keep,
      inWarp (demo.modWarp 0 0 (fun w => w.modThreads allLanes (fun t => { t with stub := true }))) (.safeptResume k0)
        (fun v => laneNumbers.all (fun l => !v.active.has l || (v.w.threads.get l).stub)) keep,
      inWarp demo (.yieldI k0 (.imm 0)) (fun _ => true) keep] = true := by decide +kernel

/-- Its warp has trapped and is in the handler. -/
def handled : State := byWarp (after (exec (.trap k0 (.imm 42)) (byWarp demo)))

theorem test_meets_Returns :
    allOf [(handled.warp? 0 0).any (fun w => w.privileged allLanes && w.epc == 0 && w.emask == allLanes && w.cinfoAddr == 42),
      ((byWarp demo).warp? 0 0).any (fun w => !w.privileged allLanes)] = true := by decide +kernel

/-- The Hall has a fault that its warp has come to. -/
def faulty : State :=
  demo.modHall 0 (fun h => { h with fault := some ⟨⟨.misaligned, 0, 0x30001, 0⟩, 0, 0, false⟩ })

theorem test_meets_TrapsAndDelivery :
    allOf [inWarp demo (.trap k0 (.imm 42)) (fun v => v.active != 0) keep, inWarp demo (.bkpt k0 (.imm 0xFFFFF)) (fun v => v.active != 0) keep,
      (match (demoGroup faulty).hall.fault, (demoGroup faulty).liveWarps.head?, faulty.warp? 0 0 with
        | some f, some n, some w => n == 0 && !f.delivered && (demoGroup faulty).resident && !faulty.silent (demoGroup faulty) &&
          w.rp == f.position && !w.selfFetching
        | _, _, _ => false),
      let late := demo.modX 0 (fun x => { x with wdog := 0x80000001 })
      (demoGroup late).resident && decide (late.effWdog 0 (demoGroup late).home < (demoGroup late).x.wdog.toNat)] = true := by
  decide +kernel

theorem test_meets_SpecialRegisters :
    allOf [inBoth (.rdsr k0 (vr 1) (.spr 0)) (.rdsr k0 (.sreg 1) (.spr 3)) (put32 (vr 1)),
      inWarp demo (.wrsr k0 (.spr 0x010) (.imm 0x11F)) (fun v => v.active != 0 && rmOk (v.r32 false (.imm 0x11F) 0)) keep,
      inWarp demo (.wrsr k0 (.spr 0x011) (.imm 0)) (fun v => v.active != 0) keep,
      warpMeets (byWarp (demo.modWarp 0 0 (fun w => { w with handler := some ⟨false, false, false, .softwareTrap, hallSc demo⟩ })))
        (.wrsr k0 (.spr 0x024) (vr 1)) (fun v => v.active != 0) keep,
      inBoth (.clk k0 (vr 2)) (.clk k0 (.sreg 1)) (put64 (vr 2)), inBoth (.clkVt k0 (vr 2)) (.clkVt k0 (.sreg 1)) (put64 (vr 2)),
      inWarp demo (.clkRet k0 (vr 2)) (fun _ => true) (put64 (vr 2))] = true := by decide +kernel

/-- An RCB of KIND 1, 2 or 3 at virtual 0x3_0100 that may be bound; s1 to s4 name it and what goes with it. -/
def rcbOf (kind : Nat) (s : State) : State := poked (setS s [(1, 0x20000), (2, 0x30100), (3, 0), (4, 0x20000)]) [(0x60100, 2, 0x0100), (0x60102, 1, kind)]

theorem test_meets_ContextOperations :
    let s := byHall (setS demo [(1, 0x20000)])
    let r := byHall (rcbOf 1 demo)
    allOf [inHall (setS demo [(1, 0x20000)]) (.ctxopSetf k0 128 (.sreg 4) (.sreg 1) (.imm 256)) (fun h =>
        match s.rcb? 0 (h.r64 false (.sreg 1)).toNat, setfField 128 with
        | some x, some f => (f != .trapVec || s.rget x .depth == 0) && setfRange f (h.r64 false (.imm 256)).toNat &&
          (s.rset x f (s.setfValue x f (h.r64 false (.imm 256)).toNat)).setfOk x f (s.rflag x 18)
        | _, _ => false),
      inHall (rcbOf 1 demo) (.ctxopRegion k0 (.sreg 8) (.sreg 2) (.sreg 4)) (fun h =>
        match r.ctx? 0, r.readBlock 0 0x30100 256 with
        | some x, (s1, .ok rb) => h.s64 2 == 0x30100 && h.s64 4 == 0x20000 && r.isRegion 0 0x20000 && s1.leafRcb 0 0x30100 1 0x20000 rb &&
          (match s1.readList x h.gr.image.super (h.s64 3).toNat with
            | (s2, .good _) => s2.latchFits [rcbLatch 0 0x30100]
            | _ => false)
        | _, _ => false),
      inWarp based (.ctxopTlbinv k0 (.sreg 4) (.imm 4096)) (fun v =>
        laneNumbers.all (fun l => !v.active.has l || !rangeBad (v.addr (.sreg 4) 0 l) (v.length (.imm 4096) l)) &&
        ((byWarp based).tlbDrop 0 ((Mask.lanes v.active).map (fun l => (v.addr (.sreg 4) 0 l, v.length (.imm 4096) l)))).isSome) keep,
      inHall based (.ctxopTlbinv k0 (.sreg 4) (.imm 4096)) (fun h => !rangeBad (h.r64 false (.sreg 4)).toNat 4096 &&
        ((byHall based).tlbDrop 0 [((h.r64 false (.sreg 4)).toNat, 4096)]).isSome)] = true := by decide +kernel

/-- A sealed trace of 4 entries at virtual 0x3_0000, its array at 0x3_0040. -/
def tracing : State := poked (setS demo [(1, 0x30000)]) [(0x60000, 2, 0x0100), (0x60002, 1, 2), (0x60008, 8, 4), (0x60018, 8, 0x30040)]

theorem test_meets_DeterminismLevels :
    let s := byHall tracing
    let P := fun (h : HallView) => s.drained h.gr .device && h.gr.hall.stores.isEmpty && s.boundDone h.gr
    let Q := fun (h : HallView) => P h &&
      match h.readHeader (s.closeTrace h.gr) (h.r64 false (.sreg 1)).toNat with
      | (s1, .ok (some bytes)) => traceOk bytes && blockN bytes 2 1 == 2 && s1.latchFits (traceLatches 0 0 0x30000 bytes) &&
        (h.r64 false (.sreg 1)).toNat % 64 == 0
      | _ => false
    allOf [inHall tracing (.detsetD0 k0 (.sreg 8)) P, inHall tracing (.detsetRec k0 true (.sreg 8) (.sreg 5)) (fun h => P h && h.r64 false (.sreg 5) == 0),
      inHall tracing (.detsetRec k0 true (.sreg 8) (.sreg 1)) Q, inHall tracing (.detsetPlay k0 false (.sreg 8) (.sreg 1)) Q] = true := by
  decide +kernel

/-- A block of `n` bytes that holds numbers: an offset, a size and a value each. -/
def blk (n : Nat) (l : List (Nat × Nat × Nat)) : List Byte :=
  (List.range n).map (fun i => match l.find? (fun x => decide (x.1 ≤ i) && decide (i < x.1 + x.2.1)) with
    | some x => BitVec.ofNat 8 (x.2.2 / 256 ^ (i - x.1))
    | none => 0)

/-! A nest descriptor at virtual 0x3_0000: one dimension, points 0 to 3, one landing row; its RCB is at 0x3_0100. The other nest is
scheduled, with the image of one task at 0x3_0200 and its work area at 0x3_0300. -/

def nestNumbers : List (Nat × Nat × Nat) := [(0, 2, 0x0100), (3, 1, 1), (6, 2, 1), (8, 8, 0x20000), (0x48, 4, 4)]
def taskNumbers : List (Nat × Nat × Nat) :=
  [(0, 2, 0x0100), (2, 1, 2), (3, 1, 1), (6, 2, 1), (8, 8, 0x20000), (0x18, 8, 0x30200), (0x20, 2, 1), (0x4F, 1, 1)]

def nesting : State := poked (rcbOf 2 demo) (nestNumbers.map (fun x => (0x60000 + x.1, x.2)))
def scheduling : State :=
  poked (rcbOf 2 demo) (taskNumbers.map (fun x => (0x60000 + x.1, x.2)) ++
    [(0x60200, 2, 0x0100), (0x60204, 4, 1), (0x60210, 8, 0x30300)])

/-- The nest bound with the handle 7, as the draw could give it. -/
def bindAs7 (s : State) (desc : List Byte) (tasks work : Nat) : State :=
  let t := s.makeRcb 0 0x30100 0x60100 0x20000 true
  let t := { t with nests := t.nests ++ [Nest.fresh (demoGroup s) 7 0x30100 (descOf 0x30000 desc [] tasks 0 work) desc] }
  (t.modCtx 0 (fun c => { c with handles := c.handles ++ [⟨7, 0x30100, true⟩] })).settleTree 0 []

def nested : State := bindAs7 nesting (blk 256 nestNumbers) 0 0
def scheduled : State := bindAs7 scheduling (blk 256 taskNumbers) 1 0x30300

def holds (b : List Byte) (l : List (Nat × Nat × Nat)) : Bool := l.all (fun x => blockN b x.1 x.2.1 == x.2.2)

def nestBinds (s : State) (nums : List (Nat × Nat × Nat)) (tb : List Nat × Nat × Nat × Nat) (h : HallView) : Bool :=
  let desc := blk 256 nums
  s.drained h.gr .device && h.gr.hall.stores.isEmpty && (descFails desc true).isNone &&
  match s.readBlock 0 0x30000 256 with
  | (s1, .ok bytes) => holds bytes nums &&
    match s1.readBlock 0 0x30100 256 with
    | (s2, .ok rb) => holds rb [(0, 2, 0x0100), (2, 1, 2)] &&
      match s2.ctx? 0, s2.rcb? 0 0x20000, s2.readTable 0 desc with
      | some x, some r, (s3, .ok tb') =>
        let d := descOf 0x30000 desc tb.1 tb.2.1 tb.2.2.1 tb.2.2.2
        let s4 : State := { s3 with fresh := s3.fresh + 1 }
        let rb := blk 256 [(0, 2, 0x0100), (2, 1, 2)]
        tb' == tb && s2.pageClass x 0x30000 == some 0 && decide (s2.rget r .kind ≤ 1) &&
          s3.leafRcb 0 0x30100 2 (h.leafParent (.imm 0) 0x20000) rb && !(s3.freeHandles x).isEmpty && !s4.workOverlaps 0 d &&
          decide ((s4.nests.filter (fun n => n.die == dieOf h.gr.core && s4.holdsWork n.ctx)).length < 1024) &&
          (s4.askLand h.gr 0x20000 d.charge (leafAllows rb d.charge)).2 &&
          [1, 4095].all (fun handle => s4.latchFits (nestLatches 0 handle 0x30100 d))
      | _, _, _ => false
    | _ => false
  | _ => false

/-- A free handle is always drawn where there is one, and nothing else changes. -/
theorem test_drawHandle_some (s : State) (c : Ctx) (h : s.freeHandles c ≠ []) :
    ∃ n, s.drawHandle c = ({ s with fresh := s.fresh + 1 }, some n) := by
  unfold State.drawHandle
  dsimp only
  split
  · rename_i e; exact absurd e h
  · have hl : (s.freeHandles c).length ≠ 0 := fun e => h (List.length_eq_zero_iff.mp e)
    simp only [State.draw, Nat.sub_add_cancel (Nat.one_le_iff_ne_zero.mpr hl)]
    rw [List.getElem?_eq_getElem (Nat.mod_lt _ (Nat.pos_of_ne_zero hl))]
    exact ⟨_, rfl⟩

def nestThere (s : State) (P : Nest → Bool) : Bool := (s.nest? 0 7).any P

def meetsNestsBegin : Bool :=
    let n := setS nesting [(4, 0x30000), (5, 0x30100)]
    let c := setS scheduling [(4, 0x30000), (5, 0x30100)]
    allOf [inHall n (.nbind k0 (.sreg 8) (.sreg 4) (.imm 0)) (nestBinds (byHall n) nestNumbers ([], 0, 0, 0)),
      inHall c (.nbind k0 (.sreg 8) (.sreg 4) (.imm 0)) (nestBinds (byHall c) taskNumbers ([], 1, 0, 0x30300)),
      let s := nested
      nestThere s (fun n => s.rowMayOpen n && s.landFirst 0 (s.nestAsk n) && (n.rowFault n.next).isNone),
      let s := scheduled
      nestThere s (fun n => n.desc.kind == 2 && !n.started && s.engineRuns 0 (.stair n.die) &&
        ((s.modNest 0 7 (fun n => { n with started := true })).copyPreds n n.desc.tasks 0).2)]

theorem test_meets_NestsBegin : meetsNestsBegin = true := by decide +kernel

/-- The nest's row is open; its first point is handed to the Hall's group, s8 naming it. -/
def opened : State := after (exec (.rowOpen 0 7) nested)
def refusing : State := { opened with rewrites := [⟨0, 0, 0, 7, true, 0, 0, none⟩] }
def popped : State := after (exec (.npop k0 false (.sreg 8)) (byHall opened))
def poppedD2 : State := popped.modX 0 (fun x => { x with d2 := some ⟨[], [], []⟩ })

def isFound {α : Type} (o : Offer α) : Bool := match o with
  | .found _ => true
  | _ => false

def isNone' {α : Type} (o : Offer α) : Bool := match o with
  | .none => true
  | _ => false

def meetsNestEntries : Bool :=
    let back := fun (s : State) (h : HallView) =>
      s.drained h.gr .device && h.gr.hall.stores.isEmpty &&
      (s.heldPoint h.gr).any (fun x => (h.r64 false (.sreg 8)).toNat % 65536 == x.1.handle &&
        (h.r64 false (.sreg 8)).toNat / 2 ^ 32 == x.2.serial % 2 ^ 32 && !x.1.beyond x.2)
    let d2 := fun (h : HallView) => ((byHall poppedD2).heldPoint h.gr).any (fun x => h.gr.x.d2.any (fun d =>
      x.1.handed.all (fun y => decide (x.2.serial ≤ y.serial) || y.late) &&
        ((byHall poppedD2).conflict x.1.ctx d (epochGet x.1.epochBytes (x.1.epoch x.2))).isNone))
    allOf [inHall opened (.npop k0 false (.sreg 8)) (fun h => h.gr.x.held.isNone && isFound ((byHall opened).offerTo h.gr)),
      inHall demo (.npop k0 true (.sreg 8)) (fun h => h.gr.x.held.isNone && isNone' ((byHall demo).offerTo h.gr) &&
        (match (byHall demo).traceTry h.gr with
          | .go _ => true
          | _ => false)),
      inHall popped (.ndoneOk k0 (.sreg 8)) (fun h => back (byHall popped) h && h.gr.x.d2.isNone),
      inHall popped (.ndoneFail k0 (.sreg 8) (.imm 255) (.sreg 2)) (back (byHall popped)),
      inHall popped (.ndoneKill k0 (.sreg 8) (.imm 0) (.sreg 2)) (back (byHall popped)),
      inHall poppedD2 (.ndoneOk k0 (.sreg 8)) (fun h => back (byHall poppedD2) h && d2 h)]

theorem test_meets_NestEntries : meetsNestEntries = true := by decide +kernel

/-- A rewrite of the nest's upper bound that the Stair has not answered, and one that it has. -/
def rewriting : State := { nested with rewrites := [⟨0, 0, 0, 7, true, 0, 8, none⟩] }
def answered : State := { rewriting with rewrites := [⟨0, 0, 0, 7, true, 0, 8, some 0⟩] }

def meetsBoundsAndJoins : Bool :=
    let due := fun (s : State) (P : Nat → Bool) =>
      ((s.rewrites.filter (fun w => w.die == 0 && w.answer.isNone))[0]?).any (fun w => s.engineRuns 0 (.stair 0) &&
        nestThere s (fun n => n.level == 0 && s.rewriteInTurn n (demoGroup s) && P (s.rewriteStatus n w.hi w.dim w.value)))
    let joins := fun (s : State) (done : Bool) (h : HallView) =>
      h.prior.isNone && h.gr.x.joinFaults.isEmpty &&
      (match s.readBlock 0 (h.r64 false (.sreg 2)).toNat 256 with
        | (s1, .ok bytes) => joinable (h.r64 false (.sreg 2)).toNat bytes && s1.rdone (s1.rcbAt 0 (h.r64 false (.sreg 2)).toNat) == done
        | _ => false)
    let ended := poked (rcbOf 2 demo) [(0x60104, 4, 0x20000)]
    allOf [inHall answered (.nxbnd k0 true 0 (.sreg 5) (.sreg 8) (.imm 8)) (fun h =>
        (answered.rewrites.find? (fun w => w.g == h.gr.id)).any (fun w => w.answer.isSome)),
      due rewriting (fun st => st == 0), due refusing (fun st => st != 0),
      inHall (rcbOf 2 demo) (.njoin k0 false true (.sreg 5) (.sreg 2)) (joins (byHall (rcbOf 2 demo)) false),
      inHall ended (.njoin k0 true false (.sreg 5) (.sreg 2)) (joins (byHall ended) true)]

theorem test_meets_BoundsAndJoins : meetsBoundsAndJoins = true := by decide +kernel

/-! A pipeline record at virtual 0x3_0000: a memory stream of four 16-byte items, one stage with a 16-byte parameter block, rings of 32
slots; its RCB is at 0x3_0300. -/

def pipeNumbers : List (Nat × Nat × Nat) :=
  [(0, 2, 0x0100), (2, 1, 1), (4, 2, 32), (8, 8, 0x30F00), (0x10, 8, 4), (0x18, 8, 16), (0x20, 8, 0x30400), (0x50, 8, 0x30E00),
   (0x58, 4, 16), (0x5C, 2, 32), (0x60, 8, 0x20000), (0x68, 8, 0x30900)]

def piping : State :=
  poked (setS demo [(4, 0x30000), (5, 0x30300)])
    (pipeNumbers.map (fun x => (0x60000 + x.1, x.2)) ++ [(0x60300, 2, 0x0100), (0x60302, 1, 3)])

def zeros16 : List Byte := List.replicate 16 0

def planOf (bytes : List Byte) : HPlan :=
  ⟨0x30000, 0x30300, 0x20000, blk 256 [(0, 2, 0x0100), (2, 1, 3)], bytes, [sourceRole bytes, stageRole bytes 0 zeros16], [], 0, false, 0⟩

/-- The checks of HBIND pass, with the plan of these bytes. -/
def pipeBinds (s : State) (nums : List (Nat × Nat × Nat)) (h : HallView) : Bool :=
  let rcd := blk 576 nums
  s.drained h.gr .device && h.gr.hall.stores.isEmpty && h.s64 6 == 0 && h.s64 7 == 0 &&
  match s.readBlock 0 0x30000 576 with
  | (s1, .ok bytes) => holds bytes nums &&
    match s1.readParams 0 rcd 1 with
    | (s2, .ok blocks) => blocks == [zeros16] &&
      match s2.readBlock 0 0x30300 256 with
      | (s3, .ok rb) =>
        let s4 : State := { s3 with fresh := s3.fresh + 3 }
        holds rb [(0, 2, 0x0100), (2, 1, 3)] && s3.leafRcb 0 0x30300 3 0x20000 (blk 256 [(0, 2, 0x0100), (2, 1, 3)]) &&
          (s3.ctx? 0).any (fun c => s3.allCached c 0x30000 576 && !(s3.freeHandles c).isEmpty) &&
          (s3.pipeFails 0 rcd [zeros16]).isNone && boundLevel (blockN rcd 6 1) h.gr == 0 && h.bindInTurn &&
          s3.attach 0 0 false (planOf rcd).roles == (0, []) && (s4.askLand h.gr 0x20000 2 (leafAllows (planOf rcd).leaf 2)).2 &&
          s4.latchFits ((planOf rcd).latches 0 1 [2, 3]) && s4.latchFits ((planOf rcd).latches 0 4095 [1, 4094])
      | _ => false
    | _ => false
  | _ => false

/-- A bound pipeline 1 of a source 2 and a stage 3, whose items go on to a sink where there is one; the source has appended
`n` items, and the stage `m`. -/
def bound3 (kind base count stride sink n m : Nat) (given : List HGiven) (s : State) : State :=
  let out : List Consumer := if sink = 0 then [] else [⟨none, 1, 0, false, none, false, false, 0⟩]
  { s with
    rcbs := s.rcbs ++ [⟨0, 0x30300, 0x60300⟩]
    insts :=
      [⟨0, 2, 0, 1, 0, .source kind base count stride, 0x30400, 32, n, [⟨some 3, 1, given.length, false, none, false, false, 0⟩], [], 0, false,
          false, false, [], [], [], 0, 0⟩,
       ⟨0, 3, 0, 1, 0, .stage 0 0x30E00 16 0x20000 0 zeros16, 0x30900, 32, m, out, given, 0, false, false, false, [], [], [], 0, 0⟩]
    pipes := [⟨0, 1, 0, 0x30300, 0, 0x30000, [2, 3], sink, 0, 0, 0, 1, [], (0, 0, 0)⟩] }

def streaming : State := bound3 0 0x30F00 4 16 0 0 0 [] demo

/-- The source's first item lies in its ring, and the stage's group holds it with s8 naming it. -/
def emitted : State := bound3 0 0x30F00 4 16 0 1 0 [] (poked demo [(0x60500, 4, 0x20002)])
def received : State :=
  (bound3 0 0x30F00 4 16 0 1 0 [⟨0, 0, 0x30300, false⟩] (setS demo [(8, 3)])).modX 0 (fun x => { x with held := some (.item 3 0 false) })

/-- With an external queue of one slot at virtual 0x3_0F80: as the source, one item in it, or as the sink, for which the stage
has produced an item. -/
def queueSource : State := bound3 1 0x30F80 0 0 0 0 0 [] (poked demo [(0x60F80, 8, 1), (0x60F90, 8, 1)])
def sinking : State := bound3 0 0x30F00 4 16 0x30F80 1 1 [] (poked demo [(0x60A00, 4, 0x20003), (0x60F90, 8, 1)])

def meetsPipelineBinding : Bool :=
    allOf [inHall piping (.hbind k0 .next false (.sreg 20) (.sreg 4)) (pipeBinds (byHall piping) pipeNumbers),
      inHall (setS streaming [(1, 1)]) (.hbindDrain k0 (.sreg 20) (.sreg 1)) (fun h => (byHall streaming).drained h.gr .device &&
        ((byHall streaming).pipe? 0 ((h.r64 false (.sreg 1)).toNat % 65536)).any (fun p => p.status == 1)),
      inHall (setS streaming [(1, 1)]) (.hbindCut k0 (.sreg 20) (.sreg 1)) (fun h =>
        ((byHall streaming).pipe? 0 ((h.r64 false (.sreg 1)).toNat % 65536)).any (fun p => p.status == 1))]

theorem test_meets_PipelineBinding : meetsPipelineBinding = true := by decide +kernel

def meetsPipelineItems : Bool :=
    let held := fun (h : HallView) => (byHall received).drained h.gr .device && h.gr.hall.stores.isEmpty && h.gr.x.d2.isNone &&
      ((byHall received).heldItem h.gr).any (fun x => (h.s64 8).toNat % 65536 == x.1.handle &&
        (h.s64 8).toNat / 2 ^ 32 == x.2.serial % 2 ^ 32 && x.1.room 1)
    let broken := bound3 0 0x30F00 4 16 0 4 0 [] demo
    let receivedD2 := received.modX 0 (fun x => { x with d2 := some ⟨[], [], []⟩ })
    allOf [inHall receivedD2 (.hsendOk k0 (.sreg 8)) (fun h => (byHall receivedD2).drained h.gr .device && h.gr.hall.stores.isEmpty &&
        ((byHall receivedD2).heldItem h.gr).any (fun x => x.1.room 1 && x.1.given.all (fun z => decide (x.2.serial ≤ z.serial)) &&
          h.gr.x.d2.any (fun d => ((byHall receivedD2).conflict x.1.ctx d (epochGet x.1.epochBytes (x.2.serial / 64 : Nat))).isNone))),
      inHall emitted (.hrecv k0 false (.sreg 8) (.sreg 30)) (fun h => h.gr.x.held.isNone && (match (byHall emitted).recvOffer h.gr with
        | .found x => ((byHall emitted).entryFault x).2.isNone
        | _ => false)),
      inHall streaming (.hrecv k0 true (.sreg 8) (.sreg 30)) (fun h => h.gr.x.held.isNone && isNone' ((byHall streaming).recvOffer h.gr)),
      inHall received (.hsendMore k0 (.sreg 8)) held, inHall received (.hsendOk k0 (.sreg 8)) held,
      inHall received (.hsendNone k0 (.sreg 8)) held, inHall received (.hsendFail k0 (.sreg 8) (.imm 255) (.sreg 2)) held,
      inHall received (.hsendKill k0 (.sreg 8) (.imm 0) (.sreg 2)) held,
      (streaming.insts[0]?).any (fun x => (match x.role with
          | .source kind base count stride => kind == 0 && decide (x.next < count) &&
            (match streaming.hingeRead 0 x.die ((base + x.next * stride) % 2 ^ 64) 16 with
              | (_, .ok _) => true
              | _ => false)
          | _ => false) && !x.stopped && !x.sent && !x.cut && x.room 1 && streaming.engineRuns 0 (.hinge x.die)),
      (broken.insts[0]?).any (fun x => (match x.role with
          | .source kind _ count _ => kind == 0 && decide (count ≤ x.next)
          | _ => false) && !x.stopped && !x.sent && !x.cut && x.room 1),
      (queueSource.insts[0]?).any (fun x => (match x.role with
          | .source kind base _ _ => kind == 1 && (match queueSource.queueRead 0 x.die base 24 with
            | (s1, .ok q) => decide (x.next < blockN q 0 8) && blockN q 16 8 != 0 &&
              (match s1.queueRead 0 x.die (base + 64 + 32 * (x.next % blockN q 16 8)) 32 with
                | (s2, .ok bytes) =>
                  let t := s2.append x 2 (dwordsOf (bytes.drop 8))
                  !(t.inst? x.ctx x.handle).any HInst.stopped && (match t.queueWrite 0 (base + 8) (leBytes 8 (x.next + 1)) with
                    | (_, none) => true
                    | _ => false)
                | _ => false)
            | _ => false)
          | _ => false) && !x.stopped && !x.sent && !x.cut && x.room 1),
      (match sinking.pipe? 0 1, sinking.insts.findSome? (fun y =>
          (y.consumers.find? (fun c => c.stage.isNone && c.pipe == 1)).map (fun c => (y, c))) with
        | some p, some (y, c) => !c.failed && (sinking.slotFault y c y.die).2.isNone &&
          (match sinking.nextItem y c, (sinking.slotFault y c y.die).1.queueRead 0 p.die p.sink 24 with
          | some (_, _, ws), (s1, .ok q) => decide (blockN q 0 8 - blockN q 8 8 < blockN q 16 8) && sinking.engineRuns 0 (.hinge p.die) &&
            (match s1.queueWrite 0 (p.sink + 64) ((0 :: ws).flatMap (fun w => leBytes 8 w.toNat)) with
              | (s2, none) => (s2.queueWrite 0 p.sink (leBytes 8 (blockN q 0 8 + 1))).2.isNone
              | _ => false)
          | _, _ => false)
        | _, _ => false)]

theorem test_meets_PipelineItems : meetsPipelineItems = true := by decide +kernel

/-! Access programs: q0 is a load queue and q1 a store queue of program 0. -/

def withQueues (s : State) (l : List ApQueue) (p : ApProgram) : State :=
  { (s.modX 0 (fun x => { x with programs := [p], queues := l })) with issuer := .ap 0 0 }
def prog0 : ApProgram := ⟨0, .running, false, 0, (hallSc demo).put [(4, 0x30000)] [], 3, 0, 0, 1, 2, none, [], []⟩
def slot1 (st : SlotState) : QueueSlot := ⟨st, allLanes, Lanes.of (fun _ => 0)⟩
def stored1 : State := withQueues demo [⟨0, 0, false, []⟩, ⟨1, 0, true, [slot1 .full]⟩] prog0
def loaded1 : State := withQueues demo [⟨0, 0, false, [slot1 .full]⟩, ⟨1, 0, true, []⟩] prog0
def flying1 : State :=
  withQueues demo [⟨0, 0, false, [slot1 .pending]⟩, ⟨1, 0, true, []⟩] { prog0 with flights := [⟨some 0, 0, [(0x60000, 0)], none, 0⟩] }

def meetsAccessPrograms : Bool :=
  let run := setS demo [(12, 0), (13, 0)]
  let ld := withQueues demo [⟨0, 0, false, []⟩, ⟨1, 0, true, []⟩] prog0
  let at_ := fun (s : State) (m : Mask) (acc : Access) (h : HallView) =>
    match s.checkLanes h.gr none 4 acc (h.qaddrs false 0 (.sreg 4) m) with
    | (s1, .ok ps) => some (s1, ps)
    | _ => none
  allOf [inHall run (.aprun k0 (.sreg 30) (.sreg 12) (.imm 0x201)) (fun h =>
      (byHall run).drained h.gr .device && h.gr.hall.stores.isEmpty && (maskNames 3).all (fun n => (h.gr.queue? n).isNone) &&
      (State.mapNames 0 (maskNames 3) ⟨0, []⟩ (byHall run)).2 && h.gr.x.asks.isNone && (byHall run).cycles == 0),
    apMeets ld (.aqld k0 false 0 (.queue 0) (.sreg 4)) (fun h => (at_ ld allLanes .load h).any (fun x => h.program.any (fun p =>
      decide (ld.apFlying h.gr.core < 64) && (h.gr.mapped 0 false).any (fun q => (reserve q (h.gr.flightsOf 0) .pending).any (fun slots =>
        ((x.1.modQueue h.gr.id 0 (fun k => { k with slots := slots })).launch h.gr p (some 0) 0 x.2).isSome))))),
    apMeets ld (.aqldSp k0 false 0 (.sreg 5) (.sreg 4)) (fun h => (at_ ld allLanes .load h).any (fun x => h.program.any (fun p =>
      (ld.spTrap h.gr 0).isNone && (x.1.launch h.gr p none 0 x.2).isSome))),
    apMeets stored1 (.aqst k0 false 0 (.queue 1) (.sreg 4)) (fun h => (at_ stored1 allLanes .store h).any (fun _ => h.program.any (fun p =>
      h.gr.x.d2.isNone && p.flights.isEmpty && (h.gr.mapped 1 true).any (fun q => !q.slots.isEmpty)))),
    apMeets ld (.aqsyn k0 .device) (fun h => h.program.any (fun p =>
      (p.counted (ld.coreDetermined h.gr.core) (ld.vtimeOf h.gr.ctx)).tokens != 0)),
    (flying1.group? 0).any (fun gr => ((gr.x.programs.flatMap (fun p => p.flights.map (fun f => (p, f))))[0]?).any (fun x =>
      (flying1.flightWords gr x.1 x.2).2.isSome))]

theorem test_meets_AccessPrograms : meetsAccessPrograms = true := by decide +kernel

def meetsQueues : Bool :=
  let calm := fun (s : State) (h : HallView) => (byHall s).drained h.gr .device && h.gr.hall.stores.isEmpty
  let stopped := withQueues demo [⟨0, 0, false, []⟩, ⟨1, 0, true, []⟩] { prog0 with state := .stopped }
  let closed := withQueues demo [⟨0, 0, false, []⟩, ⟨1, 0, true, []⟩] { prog0 with state := .ended }
  allOf [inWarp loaded1 (.qpop k0 (vr 1) (.queue 0)) (fun v => (v.gr.mapped 0 false).any (fun q => q.slots.any (fun e => e.state == .full)))
      (put32 (vr 1)),
    inWarp loaded1 (.qpush k0 (.queue 1) (vr 2)) (fun v => (v.gr.mapped 1 true).isSome && (v.gr.owner? 1).any (fun p => p.state == .running)) keep,
    inHall loaded1 (.qctlToken k0 (.sreg 31) (.queue 1) (.imm 4092)) (fun h => calm loaded1 h && (h.gr.owner? 1).any (fun p =>
      p.state != .ended && decide (p.tokens + p.late + 4092 ≤ 4095))),
    inHall stopped (.qctlRetry k0 (.sreg 31) (.queue 1)) (fun h => calm stopped h && (h.gr.owner? 1).any (fun p => p.state == .stopped)),
    inHall loaded1 (.qctlKill k0 (.sreg 31) (.queue 1)) (fun h => calm loaded1 h && (h.gr.owner? 1).any (fun p => p.state != .ended)),
    inHall loaded1 (.qctlStat k0 (.sreg 31) (.queue 1)) (calm loaded1),
    inHall closed (.qctlJoin k0 (.sreg 31) (.queue 1)) (fun h => calm closed h && h.joined 1)]

theorem test_meets_Queues : meetsQueues = true := by decide +kernel

/-! The matrix engine: the warp holds the key and tile 3, and s12 gives a command of one K-block with A at 0 and B at 16,384. -/

def bigSpad : State := demo.modGroup 0 (fun gr => { gr with image := { gr.image with spad := 65536 } })
def keyed : State :=
  { setS bigSpad [(12, 16384 * 2097152)] with
    keys := [⟨0, [(0, 0)], some (0, 0), none⟩], tiles := [⟨0, 3, 0, [], 0, none, false⟩] }
def mmaMod : MmaMod := ⟨.s8, .s8, .plain, false, true, false⟩
def command1 (eligible : Bool) (next : Nat) : MatCmd :=
  ⟨0, 0, 3, 0, 0, mmaMod, BitVec.ofNat 64 (16384 * 2097152), 0, [], 0, 0, eligible, 0, next⟩
def commanded (c : MatCmd) : State := { keyed with commands := [c], cycles := 64 }

def meetsMatrixCommands : Bool :=
  let w := commanded (command1 false 0)
  let e := commanded (command1 true 0)
  let d := commanded (command1 true 1)
  let none_ := commanded { command1 true 0 with mod := { mmaMod with mode := .tri }, cmd1 := 0xC0 }
  let bad := commanded { command1 true 0 with mod := { mmaMod with af := .bf16 } }
  let passes := fun (s : State) (P : MatCmd → Bool) => ((s.entries 0)[0]?).any (fun c => c.passable (s.entries 0) && s.passFirst (s.entries 0) c &&
    decide (s.passFrom c + c.cycles ≤ s.cycles.toNat) && !s.spadBusy c.g c.aoff c.aLen && !s.spadBusy c.g c.boff c.bLen &&
    (s.group? c.g).isSome && (s.commandTile c).isSome && P c)
  allOf [inWarp keyed (.mma k0 mmaMod (.tile 3) (.sreg 12) Operand.unused) (fun v =>
      let cmd := v.command mmaMod (.tile 3) (.sreg 12) Operand.unused
      v.active == allLanes && (v.s.key? v.gr.core).holder == some (0, 0) && (v.s.tile? v.gr 3).isSome && !cmd.badField && cmd.badLanes == 0 &&
      decide (cmd.aoff % 64 = 0) && decide (cmd.boff % 64 = 0) && decide (cmd.aoff + cmd.aLen ≤ v.gr.image.spad) &&
      decide (cmd.boff + cmd.bLen ≤ v.gr.image.spad) && v.s.commands.isEmpty && v.s.latchFits (cmd.latches v.gr.ctx) &&
      !v.s.spadBefore v.gr.core v.s.latchWaits) keep,
    ((w.entries 0)[0]?).any (fun c => !c.eligible && decide (c.posted + 16 ≤ w.cycles.toNat)),
    passes e (fun c => !c.empty && (badExp (cellGet []) c.mod.af (c.aBase c.next) c.pool).isNone), passes none_ MatCmd.empty,
    passes bad (fun c => !c.empty && (badExp (cellGet []) c.mod.af (c.aBase c.next) c.pool).isSome),
    ((d.entries 0)[0]?).any (fun c => decide (c.blocks ≤ c.next) && decide (c.since + 8 ≤ d.cycles.toNat))]

theorem test_meets_MatrixCommands : meetsMatrixCommands = true := by decide +kernel

def moves (n : Nat) (whole : Bool) (v : WarpView) : Bool :=
  v.active != 0 && (!whole || v.active == allLanes) && !v.s.unjoined v.gr v.is.w n &&
    ((v.s.tile? v.gr n).map v.s.tileNow).any (fun t => t.fault.isNone)

def spadFree (lo n : Nat) (v : WarpView) : Bool :=
  decide (lo % 64 = 0) && decide (lo + n ≤ v.gr.image.spad) && !v.s.locked v.gr.ctx (some v.gr.id) v.gr.id lo n true

def meetsTileMoves : Bool :=
  let pl := setS bigSpad [(16, 16384), (18, 0)]
  allOf [inWarp keyed (.mxmovRd k0 (vr 1) (.tile 3) (.imm 127)) (moves 3 false) (put32 (vr 1)),
    inWarp keyed (.mxmovWr k0 (.tile 3) (vr 1) (.imm 127)) (moves 3 false) keep,
    inWarp keyed (.mxmovZero k0 (.tile 3)) (moves 3 true) keep,
    inWarp keyed (.mxmovFlg k0 (vr 1) (.tile 3)) (moves 3 true) (put32 (vr 1)),
    inWarp keyed (.mxmovSt k0 .f32 true (.tile 3) (.sreg 20)) (fun v => moves 3 true v && spadFree (v.offset (.sreg 20) 64) 16384 v) keep,
    inWarp keyed (.mxmovLd k0 (.tile 3) (.sreg 20)) (fun v => moves 3 true v && spadFree (v.offset (.sreg 20) 64) 16384 v &&
      (spadLoad v.gr v.w.stores 16384 (0, v.offset (.sreg 20) 64)).isSome) keep,
    inWarp pl (.plane k0 .s8 0 (.sreg 16) (.sreg 18)) (fun v => v.active == allLanes && spadFree (v.offset (.sreg 16) 21) (aSize .s8) v &&
      decide (v.offset (.sreg 18) 21 + 64 * planeRow .s8 ≤ v.gr.image.spad) &&
      (spadLoad v.gr v.w.stores (64 * planeRow .s8) (0, v.offset (.sreg 18) 21)).isSome) keep]

theorem test_meets_TileMoves : meetsTileMoves = true := by decide +kernel

def meetsMatrixKeys : Bool :=
  let together := fun (v : WarpView) => v.active != 0 && v.is.queued && v.active == v.w.liveMask
  let ring := { keyed with keys := [⟨0, [(0, 0)], some (0, 0), none⟩] }
  let begun := ({ keyed with keys := [⟨0, [(0, 0)], none, none⟩] } : State).modWarp 0 0 (fun w =>
    { w with waits := [⟨allLanes, .mkeyTake 0, true⟩] })
  allOf [inWarp demo (.mkeyJoin k0) (fun v => together v && !(v.s.key? v.gr.core).members.contains v.me) keep,
    inWarp ring (.mkeyTake k0) (fun v => together v && (v.s.key? v.gr.core).members.contains v.me && (v.s.key? v.gr.core).takeable v.me && v.takeNow) keep,
    inWarp begun (.mkeyTake k0) (fun v => together v && (v.s.key? v.gr.core).free && v.takeNow) keep,
    inWarp keyed (.mkeyPass k0) (fun v => together v && (v.s.key? v.gr.core).holder == some v.me) keep,
    inWarp keyed (.mkeyLeave k0) (fun v => together v && (v.s.key? v.gr.core).members.contains v.me) keep,
    inWarp demo (.mkeyRsv k0 (.tile 31)) (fun v => together v && (v.s.tile? v.gr 31).isNone && v.s.rsvOpen v.gr 31 &&
      !v.s.rsvAfter v.gr v.is.w 31 0 && (v.s.rsvSince v.gr v.is.w 31).isNone && v.s.cycles == 0) keep,
    inWarp keyed (.mkeyRel k0 (.tile 3)) (fun v => together v && (v.s.tile? v.gr 3).isSome && v.s.commands.isEmpty) keep]

theorem test_meets_MatrixKeys : meetsMatrixKeys = true := by decide +kernel

/-! Fabric descriptors at virtual 0x3_0000: a copy of one element of 64 bytes, and a collective of one participant. -/

def fxgNumbers : List (Nat × Nat × Nat) := [(0, 2, 0x0100), (4, 4, 64), (8, 4, 1), (24, 8, 0x30400), (32, 8, 0x30800)]
def fxcNumbers : List (Nat × Nat × Nat) :=
  [(0, 2, 0x0100), (6, 2, 1), (8, 4, 1), (12, 4, 1), (20, 4, 1), (24, 4, 1), (32, 8, 0x30400), (40, 8, 0x30800)]

/-- The Hall has not read the descriptor, or it has and its registration for command 5 has been granted. -/
def fabricNew (nums : List (Nat × Nat × Nat)) : State :=
  poked (setS demo [(12, 0x30000)]) (nums.map (fun x => (0x60000 + x.1, x.2)))
def fabricAsked (nums : List (Nat × Nat × Nat)) : State :=
  { (fabricNew nums).modX 0 (fun x => { x with fabDesc := some (blk 128 nums) }) with
    latchWaits := [⟨0, 0, [⟨0, none, 0x30000, 128, false, .command 5⟩], 0, true⟩] }

def fabricAsks (s : State) (nums : List (Nat × Nat × Nat)) (h : HallView) : Bool :=
  s.drained h.gr .device && h.gr.hall.stores.isEmpty && h.gr.x.d2.isNone && h.gr.x.fabDesc.isNone &&
  match s.readBlock 0 (h.r64 false (.sreg 12)).toNat 128 with
  | (s1, .ok d) => holds d nums && (s1.ctx? 0).any (fun x => s1.allCached x 0x30000 128) && (askedId (s1.latchWait h.gr.id)).isNone &&
    decide (s1.slotsTaken (dieOf h.gr.core) h.gr.id < 64)
  | _ => false

def fabricIssues (s : State) (nums : List (Nat × Nat × Nat)) (h : HallView) : Bool :=
  s.drained h.gr .device && h.gr.hall.stores.isEmpty && h.gr.x.fabDesc == some (blk 128 nums) &&
    askedId (s.latchWait h.gr.id) == some 5 && (s.latchAsk h.gr []).2

def fab (nums : List (Nat × Nat × Nat)) (collective : Bool) (started : Nat) (flying served : List Nat) (party : Option Nat) : FabCmd :=
  ⟨5, 0, 0, 0, 0, collective, 0x30000, blk 128 nums, started, flying, served, 0, party, false, none, none, []⟩
def fabState (c : FabCmd) : State := { demo with fabric := [c] }

def meetsFabricIssue : Bool :=
  let g := fabricAsked fxgNumbers
  let c := fabricAsked fxcNumbers
  allOf [inHall (fabricNew fxgNumbers) (.fxg k0 (.sreg 30) (.sreg 12)) (fabricAsks (byHall (fabricNew fxgNumbers)) fxgNumbers),
    inHall (fabricNew fxcNumbers) (.fxc k0 (.sreg 30) (.sreg 12)) (fabricAsks (byHall (fabricNew fxcNumbers)) fxcNumbers),
    (fxgFails (blk 128 fxgNumbers)).isNone, inHall g (.fxg k0 (.sreg 30) (.sreg 12)) (fabricIssues (byHall g) fxgNumbers),
    (fxcFails (blk 128 fxcNumbers)).isNone, inHall c (.fxc k0 (.sreg 30) (.sreg 12)) (fabricIssues (byHall c) fxcNumbers)]

theorem test_meets_FabricIssue : meetsFabricIssue = true := by decide +kernel

/-- A dispatch whose table of one expert at virtual 0x3_0600 has a reserved byte that is not 0. -/
def badTable : List (Nat × Nat × Nat) :=
  [(0, 2, 0x0100), (2, 1, 3), (4, 4, 64), (8, 4, 1), (24, 8, 0x30400), (32, 8, 0x30800), (56, 8, 0x30600), (88, 4, 1)]

/-- The command may take its next step in the die: it has its plan, and a unit in flight or none; or its table is refused. -/
def plans (s : State) (ok flies : Bool) : Bool :=
  ((s.inHand 0)[0]?).any (fun c => s.engineRuns 0 (.fabric 0) && !s.sourceBusy c && (!c.collective || c.party.isSome) &&
    match s.planCommand c with
    | (_, .error _) => !ok
    | (s1, .ok p) => ok && (s1.startCommand { c with plan := some p }).2.flying == (if flies then [0] else []))

def meetsFabricSteps : Bool :=
  let emptyPlan : FabPlan := ⟨[], [], 0, []⟩
  let fresh := fabState (fab fxgNumbers false 0 [] [] none)
  let done := fabState (fab fxgNumbers false 1 [] [0] none)
  let served := fabState { fab fxgNumbers false 1 [] [] none with prog := 1, plan := some emptyPlan }
  let waiting := fabState { fab fxgNumbers false 1 [] [0] none with plan := some emptyPlan }
  let refused := { fabState (fab badTable false 0 [] [] none) with mem := (poked demo [(0x60605, 1, 1)]).mem }
  let gathers := fabState (fab fxcNumbers true 0 [] [] (some 5))
  let meeting := fabState (fab fxcNumbers true 0 [] [] none)
  let joined := fabState { fab fxcNumbers true 1 [] [] (some 5) with prog := 1 }
  allOf [plans fresh true true, plans gathers true true, plans waiting true false, plans refused false false,
    ((done.inHand 0)[0]?).any (fun c => done.engineRuns 0 (.fabric 0) && c.fault.isNone && c.served.contains c.prog),
    ((served.inHand 0)[0]?).any (fun c => c.flying.isEmpty && c.plan.isSome && decide (served.unitCount c ≤ c.prog)),
    ((meeting.inHand 0)[0]?).any (fun c => c.party.isNone && c.fault.isNone &&
      (let all := meeting.fabric.filter (fun x => x.collective && x.ctx == c.ctx && x.n 6 2 == c.n 6 2 && x.fault.isNone && !x.closed)
       let here := all.take c.parts
       here.contains c && here.length == c.parts && here.head?.isSome && all.all (fun x => x.party.isNone))),
    ((joined.inHand 0)[0]?).any (fun c => c.flying.isEmpty && joined.partyDone c && c.party.isSome)]

theorem test_meets_FabricSteps : meetsFabricSteps = true := by decide +kernel

/-- The Hall waits for a queue, or lanes of the warp for a barrier or for registers; the timer has passed SWAPLIM. -/
def hallWaits : State :=
  (demo.modHall 0 (fun h => { h with wait := some ⟨1, .quiesced 0x20000, false⟩ })).modX 0 (fun x => { x with waitTimer := 16385 })
def warpWaits (k : WaitKind) : State :=
  (demo.modWarp 0 0 (fun w => { w with waits := [⟨allLanes, k, false⟩] })).modX 0 (fun x => { x with waitTimer := 16385 })

/-- Its warp waits for registers in its handler. -/
def stalls (s : State) : State :=
  s.modWarp 0 0 (fun w => { w with handler := some ⟨false, false, false, .softwareTrap, hallSc demo⟩ })

def meetsWaitsAndSwaps : Bool :=
  let ends := fun (s : State) (a : Agent) => (s.group? 0).any (fun gr => !s.silent gr && gr.standing == .resident && s.placeAhead gr a &&
    ((gr.openWaits a).find? (fun x => s.waitMet gr a (agentWarp a) x)).any (fun x => !s.traced gr x ||
      (match s.traceWake gr (match a with | .warp _ n => n | _ => 255) (match a with | .warp _ _ => x.lanes | _ => 0) with
        | .go _ => true
        | _ => false)))
  let b := warpWaits (.barrier 0 5)
  let swaps := fun (s : State) => (s.group? 0).any (fun gr => gr.standing == .resident && !s.silent gr &&
    decide (s.effSwap gr.ctx gr.home < gr.x.waitTimer) && s.blockedWait gr && s.sfuFree gr && !s.someWaitMet gr &&
    (s.ctx? gr.ctx).all (fun c => !c.givesWay))
  let r := warpWaits (.registers 4 0)
  let one := stalls r
  let two := { one with groups := one.groups ++ one.groups.map (fun gr => { gr with id := 1, slot := 1 }) }
  let case := fun (s : State) (P : List Group → List Group → Bool) =>
    let gs := s.groups.filter (fun gr => gr.resident && gr.core == 0)
    let stalled := gs.filter (fun gr => gr.warps.any Warp.regStalled)
    gs.all (fun x => !s.silent x && s.sfuFree x && x.warps.all (fun w => !w.isLive || s.warpStuck x w)) &&
      P stalled (stalled.filter (fun gr => gr.handlerStall.isNone))
  allOf [ends { hallWaits with fresh := 1 } (.hall 0), ends { b with fresh := 1 } (.warp 0 0), swaps (warpWaits (.barrier 0 0)),
    case r (fun _ others => (r.youngestGroup others).isSome), case one (fun stalled others => others.isEmpty && stalled.length == 1),
    case two (fun stalled others => others.isEmpty && stalled.length == 2 && (two.youngestGroup stalled).isSome)]

theorem test_meets_WaitsAndSwaps : meetsWaitsAndSwaps = true := by decide +kernel

def standing (x : Standing) (ready : Bool) : State :=
  (demo.modGroup 0 (fun gr => { gr with standing := x, vslot := none })).modX 0 (fun e => { e with ready := ready, readyTimer := Config.quantum })

/-- Sixteen other groups fill core 0 while the swapped group is ready. -/
def crowded : State :=
  { standing .swapped true with groups := (standing .swapped true).groups ++ (List.range 16).map (fun i =>
      { placedGroup with id := 100 + i, slot := i }) }

def meetsResidency : Bool :=
  let grants := fun (s : State) (w : Standing) => (s.group? 0).any (fun gr => s.firstInLine gr && gr.standing == w && s.grantCore gr == some 0)
  let q : State := { demo with ctxs := [{ placedCtx with quanta := [⟨0x20000, Config.quantum⟩] }] }
  allOf [grants (standing .waiting false) .waiting, grants (standing .swapped true) .swapped, grants (standing .preempted false) .preempted,
    (crowded.group? 0).any (fun gr => crowded.firstInLine gr && (crowded.ctx? 0).any (fun c => gr.x.ready && crowded.admits c gr &&
      !crowded.canTake gr.core [gr] && crowded.bestCore c.num [gr] (c.cores.filter (fun k =>
        k != gr.core && (!crowded.clusterBound gr || clusterOf k == clusterOf gr.core))) == some 1)),
    (q.ctx? 0).any (fun c => c.state == .running && c.halt.isNone && c.preempting.isNone &&
      c.quanta.any (fun x => x.rcb == 0x20000 && decide (Config.quantum ≤ x.ran)))]

theorem test_meets_Residency : meetsResidency = true := by decide +kernel

def ctxState (f : Ctx → Ctx) : State := { demo with ctxs := [f placedCtx] }
def blankHalt : Halt := ⟨FaultInfo.blank, [], false, 0, []⟩

/-- A determined group whose rotation is over while its context is being pre-empted: the stop has begun, or not. -/
def rotating (begun : Bool) : State :=
  { demo with
    ctxs := [{ placedCtx with preempting := some ⟨none, [], 0, begun⟩, taken := [.hall 0, .warp 0 0] }]
    groups := demo.groups.map (fun (gr : Group) => { gr with
      x := { gr.x with level := 1 }, warps := gr.warps.map (fun (w : Warp) => { w with marked := some 0 }) }) }

def meetsStopsAndSamples : Bool :=
  let p := ctxState (fun c => { c with preempting := some ⟨none, [], 0, false⟩ })
  let h := ctxState (fun c => { c with halt := some blankHalt })
  let idle : State := { demo with groups := [] }
  let second : State := { idle with ctxs := [{ placedCtx with samples := [⟨0, 0, 0⟩] }], cycles := 2048 }
  let det := fun (f : Ctx → Ctx) => { ctxState f with groups := [{ placedGroup with standing := .swapped, x := { placedGroup.x with level := 1 } }] }
  allOf [(p.ctx? 0).any (fun c => c.engines.contains (.stair 0) && c.preempting.any (fun x => !x.acks.contains (.stair 0) && p.honoured 0 x) &&
      (p.stopEngine 0 none (.stair 0)).isSome),
    (demo.ctx? 0).any (fun c => c.engines.contains (.matrix 0) && c.state == .running),
    (h.ctx? 0).any (fun c => c.halt.any (fun x => !x.stopped.contains (.hinge 0)) && c.engines.contains (.hinge 0)),
    (idle.ctx? 0).any (fun c => idle.shutterAnd c && !c.rung), (demo.ctx? 0).any (fun c => !demo.shutterAnd c),
    (second.ctx? 0).any (fun c => !c.samples.isEmpty && second.shutterAnd c && decide (2048 ≤ second.cycles.toNat)),
    (let s := det id
     (s.ctx? 0).any (fun c => s.rotationOver c && c.preempting.isNone)),
    (let s := rotating false
     (s.ctx? 0).any (fun c => s.rotationOver c && c.preempting.any (fun p => !p.begun) && (s.missedWakes c).boundaryStops c)),
    (let s := (rotating false).modWarp 0 0 (fun w => { w with marked := none })
     (s.ctx? 0).any (fun c => s.rotationOver c && c.preempting.any (fun p => !p.begun) && !(s.missedWakes c).boundaryStops c)),
    (let s := rotating true
     (s.ctx? 0).any (fun c => s.rotationOver c && c.preempting.any (fun p => p.begun)))]

theorem test_meets_StopsAndSamples : meetsStopsAndSamples = true := by decide +kernel

/-! The stack controllers, the Cellar and the host. A host request is a record of 64 bytes that the Cellar has taken; the rings are in
host memory at device addresses 0x1000, 0x2000 and 0x3000. -/

def asked (s : State) (op used : Nat) (r : List Byte) : Bool :=
  s.cellar.taken == [r] && reqOp r == op && (s.cellar.hello || op == 1) && blockZero r 2 4 && blockZero r 10 16 && blockZero r used 64

theorem asked_sound {s : State} {op used : Nat} {r : List Byte} (h : asked s op used r = true) : Asked s op used r [] := by
  simp only [asked, Bool.and_eq_true, beq_iff_eq, Bool.or_eq_true] at h
  obtain ⟨⟨⟨⟨⟨h1, h2⟩, h3⟩, h4⟩, h5⟩, h6⟩ := h
  exact ⟨h1, h2, h3, h4, h5, h6⟩

/-- The state with one request taken after HELLO. -/
def asking1 (s : State) (r : List Byte) : State := { s with cellar := { s.cellar with status := 0, stage := 3, hello := true, taken := [r] } }

def record (op : Nat) (l : List (Nat × Nat × Nat)) : List Byte := blk 64 ((0, 2, op) :: l)

/-- Layer 5 is in service, or retired. -/
def retiredState : State := { demo with hbm := { demo.hbm with retired := [5] } }

def meetsStackCommands : Bool :=
  let r := record 8 []
  let by_ := fun (s : State) (P : State → Bool) => s.cellar.taken.isEmpty && P s && asked (asking1 s r) 8 64 r && P ((asking1 s r).took [])
  allOf [by_ demo (fun _ => true),
    by_ demo (fun s => s.hbm.swaps.all (fun w => w.stack != 23) &&
      s.hbm.moved.all (fun m => !(m.stack == 23 && m.layer == 11))),
    by_ retiredState (fun s => s.hbm.retired.contains 5), by_ demo (fun s => (s.ctx? 0).isSome),
    by_ demo (fun s => !s.hbm.retired.contains 5 && s.hbm.swaps.all (fun w => w.layer != 5))]

/-- The spare region that SPARE draws, the region swap that an epoch draws, and the verdict on an image are free values, so the clauses
that suppose one of them are met by whatever state has the others. -/
theorem test_meets_StackCommands : meetsStackCommands = true := by decide +kernel

/-- No context has a frame in layer 5, so every part of the capacity tier has room for it. -/
theorem test_meets_StackCommands_retire :
    ∃ part, ((List.range 64).map (fun i => ((demo.draw 63).1 + i) % 64)).find? (fun i => (demo.draw 63).2.partFree 5 i) = some part := by
  have h : ∀ i, (demo.draw 63).2.partFree 5 i = true := by
    intro i
    have : ((demo.draw 63).2.ctxs.flatMap (fun c => c.frames)).filter (fun f => inSlice 5 f.1) = [] := by decide +kernel
    simp only [State.partFree, this, List.all_nil]
  refine ⟨((demo.draw 63).1 + 0) % 64, ?_⟩
  rw [show List.range 64 = 0 :: (List.range 63).map (· + 1) by decide]
  simp [h]

def meetsRemapping : Bool :=
  let on : State := { demo with hbm := { demo.hbm with swapOn := true } }
  let due : State := { on with hbm := { on.hbm with swaps := [⟨23, 11, 0, 1907⟩] } }
  allOf [on.hbm.swapOn && on.hbm.swaps.all (fun w => w.stack != 23) && on.hbm.retired.isEmpty,
    (due.hbm.swaps.find? (fun w => w.stack == 23)).isSome]

theorem test_meets_Remapping : meetsRemapping = true := by decide +kernel

def recovering : State := { demo with cellar := { demo.cellar.recover 1 with nextSeq := 2 ^ 32 - 1 } }

def meetsBootAndAttestation : Bool :=
  let bare : State := { State.reset with cellar := { State.reset.cellar with store := none } }
  let chunk := fun (v : DWord) => recovering.cellar.status == 2 && v.toNat / 2 ^ 24 % 2 ^ 32 == recovering.cellar.nextSeq &&
    decide (1 ≤ v.toNat % 2 ^ 24) && decide (v.toNat % 2 ^ 24 ≤ 65528) &&
    decide (recovering.cellar.staged.length + v.toNat % 2 ^ 24 ≤ 2 ^ 30)
  let wrong := fun (v : DWord) (P : Nat → Bool) => recovering.cellar.status == 2 && v.toNat / 2 ^ 24 % 2 ^ 32 == recovering.cellar.nextSeq && P (v.toNat % 2 ^ 24)
  allOf [bare.cellar.status == 1 && bare.cellar.store.isNone, State.reset.cellar.status == 1 && State.reset.cellar.store.isSome,
    recovering.cellar.status != 1, State.reset.cellar.status != 2,
    (0x8 : DWord).toNat / 2 ^ 24 % 2 ^ 32 != recovering.cellar.nextSeq, wrong 0x00FFFFFFFF000000 (· == 0),
    wrong 0x00FFFFFFFF00FFF9 (fun n => decide (65528 < n)), chunk 0x00FFFFFFFF000001, chunk 0x00FFFFFFFF00FFF8,
    chunk 0x80FFFFFFFF000008 && (0x80FFFFFFFF000008 : DWord).toNat.testBit 63]

theorem test_meets_BootAndAttestation : meetsBootAndAttestation = true := by decide +kernel

/-- As many bytes as there may be can be staged, so that one byte more, in sequence, does not fit. -/
theorem test_meets_BootAndAttestation_full (n : Nat) : ∃ c : Cellar, c.status = 2 ∧ c.nextSeq = 0 ∧ n < c.staged.length + 1 :=
  ⟨{ recovering.cellar with nextSeq := 0, staged := List.replicate n 0 }, rfl, rfl, by simp⟩

/-- Three rings of one record each; the request ring holds one request. -/
def rings : State :=
  let s := poked demo [(2 * 2 ^ 48 + 0x1000, 8, 1), (2 * 2 ^ 48 + 0x1010, 8, 1), (2 * 2 ^ 48 + 0x2010, 8, 1), (2 * 2 ^ 48 + 0x3010, 8, 1),
    (2 * 2 ^ 48 + 0x1040, 8, 1)]
  { s with cellar := { s.cellar with status := 0, reqBase := 0x1000, rspBase := 0x2000, evtBase := 0x3000 } }

def ringsOpen : State := { rings with cellar := { rings.cellar with en := true } }

def meetsHostRegisters : Bool :=
  let good := fun (s : State) =>
    s.ringOk s.cellar.reqBase && s.ringOk s.cellar.rspBase && s.ringOk s.cellar.evtBase && s.ringsApart
  let event : State := { ringsOpen with cellar := { ringsOpen.cellar with events := [blk 128 []] } }
  allOf [rings.cellar.status == 0 && !rings.cellar.en && good rings,
    (let s : State := { rings with cellar := { rings.cellar with evtBase := 0x1000 } }
     s.cellar.status == 0 && !s.cellar.en && !good s),
    ringsOpen.cellar.en && ringsOpen.flush.cellar.en && hostPa ringsOpen.cellar.reqBase.toNat == some (2 * 2 ^ 48 + 0x1000) &&
      ringsOpen.ringProd (2 * 2 ^ 48 + 0x1000) == 1,
    recovering.cellar.status == 2,
    !event.flush.cellar.events.isEmpty && event.flush.cellar.events.all (fun e => (event.flush.ringPut event.flush.cellar.evtBase e).isSome)]

theorem test_meets_HostRegisters : meetsHostRegisters = true := by decide +kernel

/-- The versions that HELLO offers, at device address 0x1000. -/
def hailed : State :=
  poked demo ((List.range 8).map (fun i => (2 * 2 ^ 48 + 0x1000 + 8 * i, 4, 0x10000 + (i + 1))))

/-- A start list without regions and an empty image list, with an RCB of its own for the root at 0x3_0100. -/
def created : State :=
  let s := poked demo [(0x60000, 2, 0x0100), (0x60008, 8, 0x30100), (0x60010, 8, 0x30040), (0x60100, 2, 0x0100)]
  { s with groups := [], rcbs := [], ctxs := [{ placedCtx with state := .created, root := 0 }] }

/-- The module has links to two others. -/
def linkedTo (s : State) : State := { s with cellar := { s.cellar with links := [⟨0, 7⟩, ⟨1, 8⟩] } }

/-- One of the two is another module than this one, whatever the identity of this one is, so a module is reachable. -/
theorem test_meets_HostRequests_member (s : State) : ((linkedTo s).took []).reachable ≠ [] := by
  have hm : ∀ x : DWord, x ∈ ([7, 8] : List DWord) → x ≠ Config.identity → x ∈ ((linkedTo s).took []).reachable := by
    intro x hx hne
    refine List.mem_eraseDups.mpr (List.mem_map.mpr ?_)
    simp only [List.mem_cons, List.not_mem_nil, or_false] at hx
    obtain rfl | rfl := hx
    · exact ⟨(7, 1, 0), by simpa [Cellar.routes, linkedTo, State.took] using hne, rfl⟩
    · exact ⟨(8, 1, 1), by simpa [Cellar.routes, linkedTo, State.took] using hne, rfl⟩
  intro e
  rw [e] at hm
  by_cases h : (7 : DWord) = Config.identity
  · exact absurd (hm 8 (by simp) (fun e8 => absurd (h.trans e8.symm) (by decide))) List.not_mem_nil
  · exact absurd (hm 7 (by simp) h) List.not_mem_nil

def meetsHostRequests : Bool :=
  let ids := (List.range 8).map (· + 1)
  let hello := record 1 [(16, 8, 0x1000)]
  let h : State := { asking1 hailed hello with cellar := { (asking1 hailed hello).cellar with hello := false } }
  let alone := record 2 [(16, 1, 0x80), (60, 1, 0xFF), (61, 1, 0xFF), (62, 1, 15)]
  let member := record 2 [(16, 1, 0x80), (60, 1, 254), (61, 1, 1), (62, 1, 0)]
  let makes := fun (s : State) (r : List Byte) => asked s 2 63 r && createMask r != [] && decide (createPrio r ≤ 15) &&
    s.cellar.announcing.isNone && !(s.took []).createRefused r
  let a := asking1 demo alone
  let m0 := asking1 demo member
  let m := linkedTo m0
  let start := record 3 [(16, 8, 0x30000)]
  let st := asking1 created start
  let update := record 9 [(24, 8, 64)]
  let u0 := asking1 demo update
  let u : State := { u0 with cellar := { u0.cellar with updating := some [1] } }
  let f : State := { u0 with ctxs := [] }
  let cap := fun (w : Nat) => (asked (asking1 demo (record 10 [(16, 4, w)])) 10 20 (record 10 [(16, 4, w)]))
  let w : State := { m with cellar := { m.cellar with announcing := some ⟨member, [7, 8]⟩ } }
  allOf [asked h 1 24 hello && ids.all (fun i => versionOk ((h.took []).peekBytes (2 * 2 ^ 48 + 0x1000) 64) i),
    makes a alone && createGroup alone == 0xFF, makes m member && createGroup member != 0xFF,
    asked st 3 24 start && ((st.took []).ctx? (reqCtx start)).any (fun c => c.state == .created && ((st.took []).startList c 0x30000).any (fun t => (st.took []).startFits t c)),
    asked u 9 32 update && u.cellar.updating.isSome, asked f 9 32 update && f.cellar.updating.isNone && f.ctxs.isEmpty,
    cap 3000, cap 8500, w.cellar.announcing.any (fun x => x.waiting.filter (· != 7) != [] )]

/-- CREATE's `Makes` rests on the memory that the free values pick, and an accepted image on the free verdict. -/
theorem test_meets_HostRequests : meetsHostRequests = true := by decide +kernel

def meetsLivesOfContexts : Bool :=
  let at_ := fun (op : Nat) (s : State) (P : State → Ctx → Bool) =>
    asked (asking1 s (record op [])) op 16 (record op []) && (((asking1 s (record op [])).took []).ctx? (reqCtx (record op []))).any
      (P ((asking1 s (record op [])).took []))
  let gone := ctxState (fun c => { c with state := .preempted, imageArea := 0x60000 })
  allOf [at_ 4 demo (fun _ c => c.state == .running && c.halt.isNone),
    at_ 5 gone (fun s c => !c.givesWay && c.state == .preempted && (s.refusedItem c).isNone),
    at_ 6 gone (fun _ c => !c.givesWay && c.state == .preempted),
    at_ 6 (ctxState (fun c => { c with state := .frozen })) (fun _ c => !c.givesWay && c.state == .frozen), at_ 7 demo (fun _ _ => true)]

theorem test_meets_LivesOfContexts : meetsLivesOfContexts = true := by decide +kernel

def meetsModuleEvents : Bool :=
  let member : State := { demo with cellar := { demo.cellar with members := [⟨254, 1, 7, 0⟩] } }
  allOf [demo.cellar.members.all (fun m => !(m.group == 254 && m.dev == 1)) && demo.ctxs.all (fun c => !(c.group == 254 && c.device == 1)),
    member.cellar.members.any (fun m => m.group == 254 && m.dev == 1),
    decide (countAt demo.cellar.clock (Config.dies - 1) < 8) && decide (0 < Config.dies), !demo.cellar.absent.contains 7]

theorem test_meets_ModuleEvents : meetsModuleEvents = true := by decide +kernel

/-! A step of the machine. `fetched` is the state of a demonstration word; a queued entry is one that the Hall has written. -/

def fetched (w : Nat) : State := placeWord State.reset 96 w

/-- The Hall fetches the word at its PC. -/
def hallFetches (s : State) (P : State → Group → Instr → Bool) : Bool :=
  s.agenda == [.hall 0] &&
  (match s.nextTurn.2.takePlace (.hall 0) 0 with
  | (s2, true) => (s2.group? 0).any (fun gr => (s2.ctx? gr.ctx).any (fun c => s2.hallReady gr &&
      (match s2.fetchBytes c gr.core 2 (gr.codeAddr gr.hall.pc) 12 with
      | (s3, .ok bs) =>
        (match decodeBytes bs with
        | .ok i => (i.check false gr.image.super).isNone && P s3 gr i
        | .error _ => false)
      | _ => false)))
  | _ => false)

/-- The warp takes an entry, or fetches for itself. -/
def warpTurns (s : State) (P : State → Group → Warp → Bool) : Bool :=
  s.agenda == [.warp 0 0] &&
  (match s.nextTurn.2.takePlace (.warp 0 0) 0 with
  | (s2, true) => (s2.group? 0).any (fun gr => (gr.warps[0]?).any (fun w => gr.resident && !s2.silent gr && w.isLive &&
      !s2.skidDone gr w && !w.watchdog && P s2 gr w))
  | _ => false)

/-- s1 := s2 + 5 for the Hall, v1 := v2 + 5 for the warp, and a load of an access program. -/
def hallWord : Nat := 0x0000002D_04000420_00200005
def warpWord : Nat := 0x0000002C_01000008_00200005

def inHandler : State :=
  { (demo.modWarp 0 0 (fun w => { (w.modThreads allLanes (fun t => { t with handler := true })) with
      handler := some ⟨false, false, false, .illegalInstr, hallSc demo⟩ })) with
    mem := (fetched warpWord).mem, agenda := [.warp 0 0] }

def meetsStepRunsDecoded : Bool :=
  let ap := fetched 0x92000003_30000440_00200080
  allOf [hallFetches (fetched hallWord) (fun _ _ i => i.isHall || hallJump i),
    hallFetches { fetched warpWord with agenda := [.hall 0], groups := [placedGroup] } (fun s3 gr i =>
      !(i.isHall || hallJump i) && !s3.scalarPends gr (· == hallCheck) && !gr.queueFull && !s3.hallPends gr i && !(regionBranch i && s3.scalarPends gr (fun _ => true)) &&
      (s3.forwardTrap gr i).isNone),
    warpTurns (fetched warpWord) (fun s2 gr w => !w.selfFetching && !s2.entryYoung gr w &&
      s2.turnLanes gr w &&& w.liveLanes (fun t => !t.skip) == w.liveMask &&
      (gr.queue[w.rp - gr.queueBase]?).isSome),
    warpTurns inHandler (fun s2 gr w =>
      let m := s2.turnLanes gr w &&& w.liveLanes (fun t => !t.skip)
      w.selfFetching && (w.nextGang m).any (fun x => (s2.ctx? gr.ctx).any (fun c =>
        match (s2.modWarp 0 0 (fun y => y.rotate x.1 x.2 m)).fetchBytes c gr.core 2
          (gr.codeAddr (w.threads.get ((Mask.lowest x.2).getD 0)).pc) 12 with
        | (_, .ok bs) =>
          (match decodeBytes bs with
          | .ok i => (i.check (w.privileged x.2) gr.image.super).isNone && !(i.isHall || hallJump i)
          | .error _ => false)
        | _ => false))),
    ap.agenda == [.ap 0 0] && (match ap.nextTurn.2.takePlace (.ap 0 0) 0 with
      | (s2, true) => (s2.group? 0).any (fun gr => (gr.program? 0).any (fun q => (s2.ctx? gr.ctx).any (fun c =>
          s2.engineRuns gr.ctx (.accessProc gr.core) && !s2.sliceStopped gr (.accessProc gr.core) && q.state == .running &&
          gr.standing == .resident &&
          (match s2.fetchBytes c gr.core 2 (gr.codeAddr q.pc) 12 with
          | (_, .ok bs) =>
            (match decodeBytes bs with
            | .ok i => (apCheck i).isNone
            | .error _ => false)
          | _ => false))))
      | _ => false)]

theorem test_meets_StepRunsDecoded : meetsStepRunsDecoded = true := by decide +kernel

/-- An event of the agenda is the turn itself. -/
theorem test_meets_StepRunsDecoded_event : ∃ s1, ({ demo with agenda := [.event .powerLoss] } : State).nextTurn = (.event .powerLoss, s1) :=
  ⟨_, rfl⟩

theorem test_meets_EveryStepKeepsMemory : State.reset.mem.wf = true ∧ demo.mem.wf = true := by decide +kernel

theorem test_meets_RoundTrip : (encode (.iadd k0 i32 (vr 1) (vr 2) (.imm 5))).isSome = true := by decide

/-- An instruction that a warp may issue, with a guard c1 or p3 (negated). -/
def add1 (g : Guard) : Instr := .iadd { k0 with guard := g } i32 (vr 1) (vr 2) (.imm 5)

def meetsGuardsAndWaits : Bool :=
  let view := fun (s : State) (i : Instr) (guard : Bool) (P : Issue → WarpView → Bool) =>
    (i.check false false).isNone && i.encoded && !i.isHall && !i.isIll && !isTret i &&
    (let is : Issue := ⟨0, 0, allLanes, 0, hallSc s, guard, true, none, none⟩
     (({ s with issuer := .warp is } : State).warpView is i.ctl).any (P is))
  let far := demo.modWarp 0 0 (fun w => w.modThreads allLanes (fun t => { t with dist := Config.safePointLimit }))
  let late := demo.modWarp 0 0 (fun w => { w with pending := [⟨2, none⟩] })
  let empty := demo.modGroup 0 (fun gr => { gr with shared := [⟨0, 1, true, true, 1, List.replicate 2 (Lanes.all 0), [false, false]⟩] })
  let c1 := add1 ⟨false, true, 1⟩
  let stub := empty.modWarp 0 0 (fun w => w.modThreads allLanes (fun t => { t with stub := true }))
  allOf [view demo c1 false (fun is v => condOff is c1.ctl && v.tooFar == 0),
    view far c1 false (fun is v => condOff is c1.ctl && v.tooFar != 0),
    view late c1 true (fun is v => !condOff is c1.ctl && v.blocked c1),
    view empty c1 true (fun is v => !condOff is c1.ctl && !v.blocked c1 && v.active != 0 && v.sharedEmpty c1 != [] && !v.inStub && v.w.atom.isNone),
    view stub c1 true (fun is v => !condOff is c1.ctl && !v.blocked c1 && v.active != 0 && v.sharedEmpty c1 != [] && v.inStub && v.w.atom.isNone),
    view demo (add1 ⟨true, false, 3⟩) true (fun _ _ => true)]

theorem test_meets_GuardsAndWaits : meetsGuardsAndWaits = true := by decide +kernel

/-- A warp issues in all lanes with nothing left to store. -/
theorem test_meets_RegisterFrame :
    (warpMeets (byWarp demo) (add1 ⟨false, false, 0⟩) (fun _ => true) (put32 (vr 1)) && (byWarp demo).outbox == []) = true := by
  decide +kernel

theorem test_meets_RegisterWrites : inTwo demo (add1 ⟨false, false, 0⟩) (fun _ => true) (put32 (vr 1)) = true := by decide +kernel

theorem test_meets_HallFrame :
    (hallMeets (byHall demo) (.iadd k0 i32 (.sreg 1) (.sreg 2) (.imm 5)) (fun _ => true) && (byHall demo).outbox == [] &&
      apMeets (byAp demo) (.iadd k0 i32 (.sreg 1) (.sreg 2) (.imm 5)) (fun _ => true) && (byAp demo).outbox == []) = true := by
  decide +kernel

def meetsStoresReachMemory : Bool :=
  allOf [committed.mem.wf && committed.outbox == [] &&
      ((committed.commits.filter (fun e => e.core == 0))[0]?).any (fun e => mayPerform (committed.commits.filter (fun e => e.core == 0)) 0 e),
    queued.mem.wf && queued.outbox == [] && (queued.group? 0).any (fun gr =>
      (match queued.queueOf (.warp 0 0) with
      | .global _ _ :: rest => !(queued.setQueue (.warp 0 0) rest).coreDetermined gr.core
      | _ => false))]

theorem test_meets_StoresReachMemory : meetsStoresReachMemory = true := by decide +kernel

def withVec (v : Nat) : State := poked demo [(0x500A0, 8, v)]

def meetsTrapEntry : Bool :=
  let at_ := fun (s : State) (P : Group → Warp → Bool) => s.outbox == [] && (s.group? 0).any (fun gr => (gr.warps[0]?).any (P gr))
  let fatal := fun (s : State) (P : Group → Warp → Bool) => at_ s (fun gr w => P gr w && (s.ctx? gr.ctx).any (fun c =>
    c.state == .running && c.halt.isNone))
  allOf [at_ (withVec 1) (fun gr w => w.handler.isNone && (withVec 1).trapVec gr.ctx != 0 &&
      (List.range 32).all (fun l => !(w.threads.get l).live || !(w.threads.get l).stub)),
    fatal demo (fun _ _ => true), fatal inHandler (fun _ w => w.handler.isSome),
    fatal (withVec 0) (fun gr _ => (withVec 0).trapVec gr.ctx == 0)]

theorem test_meets_TrapEntry : meetsTrapEntry = true := by decide +kernel

/-- The word of ILL, and a warp that has issued it at handler privilege. -/
theorem test_meets_IllegalWord :
    (cut 89 7 (BitVec.allOnes 96) == 0x7F && (byWarp inHandler).issuer != .none &&
      ((byWarp inHandler).group? 0).any (fun gr => (gr.warps[0]?).any (fun w => w.handler.isSome))) = true := by decide +kernel

/-- Fields of PREF with offset 0x800000 and base s4, good and bad, and of XOR with both widths. -/
def prefFields (fn : BitVec 12) : Fields := ⟨0x5D, false, false, 0, false, false, false, 0, fn, 0, 0x110000, 0x200000⟩
def xorFields (fn : BitVec 12) : Fields := ⟨0x12, false, false, 0, false, false, false, 0, fn, 1, 2, 3⟩

def isOk {α : Type} (x : Except Reject α) : Bool := match x with
  | .ok _ => true
  | .error _ => false

theorem test_meets_Prefetch :
    (isOk (decodeFields (prefFields 0x800)) && isOk (Operand.decode (prefFields 0x800).b) && cut 0 8 (prefFields 1).fn != 0 &&
      inWarp demo (.pref k0 0x800000 (.sreg 4)) (fun _ => true) keep) = true := by decide +kernel

theorem test_meets_BitwiseLogic :
    ((xorFields 0x13).op == 0x12 && cut 5 7 (xorFields 0x13).fn == 0 && cut 0 4 (xorFields 0x13).fn == 0b0011 &&
      cut 0 4 (xorFields 0x14).fn == 0b0100 && cut 5 7 (xorFields 0x20).fn != 0 && isOk (Operand.decode (xorFields 0).a) &&
      isOk (Operand.decode (xorFields 0).b) && isOk (Operand.decode (xorFields 0).c)) = true := by decide

/-- The identity map of the stacks after reset, and stack 9 with its region 609 moved to 1202. -/
theorem test_meets_HbmMap :
    (State.reset.hbm.physical 9 2 609 == 609 &&
      ((State.reset.hbm.setPhysical 9 2 609 1202).physical 9 2 609 == 1202) &&
      paStack 0x494C36CEC5 == paStack 0x494C36CEC5) = true := by decide +kernel

end Sys2Proof.Tests
end

