-- ==== Sys2Proof/Proofs/Engines.lean ====
section
/-! PROOFS. How the engines of a context work together: operations on its RCBs, stops and shutter samples, and the host's requests
about its life. -/

namespace Sys2Proof.Machine

open Sys2Proof

/-! ### What a step comes to -/

/-- A step whose meaning ends in `t` leads to `t`: with `rfl` for `hx`, the meaning that `exec` gives the step is the `u` to compute. -/
theorem becomes_of_finish {i : Instr} {s t u : State} (hx : exec i s = finish s u) (hu : u = t) : Becomes i s t := by
  subst hu
  exact hx

/-- A Hall form that is done with effect `e` has that effect; its view names the state. -/
theorem inHall_of_runHall {i : Instr} {s : State} {h : HallView} {f : HallView → HallRes} {e : HallEff}
    (hx : exec i s = runHall i f s) (he : h.s = s → f h = .done e) : InHall i s h e :=
  fun _ hi => hx.trans (runHall_done hi (he hi.state))

/-! ### CTXOP (R250) -/

/-- A write that passes every check of SETF leaves its value in the field and answers 0. -/
theorem setf_accepted {s : State} {ctx va off v : Nat} {r : Rcb} {f : RcbField} (hr : s.rcb? ctx va = some r)
    (hf : setfField off = some f) (htop : f = .trapVec → s.rget r .depth = 0) (hv : setfRange f v = true)
    (hok : (s.rset r f (s.setfValue r f v)).setfOk r f (s.rflag r 18) = true) :
    s.setf ctx va off v = (s.rset r f (s.setfValue r f v), 0) := by
  have hdeep : (decide (f = .trapVec) && s.rget r .depth != 0) = false := by
    by_cases h : f = .trapVec
    · simp [htop h]
    · simp [h]
  simp [State.setf, hr, hf, hdeep, hv, hok]

/-- REGION past its checks: the region is made and its answer is 0. -/
theorem hallRegion_done {a b c : Operand} {h : HallView} {x : Ctx} {s1 s2 : State} {rb : List Byte} {l : List Image}
    (hx : h.s.ctx? h.gr.ctx = some x) (hp : h.s.isRegion h.gr.ctx (h.r64 false c).toNat = true)
    (ha : (h.s64 (sregNo b)).toNat % 256 = 0)
    (hb : h.s.readBlock h.gr.ctx (h.s64 (sregNo b)).toNat 256 = (s1, .ok rb))
    (hrcb : s1.leafRcb h.gr.ctx (h.s64 (sregNo b)).toNat 1 (h.r64 false c).toNat rb = true)
    (hl : s1.readList x h.gr.image.super (h.s64 (sregNo b + 1)).toNat = (s2, .good l))
    (hfit : s2.latchFits [rcbLatch h.gr.ctx (h.s64 (sregNo b)).toNat] = true) :
    hallRegion a b c h =
      .done { st := h.makeRegion s2 (h.s64 (sregNo b)).toNat (h.r64 false c).toNat l, s := sWrite a 0 } := by
  simp [hallRegion, hx, hp, ha, hb, hrcb, hl, hfit]

/-- Where no active lane names a bad range, no lane traps: the translations of all of them go. -/
theorem warpTlbinv_done {b c : Operand} {v : WarpView} {s1 : State}
    (hgood : ∀ l, l < 32 → v.active.has l = true → rangeBad (v.addr b 0 l) (v.length c l) = false)
    (hdrop : v.s.tlbDrop v.gr.ctx ((Mask.lanes v.active).map (fun l => (v.addr b 0 l, v.length c l))) = some s1) :
    warpTlbinv b c v = .done { st := s1 } := by
  have hbad : Mask.of (fun l => v.active.has l && rangeBad (v.addr b 0 l) (v.length c l)) = 0 := by
    refine of_eq_zero (fun l hl => ?_)
    cases hact : v.active.has l with
    | false => rfl
    | true => exact hgood l hl hact
  simp only [warpTlbinv, hbad, hdrop]
  rfl

theorem hallTlbinv_done {b c : Operand} {h : HallView} {s1 : State}
    (hgood : rangeBad (h.r64 false b).toNat (h.r64 false c).toNat = false)
    (hdrop : h.s.tlbDrop h.gr.ctx [((h.r64 false b).toNat, (h.r64 false c).toNat)] = some s1) :
    hallTlbinv b c h = .done { st := s1 } := by
  simp [hallTlbinv, hgood, hdrop]

/-! ### Engine stops (R19, R20, R23) -/

section Stops

variable {s : State} {c : Ctx} {ctx : Nat} {e : Engine}

/-- An engine that comes to its unit acknowledges an honoured pre-emption once. -/
theorem enginePreemptStop_becomes {p : Preempting} {s1 : State} (hc : s.ctx? ctx = some c) (he : e ∈ c.engines)
    (hp : c.preempting = some p) (hack : e ∉ p.acks) (hh : s.honoured ctx p = true)
    (hs : s.stopEngine ctx p.region e = some s1) :
    Becomes (.enginePreemptStop ctx e) s
      ((s1.modCtx ctx (fun c => { c with preempting := some { p with acks := p.acks ++ [e] } })).preemptDone ctx) :=
  becomes_of_finish rfl (by simp [hc, hp, he, hack, hh, hs])

/-- An uncorrectable error (cause 0x3F) that an engine meets raises the halt line of its running context. -/
theorem haltLineRaise_becomes {addr : Nat} (hc : s.ctx? ctx = some c) (he : e ∈ c.engines) (hrun : c.state = .running) :
    Becomes (.haltLineRaise ctx e 0x3F addr) s
      (s.raiseHalt ctx e { s.engineInfo ctx e with cause := 0x3F, cinfo := addr } false) :=
  becomes_of_finish rfl (by simp [hc, he, hrun])

/-- What ENGINE_HALT_STOP leaves of an engine that has not stopped yet. -/
def State.haltStop (s : State) (ctx : Nat) (c : Ctx) (h : Halt) (e : Engine) : State :=
  let t := s.settleCore ctx e
  let u := t.stopWrite c (64 * c.stopSlot e) (t.recordOf c h e)
  let h' := { h with stopped := h.stopped ++ [e] }
  let u := u.modCtx ctx (fun c => { c with halt := some h' })
  if c.engines.all (fun x => h'.stopped.contains x) then u.freeze c h' else u

theorem engineHaltStop_becomes {h : Halt} (hc : s.ctx? ctx = some c) (he : e ∈ c.engines) (hh : c.halt = some h)
    (hrun : c.state = .running) (hs : e ∉ h.stopped) :
    Becomes (.engineHaltStop ctx e) s (s.haltStop ctx c h e) :=
  becomes_of_finish rfl (by simp [hc, hh, he, hrun, hs, State.haltStop])

end Stops

/-! ### The shutter tree (R25, R26) -/

section Shutter

variable {s : State} {c : Ctx} {ctx : Nat}

theorem shutterSample_rises (hc : s.ctx? ctx = some c) (hrun : c.state = .running) (hh : c.halt = none)
    (hand : s.shutterAnd c = true) (hr : c.rung = false) :
    Becomes (.shutterSample ctx) s (s.modCtx ctx (fun c =>
      { c with rung := true, samples := c.samples ++ [⟨s.cycles.toNat, countSum c.sent, s.received c⟩] })) :=
  becomes_of_finish rfl (by simp [hc, hrun, hh, hand, hr])

theorem shutterSample_falls (hc : s.ctx? ctx = some c) (hrun : c.state = .running) (hh : c.halt = none)
    (hand : s.shutterAnd c = false) :
    Becomes (.shutterSample ctx) s (s.modCtx ctx (fun c => { c with rung := false })) :=
  becomes_of_finish rfl (by simp [hc, hrun, hh, hand])

/-- A second sample, 2,048 cycles after the first, reports quiescence exactly where all four sums and the AND agree. -/
theorem shutterSecondSample_becomes {x : Sample} {rest : List Sample} (hc : s.ctx? ctx = some c) (hrun : c.state = .running)
    (hh : c.halt = none) (hx : c.samples = x :: rest) (hdue : x.cycle + 2048 ≤ s.cycles.toNat) :
    let now := s.shutterAnd c
    let t := s.modCtx ctx (fun c => { c with samples := rest, rung := c.rung && now })
    Becomes (.shutterSecondSample ctx) s
      (if now = true ∧ x.sent = x.recv ∧ countSum c.sent = s.received c ∧ countSum c.sent = x.sent then t.reportQuiet c else t) :=
  becomes_of_finish rfl (by simp [hc, hrun, hh, hx, Nat.not_lt.mpr hdue, and_assoc])

end Shutter

/-! ### The end of a rotation (R293, R301) -/

section Rotation

variable {s : State} {c : Ctx} {p : Preempting}

theorem rotationEnd_becomes {ctx : Nat} {t : State} (hc : s.ctx? ctx = some c) (hrun : c.state = .running)
    (hover : s.rotationOver c = true) (ht : s.endRotation c = t) : Becomes (.rotationEnd ctx) s t :=
  becomes_of_finish rfl (by simp [hc, hrun, hover, ht])

/-- Without a request that is still to be honoured the next rotation begins. -/
theorem endRotation_of_no_request (h : c.preempting = none ∨ ∃ p, c.preempting = some p ∧ p.begun = true) :
    s.endRotation c = (s.missedWakes c).nextRotation c := by
  obtain h | ⟨p, h, hb⟩ := h
  · simp [State.endRotation, h]
  · simp [State.endRotation, h, hb]

/-- A request is honoured at a boundary where every determined warp is stoppable. -/
theorem endRotation_of_boundary (hp : c.preempting = some p) (hb : p.begun = false)
    (hs : (s.missedWakes c).boundaryStops c = true) : s.endRotation c = (s.missedWakes c).stopAtBoundary c p := by
  simp [State.endRotation, hp, hb, hs]

/-- A request that finds no such boundary waits, and after 65,536 rotations is honoured at the cost of the open traces. -/
theorem endRotation_of_no_boundary (hp : c.preempting = some p) (hb : p.begun = false)
    (hs : (s.missedWakes c).boundaryStops c = false) :
    s.endRotation c =
      (if p.since + 65536 ≤ c.vtime + 1 then (((s.missedWakes c).abandonTraces c).begin c p).nextRotation c
       else (s.missedWakes c).nextRotation c) := by
  simp [State.endRotation, hp, hb, hs]

end Rotation

/-! ### Requests of the host (R431) -/

section Requests

variable {s t : State} {r : List Byte} {rest : List (List Byte)} {c : Ctx} {op used : Nat}

/-- A legal request that can be carried out is, and malformed ones after it are answered. -/
theorem Asked.serve_eq (h : Asked s op used r rest) {f : List Byte → State → Option State} (hf : f r (s.took rest) = some t) :
    s.serve op used f = t.skipUnknown t.cellar.taken := by
  have hhello : (!s.cellar.hello && op != 1) = false := by
    obtain hh | hh := h.hello <;> simp [hh]
  have hf' : f r { s with cellar := { s.cellar with taken := rest } } = some t := hf
  simp [State.serve, h.head, h.names, hhello, h.zero1, h.zero2, h.zero3, hf']

/-- A request about a context that exists is carried out on it. -/
theorem Asked.serves_ctx (h : Asked s op used r rest) (hc : (s.took rest).ctx? (reqCtx r) = some c) {i : Instr}
    {f : List Byte → Ctx → State → State} (hx : exec i s = finish s (s.serveCtx op used f)) (hf : f r c (s.took rest) = t) :
    Serves i s t :=
  becomes_of_finish hx (h.serve_eq (by simp [hc, hf]))

/-- A pre-empted context none of whose items is refused runs again, with status 0. -/
theorem resumeCtx_accepted (h : s.refusedItem c = none) :
    s.resumeCtx c = (s.modCtx c.num (fun c => { c with state := .running }), 0) := by
  simp [State.resumeCtx, h]

theorem preempt_serves (h : Asked s 4 16 r rest) (hc : (s.took rest).ctx? (reqCtx r) = some c) (hrun : c.state = .running)
    (hh : c.halt = none) : Serves .preempt s (((s.took rest).hold r c).askPreempt c.num none) :=
  h.serves_ctx hc rfl (by simp [hrun, hh])

theorem resume_serves (h : Asked s 5 16 r rest) (hc : (s.took rest).ctx? (reqCtx r) = some c) (hg : c.givesWay = false)
    (hst : c.state = .preempted) (hok : (s.took rest).refusedItem c = none) :
    Serves .resume s (((s.took rest).modCtx c.num (fun c => { c with state := .running })).answer (reqTag r) 0 0) :=
  h.serves_ctx hc rfl (by simp [hg, hst, resumeCtx_accepted hok])

theorem reset_serves (h : Asked s 6 16 r rest) (hc : (s.took rest).ctx? (reqCtx r) = some c) (hg : c.givesWay = false)
    (hst : c.state = .preempted ∨ c.state = .frozen) :
    Serves .reset s (((s.took rest).resetCtx c.num).answer (reqTag r) 0 0) :=
  h.serves_ctx hc rfl (by simp [hg, hst])

theorem destroy_serves (h : Asked s 7 16 r rest) (hc : (s.took rest).ctx? (reqCtx r) = some c) :
    Serves .destroy s (((s.took rest).destroyCtx c).answer (reqTag r) 0 0) :=
  h.serves_ctx hc rfl rfl

end Requests

/-! ### The statements -/

/-- Settles O22: SETF and REGION past their checks are done, and TLBINV in both forms drops what it may drop. -/
theorem contextOperations : Obligations.ContextOperations := by
  unfold Obligations.ContextOperations
  refine ⟨?setf, ?region, ?tlbinv⟩
  case setf =>
    intro k field a b c s h r f v hr hf htop hv hok
    refine inHall_of_runHall rfl ?_
    rintro rfl
    rw [setf_accepted hr hf htop hv hok]
    rfl
  case region =>
    intro k a b c s s1 s2 h x rb l va parent hx hp ha hb hrcb hl hfit
    refine inHall_of_runHall rfl ?_
    rintro rfl
    exact hallRegion_done hx hp ha hb hrcb hl hfit
  case tlbinv =>
    intro k b c s s1
    constructor
    · intro v hgood hdrop hi hfit
      exact runBoth_done hi (warpTlbinv_done hgood (hi.state.symm ▸ hdrop)) hfit
    · intro h hgood hdrop g hi
      exact runBoth_hall hi (hallTlbinv_done hgood (hi.state.symm ▸ hdrop))

/-- Settles O38: the stops of one engine, the samples of the shutter tree, and the end of a rotation by what is asked for at it. -/
theorem stopsAndSamples : Obligations.StopsAndSamples := by
  unfold Obligations.StopsAndSamples
  refine ⟨fun ctx e s c hc he => ⟨?preempt, ?raise, ?halt⟩,
    fun ctx s c hc hrun => ⟨fun hh => ⟨?rise, ?fall, ?second⟩, fun hover => ⟨?next, fun p hp hb => ⟨?stop, ?goOn⟩⟩⟩⟩
  case preempt => exact fun p s1 hp hack hh hs => enginePreemptStop_becomes hc he hp hack hh hs
  case raise => exact fun addr hrun => haltLineRaise_becomes hc he hrun
  case halt => exact fun h hh hrun hs => engineHaltStop_becomes hc he hh hrun hs
  case rise => exact fun hand hr => shutterSample_rises hc hrun hh hand hr
  case fall => exact fun hand => shutterSample_falls hc hrun hh hand
  case second => exact fun x rest hx hdue => shutterSecondSample_becomes hc hrun hh hx hdue
  case next => exact fun h => rotationEnd_becomes hc hrun hover (endRotation_of_no_request h)
  case stop => exact fun hs => rotationEnd_becomes hc hrun hover (endRotation_of_boundary hp hb hs)
  case goOn => exact fun hs => rotationEnd_becomes hc hrun hover (endRotation_of_no_boundary hp hb hs)

/-- Settles O44: each request, legal and about a context in a state that allows it, is carried out on that context. -/
theorem livesOfContexts : Obligations.LivesOfContexts := by
  unfold Obligations.LivesOfContexts
  intro s r rest c s' hc
  exact ⟨fun h hrun hh => preempt_serves h hc hrun hh, fun h hg hst hok => resume_serves h hc hg hst hok,
    fun h hg hst => reset_serves h hc hg hst, fun h => destroy_serves h hc⟩

end Sys2Proof.Machine
end

