-- ==== Sys2Proof/Proofs/InstructionWord.lean ====
section
/-! PROOFS. The instruction word and its way through the machine: decoding and encoding, what holds an issue back, what an effect on
registers or scalars leaves, the execution family and the traps that programs raise, and what a turn of each agent comes to. -/

namespace Sys2Proof.Laws.RoundTrip

/-- Every row of the opcode table is read back from its own word; a row that no program issues has none (R32, R33, R37). -/
theorem statement_all : ∀ i, Statement i
  -- execution model
  | .nop k => nop k | .shmap k a b c => shmap k a b c | .shmapOff k a b c => shmapOff k a b c | .barGate k a => barGate k a
  | .barMark k a => barMark k a | .barHold k gen a b => barHold k gen a b | .barSet k a b => barSet k a b
  | .safept k c => safept k c | .safeptResume k => safeptResume k | .yieldI k c => yieldI k c
  -- memory
  | .ld k m off a b => ld k m off a b | .st k m off a b => st k m off a b | .lds k w off a b => lds k w off a b
  | .sts k w off a b => sts k w off a b | .ldfe k take w off a b => ldfe k take w off a b
  | .stfe k w off a b => stfe k w off a b | .stfeClr k off b => stfeClr k off b | .atom k op m off a b => atom k op m off a b
  | .atoms k op w64 off a b => atoms k op w64 off a b | .red k op m off a b => red k op m off a b
  | .splook k a b c => splook k a b c | .sptag k a b c => sptag k a b c | .sptagDel k a c => sptagDel k a c
  | .fence k kind sc => fence k kind sc | .fenceH k kind sc => fenceH k kind sc
  | .waitmem k cnd sc w64 off a b => waitmem k cnd sc w64 off a b | .pref k off b => pref k off b | .cinvI k sc => cinvI k sc
  | .cinvL2 k off b => cinvL2 k off b | .latchSrc k sp a b c => latchSrc k sp a b c
  | .latchDst k sp a b c => latchDst k sp a b c | .latchRel k sp b => latchRel k sp b | .latchGrant ctx i => latchGrant ctx i
  -- ordering
  | .storeCommit g => storeCommit g | .storePerformed core i => storePerformed core i
  -- integer
  | .iadd k m a b c => iadd k m a b c | .isub k m a b c => isub k m a b c | .imul k m a b c => imul k m a b c
  | .imulh k m a b c => imulh k m a b c | .imad k m a b c => imad k m a b c | .idiv k m a b c => idiv k m a b c
  | .irem k m a b c => irem k m a b c | .imin k m a b c => imin k m a b c | .imax k m a b c => imax k m a b c
  | .iabs k m a b => iabs k m a b | .ineg k m a b => ineg k m a b | .iaddc k w64 ix a b c => iaddc k w64 ix a b c
  | .isad k m a b c => isad k m a b c | .idot4 k bs cs sat a b c => idot4 k bs cs sat a b c
  | .asacc k sgn sat a b c => asacc k sgn sat a b c | .icmp k cmp ty a b c => icmp k cmp ty a b c
  | .isel k neg ix ty a b c => isel k neg ix ty a b c
  -- logic, bits, lanes
  | .and k nc w64 a b c => and k nc w64 a b c | .or k nc w64 a b c => or k nc w64 a b c
  | .xor k nc w64 a b c => xor k nc w64 a b c | .bitfn k w64 tbl a b c => bitfn k w64 tbl a b c
  | .shl k ty a b c => shl k ty a b c | .shr k ty a b c => shr k ty a b c | .rot k ty a b c => rot k ty a b c
  | .bfx k ty a b c => bfx k ty a b c | .bfi k ty a b c => bfi k ty a b c | .popc k w64 a b => popc k w64 a b
  | .clz k w64 a b => clz k w64 a b | .ctz k w64 a b => ctz k w64 a b | .brev k w64 a b => brev k w64 a b
  | .mov k w64 a b => mov k w64 a b | .movi k hi a b c => movi k hi a b c | .perm k z a b c => perm k z a b c
  | .pack k m a b c => pack k m a b c | .unpk3 k trap a b c => unpk3 k trap a b c | .isect k a b c => isect k a b c
  -- predicates and reductions
  | .pset k op nb nc inv a b c => pset k op nb nc inv a b c | .pmov k a b => pmov k a b | .pmovToreg k a b => pmovToreg k a b
  | .pmovFromreg k a b c => pmovFromreg k a b c | .vote k mode neg a b => vote k mode neg a b
  | .vred k op ty a b => vred k op ty a b | .hallCombine g => hallCombine g
  -- control flow
  | .bra k l off => bra k l off | .brx k l b => brx k l b | .meet k off => meet k off | .meetSv k off a => meetSv k off a
  | .meetLd k b => meetLd k b | .regionRelease g w => regionRelease g w | .call k off => call k off | .callx k b => callx k b
  | .ret k => ret k | .exit k => exit k | .loop k off a => loop k off a
  -- floating point
  | .fadd k m a b c => fadd k m a b c | .fsub k m a b c => fsub k m a b c | .fmul k m a b c => fmul k m a b c
  | .ffma k np na m a b c => ffma k np na m a b c | .fdiv k m a b c => fdiv k m a b c | .fsqrt k m a b => fsqrt k m a b
  | .fminmax k mx nan m a b c => fminmax k mx nan m a b c | .fabs k m a b => fabs k m a b | .fneg k m a b => fneg k m a b
  | .fcopys k m a b c => fcopys k m a b c | .fcmp k cmp m a b c => fcmp k cmp m a b c | .fclass k m a b c => fclass k m a b c
  | .frnd k x m a b => frnd k x m a b | .fcvt k m a b c => fcvt k m a b c | .icvt k m a b => icvt k m a b
  | .fexpoScale k m a b c => fexpoScale k m a b c | .fexpoGetexp k m a b => fexpoGetexp k m a b
  | .fexpoGetmant k m a b => fexpoGetmant k m a b | .fdot2 k m a b c => fdot2 k m a b c
  | .fmad2 k mad conj m a b c => fmad2 k mad conj m a b c | .fstatGet k a => fstatGet k a | .fstatClr k b => fstatClr k b
  | .fstatSet k b => fstatSet k b | .quant k a b c => quant k a b c | .cbdec k md a b c => cbdec k md a b c
  | .deq k src a b c => deq k src a b c
  -- special functions
  | .func k rm fmt fn a b => func k rm fmt fn a b | .funca k fmt fn a b => funca k fmt fn a b
  | .func2 k rm fmt fn a b c => func2 k rm fmt fn a b c | .sfuPhase1Complete core i => sfuPhase1Complete core i
  | .sfuPhase2Lane core => sfuPhase2Lane core
  -- traps and system
  | .tretRetry k => tretRetry k | .tretSkip k => tretSkip k | .tretKillpt k => tretKillpt k | .tretKillw k => tretKillw k
  | .tretFatal k => tretFatal k | .hallFaultDelivery g => hallFaultDelivery g | .trap k c => trap k c | .bkpt k c => bkpt k c
  | .ill k fn a b c => ill k fn a b c | .rdsr k a b => rdsr k a b | .wrsr k a b => wrsr k a b
  | .ctxopSetf k field a b c => ctxopSetf k field a b c | .ctxopRegion k a b c => ctxopRegion k a b c
  | .ctxopTlbinv k b c => ctxopTlbinv k b c | .watchdogExpiry g => watchdogExpiry g
  -- the Stair
  | .nbind k a b c => nbind k a b c | .npop k try_ a => npop k try_ a | .ndoneOk k a => ndoneOk k a
  | .ndoneFail k a b c => ndoneFail k a b c | .ndoneKill k a b c => ndoneKill k a b c
  | .nxbnd k hi d a b c => nxbnd k hi d a b c | .boundRewrite die i => boundRewrite die i
  | .njoin k q try_ a b => njoin k q try_ a b | .rowOpen ctx handle => rowOpen ctx handle
  | .scheduleStart ctx handle => scheduleStart ctx handle
  -- determinism and scheduling
  | .detsetD0 k a => detsetD0 k a | .detsetRec k d2 a b => detsetRec k d2 a b | .detsetPlay k d2 a b => detsetPlay k d2 a b
  | .clk k a => clk k a | .clkVt k a => clkVt k a | .clkRet k a => clkRet k a | .waitEnd g => waitEnd g
  | .waitSwap g => waitSwap g | .coreStallSwap core => coreStallSwap core | .groupMove g core => groupMove g core
  | .groupReadmission g core => groupReadmission g core | .groupPlacement ctx i core => groupPlacement ctx i core
  | .quantumExpiry ctx rcb => quantumExpiry ctx rcb | .enginePreemptStop ctx e => enginePreemptStop ctx e
  | .haltLineRaise ctx e cause addr => haltLineRaise ctx e cause addr | .engineHaltStop ctx e => engineHaltStop ctx e
  | .shutterSample ctx => shutterSample ctx | .shutterSecondSample ctx => shutterSecondSample ctx
  -- access processor
  | .aprun k a b c => aprun k a b c | .aqld k str off a b => aqld k str off a b | .aqldSp k str off a b => aqldSp k str off a b
  | .aqldComplete g i => aqldComplete g i | .aqst k str off a b => aqst k str off a b | .aqsyn k sc => aqsyn k sc
  | .qpop k a b => qpop k a b | .qpush k a b => qpush k a b | .qctlToken k a b c => qctlToken k a b c
  | .qctlRetry k a b => qctlRetry k a b | .qctlKill k a b => qctlKill k a b | .qctlStat k a b => qctlStat k a b
  | .qctlJoin k a b => qctlJoin k a b
  -- matrix engine
  | .mma k m a b c => mma k m a b c | .commandEligible cluster i => commandEligible cluster i
  | .matrixPass cluster i => matrixPass cluster i | .matrixCommandComplete cluster i => matrixCommandComplete cluster i
  | .mxmovRd k a b c => mxmovRd k a b c | .mxmovWr k a b c => mxmovWr k a b c | .mxmovSt k cv fe a b => mxmovSt k cv fe a b
  | .mxmovLd k a b => mxmovLd k a b | .mxmovZero k a => mxmovZero k a | .mxmovFlg k a b => mxmovFlg k a b
  | .mkeyJoin k => mkeyJoin k | .mkeyTake k => mkeyTake k | .mkeyPass k => mkeyPass k | .mkeyLeave k => mkeyLeave k
  | .mkeyRsv k a => mkeyRsv k a | .mkeyRel k a => mkeyRel k a | .plane k af nr b c => plane k af nr b c
  -- fabric engine
  | .fxg k a b => fxg k a b | .fxc k a b => fxc k a b | .fabricShare die i => fabricShare die i
  | .fabricUnitComplete die i => fabricUnitComplete die i | .collectiveCheck die i => collectiveCheck die i
  | .fabricCommandComplete die i => fabricCommandComplete die i
  -- the Hinge
  | .hbind k j lag a b => hbind k j lag a b | .hbindDrain k a b => hbindDrain k a b | .hbindCut k a b => hbindCut k a b
  | .hrecv k try_ a b => hrecv k try_ a b | .hsendOk k a => hsendOk k a | .hsendMore k a => hsendMore k a
  | .hsendNone k a => hsendNone k a | .hsendFail k a b c => hsendFail k a b c | .hsendKill k a b c => hsendKill k a b c
  | .sourceEmit i => sourceEmit i | .sinkWrite ctx handle => sinkWrite ctx handle | .endOfStream i => endOfStream i
  -- stack controllers
  | .epochEnd stack => epochEnd stack | .regionSwap stack => regionSwap stack
  | .swapcfg on factor offset => swapcfg on factor offset | .retire layer => retire layer | .restore layer => restore layer
  | .rotate ctx key => rotate ctx key | .spare stack layer region => spare stack layer region
  | .readcnt stack layer => readcnt stack layer
  -- the Cellar and the host
  | .boot => boot | .recoveryChunk v => recoveryChunk v | .getVersion req => getVersion req
  | .getCapabilities req => getCapabilities req | .negotiateAlgorithms req => negotiateAlgorithms req
  | .getDigests req => getDigests req | .getCertificate req => getCertificate req | .challenge req => challenge req
  | .getMeasurements req => getMeasurements req | .qenableWrite v => qenableWrite v | .doorbell v => doorbell v
  | .requestPoll => requestPoll | .registerWrite off v => registerWrite off v | .hello => hello | .create => create
  | .start => start | .preempt => preempt | .resume => resume | .reset => reset | .destroy => destroy | .update => update
  | .powercap => powercap | .eventPost => eventPost
  | .linkTraining port up major minor identity => linkTraining port up major minor identity
  | .fabricGroupAnnounce group dev identity ctx => fabricGroupAnnounce group dev identity ctx
  | .memberLeave group dev => memberLeave group dev | .thermalThrottle die => thermalThrottle die
  | .thermalTrip die => thermalTrip die | .expanderRemoved port => expanderRemoved port | .rotationEnd ctx => rotationEnd ctx
  | .powerLoss => powerLoss | .announceAcknowledgement identity => announceAcknowledgement identity
  | .acknowledgementTimeout => acknowledgementTimeout

end Sys2Proof.Laws.RoundTrip

namespace Sys2Proof.Machine

open Sys2Proof

section Rules

variable {s : State} {i : Instr} {v : WarpView} {is : Issue}

/-! ### The view of an issue -/

/-- A group that is known, after a change of it. -/
theorem group?_modGroup_of {g : Nat} {gr : Group} (hg : s.group? g = some gr) {f : Group → Group} (hf : ∀ x, (f x).id = x.id) :
    (s.modGroup g f).group? g = some (f gr) := by
  rw [group?_modGroup s g f hf, hg, Option.map_some]

/-- The view shows the group and the warp that the issue names. -/
theorem warpView_warp {k : Ctl} (hv : s.warpView is k = some v) : s.group? is.g = some v.gr ∧ v.gr.warps[is.w]? = some v.w := by
  unfold State.warpView at hv
  split at hv
  · cases hv
  next gr hg =>
    split at hv
    · cases hv
    next w hw => cases hv; exact ⟨hg, hw⟩

/-- A lane is active where it is a live lane of the path and a lane guard is true of it (R34, R62). -/
theorem warpView_active {k : Ctl} (hv : s.warpView is k = some v) {l : Nat} (hl : l < 32) :
    v.active.has l = (is.lanes.has l && (v.w.threads.get l).live &&
      (k.guard.cond || k.guard.ix == 0 || (v.w.pred k.guard.ix.toNat l != k.guard.neg))) := by
  unfold State.warpView at hv
  split at hv
  · cases hv
  · split at hv
    · cases hv
    · cases hv
      cases hk : k.guard.cond || k.guard.ix == 0
      · simp only [Bool.false_eq_true, if_false, has_of _ hl, Bool.false_or]
      · simp only [if_true, has_of _ hl, Bool.true_or, Bool.and_true]

/-! ### What holds an instruction back (R34, R74, R81, R204) -/

section Held

variable {f : WarpView → WarpRes}

theorem distanceTrap_near (hn : v.tooFar = 0) (t : Option Trap) : v.distanceTrap t = t := if_pos hn

theorem distanceTrap_far (hn : v.tooFar ≠ 0) : v.distanceTrap none = some (.plain .safepointDistance v.tooFar) := if_neg hn

/-- A false condition guard: the issue counts, and that is all. -/
theorem issueWarp_off (hv : s.warpView is i.ctl = some v) (hoff : condOff is i.ctl = true) (hn : v.tooFar = 0) :
    issueWarp i f is s = s.passWarp is := by
  simp [issueWarp, hv, hoff, distanceTrap_near hn]

/-- A lane too far from a safe point traps under a false condition guard too. -/
theorem issueWarp_off_far (hv : s.warpView is i.ctl = some v) (hoff : condOff is i.ctl = true) (hn : v.tooFar ≠ 0) :
    issueWarp i f is s = s.takeTrap is (.plain .safepointDistance v.tooFar) false := by
  simp [issueWarp, hv, hoff, distanceTrap_far hn]

theorem issueWarp_blocked (hv : s.warpView is i.ctl = some v) (hon : condOff is i.ctl = false) (hb : v.blocked i = true) :
    issueWarp i f is s = s := by
  simp [issueWarp, hv, hon, hb]

/-- An empty shared operand: the path waits, and in a rebuild stub, which may not wait, it traps (R74, R83). -/
theorem issueWarp_empty (hv : s.warpView is i.ctl = some v) (hon : condOff is i.ctl = false) (hb : v.blocked i = false)
    (ha : v.w.atom = none) (hact : v.active ≠ 0) (he : v.sharedEmpty i ≠ []) :
    issueWarp i f is s =
      if v.inStub then s.takeTrap is (.plain .illegalConvergence is.lanes) false
      else s.blockWarp is (.sharedRead (v.sharedEmpty i)) := by
  have hheld : (v.w.atom.isNone && v.active != 0 && !(v.sharedEmpty i).isEmpty) = true := by
    simpa [ha, he] using hact
  simp only [issueWarp, hv, hon, hb, hheld, Bool.false_eq_true, if_false, if_true]

end Held

/-! ### An effect on registers (R35, R39, R62, R72, R74, R180) -/

/-- The issuing warp and its group, as the state holds them. -/
theorem Issuing.warp (hi : Issuing s i v) : s.group? v.is.g = some v.gr ∧ v.gr.warps[v.is.w]? = some v.w :=
  warpView_warp hi.view

/-- What an effect that leaves the rest of the state alone makes of the group of its warp. -/
theorem group?_after (hi : Issuing s i v) {e : WarpEff} (he : e.st = s) :
    (v.after i e).group? v.is.g = some (v.gr.commit v i e (v.usableFrom i)) := by
  show (e.st.modGroup v.is.g _).group? v.is.g = _
  rw [he, group?_modGroup _ _ _ (fun gr => commit_id gr v i e _), hi.warp.1]
  rfl

theorem group?_after_other {e : WarpEff} (he : e.st = s) {g : Nat} (hg : g ≠ v.is.g) : (v.after i e).group? g = s.group? g := by
  show (e.st.modGroup v.is.g _).group? g = _
  rw [he, group?_modGroup_other _ _ (fun gr => commit_id gr v i e _) hg]

/-- Such an effect changes groups and nothing else. -/
theorem after_frame (hi : Issuing s i v) {e : WarpEff} (he : e.st = s) (ho : s.outbox = []) :
    v.after i e = { s with groups := (v.after i e).groups, issuer := .none } :=
  settle_modGroup s v.is.g (fun gr => gr.commit v i e (v.usableFrom i)) _
    (by rw [WarpView.after, WarpView.commit, he, hi.state]) ho

section Registers

variable {ws : List RegWrite} {ps : List (Nat × Mask × Mask)} {fs : List (Lanes (BitVec 5))} {n : Nat}

/-- The group of the warp once the registers of an instruction are written. -/
def WarpView.written (v : WarpView) (i : Instr) (ws : List RegWrite) : Group :=
  ws.foldl (fun gr x => gr.write v.is.w x) (freeAndTake v i)

/-- The group of the warp once an instruction that writes `ws`, `ps` and `fs` is over. -/
def WarpView.wrote (v : WarpView) (i : Instr) (ws : List RegWrite) (ps : List (Nat × Mask × Mask))
    (fs : List (Lanes (BitVec 5))) : Group :=
  v.gr.commit v i { st := v.s, writes := ws, preds := ps, flags := fs } (v.usableFrom i)

theorem written_oneWarp : OneWarp v.is.w v.gr (v.written i ws) := (freeAndTake_rel v i).trans (oneWarp_writes v.is.w ws _)

/-- After the registers, predicates and flags change within the warp alone. -/
theorem wrote_eq : v.wrote i ws ps fs =
    { (v.written i ws).modWarp v.is.w (afterWrites v i ps fs ws) with x := { (v.written i ws).x with waitTimer := 0 } } := rfl

/-- The group that wrote is as it was but for its warps, its shared registers and its wait timer. -/
theorem wrote_frame : v.wrote i ws ps fs = { v.gr with
    warps := (v.wrote i ws ps fs).warps, shared := (v.wrote i ws ps fs).shared, x := { v.gr.x with waitTimer := 0 } } := by
  rw [wrote_eq, written_oneWarp.grp]
  rfl

theorem wrote_warps_other (hn : n ≠ v.is.w) : (v.wrote i ws ps fs).warps[n]? = v.gr.warps[n]? :=
  (warps_modWarp_other (v.written i ws) _ hn).trans (written_oneWarp.others n hn)

/-- The warp that wrote: its registers first, then the rest. -/
theorem wrote_warp (hw : v.gr.warps[v.is.w]? = some v.w) :
    ∃ wp : Warp, wp = { v.w with regs := wp.regs, sinceV := wp.sinceV } ∧
      (v.wrote i ws ps fs).warps[v.is.w]? = some (afterWrites v i ps fs ws wp) := by
  obtain ⟨wp, hwp, heq⟩ := (written_oneWarp (i := i) (ws := ws)).mine _ hw
  exact ⟨wp, heq, (warps_modWarp (v.written i ws) v.is.w _).trans (by rw [hwp]; rfl)⟩

/-- What follows the registers leaves them. -/
theorem wrote_reg : (v.wrote i ws ps fs).reg v.is.w n = (v.written i ws).reg v.is.w n :=
  reg_modWarp (v.written i ws) v.is.w n (afterWrites v i ps fs ws)
    (fun wp => congrArg (fun w => regGet w.regs n) (afterWrites_frame v i ps fs ws wp))

/-- A register that the instruction neither writes nor frees. -/
theorem wrote_reg_other (hn : n ∉ ws.map (·.name)) (hf : n ∉ v.freed i) :
    (v.wrote i ws ps fs).reg v.is.w n = v.gr.reg v.is.w n := by
  rw [wrote_reg, WarpView.written, reg_writes_other _ _ _ hn, freeAndTake_reg v i n hf]

/-- A register as the writes find it: one that a hint has freed is 0. -/
theorem freeAndTake_reg_get {l : Nat} :
    ((freeAndTake v i).reg v.is.w n).get l = if n ∈ v.freed i then 0 else (v.gr.reg v.is.w n).get l := by
  split
  next h => rw [freeAndTake_freed v i n h]; simp
  next h => rw [freeAndTake_reg v i n h]

/-- A destination holds the new bits in the written lanes and its old bits elsewhere. -/
theorem wrote_reg_mem (hw : v.gr.warps[v.is.w]? = some v.w) (hn : (ws.map (·.name)).Nodup) {x : RegWrite} (hx : x ∈ ws)
    (hl0 : x.lanes ≠ 0) : (v.wrote i ws ps fs).reg v.is.w x.name =
      laneMerge ((freeAndTake v i).reg v.is.w x.name) x.lanes x.bits x.vals := by
  obtain ⟨wp, hwp, -⟩ := (freeAndTake_rel v i).mine _ hw
  rw [wrote_reg, WarpView.written, reg_writes_mem _ _ hn _ (by rw [hwp]; rfl) x hx hl0]

end Registers

/-! ### An effect on scalars and conditions (R39, R64, R81, R321) -/

section Scalars

variable {h : HallView} {g p : Nat} {ss : List (Nat × DWord)} {cs : List (Nat × Bool)} {pc : Option Word}

theorem Hallward.group (hi : Hallward s i g h) : s.group? g = some h.gr := by
  have hv := hi.view
  simp only [State.hallView, Option.map_eq_some_iff] at hv
  obtain ⟨gr, hg, rfl⟩ := hv
  exact hg

/-- The group and the program that an access program's view shows. -/
theorem Apward.program (hi : Apward s i g p h) :
    ∃ gr q, s.group? g = some gr ∧ gr.program? p = some q ∧ h = ⟨s, gr, .ap g p, q.sc, q.pc, none⟩ := by
  have hv := hi.view
  unfold State.apView at hv
  split at hv
  · cases hv
  next gr hg =>
    simp only [Option.map_eq_some_iff] at hv
    obtain ⟨q, hq, rfl⟩ := hv
    exact ⟨gr, q, hg, hq, rfl⟩

/-- The group once its Hall has written `ss` and `cs` and gone to `pc`, with the scalars that it holds back. -/
def Group.hallWrote (gr : Group) (ss : List (Nat × DWord)) (cs : List (Nat × Bool)) (pc : Option Word)
    (pending : Group → List (Nat × Nat)) : Group :=
  { gr with hall := { gr.hall.commit ss cs pc with pending := pending gr } }

/-- The effect of a Hall form, with what it holds back, is one change of the Hall. -/
theorem commit_holdScalars_eq {waited : Bool} : ∃ pending : Group → List (Nat × Nat),
    (HallEff.commit { st := s, s := ss, c := cs, pc := pc } g).holdScalars g i waited =
      s.modGroup g (·.hallWrote ss cs pc pending) := by
  obtain ⟨pending, hp⟩ := holdScalars_pending (HallEff.commit { st := s, s := ss, c := cs, pc := pc } g) g i waited
  exact ⟨fun gr => pending { gr with hall := gr.hall.commit ss cs pc }, hp.trans (modGroup_modGroup s g _ _ (fun _ => rfl))⟩

/-- The group with one of its access programs changed. -/
def Group.modProgram (gr : Group) (p : Nat) (f : ApProgram → ApProgram) : Group :=
  { gr with x := { gr.x with programs := gr.x.programs.map (fun q => if q.id == p then f q else q) } }

/-- An access program once it has written `ss` and `cs` and gone to `pc`. -/
def ApProgram.wrote (q : ApProgram) (ss : List (Nat × DWord)) (cs : List (Nat × Bool)) (pc : Word) : ApProgram :=
  { q with sc := q.sc.put ss cs, pc := pc, stalled := false }

/-- The effect of a Hall form on an access program is one change of the program. -/
theorem commitAp_eq : h.commitAp g p { st := s, s := ss, c := cs, pc := pc } =
    s.modGroup g (·.modProgram p (·.wrote ss cs (pc.getD (h.pc + 1)))) := rfl

theorem program?_modProgram (gr : Group) (f : ApProgram → ApProgram) (hf : ∀ q, (f q).id = q.id) :
    (gr.modProgram p f).program? p = (gr.program? p).map f := by
  simp only [Group.program?, Group.modProgram, find?_map_key ApProgram.id p (· == p) f hf]
  cases hq : gr.x.programs.find? (fun q => q.id == p) with
  | none => rfl
  | some q =>
    have hid : (q.id == p) = true := by simpa using List.find?_some hq
    simp only [Option.map_some, hid, if_true]

theorem program?_modProgram_other (gr : Group) (f : ApProgram → ApProgram) (hf : ∀ q, (f q).id = q.id) {n : Nat} (hn : n ≠ p) :
    (gr.modProgram p f).program? n = gr.program? n := by
  simp only [Group.program?, Group.modProgram, find?_map_key ApProgram.id n (· == p) f hf]
  cases hq : gr.x.programs.find? (fun q => q.id == n) with
  | none => rfl
  | some q =>
    have hid : q.id = n := by simpa using List.find?_some hq
    simp [hid, hn]

end Scalars

/-! ### Collective instructions (R34, R75, R77) -/

section Collective

variable {a b c : Operand} {k : Ctl} {gen : Bool} {n : Nat} {x : Barrier}

/-- A collective instruction that the whole warp has come to goes by its own result. -/
theorem collective_together (ht : v.Together) (r : WarpRes) : v.collective r = r := by
  obtain ⟨hact, hq, hall⟩ := ht
  have hgo : (!v.is.queued || v.active != v.w.liveMask) = false := by simp [hq, hall]
  rw [WarpView.collective, if_neg hact, hgo]
  rfl

/-- It finds a barrier that the group declares and that is usable (R76). -/
theorem onBar_found (ht : v.Together) (hx : v.gr.barriers[barNo a]? = some x) (he : x.expected ≠ 0) (f : Nat → Barrier → WarpRes) :
    v.onBar a f = f (barNo a) x := by
  simp only [WarpView.onBar, collective_together ht, hx, if_neg he]

/-- Two warps that name each other, the range and its length are paired (R75). -/
theorem warpShmap_done {s1 : State} (hk : k.guard.always = true) (ht : v.Together)
    (hr : v.mapRefused ((opName a).getD 0) (immNat b) (immNat c) = false)
    (hm : v.gr.mapWait (immNat b) = some ((opName a).getD 0, v.is.w, immNat c))
    (hf : v.s.regsFit v.gr (v.gr.mapNeeds v.is.w (immNat b) ((opName a).getD 0) (immNat c)) = true)
    (hw : v.s.traceWake v.gr (immNat b) (v.gr.queueIssue (immNat b)).lanes = .go s1) :
    warpShmap k a b c v =
      .done { st := s1.modGroup v.is.g (fun gr => gr.mapPair v.is.w (immNat b) ((opName a).getD 0) (immNat c)) } := by
  simp [warpShmap, hk, collective_together ht, hr, hm, hf, WarpView.pairUp, hw]

theorem warpShmapOff_done (hk : k.guard.always = true) (ht : v.Together)
    (hr : ∃ r ∈ v.gr.rangesOf v.is.w, r.first = (opName a).getD 0 ∧ r.regs.length = immNat c) :
    warpShmapOff k a c v = .done { st := v.s.modGroup v.is.g (fun gr => gr.unmap v.is.w ((opName a).getD 0)) } := by
  have hany : (v.gr.rangesOf v.is.w).any (fun r => r.first == (opName a).getD 0 && r.regs.length == immNat c) = true := by
    simpa using hr
  simp [warpShmapOff, hk, collective_together ht, hany]

theorem warpMark_done (ht : v.Together) (hx : v.gr.barriers[barNo a]? = some x) (he : x.expected ≠ 0)
    (hnot : v.hasArrived x = false) (hs : v.settled = true) :
    warpMark a v = .done { st := v.s.modGroup v.is.g (fun gr => gr.arrive (v.s.determined v.gr) v.is.w (barNo a)) } := by
  simp [warpMark, onBar_found ht hx he, hnot, hs]

/-- A wait on a generation is over once the barrier's differs (R77). -/
theorem awaitGen_done {g : BitVec 16} (hg : x.gen ≠ g) : v.awaitGen n x g = .done { st := v.s } := by
  simp [WarpView.awaitGen, hg]

theorem warpHold_done (ht : v.Together) (hx : v.gr.barriers[barNo a]? = some x) (he : x.expected ≠ 0)
    (hg : if gen then x.gen ≠ BitVec.ofNat 16 (v.uniform b 16)
      else ∃ t, v.w.tokens.find? (fun t => t.1 == barNo a) = some t ∧ x.gen ≠ t.2) :
    warpHold gen a b v = .done { st := v.s } := by
  rw [warpHold, onBar_found ht hx he]
  cases gen with
  | true => exact awaitGen_done hg
  | false =>
    obtain ⟨t, hfind, hne⟩ := hg
    simp only [Bool.false_eq_true, if_false, hfind]
    exact awaitGen_done hne

theorem completeBar_id (gr : Group) {d : Bool} : (gr.completeBar d n).id = gr.id := by
  unfold Group.completeBar
  split
  · rfl
  · split <;> rfl

theorem arrive_id (gr : Group) {d : Bool} {w : Nat} : (gr.arrive d w n).id = gr.id := by
  unfold Group.arrive
  split
  · rfl
  · exact completeBar_id _

/-- A barrier whose mask has reached its count starts a new generation (R76). -/
theorem completeBar_full {gr : Group} {d : Bool} (hx : gr.barriers[n]? = some x) (he : x.expected ≠ 0)
    (hl : x.expected ≤ x.arrived.count) :
    (gr.completeBar d n).barriers[n]? = some { x with arrived := 0, gen := x.gen + 1 } := by
  obtain ⟨hn, -⟩ := List.getElem?_eq_some_iff.mp hx
  have hfull : (x.expected ≤ x.arrived.count && x.expected != 0) = true := by simp [hl, he]
  simp only [Group.completeBar, hx, hfull, if_true, List.getElem?_set_self hn]

/-- The arrival of the last warp that a barrier expects starts its next generation (R76). -/
theorem arrive_completes {gr : Group} {d : Bool} {w : Nat} (hx : gr.barriers[n]? = some x) (he : x.expected ≠ 0)
    (hl : x.expected ≤ (x.arrived ||| BitVec.twoPow 32 w).count) :
    ((gr.arrive d w n).barriers[n]?).map (·.gen) = some (x.gen + 1) := by
  obtain ⟨hn, -⟩ := List.getElem?_eq_some_iff.mp hx
  simp only [Group.arrive, hx]
  rw [completeBar_full (x := { x with arrived := x.arrived ||| BitVec.twoPow 32 w }) (List.getElem?_set_self hn) he hl]
  rfl

/-- GATE of the last warp that its barrier expects arrives and does not wait (R77). -/
theorem warpGate_done (ht : v.Together) (hx : v.gr.barriers[barNo a]? = some x) (he : x.expected ≠ 0)
    (hgate : v.w.gated ≠ some (barNo a)) (hnot : v.hasArrived x = false) (hs : v.settled = true)
    (hl : x.expected ≤ (x.arrived ||| BitVec.twoPow 32 v.is.w).count) (hg : v.s.group? v.is.g = some v.gr) :
    warpGate a v = .done { st := v.s.modGroup v.is.g (fun gr => gr.arrive (v.s.determined v.gr) v.is.w (barNo a)) } := by
  have hid : ∀ gr : Group, (gr.arrive (v.s.determined v.gr) v.is.w (barNo a)).id = gr.id := fun gr => arrive_id gr
  have hnext : x.gen + 1 ≠ x.gen := by simp
  rw [warpGate, onBar_found ht hx he]
  simp only [if_neg hgate, hnot, hs, group?_modGroup_of hg hid, Option.bind_some, arrive_completes hx he hl, Option.some.injEq,
    if_neg hnext, Bool.false_eq_true, if_false, Bool.not_true]

theorem warpBarSet_done (ht : v.Together) (hx : v.gr.barriers[barNo a]? = some x) (he : x.expected ≠ 0)
    (hz : x.arrived = 0) (h1 : 1 ≤ v.uniform b 6) (h32 : v.uniform b 6 ≤ 32) :
    warpBarSet a b v = .done { st := v.s.modGroup v.is.g (fun gr =>
      { gr with barriers := gr.barriers.set (barNo a) { x with expected := v.uniform b 6 } }) } := by
  have h0 : v.uniform b 6 ≠ 0 := by omega
  simp [warpBarSet, onBar_found ht hx he, hz, h0, h32]

end Collective

/-! ### Safe points (R80 to R84) -/

theorem warpSafept_done {c : Operand} {st : State} {bytes : List Byte} (hp : v.w.privileged v.is.lanes = false)
    (hn : immNat c < v.gr.image.spCount) (hs : v.s.safePoint v.gr (immNat c) = (st, .ok bytes)) (hok : entryOk bytes = true) :
    warpSafept c v = .done { st := v.mark st (immNat c) } := by
  simp [warpSafept, hp, Nat.not_le.mpr hn, hs, hok]

/-- RESUME where every active lane is in a rebuild stub (R83). -/
theorem warpResume_done (hst : ∀ l, l < 32 → v.active.has l = true → (v.w.threads.get l).stub = true) :
    warpResume v = .done {
      st := v.s.modWarp v.is.g v.is.w (fun w => w.modThreads v.active (fun t => { t with stub := false, meet := t.stubMeet }))
      jump := some (Lanes.of (fun l => some (v.w.threads.get l).stubPc)) } := by
  have hnone : (Mask.lanes v.active).any (fun l => !(v.w.threads.get l).stub) = false := by
    simp only [List.any_eq_false, List.mem_filter, List.mem_range]
    rintro l ⟨hl, hact⟩
    simp [hst l hl hact]
  simp only [warpResume, hnone]
  rfl

/-! ### Software traps, Hall faults and the watchdog (R46, R231 to R233) -/

theorem softTrap_active {cause : Cause} {c : Operand} (hact : v.active ≠ 0) :
    v.softTrap cause c = .trap ⟨cause, v.active, BitVec.ofNat 64 (immNat c), 0⟩ := if_neg hact

/-- ILL traps in the whole path of the warp that issues it, whatever its fields hold (R232). -/
theorem exec_ill_warp {k : Ctl} {fn : BitVec 12} {a b c : BitVec 22} (hs : s.issuer = .warp is) :
    exec (.ill k fn a b c) s = .next (settle s (s.takeTrap is (.plain .illegalInstr is.lanes) false)) := by
  show execIll k fn a b c s = _
  simp only [execIll, hs]
  rfl

theorem reached_iff {gr : Group} {f : HallFault} {n : Nat} {w : Warp} (hw : gr.warps[n]? = some w) :
    gr.reached f n = true ↔ w.rp = f.position ∧ w.selfFetching = false := by
  simp [Group.reached, hw]

/-- The lowest live warp that has come to the Hall's fault takes it in its live lanes, at the fault's PC (R46). -/
theorem hallFaultDelivery_becomes {g n : Nat} {gr : Group} {f : HallFault} {w : Warp} (hg : s.group? g = some gr)
    (hf : gr.hall.fault = some f) (hn : gr.liveWarps.head? = some n) (hw : gr.warps[n]? = some w) (hd : f.delivered = false)
    (hr : gr.resident = true) (hs : s.silent gr = false) (hp : gr.reached f n = true) :
    Becomes (.hallFaultDelivery g) s
      ((s.modHall g (fun h => { h with fault := some { f with delivered := true } })).takeTrap
        ⟨g, n, w.liveMask, f.pc, gr.hall.sc, true, false, none, none⟩ f.trap true) :=
  becomes_of_finish rfl (by simp [hg, hf, hn, hw, hd, hr, hs, hp])

/-- A watchdog past its limit becomes pending in every live warp (R233). -/
theorem watchdogExpiry_becomes {g : Nat} {gr : Group} (hg : s.group? g = some gr) (hr : gr.resident = true)
    (hlim : s.effWdog gr.ctx gr.home < gr.x.wdog.toNat) :
    Becomes (.watchdogExpiry g) s (s.modGroup g (fun gr =>
      { gr with warps := gr.warps.map (fun w => if w.isLive then { w with watchdog := true } else w),
                x := { gr.x with wdog := 0 } })) :=
  becomes_of_finish rfl (by simp [hg, hr, Nat.not_le.mpr hlim])

/-! ### What a turn comes to (R32, R47, R64, R65, R68, R323) -/

section Turn

variable {s1 s2 : State} {g n p : Nat} {gr : Group} {w : Warp} {c : Ctx} {bs : List Byte}

/-- A step in which an agent that may move takes its turn runs what the turn comes to. -/
theorem step_hall (ht : s.nextTurn = (.hall g, s1)) (hp : s1.takePlace (.hall g) g = (s2, true)) :
    step s = runTurn s1 (s2.hallTurn g) := by
  simp only [step, ht, issueTurn, hp]

theorem step_warp (ht : s.nextTurn = (.warp g n, s1)) (hp : s1.takePlace (.warp g n) g = (s2, true)) :
    step s = runTurn s1 (s2.warpTurn g n) := by
  simp only [step, ht, issueTurn, hp]

theorem step_ap (ht : s.nextTurn = (.ap g p, s1)) (hp : s1.takePlace (.ap g p) g = (s2, true)) :
    step s = runTurn s1 (s2.apTurn g p) := by
  simp only [step, ht, issueTurn, hp]

/-- A fetch whose bytes can be read, decode and pass the checks gives the instruction (R32, R47). -/
theorem fetch_ok {pc : Word} {handler : Bool} (hc : s.ctx? gr.ctx = some c)
    (hb : s.fetchBytes c gr.core 2 (gr.codeAddr pc) 12 = (s1, .ok bs)) (hd : decodeBytes bs = .ok i)
    (hi : i.check handler gr.image.super = none) : s.fetch gr pc handler = (s1, .ok i) := by
  simp only [State.fetch, hc, hb, hd, hi]

section Hall

variable (hg : s.group? g = some gr) (hr : s.hallReady gr = true) (hs : s.scalarPends gr (· == hallCheck) = false)
  (hf : s.fetch gr gr.hall.pc false = (s1, .ok i))

include hg hr hs hf

/-- The Hall executes an instruction of its own. -/
theorem hallTurn_own (hown : (i.isHall || hallJump i) = true) : s.hallTurn g = ({ s1 with issuer := .hall g }, some i) := by
  simp only [State.hallTurn, hg, hr, hs, hf, hown]
  rfl

/-- The Hall forwards any other instruction where nothing holds it back. -/
theorem hallTurn_forward (hother : (i.isHall || hallJump i) = false) (hq : gr.queueFull = false) (hp : s1.hallPends gr i = false)
    (hb : (regionBranch i && s1.scalarPends gr (fun _ => true)) = false) (ht : s1.forwardTrap gr i = none) :
    s.hallTurn g = (s1.modGroup g (fun gr => gr.prune.forward i (s1.vtimeOf gr.ctx)), none) := by
  simp only [State.hallTurn, hg, hr, hs, hf, hother, hq, hp, hb, ht]
  rfl

end Hall

section Warp

variable (hg : s.group? g = some gr) (hw : gr.warps[n]? = some w) (hr : gr.resident = true) (hs : s.silent gr = false)
  (hl : w.isLive = true) (hk : s.skidDone gr w = false) (hd : w.watchdog = false)

include hg hw hr hs hl hk hd

/-- A warp that follows its Hall takes the next entry of the decision queue (R65). -/
theorem warpTurn_entry {e : Entry} (hself : w.selfFetching = false)
    (hm : s.turnLanes gr w &&& w.liveLanes (fun t => !t.skip) = w.liveMask) (hy : s.entryYoung gr w = false)
    (he : gr.queue[w.rp - gr.queueBase]? = some e) :
    s.warpTurn g n = ({ s.countSkid gr n with
      issuer := .warp ⟨g, n, w.liveMask, e.pc, e.scalars, e.guard, true, e.meet, e.link⟩ }, some e.instr) := by
  have hturn : s.warpTurn g n = s.entryTurn gr w n := by
    simp only [State.warpTurn, hg, hw, hr, hs, hl, hk, hself, hm, hy, bne_self_eq_false]
    rfl
  rw [hturn]
  simp only [State.entryTurn, he, hd, group?_id hg]
  rfl

/-- A warp that fetches for itself takes the word at the PC of the path that issues (R68). -/
theorem warpTurn_path {slice : Nat} {gang m : Mask} (hself : w.selfFetching = true)
    (hm : m = s.turnLanes gr w &&& w.liveLanes (fun t => !t.skip)) (hgang : w.nextGang m = some (slice, gang))
    (hf : (s.modWarp g n (fun x => x.rotate slice gang m)).fetch gr (w.threads.get ((Mask.lowest gang).getD 0)).pc
      (w.privileged gang) = (s1, .ok i))
    (hown : (i.isHall || hallJump i) = false) :
    s.warpTurn g n = ({ s1.countSkid gr n with
      issuer := .warp ⟨g, n, gang, (w.threads.get ((Mask.lowest gang).getD 0)).pc, gr.scalarsFor w,
        i.ctl.guard.ix == 0 || !i.ctl.guard.cond || ((gr.scalarsFor w).cond i.ctl.guard.ix.toNat != i.ctl.guard.neg),
        false, none, none⟩ }, some i) := by
  have hturn : s.warpTurn g n = s.pathTurn gr w n slice gang m := by
    simp only [State.warpTurn, hg, hw, hr, hs, hl, hk, hself, ← hm, hgang]
    rfl
  rw [hturn]
  simp only [State.pathTurn, hd, group?_id hg, hf, hown]
  rfl

end Warp

/-- An access program fetches at its own PC (R323). -/
theorem apTurn_runs {q : ApProgram} (hg : s.group? g = some gr) (hq : gr.program? p = some q) (hc : s.ctx? gr.ctx = some c)
    (he : s.engineRuns gr.ctx (.accessProc gr.core) = true) (hs : s.sliceStopped gr (.accessProc gr.core) = false)
    (hrun : q.state = .running) (hpre : gr.standing ≠ .preempted) (hsl : gr.standing ≠ .sliced)
    (hb : s.fetchBytes c gr.core 2 (gr.codeAddr q.pc) 12 = (s1, .ok bs)) (hd : decodeBytes bs = .ok i) (hi : apCheck i = none) :
    s.apTurn g p = ({ s1 with issuer := .ap g p }, some i) := by
  simp only [State.apTurn, hg, hq, hc, he, hs, hrun, beq_false_of_ne hpre, beq_false_of_ne hsl, hb, hd, hi]
  rfl

end Turn

end Rules

/-! ### The statements -/

/-- Settles O46, row by row. -/
theorem roundTrip : Obligations.RoundTrip := Laws.RoundTrip.statement_all

/-- Settles O54: whatever the instruction, it is issued in the one way, so what holds it back depends on its guard and its operands
alone. -/
theorem guardsAndWaits : Obligations.GuardsAndWaits := by
  unfold Obligations.GuardsAndWaits
  intro i priv super s is v hc he hh hill ht hs hv
  obtain ⟨f, hexec⟩ := exec_warp_form i hh hc hill ht he is
  have hx := hexec s hs
  refine ⟨?pass, ?far, ?pending, ?empty, ?laneGuard, ?noLaneGuard⟩
  case pass => exact fun hoff hn => hx.trans (by rw [issueWarp_off hv hoff hn])
  case far => exact fun hoff hn => hx.trans (by rw [issueWarp_off_far hv hoff hn])
  case pending => exact fun hon hb => hx.trans (by rw [issueWarp_blocked hv hon hb])
  case empty =>
    intro hon hb ha hact hse
    have hw := hx.trans (by rw [issueWarp_empty hv hon hb ha hact hse])
    exact ⟨fun hst => by simpa [hst] using hw, fun hst => by simpa [hst] using hw⟩
  case laneGuard =>
    intro hcond hix l hl
    simp only [warpView_active hv hl, hcond, beq_false_of_ne hix, Bool.false_or]
  case noLaneGuard =>
    intro hk l hl
    rw [warpView_active hv hl]
    obtain hk | hk := hk <;> simp [hk]

/-- Settles O55: the group and its warp change as the writes, the predicates, the flags and the retiring do, and nothing else does. -/
theorem registerFrame : Obligations.RegisterFrame := by
  unfold Obligations.RegisterFrame
  intro s i v ws ps fs hi ho
  obtain rfl := hi.state
  obtain ⟨wp, hwp, hw⟩ := wrote_warp (i := i) (ws := ws) (ps := ps) (fs := fs) hi.warp.2
  refine ⟨v.wrote i ws ps fs, _, group?_after hi rfl, hw, after_frame hi rfl ho, fun g hg => group?_after_other rfl hg,
    wrote_frame, fun n hn => wrote_warps_other hn, ?warp, fun n hn hf => wrote_reg_other hn hf, ?threads⟩
  case warp =>
    rw [afterWrites_frame v i ps fs ws wp, hwp]
  case threads =>
    intro l hl
    obtain ⟨hframe, hpreds, hflags, hnone, -, -⟩ := afterWrites_thread v i ps fs ws wp l hl
    have hth : wp.threads = v.w.threads := by rw [hwp]
    rw [hth] at hframe hpreds hflags hnone
    exact ⟨hframe, hpreds, hflags, hnone⟩

/-- Settles O56: registers, predicates and PCs are read off the writes one after another. -/
theorem registerWrites : Obligations.RegisterWrites := by
  unfold Obligations.RegisterWrites
  intro s i v ws ps fs hi
  obtain rfl := hi.state
  obtain ⟨wp, hwp, hw⟩ := wrote_warp (i := i) (ws := ws) (ps := ps) (fs := fs) hi.warp.2
  have hth : wp.threads = v.w.threads := by rw [hwp]
  have hpc : ∀ l, l < 32 → ((afterWrites v i ps fs ws wp).threads.get l).pc =
      if v.is.lanes.has l then v.is.pc + 1 else (v.w.threads.get l).pc := by
    intro l hl
    obtain ⟨-, -, -, -, -, hpc⟩ := afterWrites_thread v i ps fs ws wp l hl
    rwa [hth] at hpc
  refine ⟨v.wrote i ws ps fs, _, group?_after hi rfl, hw, ?regs, ?preds, fun l => rfl,
    fun l hl hin => by rw [hpc l hl, if_pos hin], fun l hl hout => by rw [hpc l hl, hout]; rfl⟩
  case regs =>
    intro hn x hx hl0 l hl
    rw [wrote_reg_mem hi.warp.2 hn hx hl0, laneMerge, lanes_get_of _ hl, freeAndTake_reg_get]
  case preds =>
    intro hn p hp h0 h16 l hl hin
    obtain ⟨-, -, -, -, hpreds, -⟩ := afterWrites_thread v i ps fs ws wp l hl
    rw [Warp.pred, hpreds, setPreds_mem ps l hl hn wp p hp h0 h16 hin, beq_false_of_ne h0, Bool.false_or]

/-- Settles O57: the effect is one change of the Hall, or of the access program, whose scalars and conditions the writes decide. -/
theorem hallFrame : Obligations.HallFrame := by
  unfold Obligations.HallFrame
  refine ⟨?hall, ?program⟩
  case hall =>
    intro s i g h ss cs pc hi ho
    obtain ⟨pending, hc⟩ := commit_holdScalars_eq (s := s) (i := i) (g := g) (ss := ss) (cs := cs) (pc := pc)
      (waited := h.prior.isSome)
    rw [hc]
    refine ⟨h.gr.hallWrote ss cs pc pending, group?_modGroup_of hi.group (fun _ => rfl), settle_modGroup s g _ _ rfl ho,
      fun g' hg => group?_modGroup_other s _ (fun _ => rfl) hg, rfl, rfl,
      fun n hn => put_scalar_other _ ss cs n hn, fun n hn => put_condition_other _ ss cs n hn,
      fun hnd x hx n hxn => put_scalar_mem _ ss cs hnd x hx n hxn,
      fun hnd x hx h0 h16 => put_condition_mem _ ss cs hnd x hx h0 h16, rfl⟩
  case program =>
    intro s i g p h ss cs pc hi ho
    obtain ⟨gr, q, hg, hq, rfl⟩ := hi.program
    rw [commitAp_eq]
    refine ⟨gr, q, gr.modProgram p (·.wrote ss cs (pc.getD (q.pc + 1))), hg, hq, group?_modGroup_of hg (fun _ => rfl),
      settle_modGroup s g _ _ rfl ho, fun g' hg' => group?_modGroup_other s _ (fun _ => rfl) hg', rfl,
      fun n hn => program?_modProgram_other gr (·.wrote ss cs (pc.getD (q.pc + 1))) (fun _ => rfl) hn,
      (program?_modProgram gr (·.wrote ss cs (pc.getD (q.pc + 1))) (fun _ => rfl)).trans (by rw [hq]; rfl),
      fun n hn => put_scalar_other _ ss cs n hn, fun n hn => put_condition_other _ ss cs n hn⟩

/-- Settles O18: each form past its conditions, said once above, is the effect of the instruction. -/
theorem executionInstructions : Obligations.ExecutionInstructions := by
  unfold Obligations.ExecutionInstructions
  intro k gen a b c
  refine ⟨bothDo_of (fun _ => rfl) (fun _ => rfl) (fun _ => rfl), ?shmap, ?barriers, ?safept, ?resume,
    onlyWarp_of (fun _ => rfl) (fun _ => rfl)⟩
  case shmap =>
    rintro _ _ _ rfl rfl rfl hk
    refine ⟨?on, ?off⟩
    case on =>
      rintro s1 s v hi ⟨ht, hr, hm, hf, hw⟩ hfit
      exact runWarp_done hi (warpShmap_done hk ht hr hm hf hw) hfit
    case off =>
      rintro s v hi ⟨ht, hr⟩ hfit
      exact runWarp_done hi (warpShmapOff_done hk ht hr) hfit
  case barriers =>
    rintro _ x rfl he
    refine ⟨?mark, ?hold, ?gate, ?set⟩
    case mark =>
      rintro s v hi ⟨ht, hx, hnot, hs⟩ hfit
      exact runWarp_done hi (warpMark_done ht hx he hnot hs) hfit
    case hold =>
      rintro s v hi ⟨ht, hx, hg⟩ hfit
      exact runWarp_done hi (warpHold_done ht hx he hg) hfit
    case gate =>
      rintro s v hi ⟨ht, hx, hgate, hnot, hs, hl, hg⟩ hfit
      exact runWarp_done hi (warpGate_done ht hx he hgate hnot hs hl hg) hfit
    case set =>
      rintro s v hi ⟨ht, hx, hz, h1, h32⟩ hfit
      exact runWarp_done hi (warpBarSet_done ht hx he hz h1 h32) hfit
  case safept =>
    rintro st bytes hok s v hi ⟨hp, hn, hs⟩ hfit
    exact runWarp_done hi (warpSafept_done hp hn hs hok) hfit
  case resume =>
    intro s v hi hst hfit
    exact runWarp_done hi (warpResume_done hst) hfit

/-- Settles O20: software traps by the rule for warp instructions that trap, the two deliveries by their conditions. -/
theorem trapsAndDelivery : Obligations.TrapsAndDelivery := by
  unfold Obligations.TrapsAndDelivery
  refine ⟨?software, fun k fn a b c s is hs => exec_ill_warp hs, ?hallFault, ?watchdog⟩
  case software =>
    exact fun k c => ⟨fun s v hi hact => runWarp_trap hi (softTrap_active hact),
      fun s v hi hact => runWarp_trap hi (softTrap_active hact)⟩
  case hallFault =>
    intro g n s gr f w hg hf hn hw hd hr hs hpos hself
    exact ⟨⟨g, n, w.liveMask, f.pc, gr.hall.sc, true, false, none, none⟩, rfl, rfl, rfl, rfl,
      hallFaultDelivery_becomes hg hf hn hw hd hr hs ((reached_iff hw).mpr ⟨hpos, hself⟩)⟩
  case watchdog => exact fun g s gr hg hr hlim => watchdogExpiry_becomes hg hr hlim

/-- Settles O47: each word is the one that its instruction encodes to, so it is read back as that instruction. -/
theorem decodedWords : Obligations.DecodedWords := by
  unfold Obligations.DecodedWords
  refine ⟨?nop, ?iadd, ?bitfn, ?bra, ?ld, ?ffma, ?trap, ?mma, ?qctl, ?ctxop⟩ <;> exact roundTrip _ _ (by decide)

/-- Settles O51: the turn of each agent comes to the instruction that it fetches, which runs over the memory that the step found. -/
theorem stepRunsDecoded : Obligations.StepRunsDecoded := by
  unfold Obligations.StepRunsDecoded
  refine ⟨?hall, ?entry, ?path, ?program, ?event⟩
  case hall =>
    intro s s1 s2 s3 g gr c bs i ht hp hg hc hr hs hb hd hi
    have hf := fetch_ok hc hb hd hi
    refine ⟨fun hown => ?own, fun hother hq hpend hbr hft => ?forward⟩
    case own => rw [step_hall ht hp, hallTurn_own hg hr hs hf hown]; rfl
    case forward => rw [step_hall ht hp, hallTurn_forward hg hr hs hf hother hq hpend hbr hft]; rfl
  case entry =>
    intro s s1 s2 g n gr w e ht hp hg hw hr hs hl hk hd hself hm hy he
    rw [step_warp ht hp, warpTurn_entry hg hw hr hs hl hk hd hself hm hy he]
    rfl
  case path =>
    intro s s1 s2 s3 g n slice gr w c gang bs i ht hp hg hc hw hr hs hl hk hd hself m hgang pc s4 hb hdec hi hown
    have hf : s4.fetch gr pc (w.privileged gang) = (s3, .ok i) := fetch_ok hc hb hdec hi
    rw [step_warp ht hp, warpTurn_path hg hw hr hs hl hk hd hself rfl hgang hf hown]
    rfl
  case program =>
    intro s s1 s2 s3 g p gr q c bs i ht hp hg hq hc he hs hrun hpre hsl hb hd hi
    rw [step_ap ht hp, apTurn_runs hg hq hc he hs hrun hpre hsl hb hd hi]
    rfl
  case event =>
    intro s s1 i ht
    simp only [step, ht]

end Sys2Proof.Machine
end

