-- ==== Sys2Proof/Proofs/CoreExecution.lean ====
section
/-! PROOFS. Combining across lanes and across a group, meeting addresses and the end of threads, and the ends of waits and the swaps
of groups. -/

namespace Sys2Proof.Machine

open Sys2Proof

/-! ### VOTE, VRED and the Hall's combination (R66, R155, R156) -/

section Combining

variable {s : State} {v : WarpView} {k : Ctl} {mode : VoteMode} {neg : Bool} {op : VredOp} {ty : LongTy} {a b : Operand}

/-- A form for the group, brought by the queue, gives the Hall its part; a form for the warp has its own effect. -/
theorem combine_done {give : Nat → DWord} {own : WarpEff} (hq : groupDest a = true → v.is.queued = true) :
    v.combine a give (.done own) = .done (if groupDest a then { st := v.giveVote give } else own) := by
  cases ha : groupDest a with
  | false => simp [WarpView.combine, ha]
  | true => simp [WarpView.combine, ha, hq ha]

/-- The active lanes whose operand, negated where VOTE says so, is 1. -/
def WarpView.voteOnes (v : WarpView) (neg : Bool) (b : Operand) : Mask := Mask.of (fun l => v.active.has l && (v.bit b l != neg))

/-- What VOTE gives the warp itself: a predicate, a mask or a count (R155). -/
def WarpView.ownVote (v : WarpView) (mode : VoteMode) (neg : Bool) (a b : Operand) : WarpEff :=
  let r := voteResult mode v.active.count (v.voteOnes neg b).count
  match a with
  | .pred _ => { st := v.s, preds := v.setBit a (fun _ => r.getLsbD 0) }
  | _ => { st := v.s, writes := v.w32 a (fun _ => if mode = .ballot then v.voteOnes neg b else r.setWidth 32) }

theorem warpVote_done (hq : groupDest a = true → v.is.queued = true) :
    warpVote mode neg a b v = .done
      (if groupDest a then { st := v.giveVote (fun l => if (v.voteOnes neg b).has l then 1 else 0) }
       else v.ownVote mode neg a b) := by
  rw [← combine_done hq]
  cases a <;> rfl

theorem warpVred_done (hq : groupDest a = true → v.is.queued = true) :
    warpVred op ty a b v = .done
      (let x := fun l => v.scalarSrc false ty.w64 b l
       if groupDest a then { st := v.giveVote x }
       else { st := v.s, writes := v.wLong ty.w64 a (fun _ => vredFold op ty (maskValues v.active x)) }) :=
  combine_done hq

section Hall

variable {g : Nat} {gr : Group} {x : Combine} (hg : s.group? g = some gr) (hc : gr.hall.combine = some x)
  (hdue : gr.combineDue x = true) (hlive : gr.liveWarps.isEmpty = false)

include hg hc hdue hlive

/-- Once every live warp has come past the entry, the Hall takes what they voted. -/
theorem hallCombine_vote (hi : x.instr = .vote k mode neg a b) :
    Becomes (.hallCombine g) s (s.modHall g (fun h =>
      h.takeResult a (voteResult mode (gr.votes x).length ((gr.votes x).filter (· == 1)).length))) :=
  becomes_of_finish rfl (by simp [hg, hc, hdue, hlive, hi])

theorem hallCombine_vred (hi : x.instr = .vred k op ty a b) :
    Becomes (.hallCombine g) s (s.modHall g (fun h =>
      h.takeResult a (extend64 ty.signed (longBits ty.w64) (vredFold op ty (gr.votes x))))) :=
  becomes_of_finish rfl (by simp [hg, hc, hdue, hlive, hi])

end Hall

end Combining

/-! ### MEET, the release of a meeting, and EXIT (R69, R161, R164) -/

section Meeting

variable {s : State} {v : WarpView} {k : Ctl}

/-- The test of MEET and MEET.SV for the address that is no meeting address (R161). -/
theorem meetTarget_good {t : Word} (h : v.active = 0 ∨ t ≠ 0xFFFFFFFF) : (v.active != 0 && t == 0xFFFFFFFF) = false := by
  obtain h | h := h
  · rw [h]; rfl
  · rw [beq_false_of_ne h, Bool.and_false]

/-- The threads of the first meeting that every live thread has reached go on. -/
theorem regionRelease_becomes {g w : Nat} {wp : Warp} {t : Thread} (hw : s.warp? g w = some wp) (ht : wp.releasable = some t) :
    Becomes (.regionRelease g w) s (s.modWarp g w (fun x => x.release t)) :=
  becomes_of_finish rfl (by simp [hw, ht])

/-- A warp's EXIT ends its active threads. -/
theorem exec_exit_warp {is : Issue} (hs : s.issuer = .warp is) :
    exec (.exit k) s = runWarp (.exit k) (fun v =>
      .done { st := if v.active = 0 then v.s else v.s.endThreads v.is.g v.is.w v.active }) s := by
  show execExit k s = _
  simp only [execExit, hs]

/-- In an access program EXIT is decided by its guard. -/
theorem exec_exit_ap {g p : Nat} {h : HallView} (hs : s.issuer = .ap g p) (hv : s.apView g p = some h) :
    exec (.exit k) s = .next (settle s (if h.guard k then s.exitProgram g p else h.commitAp g p { st := s })) := by
  show execExit k s = _
  simp only [execExit, hs, State.apExit, hv, finish]

end Meeting

/-! ### WAIT_END (R73, R298, R299) -/

section Waits

variable {s s2 : State} {gr : Group} {a : Agent} {x : Wait}

/-- A wait of warp `n`, or of the Hall (255), may end and leaves `s2`: it is no event of a trace, or its trace lets it go. -/
def State.LetsWake (s : State) (gr : Group) (x : Wait) (n : Nat) (mask : Mask) (s2 : State) : Prop :=
  s.traced gr x = false ∧ s2 = s ∨ s.traced gr x = true ∧ s.traceWake gr n mask = .go s2

theorem hallWaitEnd_of_wake (h : s.LetsWake gr x 255 0 s2) :
    s.hallWaitEnd gr x =
      s2.modHall gr.id (fun h => { h with wait := some { s2.sawWait gr (.hall gr.id) x with ended := true } }) := by
  obtain ⟨ht, rfl⟩ | ⟨ht, hw⟩ := h
  · simp [State.hallWaitEnd, ht]
  · simp only [State.hallWaitEnd, ht, hw, Bool.not_true, Bool.false_eq_true, if_false]

theorem warpWaitEnd_of_wake {n : Nat} {w : Warp} (h : s.LetsWake gr x n x.lanes s2) :
    s.warpWaitEnd gr n w x = s2.endWarpWait gr.id n x (s.sawWait gr (.warp gr.id n) x) := by
  obtain ⟨ht, rfl⟩ | ⟨ht, hw⟩ := h
  · simp [State.warpWaitEnd, ht]
  · simp only [State.warpWaitEnd, ht, hw, Bool.not_true, Bool.false_eq_true, if_false]

/-- WAIT_END of an agent of a resident group that may act ends one of its waits. -/
theorem waitEnd_becomes (hg : s.group? (agentGroup a) = some gr) (hs : s.silent gr = false) (hr : gr.standing = .resident)
    (hp : s.placeAhead gr a = true) : Becomes (.waitEnd a) s (s.endWaits gr a) :=
  becomes_of_finish rfl (by simp [hg, hs, hp, Group.inPlace, hr])

section Met

variable (hr : gr.standing = .resident)
  (hx : (gr.openWaits a).find? (fun x => { s with fresh := s.fresh + 1 : State }.waitMet gr a (agentWarp a) x) = some x)

include hr hx

theorem endWaits_hall {g : Nat} (ha : a = .hall g) : s.endWaits gr a = { s with fresh := s.fresh + 1 : State }.hallWaitEnd gr x := by
  subst ha
  simp [State.endWaits, hx, Group.resident, hr]

theorem endWaits_warp {g n : Nat} {w : Warp} (ha : a = .warp g n) (hw : gr.warps[n]? = some w) :
    s.endWaits gr a = { s with fresh := s.fresh + 1 : State }.warpWaitEnd gr n w x := by
  subst ha
  simp [State.endWaits, hx, Group.resident, hr, hw]

end Met

end Waits

/-! ### WAIT_SWAP and CORE_STALL_SWAP (R73, R79) -/

section Swaps

variable {s : State} {gr : Group}

/-- A group blocked for longer than its SWAPLIM is swapped out where nothing comes before that. -/
theorem waitSwap_becomes {g : Nat} (hg : s.group? g = some gr) (hr : gr.standing = .resident) (hs : s.silent gr = false)
    (hlim : s.effSwap gr.ctx gr.home < gr.x.waitTimer) (hb : s.blockedWait gr = true) (hf : s.sfuFree gr = true)
    (hm : s.someWaitMet gr = false) (hc : ∀ c ∈ s.ctx? gr.ctx, c.givesWay = false) :
    Becomes (.waitSwap g) s (s.swapOut gr) := by
  have hstays : (s.ctx? gr.ctx).any Ctx.givesWay = false := by
    cases hctx : s.ctx? gr.ctx with
    | none => rfl
    | some c => exact hc c hctx
  exact becomes_of_finish rfl (by simp [hg, Group.resident, hr, hs, hlim, hb, hf, hm, hstays])

/-- No group of these has anything to go on with. -/
def State.AllStuck (s : State) (gs : List Group) : Prop :=
  ∀ x ∈ gs, s.silent x = false ∧ s.sfuFree x = true ∧ ∀ w ∈ x.warps, w.isLive = true → s.warpStuck x w = true

/-- The two tests with which CORE_STALL_SWAP begins. -/
theorem State.AllStuck.tests {gs : List Group} (h : s.AllStuck gs) :
    gs.any s.silent = false ∧
      gs.all (fun gr => s.sfuFree gr && gr.warps.all (fun w => !w.isLive || s.warpStuck gr w)) = true := by
  refine ⟨List.any_eq_false.mpr fun x hx => ?quiet, List.all_eq_true.mpr fun x hx => ?stuck⟩
  case quiet =>
    obtain ⟨hq, -, -⟩ := h x hx
    simp [hq]
  case stuck =>
    obtain ⟨-, hf, hw⟩ := h x hx
    have hwarps : ∀ w ∈ x.warps, (!w.isLive || s.warpStuck x w) = true := fun w hmem => by
      cases hl : w.isLive with
      | false => rfl
      | true => exact hw w hmem hl
    rw [hf, Bool.true_and, List.all_eq_true.mpr hwarps]

section Stalled

variable {core : Nat} {gs stalled others : List Group} (hgs : s.groups.filter (fun gr => gr.resident && gr.core == core) = gs)
  (hstalled : gs.filter (fun gr => gr.warps.any Warp.regStalled) = stalled)
  (hothers : stalled.filter (fun gr => gr.handlerStall.isNone) = others) (hstuck : s.AllStuck gs)

include hgs hstalled hothers hstuck

/-- Of the groups whose stalled write is not a handler's the youngest goes. -/
theorem coreStallSwap_other (hy : s.youngestGroup others = some gr) : Becomes (.coreStallSwap core) s (s.swapOut gr) := by
  obtain ⟨hquiet, hall⟩ := hstuck.tests
  exact becomes_of_finish rfl (by simp only [hgs, hquiet, hall, hstalled, hothers, hy]; rfl)

/-- One group stalled in its handler is a double trap. -/
theorem coreStallSwap_alone (ho : others = []) (hone : stalled = [gr]) : Becomes (.coreStallSwap core) s (s.stallTrap gr) := by
  obtain ⟨hquiet, hall⟩ := hstuck.tests
  subst ho
  subst hone
  exact becomes_of_finish rfl (by simp only [hgs, hquiet, hall, hstalled, hothers, State.youngestGroup]; rfl)

/-- Of several groups all stalled in their handlers the youngest goes. -/
theorem coreStallSwap_handlers (ho : others = []) (h2 : 2 ≤ stalled.length) (hy : s.youngestGroup stalled = some gr) :
    Becomes (.coreStallSwap core) s (s.swapOut gr) := by
  obtain ⟨hquiet, hall⟩ := hstuck.tests
  subst ho
  match stalled, h2 with
  | x :: y :: rest, _ =>
    have hnone : s.youngestGroup [] = none := rfl
    exact becomes_of_finish rfl (by simp only [hgs, hquiet, hall, hstalled, hothers, hnone, hy]; rfl)

end Stalled

end Swaps

/-! ### The statements -/

/-- Settles O5: PSET and the PMOV forms always complete; VOTE and VRED by `WarpView.combine`; the Hall by what it waits for. -/
theorem bitsAndReductions : Obligations.BitsAndReductions := by
  unfold Obligations.BitsAndReductions
  intro k op nb nc inv neg mode vop ty a b c
  refine ⟨bothDo_of (fun _ => rfl) (fun _ => rfl) (fun _ => rfl), bothDo_of (fun _ => rfl) (fun _ => rfl) (fun _ => rfl),
    bothDo_of (fun _ => rfl) (fun _ => rfl) (fun _ => rfl), bothDo_of (fun _ => rfl) (fun _ => rfl) (fun _ => rfl),
    ?vote, ?vred, ?hall⟩
  case vote => exact fun s v hi hq hfit => runWarp_done hi (warpVote_done hq) hfit
  case vred => exact fun s v hi hq hfit => runWarp_done hi (warpVred_done hq) hfit
  case hall => exact fun s g gr x hg hc hdue hl => ⟨hallCombine_vote hg hc hdue hl, hallCombine_vred hg hc hdue hl⟩

/-- Settles O7: the MEET forms by the test of their address, EXIT by who issues it, the release by the thread that it finds. -/
theorem meetingAndExit : Obligations.MeetingAndExit := by
  unfold Obligations.MeetingAndExit
  refine ⟨fun k off a b => ⟨?meet, ?save, onlyWarp_of (fun _ => rfl) (fun _ => rfl), ?exit⟩,
    fun s g w wp t hw ht => regionRelease_becomes hw ht, ?ends, ?passes⟩
  case meet => exact fun s v hi hgood hfit => runWarp_done hi (by simp only [meetTarget_good hgood]; rfl) hfit
  case save => exact fun s v hi hgood hfit => runWarp_done hi (by simp only [meetTarget_good hgood]; rfl) hfit
  case exit =>
    intro s v hi hact hfit
    exact (exec_exit_warp hi.issuer).trans (runWarp_done hi (by rw [if_neg hact]) hfit)
  case ends =>
    intro s g p h k hi
    have hon : h.guard k = true := hi.guard
    rw [exec_exit_ap hi.issuer hi.view, if_pos hon]
  case passes =>
    intro s g p h k hs hv hoff
    simp only [exec_exit_ap hs hv, hoff, Bool.false_eq_true, if_false]

/-- Settles O36: the wait that is met ends as its agent's, and each swap takes the group that its conditions name. -/
theorem waitsAndSwaps : Obligations.WaitsAndSwaps := by
  unfold Obligations.WaitsAndSwaps
  refine ⟨?ends, fun g s gr hg hr hs hlim hb hf hm hc => waitSwap_becomes hg hr hs hlim hb hf hm hc, ?stall⟩
  case ends =>
    intro a s s2 gr x s1 hg hs hr hp hx
    refine ⟨fun g ha hwake => ?hall, fun g n w ha hw hwake => ?warp⟩
    case hall =>
      rw [← hallWaitEnd_of_wake hwake, ← endWaits_hall hr hx ha]
      exact waitEnd_becomes hg hs hr hp
    case warp =>
      rw [← warpWaitEnd_of_wake hwake, ← endWaits_warp hr hx ha hw]
      exact waitEnd_becomes hg hs hr hp
  case stall =>
    intro core s gr gs stalled others hstuck
    exact ⟨coreStallSwap_other rfl rfl rfl hstuck, coreStallSwap_alone rfl rfl rfl hstuck,
      coreStallSwap_handlers rfl rfl rfl hstuck⟩

end Sys2Proof.Machine
end

