-- ==== Sys2Proof/Proofs/CoreMemory.lean ====
section
/-! PROOFS. The memory of a core: global and scratchpad accesses, atomics, tag tables, fences and waits on memory, prefetches and
cache invalidations, latches, and the way of a store from its queue to its home. -/

namespace Sys2Proof

/-! ### When the decoder accepts (R37, R44) -/

section Accepts

variable {α : Type} {y : α}

theorem fnNeed_ok {b : Bool} {r : Except Reject α} : fnNeed b r = .ok y ↔ b = true ∧ r = .ok y := by
  cases b <;> simp [fnNeed]

theorem free_ok {x : BitVec 22} {r : Except Reject α} : free x r = .ok y ↔ x = 0 ∧ r = .ok y := by
  by_cases h : x = 0
  · simp only [free, h, if_true, true_and]
  · simp only [free, h, if_false, false_and, reduceCtorEq]

theorem opnd_ok {x : BitVec 22} {r : Operand → Except Reject α} :
    opnd x r = .ok y ↔ ∃ o, Operand.decode x = .ok o ∧ r o = .ok y := by
  unfold opnd
  split
  next o h => simp [h]
  next e h => simp [h]

theorem offset24_ok {f : Fields} {r : BitVec 24 → Except Reject α} :
    offset24 f r = .ok y ↔ cut 20 2 f.c = 2 ∧ r (cut 8 4 f.fn ++ cut 0 20 f.c) = .ok y := by
  by_cases h : cut 20 2 f.c = 2
  · simp only [offset24, h, if_true, true_and]
  · simp only [offset24, h, if_false, false_and, reduceCtorEq]

end Accepts

/-- The row of PREF in the opcode table (R48, R113). -/
theorem decodeFields_pref {f : Fields} (hop : f.op = 0x5D) : decodeFields f =
    fnNeed (cut 0 8 f.fn == 0) (offset24 f fun o => free f.a (opnd f.b fun b => .ok (.pref f.ctl o b))) := by
  have hrow : (cut 4 3 (0x5D : BitVec 7)).toNat = 5 := by decide
  have hcol : (cut 0 4 (0x5D : BitVec 7)).toNat = 0xD := by decide
  simp only [decodeFields, decRow5, hop, hrow, hcol]

/-- Fields with the opcode of PREF decode to PREF or to nothing. -/
theorem decodeFields_pref_ok {f : Fields} (hop : f.op = 0x5D) {i : Instr} : decodeFields f = .ok i ↔
    cut 0 8 f.fn = 0 ∧ cut 20 2 f.c = 2 ∧ f.a = 0 ∧
      ∃ b, Operand.decode f.b = .ok b ∧ i = .pref f.ctl (cut 8 4 f.fn ++ cut 0 20 f.c) b := by
  simp only [decodeFields_pref hop, fnNeed_ok, offset24_ok, free_ok, opnd_ok, beq_iff_eq, Except.ok.injEq, eq_comm (a := i)]

end Sys2Proof

namespace Sys2Proof.Machine

open Sys2Proof

variable {s s1 s2 : State} {i : Instr} {v : WarpView} {h : HallView}

/-! ### An issue whose own result is its effect -/

section Rules

variable {fw : WarpView → WarpRes} {fh : HallView → HallRes} {ew : WarpEff} {eh : HallEff}

theorem inWarp_of_runWarp (hx : exec i s = runWarp i fw s) (he : v.s = s → fw v = .done ew) : InWarp i s v ew :=
  fun hi hfit => hx.trans (runWarp_done hi (he hi.state) hfit)

theorem inWarp_of_runBoth (hx : exec i s = runBoth i fh fw s) (he : v.s = s → fw v = .done ew) : InWarp i s v ew :=
  fun hi hfit => hx.trans (runBoth_done hi (he hi.state) hfit)

theorem inHall_of_runBoth (hx : exec i s = runBoth i fh fw s) (he : h.s = s → fh h = .done eh) : InHall i s h eh :=
  fun _ hi => hx.trans (runBoth_hall hi (he hi.state))

theorem inAp_of_runBoth (hx : exec i s = runBoth i fh fw s) (he : h.s = s → fh h = .done eh) : InAp i s h eh :=
  fun _ _ hi => hx.trans (runBoth_ap hi (he hi.state))

end Rules

/-- A condition that is asked for only where `p` holds does not hold an access back. -/
theorem and_not_eq_false_of_imp {p q : Bool} (h : p = true → q = true) : (p && !q) = false := by
  cases p with
  | false => rfl
  | true => simp [h rfl]

/-! ### LD and ST (R101, R102, R123) -/

section Global

variable {m : MemMod} {off : BitVec 24} {a b : Operand} {ps : List Place} {vs : List (Nat × Nat)}

theorem warpLd_done
    (hc : v.s.checkLanes v.gr (some v.is.w) (widthBytes m.width) .load (v.addrs b (off.signExtend 64)) = (s1, .ok ps))
    (hf : memSc m = true → s1.fenceReady v.gr v.agent .sc m.scope = true)
    (hl : s1.loadPlaces v.gr v.agent v.w.stores (widthBytes m.width) ps = (s2, some vs)) :
    warpLd m off a b v = .done { st := s2, writes := v.wLoad m.width a vs } := by
  simp [warpLd, hc, and_not_eq_false_of_imp hf, hl]

theorem hallLd_done
    (hc : h.s.checkLanes h.gr none (widthBytes m.width) .load [(0, h.addr b (off.signExtend 64))] = (s1, .ok ps))
    (hf : memSc m = true → s1.fenceReady h.gr h.agent .sc m.scope = true)
    (hl : s1.agentLoad h.gr h.agent (s1.queueOf h.agent) (widthBytes m.width) ps = (s2, some vs)) :
    hallLd m off a b h = .done { st := s2, s := sWrite a (memExt m.width (laneVal vs 0)) } := by
  simp [hallLd, hc, and_not_eq_false_of_imp hf, hl]

theorem warpSt_done
    (hc : v.s.checkLanes v.gr (some v.is.w) (widthBytes m.width) .store (v.addrs b (off.signExtend 64)) = (s1, .ok ps))
    (hw : writeSetFull v.gr (widthBytes m.width) (ps.map (fun p => (p, v.datum m.width a p.lane))) = false)
    (hf : memSc m = true → s1.fenceReady v.gr v.agent .sc m.scope = true) (hr : s1.releaseReady v.gr v.agent m = true) :
    warpSt m off a b v = .done
      { st := s1.issueGlobal v.gr v.agent (widthBytes m.width)
          (ps.map (fun p => (p, v.datum m.width a p.lane))) (stRelease m) } := by
  simp [warpSt, hc, hw, and_not_eq_false_of_imp hf, hr]

theorem hallSt_done
    (hc : h.s.checkLanes h.gr none (widthBytes m.width) .store [(0, h.addr b (off.signExtend 64))] = (s1, .ok ps))
    (hw : writeSetFull h.gr (widthBytes m.width)
      (ps.map (fun p => (p, (h.r64 false a).toNat % 256 ^ widthBytes m.width))) = false)
    (hd : (stRelease m).isSome = true → s1.drained h.gr m.scope = true)
    (hf : memSc m = true → s1.fenceReady h.gr h.agent .sc m.scope = true) (hr : s1.releaseReady h.gr h.agent m = true) :
    hallSt m off a b h = .done
      { st := s1.issueGlobal h.gr h.agent (widthBytes m.width)
          (ps.map (fun p => (p, (h.r64 false a).toNat % 256 ^ widthBytes m.width))) (stRelease m) } := by
  simp [hallSt, hc, hw, and_not_eq_false_of_imp hd, and_not_eq_false_of_imp hf, hr]

end Global

/-! ### ATOM and RED (R106, R108) -/

section Atomics

variable {op : AtomOp} {m : MemMod} {off : BitVec 20} {a b : Operand} {ps : List Place} {w64 : Bool}
  {todo : List (Place × Nat × Nat)} {before : List (Nat × Nat)}

/-- With all the lanes that are left, an ATOM of a warp completes. -/
theorem atomLanes_all (hle : todo.length ≤ (s.lanesNow v.gr todo.length).2) :
    let now := s.lanesNow v.gr todo.length
    let r := now.1.rmwAll v.gr v.agent op (atomBytes w64) (todo.take now.2)
    v.atomLanes s op w64 a todo before = .done
      { st := r.1.noteAtom v.gr v.agent todo.isEmpty,
        writes := v.wLong w64 a (fun l => BitVec.ofNat 64 (laneVal (before ++ r.2) l)) } :=
  if_pos hle

/-- With some of them, it keeps the others for a later turn. -/
theorem atomLanes_some (hlt : (s.lanesNow v.gr todo.length).2 < todo.length) :
    let now := s.lanesNow v.gr todo.length
    let r := now.1.rmwAll v.gr v.agent op (atomBytes w64) (todo.take now.2)
    v.atomLanes s op w64 a todo before = .stall (r.1.modWarp v.is.g v.is.w (fun w =>
      { w with atom := some ⟨v.is.lanes, v.is.pc,
          (todo.drop now.2).map (fun x => ((x.1.lane, x.1.va, x.1.pa, x.1.cls), x.2)), before ++ r.2⟩ })) :=
  if_neg (Nat.not_le.mpr hlt)

/-- An instruction that comes to performing lanes performs them, in this turn all or some of them (R106, R116). -/
theorem performsLanes_of_atomLanes {fh : HallView → HallRes} {fw : WarpView → WarpRes} (hx : exec i s = runBoth i fh fw s)
    (he : v.s = s → fw v = v.atomLanes s1 op w64 a todo before) : v.PerformsLanes s s1 i op w64 a todo before :=
  ⟨fun hle => inWarp_of_runBoth hx (fun hs => (he hs).trans (atomLanes_all hle)),
    fun hlt hi => hx.trans (runBoth_stall hi ((he hi.state).trans (atomLanes_some hlt)))⟩

/-- A first turn of an ATOM begins with all its lanes. -/
theorem warpAtom_begins (hrun : v.atomRun = none)
    (hc : v.s.checkLanes v.gr (some v.is.w) (atomBytes (m.width == .w64)) .atomic (v.addrs b (off.signExtend 64)) = (s1, .ok ps))
    (hd2 : v.gr.x.d2 = none ∨ v.active = 0) (hr : s1.rmwReady v.gr v.agent ps (atomRel m) true m.scope = true) :
    warpAtom op m off a b v = v.atomLanes s1 op (m.width == .w64) a
      (ps.map (fun p => (p, v.atomData op (m.width == .w64) a p.lane))) [] := by
  have hdet : (v.gr.x.d2.isSome && v.active != 0) = false := by
    obtain hd2 | hact := hd2
    · simp [hd2]
    · simp [hact]
  simp only [warpAtom, hrun, hc, hdet, hr, Bool.not_true, Bool.false_eq_true, if_false]

/-- A later turn goes on with the lanes that are left. -/
theorem warpAtom_continues {r : AtomRun} (hrun : v.atomRun = some r)
    (hr : v.s.rmwReady v.gr v.agent
      ((r.rest.map (fun x => (Place.mk x.1.1 x.1.2.1 x.1.2.2.1 x.1.2.2.2, x.2))).map (·.1)) false false m.scope = true) :
    warpAtom op m off a b v = v.atomLanes v.s op (m.width == .w64) a
      (r.rest.map (fun x => (Place.mk x.1.1 x.1.2.1 x.1.2.2.1 x.1.2.2.2, x.2))) r.olds := by
  simp only [warpAtom, hrun]
  exact if_pos hr

theorem hallAtom_done
    (hc : h.s.checkLanes h.gr none (atomBytes (m.width == .w64)) .atomic [(0, h.addr b (off.signExtend 64))] = (s1, .ok ps))
    (hd2 : h.gr.x.d2 = none) (hd : atomRel m = true → s1.drained h.gr m.scope = true)
    (hr : s1.rmwReady h.gr h.agent ps (atomRel m) true m.scope = true) :
    let n := atomBytes (m.width == .w64)
    let r := s1.rmwAll h.gr h.agent op n (ps.map (fun p => (p, h.atomData op n a)))
    hallAtom op m off a b h =
      .done { st := r.1.noteAtom h.gr h.agent false, s := sWrite a (BitVec.ofNat 64 (laneVal r.2 0)) } := by
  simp [hallAtom, hc, hd2, and_not_eq_false_of_imp hd, hr]

theorem warpRed_done
    (hc : v.s.checkLanes v.gr (some v.is.w) (atomBytes (m.width == .w64)) .atomic (v.addrs b (off.signExtend 64)) = (s1, .ok ps))
    (hr : v.gr.x.d2 = none → s1.releaseReady v.gr v.agent m = true) :
    let n := atomBytes (m.width == .w64)
    warpRed op m off a b v = .done
      { st := s1.issueRed v.gr v.agent op n (redMerge op n (ps.map (fun p => (p, v.datum m.width a p.lane)))) (redRelease m) } := by
  simp [warpRed, hc, and_not_eq_false_of_imp (fun hd2 => hr (Option.isNone_iff_eq_none.mp hd2))]

theorem hallRed_done
    (hc : h.s.checkLanes h.gr none (atomBytes (m.width == .w64)) .atomic [(0, h.addr b (off.signExtend 64))] = (s1, .ok ps))
    (hr : h.gr.x.d2 = none → s1.releaseReady h.gr h.agent m = true) :
    let n := atomBytes (m.width == .w64)
    hallRed op m off a b h = .done
      { st := s1.issueRed h.gr h.agent op n (ps.map (fun p => (p, (h.r64 false a).toNat % 256 ^ n))) (redRelease m) } := by
  simp [hallRed, hc, and_not_eq_false_of_imp (fun hd2 => hr (Option.isNone_iff_eq_none.mp hd2))]

end Atomics

/-! ### Scratchpad accesses and granules (R92, R93, R103 to R105, R107) -/

section Scratchpad

variable {w : MemWidth} {off : BitVec 24} {off20 : BitVec 20} {a b : Operand} {xs vs : List (Nat × Nat)} {gs : List Nat}
  {take w64 : Bool} {op : AtomOp}

section Warp

variable (hx : v.saddrs b (off.signExtend 32) = xs)

include hx

theorem warpLds_done (ht : v.s.spadTrap v.gr (widthBytes w) false xs = none)
    (hl : spadLoads v.gr v.w.stores (widthBytes w) xs = some vs) :
    warpLds w off a b v = .done { st := v.s, writes := v.wLoad w a vs } := by
  simp [warpLds, hx, ht, hl, WarpRes.write]

theorem warpSts_done (ht : v.s.spadTrap v.gr (widthBytes w) true xs = none) :
    warpSts w off a b v = .done { st := v.s.issueSpad v.gr v.agent (spadData (widthBytes w) xs (v.datum w a)) [] [] } := by
  simp [warpSts, hx, ht]

/-- LDFE goes on where its own queue leaves its granules alone, all are FULL, and no older warp takes one (R104, R116). -/
theorem warpLdfe_done (hg : granules (widthBytes w) xs = gs) (ht : v.s.spadTrap v.gr (widthBytes w) false xs = none)
    (hq : ∀ x ∈ v.w.stores, ∀ g ∈ gs, x.inSpad (16 * g) 16 = false) (hfull : ∀ g ∈ gs, g ∈ v.gr.x.full)
    (hold : take = true → v.gr.olderTakes v.is.w gs = false) :
    warpLdfe take w off a b v = .done
      { st := if take then v.s.modX v.is.g (fun x => x.spadWrite [] [] gs) else v.s,
        writes := v.wLoad w a (xs.map (fun x => (x.1, leNat (cellBytes v.gr.x.spad x.2 (widthBytes w))))) } := by
  have hfree : v.w.stores.any (fun x => gs.any (fun g => x.inSpad (16 * g) 16)) = false := by simpa using hq
  have hall : gs.all (fun g => v.gr.x.full.contains g) = true := by simpa using hfull
  have hfirst : (take && v.gr.olderTakes v.is.w gs) = false := by simpa using hold
  simp only [warpLdfe, hx, hg, ht, hfree, hall, hfirst, Bool.not_true, Bool.false_eq_true, if_false]

theorem warpStfe_done (ht : v.s.spadTrap v.gr (widthBytes w) true xs = none) :
    warpStfe w off a b v = .done
      { st := v.s.issueSpad v.gr v.agent (spadData (widthBytes w) xs (v.datum w a)) (granules (widthBytes w) xs) [] } := by
  simp [warpStfe, hx, ht]

theorem warpStfeClr_done (ht : v.s.spadTrap v.gr 16 true xs = none) :
    warpStfeClr off b v = .done { st := v.s.issueSpad v.gr v.agent [] [] (granules 16 xs) } := by
  simp [warpStfeClr, hx, ht]

end Warp

section Hall

variable (hx : [(0, h.saddr b (off.signExtend 32))] = xs)

include hx

theorem hallLds_done (ht : h.s.spadTrap h.gr (widthBytes w) false xs = none)
    (hl : spadLoads h.gr h.gr.hall.stores (widthBytes w) xs = some vs) :
    hallLds w off a b h = .done { st := h.s, s := sWrite a (memExt w (laneVal vs 0)) } := by
  simp [hallLds, hx, ht, hl, HallRes.write]

theorem hallSts_done (ht : h.s.spadTrap h.gr (widthBytes w) true xs = none) :
    hallSts w off a b h = .done
      { st := h.s.issueSpad h.gr h.agent
          (spadData (widthBytes w) xs (fun _ => (h.r64 false a).toNat % 256 ^ widthBytes w)) [] [] } := by
  simp [hallSts, hx, ht]

end Hall

theorem warpAtoms_done (hx : v.saddrs b (off20.signExtend 32) = xs)
    (ht : v.s.spadTrap v.gr (atomBytes w64) true xs = none) (hq : v.w.stores = []) :
    let r := spadRmw op (atomBytes w64) v.gr.x.spad (xs.map (fun x => (x.1, x.2, v.atomData op w64 a x.1)))
    warpAtoms op w64 off20 a b v = .done
      { st := v.s.modX v.is.g (fun e =>
          { e with spad := r.1, dirty := (xs.map (fun x => x.2 / 4096)).foldl natPut e.dirty }),
        writes := v.wLong w64 a (fun l => BitVec.ofNat 64 (laneVal r.2 l)) } := by
  simp [warpAtoms, hx, ht, hq]

end Scratchpad

/-! ### Tag tables (R94, R109, R110) -/

section Tags

variable {a b c : Operand} {d : DWord} {sets base : Nat}

/-- What SPLOOK gives a lane: the slot of its key or of its victim, and below it the slot that was hit, or all ones (R109). -/
def lookupResult : Option (Nat × Bool × Nat) → DWord
  | some (_, hit, slot) => BitVec.ofNat 32 slot ++ (if hit then BitVec.ofNat 32 slot else 0xFFFFFFFF)
  | none => 0

/-- A table within the allocation traps in no lane where no range of it is latched (R94, R109). -/
theorem tagTrap_none (htab : tagTable d = some (sets, base)) (hin : base + 32 * sets ≤ v.gr.image.spad)
    (hopen : ∀ lo n, v.s.locked v.gr.ctx (some v.gr.id) v.gr.id lo n true = false) (touched : List (Nat × Nat × Nat)) :
    v.tagTrap d touched = none := by
  have hlanes : touched.filterMap (fun x =>
      if v.s.locked v.gr.ctx (some v.gr.id) v.gr.id x.2.1 x.2.2 true then
        some (x.1, Cause.rangeLocked, BitVec.ofNat 64 x.2.1, 0)
      else none) = [] :=
    List.filterMap_eq_nil_iff.mpr (fun x _ => if_neg (by rw [hopen]; exact Bool.false_ne_true))
  simp only [WarpView.tagTrap, htab, if_neg (Nat.not_lt.mpr hin), hlanes, laneTrap]

variable (hact : v.active ≠ 0) (htab : tagTable (v.r64 false c 0) = some (sets, base))
  (hin : base + 32 * sets ≤ v.gr.image.spad)
  (hopen : ∀ lo n, v.s.locked v.gr.ctx (some v.gr.id) v.gr.id lo n true = false)

include hact htab hin hopen

theorem warpSplook_done (hq : ∀ x ∈ v.w.stores, x.inSpad base (32 * sets) = false) :
    let r := tagLookups sets base v.gr.x.spad ((Mask.lanes v.active).map (fun l => (l, tagKey (v.r64 false b l))))
    warpSplook a b c v = .done
      { st := if r.2 = [] then v.s else v.s.issueStore v.gr v.agent (.refs r.2),
        writes := v.w64 a (fun l => lookupResult (r.1.find? (fun x => x.1 == l))) } := by
  have hidle : v.tableBusy sets base = false := by simpa [WarpView.tableBusy] using hq
  simp only [warpSplook, if_neg hact, WarpView.descriptor, tagTrap_none htab hin hopen]
  simp only [htab, Option.getD_some, hidle, Bool.false_eq_true, if_false, List.isEmpty_iff]
  rfl

theorem warpTag_done (word : Nat → Nat) :
    let xs := (Mask.lanes v.active).map (fun l => (l, base + 8 * ((v.r32 false a l).toNat % (4 * sets))))
    warpTag a c word v = .done { st := v.s.issueSpad v.gr v.agent (spadData 8 xs word) [] [] } := by
  simp only [warpTag, if_neg hact, WarpView.descriptor, tagTrap_none htab hin hopen]
  simp only [htab, Option.getD_some]

end Tags

/-! ### Fences, WAITMEM and CINV (R111, R112, R114) -/

section Waiting

variable {k : Ctl} {kind : FenceKind} {sc : Scope} {cs : CinvScope} {cnd : WaitCond} {w64 : Bool} {off : BitVec 24} {a b : Operand}
  {ps : List Place} {ls : List (Nat × Nat)} {now : Mask}

theorem fence_inWarp (hf : s.fenceReady v.gr v.agent kind sc = true) : InWarp (.fence k kind sc) s v { st := s } := by
  refine inWarp_of_runWarp rfl ?_
  rintro rfl
  exact if_pos hf

/-- FENCE.H of every kind but acq also waits for the drain (R124). -/
theorem fenceH_inHall (hf : s.fenceReady h.gr h.agent kind sc = true) (hd : kind ≠ .acq → s.drained h.gr sc = true) :
    InHall (.fenceH k kind sc) s h { st := s } := by
  refine inHall_of_runHall rfl ?_
  rintro rfl
  have hdrain : (kind == .acq || h.s.drained h.gr sc) = true := by
    by_cases hk : kind = .acq
    · simp [hk]
    · simp [hd hk]
  exact if_pos (by rw [hf, hdrain]; rfl)

/-- A wait that has been met is over without another check. -/
theorem warpWaitmem_met (hw : waitEnd v.prior = some .met) : warpWaitmem cnd w64 off a b v = .done { st := v.s } := by
  simp only [warpWaitmem, hw]

theorem hallWaitmem_met (hw : waitEnd h.prior = some .met) : hallWaitmem cnd w64 off a b h = .done { st := h.s } := by
  simp only [hallWaitmem, hw]

/-- One whose condition has now been seen in every active lane is over too. -/
theorem warpWaitmem_seen (hw : waitEnd v.prior = none)
    (hc : v.s.checkLanes v.gr (some v.is.w) (atomBytes w64) .load (v.addrs b (off.signExtend 64)) = (s1, .ok ps))
    (hs : s1.waitSeen v.gr v.agent v.w.stores cnd (atomBytes w64) ps (fun l => (v.scalarSrc false w64 a l).toNat) = some now)
    (hall : (now ||| priorSeen v.prior) &&& v.active = v.active) :
    warpWaitmem cnd w64 off a b v = .done { st := s1.checkedWait v } := by
  simp [warpWaitmem, hw, hc, hs, hall]

theorem hallWaitmem_seen (hw : waitEnd h.prior = none)
    (hc : h.s.checkLanes h.gr none (atomBytes w64) .load [(0, h.addr b (off.signExtend 64))] = (s1, .ok ps))
    (hs : s1.waitSeen h.gr h.agent h.gr.hall.stores cnd (atomBytes w64) ps
      (fun _ => (h.r64 false a).toNat % 256 ^ atomBytes w64) = some now)
    (hseen : (now ||| priorSeen h.prior).has 0 = true) :
    hallWaitmem cnd w64 off a b h = .done { st := s1 } := by
  simp only [hallWaitmem, hw, hc, hs, hseen, if_true]

/-- PREF completes at once in both forms (R113). -/
theorem pref_bothDo : BothDo (.pref k off b) (fun v => { st := v.s }) (fun h => { st := h.s }) :=
  bothDo_of (fun _ => rfl) (fun _ => rfl) (fun _ => rfl)

/-- CINV.I waits for the drain and for the Hall's own stores (R114, R124). -/
theorem cinvI_inHall (hd : s.drained h.gr .device = true) (hq : h.gr.hall.stores = []) :
    InHall (.cinvI k cs) s h { st := s.dropCode h.gr cs } := by
  refine inHall_of_runHall rfl ?_
  rintro rfl
  have hdrained : h.engineDrained = true := by simp [HallView.engineDrained, hd, hq]
  exact if_pos hdrained

theorem cinvL2_inWarp (ht : s.translateLanes v.gr (some v.is.w) (v.addrs b (off.signExtend 64)) = (s1, .ok ls)) (hl : ls ≠ []) :
    InWarp (.cinvL2 k off b) s v { st := s1.issueStore v.gr v.agent (.cinv (cinvLines ls)) } := by
  refine inWarp_of_runBoth rfl ?_
  rintro rfl
  simp [ht, hl]

theorem cinvL2_inHall (ht : s.translateLanes h.gr none [(0, h.addr b (off.signExtend 64))] = (s1, .ok ls)) :
    InHall (.cinvL2 k off b) s h { st := s1.issueStore h.gr h.agent (.cinv (cinvLines ls)) } := by
  refine inHall_of_runBoth rfl ?_
  rintro rfl
  simp [ht]

end Waiting

/-! ### Latches (R96, R115) -/

section Latches

variable {k : Ctl} {dst sp : Bool} {a b c : Operand} {w : LatchWait} {n : Nat}

/-- The registration that a Hall has been granted leaves the waiting ones. -/
theorem latchAsk_granted {gr : Group} {rs : List Latch} (hw : s.latchWait gr.id = some w) (hg : w.granted = true) :
    s.latchAsk gr rs = ({ s with latchWaits := s.latchWaits.filter (fun x => x.g != gr.id) }, true) := by
  simp [State.latchAsk, hw, hg]

theorem hallLatch_done (hn : freeHandle h.gr.x.latches = some n)
    (hok : latchRefused h.gr sp (h.r64 false b).toNat (h.r64 false c).toNat = false)
    (hw : h.s.latchWait h.gr.id = some w) (hg : w.granted = true) :
    hallLatch dst sp a b c h = .done
      { st := State.modX { h.s with latchWaits := h.s.latchWaits.filter (fun x => x.g != h.gr.id) } h.gr.id
          (fun x => { x with latches := x.latches ++ [⟨n, (h.r64 false b).toNat, sp⟩] }),
        s := sWrite a (BitVec.ofNat 64 n) } := by
  simp [hallLatch, hn, hok, latchAsk_granted hw hg]

/-- A handle that the group holds in that space is released (R115). -/
theorem latchRel_inHall (hl : ∃ l ∈ h.gr.x.latches, l.handle = (h.r64 false b).toNat ∧ l.spad = sp) :
    InHall (.latchRel k sp b) s h
      { st := State.modX (s.latchDrop h.gr.ctx (.manual h.gr.id (h.r64 false b).toNat)) h.gr.id (fun x =>
          { x with latches := x.latches.filter (fun l => l.handle != (h.r64 false b).toNat) }) } := by
  refine inHall_of_runHall rfl ?_
  rintro rfl
  have hheld : h.gr.x.latches.any (fun l => l.handle == (h.r64 false b).toNat && l.spad == sp) = true := by simpa using hl
  exact if_pos hheld

/-- A registration that fits, that no other comes before and that its trace lets go is granted (R96, R127, R299). -/
theorem latchGrant_becomes {ctx : Nat} (hw : (s.latchWaits.filter (fun w => w.ctx == ctx && !w.granted))[n]? = some w)
    (hfit : s.latchFits w.ranges = true) (hfirst : s.latchAfter w = false)
    (ht : State.traceGrants w.g (w.ranges.filter (fun r => r.spad.isNone)).length s = .go s1) :
    Becomes (.latchGrant ctx n) s (s1.grant w) :=
  becomes_of_finish rfl (by simp only [hw, hfit, hfirst, ht, Bool.not_true, Bool.or_self, Bool.false_eq_true, if_false])

end Latches

/-! ### Stores on their way (R118, R119) -/

section Stores

theorem storeCommit_becomes {g : Agent} {gr : Group} {x : Store} {rest : List Store} (hg : s.group? (agentGroup g) = some gr)
    (hq : s.queueOf g = x :: rest) (hm : s.mayCommit gr g x = true) :
    Becomes (.storeCommit g) s ((s.setQueue g rest).commitStore gr g x) :=
  becomes_of_finish rfl (by simp only [hg, hq, hm, if_true])

theorem storePerformed_becomes {core n : Nat} {e : Committed} (he : (s.buffer core)[n]? = some e)
    (hm : mayPerform (s.buffer core) n e = true) : Becomes (.storePerformed core n) s (s.reachHome e) :=
  becomes_of_finish rfl (by simp only [he, hm, if_true])

end Stores

/-! ### The statements -/

/-- Settles O12: past the checks, the fence and the release, each form completes with its load or store. -/
theorem loadsAndStores : Obligations.LoadsAndStores := by
  unfold Obligations.LoadsAndStores
  intro k m off a b s s1 s2 ps vs
  refine ⟨?warpLd, ?hallLd, ?warpSt, ?hallSt⟩
  case warpLd =>
    exact fun v hc hf hl => inWarp_of_runBoth rfl (by rintro rfl; exact warpLd_done hc hf hl)
  case hallLd =>
    exact fun h hc hf hl => ⟨inHall_of_runBoth rfl (by rintro rfl; exact hallLd_done hc hf hl),
      inAp_of_runBoth rfl (by rintro rfl; exact hallLd_done hc hf hl)⟩
  case warpSt =>
    exact fun v hc hw hf hr => inWarp_of_runBoth rfl (by rintro rfl; exact warpSt_done hc hw hf hr)
  case hallSt =>
    exact fun h hc hw hd hf hr => inHall_of_runBoth rfl (by rintro rfl; exact hallSt_done hc hw hd hf hr)

/-- Settles O13: an ATOM of a warp comes to performing lanes in its first turn and in later ones; the rest completes at once. -/
theorem globalAtomics : Obligations.GlobalAtomics := by
  unfold Obligations.GlobalAtomics
  intro k op m off a b s s1 ps n
  refine ⟨?begins, ?continues, ?hallAtom, ?warpRed, ?hallRed⟩
  case begins =>
    exact fun v hrun hc hd2 hr => performsLanes_of_atomLanes rfl (by rintro rfl; exact warpAtom_begins hrun hc hd2 hr)
  case continues =>
    exact fun v r hrun hr => performsLanes_of_atomLanes rfl (by rintro rfl; exact warpAtom_continues hrun hr)
  case hallAtom =>
    exact fun h hc hd2 hd hr => inHall_of_runBoth rfl (by rintro rfl; exact hallAtom_done hc hd2 hd hr)
  case warpRed => exact fun v hc hr => inWarp_of_runBoth rfl (by rintro rfl; exact warpRed_done hc hr)
  case hallRed => exact fun h hc hr => inHall_of_runBoth rfl (by rintro rfl; exact hallRed_done hc hr)

/-- Settles O14: where no lane traps, each access acts on the allocation; LDFE also finds its granules FULL and its to take. -/
theorem scratchpadAccesses : Obligations.ScratchpadAccesses := by
  unfold Obligations.ScratchpadAccesses
  intro k w take w64 op off off20 a b s vs n
  refine ⟨fun v => ⟨?lds, ?sts, ?ldfe, ?stfe, ?clr⟩, fun h => ⟨?hallLds, ?hallSts⟩, ?atoms⟩
  case lds => exact fun ht hl => inWarp_of_runBoth rfl (by rintro rfl; exact warpLds_done rfl ht hl)
  case sts => exact fun ht => inWarp_of_runBoth rfl (by rintro rfl; exact warpSts_done rfl ht)
  case ldfe =>
    exact fun ht hq hfull hold => inWarp_of_runWarp rfl (by rintro rfl; exact warpLdfe_done rfl rfl ht hq hfull hold)
  case stfe => exact fun ht => inWarp_of_runWarp rfl (by rintro rfl; exact warpStfe_done rfl ht)
  case clr => exact fun ht => inWarp_of_runWarp rfl (by rintro rfl; exact warpStfeClr_done rfl ht)
  case hallLds => exact fun ht hl => inHall_of_runBoth rfl (by rintro rfl; exact hallLds_done rfl ht hl)
  case hallSts => exact fun ht => inHall_of_runBoth rfl (by rintro rfl; exact hallSts_done rfl ht)
  case atoms => exact fun v ht hq => inWarp_of_runWarp rfl (by rintro rfl; exact warpAtoms_done rfl ht hq)

/-- Settles O15: an open table within the allocation traps in no lane, so lookups and writes of tag words go ahead. -/
theorem tagTables : Obligations.TagTables := by
  unfold Obligations.TagTables
  intro k a b c s v sets base hact htab hin hopen
  refine ⟨?splook, ?sptag, ?del⟩
  case splook =>
    exact fun hq => inWarp_of_runWarp rfl (by rintro rfl; exact warpSplook_done hact htab hin hopen hq)
  case sptag => exact inWarp_of_runWarp rfl (by rintro rfl; exact warpTag_done hact htab hin hopen _)
  case del => exact inWarp_of_runWarp rfl (by rintro rfl; exact warpTag_done hact htab hin hopen _)

/-- Settles O16: each instruction completes once what it waits for has come about; PREF waits for nothing. -/
theorem fencesAndCaches : Obligations.FencesAndCaches := by
  unfold Obligations.FencesAndCaches
  intro k kind sc cs cnd w64 off a b s s1 ps ls now
  refine ⟨fun v hf => fence_inWarp hf, fun h hf hd => fenceH_inHall hf hd, ?warpSeen, ?warpMet, ?hallMet, ?hallSeen,
    pref_bothDo, fun h hd hq => cinvI_inHall hd hq, fun v ht hl => cinvL2_inWarp ht hl, fun h ht => cinvL2_inHall ht⟩
  case warpSeen =>
    exact fun v hw hc hs hall => inWarp_of_runBoth rfl (by rintro rfl; exact warpWaitmem_seen hw hc hs hall)
  case warpMet => exact fun v hw => inWarp_of_runBoth rfl (by rintro rfl; exact warpWaitmem_met hw)
  case hallMet => exact fun h hw => inHall_of_runBoth rfl (by rintro rfl; exact hallWaitmem_met hw)
  case hallSeen =>
    exact fun h hw hc hs hseen => inHall_of_runBoth rfl (by rintro rfl; exact hallWaitmem_seen hw hc hs hseen)

/-- Settles O17: both LATCH forms by the grant that they find, and the three events by the conditions under which they happen. -/
theorem latchesAndStores : Obligations.LatchesAndStores := by
  unfold Obligations.LatchesAndStores
  refine ⟨?latch, fun k sp b s h hl => latchRel_inHall hl,
    fun ctx n s s1 w hw hfit hfirst ht => latchGrant_becomes hw hfit hfirst ht,
    fun g s gr x rest hg hq hm => storeCommit_becomes hg hq hm, fun core n s e he hm => storePerformed_becomes he hm⟩
  case latch =>
    intro k dst sp a b c s h n w lo i hn hok hw hg
    have hx : exec i s = runHall i (hallLatch dst sp a b c) s := by cases dst <;> rfl
    exact inHall_of_runHall hx (by rintro rfl; exact hallLatch_done hn hok hw hg)

/-- Settles O49: the decoder's row of PREF says what it accepts, and PREF completes at once with the state as it is. -/
theorem prefetch : Obligations.Prefetch := by
  unfold Obligations.Prefetch
  refine ⟨fun f hop => ⟨?refuses, ?accepted, ?accepts⟩, fun k off b => pref_bothDo⟩
  case refuses =>
    intro hfn
    cases hd : decodeFields f with
    | error r => exact ⟨r, rfl⟩
    | ok i =>
      obtain ⟨hzero, -⟩ := (decodeFields_pref_ok hop).mp hd
      exact absurd hzero hfn
  case accepted =>
    intro i hd
    obtain ⟨-, hkind, ha, b, hb, hi⟩ := (decodeFields_pref_ok hop).mp hd
    exact ⟨b, hb, ha, hkind, hi⟩
  case accepts => exact fun b hb hfn ha hkind => (decodeFields_pref_ok hop).mpr ⟨hfn, hkind, ha, b, hb, rfl⟩

end Sys2Proof.Machine
end

