-- ==== Sys2Proof/Proofs/CoreOrdering.lean ====
section
/-! PROOFS. Ordering in a core: a commit files a store home by home and leaves memory as it is, and memory changes when a filed store
is performed. -/

namespace Sys2Proof.Machine

open Sys2Proof

/-! ### What performance and the commit of a global store leave in memory (R118, R119) -/

section Memory

variable {s : State}

/-- A byte after a store has been performed: the last cell of the store at its address, else what it was. -/
theorem peek_perform (s : State) (e : Committed) (x : Nat) :
    (s.perform e).peek x = ((e.cells.reverse.find? (fun c => c.1 == x)).map (·.2)).getD (s.peek x) := by
  obtain ⟨-, -, hmem, hout⟩ := perform_cells s e
  simp only [State.peek, hout, hmem, List.find?_append]
  cases e.cells.reverse.find? (fun c => c.1 == x) <;> rfl

theorem reachHome_mem (s : State) (e : Committed) : (s.reachHome e).mem = s.mem := by
  obtain ⟨-, -, hmem, -⟩ := perform_cells { s with commits := liftVeils [] (performFirst e s.commits) } e
  exact hmem

theorem reachHome_commits (s : State) (e : Committed) :
    (s.reachHome e).commits = liftVeils [] (performFirst e s.commits) := by
  obtain ⟨-, hcommits, -, -⟩ := perform_cells { s with commits := liftVeils [] (performFirst e s.commits) } e
  exact hcommits

theorem reachHome_groups (s : State) (e : Committed) : (s.reachHome e).groups = s.groups := by
  obtain ⟨hgroups, -, -, -⟩ := perform_cells { s with commits := liftVeils [] (performFirst e s.commits) } e
  exact hgroups

theorem peek_reachHome (s : State) (e : Committed) (x : Nat) :
    (s.reachHome e).peek x = ((e.cells.reverse.find? (fun c => c.1 == x)).map (·.2)).getD (s.peek x) :=
  peek_perform { s with commits := liftVeils [] (performFirst e s.commits) } e x

/-- Taking a store out of an agent's queue leaves memory. -/
theorem peek_setQueue (s : State) (a : Agent) (q : List Store) (x : Nat) : (s.setQueue a q).peek x = s.peek x := by
  obtain ⟨-, hmem, hout⟩ := setQueue_calm s a q
  simp only [State.peek, hmem, hout]

/-- Off a determined core a global store that commits only enters the commit buffers (R119). -/
theorem commitStore_global {gr : Group} (hdet : s.coreDetermined gr.core = false) (a : Agent) (cells : List (Nat × Host.Cell))
    (rel : Option Scope) : s.commitStore gr a (.global cells rel) =
      { s with commits := s.commits ++ splitHomes gr.core gr.ctx a rel cells } := by
  simp only [State.commitStore, hdet, Bool.false_eq_true, if_false]

end Memory

/-! ### A store filed home by home (R119) -/

section Homes

variable {core ctx : Nat} {a : Agent} {rel : Option Scope} {c : Nat × Host.Cell} {cs ds : List (Nat × Host.Cell)}
  {e : Committed} {l : List Committed} {x : Host.Cell}

/-- The entry is the one for the home and the class of a cell. -/
def Committed.isFor (e : Committed) (c : Nat × Host.Cell) : Bool := e.home == homeOf c.1 c.2.1 && e.cls == c.1

/-- The entry with a cell added, if it is the entry for that cell. -/
def Committed.withCell (c : Nat × Host.Cell) (e : Committed) : Committed :=
  if e.isFor c then { e with cells := e.cells ++ [c.2] } else e

/-- One step of `splitHomes`: a cell joins the entry for it, or begins one. -/
def fileCell (core ctx : Nat) (a : Agent) (rel : Option Scope) (l : List Committed) (c : Nat × Host.Cell) : List Committed :=
  if l.any (·.isFor c) then l.map (·.withCell c)
  else l ++ [⟨core, ctx, a, c.1, homeOf c.1 c.2.1, [c.2], rel, false, false⟩]

theorem splitHomes_eq_foldl_fileCell (core ctx : Nat) (a : Agent) (rel : Option Scope) (cs : List (Nat × Host.Cell)) :
    splitHomes core ctx a rel cs = cs.foldl (fileCell core ctx a rel) [] := rfl

theorem Committed.isFor_iff : e.isFor c = true ↔ e.home = homeOf c.1 c.2.1 ∧ e.cls = c.1 := by
  simp [Committed.isFor]

@[simp] theorem Committed.withCell_core : (e.withCell c).core = e.core := by unfold Committed.withCell; split <;> rfl
@[simp] theorem Committed.withCell_agent : (e.withCell c).agent = e.agent := by unfold Committed.withCell; split <;> rfl
@[simp] theorem Committed.withCell_home : (e.withCell c).home = e.home := by unfold Committed.withCell; split <;> rfl
@[simp] theorem Committed.withCell_cls : (e.withCell c).cls = e.cls := by unfold Committed.withCell; split <;> rfl

theorem Committed.mem_withCell_cells : x ∈ (e.withCell c).cells ↔ x ∈ e.cells ∨ (e.isFor c = true ∧ x = c.2) := by
  by_cases h : e.isFor c = true <;> simp [Committed.withCell, h]

/-- The entries `l` hold the cells `cs` of a store, each cell at its own home and each home and class once. -/
structure FiledByHome (core : Nat) (a : Agent) (cs : List (Nat × Host.Cell)) (l : List Committed) : Prop where
  holds : ∀ c ∈ cs, ∃ e ∈ l, c.2 ∈ e.cells ∧ e.isFor c = true
  owned : ∀ e ∈ l, e.core = core ∧ e.agent = a
  placed : ∀ e ∈ l, ∀ x ∈ e.cells, (e.cls, x) ∈ cs ∧ e.home = homeOf e.cls x.1
  apart : l.Pairwise (fun e f => e.home ≠ f.home ∨ e.cls ≠ f.cls)

theorem filedByHome_nil (core : Nat) (a : Agent) : FiledByHome core a [] [] :=
  ⟨by simp, by simp, by simp, .nil⟩

/-- A cell that has an entry joins it: homes, classes and owners stay. -/
theorem FiledByHome.join (h : FiledByHome core a cs l) (hc : ∃ e ∈ l, e.isFor c = true) :
    FiledByHome core a (cs ++ [c]) (l.map (·.withCell c)) where
  holds d hd := by
    rcases List.mem_append.mp hd with hold | hnew
    · obtain ⟨e, he, hcell, hfor⟩ := h.holds d hold
      exact ⟨e.withCell c, List.mem_map_of_mem he, Committed.mem_withCell_cells.mpr (.inl hcell),
        by simpa [Committed.isFor] using hfor⟩
    · obtain rfl := List.mem_singleton.mp hnew
      obtain ⟨e, he, hfor⟩ := hc
      exact ⟨e.withCell d, List.mem_map_of_mem he, Committed.mem_withCell_cells.mpr (.inr ⟨hfor, rfl⟩),
        by simpa [Committed.isFor] using hfor⟩
  owned e' he' := by
    obtain ⟨e, he, rfl⟩ := List.mem_map.mp he'
    simpa using h.owned e he
  placed e' he' x hx := by
    obtain ⟨e, he, rfl⟩ := List.mem_map.mp he'
    simp only [Committed.withCell_cls, Committed.withCell_home]
    rcases Committed.mem_withCell_cells.mp hx with hold | ⟨hfor, rfl⟩
    · obtain ⟨hmem, hhome⟩ := h.placed e he x hold
      exact ⟨List.mem_append_left _ hmem, hhome⟩
    · obtain ⟨hhome, hcls⟩ := Committed.isFor_iff.mp hfor
      simp [hhome, hcls]
  apart := by simpa [List.pairwise_map] using h.apart

/-- A cell without an entry begins one, whose home and class no other entry has. -/
theorem FiledByHome.start (h : FiledByHome core a cs l) (hc : ∀ e ∈ l, e.isFor c = false) :
    FiledByHome core a (cs ++ [c]) (l ++ [⟨core, ctx, a, c.1, homeOf c.1 c.2.1, [c.2], rel, false, false⟩]) where
  holds d hd := by
    rcases List.mem_append.mp hd with hold | hnew
    · obtain ⟨e, he, hcell⟩ := h.holds d hold
      exact ⟨e, List.mem_append_left _ he, hcell⟩
    · obtain rfl := List.mem_singleton.mp hnew
      exact ⟨_, List.mem_append_right _ List.mem_cons_self, by simp [Committed.isFor]⟩
  owned e he := by
    rcases List.mem_append.mp he with hold | hnew
    · exact h.owned e hold
    · simp [List.mem_singleton.mp hnew]
  placed e he x hx := by
    rcases List.mem_append.mp he with hold | hnew
    · obtain ⟨hmem, hhome⟩ := h.placed e hold x hx
      exact ⟨List.mem_append_left _ hmem, hhome⟩
    · obtain rfl := List.mem_singleton.mp hnew
      obtain rfl := List.mem_singleton.mp hx
      simp
  apart := by
    refine List.pairwise_append.mpr ⟨h.apart, List.pairwise_singleton _ _, fun e he f hf => ?_⟩
    obtain rfl := List.mem_singleton.mp hf
    have hnot : ¬(e.home = homeOf c.1 c.2.1 ∧ e.cls = c.1) := by simp [← Committed.isFor_iff, hc e he]
    exact Decidable.not_and_iff_not_or_not.mp hnot

theorem FiledByHome.file (h : FiledByHome core a cs l) (c : Nat × Host.Cell) :
    FiledByHome core a (cs ++ [c]) (fileCell core ctx a rel l c) := by
  unfold fileCell
  split
  case isTrue hany => exact h.join (List.any_eq_true.mp hany)
  case isFalse hany => exact h.start (by simpa using hany)

theorem FiledByHome.fileAll (h : FiledByHome core a cs l) :
    FiledByHome core a (cs ++ ds) (ds.foldl (fileCell core ctx a rel) l) := by
  induction ds generalizing cs l with
  | nil => simpa using h
  | cons d ds ih => simpa using ih (h.file d)

/-- A commit files every cell of the store at its own home, one entry for each home and class. -/
theorem filedByHome_splitHomes (core ctx : Nat) (a : Agent) (rel : Option Scope) (cs : List (Nat × Host.Cell)) :
    FiledByHome core a cs (splitHomes core ctx a rel cs) := by
  rw [splitHomes_eq_foldl_fileCell]
  exact (filedByHome_nil core a).fileAll

end Homes

/-! ### The statement -/

/-- Settles O58: a performed store writes its own cells, a commit off a determined core leaves memory, and `splitHomes` keeps the
cells filed by home. -/
theorem storesReachMemory : Obligations.StoresReachMemory := by
  unfold Obligations.StoresReachMemory
  refine ⟨?performed, ?commits, ?filed⟩
  case performed =>
    intro core n s e hwf _ he hm
    refine ⟨_, storePerformed_becomes he hm, reachHome_commits s e, reachHome_groups s e, fun x => ?_⟩
    rw [peek_settle hwf (reachHome_mem s e), peek_reachHome]
    cases e.cells.reverse.find? (fun c => c.1 == x) <;> rfl
  case commits =>
    intro a s gr cells rel rest hwf _ hg hq hdet
    obtain ⟨hcommits, hmem, -⟩ := setQueue_calm s a rest
    refine ⟨_, storeCommit_becomes hg hq rfl, ?_⟩
    rw [commitStore_global hdet]
    exact ⟨fun x => (peek_settle hwf hmem x).trans (peek_setQueue s a rest x),
      congrArg (· ++ splitHomes gr.core gr.ctx a rel cells) hcommits⟩
  case filed =>
    intro core ctx a rel cs
    obtain ⟨hholds, howned, hplaced, hapart⟩ := filedByHome_splitHomes core ctx a rel cs
    refine ⟨fun c hc => ?_, fun e he => ?_, hapart⟩
    · obtain ⟨e, he, hcell, hfor⟩ := hholds c hc
      obtain ⟨hhome, hcls⟩ := Committed.isFor_iff.mp hfor
      exact ⟨e, he, hcell, hcls, hhome⟩
    · obtain ⟨hcore, hagent⟩ := howned e he
      exact ⟨hcore, hagent, hplaced e he⟩

end Sys2Proof.Machine
end

