-- ==== Sys2Proof/Proofs/CoreIntegerControl.lean ====
section
/-! PROOFS. Integers, logic, moves and control flow in a core: instructions whose forms always complete with a value, and jumps, which
complete where their targets can be reached. -/

namespace Sys2Proof

/-! ### The decoder's rows of AND, OR and XOR (R37, R142) -/

section Rows

variable {α β : Type} {y : β}

theorem code_ok {o : Option α} {r : α → Except Reject β} : code o r = .ok y ↔ ∃ x, o = some x ∧ r x = .ok y := by
  cases o <;> simp [code]

theorem abc_ok {f : Fields} {mk : Ctl → Operand → Operand → Operand → Instr} {i : Instr} :
    abc f mk = .ok i ↔ ∃ a b c, Operand.decode f.a = .ok a ∧ Operand.decode f.b = .ok b ∧ Operand.decode f.c = .ok c ∧
      i = mk f.ctl a b c := by
  simp only [abc, opnd_ok, Except.ok.injEq, eq_comm (a := i), exists_and_left]

/-- The code of a width without a sign is one of two. -/
theorem w64OfCode_eq_some {x : BitVec 4} {w64 : Bool} : w64OfCode x = some w64 ↔ x = wCode w64 := by
  revert x w64
  decide

/-- What a row of the logic opcodes accepts. -/
theorem decLogic_ok {f : Fields} {mk : Ctl → Bool → Bool → Operand → Operand → Operand → Instr} {i : Instr} :
    decLogic f mk = .ok i ↔ cut 5 7 f.fn = 0 ∧ ∃ w64, cut 0 4 f.fn = wCode w64 ∧
      ∃ a b c, Operand.decode f.a = .ok a ∧ Operand.decode f.b = .ok b ∧ Operand.decode f.c = .ok c ∧
        i = mk f.ctl (tap f.fn 4) w64 a b c := by
  simp only [decLogic, fnNeed_ok, code_ok, abc_ok, w64OfCode_eq_some, beq_iff_eq]

/-- A row of the logic opcodes refuses any other FN. -/
theorem decLogic_refuses {f : Fields} {mk : Ctl → Bool → Bool → Operand → Operand → Operand → Instr}
    (hfn : cut 5 7 f.fn ≠ 0 ∨ (cut 0 4 f.fn ≠ wCode false ∧ cut 0 4 f.fn ≠ wCode true)) : ∃ r, decLogic f mk = .error r := by
  cases hd : decLogic f mk with
  | error r => exact ⟨r, rfl⟩
  | ok i =>
    obtain ⟨hzero, w64, hcode, -⟩ := decLogic_ok.mp hd
    obtain hne | ⟨h32, h64⟩ := hfn
    · exact absurd hzero hne
    · cases w64
      · exact absurd hcode h32
      · exact absurd hcode h64

/-- The instruction of a logic opcode. -/
def logicInstr (op : BitVec 7) : Ctl → Bool → Bool → Operand → Operand → Operand → Instr :=
  if op = 0x10 then Instr.and else if op = 0x11 then Instr.or else Instr.xor

/-- The rows of the three logic opcodes in the opcode table (R48, R142). -/
theorem decodeFields_logic {f : Fields} (hop : f.op = 0x10 ∨ f.op = 0x11 ∨ f.op = 0x12) :
    decodeFields f = decLogic f (logicInstr f.op) := by
  have hrow : ∀ op : BitVec 7, op = 0x10 ∨ op = 0x11 ∨ op = 0x12 → (cut 4 3 op).toNat = 1 := by decide
  simp only [decodeFields, hrow f.op hop, decRow1]
  obtain hop | hop | hop := hop <;> rw [hop] <;> rfl

end Rows

end Sys2Proof

namespace Sys2Proof.Machine

open Sys2Proof

/-! ### Instructions that complete under a condition -/

section Rules

variable {i : Instr} {fw : WarpView → WarpRes} {fh : HallView → HallRes} {ew : WarpView → WarpEff} {eh : HallView → HallEff}
  {P : WarpView → Prop} {Q : HallView → Prop} {target : WarpView → Nat → Option Word} {goal : HallView → Word}
  {ws : WarpView → List RegWrite} {ss : HallView → List (Nat × DWord)}

theorem warpDoes_of_runWarp (hx : ∀ s, exec i s = runWarp i fw s) (hw : ∀ v, P v → fw v = .done (ew v)) : WarpDoes i P ew :=
  fun s v hi hp hfit => (hx s).trans (runWarp_done hi (hw v hp) hfit)

theorem warpDoes_of_runBoth (hx : ∀ s, exec i s = runBoth i fh fw s) (hw : ∀ v, P v → fw v = .done (ew v)) : WarpDoes i P ew :=
  fun s v hi hp hfit => (hx s).trans (runBoth_done hi (hw v hp) hfit)

theorem hallDoes_of_runBoth (hx : ∀ s, exec i s = runBoth i fh fw s) (hh : ∀ h, Q h → fh h = .done (eh h)) : HallDoes i Q eh :=
  fun s _ h hi hq => (hx s).trans (runBoth_hall hi (hh h hq))

theorem apDoes_of_runBoth (hx : ∀ s, exec i s = runBoth i fh fw s) (hh : ∀ h, Q h → fh h = .done (eh h)) : ApDoes i Q eh :=
  fun s _ _ h hi hq => (hx s).trans (runBoth_ap hi (hh h hq))

/-! ### Jumps (R157, R158) -/

/-- A jump whose targets can all be reached is made. -/
theorem jumpTo_reaches {v : WarpView} {t : Nat → Option Word} (hr : v.Reaches t) (w : List RegWrite) :
    v.jumpTo t w = .done (v.jump t w) := by
  have hnone : v.targetTrap t = none := hr
  simp only [WarpView.jumpTo, hnone]

theorem hallJumpTo_reached {h : HallView} {pc : Word} (hr : h.s.targetTrap h.gr pc = none) (w : List (Nat × DWord)) :
    h.jumpTo pc w = .done { st := h.s, s := w, pc := some pc } := by
  simp only [HallView.jumpTo, hr]

theorem lanesGo_of_runWarp (hx : ∀ s, exec i s = runWarp i fw s) (hw : ∀ v, P v → fw v = v.jumpTo (target v) (ws v)) :
    LanesGo i P target ws :=
  warpDoes_of_runWarp hx (fun v ⟨hp, hr⟩ => (hw v hp).trans (jumpTo_reaches hr _))

theorem lanesGo_of_runBoth (hx : ∀ s, exec i s = runBoth i fh fw s) (hw : ∀ v, P v → fw v = v.jumpTo (target v) (ws v)) :
    LanesGo i P target ws :=
  warpDoes_of_runBoth hx (fun v ⟨hp, hr⟩ => (hw v hp).trans (jumpTo_reaches hr _))

theorem hallGoes_of_runBoth (hx : ∀ s, exec i s = runBoth i fh fw s) (hh : ∀ h, Q h → fh h = h.jumpTo (goal h) (ss h)) :
    HallGoes i Q goal ss :=
  ⟨hallDoes_of_runBoth hx (fun h ⟨hq, hr⟩ => (hh h hq).trans (hallJumpTo_reached hr _)),
    apDoes_of_runBoth hx (fun h ⟨hq, hr⟩ => (hh h hq).trans (hallJumpTo_reached hr _))⟩

/-! ### Instructions that give a value (R131, R142, R144) -/

theorem givesInt_of {m : IntMod} {f : IntFn} {old : Bool} {a b c : Operand}
    (hx : ∀ s, exec i s = runBoth i (hallInt m f a b c) (warpInt m f old a b c) s) : GivesInt i m f old a b c :=
  bothDo_of hx (fun _ => rfl) (fun _ => rfl)

/-- A logic operation that does not read the old A gives the same whatever that is. -/
theorem givesLogic_of {w64 old : Bool} {f : DWord → DWord → DWord → DWord} {a b c : Operand}
    (hx : ∀ s, exec i s = runLogic i w64 f old a b c s) (hf : ∀ x y z, f x y (if old then z else 0) = f x y z) :
    GivesLogic i w64 f a b c :=
  bothDo_of hx (fun v => congrArg (fun g => WarpRes.write v (v.wLong w64 a g)) (funext fun _ => hf _ _ _)) (fun _ => rfl)

end Rules

/-! ### ISAD, UNPK3 and ISECT (R137, R151, R152) -/

section Forms

variable {v : WarpView} {a b c : Operand}

theorem widthBits_eq_64 {w : IWidth} : widthBits w = 64 ↔ w = .b64 := by
  cases w <;> decide

/-- ISAD writes a pair for a 64-bit type and a register for any other. -/
theorem warpIsad_eq (m : IntMod) : warpIsad m a b c v = .write v
    (v.wLong (m.ty.w == .b64) a (fun l =>
      let src := fun o e => if m.pk then v.elem m.ty.signed (widthBits m.ty.w) o l e
        else v.scalarSrc m.ty.signed (m.ty.w == .b64) o l
      sadAcc m (v.scalarSrc false (m.ty.w == .b64) a l) (sadSum m (src b) (src c)))) := by
  have hw : (widthBits m.ty.w == 64) = (m.ty.w == .b64) := 
    Bool.eq_iff_iff.mpr (by simp only [beq_iff_eq, widthBits_eq_64])
  simp only [warpIsad, widthBits_eq_64, hw]
  by_cases h : m.ty.w = .b64
  · simp only [h, beq_self_eq_true, if_true]; rfl
  · simp only [h, beq_false_of_ne h, if_false]; rfl

/-- With good codes alone in the active lanes, UNPK3 finds no bad one. -/
theorem unpk3_badCodes_eq_zero (h : ∀ l, l < 32 → v.active.has l = true → (v.r32 false b l).toNat % 256 ≤ 242) :
    Mask.of (fun l => v.active.has l && decide (242 < (v.r32 false b l).toNat % 256)) = 0 := by
  refine of_eq_zero (fun l hl => ?_)
  cases hact : v.active.has l with
  | false => rfl
  | true => exact decide_eq_false (Nat.not_lt.mpr (h l hl hact))

end Forms

/-! ### RET and LOOP (R163, R165) -/

section Returns

variable {v : WarpView} {k : Ctl}

theorem warpRet_agreed {x : Word} (hu : (v.is.queued && k.guard.uniform) = true) (hl : v.is.link = some x)
    (hx : ∀ j, j < 32 → v.active.has j = true → v.lane linkReg j = x) : warpRet k v = .done { st := v.s } := by
  have hbad : Mask.of (fun j => v.active.has j && v.lane linkReg j != x) = 0 := by
    refine of_eq_zero (fun j hj => ?_)
    cases hact : v.active.has j with
    | false => rfl
    | true => simp [hx j hj hact]
  simp only [warpRet, hu, hl, hbad]
  rfl

/-- With an empty link stack the warp tells its Hall the links of its lanes. -/
theorem warpRet_votes (hu : (v.is.queued && k.guard.uniform) = true) (hl : v.is.link = none) :
    warpRet k v = .done { st := v.giveVote (fun j => (v.lane linkReg j).setWidth 64) } := by
  simp only [warpRet, hu, hl, if_true]

variable {h : HallView} {off : BitVec 24} {a : Operand}

/-- The Hall's loop goes round again while its count is 2 or more. -/
theorem hallLoop_again (hc : 2 ≤ (h.r64 false a).toNat) :
    hallLoop off a h = h.jumpTo (pcPlus h.pc off) (sWrite a (h.r64 false a - 1)) := by
  have h0 : h.r64 false a ≠ 0 := by rintro h0; simp [h0] at hc
  have h1 : h.r64 false a ≠ 1 := by rintro h1; simp [h1] at hc
  simp only [hallLoop, h0, h1, if_false]

theorem hallLoop_ends (hc : (h.r64 false a).toNat ≤ 1) :
    hallLoop off a h = .done { st := h.s, s := if h.r64 false a = 0 then [] else sWrite a 0 } := by
  by_cases h0 : h.r64 false a = 0
  · simp only [hallLoop, h0, if_true]
  · have h1 : h.r64 false a = 1 := by bv_omega
    simp only [hallLoop, h1]; rfl

end Returns

/-! ### Immediates of logic operations (R38, R142) -/

section Immediates

variable {v : WarpView} {x : BitVec 20} {l : Nat}

/-- A 64-bit value is its two words. -/
theorem append_words (y : DWord) : (y >>> (32 * 1)).setWidth 32 ++ (y >>> (32 * 0)).setWidth 32 = y := by
  refine BitVec.eq_of_getLsbD_eq (fun i hi => ?_)
  rw [BitVec.getLsbD_append]
  by_cases hlow : i < 32
  · simp [hlow]
  · simp [hlow, show i - 32 < 32 by omega, show 32 + (i - 32) = i by omega]

/-- The low word of a sign-extended immediate is the immediate sign-extended to a word. -/
theorem setWidth_signExtend_imm (x : BitVec 20) : (x.signExtend 64).setWidth 32 = x.signExtend 32 := by
  ext i hi
  have hwide : i < 64 := by omega
  simp [BitVec.getLsbD_eq_getElem, BitVec.getElem_signExtend, hwide]

theorem logicSrc_imm64 : v.logicSrc true (.imm x) l = x.signExtend 64 :=
  append_words (x.signExtend 64)

theorem logicSrc_imm32 : (v.logicSrc false (.imm x) l).setWidth 32 = x.signExtend 32 := by
  show (((x.signExtend 64 >>> (32 * 0)).setWidth 32).setWidth 64).setWidth 32 = x.signExtend 32
  simpa using setWidth_signExtend_imm x

end Immediates

/-! ### The statements -/

/-- Settles O1: each instruction is its exact value, in both forms, by the common form of integer instructions. -/
theorem integerArithmetic : Obligations.IntegerArithmetic := by
  unfold Obligations.IntegerArithmetic
  exact fun k m a b c => ⟨givesInt_of (fun _ => rfl), givesInt_of (fun _ => rfl), givesInt_of (fun _ => rfl),
    givesInt_of (fun _ => rfl), givesInt_of (fun _ => rfl), givesInt_of (fun _ => rfl), givesInt_of (fun _ => rfl),
    givesInt_of (fun _ => rfl), givesInt_of (fun _ => rfl), givesInt_of (fun _ => rfl), givesInt_of (fun _ => rfl)⟩

/-- Settles O2: each form always completes; ISAD's widths and ISEL's choice are the two that the statement puts another way. -/
theorem integerCarryAndSums : Obligations.IntegerCarryAndSums := by
  unfold Obligations.IntegerCarryAndSums
  intro k m ty w64 neg bs cs sat ix cmp a b c
  refine ⟨?iaddc, ?isad, ?idot4, ?asacc, ?icmp, ?isel⟩
  case iaddc => exact bothDo_of (fun _ => rfl) (fun _ => rfl) (fun _ => rfl)
  case isad => exact bothDo_of (fun _ => rfl) (fun _ => warpIsad_eq m) (fun _ => rfl)
  case idot4 => exact onlyWarp_of (fun _ => rfl) (fun _ => rfl)
  case asacc => exact onlyWarp_of (fun _ => rfl) (fun _ => rfl)
  case icmp => exact bothDo_of (fun _ => rfl) (fun _ => rfl) (fun _ => rfl)
  case isel =>
    refine bothDo_of (fun _ => rfl) (fun v => congrArg (fun g => WarpRes.write v (v.wLong ty.w64 a g)) (funext fun l => ?_))
      (fun h => congrArg (HallRes.write h a) ?_)
    · exact (apply_ite (fun o => v.scalarSrc ty.signed ty.w64 o l) _ b c).symm
    · exact (apply_ite (h.r64 ty.signed) _ b c).symm

/-- What AND, OR and XOR give, which O3 and O50 both state. -/
theorem logic_gives (k : Ctl) (nc w64 : Bool) (a b c : Operand) :
    GivesLogic (.and k nc w64 a b c) w64 (fun x y _ => x &&& (if nc then ~~~y else y)) a b c ∧
    GivesLogic (.or k nc w64 a b c) w64 (fun x y _ => x ||| (if nc then ~~~y else y)) a b c ∧
    GivesLogic (.xor k nc w64 a b c) w64 (fun x y _ => x ^^^ (if nc then ~~~y else y)) a b c :=
  ⟨givesLogic_of (old := false) (fun _ => rfl) (fun _ _ _ => rfl), givesLogic_of (old := false) (fun _ => rfl) (fun _ _ _ => rfl),
    givesLogic_of (old := false) (fun _ => rfl) (fun _ _ _ => rfl)⟩

/-- Settles O3: the logic operations by their common form, the others by the value that each form completes with. -/
theorem logicAndShifts : Obligations.LogicAndShifts := by
  unfold Obligations.LogicAndShifts
  intro k nc w64 tbl ty a b c
  obtain ⟨hand, hor, hxor⟩ := logic_gives k nc w64 a b c
  refine ⟨hand, hor, hxor, ?bitfn, ?brev, ?shl, ?shr, ?rot, ?bfx, ?bfi, ?popc, ?clz, ?ctz⟩
  case bitfn => exact givesLogic_of (old := true) (fun _ => rfl) (fun _ _ _ => rfl)
  case brev => exact givesLogic_of (old := false) (fun _ => rfl) (fun _ _ _ => rfl)
  all_goals exact bothDo_of (fun _ => rfl) (fun _ => rfl) (fun _ => rfl)

/-- Settles O4: MOV is a logic operation; UNPK3 finds no bad code where it would trap; the others always complete. -/
theorem movesAndLanes : Obligations.MovesAndLanes := by
  unfold Obligations.MovesAndLanes
  intro k m w64 z trap hi a b c
  refine ⟨?mov, ?movi, ?perm, ?pack, ?unpk3, ?isect⟩
  case mov => exact givesLogic_of (old := false) (fun _ => rfl) (fun _ _ _ => rfl)
  case movi => exact bothDo_of (fun _ => rfl) (fun _ => rfl) (fun _ => rfl)
  case perm =>
    refine onlyWarp_of (fun _ => rfl) (fun v => ?_)
    simp only [warpPerm, Bool.and_eq_true, decide_eq_true_eq]
    rfl
  case pack => exact bothDo_of (fun _ => rfl) (fun _ => rfl) (fun _ => rfl)
  case unpk3 =>
    refine warpDoes_of_runWarp (fun _ => rfl) (fun v hgood => if_neg ?_)
    obtain rfl | hgood := hgood
    · simp
    · simp [unpk3_badCodes_eq_zero hgood]
  case isect =>
    refine onlyWarp_of (fun _ => rfl) (fun v => congrArg (fun f => WarpRes.write v (v.w64 a f)) (funext fun l => ?_))
    cases laneNumbers.find? (fun j => (v.r32 false c j).toNat == (v.r32 false b l).toNat) <;> rfl

/-- Settles O6: each form comes to a jump, which is made where its targets can be reached, or to what RET and LOOP do without one. -/
theorem branchesAndCalls : Obligations.BranchesAndCalls := by
  unfold Obligations.BranchesAndCalls
  intro k l off a b
  refine ⟨?bra, ?hallBra, ?brx, ?hallBrx, ?call, ?callLinks, ?callx, ?ret, ?retAgreed, ?retVotes, ?loop, ?hallLoop, ?loopEnds⟩
  case bra => exact lanesGo_of_runBoth (fun _ => rfl) (fun _ _ => rfl)
  case hallBra => exact hallGoes_of_runBoth (fun _ => rfl) (fun _ _ => rfl)
  case brx => exact lanesGo_of_runBoth (fun _ => rfl) (fun _ _ => rfl)
  case hallBrx => exact hallGoes_of_runBoth (fun _ => rfl) (fun _ _ => rfl)
  case call => exact lanesGo_of_runWarp (fun _ => rfl) (fun v hu => if_neg (Bool.eq_false_iff.mp hu))
  case callLinks => exact warpDoes_of_runWarp (fun _ => rfl) (fun v hu => if_pos hu)
  case callx => exact lanesGo_of_runWarp (fun _ => rfl) (fun _ _ => rfl)
  case ret => exact lanesGo_of_runWarp (fun _ => rfl) (fun v hu => if_neg (Bool.eq_false_iff.mp hu))
  case retAgreed =>
    exact fun x => warpDoes_of_runWarp (fun _ => rfl) (fun v ⟨hu, hl, hx⟩ => warpRet_agreed hu hl hx)
  case retVotes => exact warpDoes_of_runWarp (fun _ => rfl) (fun v ⟨hu, hl⟩ => warpRet_votes hu hl)
  case loop => exact lanesGo_of_runBoth (fun _ => rfl) (fun _ _ => rfl)
  case hallLoop => exact hallGoes_of_runBoth (fun _ => rfl) (fun h hc => hallLoop_again hc)
  case loopEnds => exact hallDoes_of_runBoth (fun _ => rfl) (fun h hc => hallLoop_ends hc)

/-- Settles O50: the decoder's rows, the effect shared with O3, and how a KIND 10 C is read. -/
theorem bitwiseLogic : Obligations.BitwiseLogic := by
  unfold Obligations.BitwiseLogic
  refine ⟨fun f hop => ⟨?refuses, ?accepts⟩, logic_gives, fun v h x l => ⟨logicSrc_imm64, logicSrc_imm32, rfl⟩⟩
  case refuses =>
    intro hfn
    rw [decodeFields_logic hop]
    exact decLogic_refuses hfn
  case accepts =>
    intro a b c ha hb hc w64 hzero hcode
    rw [decodeFields_logic hop]
    exact decLogic_ok.mpr ⟨hzero, w64, hcode, a, b, c, ha, hb, hc, rfl⟩

end Sys2Proof.Machine
end

