-- ==== Sys2Proof/Proofs/CoreFloat.lean ====
section
/-! PROOFS. Floating point in a core: instructions that give a result and flags for each element, the sticky flags, and the special
registers that a path reads and writes. -/

namespace Sys2Proof.Machine

open Sys2Proof

/-! ### Results and flags of elements (R183) -/

section Forms

variable {i : Instr} {f : Fmt} {pk : Bool} {a : Operand} {r : WarpView → Nat → Nat → FRes}

/-- An instruction that always completes with the results `r` of its lanes and elements gives them with their flags. -/
theorem givesFloat_of (hx : ∀ s, exec i s = runWarp i (fun v => v.fdone f pk a (r v)) s) : GivesFloat i f pk a r :=
  onlyWarp_of hx (fun _ => rfl)

end Forms

/-! ### Special registers (R181, R210, R235) -/

section Special

variable {a b : Operand} {v : WarpView} {n : Nat} {x : Nat → Word}

/-- What the three registers that WRSR may name become: %fpstat takes RM from the lowest active lane and the flags from each. -/
theorem setSpr_eq (hn : n ∈ [0x010, 0x011, 0x024]) :
    v.setSpr n x = v.s.modWarp v.is.g v.is.w (fun w =>
      if n = 0x011 then { w with sfuslow := x ((Mask.lowest v.active).getD 0) }
      else if n = 0x024 then { w with epc := x ((Mask.lowest v.active).getD 0) }
      else { w with
        rm := BitVec.ofNat 3 ((x ((Mask.lowest v.active).getD 0)).toNat / 256)
        threads := Lanes.of (fun l =>
          if v.active.has l then { w.threads.get l with flags := (x l).setWidth 5 } else w.threads.get l) }) := by
  simp only [List.mem_cons, List.not_mem_nil, or_false] at hn
  obtain rfl | rfl | rfl := hn
  · rfl
  · rfl
  · rfl

/-- WRSR by a path with an active lane completes unless it would leave a reserved mode in %fpstat.RM. -/
theorem warpWrsr_done (hact : v.active ≠ 0)
    (hrm : sprNo a = 0x010 → rmOk (v.r32 false b ((Mask.lowest v.active).getD 0)) = true) :
    warpWrsr a b v = .done { st := v.setSpr (sprNo a) (fun l => v.r32 false b l) } := by
  have hgood : (sprNo a == 0x010 && !rmOk (v.r32 false b ((Mask.lowest v.active).getD 0))) = false :=
    and_not_eq_false_of_imp (fun h => hrm (beq_iff_eq.mp h))
  simp only [warpWrsr, hact, hgood, if_false, Bool.false_eq_true]

end Special

/-! ### The statements -/

/-- Settles O8: each form always completes with the results of its elements; FMAD2 packs the two components into a pair. -/
theorem floatArithmetic : Obligations.FloatArithmetic := by
  unfold Obligations.FloatArithmetic
  intro k m p q a b c
  refine ⟨?fadd, ?fsub, ?fmul, ?ffma, ?fdiv, ?fsqrt, ?fminmax, ?fdot2, ?fmad2⟩
  case fmad2 => exact onlyWarp_of (fun _ => rfl) (fun _ => rfl)
  all_goals exact givesFloat_of (fun _ => rfl)

/-- Settles O9: FCMP writes a bit, FCLASS a bit or a register; ICVT's choice of integer or float is made before it
completes; the others give a result for each element. -/
theorem floatSignsAndConversions : Obligations.FloatSignsAndConversions := by
  unfold Obligations.FloatSignsAndConversions
  intro k m cv ic cmp x a b c
  refine ⟨?fabs, ?fneg, ?fcopys, ?fcmp, ?fclass, ?frnd, ?fcvt, ?icvt, ?scale, ?getexp, ?getmant⟩
  case fcmp => exact onlyWarp_of (fun _ => rfl) (fun _ => rfl)
  case fclass =>
    refine onlyWarp_of (fun _ => rfl) (fun v => ?_)
    cases a with
    | pred _ => cases c with
      | imm _ => rfl
      | _ => rfl
    | _ => rfl
  case icvt => exact onlyWarp_of (fun _ => rfl) (fun _ => (apply_ite WarpRes.done _ _ _).symm)
  all_goals exact givesFloat_of (fun _ => rfl)

/-- Settles O10: QUANT and DEQ give a result for each lane, CBDEC and FSTAT.GET a register; the other FSTAT forms change the flags of
the active lanes. -/
theorem codebooksAndFlags : Obligations.CodebooksAndFlags := by
  unfold Obligations.CodebooksAndFlags
  intro k md src a b c
  refine ⟨?quant, ?cbdec, ?deq, ?get, fun op => ?change⟩
  case quant => exact givesFloat_of (fun _ => rfl)
  case cbdec => exact onlyWarp_of (fun _ => rfl) (fun _ => rfl)
  case deq => exact givesFloat_of (fun _ => rfl)
  case get => exact onlyWarp_of (fun _ => rfl) (fun _ => rfl)
  case change =>
    cases op with
    | false => exact onlyWarp_of (fun _ => rfl) (fun _ => rfl)
    | true => exact onlyWarp_of (fun _ => rfl) (fun _ => rfl)

/-- Settles O21: reads always complete, CLK.RET in a warp alone; WRSR past its checks leaves its register written. -/
theorem specialRegisters : Obligations.SpecialRegisters := by
  unfold Obligations.SpecialRegisters
  intro k a b
  refine ⟨?rdsr, ?wrsr, ?clk, ?clkVt, ?clkRet⟩
  case wrsr =>
    refine warpDoes_of_runWarp (fun _ => rfl) (fun v ⟨hact, hn, hrm⟩ => ?_)
    rw [warpWrsr_done hact hrm, setSpr_eq hn]
  case clkRet => exact warpDoes_of_runBoth (fun _ => rfl) (fun _ _ => rfl)
  all_goals exact bothDo_of (fun _ => rfl) (fun _ => rfl) (fun _ => rfl)

end Sys2Proof.Machine
end

