-- ==== Sys2Proof/Proofs/SpecialFunctions.lean ====
section
/-! PROOFS. The special-function unit of a core: what FUNC, FUNCA and FUNC2 put into it, and what its two phases do with an instruction
that it holds. -/

namespace Sys2Proof.Machine

open Sys2Proof

/-! ### Issue into the unit (R204, R214 to R216) -/

section Issue

variable {i : Instr} {v : WarpView} {f : Fmt} {fast : Bool} {ws : List RegWrite} {flags : Nat → BitVec 5} {slow : Nat → Bool}

/-- An instruction with no active lane takes no place in the unit. -/
theorem toSfu_idle (hv : v.active = 0) : v.toSfu f fast ws flags slow = .done { st := v.s } :=
  if_pos hv

theorem toSfu_active (hv : v.active ≠ 0) : v.toSfu f fast ws flags slow =
    .done { st := { v.s with sfu := v.s.sfu ++ [v.sfuOp f fast ws flags slow] }, late := ws } :=
  if_neg hv

/-- An instruction whose meaning is to enter the unit with its results, its flags and its lanes for phase 2 enters it as these. -/
theorem enters_of {ws : WarpView → List RegWrite} {flags : WarpView → Nat → BitVec 5} {slow : WarpView → Nat → Bool}
    (hx : ∀ s, exec i s = runWarp i (fun v => v.toSfu f fast (ws v) (flags v) (slow v)) s) :
    Enters i (fun v => v.sfuOp f fast (ws v) (flags v) (slow v)) :=
  ⟨warpDoes_of_runWarp hx (fun _ => toSfu_idle), warpDoes_of_runWarp hx (fun _ => toSfu_active)⟩

end Issue

/-! ### The two phases (R203, R204, R218) -/

section Phases

variable {s : State} {op : SfuOp} {core i l : Nat}

/-- Whether an instruction's work is to be dropped does not depend on what the unit holds. -/
@[simp] theorem sfuHalted_withSfu {ops : List SfuOp} : State.sfuHalted { s with sfu := ops } op = s.sfuHalted op :=
  rfl

/-- A phase drops the instruction that it reaches where the core has halted, and otherwise does `y` or `z` as `P` has it. -/
theorem becomes_unlessHalted {e : Instr} {P : Prop} [Decidable P] {x y z : State}
    (hx : exec e s = finish s (if s.sfuHalted op then x else if P then y else z)) :
    (s.sfuHalted op = true → Becomes e s x) ∧ (s.sfuHalted op = false → P → Becomes e s y) ∧
    (s.sfuHalted op = false → ¬P → Becomes e s z) := by
  refine ⟨fun hh => ?halted, fun hh hp => ?last, fun hh hp => ?more⟩
  case halted => exact becomes_of_finish hx (if_pos hh)
  case last => exact becomes_of_finish hx ((if_neg (Bool.eq_false_iff.mp hh)).trans (if_pos hp))
  case more => exact becomes_of_finish hx ((if_neg (Bool.eq_false_iff.mp hh)).trans (if_neg hp))

/-- An instruction with no earlier one of its latency before it is through phase 1. -/
theorem execSfuPhase1Complete_first {mine : List SfuOp} (hmine : s.sfu.filter (fun o => o.core == core && !o.phase2) = mine)
    (hop : mine[i]? = some op) (hfirst : ∀ o ∈ mine.take i, o.latency ≠ op.latency) :
    execSfuPhase1Complete core i s = finish s
      (if s.sfuHalted op then { s with sfu := s.sfu.erase op }
       else if op.slow = 0 then { s with sfu := s.sfu.erase op }.sfuRetire op
       else { s with sfu := s.sfu.erase op ++ [{ op with phase2 := true }] }) := by
  have hnone : (mine.take i).any (fun o => o.latency == op.latency) = false :=
    List.any_eq_false.mpr (fun o ho => by simpa using hfirst o ho)
  simp only [execSfuPhase1Complete, hmine, hop, hnone, sfuHalted_withSfu, Bool.false_eq_true, if_false]

/-- Phase 2 decides the lowest lane left of the first instruction in it. -/
theorem execSfuPhase2Lane_lowest (hop : s.sfu.find? (fun o => o.core == core && o.phase2) = some op)
    (hl : Mask.lowest op.slow = some l) :
    execSfuPhase2Lane core s = finish s
      (if s.sfuHalted op then { s with sfu := s.sfu.erase op }
       else if op.slow &&& ~~~(BitVec.twoPow 32 l) = 0 then { s with sfu := s.sfu.erase op }.sfuRetire op
       else { s with sfu := s.sfu.map (fun o =>
         if o = op then { op with slow := op.slow &&& ~~~(BitVec.twoPow 32 l) } else o) }) := by
  simp only [execSfuPhase2Lane, hop, hl, Option.getD_some]

end Phases

/-! ### The statement -/

/-- Settles O11: each instruction enters the unit with what it computes, and each phase comes to one of three ends for the instruction
that it reaches. -/
theorem specialFunctions : Obligations.SpecialFunctions := by
  unfold Obligations.SpecialFunctions
  refine ⟨fun k rm f fn fn2 a b c => ⟨?func, ?funca, ?func2⟩, fun s core i op hop hfirst => ?phase1,
    fun s core l op hop hl => ?phase2⟩
  case phase1 => exact becomes_unlessHalted (execSfuPhase1Complete_first rfl hop hfirst)
  case phase2 => exact becomes_unlessHalted (execSfuPhase2Lane_lowest hop hl)
  all_goals exact enters_of (fun _ => rfl)

end Sys2Proof.Machine
end

