-- ==== Sys2Proof/Proofs/CoreTraps.lean ====
section
/-! PROOFS. Traps of a core: the word of ILL, the entry into a handler or the raise of the halt line in its stead, and the TRET forms. -/

namespace Sys2Proof

/-- The row of ILL in the opcode table: every other field is free (R232). -/
theorem decodeFields_ill {f : Fields} (hop : f.op = 0x7F) : decodeFields f = .ok (.ill f.ctl f.fn f.a f.b f.c) := by
  have hrow : (cut 4 3 (0x7F : BitVec 7)).toNat = 7 := by decide
  have hcol : (cut 0 4 (0x7F : BitVec 7)).toNat = 0xF := by decide
  simp only [decodeFields, decRow7, hop, hrow, hcol]

end Sys2Proof

namespace Sys2Proof.Machine

open Sys2Proof

variable {s : State} {is : Issue} {t : Trap} {gr : Group} {w : Warp}

theorem warp?_of {g n : Nat} (hg : s.group? g = some gr) (hw : gr.warps[n]? = some w) : s.warp? g n = some w := by
  simp only [State.warp?, hg, Option.bind_some, hw]

/-! ### Whether a trap reaches its handler (R83, R224, R229) -/

/-- No handler takes the trap: its cause is always fatal, it comes at handler privilege, or there is no TRAPVEC (R224, R229). -/
def Trap.Fatal (t : Trap) (double : Bool) (vec : Nat) : Prop :=
  t.cause = .accessViolation ∨ t.cause = .uncorrectableEcc ∨ double = true ∨ vec = 0

theorem trapFatal_of_fatal {double : Bool} {vec : Nat} (h : t.Fatal double vec) :
    trapFatal t double vec = some (t.cause.code, decide (t.cause = .accessViolation)) := by
  by_cases ha : t.cause = .accessViolation
  · simp only [trapFatal, ha, if_true, decide_true]
  · have hrest : (t.cause = .uncorrectableEcc || double || vec = 0) = true := by
      simpa [Trap.Fatal, ha, or_assoc] using h
    simp only [trapFatal, ha, hrest, if_true, if_false, decide_false]

theorem trapFatal_of_not_fatal {double : Bool} {vec : Nat} (h : ¬ t.Fatal double vec) : trapFatal t double vec = none := by
  simp only [Trap.Fatal, not_or, Bool.not_eq_true] at h
  obtain ⟨ha, he, hd, hv⟩ := h
  simp [trapFatal, ha, he, hd, hv]

/-- A path none of whose live lanes rebuilds has no lane in common with the stubs. -/
theorem stubLanes_and_eq_zero {lanes : Mask}
    (h : ∀ l, l < 32 → lanes.has l = true → (w.threads.get l).live = true → (w.threads.get l).stub = false) :
    w.liveLanes (fun x => x.stub) &&& lanes = 0 := by
  refine mask_ext (fun l hl => ?_)
  have hstub : (w.liveLanes (fun x => x.stub)).has l = ((w.threads.get l).live && (w.threads.get l).stub) := has_of _ hl
  have hand : (w.liveLanes (fun x => x.stub) &&& lanes).has l = ((w.liveLanes (fun x => x.stub)).has l && lanes.has l) :=
    BitVec.getLsbD_and
  have hzero : (0 : Mask).has l = false := BitVec.getLsbD_zero
  rw [hand, hstub, hzero]
  cases hlane : lanes.has l with
  | false => rw [Bool.and_false]
  | true => cases hlive : (w.threads.get l).live with
    | false => rfl
    | true => rw [h l hl hlane hlive]; rfl

/-- Outside a handler and a rebuild stub a trap with a TRAPVEC and a cause that is not always fatal enters the handler. -/
theorem takeTrap_enters {hf : Bool} (hg : s.group? is.g = some gr) (hw : gr.warps[is.w]? = some w)
    (hstub : w.liveLanes (fun x => x.stub) &&& is.lanes = 0) (h : ¬ t.Fatal w.handler.isSome (s.trapVec gr.ctx)) :
    s.takeTrap is t hf = s.modWarp is.g is.w (fun w => w.enterHandler is t (BitVec.ofNat 32 (s.trapVec gr.ctx)) hf) := by
  have hdouble : (w.handler.isSome || w.liveLanes (fun x => x.stub) &&& is.lanes != 0) = w.handler.isSome := by simp [hstub]
  simp only [State.takeTrap, hg, hw, hdouble, trapFatal_of_not_fatal h]

/-- A trap that no handler takes raises the halt line of the group's context for its cause; %skid counts its 64 cycles. -/
theorem takeTrap_halts {hf : Bool} (hg : s.group? is.g = some gr) (hw : gr.warps[is.w]? = some w)
    (h : t.Fatal w.handler.isSome (s.trapVec gr.ctx)) :
    s.takeTrap is t hf = (s.modWarp is.g is.w (fun w => { w with skid := w.skid + 64 })).raiseHalt gr.ctx (.core gr.core)
      (s.warpInfo gr is.w t (if hf then is.lanes else t.mask) is.pc t.cause.code) (decide (t.cause = .accessViolation)) := by
  have hfatal : t.Fatal (w.handler.isSome || w.liveLanes (fun x => x.stub) &&& is.lanes != 0) (s.trapVec gr.ctx) :=
    h.imp_right (Or.imp_right (Or.imp_left (fun hh => by rw [hh, Bool.true_or])))
  simp only [State.takeTrap, hg, hw, trapFatal_of_fatal hfatal]

/-! ### The threads of a warp that enters its handler (R228) -/

section Entry

variable {vec : Word} {hf : Bool} {l : Nat}

theorem modThreads_get {m : Mask} {f : Thread → Thread} (hl : l < 32) :
    (w.modThreads m f).threads.get l = if m.has l then f (w.threads.get l) else w.threads.get l := by
  simp only [Warp.modThreads, lanes_get_of _ hl]

/-- The entry moves threads as `modThreads` does. -/
theorem enterHandler_threads : (w.enterHandler is t vec hf).threads = (w.modThreads is.lanes (fun x =>
    { x with handler := true, keptPc := is.pc, keptMeet := x.meet, pc := vec, held := false })).threads := rfl

theorem enterHandler_thread (hl : l < 32) (hlane : is.lanes.has l = true) :
    (w.enterHandler is t vec hf).threads.get l =
      { w.threads.get l with handler := true, keptPc := is.pc, keptMeet := (w.threads.get l).meet, pc := vec, held := false } := by
  rw [enterHandler_threads, modThreads_get hl, if_pos hlane]

theorem enterHandler_thread_other (hl : l < 32) (hlane : is.lanes.has l = false) :
    (w.enterHandler is t vec hf).threads.get l = w.threads.get l := by
  rw [enterHandler_threads, modThreads_get hl, if_neg (Bool.eq_false_iff.mp hlane)]

/-- The handler reads the scalars of the issue and knows its cause. -/
theorem enterHandler_handler :
    (w.enterHandler is t vec hf).handler = some ⟨hf, w.region.isSome && !hf, is.queued, t.cause, is.sc⟩ := rfl

end Entry

/-! ### The halt line (R18, R20) -/

section Halts

variable {ctx : Nat} {e : Engine} {info : FaultInfo} {offender : Bool} {c : Ctx}

theorem ctx?_modCtx_other {f : Ctx → Ctx} (hf : ∀ x, (f x).num = x.num) {k : Nat} (hk : k ≠ ctx) :
    (s.modCtx ctx f).ctx? k = s.ctx? k := by
  simp only [State.ctx?, State.modCtx, find?_map_key Ctx.num k (· == ctx) f hf]
  cases hc : s.ctxs.find? (fun x => x.num == k) with
  | none => rfl
  | some c =>
    have hnum : c.num = k := by simpa using List.find?_some hc
    simp [hnum, hk]

/-- A raise changes the context alone, and in one that runs with its line down it is the first fault. -/
theorem raiseHalt_eq_modCtx : ∃ f : Ctx → Ctx, s.raiseHalt ctx e info offender = s.modCtx ctx f ∧ (∀ c, (f c).num = c.num) ∧
    ∀ c, c.state = .running → c.halt = none →
      f c = { c with halt := some ⟨info, [(e, info)], offender, s.cycles.toNat, []⟩, preempting := none } := by
  refine ⟨_, rfl, fun c => ?num, fun c hrun hh => ?first⟩
  case num => cases hh : c.halt with
    | some h => rfl
    | none => simp only; split <;> rfl
  case first => simp [hh, hrun]

/-- The first fault of a running context is what its stop record names, and a pre-emption in progress is abandoned. -/
theorem ctx?_raiseHalt (hc : s.ctx? ctx = some c) (hrun : c.state = .running) (hh : c.halt = none) :
    (s.raiseHalt ctx e info offender).ctx? ctx =
      some { c with halt := some ⟨info, [(e, info)], offender, s.cycles.toNat, []⟩, preempting := none } := by
  obtain ⟨f, heq, hnum, hfirst⟩ := raiseHalt_eq_modCtx (s := s) (ctx := ctx) (e := e) (info := info) (offender := offender)
  rw [heq, ctx?_modCtx s ctx f hnum, hc, Option.map_some, hfirst c hrun hh]

theorem ctx?_raiseHalt_other {k : Nat} (hk : k ≠ ctx) : (s.raiseHalt ctx e info offender).ctx? k = s.ctx? k := by
  obtain ⟨f, heq, hnum, -⟩ := raiseHalt_eq_modCtx (s := s) (ctx := ctx) (e := e) (info := info) (offender := offender)
  rw [heq, ctx?_modCtx_other hnum hk]

end Halts

/-! ### The TRET forms (R230, R337) -/

section Tret

variable {i : Instr} {f : Issue → Warp → State → State}

/-- At handler privilege a TRET form does what its return `f` does, and the group waits no longer. -/
theorem tret_returns {u : State} (hx : ∀ s, exec i s = runTret f s) (hs : s.issuer = .warp is) (hw : s.warp? is.g is.w = some w)
    (hp : w.privileged is.lanes = true) (hu : f is w s = u) : Becomes i s (u.modX is.g (fun x => { x with waitTimer := 0 })) := by
  refine becomes_of_finish (hx s) ?_
  simp only [hs, hw, hp, hu, Bool.not_true, Bool.false_eq_true, if_false]

/-- At user privilege it is refused (R230). -/
theorem tret_refused (hx : ∀ s, exec i s = runTret f s) (hs : s.issuer = .warp is) (hw : s.warp? is.g is.w = some w)
    (hp : w.privileged is.lanes = false) : Becomes i s (s.takeTrap is (.plain .privilege is.lanes) false) := by
  refine becomes_of_finish (hx s) ?_
  simp only [hs, hw, hp, Bool.not_false, if_true]

end Tret

/-! ### The statements -/

/-- Settles O59: the entry changes the warp alone, thread by thread; a fatal trap is the first fault of its context. -/
theorem trapEntry : Obligations.TrapEntry := by
  unfold Obligations.TrapEntry
  refine ⟨fun s i t hf gr w ho hg hw hav hecc hh hstub hvec => ?enters, fun s i t hf gr w c hg hw hc hrun hline hfatal => ?halts⟩
  case enters =>
    have hgoes : ¬ t.Fatal w.handler.isSome (s.trapVec gr.ctx) := by simp [Trap.Fatal, hav, hecc, hh, hvec]
    rw [takeTrap_enters hg hw (stubLanes_and_eq_zero hstub) hgoes]
    generalize BitVec.ofNat 32 (s.trapVec gr.ctx) = vec
    refine ⟨gr.modWarp i.w (fun w => w.enterHandler i t vec hf), w.enterHandler i t vec hf, ?group, ?warp,
      settle_modGroup s i.g _ _ rfl ho, fun g hne => ?otherGroup, rfl, fun n hne => ?otherWarp, ?frame,
      ⟨_, enterHandler_handler, rfl, rfl⟩, fun l hl hlane => enterHandler_thread hl hlane,
      fun l hl hlane => enterHandler_thread_other hl hlane⟩
    case group => exact group?_modGroup_of hg (fun _ => rfl)
    case warp => rw [warps_modWarp, hw, Option.map_some]
    case otherGroup => exact group?_modGroup_other s _ (fun _ => rfl) hne
    case otherWarp => exact warps_modWarp_other gr _ hne
    case frame =>
      obtain ⟨th, h, ws, hframe⟩ := enterHandler_frame w i t vec hf
      rw [hframe]
  case halts =>
    rw [takeTrap_halts hg hw hfatal]
    refine ⟨_, _, ctx?_raiseHalt hc hrun hline, rfl, rfl, rfl, rfl, rfl, rfl, fun k hk => ctx?_raiseHalt_other hk, fun w' hw' => ?warp⟩
    case warp =>
      have hskid := (warp?_modWarp s i.g i.w (fun w => { w with skid := w.skid + 64 })).symm.trans hw'
      rw [warp?_of hg hw, Option.map_some, Option.some.injEq] at hskid
      rw [← hskid]

/-- Settles O19: at handler privilege each form is its own return, at user privilege all are refused alike. -/
theorem returns : Obligations.Returns := by
  unfold Obligations.Returns
  intro k s is gr w hs hg hw
  have hwarp := warp?_of hg hw
  refine ⟨fun hp => ⟨?retry, ?skip, ?killpt, ?killw,
    s.warpInfo gr is.w ⟨.softwareTrap, w.cinfoMask, w.cinfoAddr, w.cinfoKind⟩ w.cinfoMask w.epc w.cause.toNat, rfl, rfl, rfl, ?fatal⟩,
    fun hp i hi => ?refused⟩
  case fatal => exact tret_returns (fun _ => rfl) hs hwarp hp (by simp only [hg])
  case refused =>
    simp only [List.mem_cons, List.not_mem_nil, or_false] at hi
    obtain rfl | rfl | rfl | rfl | rfl := hi
    all_goals exact tret_refused (fun _ => rfl) hs hwarp hp
  all_goals exact tret_returns (fun _ => rfl) hs hwarp hp rfl

/-- Settles O48: the decoder's row of ILL, and its trap, which at handler privilege no handler takes. -/
theorem illegalWord : Obligations.IllegalWord := by
  unfold Obligations.IllegalWord
  refine ⟨fun w hop => ⟨_, _, _, _, _, decodeFields_ill hop⟩, fun _ _ _ _ _ => Option.some_ne_none _, fun k fn a b c =>
    ⟨fun _ _ => rfl, fun s is hs => exec_ill_warp hs, fun s is gr w hs hg hw hh =>
      ⟨s.warpInfo gr is.w (.plain .illegalInstr is.lanes) is.lanes is.pc Cause.illegalInstr.code, rfl, rfl, rfl, ?double⟩⟩⟩
  case double =>
    rw [exec_ill_warp hs, takeTrap_halts hg hw (Or.inr (Or.inr (Or.inl hh)))]
    rfl

end Sys2Proof.Machine
end

