-- ==== Sys2Proof/Proofs/StairNests.lean ====
section
/-! PROOFS. The Stair: NBIND and how a nest begins, entries taken and given back, rewrites of bounds and their answers, and joins. -/

namespace Sys2Proof.Machine

open Sys2Proof

variable {s s1 s2 s3 s4 : State} {h : HallView} {n : Nest} {a b c : Operand}

/-- The Hall's own stores and the drain are all that a command to an engine waits for (R124, R126). -/
theorem engineDrained_of (hd : h.s.drained h.gr .device = true) (hq : h.gr.hall.stores = []) : h.engineDrained = true := by
  simp [HallView.engineDrained, hd, hq]

/-! ### NBIND (R252 to R255, R265, R275) -/

section Binding

variable {x y : Ctx} {r : Rcb} {bytes rb : List Byte} {tb : List Nat × Nat × Nat × Nat} {va rcb parent handle : Nat}

/-- What NBIND leaves when it binds a nest with descriptor `d` and its bytes `bytes`, whose handle is drawn. -/
def HallView.nestBound (h : HallView) (s : State) (a : Operand) (rcb parent handle : Nat) (d : NestDesc) (bytes : List Byte) : HallEff :=
  let ctx := h.gr.ctx
  let t := s.modX h.gr.id (fun x => { x with landAsk := none })
  let t := t.makeRcb ctx rcb (t.rcbAt ctx rcb).pa parent true
  let t := ({ t with nests := t.nests ++ [Nest.fresh h.gr handle rcb d bytes] }).enter ((nestLatches ctx handle rcb d).drop 1)
  let t := t.modCtx ctx (fun c => { c with handles := c.handles ++ [⟨handle, rcb, true⟩] })
  { st := (t.modX h.gr.id (fun x => x.countBind rcb)).settleTree ctx [], s := sWrite a (BitVec.ofNat 64 handle) }

/-- A descriptor that passes its checks, with its table and its RCB, comes to be bound. -/
theorem hallNbind_checked (hd : h.engineDrained = true) (hva : (h.s64 (sregNo b)).toNat = va)
    (hrcb : (h.s64 (sregNo b + 1)).toNat = rcb) (halign : va % 256 = 0)
    (hbytes : h.s.readBlock h.gr.ctx va 256 = (s1, .ok bytes)) (hrb : s1.readBlock h.gr.ctx rcb 256 = (s2, .ok rb))
    (hctx : s2.ctx? h.gr.ctx = some x) (hclass : s2.pageClass x va = some 0)
    (hregion : s2.rcb? h.gr.ctx (blockN bytes 8 8) = some r) (hkind : s2.rget r .kind ≤ 1) (hdesc : descFails bytes true = none)
    (htable : s2.readTable h.gr.ctx bytes = (s3, .ok tb)) (hparent : h.leafParent c (blockN bytes 8 8) = parent)
    (hleaf : s3.leafRcb h.gr.ctx rcb 2 parent rb = true) :
    hallNbind a b c h = h.bindNest s3 a va rcb parent bytes rb tb := by
  simp [hallNbind, hd, hva, hrcb, halign, hbytes, hrb, hctx, hclass, hregion, hkind, hdesc, htable, hparent, hleaf]

/-- With a handle, a free record, its landing charge and its latches the nest is bound. -/
theorem bindNest_done (hctx : s3.ctx? h.gr.ctx = some y) (hdraw : s3.drawHandle y = (s4, some handle)) {d : NestDesc}
    (hd : descOf va bytes tb.1 tb.2.1 tb.2.2.1 tb.2.2.2 = d) (hwork : s4.workOverlaps h.gr.ctx d = false)
    (hroom : (s4.nests.filter (fun n => n.die == dieOf h.gr.core && s4.holdsWork n.ctx)).length < 1024)
    (hland : (s4.askLand h.gr parent d.charge (leafAllows rb d.charge)).2 = true)
    (hfits : s4.latchFits (nestLatches h.gr.ctx handle rcb d) = true) :
    h.bindNest s3 a va rcb parent bytes rb tb = .done (h.nestBound s4 a rcb parent handle d bytes) := by
  simp only [HallView.bindNest, hctx, hdraw, hd, hwork, if_neg (Nat.not_le.mpr hroom), hland, hfits, Bool.not_true, Bool.or_self,
    Bool.false_eq_true, if_false]
  rfl

end Binding

/-! ### ROW_OPEN and SCHEDULE_START (R257, R270) -/

section Beginning

variable {ctx handle : Nat}

/-- The nest once `row` is open, its youngest row. -/
def Nest.openRow (n : Nest) (row : Int) : Nest :=
  { n with
    opened := true
    asks := none
    nextRow := row + 1
    oldest := if n.rows.isEmpty then row else n.oldest
    rows := n.rows ++ [⟨row, n.rowCount row, 0, 0, 0⟩] }

/-- The next row opens when its bounds can be read, the nest may open it and no other request for landing rows comes first. -/
theorem rowOpen_becomes (hn : s.nest? ctx handle = some n) (hmay : s.rowMayOpen n = true)
    (hfirst : s.landFirst ctx (s.nestAsk n) = true) (hfault : n.rowFault n.next = none) :
    Becomes (.rowOpen ctx handle) s
      (((s.modNest ctx handle (·.openRow n.next)).advanceNest ctx handle).settleTree ctx []) := by
  refine becomes_of_finish rfl ?_
  simp only [hn, hmay, hfirst, hfault, Bool.not_true, Bool.or_self, Bool.false_eq_true, if_false]
  rfl

/-- The tasks whose word in the work area is 0 are released. -/
def State.releaseUnwaited (s : State) (n : Nest) : State :=
  (List.range n.desc.tasks).foldl
    (fun s t => if s.imageWord n (n.desc.work + 4 * t) = some 0 then s.releaseTask n t else s) s

/-- A scheduled nest that has not started copies its counts of predecessors and releases the tasks that have none. -/
theorem scheduleStart_becomes {t : State} (hn : s.nest? ctx handle = some n) (hkind : n.desc.kind = 2) (hnew : n.started = false)
    (hruns : s.engineRuns ctx (.stair n.die) = true)
    (hcopy : (s.modNest ctx handle (fun n => { n with started := true })).copyPreds n n.desc.tasks 0 = (t, true)) :
    Becomes (.scheduleStart ctx handle) s ((t.releaseUnwaited n).settleTree ctx []) := by
  have hgo : (n.desc.kind != 2 || n.started || !s.engineRuns ctx (.stair n.die)) = false := by simp [hkind, hnew, hruns]
  refine becomes_of_finish rfl ?_
  simp only [hn, hgo, hcopy, Bool.not_true, Bool.false_eq_true, if_false]
  rfl

end Beginning

/-! ### NPOP (R261, R276) -/

section Popping

variable {k : Ctl} {try_ : Bool}

/-- A Hall that holds no entry goes by what the Stair offers it. -/
theorem hallNpop_free (hfree : h.gr.x.held = none) : hallNpop try_ a h =
    hallOffer try_ a .npop (h.s.offerTo h.gr) (fun n =>
      .done { st := (h.s.handOver h.gr n).1, s := entryWrites a (h.s.handOver h.gr n).2 }) h := by
  simp [hallNpop, hfree]

theorem hallNpop_found (hfree : h.gr.x.held = none) (ho : h.s.offerTo h.gr = .found n) :
    hallNpop try_ a h = .done { st := (h.s.handOver h.gr n).1, s := entryWrites a (h.s.handOver h.gr n).2 } := by
  rw [hallNpop_free hfree, ho, hallOffer]

/-- With .TRY an entry that is not there now is no entry, where the trace agrees (R298 to R300). -/
theorem hallNpop_try_nothing (hfree : h.gr.x.held = none) (ho : h.s.offerTo h.gr = .none ∨ h.s.offerTo h.gr = .later)
    (ht : h.s.traceTry h.gr = .go s1) : hallNpop true a h = .done { st := s1, s := entryWrites a [] } := by
  rw [hallNpop_free hfree]
  obtain ho | ho := ho
  all_goals simp only [ho, hallOffer, ht, if_true]

end Popping

/-! ### NDONE (R263, R273, R277, R303, R304) -/

section GivingBack

variable {how : Retired} {p : Handed} {handle serial : Nat} {x : DWord}

theorem namesHeld_iff : namesHeld x handle serial = true ↔ x.toNat % 65536 = handle ∧ x.toNat / 2 ^ 32 = serial % 2 ^ 32 := by
  simp [namesHeld]

/-- The group gives its point back in state `s`: as done, or as failed or killed for the cause and address that it names. -/
def HallView.givesBack (h : HallView) (s : State) (n : Nest) (p : Handed) (how : Retired) (b c : Operand) : State :=
  (s.retirePoint n p how (if how = .ok then 0 else h.failCause b) (if how = .ok then 0 else h.failAddr c)).dropHeld h.gr.id

/-- The nest with the bytes that `d` wrote noted for the merge epoch `e`. -/
def Nest.noteMerge (n : Nest) (e : Int) (d : PointD2) : Nest := { n with epochBytes := epochPut n.epochBytes e (d.writes.map (·.1)) }

/-- Merges go by serial number: no point handed over before this one is still out (R303). -/
theorem earlier_eq_false (hturn : ∀ x ∈ n.handed, p.serial ≤ x.serial ∨ x.late = true) :
    n.handed.any (fun x => decide (x.serial < p.serial) && !x.late) = false := by
  refine List.any_eq_false.mpr fun x hx => ?_
  obtain hle | hlate := hturn x hx
  · simp [Nat.not_lt.mpr hle]
  · simp [hlate]

variable (hheld : h.s.heldPoint h.gr = some (n, p)) (hname : namesHeld (h.r64 false a) n.handle p.serial = true)
  (hdrain : h.engineDrained = true) (hin : n.beyond p = false)

include hheld hname hdrain hin

/-- Below D2 the point retires at once. -/
theorem hallNdone_plain (hd2 : h.gr.x.d2 = none) : hallNdone how a b c h =
    .done { st := h.givesBack (h.s.message n.ctx (dieOf h.gr.core) n.die) n p how b c } := by
  simp only [hallNdone, hheld, hname, hdrain, hin, hd2, Bool.not_true, Bool.false_eq_true, if_false]
  rfl

/-- In D2 its writes are merged first, in its turn and without a conflict in its epoch. -/
theorem hallNdone_merge {d : PointD2} (hd2 : h.gr.x.d2 = some d) (hturn : ∀ x ∈ n.handed, p.serial ≤ x.serial ∨ x.late = true)
    (hconf : h.s.conflict n.ctx d (epochGet n.epochBytes (n.epoch p)) = none) : hallNdone how a b c h =
    .done { st := h.givesBack (((h.s.message n.ctx (dieOf h.gr.core) n.die).merge d).modNest n.ctx n.handle
      (·.noteMerge (n.epoch p) d)) n p how b c } := by
  simp only [hallNdone, hheld, hname, hdrain, hin, hd2, earlier_eq_false hturn, hconf, Bool.not_true, Bool.false_eq_true, if_false]
  rfl

end GivingBack

/-! ### NXBND and BOUND_REWRITE (R267, R278, R280) -/

section Rewriting

variable {hi : Bool} {d : BitVec 2} {w : Rewrite} {gr : Group} {st : Nat}

/-- The nest is the one that `handle` names in context `ctx`. -/
def Nest.isAt (n : Nest) (ctx handle : Nat) : Bool := n.ctx == ctx && n.handle == handle

/-- The change of a nest shows where it is looked up. -/
theorem nest?_modNest {ctx handle : Nat} {f : Nest → Nest} (hctx : ∀ n, (f n).ctx = n.ctx) (hhandle : ∀ n, (f n).handle = n.handle)
    (hn : s.nest? ctx handle = some n) : (s.modNest ctx handle f).nest? ctx handle = some (f n) := by
  have hfound : s.nests.find? (·.isAt ctx handle) = some n := hn
  have hself : n.isAt ctx handle = true := List.find?_some (p := (Nest.isAt · ctx handle)) hfound
  have hkeep : ∀ m : Nest, (if m.isAt ctx handle then f m else m).isAt ctx handle = m.isAt ctx handle := by
    intro m
    split
    · simp only [Nest.isAt, hctx, hhandle]
    · rfl
  calc (s.modNest ctx handle f).nest? ctx handle
      = (s.nests.find? (·.isAt ctx handle)).map (fun m => if m.isAt ctx handle then f m else m) := find?_map _ _ hkeep s.nests
    _ = some (f n) := by rw [hfound, Option.map_some, if_pos hself]

/-- The answer that has come is the result, and the rewrite is over. -/
theorem hallNxbnd_answered (hw : h.s.rewrites.find? (fun w => w.g == h.gr.id) = some w) (ha : w.answer = some st) :
    hallNxbnd hi d a b c h = .done
      { st := { h.s with rewrites := h.s.rewrites.filter (fun x => x.g != h.gr.id) }, s := sWrite a (BitVec.ofNat 64 st) } := by
  simp only [hallNxbnd, hw, ha]

/-- A nest notes who has last rewritten it, and when (R280). -/
def Nest.noteRewrite (n : Nest) (s : State) (gr : Group) : Nest := { n with rewrote := some (s.cycles.toNat, gr.core, gr.slot) }

/-- A rewrite that comes in time changes the bound. -/
theorem applyRewrite_accepted (hn : s.nest? w.ctx w.handle = some n) (hst : s.rewriteStatus n w.hi w.dim w.value = 0) :
    s.applyRewrite w = (((s.modNest w.ctx w.handle (·.setCell (2 * w.dim + (if w.hi then 1 else 0)) w.value)).advanceNest
      w.ctx w.handle).settleTree w.ctx [], 0) := by
  simp only [State.applyRewrite, hn, hst, if_true]

theorem applyRewrite_refused (hn : s.nest? w.ctx w.handle = some n) (hst : s.rewriteStatus n w.hi w.dim w.value = st)
    (hne : st ≠ 0) : s.applyRewrite w = (s, st) := by
  simp only [State.applyRewrite, hn, hst, if_neg hne]

/-- What the nest notes does not bear on the answer. -/
theorem rewriteStatus_noteRewrite {ctx handle dim : Nat} {v : Int} :
    (s.modNest ctx handle (·.noteRewrite s gr)).rewriteStatus (n.noteRewrite s gr) hi dim v = s.rewriteStatus n hi dim v :=
  rfl

/-- A rewrite of a nest of level 0 that has arrived at a running Stair is applied in its turn and answered. -/
theorem boundRewrite_becomes {die i : Nat} (hw : (s.rewrites.filter (fun w => w.die == die && w.answer.isNone))[i]? = some w)
    (hruns : s.engineRuns w.ctx (.stair die) = true) (hn : s.nest? w.ctx w.handle = some n) (hg : s.group? w.g = some gr)
    (hturn : s.rewriteInTurn n gr = true) (hlevel : n.level = 0) {t : State}
    (ht : (s.modNest w.ctx w.handle (·.noteRewrite s gr)).applyRewrite w = (t, st)) :
    Becomes (.boundRewrite die i) s (t.answerRewrite w st) := by
  have hsettle : s.settleRewrite w = t.answerRewrite w st := by
    rw [Prod.ext_iff] at ht
    obtain ⟨rfl, rfl⟩ := ht
    simp only [State.settleRewrite, hg]
    rfl
  refine becomes_of_finish rfl ?_
  simp only [hw, hruns, hn, hg, hturn, hlevel, hsettle, Bool.not_true, Bool.false_eq_true, if_false, if_true]

end Rewriting

/-! ### NJOIN (R17, R279) -/

section Joining

variable {q try_ : Bool} {bytes : List Byte} {va : Nat}

/-- What NJOIN has seen: a subtree that is quiescent, if it waited for that. -/
def HallView.sawQuiet (h : HallView) (q : Bool) (va : Nat) : Bool := q && h.prior == some (.quiesced va)

/-- The status word that NJOIN gives of the RCB at `va`, written to A. -/
def HallView.joinWrites (h : HallView) (s : State) (q : Bool) (a : Operand) (va : Nat) : List (Nat × DWord) :=
  sWrite a (BitVec.ofNat 64 (s.statusWord (s.rcbAt h.gr.ctx va) (h.sawQuiet q va) (s.frozen h.gr.ctx)))

theorem joinable_aligned (hj : joinable va bytes = true) : va % 256 = 0 := by
  simp only [joinable, Bool.and_eq_true, beq_iff_eq] at hj
  obtain ⟨⟨halign, -⟩, -⟩ := hj
  exact halign

variable (hva : (h.r64 false b).toNat = va) (hb : h.s.readBlock h.gr.ctx va 256 = (s1, .ok bytes)) (hj : joinable va bytes = true)
  (hfault : h.prior = none → ∀ f ∈ h.gr.x.joinFaults, f.meets va = false)

include hva hb hj hfault

/-- An RCB that meets no fault is joined where it is done; else its present status word is given or waited for. -/
theorem hallNjoin_joinable : hallNjoin q try_ a b h =
    if s1.rdone (s1.rcbAt h.gr.ctx va) || try_ || h.sawQuiet q va then
      .done
        { st := if s1.rdone (s1.rcbAt h.gr.ctx va) then
            s1.modCtx h.gr.ctx (fun c => { c with handles := c.handles.filter (fun x => x.rcb != va) }) else s1,
          s := h.joinWrites s1 q a va }
    else .wait s1 (.njoin q va) := by
  have hnone : (if h.prior.isSome then none else h.gr.x.joinFaults.find? (fun f => f.meets va)) = none := by
    cases hp : h.prior with
    | some k => rfl
    | none => simpa using hfault hp
  simp only [hallNjoin, hva, joinable_aligned hj, hb, hj, hnone, ne_eq, not_true_eq_false, Bool.not_true, Bool.false_eq_true, if_false]
  rfl

theorem hallNjoin_done (hdone : s1.rdone (s1.rcbAt h.gr.ctx va) = true) : hallNjoin q try_ a b h = .done
    { st := s1.modCtx h.gr.ctx (fun c => { c with handles := c.handles.filter (fun x => x.rcb != va) }),
      s := h.joinWrites s1 q a va } := by
  simp only [hallNjoin_joinable hva hb hj hfault, hdone, Bool.true_or, if_true]

theorem hallNjoin_present (hdone : s1.rdone (s1.rcbAt h.gr.ctx va) = false) (hnow : try_ = true ∨ h.sawQuiet q va = true) :
    hallNjoin q try_ a b h = .done { st := s1, s := h.joinWrites s1 q a va } := by
  have hgo : (try_ || h.sawQuiet q va) = true := by simpa using hnow
  simp only [hallNjoin_joinable hva hb hj hfault, hdone, Bool.false_or, hgo, Bool.false_eq_true, if_false, if_true]

end Joining

/-! ### The statements -/

/-- Settles O24: NBIND comes past its checks to a binding that lacks nothing; the two events happen under their conditions. -/
theorem nestsBegin : Obligations.NestsBegin := by
  unfold Obligations.NestsBegin
  refine ⟨?nbind, fun ctx handle s n hn hmay hfirst hfault => rowOpen_becomes hn hmay hfirst hfault,
    fun ctx handle s t n hn hkind hnew hruns hcopy => scheduleStart_becomes hn hkind hnew hruns hcopy⟩
  case nbind =>
    intro k a b c s s1 s2 s3 s4 h x y r bytes rb tb handle ctx va rcb region parent d latches hd hq halign hbytes hrb hctx hclass
      hregion hkind hdesc htable hleaf hctx' hdraw hwork hroom hland hfits
    refine inHall_of_runHall rfl ?_
    rintro rfl
    exact (hallNbind_checked (engineDrained_of hd hq) rfl rfl halign hbytes hrb hctx hclass hregion hkind hdesc htable rfl hleaf).trans
      (bindNest_done hctx' hdraw rfl hwork hroom hland hfits)

/-- Settles O25: NPOP by the offer that the Stair makes, NDONE by whether the point has writes to merge. -/
theorem nestEntries : Obligations.NestEntries := by
  unfold Obligations.NestEntries
  refine ⟨fun k try_ a s s1 h hfree => ⟨fun n ho => ?found, fun ho ht => ?nothing⟩, ?ndone⟩
  case found => exact inHall_of_runHall rfl (by rintro rfl; exact hallNpop_found hfree ho)
  case nothing => exact inHall_of_runHall rfl (by rintro rfl; exact hallNpop_try_nothing hfree ho ht)
  case ndone =>
    intro k a b c s h n p x hheld hhandle hserial hd hq hin sent clear fails
    have hname := namesHeld_iff.mpr ⟨hhandle, hserial⟩
    refine ⟨fun hd2 => ?plain, fun d hd2 hturn hconf => ?merge⟩
    case plain =>
      refine ⟨inHall_of_runHall rfl ?_, inHall_of_runHall rfl ?_, inHall_of_runHall rfl ?_⟩
      all_goals
        rintro rfl
        exact hallNdone_plain hheld hname (engineDrained_of hd hq) hin hd2
    case merge =>
      refine ⟨inHall_of_runHall rfl ?_, inHall_of_runHall rfl ?_, inHall_of_runHall rfl ?_⟩
      all_goals
        rintro rfl
        exact hallNdone_merge hheld hname (engineDrained_of hd hq) hin hd2 hturn hconf

/-- Settles O26: NXBND by the answer that it finds, BOUND_REWRITE by the status of its rewrite, NJOIN by whether the RCB is done. -/
theorem boundsAndJoins : Obligations.BoundsAndJoins := by
  unfold Obligations.BoundsAndJoins
  refine ⟨fun k hi d a b c s h w st hw ha => ?nxbnd, ?rewrite, ?njoin⟩
  case nxbnd => exact inHall_of_runHall rfl (by rintro rfl; exact hallNxbnd_answered hw ha)
  case rewrite =>
    intro die i s w n gr hw hruns hn hg hturn hlevel st s1
    have hn1 : s1.nest? w.ctx w.handle = some (n.noteRewrite s gr) :=
      nest?_modNest (f := (·.noteRewrite s gr)) (fun _ => rfl) (fun _ => rfl) hn
    have hst1 : s1.rewriteStatus (n.noteRewrite s gr) w.hi w.dim w.value = st := rewriteStatus_noteRewrite
    refine ⟨fun hst => ?accepted, fun hst => ?refused⟩
    case accepted => exact boundRewrite_becomes hw hruns hn hg hturn hlevel (applyRewrite_accepted hn1 (hst1.trans hst))
    case refused => exact boundRewrite_becomes hw hruns hn hg hturn hlevel (applyRewrite_refused hn1 hst1 hst)
  case njoin =>
    intro k q try_ a b s s1 h bytes va r quiet hb hj hfault
    refine ⟨fun hdone => ?done, fun hdone hnow => ?present⟩
    case done => exact inHall_of_runHall rfl (by rintro rfl; exact hallNjoin_done rfl hb hj hfault hdone)
    case present => exact inHall_of_runHall rfl (by rintro rfl; exact hallNjoin_present rfl hb hj hfault hdone hnow)

end Sys2Proof.Machine
end

