-- ==== Sys2Proof/Proofs/SchedulingDeterminism.lean ====
section
/-! PROOFS. Scheduling and determinism: the levels that DETSET sets and the traces that it opens, and how groups come to be resident,
go to another core and run out of their quantum. -/

namespace Sys2Proof.Machine

open Sys2Proof

/-! ### DETSET (R296, R307) -/

section Levels

variable {s s1 : State} {h : HallView} {a : Operand} {level hdr : Nat} {play : Bool} {bytes : List Byte}

/-- The dispatcher has the level without a trace, and its ordinals begin again. -/
def HallView.levelOnly (h : HallView) (s : State) (a : Operand) (level : Nat) : HallEff :=
  { st := s.modX h.gr.id (fun x => x.setLevel level none), s := sWrite a 0 }

/-- The dispatcher has the level and a trace whose header stands at `hdr`: it records, or replays, from entry 0. -/
def HallView.traceOpened (h : HallView) (s : State) (a : Operand) (level : Nat) (play : Bool) (hdr : Nat) (bytes : List Byte) : HallEff :=
  let t := s.enter (traceLatches h.gr.ctx h.gr.id hdr bytes)
  let t := t.traceSet h.gr.ctx hdr traceState (if play then 3 else 1)
  let t := t.traceSet h.gr.ctx hdr (if play then traceCursor else traceCount) 0
  { st := t.modX h.gr.id (fun x => x.setLevel level (some ⟨hdr, play, []⟩)), s := sWrite a 0 }

/-- Drained, and with its leaves done, DETSET closes the group's trace and goes on to the new level. -/
theorem hallDetset_ready {header : HallView → Nat} (hd : h.engineDrained = true) (hb : h.s.boundDone h.gr = true) :
    hallDetset level play a header h = h.setLevel (h.s.closeTrace h.gr) a level play (header h) := by
  simp only [hallDetset, hd, hb, Bool.not_true, Bool.false_eq_true, if_false]

/-- Header 0 opens no trace. -/
theorem setLevel_zero (hzero : hdr = 0) : h.setLevel s a level play hdr = .done (h.levelOnly s a level) := by
  simp only [HallView.setLevel, if_pos hzero]
  rfl

/-- A header that is read and passes its checks is opened, where a recording that is to be replayed is complete (STATE 2) and the latch
tables have room for its ranges. -/
theorem setLevel_opens (hne : hdr ≠ 0) (halign : hdr % 64 = 0) (hread : h.readHeader s hdr = (s1, .ok (some bytes)))
    (hok : traceOk bytes = true) (hcomplete : play = true → blockN bytes 2 1 = 2)
    (hfits : s1.latchFits (traceLatches h.gr.ctx h.gr.id hdr bytes) = true) :
    h.setLevel s a level play hdr = .done (h.traceOpened s1 a level play hdr bytes) := by
  have hstate : (play && blockN bytes 2 1 != 2) = false := by
    cases play with
    | false => rfl
    | true => simp [hcomplete rfl]
  simp only [HallView.setLevel, if_neg hne, halign, hread, hok, hstate, hfits, ne_eq, not_true_eq_false, Bool.not_true,
    Bool.false_eq_true, if_false]
  rfl

end Levels

/-! ### Placement, readmission and moves (R79, R241, R287, R289) -/

section Residence

variable {s : State} {gr : Group} {core : Nat}

/-- The ring that the group is a member of goes to another core with its members (R241). -/
def State.ringTo (s : State) (gr : Group) (core : Nat) : State :=
  { s with keys := s.keys.map (fun k =>
      if k.core == gr.core && k.members.any (fun m => m.1 == gr.id) then { k with core := core } else k) }

/-- What the access programs of the group have in flight lands, and their stores leave for memory (R79). -/
def State.landPrograms (s : State) (gr : Group) : State :=
  gr.x.programs.foldl (fun s p => (s.landAll gr.id p.id).drainAgent gr.id (.ap gr.id p.id)) s

variable (hg : s.group? gr.id = some gr) (hline : s.firstInLine gr = true)

include hg hline

/-- A new group takes its place where it is the first in line. -/
theorem groupPlacement_becomes (hnew : gr.standing = .waiting) (hcore : s.grantCore gr = some core) :
    Becomes (.groupPlacement gr.ctx gr.id core) s (s.seat gr.id core) :=
  becomes_of_finish rfl (by simp [hg, hline, hnew, hcore])

/-- A group that was resident before comes back to its own core. -/
theorem groupReadmission_same (hold : gr.standing ≠ .waiting) (hcore : s.grantCore gr = some core) (hsame : core = gr.core) :
    Becomes (.groupReadmission gr.id core) s (s.seat gr.id core) :=
  becomes_of_finish rfl (by simp [hg, hline, hold, hcore, hsame])

/-- On another core its ring and the mates of its ring come with it. -/
theorem groupReadmission_other (hold : gr.standing ≠ .waiting) (hcore : s.grantCore gr = some core) (hother : core ≠ gr.core) :
    Becomes (.groupReadmission gr.id core) s ((s.ringMates gr).foldl (fun s x => s.seat x.id core) (s.ringTo gr core)) :=
  becomes_of_finish rfl (by simp [hg, hline, hold, hcore, hother, State.ringTo])

/-- A swapped group that has been ready for a quantum, and whose own core cannot take it, goes to the best of the others. -/
theorem groupMove_becomes {c : Ctx} (hc : s.ctx? gr.ctx = some c) (hswapped : gr.standing = .swapped) (hready : gr.x.ready = true)
    (htime : Config.quantum ≤ gr.x.readyTimer) (hadm : s.admits c gr = true) (hfull : s.canTake gr.core [gr] = false)
    (hbest : s.bestCore c.num [gr] (c.cores.filter (fun k =>
      k != gr.core && (!s.clusterBound gr || clusterOf k == clusterOf gr.core))) = some core) :
    Becomes (.groupMove gr.id core) s (((s.landPrograms gr).changeRing gr core).seat gr.id core) :=
  becomes_of_finish rfl (by simp [hg, hline, hc, hswapped, hready, htime, hadm, hfull, hbest, State.landPrograms])

end Residence

/-! ### Quanta (R288) -/

/-- The region whose quantum is over is pre-empted, and its next quantum begins at 0. -/
theorem quantumExpiry_becomes {s : State} {ctx rcb : Nat} {c : Ctx} {q : Quantum} (hc : s.ctx? ctx = some c)
    (hruns : c.state = .running) (hhalt : c.halt = none) (hfree : c.preempting = none) (hq : q ∈ c.quanta) (hrcb : q.rcb = rcb)
    (hover : Config.quantum ≤ q.ran) :
    Becomes (.quantumExpiry ctx rcb) s
      ((s.modCtx ctx (fun c => { c with quanta := c.quanta.filter (fun q => q.rcb != rcb) })).askPreempt ctx (some rcb)) := by
  have hexpired : c.quanta.any (fun q => q.rcb == rcb && decide (Config.quantum ≤ q.ran)) = true :=
    List.any_eq_true.mpr ⟨q, hq, by simp [hrcb, hover]⟩
  exact becomes_of_finish rfl (by simp [hc, hruns, hhalt, hfree, hexpired])

/-! ### The statements -/

/-- Settles O23: past the drain and the leaves DETSET comes to the new level, with the trace where the header names one. -/
theorem determinismLevels : Obligations.DeterminismLevels := by
  unfold Obligations.DeterminismLevels
  intro k d2 a b s h hd hq hb s0 level hdr
  refine ⟨inHall_of_runHall rfl ?d0, fun hzero => ⟨inHall_of_runHall rfl ?plainRecord, inHall_of_runHall rfl ?plainReplay⟩,
    fun s1 bytes hne halign hread hok hfits => ⟨inHall_of_runHall rfl ?record, fun hcomplete => inHall_of_runHall rfl ?replay⟩⟩
  case d0 =>
    rintro rfl
    exact (hallDetset_ready (engineDrained_of hd hq) hb).trans (setLevel_zero rfl)
  case plainRecord | plainReplay =>
    rintro rfl
    exact (hallDetset_ready (engineDrained_of hd hq) hb).trans (setLevel_zero hzero)
  case record =>
    rintro rfl
    exact (hallDetset_ready (engineDrained_of hd hq) hb).trans (setLevel_opens hne halign hread hok nofun hfits)
  case replay =>
    rintro rfl
    exact (hallDetset_ready (engineDrained_of hd hq) hb).trans (setLevel_opens hne halign hread hok (fun _ => hcomplete) hfits)

/-- Settles O37: each event happens to the group, or the region, that its conditions name. -/
theorem residency : Obligations.Residency := by
  unfold Obligations.Residency
  refine ⟨?groups, fun ctx rcb s c q hc hruns hhalt hfree hq hrcb hover =>
    quantumExpiry_becomes hc hruns hhalt hfree hq hrcb hover⟩
  case groups =>
    intro g core s gr hg hline
    obtain rfl : gr.id = g := group?_id hg
    exact ⟨fun hnew hcore => groupPlacement_becomes hg hline hnew hcore,
      fun hold hcore => ⟨fun hsame => groupReadmission_same hg hline hold hcore hsame,
        fun hother => groupReadmission_other hg hline hold hcore hother⟩,
      fun c hc hswapped hready htime hadm hfull hbest =>
        groupMove_becomes hg hline hc hswapped hready htime hadm hfull hbest⟩

end Sys2Proof.Machine
end

