-- ==== Sys2Proof/Proofs/CleanMemory.lean ====
section
/-! PROOFS. The canonical form of memory (log entry 2): reset has it, and every step of any agent goes on to a state that has it. -/

namespace Sys2Proof.Machine

open Sys2Proof

/-- The outcome is a next state whose memory is canonical, with nothing left to store. -/
def EndsClean (o : Host.Outcome State Fault Refusal) : Prop := ∃ t, o = .next t ∧ t.Clean

/-- What leaves its stores to `settle` ends clean where the memory that the step found is canonical. -/
theorem endsClean_finish {s : State} (hs : s.mem.wf = true) (t : State) : EndsClean (finish s t) :=
  ⟨settle s t, rfl, settle_clean hs⟩

theorem endsClean_exec (i : Instr) {s : State} (hs : s.mem.wf = true) : EndsClean (exec i s) := by
  obtain ⟨t, ht⟩ := exec_settles i s
  exact ⟨settle s t, ht, settle_clean hs⟩

/-- An instruction is executed over the memory that the turn found, whatever fetching it has left. -/
theorem endsClean_runTurn {s : State} (hs : s.mem.wf = true) : ∀ r, EndsClean (runTurn s r)
  | (t, some i) => endsClean_exec i (s := { t with mem := s.mem }) hs
  | (t, none) => endsClean_finish hs t

theorem endsClean_issueTurn {s : State} (hs : s.mem.wf = true) (t : Turn) (g : Nat) (f : State → State × Option Instr) :
    EndsClean (issueTurn s t g f) := by
  unfold issueTurn
  split
  · exact endsClean_runTurn hs _
  · exact endsClean_finish hs _

/-- Whose turn it is leaves memory alone. -/
theorem nextTurn_mem (s : State) : s.nextTurn.2.mem = s.mem := by
  unfold State.nextTurn
  split <;> rfl

/-- Settles O52: whoever's turn it is, the step ends in `finish` or in a meaning, over the memory that it found. -/
theorem everyStepKeepsMemory : Obligations.EveryStepKeepsMemory := by
  unfold Obligations.EveryStepKeepsMemory
  intro s hs
  have hmem := nextTurn_mem s
  show EndsClean (step s)
  unfold step
  generalize s.nextTurn = r at hmem
  obtain ⟨turn, u⟩ := r
  have hu : u.mem.wf = true := (congrArg Memory.wf hmem).trans hs
  cases turn with
  | hall | warp | ap => exact endsClean_issueTurn hu _ _ _
  | event i => exact endsClean_exec i hu
  | tick | flaw | outside | arrive | prefetch => exact endsClean_finish hu _

/-- Settles O53: memory lists no byte at reset, and the outbox and the issuer are empty. -/
theorem cleanAtReset : Obligations.CleanAtReset :=
  ⟨reset_mem_wf, rfl, rfl⟩

end Sys2Proof.Machine
end

