-- ==== Sys2Proof/Proofs/AccessProcessor.lean ====
section
/-! PROOFS. The access processor: APRUN and the instructions of access programs, the flights that arrive, and the queues as warps and
the Hall use them. -/

namespace Sys2Proof.Machine

open Sys2Proof

variable {s s1 s2 : State} {i : Instr} {v : WarpView} {h : HallView} {a b c : Operand}

/-- An instruction of an access program that is done with effect `e` has that effect; its view names the state. -/
theorem inAp_of_runAp {f : HallView → HallRes} {e : HallEff} (hx : exec i s = runAp i f s) (he : h.s = s → f h = .done e) :
    InAp i s h e :=
  fun _ _ hi => hx.trans (runAp_done hi (he hi.state))

/-! ### APRUN (R329) -/

/-- Masks of names that are free and apart, all of which can be mapped, start the program at B with its argument. -/
theorem hallAprun_done {m : Nat} {ask : QueueAsk} {names : List Nat} (hm : (h.r64 false c).toNat = m) (hlow : m < 65536)
    (hd : h.engineDrained = true) (hnames : maskNames (m % 256 ||| m / 256 % 256) = names) (hsome : names ≠ [])
    (hapart : m % 256 &&& m / 256 % 256 = 0) (hfree : ∀ n ∈ names, h.gr.queue? n = none)
    (hask : h.gr.x.asks.getD ⟨h.s.cycles.toNat, []⟩ = ask)
    (hmap : State.mapNames h.gr.id (names.filter (fun n => !ask.got.contains n)) ask h.s = (s1, true)) :
    hallAprun a b c h = .done
      { st := ({ s1 with nextId := s1.nextId + 1 }).modX h.gr.id (fun x =>
          x.startProgram s1.nextId (h.r32 false b) (h.s64 (sregNo b + 1)) (m % 256) (m / 256 % 256)),
        s := sWrite a 0 } := by
  have hunmapped : names.any (fun n => (h.gr.queue? n).isSome) = false := by simpa using hfree
  have hgood : (names.isEmpty || (m % 256 &&& m / 256 % 256) != 0) = false := by simp [hsome, hapart]
  simp only [hallAprun, hm, Nat.not_le.mpr hlow, hd, hnames, hgood, hunmapped, hask, hmap, Bool.not_true, Bool.false_eq_true, if_false]
  rfl

/-! ### AQLD, AQST, AQSYN (R326, R330 to R332) -/

section Programs

variable {str : Bool} {off : BitVec 24} {p : ApProgram} {q : ApQueue} {ps : List Place}

section Loading

variable (hp : h.program = some p) (hroom : h.s.apFlying h.gr.core < 64)
  (hcheck : h.s.checkLanes h.gr none 4 .load (h.qaddrs str off b (BitVec.allOnes 32)) = (s1, .ok ps))

include hp hroom hcheck

/-- AQLD reserves an entry of its load queue and leaves. -/
theorem apAqld_done {slots : List QueueSlot} (hq : h.gr.mapped (queueNo a) false = some q)
    (hslots : reserve q (h.gr.flightsOf (queueNo a)) .pending = some slots)
    (hgo : (s1.modQueue h.gr.id (queueNo a) (fun k => { k with slots := slots })).launch h.gr p (some (queueNo a)) 0 ps = some s2) :
    apAqld str off a b h = .done { st := s2 } := by
  simp only [apAqld, hp, hq, hslots, Nat.not_le.mpr hroom, hcheck, hgo, if_false]

/-- AQLD.SP leaves for a place of the scratchpad that it may write. -/
theorem apAqldSp_done (hspad : h.s.spTrap h.gr ((h.r64 false a).toNat % 2 ^ 21) = none)
    (hgo : s1.launch h.gr p none ((h.r64 false a).toNat % 2 ^ 21) ps = some s2) : apAqldSp str off a b h = .done { st := s2 } := by
  simp only [apAqldSp, hp, Nat.not_le.mpr hroom, hcheck, hspad, hgo, if_false]

end Loading

/-- AQST takes the entry at the head of its store queue, unless an AQLD in flight of its own program overlaps its places (R325). -/
theorem apAqst_done {e : QueueSlot} {rest : List QueueSlot} (hp : h.program = some p) (hq : h.gr.mapped (queueNo a) true = some q)
    (hslots : q.slots = e :: rest) (hroom : h.s.apFlying h.gr.core < 64)
    (hcheck : h.s.checkLanes h.gr none 4 .store (h.qaddrs str off b e.mask) = (s1, .ok ps)) (hd2 : h.gr.x.d2 = none)
    (hapart : ∀ f ∈ p.flights, f.words = none → ∀ x ∈ f.places, ∀ y ∈ ps, x.1 + 4 ≤ y.pa ∨ y.pa + 4 ≤ x.1) :
    apAqst str off a b h = .done
      { st := (s1.modQueue h.gr.id (queueNo a) (fun k => { k with slots := rest })).issueGlobal h.gr h.agent 4
          (ps.map (fun y => (y, (e.words.get y.lane).toNat))) none } := by
  have hclear : p.flights.any (fun f => f.words.isNone && f.places.any (fun x =>
      ps.any (fun y => decide (x.1 < y.pa + 4) && decide (y.pa < x.1 + 4)))) = false := by
    refine List.any_eq_false.mpr fun f hf hbad => ?_
    simp only [Bool.and_eq_true, Option.isNone_iff_eq_none, List.any_eq_true, decide_eq_true_eq] at hbad
    obtain ⟨hwords, x, hx, y, hy, hlo, hhi⟩ := hbad
    have := hapart f hf hwords x hx y hy
    omega
  simp only [apAqst, hp, hq, hslots, Nat.not_le.mpr hroom, hcheck, hd2, hclear, Option.isSome_none, Bool.false_eq_true, if_false]

end Programs

@[simp] theorem counted_id (p : ApProgram) (determined : Bool) (now : Nat) : (p.counted determined now).id = p.id := by
  unfold ApProgram.counted
  split <;> rfl

/-- A flight arrives where none before it fills its queue, and words fixed at its issue not before their rotation (R330, R339). -/
theorem aqldComplete_becomes {g k : Nat} {gr : Group} {p : ApProgram} {f : Flight} {ws : Lanes Word} (hg : s.group? g = some gr)
    (hf : (gr.x.programs.flatMap (fun p => p.flights.map (fun f => (p, f))))[k]? = some (p, f))
    (hfirst : f.queue = none ∨
      ∀ x ∈ (gr.x.programs.flatMap (fun p => p.flights.map (fun f => (p, f)))).take k, x.2.queue ≠ f.queue)
    (hdue : f.words = none ∨ f.usable ≤ s.vtimeOf gr.ctx) (hwords : s.flightWords gr p f = (s1, some ws)) :
    Becomes (.aqldComplete g k) s ((s1.landFlight g p.id f ws).sweep g) := by
  have hturn : (f.queue.isSome && ((gr.x.programs.flatMap (fun p => p.flights.map (fun f => (p, f)))).take k).any
      (fun x => x.2.queue == f.queue)) = false := by
    obtain hnone | hother := hfirst
    · simp [hnone]
    · rw [List.any_eq_false.mpr fun x hx => by simpa using hother x hx, Bool.and_false]
  have hnow : (f.words.isSome && decide (s.vtimeOf gr.ctx < f.usable)) = false := by
    obtain hnone | hle := hdue
    · simp [hnone]
    · simp [Nat.not_lt.mpr hle]
  refine becomes_of_finish rfl ?_
  simp only [hg, hf, hturn, hnow, hwords, Bool.false_eq_true, if_false]

/-! ### QPOP and QPUSH (R333, R334) -/

section Warps

variable {q : ApQueue} {n : Nat}

theorem warpQpop_full {e : QueueSlot} {rest : List QueueSlot} (hq : v.gr.mapped n false = some q) (hslots : q.slots = e :: rest)
    (hfull : e.state = .full) :
    warpQpop a n v = .done
      { st := (v.s.modQueue v.is.g n (fun k => { k with slots := rest })).sweep v.is.g, writes := v.w32 a (fun l => e.words.get l) } := by
  simp only [warpQpop, hq, hslots, hfull]

theorem warpQpush_running {p : ApProgram} (hq : v.gr.mapped n true = some q) (hp : v.gr.owner? n = some p)
    (hrun : p.state = .running) :
    warpQpush n b v = .done
      { st := v.s.issueStore v.gr v.agent (.push n (Lanes.of (fun l => if v.active.has l then v.r32 false b l else 0)) v.active) } := by
  simp only [warpQpush, hq, hp, hrun]

end Warps

/-! ### QCTL (R335, R336) -/

section Controls

variable {n q : Nat} {p : ApProgram}

/-- Drained, a form of QCTL gives the answer of its own part. -/
theorem hallQctl_drained {f : HallView → Nat → HallView × DWord} {t : State} {x : DWord} (hd : h.engineDrained = true)
    (hf : f h (queueNo b) = ({ h with s := t }, x)) : hallQctl a b f h = .done { st := t, s := sWrite a x } := by
  simp only [hallQctl, hd, hf, Bool.not_true, Bool.false_eq_true, if_false]

/-- Tokens for a program that has not ended, 4,095 at most, are added to it; on a determined core they count from the next rotation. -/
theorem qctlToken_added (hp : h.gr.owner? q = some p) (hst : p.state ≠ .ended) (hmax : p.tokens + p.late + n ≤ 4095) :
    let now := p.counted (h.s.coreDetermined h.gr.core) (h.s.vtimeOf h.gr.ctx)
    qctlToken n h q = ({ h with s := h.s.modProgram h.gr.id p.id (fun x =>
      if h.s.coreDetermined h.gr.core then { x with tokens := now.tokens, late := now.late + n, lateAt := h.s.vtimeOf h.gr.ctx }
      else { x with tokens := now.tokens + n, late := 0 }) }, 0) := by
  have hok : (p.state == .ended || decide (4095 < p.tokens + p.late + n)) = false := by simp [hst, hmax]
  simp only [qctlToken, hp, hok, counted_id, Bool.false_eq_true, if_false]
  rfl

theorem stoppedProgram_some (hst : p.state = .stopped) : stoppedProgram (some p) = some p := by
  simp [stoppedProgram, hst]

end Controls

/-! ### The statements -/

/-- Settles O29: APRUN and each instruction of a program comes past its checks and waits to its effect, and a flight in its turn arrives. -/
theorem accessPrograms : Obligations.AccessPrograms := by
  unfold Obligations.AccessPrograms
  refine ⟨?aprun, ?load, ?store, ?token, ?arrival⟩
  case aprun =>
    intro k a b c s s1 h lm sm names ask hlow hd hq hsome hapart hfree hmap
    refine inHall_of_runHall rfl ?_
    rintro rfl
    exact hallAprun_done rfl hlow (engineDrained_of hd hq) rfl hsome hapart hfree rfl hmap
  case load =>
    intro k str off a b s s1 s2 h p q slots ps all there hp hroom hcheck
    refine ⟨fun hq hslots hgo => inAp_of_runAp rfl ?_, fun hspad hgo => inAp_of_runAp rfl ?_⟩
    · rintro rfl
      exact apAqld_done hp hroom hcheck hq hslots hgo
    · rintro rfl
      exact apAqldSp_done hp hroom hcheck hspad hgo
  case store =>
    intro k str off a b s s1 h p q e rest ps hp hq hslots hroom hcheck hd2 hapart
    refine inAp_of_runAp rfl ?_
    rintro rfl
    exact apAqst_done hp hq hslots hroom hcheck hd2 hapart
  case token =>
    intro k sc s h p now hp htokens
    refine inAp_of_runAp rfl ?_
    rintro rfl
    simp only [hp, counted_id]
    exact if_neg htokens
  case arrival =>
    intro g i s s1 gr p f ws all hg hf hfirst hdue hwords
    exact aqldComplete_becomes hg hf hfirst hdue hwords

/-- Settles O30: QPOP and QPUSH find their queue, and each form of QCTL, drained, gives the answer of its part. -/
theorem queues : Obligations.Queues := by
  unfold Obligations.Queues
  refine ⟨?pop, ?push, ?control⟩
  case pop =>
    intro k a b s v q e rest hq hslots hfull
    refine inWarp_of_runWarp rfl ?_
    rintro rfl
    exact warpQpop_full hq hslots hfull
  case push =>
    intro k a b s v q p hq hp hrun
    refine inWarp_of_runWarp rfl ?_
    rintro rfl
    exact warpQpush_running hq hp hrun
  case control =>
    intro k a b c s h p n q now hd hq
    have hdrained : h.s = s → h.engineDrained = true := by
      rintro rfl
      exact engineDrained_of hd hq
    refine ⟨fun hp => ⟨fun hst hone hmax => inHall_of_runHall rfl fun hs => ?token, fun hst => inHall_of_runHall rfl fun hs => ?retry,
      fun hst => inHall_of_runHall rfl fun hs => ?kill⟩, inHall_of_runHall rfl fun hs => ?stat,
      fun hj => inHall_of_runHall rfl fun hs => ?join⟩
    all_goals have hdr := hdrained hs; subst hs
    case token =>
      have hfew : (n = 0 || decide (4095 < n)) = false := by
        simp only [Bool.or_eq_false_iff, decide_eq_false_iff_not]
        omega
      exact (if_neg (Bool.eq_false_iff.mp hfew)).trans (hallQctl_drained hdr (qctlToken_added hp hst hmax))
    case retry =>
      refine hallQctl_drained hdr ?_
      simp only [show h.gr.owner? (queueNo b) = some p from hp, stoppedProgram_some hst]
      rfl
    case kill =>
      refine hallQctl_drained hdr ?_
      simp only [show h.gr.owner? (queueNo b) = some p from hp, beq_eq_false_iff_ne.mpr hst, Bool.false_eq_true, if_false]
      rfl
    case stat => exact hallQctl_drained hdr rfl
    case join => exact (if_pos hj).trans (hallQctl_drained hdr rfl)

end Sys2Proof.Machine
end

