-- ==== Sys2Proof/Proofs/MatrixEngine.lean ====
section
/-! PROOFS. The matrix engine: commands posted, arbitrated and completed, tiles moved, bit-plane images written, and the key ring. -/

namespace Sys2Proof.Machine

open Sys2Proof

variable {s : State} {v : WarpView} {a b c : Operand}

/-! ### Checks that find nothing (R97, R226, R360, R361) -/

/-- Checks none of which raises a trap leave none. -/
theorem worstTrap_none {ts : List (Option Trap)} (h : ∀ t ∈ ts, t = none) : worstTrap ts = none := by
  rw [List.eq_replicate_of_mem h, worstTrap]
  induction ts.length with
  | zero => rfl
  | succ n ih => exact ih

@[simp] theorem trapIf_false (t : Trap) : trapIf false t = none := rfl

/-- Ranges that are aligned and in the allocation pass. -/
theorem spadRanges_none {m : Mask} {rs : List (Nat × Nat)} (h : ∀ r ∈ rs, v.Holds r.1 r.2) :
    ∀ t ∈ spadRanges v.gr m rs, t = none := by
  intro t ht
  simp only [spadRanges, List.mem_append, List.mem_map] at ht
  obtain ⟨r, hr, rfl⟩ | ⟨r, hr, rfl⟩ := ht
  · simp [(h r hr).1]
  · simp [Nat.not_lt.mpr (h r hr).2]

/-- A range that no latch of another bars passes. -/
theorem rangeTrap_none {lo len : Nat} {store : Bool} (h : v.s.locked v.gr.ctx (some v.gr.id) v.gr.id lo len store = false) :
    v.rangeTrap lo len store = none := by
  rw [WarpView.rangeTrap, h, trapIf_false]

/-! ### MMA and the engine's steps (R345, R346, R354, R355, R360) -/

section Commands

variable {m : MmaMod} {cmd : MatCmd}

/-- The command is legal: of the whole warp, which holds the key, for a tile of its group, with legal words, lists and ranges. -/
structure WarpView.Legal (v : WarpView) (a : Operand) (cmd : MatCmd) : Prop where
  whole : v.active = BitVec.allOnes 32
  key : (v.s.key? v.gr.core).holder = some (v.is.g, v.is.w)
  tile : (v.s.tile? v.gr (tileNo a)).isSome = true
  fields : cmd.badField = false
  lanes : cmd.badLanes = 0
  aRange : v.Holds cmd.aoff cmd.aLen
  bRange : v.Holds cmd.boff cmd.bLen

/-- The command is posted with its registrations. -/
def State.post (s : State) (ctx : Nat) (cmd : MatCmd) : State :=
  { s with nextId := s.nextId + 1, commands := s.commands ++ [cmd], latches := s.latches ++ cmd.latches ctx }

theorem WarpView.Legal.untrapped (h : v.Legal a cmd) :
    worstTrap ([trapIf ((v.s.key? v.gr.core).holder != some (v.is.g, v.is.w)) (.plain .illegalOperand v.active),
        trapIf (v.active != BitVec.allOnes 32) (.plain .illegalConvergence v.active),
        trapIf (v.s.tile? v.gr (tileNo a)).isNone (.plain .illegalOperand v.active),
        trapIf cmd.badField (.plain .illegalOperand v.active),
        trapIf (cmd.badLanes != 0) (.plain .illegalOperand cmd.badLanes)] ++
      spadRanges v.gr v.active [(cmd.aoff, cmd.aLen), (cmd.boff, cmd.bLen)]) = none := by
  obtain ⟨hwhole, hkey, htile, hfields, hlanes, ha, hb⟩ := h
  have htile : (v.s.tile? v.gr (tileNo a)).isNone = false := by simpa [← Option.isSome_eq_false_iff] using htile
  refine worstTrap_none fun t ht => ?_
  rw [List.mem_append] at ht
  obtain ht | ht := ht
  · simpa [hwhole, hkey, htile, hfields, hlanes] using ht
  · exact spadRanges_none (by simp [ha, hb]) t ht

/-- A legal command is posted once an entry and its registrations are free. -/
theorem warpMma_posts (hcmd : v.command m a b c = cmd) (hlegal : v.Legal a cmd)
    (hroom : (v.s.commands.filter (fun x => x.cluster == cmd.cluster &&
      ((v.s.group? x.g).map v.s.occupies).getD false)).length < 16)
    (hfits : v.s.latchFits (cmd.latches v.gr.ctx) = true) (hturn : v.s.spadBefore v.gr.core v.s.latchWaits = false) :
    warpMma m a b c v = .done { st := v.s.post v.gr.ctx cmd } := by
  have hsome : ¬v.active = 0 := by simp [hlegal.whole]
  simp only [warpMma, hcmd, if_neg hsome, hlegal.untrapped, Nat.not_le.mpr hroom, hfits, hturn, decide_false, Bool.not_true,
    Bool.or_self, Bool.false_eq_true, if_false]
  rfl

variable {cluster i : Nat} (hc : (s.entries cluster)[i]? = some cmd)

include hc

theorem commandEligible_becomes (hnew : cmd.eligible = false) (hdue : cmd.posted + 16 ≤ s.cycles.toNat) :
    Becomes (.commandEligible cluster i) s
      (s.modCommand cmd.id (fun c => { c with eligible := true, since := s.cycles.toNat })) :=
  becomes_of_finish rfl (by simp [hc, hnew, Nat.not_lt.mpr hdue])

/-- The arbiter's choice has its pass when the cluster is free and its operands are in the scratchpad. -/
theorem matrixPass_becomes (hmay : cmd.passable (s.entries cluster) = true) (hfirst : s.passFirst (s.entries cluster) cmd = true)
    (hdue : s.passFrom cmd + cmd.cycles ≤ s.cycles.toNat) (ha : s.spadBusy cmd.g cmd.aoff cmd.aLen = false)
    (hb : s.spadBusy cmd.g cmd.boff cmd.bLen = false) {t : State} (ht : s.pass cmd = t) :
    Becomes (.matrixPass cluster i) s t :=
  becomes_of_finish rfl (by simp [hc, hmay, hfirst, Nat.not_lt.mpr hdue, ha, hb, ht])

theorem matrixCommandComplete_becomes (hover : cmd.blocks ≤ cmd.next) (hdue : cmd.since + 8 ≤ s.cycles.toNat) :
    Becomes (.matrixCommandComplete cluster i) s
      ((s.modTile cmd.cluster cmd.tile cmd.g cmd.finishTile).freeCommand cmd) :=
  becomes_of_finish rfl (by simp [hc, Nat.not_lt.mpr hover, Nat.not_lt.mpr hdue])

end Commands

section Passes

variable {c : MatCmd} {gr : Group} {t : Tile} (hg : s.group? c.g = some gr) (ht : s.commandTile c = some t)

/-- The tile is `t` after the command's pass over one K-block. -/
def State.afterPass (s : State) (c : MatCmd) (t : Tile) : State :=
  (s.modTile c.cluster c.tile c.g (fun _ => t)).modCommand c.id (fun c => { c with next := c.next + 1, since := s.cycles.toNat })

include hg ht

/-- A pass of which no sub-tile is computed takes no cycle of the cluster. -/
theorem pass_empty (he : c.empty = true) : s.pass c = s.afterPass c (c.zeroed t) := by
  simp only [State.pass, hg, ht, he, if_true]
  rfl

theorem pass_computes (he : c.empty = false) (hbad : badExp (cellGet gr.x.spad) c.mod.af (c.aBase c.next) c.pool = none) :
    s.pass c = { s.afterPass c (c.passOn (cellGet gr.x.spad) (c.zeroed t)) with
      passed := countSet s.passed c.cluster s.cycles.toNat } := by
  simp only [State.pass, hg, ht, he, hbad, Bool.false_eq_true, if_false]
  rfl

/-- A malformed image ends the command. -/
theorem pass_malformed {x : Nat} (he : c.empty = false)
    (hbad : badExp (cellGet gr.x.spad) c.mod.af (c.aBase c.next) c.pool = some x) :
    s.pass c = (s.modTile c.cluster c.tile c.g (fun _ => c.zeroed t)).malformed c (c.zeroed t) x := by
  simp only [State.pass, hg, ht, he, hbad, Bool.false_eq_true, if_false]

end Passes

/-! ### MXMOV and PLANE (R355, R357, R361, R363) -/

section Moving

variable {t : Tile} {n : Nat}

/-- A tile with no fault of this warp has none to report. -/
theorem tileFault_none {whole : Bool} (hm : v.Moves n whole t) : v.tileFault n = none := by
  have hfilter : t.fault.filter (fun f => f.warp == v.is.w) = none := by
    simpa [Option.filter_eq_none_iff] using hm.good
  simp only [WarpView.tileFault, hm.tile, hfilter, Option.map_none]

/-- With its tile at hand and its checks passed, a form of MXMOV has its own effect on that tile. -/
theorem move_eq {whole : Bool} {checks : List (Option Trap)} {eff : Tile → WarpRes} (hm : v.Moves n whole t)
    (hchecks : ∀ x ∈ checks, x = none) : v.move n whole checks eff = eff t := by
  have hthere : (v.s.tile? v.gr n).isNone = false := by
    cases h : v.s.tile? v.gr n with
    | none => simpa [h] using hm.tile
    | some _ => rfl
  have hwhole : (whole && v.active != BitVec.allOnes 32) = false := by
    cases whole with
    | false => rfl
    | true => simp [hm.all rfl]
  have hnone : worstTrap ([trapIf (whole && v.active != BitVec.allOnes 32) (Trap.plain .illegalConvergence v.active),
      trapIf (v.s.tile? v.gr n).isNone (Trap.plain .illegalOperand v.active)] ++ checks) = none := by
    rw [hwhole, hthere]
    refine worstTrap_none fun x hx => ?_
    rw [List.mem_append] at hx
    obtain hx | hx := hx
    · simpa using hx
    · exact hchecks x hx
  simp only [WarpView.move, if_neg hm.some_, hm.joined, hnone, tileFault_none hm, hm.tile, Bool.false_eq_true, if_false]
  rfl

/-- The checks of a form that moves a whole tile from or to a range of the scratchpad. -/
theorem moveChecks_none {lo len : Nat} {store : Bool} (hr : v.Holds lo len)
    (hl : v.s.locked v.gr.ctx (some v.gr.id) v.gr.id lo len store = false) :
    ∀ x ∈ spadRanges v.gr v.active [(lo, len)] ++ [v.rangeTrap lo len store], x = none := by
  intro x hx
  rw [List.mem_append] at hx
  obtain hx | hx := hx
  · exact spadRanges_none (by simpa using hr) x hx
  · simpa [rangeTrap_none hl] using hx

/-- The bytes that PLANE reads from `src` on are those of the number loaded. -/
def spadBytes (src x i : Nat) : Byte := BitVec.ofNat 8 (x / 2 ^ (8 * (i - src)))

/-- PLANE for a whole warp, with legal ranges that no latch bars and a source that has an image, writes that image. -/
theorem warpPlane_done {af : AFmt} {nr : BitVec 4} {q dst src m y x : Nat} (hq : nr.toNat + 1 = q) (hdst : v.offset b 21 = dst)
    (hsrc : v.offset c 21 = src) (hm : 64 * q * planeRow af = m) (hwhole : v.active = BitVec.allOnes 32)
    (hto : v.Holds dst (q * aSize af)) (hfrom : v.Holds src m) (hload : spadLoad v.gr v.w.stores m (0, src) = some (y, x))
    (hlegal : af = .t5 → ∀ i < m, (spadBytes src x (src + i)).toNat ∈ [0, 1, 255])
    (hread : v.s.locked v.gr.ctx (some v.gr.id) v.gr.id src m false = false)
    (hwrite : v.s.locked v.gr.ctx (some v.gr.id) v.gr.id dst (q * aSize af) true = false) :
    warpPlane af nr b c v = .done
      { st := v.s.issueSpad v.gr v.agent (cellsAt dst (planeImage af q (spadBytes src x) src)) [] [],
        flags := if planeSignals af q (spadBytes src x) src then [Lanes.all flagNV] else [] } := by
  have hsome : ¬v.active = 0 := by simp [hwhole]
  have hranges : worstTrap ([trapIf (v.active != BitVec.allOnes 32) (.plain .illegalConvergence v.active)] ++
      spadRanges v.gr v.active [(dst, q * aSize af), (src, m)]) = none := by
    refine worstTrap_none fun t ht => ?_
    rw [List.mem_append] at ht
    obtain ht | ht := ht
    · simpa [hwhole] using ht
    · exact spadRanges_none (by simp [hto, hfrom]) t ht
  have hodd : (if af = .t5 then (List.range m).find? (fun i => !([0, 1, 255] : List Nat).contains (spadBytes src x (src + i)).toNat)
      else none) = none := by
    split
    next h5 =>
      refine List.find?_eq_none.mpr fun i hi => ?_
      rw [List.contains_iff_mem.mpr (hlegal h5 i (List.mem_range.mp hi))]
      exact Bool.false_ne_true
    next => rfl
  unfold spadBytes at hodd ⊢
  simp only [warpPlane, hq, hdst, hsrc, hm, if_neg hsome, hranges, hload, hodd, rangeTrap_none hread, rangeTrap_none hwrite]
  rfl

end Moving

/-! ### MKEY (R352, R353, R355, R362) -/

section Keys

/-- A form of MKEY that the whole warp issues outside divergent regions has its own effect. -/
theorem key_eq (ht : v.Together) (e : WarpRes) : v.key e = e := by
  obtain ⟨hsome, hqueued, hall⟩ := ht
  have hgo : (!v.is.queued || v.active != v.w.liveMask) = false := by simp [hqueued, hall]
  simp only [WarpView.key, if_neg hsome, hgo, Bool.false_eq_true, if_false]

/-- What such a form does where `P` holds is its own effect there. -/
theorem keyDoes_of_runWarp {i : Instr} {P : WarpView → Prop} {fw : WarpView → WarpRes} {ew : WarpView → WarpEff}
    (hx : ∀ s, exec i s = runWarp i (fun v => v.key (fw v)) s) (hw : ∀ v, P v → fw v = .done (ew v)) :
    WarpDoes i (fun v => v.Together ∧ P v) ew :=
  warpDoes_of_runWarp hx (fun v h => (key_eq h.1 _).trans (hw v h.2))

end Keys

/-! ### The statements -/

/-- Settles O31: MMA past its checks posts its command; each step of the engine finds the command in the state that it waits for. -/
theorem matrixCommands : Obligations.MatrixCommands := by
  unfold Obligations.MatrixCommands
  refine ⟨fun k m a b c => warpDoes_of_runWarp (fun _ => rfl) fun v hv => ?post, fun cluster i s c hc =>
    ⟨fun hnew hdue => commandEligible_becomes hc hnew hdue, fun gr t hmay hfirst hdue ha hb hg ht =>
      ⟨fun he => ?empty, fun he hbad => ?computes, fun x he hbad => ?malformed⟩,
      fun hover hdue => matrixCommandComplete_becomes hc hover hdue⟩⟩
  case post =>
    obtain ⟨hwhole, hkey, htile, hfields, hlanes, ha, hb, hroom, hfits, hturn⟩ := hv
    exact warpMma_posts rfl ⟨hwhole, hkey, htile, hfields, hlanes, ha, hb⟩ hroom hfits hturn
  case empty => exact matrixPass_becomes hc hmay hfirst hdue ha hb (pass_empty hg ht he)
  case computes => exact matrixPass_becomes hc hmay hfirst hdue ha hb (pass_computes hg ht he hbad)
  case malformed => exact matrixPass_becomes hc hmay hfirst hdue ha hb (pass_malformed hg ht he hbad)

/-- Settles O32: each form of MXMOV finds its tile with its checks passed, and PLANE finds its ranges and its source legal. -/
theorem tileMoves : Obligations.TileMoves := by
  unfold Obligations.TileMoves
  refine ⟨fun k a b c s v t => ⟨fun hm => ?rd, fun hm => ?wr, fun hm => ?zero, fun hm => ?flg⟩, ?st, ?ld, ?plane⟩
  case rd | zero | flg => exact inWarp_of_runWarp rfl fun _ => move_eq hm (by simp)
  case wr =>
    refine inWarp_of_runWarp rfl fun _ => (move_eq hm (by simp)).trans ?_
    simp only [Bool.and_eq_true, decide_eq_true_eq]
  case st =>
    intro k cv fe a b s v t off n out fl hm hr hl
    exact inWarp_of_runWarp rfl fun _ => move_eq hm (moveChecks_none hr hl)
  case ld =>
    intro k a b s v t y x off hm hr hl hload
    refine inWarp_of_runWarp rfl fun _ => (move_eq hm (moveChecks_none hr hl)).trans ?_
    simp only [show spadLoad v.gr v.w.stores 16384 (0, v.offset b 64) = some (y, x) from hload]
  case plane =>
    intro k af nr b c s v y x q dst src m sp hwhole hto hfrom hload hlegal hread hwrite
    refine inWarp_of_runWarp rfl ?_
    rintro rfl
    exact warpPlane_done rfl rfl rfl rfl hwhole hto hfrom hload hlegal hread hwrite

/-- Settles O33: each form of MKEY, of a whole warp, takes the branch that its conditions name. -/
theorem matrixKeys : Obligations.MatrixKeys := by
  unfold Obligations.MatrixKeys
  intro k a
  refine ⟨keyDoes_of_runWarp (fun _ => rfl) ?join, keyDoes_of_runWarp (fun _ => rfl) ?take, keyDoes_of_runWarp (fun _ => rfl) ?pass,
    keyDoes_of_runWarp (fun _ => rfl) ?leave, keyDoes_of_runWarp (fun _ => rfl) ?rsv, keyDoes_of_runWarp (fun _ => rfl) ?rel⟩
  case join => exact fun v hnew => if_neg (by simpa using hnew)
  case take =>
    rintro v ⟨hin, hmay, hnow⟩
    simp [hin, hmay, hnow]
  case pass =>
    intro v hmine
    simp [hmine]
  case leave => exact fun v hin => if_pos (by simpa using hin)
  case rsv =>
    rintro v ⟨hfree, hopen, hfirst⟩
    simp [hfree, hopen, hfirst]
  case rel =>
    rintro v ⟨hheld, hdone⟩
    have hidle : v.s.commands.any (fun c => c.cluster == clusterOf v.gr.core && c.tile == tileNo a && c.g == v.is.g) = false := by
      refine List.any_eq_false.mpr fun c hc => ?_
      simpa [and_assoc] using hdone c hc
    have hheld : (v.s.tile? v.gr (tileNo a)).isNone = false := by simpa [← Option.isSome_eq_false_iff] using hheld
    simp only [hheld, hidle, Bool.false_eq_true, if_false]

end Sys2Proof.Machine
end

