-- ==== Sys2Proof/Proofs/FabricEngine.lean ====
section
/-! PROOFS. The fabric engine: how FXG and FXC ask for their ranges and issue, and the steps of a command in hand. -/

namespace Sys2Proof.Machine

open Sys2Proof

/-! ### FXG and FXC (R365, R367, R372, R383) -/

section Issue

variable {s s1 s2 : State} {h : HallView} {a b : Operand} {collective : Bool} {d : List Byte} {va id : Nat}

/-- The Hall keeps the descriptor that it has read until its command is issued (R367). -/
def HallView.keepDesc (h : HallView) (s : State) (d : List Byte) : State := s.modX h.gr.id (fun x => { x with fabDesc := some d })

/-- The command is in hand and, where it counts, a child of its RCB (R371). -/
def HallView.placed (h : HallView) (s : State) (id va : Nat) (collective : Bool) (d : List Byte) : State :=
  let c := h.fabCmd id va collective d
  let t := if c.comp % 2 = 1 then s.countChild h.gr.ctx 9 c.rcb else s
  { t with fabric := t.fabric ++ [c] }

/-- The command is issued: in hand, a gather or scatter of no rows even complete, and its descriptor is given up. -/
def HallView.issued (h : HallView) (s : State) (id va : Nat) (collective : Bool) (d : List Byte) : State :=
  let c := h.fabCmd id va collective d
  let t := h.placed s id va collective d
  (if !collective && c.count = 0 then t.completeCommand c else t).modX h.gr.id (fun x => { x with fabDesc := none })

/-- Without a registration of its own that waits, and with room on its die, a command asks for its ranges. -/
theorem post_asks (hnew : askedId (s.latchWait h.gr.id) = none)
    (hroom : (h.keepDesc s d).slotsTaken (dieOf h.gr.core) h.gr.id < 64) :
    h.post s a va collective d =
      .stall (({ h.keepDesc s d with nextId := s.nextId + 1 }).latchAsk h.gr (h.fabCmd s.nextId va collective d).latches).1 := by
  have hnew : askedId ((h.keepDesc s d).latchWait h.gr.id) = none := hnew
  unfold HallView.keepDesc at hnew hroom
  simp only [HallView.post, hnew, Nat.not_le.mpr hroom, if_false]
  rfl

/-- Once its ranges are registered the command is issued, with answer 0. -/
theorem post_issues (hasked : askedId ((h.keepDesc s d).latchWait h.gr.id) = some id)
    (hgot : (h.keepDesc s d).latchAsk h.gr [] = (s2, true)) :
    h.post s a va collective d = .done { st := h.issued s2 id va collective d, s := sWrite a 0 } := by
  unfold HallView.keepDesc at hasked hgot
  simp only [HallView.post, hasked, hgot]
  rfl

variable (hd : h.engineDrained = true) (hva : (h.r64 false b).toNat = va) (halign : va % 64 = 0)

include hd hva halign

/-- A descriptor that the Hall keeps is not read again. -/
theorem hallFabric_kept (hkept : h.gr.x.fabDesc = some d) : hallFabric collective a b h = h.post h.s a va collective d := by
  simp [hallFabric, hd, hva, halign, hkept]

/-- A descriptor read for the first time that passes its checks comes to its command. -/
theorem hallFabric_checked {x : Ctx} {c : FabCmd} (hnew : h.gr.x.fabDesc = none)
    (hread : h.s.readBlock h.gr.ctx va 128 = (s1, .ok d)) (hctx : s1.ctx? h.gr.ctx = some x) (hcached : s1.allCached x va 128 = true)
    (hpass : (if collective then fxcFails d else fxgFails d) = none) (hc : h.fabCmd 0 va collective d = c)
    (hrcb : c.comp % 2 = 1 → ∃ r, s1.rcb? h.gr.ctx c.rcb = some r ∧ s1.rget r .kind ≤ 1)
    (hd2 : h.gr.x.d2 = none ∨ collective = false ∧ c.lspace ≠ 0 ∧ c.kind = 0)
    (hspad : collective = true ∨ c.lspace = 0 ∨ c.local_ + c.count * c.esize ≤ h.gr.image.spad) :
    hallFabric collective a b h = h.post s1 a va collective d := by
  have hplain : (s1.ctx? h.gr.ctx).any (fun x => s1.allCached x va 128) = true := by simp [hctx, hcached]
  have hparent : (c.comp % 2 == 1 && (match s1.rcb? h.gr.ctx c.rcb with
      | some r => decide (1 < s1.rget r .kind)
      | none => true)) = false := by
    by_cases hcounts : c.comp % 2 = 1
    · obtain ⟨r, hr, hkind⟩ := hrcb hcounts
      simp [hr, hkind]
    · simp [hcounts]
  have hlegal : (h.gr.x.d2.isSome && (collective || c.lspace == 0 || c.kind != 0)) = false := by
    obtain hnone | ⟨hplain, hlocal, hkind⟩ := hd2
    · simp [hnone]
    · simp [hplain, hlocal, hkind]
  have hbound : (!collective && c.lspace != 0 && decide (h.gr.image.spad < c.local_ + c.count * c.esize)) = false := by
    obtain hcoll | hlocal | hle := hspad
    · simp [hcoll]
    · simp [hlocal]
    · simp [Nat.not_lt.mpr hle]
  simp only [hallFabric, hd, hva, halign, hnew, hread, hc, hplain, hpass, ne_eq, not_true_eq_false, Bool.not_true,
    Bool.false_eq_true, if_false]
  exact (if_neg (Bool.eq_false_iff.mp hparent)).trans
    ((if_neg (Bool.eq_false_iff.mp hlegal)).trans (if_neg (Bool.eq_false_iff.mp hbound)))

end Issue

/-! ### The steps of a command in hand (R366, R371, R376, R379) -/

section Steps

variable {s s1 s2 : State} {die i : Nat} {c : FabCmd} (hc : (s.inHand die)[i]? = some c)
  (hruns : s.engineRuns c.ctx (.fabric die) = true)

include hc hruns

section Share

variable (hparty : c.collective = true → c.party ≠ none) (hidle : s.sourceBusy c = false)

include hparty hidle

/-- A command that may have a share reads what it needs, or ends with the failure of reading it. -/
theorem fabricShare_fails {e : FabErr} (hplan : s.planCommand c = (s1, .error e)) :
    Becomes (.fabricShare die i) s (s1.modFabric c.id (fun c => { c with fault := fabFault (some (0xFFFFFFFF, e)) })) := by
  have hgo : (c.collective && c.party.isNone) = false := by simpa [Option.isSome_iff_ne_none] using hparty
  refine becomes_of_finish rfl ?_
  simp only [hc, hruns, hgo, hidle, hplan, Bool.not_true, Bool.or_self, Bool.false_eq_true, if_false]

section Units

variable {p : FabPlan} {k : Nat} {r : State × FabCmd} (hplan : s.planCommand c = (s1, .ok p))
  (hstart : s1.startCommand { c with plan := some p } = r) (hdraw : r.1.draw (r.2.flying.length - 1) = (k, s2))

include hplan hstart hdraw

/-- With its plan a command starts what units it may, and one in flight that is drawn is served. -/
theorem fabricShare_becomes : Becomes (.fabricShare die i) s
    ((r.2.flying[k]?).elim (s2.modFabric c.id (fun _ => r.2)) (fun u => s2.serveFlying r.2 u)) := by
  have hgo : (c.collective && c.party.isNone) = false := by simpa [Option.isSome_iff_ne_none] using hparty
  refine becomes_of_finish rfl ?_
  simp only [hc, hruns, hgo, hidle, hplan, hstart, hdraw, Bool.not_true, Bool.or_self, Bool.false_eq_true, if_false]
  cases r.2.flying[k]? <;> rfl

theorem fabricShare_none (hnone : r.2.flying[k]? = none) : Becomes (.fabricShare die i) s (s2.modFabric c.id (fun _ => r.2)) := by
  simpa only [hnone, Option.elim_none] using fabricShare_becomes hc hruns hparty hidle hplan hstart hdraw

theorem fabricShare_serves {u : Nat} (hu : r.2.flying[k]? = some u) : Becomes (.fabricShare die i) s (s2.serveFlying r.2 u) := by
  simpa only [hu, Option.elim_some] using fabricShare_becomes hc hruns hparty hidle hplan hstart hdraw

end Units

end Share

theorem fabricUnitComplete_becomes (hgood : c.fault = none) (hserved : c.prog ∈ c.served) :
    Becomes (.fabricUnitComplete die i) s
      (s.modFabric c.id (fun c => { c with prog := c.prog + 1, served := c.served.erase c.prog })) :=
  becomes_of_finish rfl (by simp [hc, hruns, hgood, hserved])

/-- The open collective commands of the context and tag of `c`, in the order of their arrival (R376). -/
def State.openParty (s : State) (c : FabCmd) : List FabCmd :=
  s.fabric.filter (fun x => x.collective && x.ctx == c.ctx && x.n 6 2 == c.n 6 2 && x.fault.isNone && !x.closed)

/-- With all participants here, their lowest die has the collective begin where they agree and cover the shards. -/
theorem collectiveCheck_becomes {lead : FabCmd} (hcoll : c.collective = true) (hparty : c.party = none) (hgood : c.fault = none)
    (hfresh : ∀ x ∈ s.openParty c, x.party = none) (hin : c ∈ (s.openParty c).take c.parts)
    (hall : ((s.openParty c).take c.parts).length = c.parts) (hlow : ∀ x ∈ (s.openParty c).take c.parts, die ≤ x.die)
    (hlead : ((s.openParty c).take c.parts).head? = some lead) :
    let here := (s.openParty c).take c.parts
    Becomes (.collectiveCheck die i) s
      (s.settleParty here lead.id (here.all (fun x => x.terms == c.terms) && covers here c.shards)) := by
  have hjoins : ((s.openParty c).any (fun x => x.party.isSome) ||
      !((s.openParty c).take c.parts).any (fun x => x.id == c.id)) = false := by
    have hnone : (s.openParty c).any (fun x => x.party.isSome) = false := by simpa using hfresh
    have hthere : ((s.openParty c).take c.parts).any (fun x => x.id == c.id) = true :=
      List.any_eq_true.mpr ⟨c, hin, BEq.rfl⟩
    rw [hnone, hthere]
    rfl
  have hmine : ((s.openParty c).take c.parts).any (fun x => decide (x.die < die)) = false :=
    List.any_eq_false.mpr fun x hx => by simpa using hlow x hx
  refine becomes_of_finish rfl ?_
  unfold State.openParty at hjoins hmine hall hlead ⊢
  simp only [hc, hcoll, hparty, hgood, hruns, hjoins, hmine, hall, hlead, Option.isSome_none, Bool.not_true, Bool.or_self,
    Bool.false_eq_true, if_false, Option.map_some, Option.getD_some, BEq.rfl, if_true]

/-- A command completes when none of its units is in flight and all are done, or it has failed; a participant when all have done so. -/
theorem fabricCommandComplete_becomes (hidle : c.flying = [])
    (hcoll : c.collective = true → s.partyDone c = true ∧ (c.party ≠ none ∨ c.fault ≠ none))
    (hplain : c.collective = false → c.fault ≠ none ∨ c.plan ≠ none ∧ s.unitCount c ≤ c.prog) :
    Becomes (.fabricCommandComplete die i) s (s.completeCommand c) := by
  have hover : (if c.collective then s.partyDone c && (c.party.isSome || c.fault.isSome)
      else c.fault.isSome || (c.plan.isSome && decide (s.unitCount c ≤ c.prog))) = true := by
    cases hkind : c.collective with
    | true => simpa [Option.isSome_iff_ne_none] using hcoll hkind
    | false => simpa [Option.isSome_iff_ne_none] using hplain hkind
  refine becomes_of_finish rfl ?_
  simp only [hc, hruns, hidle, hover, List.isEmpty_nil, Bool.and_self, if_true]

end Steps

/-! ### The statements -/

/-- Settles O34: a descriptor read for the first time comes to ask for its ranges, one that is kept comes to its issue. -/
theorem fabricIssue : Obligations.FabricIssue := by
  unfold Obligations.FabricIssue
  intro k a b s h d va hdr hq halign
  refine ⟨?asks, ?issues⟩
  case asks =>
    intro collective g s1 x i c hi hnew hread hctx hcached hpass hrcb hd2 hspad hasked s2 hroom
    obtain rfl := hi.state
    have hstall : hallFabric collective a b h =
        .stall (({ s2 with nextId := s2.nextId + 1 }).latchAsk h.gr c.latches).1 :=
      (hallFabric_checked (engineDrained_of hdr hq) rfl halign hnew hread hctx hcached hpass rfl hrcb hd2 hspad).trans
        (post_asks hasked hroom)
    cases collective with
    | true | false => exact runHall_stall hi hstall
  case issues =>
    intro id s2 s1 placed done c hkept hasked hgot
    have hdone : h.s = s → ∀ collective,
        hallFabric collective a b h = .done { st := h.issued s2 id va collective d, s := sWrite a 0 } := by
      rintro rfl collective
      exact (hallFabric_kept (engineDrained_of hdr hq) rfl halign hkept).trans (post_issues hasked hgot)
    refine ⟨inHall_of_runHall rfl fun hs => (hdone hs false).trans ?_, inHall_of_runHall rfl fun hs => hdone hs true⟩
    simp only [HallView.issued, Bool.not_false, Bool.true_and, decide_eq_true_eq]
    rfl

/-- Settles O35: each step of the engine finds the command in hand in the state that it waits for. -/
theorem fabricSteps : Obligations.FabricSteps := by
  unfold Obligations.FabricSteps
  intro die i s c hc hruns
  refine ⟨fun hparty hidle => ⟨fun s1 e hplan => fabricShare_fails hc hruns hparty hidle hplan, ?serves⟩,
    fun hgood hserved => fabricUnitComplete_becomes hc hruns hgood hserved, ?check,
    fun hidle hcoll hplain => fabricCommandComplete_becomes hc hruns hidle hcoll hplain⟩
  case serves =>
    intro k u s1 s2 p r c1 hplan hdraw
    exact ⟨fun hnone => fabricShare_none hc hruns hparty hidle hplan rfl hdraw hnone,
      fun hu => fabricShare_serves hc hruns hparty hidle hplan rfl hdraw hu⟩
  case check =>
    rintro all here lead rfl rfl hcoll hparty hgood hfresh hin hall hlow hlead
    exact collectiveCheck_becomes hc hruns hcoll hparty hgood hfresh hin hall hlow hlead

end Sys2Proof.Machine
end

