-- ==== Sys2Proof/Proofs/HingePipelines.lean ====
section
/-! PROOFS. The Hinge: pipelines bound and unbound, items taken and given back by groups, and the steps of sources and sinks. -/

namespace Sys2Proof.Machine

open Sys2Proof

variable {s s1 s2 s3 s4 : State} {h : HallView} {a b c : Operand}

/-! ### HBIND (R388 to R396, R405) -/

section Binding

variable {j : HJoin} {lag : Bool} {record rcb named n : Nat} {bytes rb : List Byte} {blocks : List (List Byte)} {x : Ctx}

/-- The roles of a record's elements: its source, then its stages with their parameter blocks (R388, R389). -/
def pipeRoles (bytes : List Byte) (blocks : List (List Byte)) : List HRole :=
  sourceRole bytes :: (List.range (blockN bytes 2 1)).map (fun k => stageRole bytes k (blocks.getD k []))

/-- The last element that a pipeline shares with those bound before it. -/
def State.lastShared (s : State) (ctx : Nat) (shared : List Nat) : Option HInst := (shared.getLast?).bind (fun x => s.inst? ctx x)

/-- What HBIND has found of a record that attaches after `shared`. -/
def HallView.foundPlan (h : HallView) (s : State) (j : HJoin) (lag : Bool) (record rcb named n : Nat) (bytes rb : List Byte)
    (blocks : List (List Byte)) (shared : List Nat) : HPlan :=
  ⟨record, rcb, if named = 0 then blockN bytes 96 8 else named, rb, bytes, pipeRoles bytes blocks, shared,
    boundLevel (blockN bytes 6 1) h.gr, lag, ((s.lastShared h.gr.ctx shared).map (fun y => firstCursor j y n)).getD 0⟩

/-- In its turn and drained, HBIND comes to a plan once its record, the parameter blocks and the RCB are read. -/
theorem hallHbind_read (hd : h.engineDrained = true) (hturn : h.bindInTurn = true)
    (hrecord : (h.s64 (sregNo b)).toNat = record) (hrcb : (h.s64 (sregNo b + 1)).toNat = rcb)
    (hnamed : (h.s64 (sregNo b + 2)).toNat = named) (hn : (h.s64 (sregNo b + 3)).toNat = n) (halign : record % 64 = 0)
    (hbytes : h.s.readBlock h.gr.ctx record 576 = (s1, .ok bytes))
    (hblocks : s1.readParams h.gr.ctx bytes (min 8 (blockN bytes 2 1)) = (s2, .ok blocks))
    (hrb : s2.readBlock h.gr.ctx rcb 256 = (s3, .ok rb)) :
    hallHbind j lag a b h = h.planPipe s3 j lag a record rcb named n bytes rb blocks := by
  simp [hallHbind, hd, hturn, hrecord, hrcb, hnamed, hn, halign, hbytes, hblocks, hrb]

/-- A record and an RCB that pass their checks attach after the shared elements, the last of which has room for a consumer and reaches
back far enough for RETAIN. -/
theorem planPipe_passes {l : Nat} {shared : List Nat}
    (hleaf : s3.leafRcb h.gr.ctx rcb 3 (if named = 0 then blockN bytes 96 8 else named) rb = true)
    (hctx : s3.ctx? h.gr.ctx = some x) (hfree : s3.freeHandles x ≠ []) (hcached : s3.allCached x record 576 = true)
    (hpass : s3.pipeFails h.gr.ctx bytes blocks = none)
    (hattach : s3.attach h.gr.ctx (boundLevel (blockN bytes 6 1) h.gr) (j == .start) (pipeRoles bytes blocks) = (l, shared))
    (hretain : j = .retain → n ≠ 0)
    (hlast : ∀ y, s3.lastShared h.gr.ctx shared = some y →
      (l < (pipeRoles bytes blocks).length ∨ blockN bytes 40 8 ≠ 0 → y.consumers.length < 16) ∧ (j = .retain → n ≤ y.window)) :
    h.planPipe s3 j lag a record rcb named n bytes rb blocks =
      h.placePipe s3 a (h.foundPlan s3 j lag record rcb named n bytes rb blocks shared) := by
  have hroom : ¬((decide (l < (pipeRoles bytes blocks).length) || blockN bytes 40 8 != 0) &&
      ((s3.lastShared h.gr.ctx shared).map (fun y => decide (16 ≤ y.consumers.length))).getD false) = true := by
    cases hy : s3.lastShared h.gr.ctx shared with
    | none => simp
    | some y => simpa [Decidable.imp_iff_not_or] using (hlast y hy).1
  have hback : ¬(decide (j = .retain) &&
      (n == 0 || (s3.lastShared h.gr.ctx shared).any (fun y => decide (y.window < n)))) = true := by
    by_cases hj : j = .retain
    · cases hy : s3.lastShared h.gr.ctx shared with
      | none => simp [hretain hj]
      | some y => simp [hretain hj, Nat.not_lt.mpr ((hlast y hy).2 hj)]
    · simp [hj]
  rw [pipeRoles] at hattach
  rw [HallView.planPipe]
  simp only [hleaf, hctx, hcached, hpass, hattach, Option.map_some, Option.getD_some, hfree, Bool.not_true, Bool.false_eq_true, if_false]
  exact (if_neg hroom).trans (if_neg hback)

/-- With handles, room for its stages and records, its landing charge and its latches the planned pipeline is bound. -/
theorem placePipe_done {p : HPlan} {added handle : Nat} {new : List Nat} (hadded : p.roles.length - p.shared.length = added)
    (hctx : s3.ctx? h.gr.ctx = some x) (hdraw : s3.drawHandles x (added + 1) = (s4, handle :: new)) (hnew : new.length = added)
    (hstages : (s4.insts.filter (fun x => x.die == dieOf h.gr.core && x.region.isSome && s4.holdsWork x.ctx)).length +
      (if p.shared.isEmpty then added - 1 else added) ≤ 1024)
    (hpipes : (s4.pipes.filter (fun q => q.die == dieOf h.gr.core && s4.holdsWork q.ctx)).length < 512)
    (hland : (s4.askLand h.gr p.parent added (leafAllows p.leaf added)).2 = true)
    (hfits : s4.latchFits (p.latches h.gr.ctx handle new) = true) :
    h.placePipe s3 a p = .done
      { st := h.bindPipe (s4.modX h.gr.id (fun x => { x with landAsk := none })) p handle new,
        s := sWrite a (BitVec.ofNat 64 handle) } := by
  have henough : ¬(handle :: new).length ≤ added := by simp [hnew]
  rw [HallView.placePipe]
  simp only [hctx, hadded, hdraw, henough, List.headD_cons, List.drop_succ_cons, List.drop_zero, Nat.not_lt.mpr hstages,
    Nat.not_le.mpr hpipes, hland, hfits, decide_false, Bool.not_true, Bool.or_self, Bool.false_eq_true, if_false]

/-- A pipeline that is bound, or has failed, is unbound by `f` once the group is drained. -/
theorem hallUnbind_done {f : State → Pipe → State} {p : Pipe} (hd : h.engineDrained = true)
    (hp : h.s.pipe? h.gr.ctx ((h.r64 false b).toNat % 65536) = some p) (hst : p.status = 1 ∨ p.status = 6) :
    hallUnbind f a b h = .done { st := f h.s p, s := sWrite a 0 } := by
  have hmay : h.s.unbindable h.gr.ctx ((h.r64 false b).toNat % 2 ^ 16) = some p := by
    simp [State.unbindable, hp, hst]
  simp only [hallUnbind, hd, hmay, Bool.not_true, Bool.false_eq_true, if_false]

end Binding

/-! ### HRECV (R398, R403, R406) -/

section Taking

variable {try_ : Bool} {x : HInst}

/-- A Hall that holds no item takes the one that a Hinge offers, once its slot has been read. -/
theorem hallHrecv_found (hfree : h.gr.x.held = none) (ho : h.s.recvOffer h.gr = .found x) (hslot : h.s.entryFault x = (s1, none)) :
    hallHrecv try_ a b h = .done
      { st := (s1.handItem h.gr x).1,
        s := entryWrites a (s1.handItem h.gr x).2 ++ sWrite b (BitVec.ofNat 64 x.param) } := by
  simp [hallHrecv, hfree, ho, hallOffer, hslot]

/-- With .TRY an item that is not there now is no item, where the trace agrees (R298 to R300). -/
theorem hallHrecv_try_nothing (hfree : h.gr.x.held = none) (ho : h.s.recvOffer h.gr = .none ∨ h.s.recvOffer h.gr = .later)
    (ht : h.s.traceTry h.gr = .go s1) : hallHrecv true a b h = .done { st := s1, s := entryWrites a [] } := by
  obtain ho | ho := ho
  all_goals simp [hallHrecv, hfree, ho, hallOffer, ht]

end Taking

/-! ### HSEND (R395, R400, R407) -/

section Sending

variable {x : HInst} {g : HGiven} {how : Retired} {out retire : Bool}

/-- An HSEND of a cut or stopped stage needs no room. -/
def HInst.RoomFor (x : HInst) (n : Nat) : Prop := x.cut = true ∨ x.stopped = true ∨ x.room n = true

theorem HInst.RoomFor.not_waits {n : Nat} (hroom : x.RoomFor n) : (!x.cut && !x.stopped && !x.room n) = false := by
  obtain hcut | hstop | hroom := hroom
  · simp [hcut]
  · simp [hstop]
  · simp [hroom]

/-- The state in which an item retires: that of the HSEND below D2, and in D2, in the turn of its serial and without a conflict in its
epoch, the one with its writes merged (R303, R304). -/
def HallView.MergedItem (h : HallView) (s : State) (x : HInst) (g : HGiven) (s1 : State) : Prop :=
  (h.gr.x.d2 = none ∧ s1 = s) ∨
    (∃ d, h.gr.x.d2 = some d ∧ (∀ z ∈ x.given, g.serial ≤ z.serial) ∧
      s.conflict x.ctx d (epochGet x.epochBytes (g.serial / 64 : Nat)) = none ∧
      s1 = (s.merge d).modInst x.ctx x.handle (fun y =>
        { y with epochBytes := epochPut y.epochBytes (g.serial / 64 : Nat) (d.writes.map (·.1)) }))

variable (hheld : h.s.heldItem h.gr = some (x, g)) (hname : namesHeld (h.s64 (sregNo a)) x.handle g.serial = true)
  (hd : h.engineDrained = true)

include hheld hname hd

/-- Output without retirement: the ring has room for one item. -/
theorem hallHsend_more (hroom : x.RoomFor 1) :
    hallHsend true false .ok a b c h = .done { st := h.sendItem h.s x g a true false .ok 0 0 } := by
  simp [hallHsend, hheld, hname, hd, hroom.not_waits]

/-- Retirement, with an output where `out` says so: the ring has room for that and for the end of stream that the item may be. -/
theorem hallHsend_retires (hroom : x.RoomFor ((if out then 1 else 0) + if g.eos then 1 else 0)) (hm : h.MergedItem h.s x g s1) :
    hallHsend out true how a b c h = .done
      { st := h.sendItem s1 x g a out true how (if how = .ok then 0 else h.failCause b) (if how = .ok then 0 else h.failAddr c) } := by
  have hgo := hroom.not_waits
  obtain ⟨hd2, rfl⟩ | ⟨d, hd2, hturn, hconf, rfl⟩ := hm
  · simp [hallHsend, hheld, hname, hd, hgo, hd2]
  · have hfirst : x.given.any (fun z => decide (z.serial < g.serial)) = false := by simpa using hturn
    simp only [hallHsend, hheld, hname, hd, hgo, hd2, hfirst, hconf, Bool.true_and, Bool.not_true, Bool.false_eq_true, if_true, if_false]

end Sending

/-! ### Sources and sinks (R391, R400) -/

section Streams

variable {i kind base count stride : Nat} {x : HInst} {bytes q : List Byte}

/-- Element `i` is a source that may append to its ring: its next item or, past the last, its end of stream. -/
structure State.Emits (s : State) (i : Nat) (x : HInst) (kind base count stride : Nat) : Prop where
  inst : s.insts[i]? = some x
  role : x.role = .source kind base count stride
  stopped : x.stopped = false
  sent : x.sent = false
  cut : x.cut = false
  room : x.room 1 = true
  runs : s.engineRuns x.ctx (.hinge x.die) = true

theorem endOfStream_becomes (hx : s.Emits i x kind base count stride) (hkind : kind = 0) (hover : count ≤ x.next) :
    Becomes (.endOfStream i) s ((s.append x 3 [0, 0, 0]).settleTree x.ctx []) :=
  becomes_of_finish rfl (by
    simp [hx.inst, hx.role, hx.stopped, hx.sent, hx.cut, hx.room, hx.runs, hkind, Nat.not_lt.mpr hover])

theorem sourceEmit_becomes (hx : s.Emits i x kind base count stride) {t : State} (ht : s.emit x kind base count stride = t) :
    Becomes (.sourceEmit i) s (t.settleTree x.ctx []) :=
  becomes_of_finish rfl (by simp [hx.inst, hx.role, hx.stopped, hx.sent, hx.cut, hx.room, hx.runs, ht])

/-- A memory stream emits 16 bytes and the address where it has read them. -/
theorem emit_memory (hkind : kind = 0) (hleft : x.next < count)
    (hread : s.hingeRead x.ctx x.die ((base + x.next * stride) % 2 ^ 64) 16 = (s1, .ok bytes)) :
    s.emit x kind base count stride =
      s1.append x 2 (dwordsOf bytes ++ [BitVec.ofNat 64 ((base + x.next * stride) % 2 ^ 64)]) := by
  simp only [State.emit, hkind, Nat.not_le.mpr hleft, hread, if_true, if_false]

/-- An external queue that holds a further record gives it, and its consumer index goes on. -/
theorem emit_queue (hkind : kind ≠ 0) (hq : s.queueRead x.ctx x.die base 24 = (s1, .ok q)) (hleft : x.next < blockN q 0 8)
    (hcap : blockN q 16 8 ≠ 0)
    (hread : s1.queueRead x.ctx x.die (base + 64 + 32 * (x.next % blockN q 16 8)) 32 = (s2, .ok bytes))
    (hgoes : ((s2.append x (if blockN bytes 2 1 = 3 then 3 else 2) (dwordsOf (bytes.drop 8))).inst? x.ctx x.handle).any
      HInst.stopped = false)
    (hwrite : (s2.append x (if blockN bytes 2 1 = 3 then 3 else 2) (dwordsOf (bytes.drop 8))).queueWrite x.ctx (base + 8)
      (leBytes 8 (x.next + 1)) = (s3, none)) :
    s.emit x kind base count stride = s3 := by
  simp only [State.emit, hkind, hq, Nat.not_le.mpr hleft, hcap, hread, hgoes, hwrite, decide_false, Bool.or_self, Bool.false_eq_true,
    if_false]

variable {p : Pipe} {y : HInst} {serial : Nat} {ws : List DWord}

/-- A record of an item of pipeline `p`: its handle, kind and serial, and the payload. -/
def Pipe.sinkWords (p : Pipe) (kind serial : Nat) (ws : List DWord) : List DWord :=
  BitVec.ofNat 64 (p.handle + kind * 2 ^ 16 + serial % 2 ^ 32 * 2 ^ 32) :: ws

/-- A sink's queue with room takes the record, then the producer index; the item counts as taken. -/
theorem sinkRecord_done (hq : s.queueRead p.ctx p.die p.sink 24 = (s1, .ok q))
    (hroom : blockN q 0 8 - blockN q 8 8 < blockN q 16 8)
    (hslot : s1.queueWrite p.ctx (p.sink + 64 + 32 * (blockN q 0 8 % blockN q 16 8))
      ((p.sinkWords kind serial ws).flatMap (fun w => leBytes 8 w.toNat)) = (s2, none))
    (hindex : s2.queueWrite p.ctx p.sink (leBytes 8 (blockN q 0 8 + 1)) = (s3, none)) :
    s.sinkRecord p y kind serial ws =
      (s3.modConsumer y (fun c => c.stage.isNone && c.pipe == p.handle)
        (fun c => { c with cursor := c.cursor + 1, eos := c.eos || kind == 3 })).settleTree p.ctx [] := by
  rw [Pipe.sinkWords] at hslot
  simp only [State.sinkRecord, hq, Nat.not_le.mpr hroom, hslot, hindex, if_false]

/-- A sink whose next item is there, and whose slot can be read, writes its record. -/
theorem sinkWrite_becomes {ctx handle : Nat} {k : Consumer} {t : State} (hp : s.pipe? ctx handle = some p)
    (hfeed : s.insts.findSome? (fun y => if y.ctx == ctx then
      (y.consumers.find? (fun c => c.stage.isNone && c.pipe == handle)).map (fun c => (y, c)) else none) = some (y, k))
    (hnext : s.nextItem y k = some (kind, serial, ws)) (hgood : k.failed = false)
    (hruns : s.engineRuns ctx (.hinge p.die) = true) (hslot : s.slotFault y k y.die = (s1, none))
    (ht : s1.sinkRecord p y kind serial ws = t) : Becomes (.sinkWrite ctx handle) s t :=
  becomes_of_finish rfl (by
    simp only [hp, hfeed, hnext, hgood, hruns, hslot, ht, Bool.not_true, Bool.or_self, Bool.false_eq_true, if_false])

end Streams

/-! ### The statements -/

/-- Settles O27: HBIND comes by its reads and its checks to a pipeline that lacks nothing; DRAIN and CUT unbind one that may be. -/
theorem pipelineBinding : Obligations.PipelineBinding := by
  unfold Obligations.PipelineBinding
  refine ⟨?bind, ?unbind⟩
  case bind =>
    intro k j lag a b s s1 s2 s3 s4 h bytes rb blocks x l shared handle new ctx record rcb named n parent level roles last plan added
      hd hq hturn halign hbytes hblocks hrb hleaf hctx hfree hcached hpass hattach hretain hlast hdraw hnew hstages hpipes hland hfits
    refine inHall_of_runHall rfl ?_
    rintro rfl
    exact (hallHbind_read (engineDrained_of hd hq) hturn rfl rfl rfl rfl halign hbytes hblocks hrb).trans
      ((planPipe_passes hleaf hctx hfree hcached hpass hattach hretain hlast).trans
        (placePipe_done rfl hctx hdraw hnew hstages hpipes hland hfits))
  case unbind =>
    intro k a b s h p hd hq hp hst
    constructor
    all_goals
      refine inHall_of_runHall rfl ?_
      rintro rfl
      exact hallUnbind_done (engineDrained_of hd hq) hp hst

/-- Settles O28: HRECV by the offer of the Hinges, HSEND by its output and its retirement, a source by its kind, and a sink. -/
theorem pipelineItems : Obligations.PipelineItems := by
  unfold Obligations.PipelineItems
  refine ⟨fun k try_ a b s s1 h hfree => ⟨fun x ho hslot => ?found, fun ho ht => ?nothing⟩, ?send, ?source, ?sink⟩
  case found => exact inHall_of_runHall rfl (by rintro rfl; exact hallHrecv_found hfree ho hslot)
  case nothing => exact inHall_of_runHall rfl (by rintro rfl; exact hallHrecv_try_nothing hfree ho ht)
  case send =>
    intro k a b c s h x g w roomFor ends hheld hhandle hserial hd hq
    have hname := namesHeld_iff.mpr ⟨hhandle, hserial⟩
    refine ⟨fun hroom => ?more, fun s1 hm => ⟨fun hroom => ?ok, fun hroom => ⟨?none, ?fail, ?kill⟩⟩⟩
    case more =>
      exact inHall_of_runHall rfl (by rintro rfl; exact hallHsend_more hheld hname (engineDrained_of hd hq) hroom)
    case ok =>
      exact inHall_of_runHall rfl (by rintro rfl; exact hallHsend_retires hheld hname (engineDrained_of hd hq) hroom hm)
    case none | fail | kill =>
      refine inHall_of_runHall rfl ?_
      rintro rfl
      exact hallHsend_retires hheld hname (engineDrained_of hd hq) ((Nat.zero_add _).symm ▸ hroom) hm
  case source =>
    intro i s s1 s2 s3 x kind base count stride bytes q hx hrole hstop hsent hcut hroom hruns from_ slot
    have hemits : s.Emits i x kind base count stride := ⟨hx, hrole, hstop, hsent, hcut, hroom, hruns⟩
    exact ⟨fun hkind hover => endOfStream_becomes hemits hkind hover,
      fun hkind hleft hread => sourceEmit_becomes hemits (emit_memory hkind hleft hread),
      fun hkind hq hleft hcap hread hgoes hwrite => sourceEmit_becomes hemits (emit_queue hkind hq hleft hcap hread hgoes hwrite)⟩
  case sink =>
    intro ctx handle kind serial s s1 s2 s3 s4 p y k ws q sinks record hp hfeed hnext hgood hruns hslot hq hroom hrec hindex
    exact sinkWrite_becomes hp hfeed hnext hgood hruns hslot (sinkRecord_done hq hroom hrec hindex)

end Sys2Proof.Machine
end

