-- ==== Sys2Proof/Proofs/StackControllers.lean ====
section
/-! PROOFS. The stack controllers: their commands, the remapping of regions, and the map of an HBM address. -/

namespace Sys2Proof.Machine

open Sys2Proof

/-! ### Commands (R415, R416, R420 to R422) -/

section Commands

variable {i : Instr} {P : State → Prop} {cmd : State → Option (State × Nat)} {f : State → State}

/-- The Cellar's own command leaves what the command comes to. -/
theorem storCmd_own {s : State} (hown : ∀ r ∈ s.cellar.taken.head?, reqOp r ≠ 8) (hcmd : cmd s = some (f s, 0)) :
    s.storCmd cmd = f s := by
  unfold State.storCmd
  cases ht : s.cellar.taken with
  | nil => simp [hcmd]
  | cons r rest =>
    have hop : reqOp r ≠ 8 := hown r (by simp [ht])
    simp [hop, hcmd]

/-- A STORCMD request is answered with status 0 after what the command comes to. -/
theorem storCmd_asked {s : State} {r : List Byte} {rest : List (List Byte)} (ha : Asked s 8 64 r rest)
    (hcmd : cmd (s.took rest) = some (f (s.took rest), 0)) {t : State} (ht : (f (s.took rest)).answer (reqTag r) 0 0 = t) :
    s.storCmd cmd = t.skipUnknown t.cellar.taken := by
  have hserve : s.storCmd cmd = s.serve 8 64 (fun r s => (cmd s).map (fun x => x.1.answer (reqTag r) x.2 0)) := by
    simp only [State.storCmd, ha.head, ha.names, if_true]
  exact hserve.trans (ha.serve_eq (by simp [hcmd, ht]))

/-- A command that `P` lets carry out `f`, with status 0, does so for the Cellar and for the host. -/
theorem commandDoes_of_storCmd (hx : ∀ s, exec i s = finish s (s.storCmd cmd)) (hcmd : ∀ s, P s → cmd s = some (f s, 0)) :
    CommandDoes i P f :=
  fun s => ⟨fun hown hp => becomes_of_finish (hx s) (storCmd_own hown (hcmd s hp)),
    fun _ rest ha hp => becomes_of_finish (hx s) (storCmd_asked ha (hcmd (s.took rest) hp) rfl)⟩

end Commands

/-! ### Epochs and swaps (R412 to R414, R423) -/

section Remapping

variable {s : State} {stack : Nat}

/-- A free choice leaves the stacks alone. -/
@[simp] theorem draw_hbm (s : State) (n : Nat) : (s.draw n).2.hbm = s.hbm := rfl

/-- The error counts of a stack's regions begin a new epoch at 0. -/
def State.newEpoch (s : State) (stack : Nat) : State :=
  s.modStacks (fun x => { x with epochErrors := x.epochErrors.filter (fun c => c.place / 2 ^ 11 % 32 != stack) })

/-- No swap of the stack is in hand. -/
theorem swapping_eq_false (hidle : ∀ w ∈ s.hbm.swaps, w.stack ≠ stack) : s.hbm.swaps.any (fun w => w.stack == stack) = false := by
  simpa using hidle

section Epoch

variable (hon : s.hbm.swapOn = true) (hidle : ∀ w ∈ s.hbm.swaps, w.stack ≠ stack) (hstack : stack < 24)
  {go layer a b : Nat × State} (hgo : (s.newEpoch stack).draw 1 = go) (hlayer : go.2.draw 11 = layer)
  (ha : layer.2.draw 1907 = a) (hb : a.2.draw 1907 = b)

include hon hidle hstack hgo hlayer ha hb

/-- With swaps on and none of its own in hand the controller draws whether to swap, and what. -/
theorem epochEnd_becomes : Becomes (.epochEnd stack) s
    (if go.1 = 0 || s.hbm.retired.contains layer.1 ||
        s.hbm.physical stack layer.1 a.1 % 4 = s.hbm.physical stack layer.1 b.1 % 4 then b.2
     else b.2.modStacks (fun x => { x with swaps := x.swaps ++ [⟨stack, layer.1, a.1, b.1⟩] })) := by
  have hmay : ¬(!s.hbm.swapOn || s.hbm.swaps.any (fun w => w.stack == stack) || decide (24 ≤ stack)) = true := by
    simp [hon, swapping_eq_false hidle, hstack]
  subst hgo hlayer ha hb
  exact becomes_of_finish rfl (if_neg hmay)

theorem epochEnd_stays (hno : go.1 = 0) : Becomes (.epochEnd stack) s b.2 := by
  have h := epochEnd_becomes hon hidle hstack hgo hlayer ha hb
  rwa [if_pos (by simp [hno])] at h

/-- A swap is decided on where its layer is in use and its regions lie in different channel sets. -/
theorem epochEnd_decides (hyes : go.1 ≠ 0) (huse : layer.1 ∉ s.hbm.retired)
    (hsets : s.hbm.physical stack layer.1 a.1 % 4 ≠ s.hbm.physical stack layer.1 b.1 % 4) :
    Becomes (.epochEnd stack) s (b.2.modStacks (fun x => { x with swaps := x.swaps ++ [⟨stack, layer.1, a.1, b.1⟩] })) := by
  have h := epochEnd_becomes hon hidle hstack hgo hlayer ha hb
  rwa [if_neg (by simp [hyes, huse, hsets])] at h

end Epoch

/-- The swap decided on is carried out: both regions are read, and their entries exchanged. -/
theorem regionSwap_becomes {w : Swap} (hw : s.hbm.swaps.find? (fun w => w.stack == stack) = some w) :
    Becomes (.regionSwap stack) s ((s.sweepAll (fun pa =>
        inRegion stack w.layer w.regionA pa || inRegion stack w.layer w.regionB pa)).modStacks (fun x =>
      { ((x.setPhysical stack w.layer w.regionA (x.physical stack w.layer w.regionB)).setPhysical stack w.layer w.regionB
          (x.physical stack w.layer w.regionA)) with
        swaps := x.swaps.filter (fun (v : Swap) => v.stack != stack) })) :=
  becomes_of_finish rfl (by simp only [hw])

end Remapping

/-! ### The map (R410) -/

section Map

variable (x : Stacks) {pa pb : Nat}

/-- The physical region of an address: its channel set and the high bits of its row. -/
def Stacks.regionOf (x : Stacks) (pa : Nat) : Nat := x.physical (paStack pa) (paLayer pa) (paRegion pa)

/-- Addresses of one place have one physical region and agree in every bit below the region. -/
theorem place_eq (h : x.place pa = x.place pb) : x.regionOf pa = x.regionOf pb ∧ pa % 2 ^ 21 = pb % 2 ^ 21 := by
  simp only [Stacks.place, HbmPlace.mk.injEq] at h
  obtain ⟨hchannel, hgroup, hbank, hrow, hcolumn, hbyte⟩ := h
  unfold Stacks.regionOf
  generalize x.physical (paStack pa) (paLayer pa) (paRegion pa) = g at *
  generalize x.physical (paStack pb) (paLayer pb) (paRegion pb) = g' at *
  omega

/-- An address is its bits above the layer, its layer, stack and region, and the offset in the region. -/
theorem address_split (pa : Nat) :
    pa = pa / 2 ^ 41 * 2 ^ 41 + paLayer pa * 2 ^ 37 + paStack pa * 2 ^ 32 + paRegion pa * 2 ^ 21 + pa % 2 ^ 21 := by
  unfold paLayer paStack paRegion
  omega

/-- In a layer of a stack whose regions share no physical region, a place has one address. -/
theorem place_injective (hstack : paStack pa = paStack pb) (hlayer : paLayer pa = paLayer pb) (hhigh : pa / 2 ^ 41 = pb / 2 ^ 41)
    (hregion : x.physical (paStack pa) (paLayer pa) (paRegion pa) = x.physical (paStack pa) (paLayer pa) (paRegion pb) →
      paRegion pa = paRegion pb) (h : x.place pa = x.place pb) : pa = pb := by
  obtain ⟨hphys, hlow⟩ := place_eq x h
  have hsame : paRegion pa = paRegion pb := hregion (by rwa [Stacks.regionOf, Stacks.regionOf, ← hstack, ← hlayer] at hphys)
  rw [address_split pa, address_split pb, hhigh, hlayer, hstack, hsame, hlow]

/-- A 2 MiB region has one physical region. -/
theorem regionOf_congr (h : pa / 2 ^ 21 = pb / 2 ^ 21) : x.regionOf pa = x.regionOf pb := by
  have hstack : paStack pa = paStack pb := by unfold paStack; omega
  have hlayer : paLayer pa = paLayer pb := by unfold paLayer; omega
  have hregion : paRegion pa = paRegion pb := by unfold paRegion; omega
  rw [Stacks.regionOf, Stacks.regionOf, hstack, hlayer, hregion]

/-- The place from the physical region and the address. -/
theorem place_of_regionOf {g : Nat} (h : x.regionOf pa = g) :
    x.place pa = ⟨8 * (g % 4) + pa / 2 ^ 7 % 8, pa / 2 ^ 15 % 4, pa / 2 ^ 13 % 4, g / 4 * 16 + pa / 2 ^ 17 % 16,
      pa / 2 ^ 10 % 8, pa % 128⟩ := by
  subst h
  rfl

/-- The channel: the channel set of the physical region, and three bits of the address. -/
theorem place_channel (pa : Nat) : (x.place pa).channel = 8 * (x.regionOf pa % 4) + pa / 2 ^ 7 % 8 := rfl

/-- A 2 MiB region lies in one channel set. -/
theorem channelSet_congr (h : pa / 2 ^ 21 = pb / 2 ^ 21) : (x.place pa).channel / 8 = (x.place pb).channel / 8 := by
  simp only [place_channel, regionOf_congr x h]
  omega

/-- The next line lies in the next channel of its set. -/
theorem channel_rotates (pa : Nat) : (x.place (pa + 128)).channel % 8 = ((x.place pa).channel + 1) % 8 := by
  simp only [place_channel]
  omega

end Map

/-! ### The statements -/

/-- Settles O39: each command passes its checks, with what it draws, and comes to status 0. -/
theorem stackCommands : Obligations.StackCommands := by
  unfold Obligations.StackCommands
  refine ⟨fun on factor offset hlow hhigh => commandDoes_of_storCmd (fun _ => rfl) ?swapcfg,
    fun stack layer region hstack hlayer hregion => commandDoes_of_storCmd (fun _ => rfl) ?spare,
    fun stack layer => commandDoes_of_storCmd (fun _ => rfl) ?readcnt,
    fun layer part hbase hlayer => commandDoes_of_storCmd (fun _ => rfl) ?retire,
    fun layer => commandDoes_of_storCmd (fun _ => rfl) ?restore,
    fun ctx key c => commandDoes_of_storCmd (fun _ => rfl) ?rotate⟩
  case swapcfg =>
    intro s _
    simp [Nat.not_lt.mpr hlow, Nat.not_lt.mpr hhigh]
  case spare =>
    rintro s ⟨hidle, hdrawn, hunused⟩
    have hspare : s.hbm.moved.any (fun m => m.stack == stack && m.layer == layer && m.physical == 1908 + (s.draw 140).1) = false := by
      simpa [and_assoc] using hunused
    simp [Nat.not_le.mpr hstack, Nat.not_le.mpr hlayer, Nat.not_le.mpr hregion, swapping_eq_false hidle, hdrawn, hspare]
  case readcnt =>
    rintro s ⟨hstack, hlayer⟩
    simp [Nat.not_le.mpr hstack, Nat.not_le.mpr hlayer]
  case retire =>
    rintro s ⟨huse, hidle, hpart⟩
    have hquiet : s.hbm.swaps.any (fun w => w.layer == layer) = false := by simpa using hidle
    simp only [hpart]
    simp [Nat.not_le.mpr hlayer, hbase, huse, hquiet]
  case restore =>
    intro s hout
    simp [hout]
  case rotate =>
    intro s hc
    simp [hc]

/-- Settles O40: the controller's draws decide on a swap or leave it, and a swap decided on is carried out. -/
theorem remapping : Obligations.Remapping := by
  unfold Obligations.Remapping
  intro stack s
  refine ⟨?decision, fun w hw => regionSwap_becomes hw⟩
  case decision =>
    intro s0 go layer a b hon hidle hstack
    exact ⟨fun hno => epochEnd_stays hon hidle hstack rfl rfl rfl rfl hno,
      fun hyes huse hsets => epochEnd_decides hon hidle hstack rfl rfl rfl rfl hyes huse hsets⟩

/-- Settles O60: the bits of an address give its place; a place and a region give the bits; a region keeps its channel set. -/
theorem hbmMap : Obligations.HbmMap := by
  unfold Obligations.HbmMap
  refine ⟨fun x pa => ⟨?place, rfl, rfl, rfl⟩,
    fun x pa pb hstack hlayer hhigh hregion h => place_injective x hstack hlayer hhigh hregion h,
    fun x pa pb h => ⟨channelSet_congr x h, ?next⟩, fun x h => ?home, fun x h => ?moved⟩
  case place => simp [Stacks.place]
  case next =>
    rintro rfl
    exact channel_rotates x pa
  case home | moved =>
    exact (place_of_regionOf x (pa := 0x494C36CEC5) h).trans rfl

end Sys2Proof.Machine
end

