-- ==== Sys2Proof/Proofs/CellarHost.lean ====
section
/-! PROOFS. The Cellar: boot, recovery and attestation, the host's registers and rings, its requests, and what happens to the module. -/

namespace Sys2Proof.Machine

open Sys2Proof

variable {s : State}

/-! ### Boot and recovery (R425, R427) -/

section Boot

variable {b : List Byte}

theorem imageAccepted_iff :
    imageAccepted b = true ↔ Config.signaturesValid b = true ∧ Config.fusedVersion ≤ Config.imageVersion b := by
  simp [imageAccepted]

theorem imageAccepted_eq_false_iff :
    imageAccepted b = false ↔ Config.signaturesValid b = false ∨ Config.imageVersion b < Config.fusedVersion := by
  rw [← Bool.not_eq_true, imageAccepted_iff, Decidable.not_and_iff_not_or_not, Bool.not_eq_true, Nat.not_le]

theorem boot_booted (h : s.cellar.status ≠ 1) : Becomes .boot s s := becomes_of_finish rfl (if_pos h)

variable (hst : s.cellar.status = 1)

include hst

theorem boot_empty (hstore : s.cellar.store = none) : Becomes .boot s { s with cellar := s.cellar.recover 1 } :=
  becomes_of_finish rfl (by simp [hst, hstore])

/-- An accepted image opens the queues, and the Cellar keeps its own regions. -/
theorem boot_accepts (hstore : s.cellar.store = some b) (hok : imageAccepted b = true) :
    Becomes .boot s
      { s with cellar := { s.cellar with status := 0, stage := 3, recWin := [], keeps := Config.cellarRegions } } :=
  becomes_of_finish rfl (by simp [hst, hstore, hok])

/-- A refused image ends in recovery, at the stage that is drawn. -/
theorem boot_refuses (hstore : s.cellar.store = some b) (hbad : imageAccepted b = false) :
    Becomes .boot s { (s.draw 2).2 with cellar := s.cellar.recover (1 + (s.draw 2).1) } :=
  becomes_of_finish rfl (by simp [hst, hstore, hbad]; rfl)

end Boot

section Recovery

variable {v : DWord} {c : Cellar} {len seq : Nat}

theorem recoveryChunk_idle (hst : s.cellar.status ≠ 2) : Becomes (.recoveryChunk v) s s := becomes_of_finish rfl (if_pos hst)

/-- A chunk has bytes, and no more than the recovery window holds. -/
theorem wellSized_iff : ¬(len = 0 || 65528 < len) = true ↔ 1 ≤ len ∧ len ≤ 65528 := by
  simp only [Bool.or_eq_true, decide_eq_true_eq]
  omega

variable (hc : { s.cellar with recWin := winPut s.cellar.recWin 0xFFF8 v } = c)
  (hseq : v.toNat / 2 ^ 24 % 2 ^ 32 = seq) (hst : c.status = 2)

include hc hseq hst

/-- A chunk out of its sequence discards what is staged (error 1). -/
theorem recoveryChunk_misplaced (hbad : seq ≠ c.nextSeq) : Becomes (.recoveryChunk v) s { s with cellar := c.discard 1 } := by
  subst hc hseq
  exact becomes_of_finish rfl ((if_neg (not_not_intro hst)).trans (if_pos hbad))

variable (hlen : v.toNat % 2 ^ 24 = len) (hnext : seq = c.nextSeq)

include hlen hnext

/-- A chunk of no bytes, or of more than the window holds, discards it too (error 2). -/
theorem recoveryChunk_illSized (hbad : len = 0 ∨ 65528 < len) : Becomes (.recoveryChunk v) s { s with cellar := c.discard 2 } := by
  subst hc hlen hseq
  exact becomes_of_finish rfl ((if_neg (not_not_intro hst)).trans ((if_neg (not_not_intro hnext)).trans (if_pos (by simpa using hbad))))

variable (hsize : 1 ≤ len ∧ len ≤ 65528)

include hsize

/-- A chunk that makes the image too long discards it too (error 3). -/
theorem recoveryChunk_overlong (hbad : 2 ^ 30 < c.staged.length + len) :
    Becomes (.recoveryChunk v) s { s with cellar := c.discard 3 } := by
  subst hc hlen hseq
  exact becomes_of_finish rfl ((if_neg (not_not_intro hst)).trans ((if_neg (not_not_intro hnext)).trans
    ((if_neg (wellSized_iff.mpr hsize)).trans (if_pos hbad))))

section Fits

variable (hroom : c.staged.length + len ≤ 2 ^ 30) {staged : List Byte} (hstaged : c.staged ++ cellBytes c.recWin 0 len = staged)

include hroom hstaged

/-- A chunk in its sequence that fits is staged; with the last one the image is installed, or refused with error 4. -/
theorem recoveryChunk_fits : Becomes (.recoveryChunk v) s
    (if !v.toNat.testBit 63 then
      { s with cellar := { c with staged := staged, nextSeq := seq + 1, rack := (seq + 1) % 2 ^ 32, rerr := 0 } }
    else if imageAccepted staged then
      { s with cellar := { c with
        store := some staged, staged := [], nextSeq := 0, rack := (seq + 1) % 2 ^ 32, rerr := 0, status := 1, stage := 0
        recWin := [] } }
    else { s with cellar := { c with staged := [], nextSeq := 0, rack := (seq + 1) % 2 ^ 32, rerr := 4 } }) := by
  subst hc hlen hseq hstaged
  exact becomes_of_finish rfl ((if_neg (not_not_intro hst)).trans ((if_neg (not_not_intro hnext)).trans
    ((if_neg (wellSized_iff.mpr hsize)).trans (if_neg (Nat.not_lt.mpr hroom)))))

theorem recoveryChunk_staged (hmore : v.toNat.testBit 63 = false) :
    Becomes (.recoveryChunk v) s
      { s with cellar := { c with staged := staged, nextSeq := seq + 1, rack := (seq + 1) % 2 ^ 32, rerr := 0 } } := by
  have h := recoveryChunk_fits hc hseq hst hlen hnext hsize hroom hstaged
  rwa [if_pos (by simp [hmore])] at h

variable (hlast : v.toNat.testBit 63 = true)

include hlast

theorem recoveryChunk_installed (hok : imageAccepted staged = true) :
    Becomes (.recoveryChunk v) s
      { s with cellar := { c with
        store := some staged, staged := [], nextSeq := 0, rack := (seq + 1) % 2 ^ 32, rerr := 0, status := 1, stage := 0
        recWin := [] } } := by
  have h := recoveryChunk_fits hc hseq hst hlen hnext hsize hroom hstaged
  rwa [if_neg (by simp [hlast]), if_pos hok] at h

theorem recoveryChunk_refused (hbad : imageAccepted staged = false) :
    Becomes (.recoveryChunk v) s
      { s with cellar := { c with staged := [], nextSeq := 0, rack := (seq + 1) % 2 ^ 32, rerr := 4 } } := by
  have h := recoveryChunk_fits hc hseq hst hlen hnext hsize hroom hstaged
  rwa [if_neg (by simp [hlast]), if_neg (by simp [hbad])] at h

end Fits

end Recovery

/-! ### Registers and rings (R429, R430, R433) -/

section Registers

variable {v : DWord} {pa : Nat}

/-- The Cellar takes the requests of the ring at `pa` that it has not taken yet. -/
def State.takenFrom (s : State) (pa : Nat) : State :=
  let cons := s.ringCons pa
  let cap := s.ringCap pa
  let n := min (s.ringProd pa - cons) cap
  let recs := (List.range n).map (fun i => s.peekBytes (pa + 64 + 64 * ((cons + i) % cap)) 64)
  ((s.pokeN (pa + 8) 8 (cons + n)).flush).skipUnknown (s.cellar.taken ++ recs)

/-- With its rings open the Cellar takes from the request ring. -/
theorem takeRequests_open (hen : s.cellar.en = true) (hpa : hostPa s.cellar.reqBase.toNat = some pa) :
    s.takeRequests = s.takenFrom pa := by
  simp only [State.takeRequests, hen, hpa, Bool.not_true, Bool.false_eq_true, if_false]
  rfl

section Enable

variable (hst : s.cellar.status = 0)

include hst

theorem qenable_clear (hv : v.getLsbD 0 = false) : Becomes (.qenableWrite v) s { s with cellar := { s.cellar with en := false } } :=
  becomes_of_finish rfl ((if_neg (not_not_intro hst)).trans (if_pos (by rw [hv, Bool.not_false])))

/-- EN that is set opens rings that are in order, and else sets QERR. -/
theorem qenable_set (hv : v.getLsbD 0 = true) (hen : s.cellar.en = false) {good : Bool}
    (hgood : (s.ringOk s.cellar.reqBase && s.ringOk s.cellar.rspBase && s.ringOk s.cellar.evtBase && s.ringsApart) = good) :
    Becomes (.qenableWrite v) s { s with cellar := { s.cellar with en := good, qerr := !good } } := by
  refine becomes_of_finish rfl ?_
  simp only [hst, hv, hen, hgood, ne_eq, not_true_eq_false, Bool.not_true, Bool.false_eq_true, if_false]
  cases good <;> rfl

end Enable

/-- A word of the recovery window is kept in recovery mode. -/
theorem registerWrite_window {off : Nat} (hst : s.cellar.status = 2) (hlo : 0x10000 ≤ off) (hhi : off < 0x1FFF8) (hal : off % 8 = 0) :
    Becomes (.registerWrite off v) s
      { s with cellar := { s.cellar with recWin := winPut s.cellar.recWin (off - 0x10000) v } } := by
  have hreg : ¬off = 0x10 ∧ ¬off = 0x18 ∧ ¬off = 0x20 ∧ ¬off = 0x38 := by omega
  obtain ⟨h10, h18, h20, h38⟩ := hreg
  exact becomes_of_finish rfl (by
    simp only [h10, h18, h20, h38, hst, hlo, hhi, hal, decide_true, Bool.and_self, if_true, if_false])

theorem eventPost_becomes {t : State} {e : List Byte} {rest : List (List Byte)} (he : s.flush.cellar.events = e :: rest)
    (ht : s.flush.ringPut s.flush.cellar.evtBase e = some t) :
    Becomes .eventPost s { t with cellar := { t.cellar with events := rest } } :=
  becomes_of_finish rfl (by simp only [he, ht])

end Registers

/-! ### Requests (R426, R431, R432, R434, R436, R437) -/

section Requests

variable {r : List Byte} {rest : List (List Byte)} {a n w : Nat}

theorem hostPa_some (h : a < 2 ^ 48) : hostPa a = some (2 * 2 ^ 48 + a) := if_pos h

/-- HELLO finds versions in common and rewrites the block (R434). -/
theorem hello_serves (h : Asked s 1 24 r rest) (ha : blockN r 16 8 = a) (hal : a % 8 = 0) (hfit : a + 64 ≤ 2 ^ 48)
    (hok : ∀ i ∈ (List.range 8).map (· + 1), versionOk ((s.took rest).peekBytes (2 * 2 ^ 48 + a) 64) i = true) {t : State}
    (ht : (s.took rest).pokeBytes (2 * 2 ^ 48 + a)
      (((List.range 8).map (· + 1)).flatMap (versionReply ((s.took rest).peekBytes (2 * 2 ^ 48 + a) 64))) = t) :
    Serves .hello s (({ t with cellar := { t.cellar with hello := true } }).answer (reqTag r) 0 8) := by
  have hgood : (a % 8 ≠ 0 || 2 ^ 48 < a + 64 ||
      !((List.range 8).map (· + 1)).all (versionOk ((s.took rest).peekBytes (2 * 2 ^ 48 + a) 64))) = false := by
    simp only [List.all_eq_true.mpr hok, hal, Nat.not_lt.mpr hfit, ne_eq, not_true_eq_false, decide_false, Bool.not_true, Bool.or_self]
  refine becomes_of_finish rfl (h.serve_eq ?_)
  simp only [ha, hostPa_some (show a < 2 ^ 48 by omega), hgood, ht, Bool.false_eq_true, if_false]

/-- A context that finds its number and memory is made, and its number is the answer (R6, R431). -/
theorem finishCreate_makes {num : Nat} {u : State} (h : s.Makes r num u) : s.finishCreate r = u.answer (reqTag r) 0 num := by
  obtain ⟨k, s1, t, g, hdraw, hnum, hmem, rfl⟩ := h
  simp only [State.finishCreate, hdraw, hnum, hmem]

section Create

variable (h : Asked s 2 63 r rest) (hmask : createMask r ≠ []) (hprio : createPrio r ≤ 15) (hidle : s.cellar.announcing = none)
  (hok : (s.took rest).createRefused r = false)

include h hmask hprio hidle hok

/-- A CREATE that nothing refuses makes its context at once, or announces it. -/
theorem create_serves {t : State}
    (ht : (if createGroup r = 0xFF || (s.took rest).reachable.isEmpty then (s.took rest).finishCreate r
      else { s.took rest with cellar := { (s.took rest).cellar with announcing := some ⟨r, (s.took rest).reachable⟩ } }) = t) :
    Serves .create s t := by
  have hlegal : ((createMask r).isEmpty || decide (15 < createPrio r)) = false := by simp [hmask, hprio]
  have hfree : (s.took rest).cellar.announcing.isSome = false := by
    show s.cellar.announcing.isSome = false
    simp [hidle]
  refine becomes_of_finish rfl (h.serve_eq ?_)
  simp only [hlegal, hfree, hok, Bool.false_eq_true, if_false, ← apply_ite some, ht]

theorem create_alone {num : Nat} {u : State} (halone : createGroup r = 0xFF ∨ (s.took rest).reachable = [])
    (hu : (s.took rest).Makes r num u) : Serves .create s (u.answer (reqTag r) 0 num) :=
  create_serves h hmask hprio hidle hok ((if_pos (by simpa using halone)).trans (finishCreate_makes hu))

theorem create_announces (hgroup : createGroup r ≠ 0xFF) (hreach : (s.took rest).reachable ≠ []) :
    Serves .create s
      { s.took rest with cellar := { (s.took rest).cellar with announcing := some ⟨r, (s.took rest).reachable⟩ } } :=
  create_serves h hmask hprio hidle hok (if_neg (by simp [hgroup, hreach]))

end Create

/-- A start list that a CREATED context accepts runs (R432). -/
theorem start_serves {c : Ctx} {t : State} (h : Asked s 3 24 r rest) (hc : (s.took rest).ctx? (reqCtx r) = some c)
    (hst : c.state = .created) (ha : blockN r 16 8 = a) (hlist : (s.took rest).startList c a = some t)
    (hfits : (s.took rest).startFits t c = true) : Serves .start s ((t.placeListed c.num).answer (reqTag r) 0 0) :=
  becomes_of_finish rfl (h.serve_eq (by simp [hc, hst, ha, hlist, hfits]))

section Update

variable (h : Asked s 9 32 r rest)

include h

/-- An image that is being written is stored when the step comes again. -/
theorem update_ends {b : List Byte} (hb : s.cellar.updating = some b) :
    Serves .update s
      (({ s.took rest with cellar := { (s.took rest).cellar with store := some b, updating := none } }).answer (reqTag r) 0 0) := by
  have hb : (s.took rest).cellar.updating = some b := hb
  exact becomes_of_finish rfl (h.serve_eq (by simp only [hb]))

/-- Without contexts an accepted image is begun to be written, and its request stays. -/
theorem update_begins (ha : blockN r 16 8 = a) (hhost : a < 2 ^ 48) (hn : blockN r 24 8 = n) (hnone : s.cellar.updating = none)
    (hempty : s.ctxs = []) (hfit : a + n ≤ 2 ^ 48)
    (hok : imageAccepted ((s.took rest).peekBytes (2 * 2 ^ 48 + a) n) = true) :
    Serves .update s
      { s.took rest with cellar := { (s.took rest).cellar with
        updating := some ((s.took rest).peekBytes (2 * 2 ^ 48 + a) n), taken := r :: rest } } := by
  have hnone : (s.took rest).cellar.updating = none := hnone
  have hempty : (s.took rest).ctxs = [] := hempty
  refine becomes_of_finish rfl (h.serve_eq ?_)
  simp only [hnone, ha, hn, hostPa_some hhost, hempty, Nat.not_lt.mpr hfit, hok, List.isEmpty_nil, Bool.not_true, Bool.false_eq_true,
    if_false, if_true]
  rfl

end Update

theorem powercap_serves (h : Asked s 10 20 r rest) (hw : blockN r 16 4 = w) (hlow : 3000 ≤ w) (hhigh : w ≤ 8500) :
    Serves .powercap s
      (({ s.took rest with cellar := { (s.took rest).cellar with powerCap := w } }).answer (reqTag r) 0 0) :=
  becomes_of_finish rfl (h.serve_eq (by simp [hw, Nat.not_lt.mpr hlow, Nat.not_lt.mpr hhigh]))

section Announced

variable {x : Announcing} {identity : DWord} (hx : s.cellar.announcing = some x)

include hx

/-- With the last acknowledgement the CREATE goes on; before it the others are waited for (R436). -/
theorem announceAcknowledgement_becomes {left : List DWord} (hleft : x.waiting.filter (· != identity) = left) :
    Becomes (.announceAcknowledgement identity) s
      (if left.isEmpty then { s with cellar := { s.cellar with announcing := none } }.finishCreate x.record
       else { s with cellar := { s.cellar with announcing := some { x with waiting := left } } }) :=
  becomes_of_finish rfl (by simp only [hx, hleft])

theorem acknowledgementTimeout_becomes :
    Becomes .acknowledgementTimeout s
      ({ s with cellar := { s.cellar with announcing := none } }.answer (reqTag x.record) 3 0) :=
  becomes_of_finish rfl (by simp only [hx])

end Announced

end Requests

/-! ### Links, members, heat, ports and power (R426, R435 to R437) -/

section Module

variable {group dev die port : Nat}

theorem linkTraining_becomes (port : Nat) (up : Bool) (major minor : Nat) (identity : DWord) (s : State) {t : State}
    (ht : { s with cellar := { s.cellar with
      links :=
        if up = true ∧ major = 1 ∧ minor = 0 ∧ port < 16 then
          s.cellar.links.filter (fun l => l.port != port) ++ [⟨port, identity⟩]
        else s.cellar.links.filter (fun l => l.port != port) } } = t) :
    Becomes (.linkTraining port up major minor identity) s
      ((s.cellar.members.filter (fun m => s.reaches m && !t.reaches m)).foldl (fun s m => s.loseMember m.group) t) := by
  subst ht
  refine becomes_of_finish rfl ?_
  simp only [Bool.and_eq_true, beq_iff_eq, decide_eq_true_eq, and_assoc]

theorem fabricGroupAnnounce_becomes {identity : DWord} {ctx : Nat} (hnew : ∀ m ∈ s.cellar.members, ¬(m.group = group ∧ m.dev = dev))
    (hfree : ∀ c ∈ s.ctxs, ¬(c.group = group ∧ c.device = dev)) (hlegal : group ≤ 254) :
    Becomes (.fabricGroupAnnounce group dev identity ctx) s
      { s with cellar := { s.cellar with members := s.cellar.members ++ [⟨group, dev, identity, ctx⟩] } } := by
  have hmember : s.cellar.members.any (fun m => m.group == group && m.dev == dev) = false := by simpa using hnew
  have hctx : s.ctxs.any (fun c => c.group == group && c.device == dev) = false := by simpa using hfree
  exact becomes_of_finish rfl (by simp [hmember, hctx, Nat.not_lt.mpr hlegal])

theorem memberLeave_becomes {m : Member} (hm : m ∈ s.cellar.members) (hgroup : m.group = group) (hdev : m.dev = dev) :
    Becomes (.memberLeave group dev) s
      ({ s with cellar := { s.cellar with
        members := s.cellar.members.filter (fun (m : Member) => !(m.group == group && m.dev == dev)) } }.loseMember group) := by
  have hthere : s.cellar.members.any (fun m => m.group == group && m.dev == dev) = true :=
    List.any_eq_true.mpr ⟨m, hm, by simp [hgroup, hdev]⟩
  exact becomes_of_finish rfl (by simp only [hthere, if_true])

theorem thermalThrottle_becomes (hdie : die < Config.dies) (hclock : countAt s.cellar.clock die < 8) :
    Becomes (.thermalThrottle die) s
      ({ s with cellar := { s.cellar with
        clock := countSet s.cellar.clock die (countAt s.cellar.clock die + 1) } }.powerEvent die) :=
  becomes_of_finish rfl (by simp [Nat.not_le.mpr hdie, Nat.not_le.mpr hclock])

theorem thermalTrip_becomes (hdie : die < Config.dies) :
    Becomes (.thermalTrip die) s ((s.ctxs.foldl (fun s c => s.tripCtx die c) s).powerEvent die) :=
  becomes_of_finish rfl (if_neg (Nat.not_le.mpr hdie))

theorem expanderRemoved_becomes {layer bytes : DWord × State} (hport : port < 8) (hthere : port ∉ s.cellar.absent)
    (hlayer : s.drawBits = layer) (hbytes : layer.2.drawBits = bytes) :
    Becomes (.expanderRemoved port) s
      ({ bytes.2 with cellar := { bytes.2.cellar with absent := natPut bytes.2.cellar.absent port } }.postEvent 6 0xFFFF
        (leBytes 8 layer.1.toNat ++ leBytes 8 bytes.1.toNat ++ leBytes 8 0) []) := by
  subst hlayer hbytes
  exact becomes_of_finish rfl (if_neg (by simp [hport, hthere]))

end Module

/-! ### The statements -/

/-- Settles O41: BOOT by the store and its image, a chunk by its place and its size, an SPDM request by its kind. -/
theorem bootAndAttestation : Obligations.BootAndAttestation := by
  unfold Obligations.BootAndAttestation
  refine ⟨fun v s => ⟨⟨_, becomes_of_finish rfl rfl⟩, ⟨_, becomes_of_finish rfl rfl⟩⟩, ?boot, ?chunk,
    fun req s => ⟨rfl, rfl, rfl, rfl, rfl, rfl, rfl⟩⟩
  case boot =>
    exact fun s => ⟨boot_booted, fun hst => ⟨boot_empty hst, fun b hstore =>
      ⟨fun hsig hver => boot_accepts hst hstore (imageAccepted_iff.mpr ⟨hsig, hver⟩),
        fun hbad => boot_refuses hst hstore (imageAccepted_eq_false_iff.mpr hbad)⟩⟩⟩
  case chunk =>
    intro v s c len seq staged gives
    refine ⟨recoveryChunk_idle, fun hst hbad => recoveryChunk_misplaced rfl rfl hst hbad,
      fun hst hseq hbad => recoveryChunk_illSized rfl rfl hst rfl hseq hbad,
      fun hst hseq hsome hwin hbad => recoveryChunk_overlong rfl rfl hst rfl hseq ⟨hsome, hwin⟩ hbad,
      fun hst hseq hsome hwin hroom =>
        ⟨fun hmore => recoveryChunk_staged rfl rfl hst rfl hseq ⟨hsome, hwin⟩ hroom rfl hmore,
          fun hlast hok => recoveryChunk_installed rfl rfl hst rfl hseq ⟨hsome, hwin⟩ hroom rfl hlast hok,
          fun hlast hbad => recoveryChunk_refused rfl rfl hst rfl hseq ⟨hsome, hwin⟩ hroom rfl hlast hbad⟩⟩

/-- Settles O42: each register by its offset, a doorbell and a poll by the open request ring, an event by its ring. -/
theorem hostRegisters : Obligations.HostRegisters := by
  unfold Obligations.HostRegisters
  refine ⟨?enable, ?take, ?write, fun s t e rest he ht => eventPost_becomes he ht⟩
  case enable =>
    exact fun v s hst => ⟨qenable_clear hst, fun hv hen hgood => qenable_set hst hv hen hgood,
      fun hv hen hgood => qenable_set hst hv hen hgood⟩
  case take =>
    exact fun v s pa => ⟨fun hen hpa => becomes_of_finish rfl (takeRequests_open hen hpa),
      fun hen hpa => becomes_of_finish rfl (takeRequests_open hen hpa)⟩
  case write =>
    refine fun v s => ⟨fun hen => ⟨?req, ?rsp, ?evt⟩, becomes_of_finish rfl rfl,
      fun off hst hlo hhi hal => registerWrite_window hst hlo hhi hal⟩
    case req | rsp | evt => exact becomes_of_finish rfl (if_neg (Bool.eq_false_iff.mp hen))

/-- Settles O43: each request, legal, is served as its arguments say; an announced CREATE ends by its acknowledgements or in time-out. -/
theorem hostRequests : Obligations.HostRequests := by
  unfold Obligations.HostRequests
  intro s r rest s' a n w pa ids
  refine ⟨fun h hal hfit hok => hello_serves h rfl hal hfit hok rfl,
    fun h hmask hprio hidle hok => ⟨fun num u halone hu => create_alone h hmask hprio hidle hok halone hu,
      fun hgroup hreach => create_announces h hmask hprio hidle hok hgroup hreach⟩,
    fun c t h hc hst hlist hfits => start_serves h hc hst rfl hlist hfits,
    fun h hhost => ⟨fun b hb => update_ends h hb,
      fun hnone hempty hfit hok => update_begins h rfl hhost rfl hnone hempty hfit hok⟩,
    fun h hlow hhigh => powercap_serves h rfl hlow hhigh,
    fun x identity hx => ⟨fun num u hlast hu => ?last, fun hmore => ?more, acknowledgementTimeout_becomes hx⟩⟩
  case last =>
    have hack := announceAcknowledgement_becomes hx hlast
    rwa [if_pos List.isEmpty_nil, finishCreate_makes hu] at hack
  case more =>
    have hack := announceAcknowledgement_becomes hx (identity := identity) rfl
    rwa [if_neg (by simpa using hmore)] at hack

/-- Settles O45: each event of the module happens where its conditions hold. -/
theorem moduleEvents : Obligations.ModuleEvents := by
  unfold Obligations.ModuleEvents
  exact ⟨fun port up major minor identity s => linkTraining_becomes port up major minor identity s rfl,
    fun group dev ctx identity s => ⟨fun hnew hfree hlegal => fabricGroupAnnounce_becomes hnew hfree hlegal,
      fun m hm hgroup hdev => memberLeave_becomes hm hgroup hdev⟩,
    fun die s hdie => ⟨fun hclock => thermalThrottle_becomes hdie hclock, thermalTrip_becomes hdie⟩,
    fun port s hport hthere => expanderRemoved_becomes hport hthere rfl rfl,
    fun s => becomes_of_finish rfl rfl⟩

end Sys2Proof.Machine
end
